-- ==== Sys2Proof/Syntax.lean ====
section
/-! DEFINITION. The instructions and device events of the PH640: one constructor per row of the opcode table.

268 constructors are the encoded instructions (R75 to R77), each with the fields that its row names, at the row's widths:
a, b, c, d the register fields A to D, m the mask field, f the operand form FN[7:6] (R69), i an immediate, o an offset.
68 are the events of the part that no word encodes (95_what_each_step_holds.md), with the plain data that say where they
take place. -/

namespace Sys2Proof

/-- One instruction or device event of the PH640. -/
inductive Instr where
  -- encoded vector, memory, matrix and engine instructions
  /-- VSTRIP (R66). Sets VL, RL and VTYPE from requested length and rows, applying a pending GVLEN, and closes the strip. -/
  | vstrip (a b c : BitVec 5) (x y : BitVec 1) (e : BitVec 4)
  /-- VADD (R160). Adds vector elements modulo 2^w. -/
  | vadd (a b c : BitVec 5) (m : BitVec 3) (f : BitVec 2)
  /-- VSUB (R160). Subtracts vector elements modulo 2^w. -/
  | vsub (a b c : BitVec 5) (m : BitVec 3) (f : BitVec 2)
  /-- VMUL (R160). Multiplies vector elements modulo 2^w. -/
  | vmul (a b c : BitVec 5) (m : BitVec 3) (f : BitVec 2)
  /-- VMULH (R160). Writes the high half of signed element products. -/
  | vmulh (a b c : BitVec 5) (m : BitVec 3) (f : BitVec 2)
  /-- VMULHN (R160). Writes the high half of unsigned element products. -/
  | vmulhn (a b c : BitVec 5) (m : BitVec 3) (f : BitVec 2)
  /-- VDIV (R160). Divides elements signed, truncating. -/
  | vdiv (a b c : BitVec 5) (m : BitVec 3) (f : BitVec 2)
  /-- VDIVN (R160). Divides elements unsigned. -/
  | vdivn (a b c : BitVec 5) (m : BitVec 3) (f : BitVec 2)
  /-- VREM (R160). Writes signed element remainders. -/
  | vrem (a b c : BitVec 5) (m : BitVec 3) (f : BitVec 2)
  /-- VREMN (R160). Writes unsigned element remainders. -/
  | vremn (a b c : BitVec 5) (m : BitVec 3) (f : BitVec 2)
  /-- VMIN (R160). Writes signed element minima. -/
  | vmin (a b c : BitVec 5) (m : BitVec 3) (f : BitVec 2)
  /-- VMAX (R160). Writes signed element maxima. -/
  | vmax (a b c : BitVec 5) (m : BitVec 3) (f : BitVec 2)
  /-- VMINN (R160). Writes unsigned element minima. -/
  | vminn (a b c : BitVec 5) (m : BitVec 3) (f : BitVec 2)
  /-- VMAXN (R160). Writes unsigned element maxima. -/
  | vmaxn (a b c : BitVec 5) (m : BitVec 3) (f : BitVec 2)
  /-- VAND (R160). Bitwise AND of elements. -/
  | vand (a b c : BitVec 5) (m : BitVec 3) (f : BitVec 2)
  /-- VOR (R160). Bitwise OR of elements. -/
  | vor (a b c : BitVec 5) (m : BitVec 3) (f : BitVec 2)
  /-- VXOR (R160). Bitwise XOR of elements. -/
  | vxor (a b c : BitVec 5) (m : BitVec 3) (f : BitVec 2)
  /-- VSHL (R160). Shifts elements left. -/
  | vshl (a b c : BitVec 5) (m : BitVec 3) (f : BitVec 2)
  /-- VSHR (R160). Shifts elements right with zero fill. -/
  | vshr (a b c : BitVec 5) (m : BitVec 3) (f : BitVec 2)
  /-- VSHRA (R160). Shifts elements right with sign fill. -/
  | vshra (a b c : BitVec 5) (m : BitVec 3) (f : BitVec 2)
  /-- VSADD (R160). Adds elements with saturation to the etype's range. -/
  | vsadd (a b c : BitVec 5) (m : BitVec 3) (f : BitVec 2)
  /-- VSSUB (R160). Subtracts elements with saturation. -/
  | vssub (a b c : BitVec 5) (m : BitVec 3) (f : BitVec 2)
  /-- VADC (R161). Adds elements plus a per-element carry bit from a carry mask. -/
  | vadc (a b c : BitVec 5) (m : BitVec 3) (f : BitVec 2)
  /-- VSBC (R161). Subtracts elements and a per-element borrow bit. -/
  | vsbc (a b c : BitVec 5) (m : BitVec 3) (f : BitVec 2)
  /-- VMACC (R160). Adds element products into the destination modulo 2^w. -/
  | vmacc (a b c : BitVec 5) (m : BitVec 3) (f : BitVec 2)
  /-- VFADD (R162). Adds FP elements rounded once. -/
  | vfadd (a b c : BitVec 5) (m : BitVec 3) (f : BitVec 2)
  /-- VFSUB (R162). Subtracts FP elements. -/
  | vfsub (a b c : BitVec 5) (m : BitVec 3) (f : BitVec 2)
  /-- VFMUL (R162). Multiplies FP elements. -/
  | vfmul (a b c : BitVec 5) (m : BitVec 3) (f : BitVec 2)
  /-- VFDIV (R162). Divides FP elements. -/
  | vfdiv (a b c : BitVec 5) (m : BitVec 3) (f : BitVec 2)
  /-- VFMIN (R162). Writes FP element minimumNumber. -/
  | vfmin (a b c : BitVec 5) (m : BitVec 3) (f : BitVec 2)
  /-- VFMAX (R162). Writes FP element maximumNumber. -/
  | vfmax (a b c : BitVec 5) (m : BitVec 3) (f : BitVec 2)
  /-- VFSQRT (R162). Takes FP element square roots. -/
  | vfsqrt (a b : BitVec 5) (m : BitVec 3)
  /-- VFABS (R162). Clears FP element sign bits. -/
  | vfabs (a b : BitVec 5) (m : BitVec 3)
  /-- VFNEG (R162). Inverts FP element sign bits. -/
  | vfneg (a b : BitVec 5) (m : BitVec 3)
  /-- VFSGN (R162). Copies the sign bit of the second operand into each element. -/
  | vfsgn (a b c : BitVec 5) (m : BitVec 3) (f : BitVec 2)
  /-- VFMA (R163). Fused multiply-add of FP elements. -/
  | vfma (a b c d : BitVec 5) (m : BitVec 3)
  /-- VFMS (R163). Fused multiply-subtract of FP elements. -/
  | vfms (a b c d : BitVec 5) (m : BitVec 3)
  /-- VFNMA (R163). Negated fused multiply-add of FP elements. -/
  | vfnma (a b c d : BitVec 5) (m : BitVec 3)
  /-- VFNMS (R163). Negated fused multiply-subtract of FP elements. -/
  | vfnms (a b c d : BitVec 5) (m : BitVec 3)
  /-- VIMA (R163). Integer multiply-add of elements modulo 2^w. -/
  | vima (a b c d : BitVec 5) (m : BitVec 3)
  /-- VWFMA (R163). Fused multiply-add into a wider FP type. -/
  | vwfma (a b c d : BitVec 5) (m : BitVec 3)
  /-- VCVT (R164). Converts each element to a destination etype under a rounding code and saturate bit. -/
  | vcvt (a b r : BitVec 5) (m : BitVec 3) (s : BitVec 1) (d : BitVec 4)
  /-- VCEQ (R165). Sets mask bits where integer elements are equal. -/
  | vceq (a : BitVec 3) (b c : BitVec 5) (m : BitVec 3) (f : BitVec 2)
  /-- VCNE (R165). Sets mask bits where integer elements differ. -/
  | vcne (a : BitVec 3) (b c : BitVec 5) (m : BitVec 3) (f : BitVec 2)
  /-- VCLT (R165). Sets mask bits where signed less. -/
  | vclt (a : BitVec 3) (b c : BitVec 5) (m : BitVec 3) (f : BitVec 2)
  /-- VCLE (R165). Sets mask bits where signed less or equal. -/
  | vcle (a : BitVec 3) (b c : BitVec 5) (m : BitVec 3) (f : BitVec 2)
  /-- VCGT (R165). Sets mask bits where signed greater. -/
  | vcgt (a : BitVec 3) (b c : BitVec 5) (m : BitVec 3) (f : BitVec 2)
  /-- VCGE (R165). Sets mask bits where signed greater or equal. -/
  | vcge (a : BitVec 3) (b c : BitVec 5) (m : BitVec 3) (f : BitVec 2)
  /-- VCLTN (R165). Sets mask bits where unsigned less. -/
  | vcltn (a : BitVec 3) (b c : BitVec 5) (m : BitVec 3) (f : BitVec 2)
  /-- VCLEN (R165). Sets mask bits where unsigned less or equal. -/
  | vclen (a : BitVec 3) (b c : BitVec 5) (m : BitVec 3) (f : BitVec 2)
  /-- VCGTN (R165). Sets mask bits where unsigned greater. -/
  | vcgtn (a : BitVec 3) (b c : BitVec 5) (m : BitVec 3) (f : BitVec 2)
  /-- VCGEN (R165). Sets mask bits where unsigned greater or equal. -/
  | vcgen (a : BitVec 3) (b c : BitVec 5) (m : BitVec 3) (f : BitVec 2)
  /-- VFCEQ (R165). Sets mask bits where FP elements are ordered and equal. -/
  | vfceq (a : BitVec 3) (b c : BitVec 5) (m : BitVec 3) (f : BitVec 2)
  /-- VFCLT (R165). Sets mask bits where FP elements are ordered and less. -/
  | vfclt (a : BitVec 3) (b c : BitVec 5) (m : BitVec 3) (f : BitVec 2)
  /-- VFCLE (R165). Sets mask bits where FP elements are ordered and less or equal. -/
  | vfcle (a : BitVec 3) (b c : BitVec 5) (m : BitVec 3) (f : BitVec 2)
  /-- VFCUN (R165). Sets mask bits where either FP element is a NaN. -/
  | vfcun (a : BitVec 3) (b c : BitVec 5) (m : BitVec 3) (f : BitVec 2)
  /-- VCARRY (R165). Sets mask bits where element addition with carry overflows. -/
  | vcarry (a : BitVec 3) (b c : BitVec 5) (m : BitVec 3) (f : BitVec 2)
  /-- VBORROW (R165). Sets mask bits where element subtraction with borrow underflows. -/
  | vborrow (a : BitVec 3) (b c : BitVec 5) (m : BitVec 3) (f : BitVec 2)
  /-- MAND (R166). ANDs two masks. -/
  | mand (a b c : BitVec 3)
  /-- MOR (R166). ORs two masks. -/
  | mor (a b c : BitVec 3)
  /-- MXOR (R166). XORs two masks. -/
  | mxor (a b c : BitVec 3)
  /-- MANDN (R166). ANDs a mask with the complement of another. -/
  | mandn (a b c : BitVec 3)
  /-- MNOT (R166). Complements a mask. -/
  | mnot (a b : BitVec 3)
  /-- MMOV (R166). Copies a mask. -/
  | mmov (a b : BitVec 3)
  /-- MSHUP (R167). Shifts mask bits up by an immediate count. -/
  | mshup (a b : BitVec 3) (s : BitVec 5)
  /-- MSHDN (R167). Shifts mask bits down by an immediate count. -/
  | mshdn (a b : BitVec 3) (s : BitVec 5)
  /-- MPOPC (R167). Writes the count of set mask bits below N to a g register. -/
  | mpopc (a : BitVec 5) (b : BitVec 3)
  /-- MFIRST (R167). Writes the lowest set mask bit index, or all ones. -/
  | mfirst (a : BitVec 5) (b : BitVec 3)
  /-- MSET (R166). Sets mask bits below N. -/
  | mset (a : BitVec 3)
  /-- MCLR (R166). Clears mask bits below N. -/
  | mclr (a : BitVec 3)
  /-- MTOV (R166). Writes 1 or 0 into vector elements from mask bits. -/
  | mtov (a : BitVec 5) (b : BitVec 3)
  /-- VTOM (R166). Sets mask bits where vector elements are nonzero. -/
  | vtom (a : BitVec 3) (b : BitVec 5)
  /-- VMOV (R168). Copies the second operand into each element. -/
  | vmov (a c : BitVec 5) (m : BitVec 3) (f : BitVec 2)
  /-- VSPLAT (R168). Broadcasts element k to every element. -/
  | vsplat (a b c : BitVec 5) (m : BitVec 3) (f : BitVec 2)
  /-- VSLUP (R168). Slides elements up by k. -/
  | vslup (a b c : BitVec 5) (m : BitVec 3) (f : BitVec 2)
  /-- VSLDN (R168). Slides elements down by k. -/
  | vsldn (a b c : BitVec 5) (m : BitVec 3) (f : BitVec 2)
  /-- VRGATH (R168). Gathers register elements by an index vector. -/
  | vrgath (a b c : BitVec 5) (m : BitVec 3)
  /-- VROWS (R168). Extracts row k. -/
  | vrows (a b c : BitVec 5) (m : BitVec 3) (f : BitVec 2)
  /-- VCOLS (R168). Extracts column k. -/
  | vcols (a b c : BitVec 5) (m : BitVec 3) (f : BitVec 2)
  /-- VROWW (R168). Writes row k from a vector. -/
  | vroww (a b c : BitVec 5) (m : BitVec 3) (f : BitVec 2)
  /-- VCOLW (R168). Writes column k from a vector. -/
  | vcolw (a b c : BitVec 5) (m : BitVec 3) (f : BitVec 2)
  /-- VEXTR (R168). Extracts element k into a g register. -/
  | vextr (a b c : BitVec 5) (f : BitVec 2)
  /-- VINS (R168). Inserts a g register value at element k. -/
  | vins (a b c : BitVec 5) (f : BitVec 2)
  /-- VMERGE (R168). Merges the second operand and vB under the guard. -/
  | vmerge (a b c : BitVec 5) (m : BitVec 3) (f : BitVec 2)
  /-- VID (R168). Writes each element's index. -/
  | vid (a : BitVec 5) (m : BitVec 3)
  /-- VCOMPRESS (R173). Packs active elements to the low end. -/
  | vcompress (a b : BitVec 5) (m : BitVec 3)
  /-- VEXPAND (R173). Spreads low elements to active positions. -/
  | vexpand (a b : BitVec 5) (m : BitVec 3)
  /-- VIOTA (R173). Writes the prefix count of mask bits at each element. -/
  | viota (a : BitVec 5) (b m : BitVec 3)
  /-- VCONFLICT (R174). Writes the index of the latest earlier equal active element. -/
  | vconflict (a b : BitVec 5) (m : BitVec 3)
  /-- VSEGSCAN (R175). Writes an inclusive segmented scan under an operator. -/
  | vsegscan (a b o : BitVec 5) (m : BitVec 3)
  /-- VINTER (R177). Writes the lowest position of each element's value in another vector. -/
  | vinter (a b c : BitVec 5) (m : BitVec 3)
  /-- VDELTA (R178). Writes differences from kept state and replaces the state. -/
  | vdelta (a b c : BitVec 5) (m : BitVec 3)
  /-- VPRUNE48 (R179). Compresses each block of 8 to its 4 largest with metadata. -/
  | vprune48 (a b c : BitVec 5)
  /-- VSORTSEG (R180). Stably sorts active keys and writes source indices. -/
  | vsortseg (a b c : BitVec 5) (m : BitVec 3)
  /-- VNZ (R181). Writes indices of nonzero active elements and their count. -/
  | vnz (a b c : BitVec 5) (m : BitVec 3)
  /-- VRSUM (R183). Writes per-row integer sums. -/
  | vrsum (a b : BitVec 5) (m : BitVec 3)
  /-- VRMIN (R183). Writes per-row integer minima. -/
  | vrmin (a b : BitVec 5) (m : BitVec 3)
  /-- VRMAX (R183). Writes per-row integer maxima. -/
  | vrmax (a b : BitVec 5) (m : BitVec 3)
  /-- VRAND (R183). Writes per-row bitwise AND. -/
  | vrand (a b : BitVec 5) (m : BitVec 3)
  /-- VROR (R183). Writes per-row bitwise OR. -/
  | vror (a b : BitVec 5) (m : BitVec 3)
  /-- VRXOR (R183). Writes per-row bitwise XOR. -/
  | vrxor (a b : BitVec 5) (m : BitVec 3)
  /-- VFRSUM (R184). Writes per-row FP sums in canonical or bounded order. -/
  | vfrsum (a b : BitVec 5) (m : BitVec 3)
  /-- VFRMIN (R183). Writes per-row FP minima. -/
  | vfrmin (a b : BitVec 5) (m : BitVec 3)
  /-- VFRMAX (R183). Writes per-row FP maxima. -/
  | vfrmax (a b : BitVec 5) (m : BitVec 3)
  /-- VFDOT (R184). Writes per-row FP dot products. -/
  | vfdot (a b c : BitVec 5) (m : BitVec 3)
  /-- VTAGQ (R187). Samples the length of the ripe prefix of a register. -/
  | vtagq (a b : BitVec 5)
  /-- VWAITR (R188). Waits until every active element is ripe and writes their count. -/
  | vwaitr (a b : BitVec 5) (m : BitVec 3)
  /-- VDROP (R189). Writes zeros without waiting for older writers of the register. -/
  | vdrop (a : BitVec 5) (m : BitVec 3)
  /-- VPROG (R187). Samples the progress index of an earlier window entry. -/
  | vprog (a n : BitVec 5)
  /-- VLD (R196). Unit-stride vector load, or a relay receive on a receive-bound register. -/
  | vld (a b : BitVec 5) (m : BitVec 3)
  /-- VLDS (R196). Strided vector load. -/
  | vlds (a b c : BitVec 5) (m : BitVec 3)
  /-- VLDX (R197). Indexed gather broadcast to channel controllers. -/
  | vldx (a b c : BitVec 5) (m : BitVec 3)
  /-- VLDSEG (R202). Loads records of F fields into F registers with conversion. -/
  | vldseg (a b : BitVec 5) (t : BitVec 4) (m f : BitVec 3)
  /-- VLDW (R203). Reads elements from the die's weight store. -/
  | vldw (a b : BitVec 5) (m : BitVec 3)
  /-- VLDL (R199). Linked gather that sets owner tags. -/
  | vldl (a b c : BitVec 5) (m : BitVec 3)
  /-- VLDSC (R201). Sequentially consistent indexed load, element by element under tickets. -/
  | vldsc (a b c : BitVec 5) (m : BitVec 3)
  /-- VRLOAD (R204). Loads a whole-register image after checking its header. -/
  | vrload (a b : BitVec 5)
  /-- VST (R196). Unit-stride vector store, or a relay send on a send-bound register. -/
  | vst (a b : BitVec 5) (m : BitVec 3)
  /-- VSTS (R196). Strided vector store. -/
  | vsts (a b c : BitVec 5) (m : BitVec 3)
  /-- VSTX (R198). Indexed scatter store with ascending element order on equal addresses. -/
  | vstx (a b c : BitVec 5) (m : BitVec 3)
  /-- VSTSEG (R202). Stores records of F fields from F registers with conversion. -/
  | vstseg (a b : BitVec 5) (t : BitVec 4) (m f : BitVec 3)
  /-- VSTC (R200). Indexed conditional store writing success bits into m0. -/
  | vstc (a b c : BitVec 5) (m : BitVec 3)
  /-- VSTSC (R201). Sequentially consistent indexed store. -/
  | vstsc (a b c : BitVec 5) (m : BitVec 3)
  /-- VRSAVE (R204). Stores a whole-register image with header. -/
  | vrsave (a b : BitVec 5)
  /-- VLDROW (R205). Reads a row in one indivisible read from a ROWHOME page. -/
  | vldrow (a b : BitVec 5) (m : BitVec 3)
  /-- VSTROW (R205). Writes a row in one indivisible write at its home channel. -/
  | vstrow (a b : BitVec 5) (m : BitVec 3)
  /-- VEMB (R209). Performs a weighted, segmented embedding lookup from a table descriptor. -/
  | vemb (a b c d : BitVec 5) (m : BitVec 3)
  /-- VBIND (R211). Binds a register to a stream slot from a 32-byte record. -/
  | vbind (a : BitVec 3) (b c : BitVec 5)
  /-- VUNBIND (R214). Unbinds a slot, sending an end marker on a relay send slot. -/
  | vunbind (a : BitVec 3)
  /-- VBPOS (R214). Reads a slot's PROGRESS into a g register. -/
  | vbpos (a : BitVec 5) (b : BitVec 3)
  /-- VBSET (R214). Sets a stream slot's PROGRESS. -/
  | vbset (a : BitVec 3) (b : BitVec 5)
  /-- RELAY (R215). Binds a register as a relay port towards a mesh neighbour. -/
  | relay (a : BitVec 3) (b : BitVec 5) (s : BitVec 1) (d : BitVec 2)
  /-- URGN (R249). Opens an update region from a descriptor, or adds a log extent. -/
  | urgn (a b : BitVec 5)
  /-- UPD (R251). Sorts and pre-reduces index-value pairs and sends one pair per index to the press. -/
  | upd (a b c : BitVec 5) (m : BitVec 3)
  /-- USEAL (R259). Closes the current batch of an ORDERED region at every segment. -/
  | useal (a : BitVec 5)
  /-- UFLUSH (R259). Applies every received pair or sealed partial of a region. -/
  | uflush (a : BitVec 5)
  /-- UCLOSE (R259). Flushes and closes a region, returning its flags. -/
  | uclose (a : BitVec 5)
  /-- MMODE (R225). Enables tiles with a granted side and etype, zeroing them on change. -/
  | mmode (a b : BitVec 5) (t : BitVec 4)
  /-- TZERO (R236). Zeroes every byte of a tile. -/
  | tzero (t : BitVec 2)
  /-- TGETR (R235). Copies a tile row into a vector register. -/
  | tgetr (a : BitVec 5) (t : BitVec 2) (c : BitVec 5) (m : BitVec 3)
  /-- TGETC (R235). Copies a tile column into a vector register. -/
  | tgetc (a : BitVec 5) (t : BitVec 2) (c : BitVec 5) (m : BitVec 3)
  /-- TSETR (R235). Writes a tile row from a vector register. -/
  | tsetr (t : BitVec 2) (b c : BitVec 5) (m : BitVec 3)
  /-- TSETC (R235). Writes a tile column from a vector register. -/
  | tsetc (t : BitVec 2) (b c : BitVec 5) (m : BitVec 3)
  /-- TSTR (R238). Drains tile rows to memory with a row stride. -/
  | tstr (r : BitVec 3) (t : BitVec 2) (b c : BitVec 5) (m : BitVec 3)
  /-- TSTX (R238). Drains tile rows to memory at per-row offsets. -/
  | tstx (r : BitVec 3) (t : BitVec 2) (b c : BitVec 5) (m : BitVec 3)
  /-- MCBLD (R237). Loads a codebook from memory and rebuilds its tile's product table. -/
  | mcbld (k : BitVec 3) (b : BitVec 5)
  /-- TFOLD (R228). Adds outer products of two panels into a tile under predicates. -/
  | tfold (r : BitVec 3) (t : BitVec 2) (b c : BitVec 5) (m : BitVec 3)
  /-- TFOLDN (R228). Subtracts outer products from a tile. -/
  | tfoldn (r : BitVec 3) (t : BitVec 2) (b c : BitVec 5) (m : BitVec 3)
  /-- TFOLDI8 (R228). Adds INT8 outer products into an INT32 tile. -/
  | tfoldi8 (r : BitVec 3) (t : BitVec 2) (b c : BitVec 5) (m : BitVec 3)
  /-- TFOLDF8 (R228). Adds FP8 outer products into an FP32 tile. -/
  | tfoldf8 (r : BitVec 3) (t : BitVec 2) (b c : BitVec 5) (m : BitVec 3)
  /-- TFOLDC4 (R231). Adds codebook-decoded outer products into an FP32 tile. -/
  | tfoldc4 (r : BitVec 3) (t : BitVec 2) (b c : BitVec 5) (m : BitVec 3)
  /-- TFOLDSP (R232). Adds outer products of a 4-of-8 compressed panel using metadata. -/
  | tfoldsp (r : BitVec 3) (t : BitVec 2) (b c d : BitVec 5) (m : BitVec 3)
  /-- SCLAIMW (R268). ORs line signatures into items' write signatures. -/
  | sclaimw (b c : BitVec 5) (m : BitVec 3)
  /-- SCLAIMR (R268). ORs line signatures into items' read signatures. -/
  | sclaimr (b c : BitVec 5) (m : BitVec 3)
  /-- SWAVE (R269). Writes the wave mask of pending items free of conflict with lower pending items. -/
  | swave (a b : BitVec 3)
  /-- SRETIRE (R270). Clears the signatures of the items in a mask. -/
  | sretire (b : BitVec 3)
  /-- SPEND (R270). Writes the number of claimed items below N. -/
  | spend (a : BitVec 5)
  /-- CXLOAD (R282). Reads, checks and loads a slot image into a custom slot. -/
  | cxload (a b : BitVec 5)
  /-- CXDROP (R283). Unloads a custom slot. -/
  | cxdrop (a : BitVec 5)
  /-- CXQ (R283). Reads a custom slot's status. -/
  | cxq (a b : BitVec 5)
  /-- CX (R286). Evaluates a slot's dataflow graph per element, results ripening LAT lc after admission. -/
  | cx (a b c d : BitVec 5) (m s : BitVec 3)
  /-- ACOPY (R297). Hands a line copy to the die's copy engine and returns a ticket. -/
  | acopy (a b c : BitVec 5)
  /-- ACWAIT (R301). Waits until a copy is no longer running and clears its pending completion. -/
  | acwait (a b : BitVec 5)
  /-- ACQ (R300). Reads one word of a copy position's record. -/
  | acq (a b w : BitVec 5)
  /-- ACRESUME (R302). Restarts a faulted copy from its progress. -/
  | acresume (b : BitVec 5)
  /-- ACCANCEL (R302). Cancels a running or faulted copy. -/
  | accancel (b : BitVec 5)
  -- encoded scalar instructions
  /-- ADD (R127). Writes the 64-bit sum of two g registers to a third. -/
  | add (a b c : BitVec 5)
  /-- SUB (R127). Writes the 64-bit difference of two g registers. -/
  | sub (a b c : BitVec 5)
  /-- AND (R127). Writes the bitwise AND of two g registers. -/
  | and (a b c : BitVec 5)
  /-- OR (R127). Writes the bitwise OR of two g registers. -/
  | or (a b c : BitVec 5)
  /-- XOR (R127). Writes the bitwise XOR of two g registers. -/
  | xor (a b c : BitVec 5)
  /-- SHL (R127). Shifts a g register left by the low six bits of another. -/
  | shl (a b c : BitVec 5)
  /-- SHR (R127). Shifts a g register right, filling with zeros. -/
  | shr (a b c : BitVec 5)
  /-- SHRA (R127). Shifts a g register right, filling with its sign bit. -/
  | shra (a b c : BitVec 5)
  /-- SLT (R127). Writes 1 when one g register is signed-less than another, else 0. -/
  | slt (a b c : BitVec 5)
  /-- SLTN (R127). Writes 1 when one g register is unsigned-less than another, else 0. -/
  | sltn (a b c : BitVec 5)
  /-- MUL (R127). Writes the low 64 bits of the product of two g registers. -/
  | mul (a b c : BitVec 5)
  /-- MULH (R127). Writes the high 64 bits of the signed product. -/
  | mulh (a b c : BitVec 5)
  /-- MULHN (R127). Writes the high 64 bits of the unsigned product. -/
  | mulhn (a b c : BitVec 5)
  /-- DIV (R127). Writes the signed quotient truncated toward zero, with fixed results for zero divisor and overflow. -/
  | div (a b c : BitVec 5)
  /-- DIVN (R127). Writes the unsigned quotient, all ones for a zero divisor. -/
  | divn (a b c : BitVec 5)
  /-- REM (R127). Writes the signed remainder whose sign follows the dividend. -/
  | rem (a b c : BitVec 5)
  /-- REMN (R127). Writes the unsigned remainder. -/
  | remn (a b c : BitVec 5)
  /-- MIN (R127). Writes the signed minimum of two g registers. -/
  | min (a b c : BitVec 5)
  /-- MAX (R127). Writes the signed maximum of two g registers. -/
  | max (a b c : BitVec 5)
  /-- MINN (R127). Writes the unsigned minimum of two g registers. -/
  | minn (a b c : BitVec 5)
  /-- MAXN (R127). Writes the unsigned maximum of two g registers. -/
  | maxn (a b c : BitVec 5)
  /-- CLZ (R127). Writes the count of leading zero bits of a g register. -/
  | clz (a b : BitVec 5)
  /-- CTZ (R127). Writes the count of trailing zero bits of a g register. -/
  | ctz (a b : BitVec 5)
  /-- POPC (R127). Writes the number of one bits of a g register. -/
  | popc (a b : BitVec 5)
  /-- ADDI (R128). Adds a sign-extended immediate to a g register. -/
  | addi (a b : BitVec 5) (i : BitVec 16)
  /-- ANDI (R128). ANDs a g register with a sign-extended immediate. -/
  | andi (a b : BitVec 5) (i : BitVec 16)
  /-- ORI (R128). ORs a g register with a zero-extended immediate. -/
  | ori (a b : BitVec 5) (i : BitVec 16)
  /-- XORI (R128). XORs a g register with a zero-extended immediate. -/
  | xori (a b : BitVec 5) (i : BitVec 16)
  /-- SLTI (R128). Writes 1 when a g register is signed-less than a sign-extended immediate. -/
  | slti (a b : BitVec 5) (i : BitVec 16)
  /-- SHLI (R128). Shifts a g register left by an immediate amount. -/
  | shli (a b : BitVec 5) (s : BitVec 6)
  /-- SHRI (R128). Shifts a g register right by an immediate, filling with zeros. -/
  | shri (a b : BitVec 5) (s : BitVec 6)
  /-- SHRAI (R128). Shifts a g register right by an immediate, filling with the sign bit. -/
  | shrai (a b : BitVec 5) (s : BitVec 6)
  /-- LIH (R128). Loads a sign-extended immediate shifted left by 16. -/
  | lih (a : BitVec 5) (i : BitVec 16)
  /-- SHORI (R128). Shifts a g register left by 16 and ORs in a zero-extended immediate. -/
  | shori (a b : BitVec 5) (i : BitVec 16)
  /-- LDB (R129). Loads a sign-extended byte on the SCA path. -/
  | ldb (a b : BitVec 5) (i : BitVec 16)
  /-- LDBN (R129). Loads a zero-extended byte. -/
  | ldbn (a b : BitVec 5) (i : BitVec 16)
  /-- LDH (R129). Loads a sign-extended halfword. -/
  | ldh (a b : BitVec 5) (i : BitVec 16)
  /-- LDHN (R129). Loads a zero-extended halfword. -/
  | ldhn (a b : BitVec 5) (i : BitVec 16)
  /-- LDW (R129). Loads a sign-extended word. -/
  | ldw (a b : BitVec 5) (i : BitVec 16)
  /-- LDWN (R129). Loads a zero-extended word. -/
  | ldwn (a b : BitVec 5) (i : BitVec 16)
  /-- LDD (R129). Loads a doubleword. -/
  | ldd (a b : BitVec 5) (i : BitVec 16)
  /-- STB (R129). Stores the low byte of a g register. -/
  | stb (a b : BitVec 5) (i : BitVec 16)
  /-- STH (R129). Stores the low halfword of a g register. -/
  | sth (a b : BitVec 5) (i : BitVec 16)
  /-- STW (R129). Stores the low word of a g register. -/
  | stw (a b : BitVec 5) (i : BitVec 16)
  /-- STD (R129). Stores a doubleword. -/
  | std (a b : BitVec 5) (i : BitVec 16)
  /-- BEQ (R130). Branches to a block offset when two g registers are equal. -/
  | beq (b c : BitVec 5) (o : BitVec 13)
  /-- BNE (R130). Branches when two g registers differ. -/
  | bne (b c : BitVec 5) (o : BitVec 13)
  /-- BLT (R130). Branches when signed less. -/
  | blt (b c : BitVec 5) (o : BitVec 13)
  /-- BGE (R130). Branches when signed greater or equal. -/
  | bge (b c : BitVec 5) (o : BitVec 13)
  /-- BLTN (R130). Branches when unsigned less. -/
  | bltn (b c : BitVec 5) (o : BitVec 13)
  /-- BGEN (R130). Branches when unsigned greater or equal. -/
  | bgen (b c : BitVec 5) (o : BitVec 13)
  /-- JMP (R131). Jumps to a block offset from the current fetch block. -/
  | jmp (o : BitVec 26)
  /-- CALL (R131). Jumps to a block offset and links g30 to the next fetch block. -/
  | call (o : BitVec 26)
  /-- JR (R132). Jumps to the address in a g register. -/
  | jr (b : BitVec 5)
  /-- JALR (R132). Jumps to the address in a g register and links g30. -/
  | jalr (b : BitVec 5)
  /-- FADD (R133). Adds two scalar FP values rounded once under FRM. -/
  | fadd (a b c : BitVec 5) (p : BitVec 1)
  /-- FSUB (R133). Subtracts two scalar FP values. -/
  | fsub (a b c : BitVec 5) (p : BitVec 1)
  /-- FMUL (R133). Multiplies two scalar FP values. -/
  | fmul (a b c : BitVec 5) (p : BitVec 1)
  /-- FDIV (R133). Divides two scalar FP values. -/
  | fdiv (a b c : BitVec 5) (p : BitVec 1)
  /-- FSQRT (R133). Takes the square root of a scalar FP value. -/
  | fsqrt (a b : BitVec 5) (p : BitVec 1)
  /-- FMIN (R133). Writes the IEEE minimumNumber of two scalar FP values. -/
  | fmin (a b c : BitVec 5) (p : BitVec 1)
  /-- FMAX (R133). Writes the IEEE maximumNumber of two scalar FP values. -/
  | fmax (a b c : BitVec 5) (p : BitVec 1)
  /-- FEQ (R133). Writes 1 when two scalar FP values are equal. -/
  | feq (a b c : BitVec 5) (p : BitVec 1)
  /-- FLT (R133). Writes 1 when one scalar FP value is less than another. -/
  | flt (a b c : BitVec 5) (p : BitVec 1)
  /-- FLE (R133). Writes 1 when one scalar FP value is less or equal. -/
  | fle (a b c : BitVec 5) (p : BitVec 1)
  /-- FCVTI (R134). Converts a scalar FP value to s64 under a rounding code. -/
  | fcvti (a b r : BitVec 5) (p : BitVec 1)
  /-- FCVTF (R134). Converts an s64 value to scalar FP under a rounding code. -/
  | fcvtf (a b r : BitVec 5) (p : BitVec 1)
  /-- FCVTW_F32 (R134). Narrows an FP64 value to FP32 under a rounding code. -/
  | fcvtwF32 (a b r : BitVec 5)
  /-- FCVTW_F64 (R134). Widens an FP32 value exactly to FP64. -/
  | fcvtwF64 (a b : BitVec 5)
  /-- FMADD (R135). Computes a fused multiply-add of scalar FP values rounded once. -/
  | fmadd (a b c d : BitVec 5) (p : BitVec 1)
  /-- FMSUB (R135). Computes a fused multiply-subtract of scalar FP values rounded once. -/
  | fmsub (a b c d : BitVec 5) (p : BitVec 1)
  /-- LDLW (R136). Linked word load that advances the generation and sets the line's owner tag. -/
  | ldlw (a b : BitVec 5)
  /-- LDLD (R136). Linked doubleword load. -/
  | ldld (a b : BitVec 5)
  /-- STCW (R136). Conditional word store that succeeds only on a matching owner tag and writes 1 or 0. -/
  | stcw (a b c : BitVec 5)
  /-- STCD (R136). Conditional doubleword store. -/
  | stcd (a b c : BitVec 5)
  /-- LDSCW (R94). Sequentially consistent word load under a package ticket. -/
  | ldscw (a b : BitVec 5)
  /-- LDSCD (R94). Sequentially consistent doubleword load. -/
  | ldscd (a b : BitVec 5)
  /-- STSCW (R94). Sequentially consistent word store. -/
  | stscw (a b : BitVec 5)
  /-- STSCD (R94). Sequentially consistent doubleword store. -/
  | stscd (a b : BitVec 5)
  /-- BARA (R137). Arrives at a named barrier of the strand group. -/
  | bara (b : BitVec 5)
  /-- BARW (R137). Waits at a named barrier until it releases. -/
  | barw (b : BitVec 5)
  /-- BARAW (R137). Arrives at and then waits at a named barrier. -/
  | baraw (b : BitVec 5)
  /-- BARSET (R138). Sets a named barrier's EXPECT once it is idle. -/
  | barset (a b : BitVec 5)
  /-- QDRAIN (R138). Holds until every selected per-strand queue is drained. -/
  | qdrain (q : BitVec 4)
  /-- FENCE (R93). Waits until the strand's earlier accesses on the before-paths have performed at a scope, holding later after-path accesses and arrivals. -/
  | fence (s : BitVec 2) (b a : BitVec 6)
  /-- MFS (R142). Reads a state register into a g register. -/
  | mfs (a : BitVec 5) (n : BitVec 12)
  /-- MTS (R142). Writes a state register from a g register, field by field. -/
  | mts (b : BitVec 5) (n : BitVec 12)
  /-- SETS (R142). ORs a g register into a state register. -/
  | sets (b : BitVec 5) (n : BitVec 12)
  /-- CLRS (R142). Clears the bits of a state register that a g register sets. -/
  | clrs (b : BitVec 5) (n : BitVec 12)
  -- encoded instructions without operands
  /-- GBARA (R137). Arrives at the gang barrier. -/
  | gbara
  /-- GBARW (R137). Waits at the gang barrier. -/
  | gbarw
  /-- WFE (R139). Waits until the strand's event bit is set, then clears it. -/
  | wfe
  /-- NOP (R140). Does nothing. -/
  | nop
  /-- TRAPU (R140). Raises a user-level trap, or an S-level one when escalated. -/
  | trapu
  /-- ERET (R111). Restores the trap record at TWIN and resumes at TEPC, or performs one element step. -/
  | eret
  /-- UIRET (R113). Returns from a user-level trap, restoring g24–g29 and clearing UIMASK.IN. -/
  | uiret
  /-- BRK (R140). Raises an S-level BRK trap. -/
  | brk
  /-- HALT (R140). Waits for the window to empty and requests a kill of the strand's own gang. -/
  | halt
  /-- EXIT (R141). Ends the strand after retiring its window, draining queues and copies and fencing at system scope. -/
  | exit
  /-- TLBINV (R140). Removes every translation of the strand's ASID from the package's translation buffers. -/
  | tlbinv
  /-- MOFF (R225). Disables and releases the tiles. -/
  | moff
  /-- SCLEAR (R270). Clears every signature of the slalom table. -/
  | sclear
  -- device events with the data that say where they take place
  /-- NO_INSTRUCTION (R78). Executing a word that is no instruction raises a precise ILLEGAL_OP. -/
  | noInstruction (w : BitVec 32)
  /-- SLICE_ADMIT (R44). Each lc, after balance refill, each free unit admits one ready slice by balance and pays its cost. -/
  | sliceAdmit (core : Nat)
  /-- ELEMENT_FIRE (R59). An admitted element or group whose sources are ripe and whose older readers and writers are done writes its version and ripens. -/
  | elementFire (slot elem : Nat)
  /-- LOAD_RETURN (R192). Returned data of a load element land and the element fires. -/
  | loadReturn (slot elem : Nat)
  /-- GATHER_COMMAND (R197). A channel controller receives a gather command and returns the elements it owns with their positions. -/
  | gatherCommand (slot : Nat)
  /-- STORE_GROUP_WRITE (R193). The store unit begins and completes the writes of a store group once all its elements are ripe and translated. -/
  | storeGroupWrite (slot grp : Nat)
  /-- PAGE_WALK (R125). A walker walks the page tables for a missing translation once free and installs or faults it. -/
  | pageWalk (va : BitVec 64) (kind : BitVec 2)
  /-- CHANNEL_ACCESS (R97). An access reaches its home channel, takes its place in the byte's write order and acts on the link owner tag. -/
  | channelAccess (agent : BitVec 64) (pa : BitVec 46) (size : Nat) (isWrite : Bool) (data : BitVec 64)
  /-- COPY_LINE (R298). The copy engine reads and writes one 64-byte line of a copy and advances its progress. -/
  | copyLine (pos line : Nat)
  /-- COPY_COMPLETE (R298). A copy whose lines have all performed becomes DONE and raises COPY_DONE or arrives at its barrier. -/
  | copyComplete (pos : Nat)
  /-- COPY_FAULT_STOP (R299). A translation or poison fault on a line stops the copy as FAULTED and makes COPY_FAULT pending. -/
  | copyFaultStop (pos line : Nat)
  /-- RELAY_DATA_ARRIVE (R216). Sent bytes arrive in the partner's receive-bound register, ripening elements and setting its event bit. -/
  | relayDataArrive (slot : Nat)
  /-- RELAY_END_MARKER (R216). An end marker sets END in the partner's slot and zero-fills short receive entries. -/
  | relayEndMarker (slot : Nat)
  /-- PREEMPTION (R114). The scheduler pre-empts a gang, running the stop sequence and writing each strand's full image. -/
  | preemption (gang : BitVec 32)
  /-- GANG_PLACE (R29). The scheduler places a queue head gang whole once every strand has a place. -/
  | gangPlace (queue : Nat)
  /-- GANG_RESUME (R118). A switched-out gang is resumed from its images on suitable places, possibly with a pending GVLEN. -/
  | gangResume (gang : BitVec 32) (gvlen : Nat)
  /-- AGEING_EXPIRY (R31). A head waiting 1,000,000 tk reserves usable cores against equal or lower priority. -/
  | ageingExpiry (queue : Nat)
  /-- TIME_SHARE_EXPIRY (R31). A gang that has run 10,000,000 tk while a head of its priority waits is pre-empted. -/
  | timeShareExpiry (gang : BitVec 32)
  /-- KILL (R119). Every strand of a gang stops, forces VL to 0, drains and ends through the exit routine. -/
  | kill (gang : BitVec 32) (reason : BitVec 64)
  /-- GANG_COMPLETION (R141). When every strand has exited, open regions close and the completion record is written. -/
  | gangCompletion (gang : BitVec 32)
  /-- WS_SERVING_ENTRY (R321). After the loading gang and its copies end, the weight store enters SERVING and the die reopens. -/
  | wsServingEntry (die : Nat)
  /-- SCRUB (R21). The scrubber reads and corrects a DRAM or weight-store sector. -/
  | scrub (sector : Nat) (corrected : Bool)
  /-- ECC_ERROR (R19). A storage ECC error is corrected and counted, or kills the owner, fences the core or poisons the sector. -/
  | eccError (struct : BitVec 8) (die core : Nat) (uncorr : Bool) (line : Nat)
  /-- LINK_CRC_ERROR (R19). A link flit with a bad CRC is replayed, or the link retrains or goes down. -/
  | linkCrcError (link : Nat) (retrainOk : Bool)
  /-- PACKAGE_UNREACHABLE (R322). A package becomes unreachable and gangs with strands on it are killed. -/
  | packageUnreachable (pkg : BitVec 6)
  /-- DROOP_EVENT (R327). A droop on an island is counted for its next evaluation. -/
  | droopEvent (island : Nat)
  /-- CALIBRATION (R329). An idle cluster runs in-field tests to find island margins, fencing cores that fail. -/
  | calibration (cluster : Nat) (failed : Option Nat)
  /-- COLD_START (R331). A cold start trains channels, calibrates islands and sets the tick origin. -/
  | coldStart (trained : Bool)
  /-- WARM_START (R331). A warm start skips training when the stored fingerprint matches. -/
  | warmStart (fingerprintOk trained : Bool)
  /-- CODE_OBJECT_CHECK (R334). The trust core reads and verifies a code object and adds its pages to the execute-permit map. -/
  | codeObjectCheck (queue : Nat)
  /-- HOST_ACCESS (R308). A host CXL.mem access to device memory performs on the HST path. -/
  | hostAccess (offset : Nat) (size : Nat) (isWrite : Bool) (data : BitVec 64)
  /-- QTAIL_WRITE (R315). The host advances a queue's tail, to a shadow while switched out. -/
  | qtailWrite (queue : Nat) (value : BitVec 64)
  /-- QCTL_RESUME (R317). Clears STOPPED and reads again at PROG. -/
  | qctlResume (queue : Nat)
  /-- QCTL_MREF (R311). Requests a rewrite of the mirror within 10,000 tk. -/
  | qctlMref (queue : Nat)
  /-- QCTL_QRESET (R320). Resets the queue, setting PROG to TAIL and taking up new settings. -/
  | qctlQreset (queue : Nat)
  /-- QCTL_SWOUT (R319). Switches a queue out, freezing PROG after the current step. -/
  | qctlSwout (queue : Nat)
  /-- QCTL_SWIN (R319). Switches a queue in, copying the shadow tail and resuming reads. -/
  | qctlSwin (queue : Nat)
  /-- QKILL_WRITE (R310). Requests a kill of a gang launched by this queue. -/
  | qkillWrite (queue : Nat) (gang : BitVec 32)
  /-- QERR_READ (R310). Returns and clears the queue's latest error code and slot. -/
  | qerrRead (queue : Nat)
  /-- CTEMP_TMAX_READ (R325). Returns and clears a cluster's highest temperature. -/
  | ctempTmaxRead (cluster : Nat)
  /-- ISLAND_DROOP_READ (R325). Returns and clears an island's droop count. -/
  | islandDroopRead (island : Nat)
  /-- FENCESET_WRITE (R22). Fences the selected cores, killing their strands and removing them from placement. -/
  | fencesetWrite (k : Nat) (value : BitVec 64)
  /-- FENCECLR_WRITE (R330). Clears the fence of the selected cores. -/
  | fenceclrWrite (k : Nat) (value : BitVec 64)
  /-- HOST_REG_WRITE (R310). Writes a queue or management register that has no behaviour of its own. -/
  | hostRegWrite (offset : Nat) (value : BitVec 64)
  /-- KERNEL_PACKET (R313). A KERNEL packet is read, checked and handed to the dispatcher for placement. -/
  | kernelPacket (queue : Nat)
  /-- PAD_PACKET (R314). A PAD packet is consumed at once. -/
  | padPacket (queue : Nat)
  /-- WAIT_PACKET (R314). A WAIT packet holds the head until its condition holds. -/
  | waitPacket (queue : Nat)
  /-- WAIT_POLL (R314). At least every 1,000 tk the WAIT word is read and the condition tested. -/
  | waitPoll (queue : Nat)
  /-- SIGNAL_PACKET (R314). A SIGNAL packet waits for earlier kernels' completion records. -/
  | signalPacket (queue : Nat)
  /-- SIGNAL_WRITE (R314). Once earlier completion records are written, the SIGNAL value is written to its address. -/
  | signalWrite (queue : Nat)
  /-- WSLOAD_PACKET (R321). A WSLOAD clears a die, sets LOADING and places the following kernel there. -/
  | wsloadPacket (queue : Nat)
  /-- GANGSYNC_PACKET (R324). A GANGSYNC pair reserves places and reports RESERVED or FAILED to the coordinator. -/
  | gangsyncPacket (queue : Nat)
  /-- GANGSYNC_RESERVED (R324). The coordinator receives a package's RESERVED or FAILED message. -/
  | gangsyncReserved (queue : Nat) (pkg : BitVec 6) (ok : Bool)
  /-- GANGSYNC_COMMIT (R324). A package receives COMMIT with the gang identifier and starts its strands at the commit tick. -/
  | gangsyncCommit (queue : Nat) (gang : BitVec 32) (before total : Nat)
  /-- GANGSYNC_ABORT (R324). At COMMIT − 10,000 tk without all reservations, every package releases and writes STATUS 3. -/
  | gangsyncAbort (queue : Nat)
  /-- MIRROR_WRITE (R311). The device writes the queue mirror with PROG and its check word. -/
  | mirrorWrite (queue : Nat)
  /-- FLARAL_LINK_UP (R322). A Flaral link finishes training and comes up, after being enabled through LINKEN or after a retrain, so traffic can again follow routes through it. -/
  | flaralLinkUp (link : Nat) (pkg : BitVec 6)
  /-- COMMIT_TICK (R324). When TICK reaches COMMIT, every package of a committed multi-package gang starts its reserved strands. -/
  | commitTick (gang : BitVec 32)
  -- device events without such data
  /-- WINDOW_RETIRE (R63). A complete entry whose older entries have retired leaves the window. -/
  | windowRetire
  /-- PRESS_PAIR_RECEIVE (R254). A home press segment receives an update pair and accumulates or keeps it by the region's mode. -/
  | pressPairReceive
  /-- USER_TRAP_ASYNC (R113). A pending enabled COPY_FAULT or COPY_DONE is taken between two scalar instructions. -/
  | userTrapAsync
  /-- SUPERVISOR_TRAP (R111). After the stop sequence, the trap record is written and the strand enters supervisor level at TVEC. -/
  | supervisorTrap
  /-- ELEMENT_STEP (R120). With ESTEP set, the stepped group or instruction completes and the strand takes BRK with STEP set. -/
  | elementStep
  /-- WATCHDOG (R121). The no-retirement count reaches WDOG and the strand takes WATCHDOG. -/
  | watchdog
  /-- ISLAND_EVALUATE (R327). Every 1,000 tk each island steps its ALC or clock down under pressure or up after calm. -/
  | islandEvaluate
  /-- TICK_SYNC (R323). The package synchronises its tick with the master and sets TSYNC. -/
  | tickSync
  /-- ERRSTAT_READ (R325). Returns and clears the correctable and uncorrectable counts. -/
  | errstatRead
  /-- ERRREC_READ (R325). Returns the oldest error record and loads the next. -/
  | errrecRead
  deriving DecidableEq, Repr

end Sys2Proof
end

