-- ==== Sys2Proof/WellFormed.lean ====
section
/-! DEFINITION. Well-formed instructions: the rules of single members that the fields' widths do not express (R55, R69, R78,
R134, R142, R160 to R168, R172, R186, R190, R202, R300). -/

namespace Sys2Proof

/-- Why a word is no instruction (R78). -/
inductive Reject where
  /-- 0x0000_0000 or 0xFFFF_FFFF. -/
  | reservedWord
  /-- A reserved major opcode. -/
  | reservedMajor
  /-- A function value beyond its list. -/
  | reservedFunction
  /-- A reserved field that is not zero. -/
  | reservedField
  /-- A form that the member does not accept (R69). -/
  | form
  /-- M = 0 where the carry mask is named (R161). -/
  | carryMask
  /-- A rounding code beyond the member's list (R134, R164). -/
  | roundingCode
  /-- The reserved etype code 15 (R66, R164, R202). -/
  | etypeCode
  /-- An unassigned state number (R55). -/
  | stateNumber
  /-- An operator code beyond the list (R175). -/
  | operator
  /-- A VPROG distance of 0 or above 15 (R186). -/
  | distance
  /-- A segment access whose registers run past v31 (R202). -/
  | fieldCount
  /-- An ACQ word above 9 (R296). -/
  | wordSelector
  /-- An event: it has no word. -/
  | event
  deriving DecidableEq, Repr

/-- Answer reason `r` when `c` holds, else what follows. -/
def refuseIf (c : Bool) (r : Reject) (k : Option Reject) : Option Reject := if c then some r else k

/-- Every form but the reserved one (R69). -/
def formAny (f : BitVec 2) : Option Reject := refuseIf (f == 3#2) .form none
/-- VV or VS. -/
def formNoImm (f : BitVec 2) : Option Reject := refuseIf (f == 2#2 || f == 3#2) .form none
/-- VS or VI. -/
def formNoVec (f : BitVec 2) : Option Reject := refuseIf (f == 0#2 || f == 3#2) .form none
/-- VADC, VSBC, VCARRY and VBORROW name a carry mask m1 to m7 (R161). -/
def carryForm (f : BitVec 2) (m : BitVec 3) : Option Reject :=
  refuseIf (f == 3#2) .form (refuseIf (m == 0#3) .carryMask none)

/-- The assigned state numbers (R55). -/
def stateAssigned (n : BitVec 12) : Bool :=
  let k := n.toNat
  decide (k ≤ 0x00C) || (decide (0x010 ≤ k) && decide (k ≤ 0x015)) || k == 0x018 || k == 0x019 ||
  (decide (0x020 ≤ k) && decide (k ≤ 0x024)) || k == 0x030 || k == 0x031 ||
  (decide (0x100 ≤ k) && decide (k ≤ 0x105)) || k == 0x110 || k == 0x111 || k == 0x120 || k == 0x121 || k == 0x130

/-- The first rule that an instruction breaks, if any. -/
def illFormed : Instr → Option Reject
  | .vstrip _ _ _ _ _ e => refuseIf (e == 15#4) .etypeCode none
  | .vadd _ _ _ _ f => formAny f
  | .vsub _ _ _ _ f => formAny f
  | .vmul _ _ _ _ f => formAny f
  | .vmulh _ _ _ _ f => formAny f
  | .vmulhn _ _ _ _ f => formAny f
  | .vdiv _ _ _ _ f => formAny f
  | .vdivn _ _ _ _ f => formAny f
  | .vrem _ _ _ _ f => formAny f
  | .vremn _ _ _ _ f => formAny f
  | .vmin _ _ _ _ f => formAny f
  | .vmax _ _ _ _ f => formAny f
  | .vminn _ _ _ _ f => formAny f
  | .vmaxn _ _ _ _ f => formAny f
  | .vand _ _ _ _ f => formAny f
  | .vor _ _ _ _ f => formAny f
  | .vxor _ _ _ _ f => formAny f
  | .vshl _ _ _ _ f => formAny f
  | .vshr _ _ _ _ f => formAny f
  | .vshra _ _ _ _ f => formAny f
  | .vsadd _ _ _ _ f => formAny f
  | .vssub _ _ _ _ f => formAny f
  | .vadc _ _ _ m f => carryForm f m
  | .vsbc _ _ _ m f => carryForm f m
  | .vmacc _ _ _ _ f => formAny f
  | .vfadd _ _ _ _ f => formNoImm f
  | .vfsub _ _ _ _ f => formNoImm f
  | .vfmul _ _ _ _ f => formNoImm f
  | .vfdiv _ _ _ _ f => formNoImm f
  | .vfmin _ _ _ _ f => formNoImm f
  | .vfmax _ _ _ _ f => formNoImm f
  | .vfsqrt .. => none
  | .vfabs .. => none
  | .vfneg .. => none
  | .vfsgn _ _ _ _ f => formNoImm f
  | .vfma .. => none
  | .vfms .. => none
  | .vfnma .. => none
  | .vfnms .. => none
  | .vima .. => none
  | .vwfma .. => none
  | .vcvt _ _ r _ _ d => refuseIf (decide (8 ≤ r.toNat)) .roundingCode (refuseIf (d == 15#4) .etypeCode none)
  | .vceq _ _ _ _ f => formAny f
  | .vcne _ _ _ _ f => formAny f
  | .vclt _ _ _ _ f => formAny f
  | .vcle _ _ _ _ f => formAny f
  | .vcgt _ _ _ _ f => formAny f
  | .vcge _ _ _ _ f => formAny f
  | .vcltn _ _ _ _ f => formAny f
  | .vclen _ _ _ _ f => formAny f
  | .vcgtn _ _ _ _ f => formAny f
  | .vcgen _ _ _ _ f => formAny f
  | .vfceq _ _ _ _ f => formNoImm f
  | .vfclt _ _ _ _ f => formNoImm f
  | .vfcle _ _ _ _ f => formNoImm f
  | .vfcun _ _ _ _ f => formNoImm f
  | .vcarry _ _ _ m f => carryForm f m
  | .vborrow _ _ _ m f => carryForm f m
  | .mand .. => none
  | .mor .. => none
  | .mxor .. => none
  | .mandn .. => none
  | .mnot .. => none
  | .mmov .. => none
  | .mshup .. => none
  | .mshdn .. => none
  | .mpopc .. => none
  | .mfirst .. => none
  | .mset .. => none
  | .mclr .. => none
  | .mtov .. => none
  | .vtom .. => none
  | .vmov _ _ _ f => formAny f
  | .vsplat _ _ _ _ f => formNoVec f
  | .vslup _ _ _ _ f => formNoVec f
  | .vsldn _ _ _ _ f => formNoVec f
  | .vrgath .. => none
  | .vrows _ _ _ _ f => formNoVec f
  | .vcols _ _ _ _ f => formNoVec f
  | .vroww _ _ _ _ f => formNoVec f
  | .vcolw _ _ _ _ f => formNoVec f
  | .vextr _ _ _ f => formNoVec f
  | .vins _ _ _ f => formNoVec f
  | .vmerge _ _ _ _ f => formAny f
  | .vid .. => none
  | .vcompress .. => none
  | .vexpand .. => none
  | .viota .. => none
  | .vconflict .. => none
  | .vsegscan _ _ o _ => refuseIf (decide (9 ≤ o.toNat)) .operator none
  | .vinter .. => none
  | .vdelta .. => none
  | .vprune48 .. => none
  | .vsortseg .. => none
  | .vnz .. => none
  | .vrsum .. => none
  | .vrmin .. => none
  | .vrmax .. => none
  | .vrand .. => none
  | .vror .. => none
  | .vrxor .. => none
  | .vfrsum .. => none
  | .vfrmin .. => none
  | .vfrmax .. => none
  | .vfdot .. => none
  | .vtagq .. => none
  | .vwaitr .. => none
  | .vdrop .. => none
  | .vprog _ n => refuseIf (n == 0#5 || decide (16 ≤ n.toNat)) .distance none
  | .vld .. => none
  | .vlds .. => none
  | .vldx .. => none
  | .vldseg a _ t _ f => refuseIf (decide (31 < a.toNat + f.toNat)) .fieldCount (refuseIf (t == 15#4) .etypeCode none)
  | .vldw .. => none
  | .vldl .. => none
  | .vldsc .. => none
  | .vrload .. => none
  | .vst .. => none
  | .vsts .. => none
  | .vstx .. => none
  | .vstseg a _ t _ f => refuseIf (decide (31 < a.toNat + f.toNat)) .fieldCount (refuseIf (t == 15#4) .etypeCode none)
  | .vstc .. => none
  | .vstsc .. => none
  | .vrsave .. => none
  | .vldrow .. => none
  | .vstrow .. => none
  | .vemb .. => none
  | .vbind .. => none
  | .vunbind .. => none
  | .vbpos .. => none
  | .vbset .. => none
  | .relay .. => none
  | .urgn .. => none
  | .upd .. => none
  | .useal .. => none
  | .uflush .. => none
  | .uclose .. => none
  | .mmode .. => none
  | .tzero .. => none
  | .tgetr .. => none
  | .tgetc .. => none
  | .tsetr .. => none
  | .tsetc .. => none
  | .tstr .. => none
  | .tstx .. => none
  | .mcbld .. => none
  | .tfold .. => none
  | .tfoldn .. => none
  | .tfoldi8 .. => none
  | .tfoldf8 .. => none
  | .tfoldc4 .. => none
  | .tfoldsp .. => none
  | .sclaimw .. => none
  | .sclaimr .. => none
  | .swave .. => none
  | .sretire .. => none
  | .spend .. => none
  | .cxload .. => none
  | .cxdrop .. => none
  | .cxq .. => none
  | .cx .. => none
  | .acopy .. => none
  | .acwait .. => none
  | .acq _ _ w => refuseIf (decide (10 ≤ w.toNat)) .wordSelector none
  | .acresume .. => none
  | .accancel .. => none
  | .add .. => none
  | .sub .. => none
  | .and .. => none
  | .or .. => none
  | .xor .. => none
  | .shl .. => none
  | .shr .. => none
  | .shra .. => none
  | .slt .. => none
  | .sltn .. => none
  | .mul .. => none
  | .mulh .. => none
  | .mulhn .. => none
  | .div .. => none
  | .divn .. => none
  | .rem .. => none
  | .remn .. => none
  | .min .. => none
  | .max .. => none
  | .minn .. => none
  | .maxn .. => none
  | .clz .. => none
  | .ctz .. => none
  | .popc .. => none
  | .addi .. => none
  | .andi .. => none
  | .ori .. => none
  | .xori .. => none
  | .slti .. => none
  | .shli .. => none
  | .shri .. => none
  | .shrai .. => none
  | .lih .. => none
  | .shori .. => none
  | .ldb .. => none
  | .ldbn .. => none
  | .ldh .. => none
  | .ldhn .. => none
  | .ldw .. => none
  | .ldwn .. => none
  | .ldd .. => none
  | .stb .. => none
  | .sth .. => none
  | .stw .. => none
  | .std .. => none
  | .beq .. => none
  | .bne .. => none
  | .blt .. => none
  | .bge .. => none
  | .bltn .. => none
  | .bgen .. => none
  | .jmp .. => none
  | .call .. => none
  | .jr .. => none
  | .jalr .. => none
  | .fadd .. => none
  | .fsub .. => none
  | .fmul .. => none
  | .fdiv .. => none
  | .fsqrt .. => none
  | .fmin .. => none
  | .fmax .. => none
  | .feq .. => none
  | .flt .. => none
  | .fle .. => none
  | .fcvti _ _ r _ => refuseIf (decide (6 ≤ r.toNat)) .roundingCode none
  | .fcvtf _ _ r _ => refuseIf (decide (6 ≤ r.toNat)) .roundingCode none
  | .fcvtwF32 _ _ r => refuseIf (decide (6 ≤ r.toNat)) .roundingCode none
  | .fcvtwF64 .. => none
  | .fmadd .. => none
  | .fmsub .. => none
  | .ldlw .. => none
  | .ldld .. => none
  | .stcw .. => none
  | .stcd .. => none
  | .ldscw .. => none
  | .ldscd .. => none
  | .stscw .. => none
  | .stscd .. => none
  | .bara .. => none
  | .barw .. => none
  | .baraw .. => none
  | .barset .. => none
  | .qdrain .. => none
  | .fence .. => none
  | .mfs _ n => refuseIf (!stateAssigned n) .stateNumber none
  | .mts _ n => refuseIf (!stateAssigned n) .stateNumber none
  | .sets _ n => refuseIf (!stateAssigned n) .stateNumber none
  | .clrs _ n => refuseIf (!stateAssigned n) .stateNumber none
  | .gbara => none
  | .gbarw => none
  | .wfe => none
  | .nop => none
  | .trapu => none
  | .eret => none
  | .uiret => none
  | .brk => none
  | .halt => none
  | .exit => none
  | .tlbinv => none
  | .moff => none
  | .sclear => none
  | .noInstruction .. => some .event
  | .sliceAdmit .. => some .event
  | .elementFire .. => some .event
  | .loadReturn .. => some .event
  | .gatherCommand .. => some .event
  | .storeGroupWrite .. => some .event
  | .pageWalk .. => some .event
  | .channelAccess .. => some .event
  | .copyLine .. => some .event
  | .copyComplete .. => some .event
  | .copyFaultStop .. => some .event
  | .relayDataArrive .. => some .event
  | .relayEndMarker .. => some .event
  | .preemption .. => some .event
  | .gangPlace .. => some .event
  | .gangResume .. => some .event
  | .ageingExpiry .. => some .event
  | .timeShareExpiry .. => some .event
  | .kill .. => some .event
  | .gangCompletion .. => some .event
  | .wsServingEntry .. => some .event
  | .scrub .. => some .event
  | .eccError .. => some .event
  | .linkCrcError .. => some .event
  | .packageUnreachable .. => some .event
  | .droopEvent .. => some .event
  | .calibration .. => some .event
  | .coldStart .. => some .event
  | .warmStart .. => some .event
  | .codeObjectCheck .. => some .event
  | .hostAccess .. => some .event
  | .qtailWrite .. => some .event
  | .qctlResume .. => some .event
  | .qctlMref .. => some .event
  | .qctlQreset .. => some .event
  | .qctlSwout .. => some .event
  | .qctlSwin .. => some .event
  | .qkillWrite .. => some .event
  | .qerrRead .. => some .event
  | .ctempTmaxRead .. => some .event
  | .islandDroopRead .. => some .event
  | .fencesetWrite .. => some .event
  | .fenceclrWrite .. => some .event
  | .hostRegWrite .. => some .event
  | .kernelPacket .. => some .event
  | .padPacket .. => some .event
  | .waitPacket .. => some .event
  | .waitPoll .. => some .event
  | .signalPacket .. => some .event
  | .signalWrite .. => some .event
  | .wsloadPacket .. => some .event
  | .gangsyncPacket .. => some .event
  | .gangsyncReserved .. => some .event
  | .gangsyncCommit .. => some .event
  | .gangsyncAbort .. => some .event
  | .mirrorWrite .. => some .event
  | .flaralLinkUp .. => some .event
  | .commitTick .. => some .event
  | .windowRetire => some .event
  | .pressPairReceive => some .event
  | .userTrapAsync => some .event
  | .supervisorTrap => some .event
  | .elementStep => some .event
  | .watchdog => some .event
  | .islandEvaluate => some .event
  | .tickSync => some .event
  | .errstatRead => some .event
  | .errrecRead => some .event

/-- A well-formed encoded instruction. -/
def wellFormed (i : Instr) : Bool := illFormed i == none

end Sys2Proof
end

