-- ==== Sys2Proof/Decode.lean ====
section
/-! DEFINITION. Decoding: from a 32-bit word to an instruction or a named rejection (R67 to R78), and the encoder.

The major opcode selects the format; the function field selects the member; every fixed field that is not part of the
selection is reserved and must be zero (R67, R78). A word that passes this is checked by `illFormed`. -/

namespace Sys2Proof

/-- What the decoder makes of a word. -/
inductive Decoded where
  /-- The word is this instruction. -/
  | ok (i : Instr)
  /-- The word is no instruction (R78), for this reason. -/
  | bad (r : Reject)
  deriving DecidableEq, Repr

/-- Answer `i` when every reserved field of the word is zero (R67). -/
def zeroed (c : Bool) (i : Instr) : Decoded := if c then .ok i else .bad .reservedField

/-- The members of SOP, R127, by their function field. -/
def decSop (w : BitVec 32) : Decoded :=
  match w.extractLsb' 0 8 with
  | 0#8 => zeroed (w.extractLsb' 8 3 == 0#3) (.add (w.extractLsb' 21 5) (w.extractLsb' 16 5) (w.extractLsb' 11 5))
  | 1#8 => zeroed (w.extractLsb' 8 3 == 0#3) (.sub (w.extractLsb' 21 5) (w.extractLsb' 16 5) (w.extractLsb' 11 5))
  | 2#8 => zeroed (w.extractLsb' 8 3 == 0#3) (.and (w.extractLsb' 21 5) (w.extractLsb' 16 5) (w.extractLsb' 11 5))
  | 3#8 => zeroed (w.extractLsb' 8 3 == 0#3) (.or (w.extractLsb' 21 5) (w.extractLsb' 16 5) (w.extractLsb' 11 5))
  | 4#8 => zeroed (w.extractLsb' 8 3 == 0#3) (.xor (w.extractLsb' 21 5) (w.extractLsb' 16 5) (w.extractLsb' 11 5))
  | 5#8 => zeroed (w.extractLsb' 8 3 == 0#3) (.shl (w.extractLsb' 21 5) (w.extractLsb' 16 5) (w.extractLsb' 11 5))
  | 6#8 => zeroed (w.extractLsb' 8 3 == 0#3) (.shr (w.extractLsb' 21 5) (w.extractLsb' 16 5) (w.extractLsb' 11 5))
  | 7#8 => zeroed (w.extractLsb' 8 3 == 0#3) (.shra (w.extractLsb' 21 5) (w.extractLsb' 16 5) (w.extractLsb' 11 5))
  | 8#8 => zeroed (w.extractLsb' 8 3 == 0#3) (.slt (w.extractLsb' 21 5) (w.extractLsb' 16 5) (w.extractLsb' 11 5))
  | 9#8 => zeroed (w.extractLsb' 8 3 == 0#3) (.sltn (w.extractLsb' 21 5) (w.extractLsb' 16 5) (w.extractLsb' 11 5))
  | 10#8 => zeroed (w.extractLsb' 8 3 == 0#3) (.mul (w.extractLsb' 21 5) (w.extractLsb' 16 5) (w.extractLsb' 11 5))
  | 11#8 => zeroed (w.extractLsb' 8 3 == 0#3) (.mulh (w.extractLsb' 21 5) (w.extractLsb' 16 5) (w.extractLsb' 11 5))
  | 12#8 => zeroed (w.extractLsb' 8 3 == 0#3) (.mulhn (w.extractLsb' 21 5) (w.extractLsb' 16 5) (w.extractLsb' 11 5))
  | 13#8 => zeroed (w.extractLsb' 8 3 == 0#3) (.div (w.extractLsb' 21 5) (w.extractLsb' 16 5) (w.extractLsb' 11 5))
  | 14#8 => zeroed (w.extractLsb' 8 3 == 0#3) (.divn (w.extractLsb' 21 5) (w.extractLsb' 16 5) (w.extractLsb' 11 5))
  | 15#8 => zeroed (w.extractLsb' 8 3 == 0#3) (.rem (w.extractLsb' 21 5) (w.extractLsb' 16 5) (w.extractLsb' 11 5))
  | 16#8 => zeroed (w.extractLsb' 8 3 == 0#3) (.remn (w.extractLsb' 21 5) (w.extractLsb' 16 5) (w.extractLsb' 11 5))
  | 17#8 => zeroed (w.extractLsb' 8 3 == 0#3) (.min (w.extractLsb' 21 5) (w.extractLsb' 16 5) (w.extractLsb' 11 5))
  | 18#8 => zeroed (w.extractLsb' 8 3 == 0#3) (.max (w.extractLsb' 21 5) (w.extractLsb' 16 5) (w.extractLsb' 11 5))
  | 19#8 => zeroed (w.extractLsb' 8 3 == 0#3) (.minn (w.extractLsb' 21 5) (w.extractLsb' 16 5) (w.extractLsb' 11 5))
  | 20#8 => zeroed (w.extractLsb' 8 3 == 0#3) (.maxn (w.extractLsb' 21 5) (w.extractLsb' 16 5) (w.extractLsb' 11 5))
  | 21#8 => zeroed (w.extractLsb' 8 8 == 0#8) (.clz (w.extractLsb' 21 5) (w.extractLsb' 16 5))
  | 22#8 => zeroed (w.extractLsb' 8 8 == 0#8) (.ctz (w.extractLsb' 21 5) (w.extractLsb' 16 5))
  | 23#8 => zeroed (w.extractLsb' 8 8 == 0#8) (.popc (w.extractLsb' 21 5) (w.extractLsb' 16 5))
  | _ => .bad .reservedFunction

/-- The members of SHI, R128, by their function field. -/
def decShi (w : BitVec 32) : Decoded :=
  match w.extractLsb' 6 2 with
  | 0#2 => zeroed (w.extractLsb' 8 8 == 0#8) (.shli (w.extractLsb' 21 5) (w.extractLsb' 16 5) (w.extractLsb' 0 6))
  | 1#2 => zeroed (w.extractLsb' 8 8 == 0#8) (.shri (w.extractLsb' 21 5) (w.extractLsb' 16 5) (w.extractLsb' 0 6))
  | 2#2 => zeroed (w.extractLsb' 8 8 == 0#8) (.shrai (w.extractLsb' 21 5) (w.extractLsb' 16 5) (w.extractLsb' 0 6))
  | _ => .bad .reservedFunction

/-- The members of BR, R130, by their function field. -/
def decBr (w : BitVec 32) : Decoded :=
  match w.extractLsb' 13 3 with
  | 0#3 => .ok (.beq (w.extractLsb' 21 5) (w.extractLsb' 16 5) (w.extractLsb' 0 13))
  | 1#3 => .ok (.bne (w.extractLsb' 21 5) (w.extractLsb' 16 5) (w.extractLsb' 0 13))
  | 2#3 => .ok (.blt (w.extractLsb' 21 5) (w.extractLsb' 16 5) (w.extractLsb' 0 13))
  | 3#3 => .ok (.bge (w.extractLsb' 21 5) (w.extractLsb' 16 5) (w.extractLsb' 0 13))
  | 4#3 => .ok (.bltn (w.extractLsb' 21 5) (w.extractLsb' 16 5) (w.extractLsb' 0 13))
  | 5#3 => .ok (.bgen (w.extractLsb' 21 5) (w.extractLsb' 16 5) (w.extractLsb' 0 13))
  | _ => .bad .reservedFunction

/-- The members of JR and JALR, R132, by their function field. -/
def decJr (w : BitVec 32) : Decoded :=
  match w.extractLsb' 0 8 with
  | 0#8 => zeroed (w.extractLsb' 21 5 == 0#5 && w.extractLsb' 8 8 == 0#8) (.jr (w.extractLsb' 16 5))
  | 1#8 => zeroed (w.extractLsb' 21 5 == 0#5 && w.extractLsb' 8 8 == 0#8) (.jalr (w.extractLsb' 16 5))
  | _ => .bad .reservedFunction

/-- The members of SFP, R133 and R134, by their function field. -/
def decSfp (w : BitVec 32) : Decoded :=
  match w.extractLsb' 0 7 with
  | 0#7 => zeroed (w.extractLsb' 8 3 == 0#3) (.fadd (w.extractLsb' 21 5) (w.extractLsb' 16 5) (w.extractLsb' 11 5) (w.extractLsb' 7 1))
  | 1#7 => zeroed (w.extractLsb' 8 3 == 0#3) (.fsub (w.extractLsb' 21 5) (w.extractLsb' 16 5) (w.extractLsb' 11 5) (w.extractLsb' 7 1))
  | 2#7 => zeroed (w.extractLsb' 8 3 == 0#3) (.fmul (w.extractLsb' 21 5) (w.extractLsb' 16 5) (w.extractLsb' 11 5) (w.extractLsb' 7 1))
  | 3#7 => zeroed (w.extractLsb' 8 3 == 0#3) (.fdiv (w.extractLsb' 21 5) (w.extractLsb' 16 5) (w.extractLsb' 11 5) (w.extractLsb' 7 1))
  | 4#7 => zeroed (w.extractLsb' 8 8 == 0#8) (.fsqrt (w.extractLsb' 21 5) (w.extractLsb' 16 5) (w.extractLsb' 7 1))
  | 5#7 => zeroed (w.extractLsb' 8 3 == 0#3) (.fmin (w.extractLsb' 21 5) (w.extractLsb' 16 5) (w.extractLsb' 11 5) (w.extractLsb' 7 1))
  | 6#7 => zeroed (w.extractLsb' 8 3 == 0#3) (.fmax (w.extractLsb' 21 5) (w.extractLsb' 16 5) (w.extractLsb' 11 5) (w.extractLsb' 7 1))
  | 7#7 => zeroed (w.extractLsb' 8 3 == 0#3) (.feq (w.extractLsb' 21 5) (w.extractLsb' 16 5) (w.extractLsb' 11 5) (w.extractLsb' 7 1))
  | 8#7 => zeroed (w.extractLsb' 8 3 == 0#3) (.flt (w.extractLsb' 21 5) (w.extractLsb' 16 5) (w.extractLsb' 11 5) (w.extractLsb' 7 1))
  | 9#7 => zeroed (w.extractLsb' 8 3 == 0#3) (.fle (w.extractLsb' 21 5) (w.extractLsb' 16 5) (w.extractLsb' 11 5) (w.extractLsb' 7 1))
  | 10#7 => zeroed (w.extractLsb' 8 3 == 0#3) (.fcvti (w.extractLsb' 21 5) (w.extractLsb' 16 5) (w.extractLsb' 11 5) (w.extractLsb' 7 1))
  | 11#7 => zeroed (w.extractLsb' 8 3 == 0#3) (.fcvtf (w.extractLsb' 21 5) (w.extractLsb' 16 5) (w.extractLsb' 11 5) (w.extractLsb' 7 1))
  | 12#7 => if w.extractLsb' 7 1 == 0#1 then zeroed (w.extractLsb' 8 3 == 0#3) (.fcvtwF32 (w.extractLsb' 21 5) (w.extractLsb' 16 5) (w.extractLsb' 11 5))
            else zeroed (w.extractLsb' 8 8 == 0#8) (.fcvtwF64 (w.extractLsb' 21 5) (w.extractLsb' 16 5))
  | _ => .bad .reservedFunction

/-- The members of FMAS, R135, by their function field. -/
def decFmas (w : BitVec 32) : Decoded :=
  match w.extractLsb' 1 2 with
  | 0#2 => zeroed (w.extractLsb' 3 3 == 0#3) (.fmadd (w.extractLsb' 21 5) (w.extractLsb' 16 5) (w.extractLsb' 11 5) (w.extractLsb' 6 5) (w.extractLsb' 0 1))
  | 1#2 => zeroed (w.extractLsb' 3 3 == 0#3) (.fmsub (w.extractLsb' 21 5) (w.extractLsb' 16 5) (w.extractLsb' 11 5) (w.extractLsb' 6 5) (w.extractLsb' 0 1))
  | _ => .bad .reservedFunction

/-- The members of LINK, R136, by their function field. -/
noncomputable def decLink (w : BitVec 32) : Decoded :=
  match w.extractLsb' 0 8 with
  | 0#8 => zeroed (w.extractLsb' 8 8 == 0#8) (.ldlw (w.extractLsb' 21 5) (w.extractLsb' 16 5))
  | 1#8 => zeroed (w.extractLsb' 8 8 == 0#8) (.ldld (w.extractLsb' 21 5) (w.extractLsb' 16 5))
  | 2#8 => zeroed (w.extractLsb' 8 3 == 0#3) (.stcw (w.extractLsb' 21 5) (w.extractLsb' 16 5) (w.extractLsb' 11 5))
  | 3#8 => zeroed (w.extractLsb' 8 3 == 0#3) (.stcd (w.extractLsb' 21 5) (w.extractLsb' 16 5) (w.extractLsb' 11 5))
  | 4#8 => zeroed (w.extractLsb' 8 8 == 0#8) (.ldscw (w.extractLsb' 21 5) (w.extractLsb' 16 5))
  | 5#8 => zeroed (w.extractLsb' 8 8 == 0#8) (.ldscd (w.extractLsb' 21 5) (w.extractLsb' 16 5))
  | 6#8 => zeroed (w.extractLsb' 8 8 == 0#8) (.stscw (w.extractLsb' 21 5) (w.extractLsb' 16 5))
  | 7#8 => zeroed (w.extractLsb' 8 8 == 0#8) (.stscd (w.extractLsb' 21 5) (w.extractLsb' 16 5))
  | _ => .bad .reservedFunction

/-- The members of SYNC, R138, by their function field. -/
noncomputable def decSync (w : BitVec 32) : Decoded :=
  match w.extractLsb' 0 8 with
  | 0#8 => zeroed (w.extractLsb' 21 5 == 0#5 && w.extractLsb' 8 8 == 0#8) (.bara (w.extractLsb' 16 5))
  | 1#8 => zeroed (w.extractLsb' 21 5 == 0#5 && w.extractLsb' 8 8 == 0#8) (.barw (w.extractLsb' 16 5))
  | 2#8 => zeroed (w.extractLsb' 21 5 == 0#5 && w.extractLsb' 8 8 == 0#8) (.baraw (w.extractLsb' 16 5))
  | 3#8 => zeroed (w.extractLsb' 8 8 == 0#8) (.barset (w.extractLsb' 21 5) (w.extractLsb' 16 5))
  | 4#8 => zeroed (w.extractLsb' 8 18 == 0#18) (.gbara)
  | 5#8 => zeroed (w.extractLsb' 8 18 == 0#18) (.gbarw)
  | 6#8 => zeroed (w.extractLsb' 15 11 == 0#11 && w.extractLsb' 8 3 == 0#3) (.qdrain (w.extractLsb' 11 4))
  | 7#8 => zeroed (w.extractLsb' 8 18 == 0#18) (.wfe)
  | _ => .bad .reservedFunction

/-- The members of SYS, R140, by their function field. -/
def decSys (w : BitVec 32) : Decoded :=
  match w.extractLsb' 0 8 with
  | 0#8 => zeroed (w.extractLsb' 8 18 == 0#18) (.nop)
  | 1#8 => zeroed (w.extractLsb' 8 18 == 0#18) (.trapu)
  | 2#8 => zeroed (w.extractLsb' 8 18 == 0#18) (.eret)
  | 3#8 => zeroed (w.extractLsb' 8 18 == 0#18) (.uiret)
  | 4#8 => zeroed (w.extractLsb' 8 18 == 0#18) (.brk)
  | 5#8 => zeroed (w.extractLsb' 8 18 == 0#18) (.halt)
  | 6#8 => zeroed (w.extractLsb' 8 18 == 0#18) (.exit)
  | 7#8 => zeroed (w.extractLsb' 8 18 == 0#18) (.tlbinv)
  | _ => .bad .reservedFunction

/-- The members of STATE, R142, by their function field. -/
noncomputable def decState (w : BitVec 32) : Decoded :=
  match w.extractLsb' 14 2 with
  | 0#2 => zeroed (w.extractLsb' 16 5 == 0#5 && w.extractLsb' 12 2 == 0#2) (.mfs (w.extractLsb' 21 5) (w.extractLsb' 0 12))
  | 1#2 => zeroed (w.extractLsb' 21 5 == 0#5 && w.extractLsb' 12 2 == 0#2) (.mts (w.extractLsb' 16 5) (w.extractLsb' 0 12))
  | 2#2 => zeroed (w.extractLsb' 21 5 == 0#5 && w.extractLsb' 12 2 == 0#2) (.sets (w.extractLsb' 16 5) (w.extractLsb' 0 12))
  | 3#2 => zeroed (w.extractLsb' 21 5 == 0#5 && w.extractLsb' 12 2 == 0#2) (.clrs (w.extractLsb' 16 5) (w.extractLsb' 0 12))

/-- The members of VINT, R76, by their function field. -/
def decVint (w : BitVec 32) : Decoded :=
  match w.extractLsb' 0 6 with
  | 0#6 => .ok (.vadd (w.extractLsb' 21 5) (w.extractLsb' 16 5) (w.extractLsb' 11 5) (w.extractLsb' 8 3) (w.extractLsb' 6 2))
  | 1#6 => .ok (.vsub (w.extractLsb' 21 5) (w.extractLsb' 16 5) (w.extractLsb' 11 5) (w.extractLsb' 8 3) (w.extractLsb' 6 2))
  | 2#6 => .ok (.vmul (w.extractLsb' 21 5) (w.extractLsb' 16 5) (w.extractLsb' 11 5) (w.extractLsb' 8 3) (w.extractLsb' 6 2))
  | 3#6 => .ok (.vmulh (w.extractLsb' 21 5) (w.extractLsb' 16 5) (w.extractLsb' 11 5) (w.extractLsb' 8 3) (w.extractLsb' 6 2))
  | 4#6 => .ok (.vmulhn (w.extractLsb' 21 5) (w.extractLsb' 16 5) (w.extractLsb' 11 5) (w.extractLsb' 8 3) (w.extractLsb' 6 2))
  | 5#6 => .ok (.vdiv (w.extractLsb' 21 5) (w.extractLsb' 16 5) (w.extractLsb' 11 5) (w.extractLsb' 8 3) (w.extractLsb' 6 2))
  | 6#6 => .ok (.vdivn (w.extractLsb' 21 5) (w.extractLsb' 16 5) (w.extractLsb' 11 5) (w.extractLsb' 8 3) (w.extractLsb' 6 2))
  | 7#6 => .ok (.vrem (w.extractLsb' 21 5) (w.extractLsb' 16 5) (w.extractLsb' 11 5) (w.extractLsb' 8 3) (w.extractLsb' 6 2))
  | 8#6 => .ok (.vremn (w.extractLsb' 21 5) (w.extractLsb' 16 5) (w.extractLsb' 11 5) (w.extractLsb' 8 3) (w.extractLsb' 6 2))
  | 9#6 => .ok (.vmin (w.extractLsb' 21 5) (w.extractLsb' 16 5) (w.extractLsb' 11 5) (w.extractLsb' 8 3) (w.extractLsb' 6 2))
  | 10#6 => .ok (.vmax (w.extractLsb' 21 5) (w.extractLsb' 16 5) (w.extractLsb' 11 5) (w.extractLsb' 8 3) (w.extractLsb' 6 2))
  | 11#6 => .ok (.vminn (w.extractLsb' 21 5) (w.extractLsb' 16 5) (w.extractLsb' 11 5) (w.extractLsb' 8 3) (w.extractLsb' 6 2))
  | 12#6 => .ok (.vmaxn (w.extractLsb' 21 5) (w.extractLsb' 16 5) (w.extractLsb' 11 5) (w.extractLsb' 8 3) (w.extractLsb' 6 2))
  | 13#6 => .ok (.vand (w.extractLsb' 21 5) (w.extractLsb' 16 5) (w.extractLsb' 11 5) (w.extractLsb' 8 3) (w.extractLsb' 6 2))
  | 14#6 => .ok (.vor (w.extractLsb' 21 5) (w.extractLsb' 16 5) (w.extractLsb' 11 5) (w.extractLsb' 8 3) (w.extractLsb' 6 2))
  | 15#6 => .ok (.vxor (w.extractLsb' 21 5) (w.extractLsb' 16 5) (w.extractLsb' 11 5) (w.extractLsb' 8 3) (w.extractLsb' 6 2))
  | 16#6 => .ok (.vshl (w.extractLsb' 21 5) (w.extractLsb' 16 5) (w.extractLsb' 11 5) (w.extractLsb' 8 3) (w.extractLsb' 6 2))
  | 17#6 => .ok (.vshr (w.extractLsb' 21 5) (w.extractLsb' 16 5) (w.extractLsb' 11 5) (w.extractLsb' 8 3) (w.extractLsb' 6 2))
  | 18#6 => .ok (.vshra (w.extractLsb' 21 5) (w.extractLsb' 16 5) (w.extractLsb' 11 5) (w.extractLsb' 8 3) (w.extractLsb' 6 2))
  | 19#6 => .ok (.vsadd (w.extractLsb' 21 5) (w.extractLsb' 16 5) (w.extractLsb' 11 5) (w.extractLsb' 8 3) (w.extractLsb' 6 2))
  | 20#6 => .ok (.vssub (w.extractLsb' 21 5) (w.extractLsb' 16 5) (w.extractLsb' 11 5) (w.extractLsb' 8 3) (w.extractLsb' 6 2))
  | 21#6 => .ok (.vadc (w.extractLsb' 21 5) (w.extractLsb' 16 5) (w.extractLsb' 11 5) (w.extractLsb' 8 3) (w.extractLsb' 6 2))
  | 22#6 => .ok (.vsbc (w.extractLsb' 21 5) (w.extractLsb' 16 5) (w.extractLsb' 11 5) (w.extractLsb' 8 3) (w.extractLsb' 6 2))
  | 23#6 => .ok (.vmacc (w.extractLsb' 21 5) (w.extractLsb' 16 5) (w.extractLsb' 11 5) (w.extractLsb' 8 3) (w.extractLsb' 6 2))
  | _ => .bad .reservedFunction

/-- The members of VFP, R76, by their function field. -/
def decVfp (w : BitVec 32) : Decoded :=
  match w.extractLsb' 0 6 with
  | 0#6 => .ok (.vfadd (w.extractLsb' 21 5) (w.extractLsb' 16 5) (w.extractLsb' 11 5) (w.extractLsb' 8 3) (w.extractLsb' 6 2))
  | 1#6 => .ok (.vfsub (w.extractLsb' 21 5) (w.extractLsb' 16 5) (w.extractLsb' 11 5) (w.extractLsb' 8 3) (w.extractLsb' 6 2))
  | 2#6 => .ok (.vfmul (w.extractLsb' 21 5) (w.extractLsb' 16 5) (w.extractLsb' 11 5) (w.extractLsb' 8 3) (w.extractLsb' 6 2))
  | 3#6 => .ok (.vfdiv (w.extractLsb' 21 5) (w.extractLsb' 16 5) (w.extractLsb' 11 5) (w.extractLsb' 8 3) (w.extractLsb' 6 2))
  | 4#6 => .ok (.vfmin (w.extractLsb' 21 5) (w.extractLsb' 16 5) (w.extractLsb' 11 5) (w.extractLsb' 8 3) (w.extractLsb' 6 2))
  | 5#6 => .ok (.vfmax (w.extractLsb' 21 5) (w.extractLsb' 16 5) (w.extractLsb' 11 5) (w.extractLsb' 8 3) (w.extractLsb' 6 2))
  | 6#6 => zeroed (w.extractLsb' 11 5 == 0#5 && w.extractLsb' 6 2 == 0#2) (.vfsqrt (w.extractLsb' 21 5) (w.extractLsb' 16 5) (w.extractLsb' 8 3))
  | 7#6 => zeroed (w.extractLsb' 11 5 == 0#5 && w.extractLsb' 6 2 == 0#2) (.vfabs (w.extractLsb' 21 5) (w.extractLsb' 16 5) (w.extractLsb' 8 3))
  | 8#6 => zeroed (w.extractLsb' 11 5 == 0#5 && w.extractLsb' 6 2 == 0#2) (.vfneg (w.extractLsb' 21 5) (w.extractLsb' 16 5) (w.extractLsb' 8 3))
  | 9#6 => .ok (.vfsgn (w.extractLsb' 21 5) (w.extractLsb' 16 5) (w.extractLsb' 11 5) (w.extractLsb' 8 3) (w.extractLsb' 6 2))
  | _ => .bad .reservedFunction

/-- The members of VFMA, R76, by their function field. -/
def decVfma (w : BitVec 32) : Decoded :=
  match w.extractLsb' 0 3 with
  | 0#3 => .ok (.vfma (w.extractLsb' 21 5) (w.extractLsb' 16 5) (w.extractLsb' 11 5) (w.extractLsb' 6 5) (w.extractLsb' 3 3))
  | 1#3 => .ok (.vfms (w.extractLsb' 21 5) (w.extractLsb' 16 5) (w.extractLsb' 11 5) (w.extractLsb' 6 5) (w.extractLsb' 3 3))
  | 2#3 => .ok (.vfnma (w.extractLsb' 21 5) (w.extractLsb' 16 5) (w.extractLsb' 11 5) (w.extractLsb' 6 5) (w.extractLsb' 3 3))
  | 3#3 => .ok (.vfnms (w.extractLsb' 21 5) (w.extractLsb' 16 5) (w.extractLsb' 11 5) (w.extractLsb' 6 5) (w.extractLsb' 3 3))
  | 4#3 => .ok (.vima (w.extractLsb' 21 5) (w.extractLsb' 16 5) (w.extractLsb' 11 5) (w.extractLsb' 6 5) (w.extractLsb' 3 3))
  | 5#3 => .ok (.vwfma (w.extractLsb' 21 5) (w.extractLsb' 16 5) (w.extractLsb' 11 5) (w.extractLsb' 6 5) (w.extractLsb' 3 3))
  | _ => .bad .reservedFunction

/-- The members of VCMP, R76, by their function field. -/
def decVcmp (w : BitVec 32) : Decoded :=
  match w.extractLsb' 0 6 with
  | 0#6 => zeroed (w.extractLsb' 24 2 == 0#2) (.vceq (w.extractLsb' 21 3) (w.extractLsb' 16 5) (w.extractLsb' 11 5) (w.extractLsb' 8 3) (w.extractLsb' 6 2))
  | 1#6 => zeroed (w.extractLsb' 24 2 == 0#2) (.vcne (w.extractLsb' 21 3) (w.extractLsb' 16 5) (w.extractLsb' 11 5) (w.extractLsb' 8 3) (w.extractLsb' 6 2))
  | 2#6 => zeroed (w.extractLsb' 24 2 == 0#2) (.vclt (w.extractLsb' 21 3) (w.extractLsb' 16 5) (w.extractLsb' 11 5) (w.extractLsb' 8 3) (w.extractLsb' 6 2))
  | 3#6 => zeroed (w.extractLsb' 24 2 == 0#2) (.vcle (w.extractLsb' 21 3) (w.extractLsb' 16 5) (w.extractLsb' 11 5) (w.extractLsb' 8 3) (w.extractLsb' 6 2))
  | 4#6 => zeroed (w.extractLsb' 24 2 == 0#2) (.vcgt (w.extractLsb' 21 3) (w.extractLsb' 16 5) (w.extractLsb' 11 5) (w.extractLsb' 8 3) (w.extractLsb' 6 2))
  | 5#6 => zeroed (w.extractLsb' 24 2 == 0#2) (.vcge (w.extractLsb' 21 3) (w.extractLsb' 16 5) (w.extractLsb' 11 5) (w.extractLsb' 8 3) (w.extractLsb' 6 2))
  | 6#6 => zeroed (w.extractLsb' 24 2 == 0#2) (.vcltn (w.extractLsb' 21 3) (w.extractLsb' 16 5) (w.extractLsb' 11 5) (w.extractLsb' 8 3) (w.extractLsb' 6 2))
  | 7#6 => zeroed (w.extractLsb' 24 2 == 0#2) (.vclen (w.extractLsb' 21 3) (w.extractLsb' 16 5) (w.extractLsb' 11 5) (w.extractLsb' 8 3) (w.extractLsb' 6 2))
  | 8#6 => zeroed (w.extractLsb' 24 2 == 0#2) (.vcgtn (w.extractLsb' 21 3) (w.extractLsb' 16 5) (w.extractLsb' 11 5) (w.extractLsb' 8 3) (w.extractLsb' 6 2))
  | 9#6 => zeroed (w.extractLsb' 24 2 == 0#2) (.vcgen (w.extractLsb' 21 3) (w.extractLsb' 16 5) (w.extractLsb' 11 5) (w.extractLsb' 8 3) (w.extractLsb' 6 2))
  | 10#6 => zeroed (w.extractLsb' 24 2 == 0#2) (.vfceq (w.extractLsb' 21 3) (w.extractLsb' 16 5) (w.extractLsb' 11 5) (w.extractLsb' 8 3) (w.extractLsb' 6 2))
  | 11#6 => zeroed (w.extractLsb' 24 2 == 0#2) (.vfclt (w.extractLsb' 21 3) (w.extractLsb' 16 5) (w.extractLsb' 11 5) (w.extractLsb' 8 3) (w.extractLsb' 6 2))
  | 12#6 => zeroed (w.extractLsb' 24 2 == 0#2) (.vfcle (w.extractLsb' 21 3) (w.extractLsb' 16 5) (w.extractLsb' 11 5) (w.extractLsb' 8 3) (w.extractLsb' 6 2))
  | 13#6 => zeroed (w.extractLsb' 24 2 == 0#2) (.vfcun (w.extractLsb' 21 3) (w.extractLsb' 16 5) (w.extractLsb' 11 5) (w.extractLsb' 8 3) (w.extractLsb' 6 2))
  | 14#6 => zeroed (w.extractLsb' 24 2 == 0#2) (.vcarry (w.extractLsb' 21 3) (w.extractLsb' 16 5) (w.extractLsb' 11 5) (w.extractLsb' 8 3) (w.extractLsb' 6 2))
  | 15#6 => zeroed (w.extractLsb' 24 2 == 0#2) (.vborrow (w.extractLsb' 21 3) (w.extractLsb' 16 5) (w.extractLsb' 11 5) (w.extractLsb' 8 3) (w.extractLsb' 6 2))
  | _ => .bad .reservedFunction

/-- The members of MASK, R76, by their function field. -/
def decMask (w : BitVec 32) : Decoded :=
  match w.extractLsb' 0 8 with
  | 0#8 => zeroed (w.extractLsb' 24 2 == 0#2 && w.extractLsb' 19 2 == 0#2 && w.extractLsb' 14 2 == 0#2 && w.extractLsb' 8 3 == 0#3) (.mand (w.extractLsb' 21 3) (w.extractLsb' 16 3) (w.extractLsb' 11 3))
  | 1#8 => zeroed (w.extractLsb' 24 2 == 0#2 && w.extractLsb' 19 2 == 0#2 && w.extractLsb' 14 2 == 0#2 && w.extractLsb' 8 3 == 0#3) (.mor (w.extractLsb' 21 3) (w.extractLsb' 16 3) (w.extractLsb' 11 3))
  | 2#8 => zeroed (w.extractLsb' 24 2 == 0#2 && w.extractLsb' 19 2 == 0#2 && w.extractLsb' 14 2 == 0#2 && w.extractLsb' 8 3 == 0#3) (.mxor (w.extractLsb' 21 3) (w.extractLsb' 16 3) (w.extractLsb' 11 3))
  | 3#8 => zeroed (w.extractLsb' 24 2 == 0#2 && w.extractLsb' 19 2 == 0#2 && w.extractLsb' 14 2 == 0#2 && w.extractLsb' 8 3 == 0#3) (.mandn (w.extractLsb' 21 3) (w.extractLsb' 16 3) (w.extractLsb' 11 3))
  | 4#8 => zeroed (w.extractLsb' 24 2 == 0#2 && w.extractLsb' 19 2 == 0#2 && w.extractLsb' 8 8 == 0#8) (.mnot (w.extractLsb' 21 3) (w.extractLsb' 16 3))
  | 5#8 => zeroed (w.extractLsb' 24 2 == 0#2 && w.extractLsb' 19 2 == 0#2 && w.extractLsb' 8 8 == 0#8) (.mmov (w.extractLsb' 21 3) (w.extractLsb' 16 3))
  | 6#8 => zeroed (w.extractLsb' 24 2 == 0#2 && w.extractLsb' 19 2 == 0#2 && w.extractLsb' 8 3 == 0#3) (.mshup (w.extractLsb' 21 3) (w.extractLsb' 16 3) (w.extractLsb' 11 5))
  | 7#8 => zeroed (w.extractLsb' 24 2 == 0#2 && w.extractLsb' 19 2 == 0#2 && w.extractLsb' 8 3 == 0#3) (.mshdn (w.extractLsb' 21 3) (w.extractLsb' 16 3) (w.extractLsb' 11 5))
  | 8#8 => zeroed (w.extractLsb' 19 2 == 0#2 && w.extractLsb' 8 8 == 0#8) (.mpopc (w.extractLsb' 21 5) (w.extractLsb' 16 3))
  | 9#8 => zeroed (w.extractLsb' 19 2 == 0#2 && w.extractLsb' 8 8 == 0#8) (.mfirst (w.extractLsb' 21 5) (w.extractLsb' 16 3))
  | 10#8 => zeroed (w.extractLsb' 24 2 == 0#2 && w.extractLsb' 8 13 == 0#13) (.mset (w.extractLsb' 21 3))
  | 11#8 => zeroed (w.extractLsb' 24 2 == 0#2 && w.extractLsb' 8 13 == 0#13) (.mclr (w.extractLsb' 21 3))
  | 12#8 => zeroed (w.extractLsb' 19 2 == 0#2 && w.extractLsb' 8 8 == 0#8) (.mtov (w.extractLsb' 21 5) (w.extractLsb' 16 3))
  | 13#8 => zeroed (w.extractLsb' 24 2 == 0#2 && w.extractLsb' 8 8 == 0#8) (.vtom (w.extractLsb' 21 3) (w.extractLsb' 16 5))
  | _ => .bad .reservedFunction

/-- The members of VPERM, R76, by their function field. -/
def decVperm (w : BitVec 32) : Decoded :=
  match w.extractLsb' 0 6 with
  | 0#6 => zeroed (w.extractLsb' 16 5 == 0#5) (.vmov (w.extractLsb' 21 5) (w.extractLsb' 11 5) (w.extractLsb' 8 3) (w.extractLsb' 6 2))
  | 1#6 => .ok (.vsplat (w.extractLsb' 21 5) (w.extractLsb' 16 5) (w.extractLsb' 11 5) (w.extractLsb' 8 3) (w.extractLsb' 6 2))
  | 2#6 => .ok (.vslup (w.extractLsb' 21 5) (w.extractLsb' 16 5) (w.extractLsb' 11 5) (w.extractLsb' 8 3) (w.extractLsb' 6 2))
  | 3#6 => .ok (.vsldn (w.extractLsb' 21 5) (w.extractLsb' 16 5) (w.extractLsb' 11 5) (w.extractLsb' 8 3) (w.extractLsb' 6 2))
  | 4#6 => zeroed (w.extractLsb' 6 2 == 0#2) (.vrgath (w.extractLsb' 21 5) (w.extractLsb' 16 5) (w.extractLsb' 11 5) (w.extractLsb' 8 3))
  | 5#6 => .ok (.vrows (w.extractLsb' 21 5) (w.extractLsb' 16 5) (w.extractLsb' 11 5) (w.extractLsb' 8 3) (w.extractLsb' 6 2))
  | 6#6 => .ok (.vcols (w.extractLsb' 21 5) (w.extractLsb' 16 5) (w.extractLsb' 11 5) (w.extractLsb' 8 3) (w.extractLsb' 6 2))
  | 7#6 => .ok (.vroww (w.extractLsb' 21 5) (w.extractLsb' 16 5) (w.extractLsb' 11 5) (w.extractLsb' 8 3) (w.extractLsb' 6 2))
  | 8#6 => .ok (.vcolw (w.extractLsb' 21 5) (w.extractLsb' 16 5) (w.extractLsb' 11 5) (w.extractLsb' 8 3) (w.extractLsb' 6 2))
  | 9#6 => zeroed (w.extractLsb' 8 3 == 0#3) (.vextr (w.extractLsb' 21 5) (w.extractLsb' 16 5) (w.extractLsb' 11 5) (w.extractLsb' 6 2))
  | 10#6 => zeroed (w.extractLsb' 8 3 == 0#3) (.vins (w.extractLsb' 21 5) (w.extractLsb' 16 5) (w.extractLsb' 11 5) (w.extractLsb' 6 2))
  | 11#6 => .ok (.vmerge (w.extractLsb' 21 5) (w.extractLsb' 16 5) (w.extractLsb' 11 5) (w.extractLsb' 8 3) (w.extractLsb' 6 2))
  | 12#6 => zeroed (w.extractLsb' 11 10 == 0#10 && w.extractLsb' 6 2 == 0#2) (.vid (w.extractLsb' 21 5) (w.extractLsb' 8 3))
  | _ => .bad .reservedFunction

/-- The members of VSPARSE, R172, by their function field. -/
def decVsparse (w : BitVec 32) : Decoded :=
  match w.extractLsb' 0 8 with
  | 0#8 => zeroed (w.extractLsb' 11 5 == 0#5) (.vcompress (w.extractLsb' 21 5) (w.extractLsb' 16 5) (w.extractLsb' 8 3))
  | 1#8 => zeroed (w.extractLsb' 11 5 == 0#5) (.vexpand (w.extractLsb' 21 5) (w.extractLsb' 16 5) (w.extractLsb' 8 3))
  | 2#8 => zeroed (w.extractLsb' 19 2 == 0#2 && w.extractLsb' 11 5 == 0#5) (.viota (w.extractLsb' 21 5) (w.extractLsb' 16 3) (w.extractLsb' 8 3))
  | 3#8 => zeroed (w.extractLsb' 11 5 == 0#5) (.vconflict (w.extractLsb' 21 5) (w.extractLsb' 16 5) (w.extractLsb' 8 3))
  | 4#8 => .ok (.vsegscan (w.extractLsb' 21 5) (w.extractLsb' 16 5) (w.extractLsb' 11 5) (w.extractLsb' 8 3))
  | 5#8 => .ok (.vinter (w.extractLsb' 21 5) (w.extractLsb' 16 5) (w.extractLsb' 11 5) (w.extractLsb' 8 3))
  | 6#8 => .ok (.vdelta (w.extractLsb' 21 5) (w.extractLsb' 16 5) (w.extractLsb' 11 5) (w.extractLsb' 8 3))
  | 7#8 => zeroed (w.extractLsb' 8 3 == 0#3) (.vprune48 (w.extractLsb' 21 5) (w.extractLsb' 16 5) (w.extractLsb' 11 5))
  | 8#8 => .ok (.vsortseg (w.extractLsb' 21 5) (w.extractLsb' 16 5) (w.extractLsb' 11 5) (w.extractLsb' 8 3))
  | 9#8 => .ok (.vnz (w.extractLsb' 21 5) (w.extractLsb' 16 5) (w.extractLsb' 11 5) (w.extractLsb' 8 3))
  | _ => .bad .reservedFunction

/-- The members of VRED, R182, by their function field. -/
def decVred (w : BitVec 32) : Decoded :=
  match w.extractLsb' 0 8 with
  | 0#8 => zeroed (w.extractLsb' 11 5 == 0#5) (.vrsum (w.extractLsb' 21 5) (w.extractLsb' 16 5) (w.extractLsb' 8 3))
  | 1#8 => zeroed (w.extractLsb' 11 5 == 0#5) (.vrmin (w.extractLsb' 21 5) (w.extractLsb' 16 5) (w.extractLsb' 8 3))
  | 2#8 => zeroed (w.extractLsb' 11 5 == 0#5) (.vrmax (w.extractLsb' 21 5) (w.extractLsb' 16 5) (w.extractLsb' 8 3))
  | 3#8 => zeroed (w.extractLsb' 11 5 == 0#5) (.vrand (w.extractLsb' 21 5) (w.extractLsb' 16 5) (w.extractLsb' 8 3))
  | 4#8 => zeroed (w.extractLsb' 11 5 == 0#5) (.vror (w.extractLsb' 21 5) (w.extractLsb' 16 5) (w.extractLsb' 8 3))
  | 5#8 => zeroed (w.extractLsb' 11 5 == 0#5) (.vrxor (w.extractLsb' 21 5) (w.extractLsb' 16 5) (w.extractLsb' 8 3))
  | 6#8 => zeroed (w.extractLsb' 11 5 == 0#5) (.vfrsum (w.extractLsb' 21 5) (w.extractLsb' 16 5) (w.extractLsb' 8 3))
  | 7#8 => zeroed (w.extractLsb' 11 5 == 0#5) (.vfrmin (w.extractLsb' 21 5) (w.extractLsb' 16 5) (w.extractLsb' 8 3))
  | 8#8 => zeroed (w.extractLsb' 11 5 == 0#5) (.vfrmax (w.extractLsb' 21 5) (w.extractLsb' 16 5) (w.extractLsb' 8 3))
  | 9#8 => .ok (.vfdot (w.extractLsb' 21 5) (w.extractLsb' 16 5) (w.extractLsb' 11 5) (w.extractLsb' 8 3))
  | _ => .bad .reservedFunction

/-- The members of VTAG, R186, by their function field. -/
def decVtag (w : BitVec 32) : Decoded :=
  match w.extractLsb' 0 8 with
  | 0#8 => zeroed (w.extractLsb' 8 8 == 0#8) (.vtagq (w.extractLsb' 21 5) (w.extractLsb' 16 5))
  | 1#8 => zeroed (w.extractLsb' 11 5 == 0#5) (.vwaitr (w.extractLsb' 21 5) (w.extractLsb' 16 5) (w.extractLsb' 8 3))
  | 2#8 => zeroed (w.extractLsb' 11 10 == 0#10) (.vdrop (w.extractLsb' 21 5) (w.extractLsb' 8 3))
  | 3#8 => zeroed (w.extractLsb' 16 5 == 0#5 && w.extractLsb' 8 3 == 0#3) (.vprog (w.extractLsb' 21 5) (w.extractLsb' 11 5))
  | _ => .bad .reservedFunction

/-- The members of VLD, R190, by their function field. -/
def decVld (w : BitVec 32) : Decoded :=
  match w.extractLsb' 0 5 with
  | 0#5 => zeroed (w.extractLsb' 11 5 == 0#5 && w.extractLsb' 5 3 == 0#3) (.vld (w.extractLsb' 21 5) (w.extractLsb' 16 5) (w.extractLsb' 8 3))
  | 1#5 => zeroed (w.extractLsb' 5 3 == 0#3) (.vlds (w.extractLsb' 21 5) (w.extractLsb' 16 5) (w.extractLsb' 11 5) (w.extractLsb' 8 3))
  | 2#5 => zeroed (w.extractLsb' 5 3 == 0#3) (.vldx (w.extractLsb' 21 5) (w.extractLsb' 16 5) (w.extractLsb' 11 5) (w.extractLsb' 8 3))
  | 3#5 => zeroed (w.extractLsb' 15 1 == 0#1) (.vldseg (w.extractLsb' 21 5) (w.extractLsb' 16 5) (w.extractLsb' 11 4) (w.extractLsb' 8 3) (w.extractLsb' 5 3))
  | 4#5 => zeroed (w.extractLsb' 11 5 == 0#5 && w.extractLsb' 5 3 == 0#3) (.vldw (w.extractLsb' 21 5) (w.extractLsb' 16 5) (w.extractLsb' 8 3))
  | 5#5 => zeroed (w.extractLsb' 5 3 == 0#3) (.vldl (w.extractLsb' 21 5) (w.extractLsb' 16 5) (w.extractLsb' 11 5) (w.extractLsb' 8 3))
  | 6#5 => zeroed (w.extractLsb' 5 3 == 0#3) (.vldsc (w.extractLsb' 21 5) (w.extractLsb' 16 5) (w.extractLsb' 11 5) (w.extractLsb' 8 3))
  | 7#5 => zeroed (w.extractLsb' 5 11 == 0#11) (.vrload (w.extractLsb' 21 5) (w.extractLsb' 16 5))
  | _ => .bad .reservedFunction

/-- The members of VST, R190, by their function field. -/
def decVst (w : BitVec 32) : Decoded :=
  match w.extractLsb' 0 5 with
  | 0#5 => zeroed (w.extractLsb' 11 5 == 0#5 && w.extractLsb' 5 3 == 0#3) (.vst (w.extractLsb' 21 5) (w.extractLsb' 16 5) (w.extractLsb' 8 3))
  | 1#5 => zeroed (w.extractLsb' 5 3 == 0#3) (.vsts (w.extractLsb' 21 5) (w.extractLsb' 16 5) (w.extractLsb' 11 5) (w.extractLsb' 8 3))
  | 2#5 => zeroed (w.extractLsb' 5 3 == 0#3) (.vstx (w.extractLsb' 21 5) (w.extractLsb' 16 5) (w.extractLsb' 11 5) (w.extractLsb' 8 3))
  | 3#5 => zeroed (w.extractLsb' 15 1 == 0#1) (.vstseg (w.extractLsb' 21 5) (w.extractLsb' 16 5) (w.extractLsb' 11 4) (w.extractLsb' 8 3) (w.extractLsb' 5 3))
  | 5#5 => zeroed (w.extractLsb' 5 3 == 0#3) (.vstc (w.extractLsb' 21 5) (w.extractLsb' 16 5) (w.extractLsb' 11 5) (w.extractLsb' 8 3))
  | 6#5 => zeroed (w.extractLsb' 5 3 == 0#3) (.vstsc (w.extractLsb' 21 5) (w.extractLsb' 16 5) (w.extractLsb' 11 5) (w.extractLsb' 8 3))
  | 7#5 => zeroed (w.extractLsb' 5 11 == 0#11) (.vrsave (w.extractLsb' 21 5) (w.extractLsb' 16 5))
  | _ => .bad .reservedFunction

/-- The members of VROW, R205, by their function field. -/
def decVrow (w : BitVec 32) : Decoded :=
  match w.extractLsb' 0 8 with
  | 0#8 => zeroed (w.extractLsb' 11 5 == 0#5) (.vldrow (w.extractLsb' 21 5) (w.extractLsb' 16 5) (w.extractLsb' 8 3))
  | 1#8 => zeroed (w.extractLsb' 11 5 == 0#5) (.vstrow (w.extractLsb' 21 5) (w.extractLsb' 16 5) (w.extractLsb' 8 3))
  | _ => .bad .reservedFunction

/-- The members of VEMB, R207, by their function field. -/
def decVemb (w : BitVec 32) : Decoded :=
  match w.extractLsb' 0 3 with
  | 0#3 => .ok (.vemb (w.extractLsb' 21 5) (w.extractLsb' 16 5) (w.extractLsb' 11 5) (w.extractLsb' 6 5) (w.extractLsb' 3 3))
  | _ => .bad .reservedFunction

/-- The members of VBIND, R210, by their function field. -/
def decVbind (w : BitVec 32) : Decoded :=
  match w.extractLsb' 0 8 with
  | 0#8 => zeroed (w.extractLsb' 24 2 == 0#2 && w.extractLsb' 8 3 == 0#3) (.vbind (w.extractLsb' 21 3) (w.extractLsb' 16 5) (w.extractLsb' 11 5))
  | 1#8 => zeroed (w.extractLsb' 24 2 == 0#2 && w.extractLsb' 8 13 == 0#13) (.vunbind (w.extractLsb' 21 3))
  | 2#8 => zeroed (w.extractLsb' 19 2 == 0#2 && w.extractLsb' 8 8 == 0#8) (.vbpos (w.extractLsb' 21 5) (w.extractLsb' 16 3))
  | 3#8 => zeroed (w.extractLsb' 24 2 == 0#2 && w.extractLsb' 8 8 == 0#8) (.vbset (w.extractLsb' 21 3) (w.extractLsb' 16 5))
  | 4#8 => zeroed (w.extractLsb' 24 2 == 0#2 && w.extractLsb' 14 2 == 0#2 && w.extractLsb' 8 3 == 0#3) (.relay (w.extractLsb' 21 3) (w.extractLsb' 16 5) (w.extractLsb' 13 1) (w.extractLsb' 11 2))
  | _ => .bad .reservedFunction

/-- The members of UPD, R248, by their function field. -/
def decUpd (w : BitVec 32) : Decoded :=
  match w.extractLsb' 0 8 with
  | 0#8 => zeroed (w.extractLsb' 8 8 == 0#8) (.urgn (w.extractLsb' 21 5) (w.extractLsb' 16 5))
  | 1#8 => .ok (.upd (w.extractLsb' 21 5) (w.extractLsb' 16 5) (w.extractLsb' 11 5) (w.extractLsb' 8 3))
  | 2#8 => zeroed (w.extractLsb' 8 13 == 0#13) (.useal (w.extractLsb' 21 5))
  | 3#8 => zeroed (w.extractLsb' 8 13 == 0#13) (.uflush (w.extractLsb' 21 5))
  | 4#8 => zeroed (w.extractLsb' 8 13 == 0#13) (.uclose (w.extractLsb' 21 5))
  | _ => .bad .reservedFunction

/-- The members of MAT, R234, by their function field. -/
def decMat (w : BitVec 32) : Decoded :=
  match w.extractLsb' 0 8 with
  | 0#8 => zeroed (w.extractLsb' 15 1 == 0#1 && w.extractLsb' 8 3 == 0#3) (.mmode (w.extractLsb' 21 5) (w.extractLsb' 16 5) (w.extractLsb' 11 4))
  | 1#8 => zeroed (w.extractLsb' 8 18 == 0#18) (.moff)
  | 2#8 => zeroed (w.extractLsb' 23 3 == 0#3 && w.extractLsb' 8 13 == 0#13) (.tzero (w.extractLsb' 21 2))
  | 3#8 => zeroed (w.extractLsb' 18 3 == 0#3) (.tgetr (w.extractLsb' 21 5) (w.extractLsb' 16 2) (w.extractLsb' 11 5) (w.extractLsb' 8 3))
  | 4#8 => zeroed (w.extractLsb' 18 3 == 0#3) (.tgetc (w.extractLsb' 21 5) (w.extractLsb' 16 2) (w.extractLsb' 11 5) (w.extractLsb' 8 3))
  | 5#8 => zeroed (w.extractLsb' 23 3 == 0#3) (.tsetr (w.extractLsb' 21 2) (w.extractLsb' 16 5) (w.extractLsb' 11 5) (w.extractLsb' 8 3))
  | 6#8 => zeroed (w.extractLsb' 23 3 == 0#3) (.tsetc (w.extractLsb' 21 2) (w.extractLsb' 16 5) (w.extractLsb' 11 5) (w.extractLsb' 8 3))
  | 7#8 => .ok (.tstr (w.extractLsb' 23 3) (w.extractLsb' 21 2) (w.extractLsb' 16 5) (w.extractLsb' 11 5) (w.extractLsb' 8 3))
  | 8#8 => .ok (.tstx (w.extractLsb' 23 3) (w.extractLsb' 21 2) (w.extractLsb' 16 5) (w.extractLsb' 11 5) (w.extractLsb' 8 3))
  | 9#8 => zeroed (w.extractLsb' 24 2 == 0#2 && w.extractLsb' 8 8 == 0#8) (.mcbld (w.extractLsb' 21 3) (w.extractLsb' 16 5))
  | _ => .bad .reservedFunction

/-- The members of MOP, R228, by their function field. -/
def decMop (w : BitVec 32) : Decoded :=
  match w.extractLsb' 0 3 with
  | 0#3 => zeroed (w.extractLsb' 6 5 == 0#5) (.tfold (w.extractLsb' 23 3) (w.extractLsb' 21 2) (w.extractLsb' 16 5) (w.extractLsb' 11 5) (w.extractLsb' 3 3))
  | 1#3 => zeroed (w.extractLsb' 6 5 == 0#5) (.tfoldn (w.extractLsb' 23 3) (w.extractLsb' 21 2) (w.extractLsb' 16 5) (w.extractLsb' 11 5) (w.extractLsb' 3 3))
  | 2#3 => zeroed (w.extractLsb' 6 5 == 0#5) (.tfoldi8 (w.extractLsb' 23 3) (w.extractLsb' 21 2) (w.extractLsb' 16 5) (w.extractLsb' 11 5) (w.extractLsb' 3 3))
  | 3#3 => zeroed (w.extractLsb' 6 5 == 0#5) (.tfoldf8 (w.extractLsb' 23 3) (w.extractLsb' 21 2) (w.extractLsb' 16 5) (w.extractLsb' 11 5) (w.extractLsb' 3 3))
  | 4#3 => zeroed (w.extractLsb' 6 5 == 0#5) (.tfoldc4 (w.extractLsb' 23 3) (w.extractLsb' 21 2) (w.extractLsb' 16 5) (w.extractLsb' 11 5) (w.extractLsb' 3 3))
  | 5#3 => .ok (.tfoldsp (w.extractLsb' 23 3) (w.extractLsb' 21 2) (w.extractLsb' 16 5) (w.extractLsb' 11 5) (w.extractLsb' 6 5) (w.extractLsb' 3 3))
  | _ => .bad .reservedFunction

/-- The members of SLALOM, R265, by their function field. -/
def decSlalom (w : BitVec 32) : Decoded :=
  match w.extractLsb' 0 8 with
  | 0#8 => zeroed (w.extractLsb' 21 5 == 0#5) (.sclaimw (w.extractLsb' 16 5) (w.extractLsb' 11 5) (w.extractLsb' 8 3))
  | 1#8 => zeroed (w.extractLsb' 21 5 == 0#5) (.sclaimr (w.extractLsb' 16 5) (w.extractLsb' 11 5) (w.extractLsb' 8 3))
  | 2#8 => zeroed (w.extractLsb' 24 2 == 0#2 && w.extractLsb' 19 2 == 0#2 && w.extractLsb' 8 8 == 0#8) (.swave (w.extractLsb' 21 3) (w.extractLsb' 16 3))
  | 3#8 => zeroed (w.extractLsb' 19 7 == 0#7 && w.extractLsb' 8 8 == 0#8) (.sretire (w.extractLsb' 16 3))
  | 4#8 => zeroed (w.extractLsb' 8 18 == 0#18) (.sclear)
  | 5#8 => zeroed (w.extractLsb' 8 13 == 0#13) (.spend (w.extractLsb' 21 5))
  | _ => .bad .reservedFunction

/-- The members of DVORINE, R280, by their function field. -/
def decDvorine (w : BitVec 32) : Decoded :=
  match w.extractLsb' 0 8 with
  | 0#8 => zeroed (w.extractLsb' 8 8 == 0#8) (.cxload (w.extractLsb' 21 5) (w.extractLsb' 16 5))
  | 1#8 => zeroed (w.extractLsb' 8 13 == 0#13) (.cxdrop (w.extractLsb' 21 5))
  | 2#8 => zeroed (w.extractLsb' 8 8 == 0#8) (.cxq (w.extractLsb' 21 5) (w.extractLsb' 16 5))
  | _ => .bad .reservedFunction

/-- The members of ACOPY, R296, by their function field. -/
def decAcopy (w : BitVec 32) : Decoded :=
  match w.extractLsb' 0 8 with
  | 0#8 => zeroed (w.extractLsb' 8 3 == 0#3) (.acopy (w.extractLsb' 21 5) (w.extractLsb' 16 5) (w.extractLsb' 11 5))
  | 1#8 => zeroed (w.extractLsb' 8 8 == 0#8) (.acwait (w.extractLsb' 21 5) (w.extractLsb' 16 5))
  | 2#8 => zeroed (w.extractLsb' 8 3 == 0#3) (.acq (w.extractLsb' 21 5) (w.extractLsb' 16 5) (w.extractLsb' 11 5))
  | 3#8 => zeroed (w.extractLsb' 21 5 == 0#5 && w.extractLsb' 8 8 == 0#8) (.acresume (w.extractLsb' 16 5))
  | 4#8 => zeroed (w.extractLsb' 21 5 == 0#5 && w.extractLsb' 8 8 == 0#8) (.accancel (w.extractLsb' 16 5))
  | _ => .bad .reservedFunction

/-- The vector, memory, matrix and engine majors (R76, R77), before the rules of single members. -/
def decodeEngines (w : BitVec 32) : Decoded :=
  match w.extractLsb' 26 6 with
  | 32#6 => zeroed (w.extractLsb' 6 5 == 0#5) (.vstrip (w.extractLsb' 21 5) (w.extractLsb' 16 5) (w.extractLsb' 11 5) (w.extractLsb' 5 1) (w.extractLsb' 4 1) (w.extractLsb' 0 4))
  | 33#6 => decVint w
  | 34#6 => decVfp w
  | 35#6 => decVfma w
  | 36#6 => zeroed (w.extractLsb' 5 3 == 0#3) (.vcvt (w.extractLsb' 21 5) (w.extractLsb' 16 5) (w.extractLsb' 11 5) (w.extractLsb' 8 3) (w.extractLsb' 4 1) (w.extractLsb' 0 4))
  | 37#6 => decVcmp w
  | 38#6 => decMask w
  | 39#6 => decVperm w
  | 40#6 => decVsparse w
  | 41#6 => decVred w
  | 42#6 => decVtag w
  | 48#6 => decVld w
  | 49#6 => decVst w
  | 50#6 => decVrow w
  | 51#6 => decVemb w
  | 52#6 => decVbind w
  | 53#6 => decUpd w
  | 54#6 => decMat w
  | 55#6 => decMop w
  | 56#6 => decSlalom w
  | 57#6 => decDvorine w
  | 58#6 => .ok (.cx (w.extractLsb' 21 5) (w.extractLsb' 16 5) (w.extractLsb' 11 5) (w.extractLsb' 6 5) (w.extractLsb' 3 3) (w.extractLsb' 0 3))
  | 59#6 => decAcopy w
  | _ => .bad .reservedMajor

/-- The word as the opcode maps of R75 to R77 give it, before the rules of single members. (No code is compiled for the
functions that build every constructor: Instr has more constructors than the compiler has tags.) -/
noncomputable def decodeMap (w : BitVec 32) : Decoded :=
  match w.extractLsb' 26 6 with
  | 1#6 => decSop w
  | 2#6 => .ok (.addi (w.extractLsb' 21 5) (w.extractLsb' 16 5) (w.extractLsb' 0 16))
  | 3#6 => .ok (.andi (w.extractLsb' 21 5) (w.extractLsb' 16 5) (w.extractLsb' 0 16))
  | 4#6 => .ok (.ori (w.extractLsb' 21 5) (w.extractLsb' 16 5) (w.extractLsb' 0 16))
  | 5#6 => .ok (.xori (w.extractLsb' 21 5) (w.extractLsb' 16 5) (w.extractLsb' 0 16))
  | 6#6 => .ok (.slti (w.extractLsb' 21 5) (w.extractLsb' 16 5) (w.extractLsb' 0 16))
  | 7#6 => decShi w
  | 8#6 => zeroed (w.extractLsb' 16 5 == 0#5) (.lih (w.extractLsb' 21 5) (w.extractLsb' 0 16))
  | 9#6 => .ok (.shori (w.extractLsb' 21 5) (w.extractLsb' 16 5) (w.extractLsb' 0 16))
  | 10#6 => .ok (.ldb (w.extractLsb' 21 5) (w.extractLsb' 16 5) (w.extractLsb' 0 16))
  | 11#6 => .ok (.ldbn (w.extractLsb' 21 5) (w.extractLsb' 16 5) (w.extractLsb' 0 16))
  | 12#6 => .ok (.ldh (w.extractLsb' 21 5) (w.extractLsb' 16 5) (w.extractLsb' 0 16))
  | 13#6 => .ok (.ldhn (w.extractLsb' 21 5) (w.extractLsb' 16 5) (w.extractLsb' 0 16))
  | 14#6 => .ok (.ldw (w.extractLsb' 21 5) (w.extractLsb' 16 5) (w.extractLsb' 0 16))
  | 15#6 => .ok (.ldwn (w.extractLsb' 21 5) (w.extractLsb' 16 5) (w.extractLsb' 0 16))
  | 16#6 => .ok (.ldd (w.extractLsb' 21 5) (w.extractLsb' 16 5) (w.extractLsb' 0 16))
  | 17#6 => .ok (.stb (w.extractLsb' 21 5) (w.extractLsb' 16 5) (w.extractLsb' 0 16))
  | 18#6 => .ok (.sth (w.extractLsb' 21 5) (w.extractLsb' 16 5) (w.extractLsb' 0 16))
  | 19#6 => .ok (.stw (w.extractLsb' 21 5) (w.extractLsb' 16 5) (w.extractLsb' 0 16))
  | 20#6 => .ok (.std (w.extractLsb' 21 5) (w.extractLsb' 16 5) (w.extractLsb' 0 16))
  | 21#6 => decBr w
  | 22#6 => .ok (.jmp (w.extractLsb' 0 26))
  | 23#6 => .ok (.call (w.extractLsb' 0 26))
  | 24#6 => decJr w
  | 25#6 => decSfp w
  | 26#6 => decFmas w
  | 27#6 => decLink w
  | 28#6 => decSync w
  | 29#6 => zeroed (w.extractLsb' 16 10 == 0#10 && w.extractLsb' 0 2 == 0#2) (.fence (w.extractLsb' 14 2) (w.extractLsb' 8 6) (w.extractLsb' 2 6))
  | 30#6 => decSys w
  | 31#6 => decState w
  | _ => decodeEngines w

/-- What the map gives, checked against the rules of single members (R78). -/
def checked (d : Decoded) : Decoded :=
  match d with
  | .bad r => .bad r
  | .ok i =>
    match illFormed i with
    | none => .ok i
    | some r => .bad r

/-- The instruction of a word that can stand in the window: those of majors 0x20 and above (R63, R77). -/
def decodeWindow (w : BitVec 32) : Decoded := checked (decodeEngines w)

/-- The instruction that a word is, or why it is no instruction (R78). -/
noncomputable def decode (w : BitVec 32) : Decoded :=
  if w == 0#32 || w == 0xFFFFFFFF#32 then .bad .reservedWord else checked (decodeMap w)

/-- The decoder over the opcode table's numbering of bits: every row with an encoding has 32 bits. -/
noncomputable def decodeTableWord (nbits w : Nat) : Option Instr :=
  if nbits = 32 then
    match decode (BitVec.ofNat 32 w) with
    | .ok i => some i
    | .bad _ => none
  else none

/-- The word of an encoded instruction (R68, R75 to R77); events have none. -/
def encode : Instr → Option (BitVec 32)
  | .vstrip a b c x y e => some (32#6 ++ a ++ b ++ c ++ 0#5 ++ x ++ y ++ e)
  | .vadd a b c m f => some (33#6 ++ a ++ b ++ c ++ m ++ f ++ 0#6)
  | .vsub a b c m f => some (33#6 ++ a ++ b ++ c ++ m ++ f ++ 1#6)
  | .vmul a b c m f => some (33#6 ++ a ++ b ++ c ++ m ++ f ++ 2#6)
  | .vmulh a b c m f => some (33#6 ++ a ++ b ++ c ++ m ++ f ++ 3#6)
  | .vmulhn a b c m f => some (33#6 ++ a ++ b ++ c ++ m ++ f ++ 4#6)
  | .vdiv a b c m f => some (33#6 ++ a ++ b ++ c ++ m ++ f ++ 5#6)
  | .vdivn a b c m f => some (33#6 ++ a ++ b ++ c ++ m ++ f ++ 6#6)
  | .vrem a b c m f => some (33#6 ++ a ++ b ++ c ++ m ++ f ++ 7#6)
  | .vremn a b c m f => some (33#6 ++ a ++ b ++ c ++ m ++ f ++ 8#6)
  | .vmin a b c m f => some (33#6 ++ a ++ b ++ c ++ m ++ f ++ 9#6)
  | .vmax a b c m f => some (33#6 ++ a ++ b ++ c ++ m ++ f ++ 10#6)
  | .vminn a b c m f => some (33#6 ++ a ++ b ++ c ++ m ++ f ++ 11#6)
  | .vmaxn a b c m f => some (33#6 ++ a ++ b ++ c ++ m ++ f ++ 12#6)
  | .vand a b c m f => some (33#6 ++ a ++ b ++ c ++ m ++ f ++ 13#6)
  | .vor a b c m f => some (33#6 ++ a ++ b ++ c ++ m ++ f ++ 14#6)
  | .vxor a b c m f => some (33#6 ++ a ++ b ++ c ++ m ++ f ++ 15#6)
  | .vshl a b c m f => some (33#6 ++ a ++ b ++ c ++ m ++ f ++ 16#6)
  | .vshr a b c m f => some (33#6 ++ a ++ b ++ c ++ m ++ f ++ 17#6)
  | .vshra a b c m f => some (33#6 ++ a ++ b ++ c ++ m ++ f ++ 18#6)
  | .vsadd a b c m f => some (33#6 ++ a ++ b ++ c ++ m ++ f ++ 19#6)
  | .vssub a b c m f => some (33#6 ++ a ++ b ++ c ++ m ++ f ++ 20#6)
  | .vadc a b c m f => some (33#6 ++ a ++ b ++ c ++ m ++ f ++ 21#6)
  | .vsbc a b c m f => some (33#6 ++ a ++ b ++ c ++ m ++ f ++ 22#6)
  | .vmacc a b c m f => some (33#6 ++ a ++ b ++ c ++ m ++ f ++ 23#6)
  | .vfadd a b c m f => some (34#6 ++ a ++ b ++ c ++ m ++ f ++ 0#6)
  | .vfsub a b c m f => some (34#6 ++ a ++ b ++ c ++ m ++ f ++ 1#6)
  | .vfmul a b c m f => some (34#6 ++ a ++ b ++ c ++ m ++ f ++ 2#6)
  | .vfdiv a b c m f => some (34#6 ++ a ++ b ++ c ++ m ++ f ++ 3#6)
  | .vfmin a b c m f => some (34#6 ++ a ++ b ++ c ++ m ++ f ++ 4#6)
  | .vfmax a b c m f => some (34#6 ++ a ++ b ++ c ++ m ++ f ++ 5#6)
  | .vfsqrt a b m => some (34#6 ++ a ++ b ++ 0#5 ++ m ++ 6#8)
  | .vfabs a b m => some (34#6 ++ a ++ b ++ 0#5 ++ m ++ 7#8)
  | .vfneg a b m => some (34#6 ++ a ++ b ++ 0#5 ++ m ++ 8#8)
  | .vfsgn a b c m f => some (34#6 ++ a ++ b ++ c ++ m ++ f ++ 9#6)
  | .vfma a b c d m => some (35#6 ++ a ++ b ++ c ++ d ++ m ++ 0#3)
  | .vfms a b c d m => some (35#6 ++ a ++ b ++ c ++ d ++ m ++ 1#3)
  | .vfnma a b c d m => some (35#6 ++ a ++ b ++ c ++ d ++ m ++ 2#3)
  | .vfnms a b c d m => some (35#6 ++ a ++ b ++ c ++ d ++ m ++ 3#3)
  | .vima a b c d m => some (35#6 ++ a ++ b ++ c ++ d ++ m ++ 4#3)
  | .vwfma a b c d m => some (35#6 ++ a ++ b ++ c ++ d ++ m ++ 5#3)
  | .vcvt a b r m s d => some (36#6 ++ a ++ b ++ r ++ m ++ 0#3 ++ s ++ d)
  | .vceq a b c m f => some (37#6 ++ 0#2 ++ a ++ b ++ c ++ m ++ f ++ 0#6)
  | .vcne a b c m f => some (37#6 ++ 0#2 ++ a ++ b ++ c ++ m ++ f ++ 1#6)
  | .vclt a b c m f => some (37#6 ++ 0#2 ++ a ++ b ++ c ++ m ++ f ++ 2#6)
  | .vcle a b c m f => some (37#6 ++ 0#2 ++ a ++ b ++ c ++ m ++ f ++ 3#6)
  | .vcgt a b c m f => some (37#6 ++ 0#2 ++ a ++ b ++ c ++ m ++ f ++ 4#6)
  | .vcge a b c m f => some (37#6 ++ 0#2 ++ a ++ b ++ c ++ m ++ f ++ 5#6)
  | .vcltn a b c m f => some (37#6 ++ 0#2 ++ a ++ b ++ c ++ m ++ f ++ 6#6)
  | .vclen a b c m f => some (37#6 ++ 0#2 ++ a ++ b ++ c ++ m ++ f ++ 7#6)
  | .vcgtn a b c m f => some (37#6 ++ 0#2 ++ a ++ b ++ c ++ m ++ f ++ 8#6)
  | .vcgen a b c m f => some (37#6 ++ 0#2 ++ a ++ b ++ c ++ m ++ f ++ 9#6)
  | .vfceq a b c m f => some (37#6 ++ 0#2 ++ a ++ b ++ c ++ m ++ f ++ 10#6)
  | .vfclt a b c m f => some (37#6 ++ 0#2 ++ a ++ b ++ c ++ m ++ f ++ 11#6)
  | .vfcle a b c m f => some (37#6 ++ 0#2 ++ a ++ b ++ c ++ m ++ f ++ 12#6)
  | .vfcun a b c m f => some (37#6 ++ 0#2 ++ a ++ b ++ c ++ m ++ f ++ 13#6)
  | .vcarry a b c m f => some (37#6 ++ 0#2 ++ a ++ b ++ c ++ m ++ f ++ 14#6)
  | .vborrow a b c m f => some (37#6 ++ 0#2 ++ a ++ b ++ c ++ m ++ f ++ 15#6)
  | .mand a b c => some (38#6 ++ 0#2 ++ a ++ 0#2 ++ b ++ 0#2 ++ c ++ 0#11)
  | .mor a b c => some (38#6 ++ 0#2 ++ a ++ 0#2 ++ b ++ 0#2 ++ c ++ 1#11)
  | .mxor a b c => some (38#6 ++ 0#2 ++ a ++ 0#2 ++ b ++ 0#2 ++ c ++ 2#11)
  | .mandn a b c => some (38#6 ++ 0#2 ++ a ++ 0#2 ++ b ++ 0#2 ++ c ++ 3#11)
  | .mnot a b => some (38#6 ++ 0#2 ++ a ++ 0#2 ++ b ++ 4#16)
  | .mmov a b => some (38#6 ++ 0#2 ++ a ++ 0#2 ++ b ++ 5#16)
  | .mshup a b s => some (38#6 ++ 0#2 ++ a ++ 0#2 ++ b ++ s ++ 6#11)
  | .mshdn a b s => some (38#6 ++ 0#2 ++ a ++ 0#2 ++ b ++ s ++ 7#11)
  | .mpopc a b => some (38#6 ++ a ++ 0#2 ++ b ++ 8#16)
  | .mfirst a b => some (38#6 ++ a ++ 0#2 ++ b ++ 9#16)
  | .mset a => some (38#6 ++ 0#2 ++ a ++ 10#21)
  | .mclr a => some (38#6 ++ 0#2 ++ a ++ 11#21)
  | .mtov a b => some (38#6 ++ a ++ 0#2 ++ b ++ 12#16)
  | .vtom a b => some (38#6 ++ 0#2 ++ a ++ b ++ 13#16)
  | .vmov a c m f => some (39#6 ++ a ++ 0#5 ++ c ++ m ++ f ++ 0#6)
  | .vsplat a b c m f => some (39#6 ++ a ++ b ++ c ++ m ++ f ++ 1#6)
  | .vslup a b c m f => some (39#6 ++ a ++ b ++ c ++ m ++ f ++ 2#6)
  | .vsldn a b c m f => some (39#6 ++ a ++ b ++ c ++ m ++ f ++ 3#6)
  | .vrgath a b c m => some (39#6 ++ a ++ b ++ c ++ m ++ 4#8)
  | .vrows a b c m f => some (39#6 ++ a ++ b ++ c ++ m ++ f ++ 5#6)
  | .vcols a b c m f => some (39#6 ++ a ++ b ++ c ++ m ++ f ++ 6#6)
  | .vroww a b c m f => some (39#6 ++ a ++ b ++ c ++ m ++ f ++ 7#6)
  | .vcolw a b c m f => some (39#6 ++ a ++ b ++ c ++ m ++ f ++ 8#6)
  | .vextr a b c f => some (39#6 ++ a ++ b ++ c ++ 0#3 ++ f ++ 9#6)
  | .vins a b c f => some (39#6 ++ a ++ b ++ c ++ 0#3 ++ f ++ 10#6)
  | .vmerge a b c m f => some (39#6 ++ a ++ b ++ c ++ m ++ f ++ 11#6)
  | .vid a m => some (39#6 ++ a ++ 0#10 ++ m ++ 12#8)
  | .vcompress a b m => some (40#6 ++ a ++ b ++ 0#5 ++ m ++ 0#8)
  | .vexpand a b m => some (40#6 ++ a ++ b ++ 0#5 ++ m ++ 1#8)
  | .viota a b m => some (40#6 ++ a ++ 0#2 ++ b ++ 0#5 ++ m ++ 2#8)
  | .vconflict a b m => some (40#6 ++ a ++ b ++ 0#5 ++ m ++ 3#8)
  | .vsegscan a b o m => some (40#6 ++ a ++ b ++ o ++ m ++ 4#8)
  | .vinter a b c m => some (40#6 ++ a ++ b ++ c ++ m ++ 5#8)
  | .vdelta a b c m => some (40#6 ++ a ++ b ++ c ++ m ++ 6#8)
  | .vprune48 a b c => some (40#6 ++ a ++ b ++ c ++ 7#11)
  | .vsortseg a b c m => some (40#6 ++ a ++ b ++ c ++ m ++ 8#8)
  | .vnz a b c m => some (40#6 ++ a ++ b ++ c ++ m ++ 9#8)
  | .vrsum a b m => some (41#6 ++ a ++ b ++ 0#5 ++ m ++ 0#8)
  | .vrmin a b m => some (41#6 ++ a ++ b ++ 0#5 ++ m ++ 1#8)
  | .vrmax a b m => some (41#6 ++ a ++ b ++ 0#5 ++ m ++ 2#8)
  | .vrand a b m => some (41#6 ++ a ++ b ++ 0#5 ++ m ++ 3#8)
  | .vror a b m => some (41#6 ++ a ++ b ++ 0#5 ++ m ++ 4#8)
  | .vrxor a b m => some (41#6 ++ a ++ b ++ 0#5 ++ m ++ 5#8)
  | .vfrsum a b m => some (41#6 ++ a ++ b ++ 0#5 ++ m ++ 6#8)
  | .vfrmin a b m => some (41#6 ++ a ++ b ++ 0#5 ++ m ++ 7#8)
  | .vfrmax a b m => some (41#6 ++ a ++ b ++ 0#5 ++ m ++ 8#8)
  | .vfdot a b c m => some (41#6 ++ a ++ b ++ c ++ m ++ 9#8)
  | .vtagq a b => some (42#6 ++ a ++ b ++ 0#16)
  | .vwaitr a b m => some (42#6 ++ a ++ b ++ 0#5 ++ m ++ 1#8)
  | .vdrop a m => some (42#6 ++ a ++ 0#10 ++ m ++ 2#8)
  | .vprog a n => some (42#6 ++ a ++ 0#5 ++ n ++ 3#11)
  | .vld a b m => some (48#6 ++ a ++ b ++ 0#5 ++ m ++ 0#8)
  | .vlds a b c m => some (48#6 ++ a ++ b ++ c ++ m ++ 1#8)
  | .vldx a b c m => some (48#6 ++ a ++ b ++ c ++ m ++ 2#8)
  | .vldseg a b t m f => some (48#6 ++ a ++ b ++ 0#1 ++ t ++ m ++ f ++ 3#5)
  | .vldw a b m => some (48#6 ++ a ++ b ++ 0#5 ++ m ++ 4#8)
  | .vldl a b c m => some (48#6 ++ a ++ b ++ c ++ m ++ 5#8)
  | .vldsc a b c m => some (48#6 ++ a ++ b ++ c ++ m ++ 6#8)
  | .vrload a b => some (48#6 ++ a ++ b ++ 7#16)
  | .vst a b m => some (49#6 ++ a ++ b ++ 0#5 ++ m ++ 0#8)
  | .vsts a b c m => some (49#6 ++ a ++ b ++ c ++ m ++ 1#8)
  | .vstx a b c m => some (49#6 ++ a ++ b ++ c ++ m ++ 2#8)
  | .vstseg a b t m f => some (49#6 ++ a ++ b ++ 0#1 ++ t ++ m ++ f ++ 3#5)
  | .vstc a b c m => some (49#6 ++ a ++ b ++ c ++ m ++ 5#8)
  | .vstsc a b c m => some (49#6 ++ a ++ b ++ c ++ m ++ 6#8)
  | .vrsave a b => some (49#6 ++ a ++ b ++ 7#16)
  | .vldrow a b m => some (50#6 ++ a ++ b ++ 0#5 ++ m ++ 0#8)
  | .vstrow a b m => some (50#6 ++ a ++ b ++ 0#5 ++ m ++ 1#8)
  | .vemb a b c d m => some (51#6 ++ a ++ b ++ c ++ d ++ m ++ 0#3)
  | .vbind a b c => some (52#6 ++ 0#2 ++ a ++ b ++ c ++ 0#11)
  | .vunbind a => some (52#6 ++ 0#2 ++ a ++ 1#21)
  | .vbpos a b => some (52#6 ++ a ++ 0#2 ++ b ++ 2#16)
  | .vbset a b => some (52#6 ++ 0#2 ++ a ++ b ++ 3#16)
  | .relay a b s d => some (52#6 ++ 0#2 ++ a ++ b ++ 0#2 ++ s ++ d ++ 4#11)
  | .urgn a b => some (53#6 ++ a ++ b ++ 0#16)
  | .upd a b c m => some (53#6 ++ a ++ b ++ c ++ m ++ 1#8)
  | .useal a => some (53#6 ++ a ++ 2#21)
  | .uflush a => some (53#6 ++ a ++ 3#21)
  | .uclose a => some (53#6 ++ a ++ 4#21)
  | .mmode a b t => some (54#6 ++ a ++ b ++ 0#1 ++ t ++ 0#11)
  | .tzero t => some (54#6 ++ 0#3 ++ t ++ 2#21)
  | .tgetr a t c m => some (54#6 ++ a ++ 0#3 ++ t ++ c ++ m ++ 3#8)
  | .tgetc a t c m => some (54#6 ++ a ++ 0#3 ++ t ++ c ++ m ++ 4#8)
  | .tsetr t b c m => some (54#6 ++ 0#3 ++ t ++ b ++ c ++ m ++ 5#8)
  | .tsetc t b c m => some (54#6 ++ 0#3 ++ t ++ b ++ c ++ m ++ 6#8)
  | .tstr r t b c m => some (54#6 ++ r ++ t ++ b ++ c ++ m ++ 7#8)
  | .tstx r t b c m => some (54#6 ++ r ++ t ++ b ++ c ++ m ++ 8#8)
  | .mcbld k b => some (54#6 ++ 0#2 ++ k ++ b ++ 9#16)
  | .tfold r t b c m => some (55#6 ++ r ++ t ++ b ++ c ++ 0#5 ++ m ++ 0#3)
  | .tfoldn r t b c m => some (55#6 ++ r ++ t ++ b ++ c ++ 0#5 ++ m ++ 1#3)
  | .tfoldi8 r t b c m => some (55#6 ++ r ++ t ++ b ++ c ++ 0#5 ++ m ++ 2#3)
  | .tfoldf8 r t b c m => some (55#6 ++ r ++ t ++ b ++ c ++ 0#5 ++ m ++ 3#3)
  | .tfoldc4 r t b c m => some (55#6 ++ r ++ t ++ b ++ c ++ 0#5 ++ m ++ 4#3)
  | .tfoldsp r t b c d m => some (55#6 ++ r ++ t ++ b ++ c ++ d ++ m ++ 5#3)
  | .sclaimw b c m => some (56#6 ++ 0#5 ++ b ++ c ++ m ++ 0#8)
  | .sclaimr b c m => some (56#6 ++ 0#5 ++ b ++ c ++ m ++ 1#8)
  | .swave a b => some (56#6 ++ 0#2 ++ a ++ 0#2 ++ b ++ 2#16)
  | .sretire b => some (56#6 ++ 0#7 ++ b ++ 3#16)
  | .spend a => some (56#6 ++ a ++ 5#21)
  | .cxload a b => some (57#6 ++ a ++ b ++ 0#16)
  | .cxdrop a => some (57#6 ++ a ++ 1#21)
  | .cxq a b => some (57#6 ++ a ++ b ++ 2#16)
  | .cx a b c d m s => some (58#6 ++ a ++ b ++ c ++ d ++ m ++ s)
  | .acopy a b c => some (59#6 ++ a ++ b ++ c ++ 0#11)
  | .acwait a b => some (59#6 ++ a ++ b ++ 1#16)
  | .acq a b w => some (59#6 ++ a ++ b ++ w ++ 2#11)
  | .acresume b => some (59#6 ++ 0#5 ++ b ++ 3#16)
  | .accancel b => some (59#6 ++ 0#5 ++ b ++ 4#16)
  | .add a b c => some (1#6 ++ a ++ b ++ c ++ 0#11)
  | .sub a b c => some (1#6 ++ a ++ b ++ c ++ 1#11)
  | .and a b c => some (1#6 ++ a ++ b ++ c ++ 2#11)
  | .or a b c => some (1#6 ++ a ++ b ++ c ++ 3#11)
  | .xor a b c => some (1#6 ++ a ++ b ++ c ++ 4#11)
  | .shl a b c => some (1#6 ++ a ++ b ++ c ++ 5#11)
  | .shr a b c => some (1#6 ++ a ++ b ++ c ++ 6#11)
  | .shra a b c => some (1#6 ++ a ++ b ++ c ++ 7#11)
  | .slt a b c => some (1#6 ++ a ++ b ++ c ++ 8#11)
  | .sltn a b c => some (1#6 ++ a ++ b ++ c ++ 9#11)
  | .mul a b c => some (1#6 ++ a ++ b ++ c ++ 10#11)
  | .mulh a b c => some (1#6 ++ a ++ b ++ c ++ 11#11)
  | .mulhn a b c => some (1#6 ++ a ++ b ++ c ++ 12#11)
  | .div a b c => some (1#6 ++ a ++ b ++ c ++ 13#11)
  | .divn a b c => some (1#6 ++ a ++ b ++ c ++ 14#11)
  | .rem a b c => some (1#6 ++ a ++ b ++ c ++ 15#11)
  | .remn a b c => some (1#6 ++ a ++ b ++ c ++ 16#11)
  | .min a b c => some (1#6 ++ a ++ b ++ c ++ 17#11)
  | .max a b c => some (1#6 ++ a ++ b ++ c ++ 18#11)
  | .minn a b c => some (1#6 ++ a ++ b ++ c ++ 19#11)
  | .maxn a b c => some (1#6 ++ a ++ b ++ c ++ 20#11)
  | .clz a b => some (1#6 ++ a ++ b ++ 21#16)
  | .ctz a b => some (1#6 ++ a ++ b ++ 22#16)
  | .popc a b => some (1#6 ++ a ++ b ++ 23#16)
  | .addi a b i => some (2#6 ++ a ++ b ++ i)
  | .andi a b i => some (3#6 ++ a ++ b ++ i)
  | .ori a b i => some (4#6 ++ a ++ b ++ i)
  | .xori a b i => some (5#6 ++ a ++ b ++ i)
  | .slti a b i => some (6#6 ++ a ++ b ++ i)
  | .shli a b s => some (7#6 ++ a ++ b ++ 0#10 ++ s)
  | .shri a b s => some (7#6 ++ a ++ b ++ 1#10 ++ s)
  | .shrai a b s => some (7#6 ++ a ++ b ++ 2#10 ++ s)
  | .lih a i => some (8#6 ++ a ++ 0#5 ++ i)
  | .shori a b i => some (9#6 ++ a ++ b ++ i)
  | .ldb a b i => some (10#6 ++ a ++ b ++ i)
  | .ldbn a b i => some (11#6 ++ a ++ b ++ i)
  | .ldh a b i => some (12#6 ++ a ++ b ++ i)
  | .ldhn a b i => some (13#6 ++ a ++ b ++ i)
  | .ldw a b i => some (14#6 ++ a ++ b ++ i)
  | .ldwn a b i => some (15#6 ++ a ++ b ++ i)
  | .ldd a b i => some (16#6 ++ a ++ b ++ i)
  | .stb a b i => some (17#6 ++ a ++ b ++ i)
  | .sth a b i => some (18#6 ++ a ++ b ++ i)
  | .stw a b i => some (19#6 ++ a ++ b ++ i)
  | .std a b i => some (20#6 ++ a ++ b ++ i)
  | .beq b c o => some (21#6 ++ b ++ c ++ 0#3 ++ o)
  | .bne b c o => some (21#6 ++ b ++ c ++ 1#3 ++ o)
  | .blt b c o => some (21#6 ++ b ++ c ++ 2#3 ++ o)
  | .bge b c o => some (21#6 ++ b ++ c ++ 3#3 ++ o)
  | .bltn b c o => some (21#6 ++ b ++ c ++ 4#3 ++ o)
  | .bgen b c o => some (21#6 ++ b ++ c ++ 5#3 ++ o)
  | .jmp o => some (22#6 ++ o)
  | .call o => some (23#6 ++ o)
  | .jr b => some (24#6 ++ 0#5 ++ b ++ 0#16)
  | .jalr b => some (24#6 ++ 0#5 ++ b ++ 1#16)
  | .fadd a b c p => some (25#6 ++ a ++ b ++ c ++ 0#3 ++ p ++ 0#7)
  | .fsub a b c p => some (25#6 ++ a ++ b ++ c ++ 0#3 ++ p ++ 1#7)
  | .fmul a b c p => some (25#6 ++ a ++ b ++ c ++ 0#3 ++ p ++ 2#7)
  | .fdiv a b c p => some (25#6 ++ a ++ b ++ c ++ 0#3 ++ p ++ 3#7)
  | .fsqrt a b p => some (25#6 ++ a ++ b ++ 0#8 ++ p ++ 4#7)
  | .fmin a b c p => some (25#6 ++ a ++ b ++ c ++ 0#3 ++ p ++ 5#7)
  | .fmax a b c p => some (25#6 ++ a ++ b ++ c ++ 0#3 ++ p ++ 6#7)
  | .feq a b c p => some (25#6 ++ a ++ b ++ c ++ 0#3 ++ p ++ 7#7)
  | .flt a b c p => some (25#6 ++ a ++ b ++ c ++ 0#3 ++ p ++ 8#7)
  | .fle a b c p => some (25#6 ++ a ++ b ++ c ++ 0#3 ++ p ++ 9#7)
  | .fcvti a b r p => some (25#6 ++ a ++ b ++ r ++ 0#3 ++ p ++ 10#7)
  | .fcvtf a b r p => some (25#6 ++ a ++ b ++ r ++ 0#3 ++ p ++ 11#7)
  | .fcvtwF32 a b r => some (25#6 ++ a ++ b ++ r ++ 12#11)
  | .fcvtwF64 a b => some (25#6 ++ a ++ b ++ 140#16)
  | .fmadd a b c d p => some (26#6 ++ a ++ b ++ c ++ d ++ 0#5 ++ p)
  | .fmsub a b c d p => some (26#6 ++ a ++ b ++ c ++ d ++ 1#5 ++ p)
  | .ldlw a b => some (27#6 ++ a ++ b ++ 0#16)
  | .ldld a b => some (27#6 ++ a ++ b ++ 1#16)
  | .stcw a b c => some (27#6 ++ a ++ b ++ c ++ 2#11)
  | .stcd a b c => some (27#6 ++ a ++ b ++ c ++ 3#11)
  | .ldscw a b => some (27#6 ++ a ++ b ++ 4#16)
  | .ldscd a b => some (27#6 ++ a ++ b ++ 5#16)
  | .stscw a b => some (27#6 ++ a ++ b ++ 6#16)
  | .stscd a b => some (27#6 ++ a ++ b ++ 7#16)
  | .bara b => some (28#6 ++ 0#5 ++ b ++ 0#16)
  | .barw b => some (28#6 ++ 0#5 ++ b ++ 1#16)
  | .baraw b => some (28#6 ++ 0#5 ++ b ++ 2#16)
  | .barset a b => some (28#6 ++ a ++ b ++ 3#16)
  | .qdrain q => some (28#6 ++ 0#11 ++ q ++ 6#11)
  | .fence s b a => some (29#6 ++ 0#10 ++ s ++ b ++ a ++ 0#2)
  | .mfs a n => some (31#6 ++ a ++ 0#9 ++ n)
  | .mts b n => some (31#6 ++ 0#5 ++ b ++ 4#4 ++ n)
  | .sets b n => some (31#6 ++ 0#5 ++ b ++ 8#4 ++ n)
  | .clrs b n => some (31#6 ++ 0#5 ++ b ++ 12#4 ++ n)
  | .gbara => some (28#6 ++ 4#26)
  | .gbarw => some (28#6 ++ 5#26)
  | .wfe => some (28#6 ++ 7#26)
  | .nop => some (30#6 ++ 0#26)
  | .trapu => some (30#6 ++ 1#26)
  | .eret => some (30#6 ++ 2#26)
  | .uiret => some (30#6 ++ 3#26)
  | .brk => some (30#6 ++ 4#26)
  | .halt => some (30#6 ++ 5#26)
  | .exit => some (30#6 ++ 6#26)
  | .tlbinv => some (30#6 ++ 7#26)
  | .moff => some (54#6 ++ 1#26)
  | .sclear => some (56#6 ++ 4#26)
  | .noInstruction .. => none
  | .sliceAdmit .. => none
  | .elementFire .. => none
  | .loadReturn .. => none
  | .gatherCommand .. => none
  | .storeGroupWrite .. => none
  | .pageWalk .. => none
  | .channelAccess .. => none
  | .copyLine .. => none
  | .copyComplete .. => none
  | .copyFaultStop .. => none
  | .relayDataArrive .. => none
  | .relayEndMarker .. => none
  | .preemption .. => none
  | .gangPlace .. => none
  | .gangResume .. => none
  | .ageingExpiry .. => none
  | .timeShareExpiry .. => none
  | .kill .. => none
  | .gangCompletion .. => none
  | .wsServingEntry .. => none
  | .scrub .. => none
  | .eccError .. => none
  | .linkCrcError .. => none
  | .packageUnreachable .. => none
  | .droopEvent .. => none
  | .calibration .. => none
  | .coldStart .. => none
  | .warmStart .. => none
  | .codeObjectCheck .. => none
  | .hostAccess .. => none
  | .qtailWrite .. => none
  | .qctlResume .. => none
  | .qctlMref .. => none
  | .qctlQreset .. => none
  | .qctlSwout .. => none
  | .qctlSwin .. => none
  | .qkillWrite .. => none
  | .qerrRead .. => none
  | .ctempTmaxRead .. => none
  | .islandDroopRead .. => none
  | .fencesetWrite .. => none
  | .fenceclrWrite .. => none
  | .hostRegWrite .. => none
  | .kernelPacket .. => none
  | .padPacket .. => none
  | .waitPacket .. => none
  | .waitPoll .. => none
  | .signalPacket .. => none
  | .signalWrite .. => none
  | .wsloadPacket .. => none
  | .gangsyncPacket .. => none
  | .gangsyncReserved .. => none
  | .gangsyncCommit .. => none
  | .gangsyncAbort .. => none
  | .mirrorWrite .. => none
  | .flaralLinkUp .. => none
  | .commitTick .. => none
  | .windowRetire => none
  | .pressPairReceive => none
  | .userTrapAsync => none
  | .supervisorTrap => none
  | .elementStep => none
  | .watchdog => none
  | .islandEvaluate => none
  | .tickSync => none
  | .errstatRead => none
  | .errrecRead => none

end Sys2Proof
end

