-- ==== Sys2Proof/Config.lean ====
section
/-! DEFINITION. What the spec leaves to the part, as constants without a body: nothing can be proved about their values. -/

namespace Sys2Proof.Config

/-- Reference ticks that pass during the n-th step (log 6): timing is open. -/
opaque elapsed : Nat → Nat

/-- Scalar clocks of a core that pass during the n-th step (log 6). -/
opaque clocks : Nat → Nat → Nat

/-- A choice that the spec leaves to the part within a stated list, for the n-th draw: which of the received values combine
next (R257), which received value an ARRIVAL LAST region keeps (R257). Log 8. -/
opaque pick : Nat → Nat

/-- The value that an element gets for an entry of the log that a program has overwritten (R254), for the n-th draw. Log 51. -/
opaque lost : Nat → BitVec 64

/-- Which 32-byte unit of a region's log takes the entry of an address and an origin key, counted from the first free one on
(R254): the log's contents are in the press's own format. Log 51. -/
opaque logUnit : Nat → Nat → Nat

/-- The binary tree of a REPRO = 0 sum (R155), fixed by GVLEN, VL, RL and etype: at the point where `n` partial sums are
left, `treePick gvlen vl rl etype n` names the next to combine. Log 7. -/
opaque treePick : Nat → Nat → Nat → Nat → Nat → Nat

/-- Whether VFDOT with REPRO = 0 rounds each product (R184), under the same four values. Log 7. -/
opaque dotRounds : Nat → Nat → Nat → Nat → Bool

/-- The host's error response to an access of host memory is an input of the environment (R309): whether host address `a`
answers. Log 9. -/
opaque hostOk : Nat → Bool

/-- The voltage margin in mV that a calibration finds for an island, for the n-th draw (R329): a measurement. Log 11. -/
opaque margin : Nat → Nat → BitVec 8

/-- TICK as the first synchronisation after a cold start sets its origin (R323), for the n-th draw. Log 34. -/
opaque origin : Nat → BitVec 64

end Sys2Proof.Config
end

