-- ==== Sys2Proof/Word.lean ====
section
/-! DEFINITION. The plain words of the machine: bytes, 32-bit and 64-bit words. -/

namespace Sys2Proof

/-- A byte, the unit of memory. -/
abbrev Byte := BitVec 8
/-- An instruction word or a 32-bit quantity. -/
abbrev Word32 := BitVec 32
/-- A general register, an address or a doubleword. -/
abbrev Word := BitVec 64

end Sys2Proof
end

