-- ==== Sys2Proof/Machine/Flags.lean ====
section
/-! DEFINITION. The floating-point flags of R56 and R151, and the rounding decision of R149 and R150. -/

namespace Sys2Proof.Machine

/-- A set of FFLAGS bits: [0] NX, [1] UF, [2] OF, [3] DZ, [4] NV (R56). -/
abbrev Flags := BitVec 5

def flagNX : Flags := 1#5
def flagUF : Flags := 2#5
def flagOF : Flags := 4#5
def flagDZ : Flags := 8#5
def flagNV : Flags := 16#5

/-- The rounding modes with their codes (R149). -/
inductive Rm where
  | rne | rtz | rdn | rup | rna | rto
  /-- Stochastic, with its draw (R150). -/
  | sto (draw : Nat)
  deriving DecidableEq, Repr

/-- The mode that FRM holds (R56): only codes 1 to 4 occur. -/
def rmOfFrm (c : BitVec 3) : Rm :=
  if c == 2#3 then .rtz else if c == 3#3 then .rdn else if c == 4#3 then .rup else .rne

/-- The mode of a rounding field of VCVT or of a scalar conversion (R134, R149): 0 is dynamic. -/
def rmOfCode (c : Nat) (frm : BitVec 3) (draw : Nat) : Rm :=
  match c with
  | 1 => .rne
  | 2 => .rtz
  | 3 => .rdn
  | 4 => .rup
  | 5 => .rna
  | 6 => .rto
  | 7 => .sto draw
  | _ => rmOfFrm frm

/-- The rounded magnitude, in grid units, of `lo + rem / 2^sh` with 0 ≤ rem < 2^sh, under mode `rm` (R149, R150). RTO makes bit 0 of the magnitude 1,
in a negative integer too (DEDUCED, log 77). -/
def roundMag (rm : Rm) (neg : Bool) (lo rem sh : Nat) : Nat :=
  if rem = 0 then lo
  else
    match rm with
    | .rne => if 2 * rem > 2 ^ sh ∨ (2 * rem = 2 ^ sh ∧ lo % 2 = 1) then lo + 1 else lo
    | .rtz => lo
    | .rdn => if neg then lo + 1 else lo
    | .rup => if neg then lo else lo + 1
    | .rna => if 2 * rem ≥ 2 ^ sh then lo + 1 else lo
    | .rto => if lo % 2 = 0 then lo + 1 else lo
    | .sto d => if d < rem * 2 ^ 32 / 2 ^ sh then lo + 1 else lo

/-- The delivered magnitude is infinity, or the largest finite value, when a result overflows (R149). -/
def overflowToInf (rm : Rm) (neg : Bool) : Bool :=
  match rm with
  | .rne | .rna | .sto _ => true
  | .rtz | .rto => false
  | .rdn => neg
  | .rup => !neg

/-- One step of the xorshift32 generator (R150). -/
def xorshift (x : BitVec 32) : BitVec 32 :=
  let a := x ^^^ (x <<< 13)
  let b := a ^^^ (a >>> 17)
  b ^^^ (b <<< 5)

/-- `n` steps of the generator. -/
def xorshiftN : Nat → BitVec 32 → BitVec 32
  | 0, x => x
  | n + 1, x => xorshiftN n (xorshift x)

end Sys2Proof.Machine
end

