-- ==== Sys2Proof/Machine/Floats.lean ====
section
/-! DEFINITION. Element types (R51), number formats (R144, R145), rounding (R149), arithmetic (R133) and conversions (R152). -/

namespace Sys2Proof.Machine

/-! ### Element types -/

/-- SEW of an etype code (R51); 8 for cb4; 0 for the reserved code 15. -/
def sewOf (t : Nat) : Nat :=
  match t with
  | 0 | 1 | 12 | 13 | 14 => 8
  | 2 | 3 | 8 | 9 => 16
  | 4 | 5 | 10 => 32
  | 6 | 7 | 11 => 64
  | _ => 0

/-- Etypes 0 to 14. -/
def isElem (t : Nat) : Bool := t != 15
/-- Integer etypes, 0 to 7. -/
def isInt (t : Nat) : Bool := t < 8
/-- Signed integer etypes. -/
def isSigned (t : Nat) : Bool := t < 8 && t % 2 == 0
/-- FP arithmetic etypes, 8 to 11. -/
def isFpArith (t : Nat) : Bool := 8 ≤ t && t < 12
/-- FP arithmetic and storage etypes but cb4. -/
def isFp (t : Nat) : Bool := 8 ≤ t && t < 14

/-- A floating-point format: exponent bits, fraction bits, bias, and whether all ones in E without fraction is infinity. -/
structure Fmt where
  w : Nat
  f : Nat
  bias : Nat
  hasInf : Bool
  deriving DecidableEq, Repr

/-- The format of an FP etype (R144). -/
def fmtOf (t : Nat) : Fmt :=
  match t with
  | 8 => ⟨5, 10, 15, true⟩
  | 9 => ⟨8, 7, 127, true⟩
  | 11 => ⟨11, 52, 1023, true⟩
  | 12 => ⟨4, 3, 7, false⟩
  | 13 => ⟨5, 2, 15, true⟩
  | _ => ⟨8, 23, 127, true⟩

/-- Exponent of the least grid unit: 1 − b − f. -/
def Fmt.qmin (k : Fmt) : Int := 1 - (k.bias : Int) - k.f
/-- The pattern of the canonical NaN (R145). -/
def Fmt.nan (k : Fmt) : Nat :=
  if k.hasInf then (2 ^ k.w - 1) * 2 ^ k.f + 2 ^ (k.f - 1) else 2 ^ (k.w + k.f) - 1
/-- The pattern of +infinity (formats that have one). -/
def Fmt.inf (k : Fmt) : Nat := (2 ^ k.w - 1) * 2 ^ k.f
/-- The pattern of the largest finite value. -/
def Fmt.maxFin (k : Fmt) : Nat := if k.hasInf then k.inf - 1 else k.nan - 1
/-- A pattern with the sign bit. -/
def Fmt.signed (k : Fmt) (neg : Bool) (x : Nat) : Nat := if neg then x + 2 ^ (k.w + k.f) else x

/-- The value of a pattern. -/
inductive Val where
  | nan (signalling : Bool)
  | inf (neg : Bool)
  /-- (−1)^neg × m × 2^e; m = 0 is a zero with its sign. -/
  | fin (neg : Bool) (m : Nat) (e : Int)
  deriving DecidableEq, Repr

/-- The value of the pattern `x` (R144, R145). -/
def unpack (k : Fmt) (x : Nat) : Val :=
  let neg := x / 2 ^ (k.w + k.f) % 2 == 1
  let e := x / 2 ^ k.f % 2 ^ k.w
  let f := x % 2 ^ k.f
  if e = 2 ^ k.w - 1 ∧ k.hasInf then
    if f = 0 then .inf neg else .nan (k.f > 2 && f < 2 ^ (k.f - 1))
  else if e = 2 ^ k.w - 1 ∧ f = 2 ^ k.f - 1 then .nan false
  else if e = 0 then .fin neg f k.qmin
  else .fin neg (f + 2 ^ k.f) (k.qmin + (e - 1 : Nat))

/-- A result pattern with the flags it raises. -/
structure Res where
  bits : Nat
  fl : Flags
  deriving DecidableEq, Repr

/-- Number of bits of a magnitude. -/
def bitLen (m : Nat) : Nat := if m = 0 then 0 else m.log2 + 1

/-- Split m × 2^e at grid unit 2^q: grid count, remainder, and remainder width. -/
def splitAt (m : Nat) (e q : Int) : Nat × Nat × Nat :=
  if e ≥ q then (m * 2 ^ (e - q).toNat, 0, 0)
  else
    let sh := (q - e).toNat
    (m / 2 ^ sh, m % 2 ^ sh, sh)

/-- The exact value (−1)^neg × m × 2^e rounded to format `k` (R149, R151, R152). With `sat`, an overflow gives the largest
finite value. -/
def roundFin (k : Fmt) (rm : Rm) (sat : Bool) (neg : Bool) (m : Nat) (e : Int) : Res :=
  if m = 0 then ⟨k.signed neg 0, 0⟩
  else
    let top : Int := e + (bitLen m : Int) - 1
    let q : Int := if top - k.f < k.qmin then k.qmin else top - k.f
    let (lo, rem, sh) := splitAt m e q
    let r := roundMag rm neg lo rem sh
    let q' : Int := if r = 2 ^ (k.f + 1) then q + 1 else q
    let r' := if r = 2 ^ (k.f + 1) then 2 ^ k.f else r
    let pat : Nat := r' + (q' - k.qmin).toNat * 2 ^ k.f
    if pat > k.maxFin then
      let b := if sat then k.maxFin else if k.hasInf then (if overflowToInf rm neg then k.inf else k.maxFin) else k.nan
      ⟨if !sat && !k.hasInf then b else k.signed neg b, flagOF ||| flagNX⟩
    else
      -- tiny: below the smallest normal after rounding with an unbounded exponent range (R151)
      let emin : Int := k.qmin + k.f
      let (lo2, rem2, sh2) := splitAt m e (top - k.f)
      let tiny := top < emin && !(top = emin - 1 && roundMag rm neg lo2 rem2 sh2 = 2 ^ (k.f + 1))
      ⟨k.signed neg pat, if rem = 0 then 0 else if tiny then flagNX ||| flagUF else flagNX⟩

/-- The canonical NaN as a result. -/
def resNaN (k : Fmt) (fl : Flags) : Res := ⟨k.nan, fl⟩

/-- A signalling NaN operand sets NV (R151). -/
def nvOf (a : Val) : Flags :=
  match a with
  | .nan true => flagNV
  | _ => 0

def Val.isNaN (a : Val) : Bool :=
  match a with
  | .nan _ => true
  | _ => false

def Val.negate (a : Val) : Val :=
  match a with
  | .nan s => .nan s
  | .inf n => .inf (!n)
  | .fin n m e => .fin (!n) m e

/-- Signed magnitude of m × 2^e in units of 2^u, u ≤ e. -/
def scaled (neg : Bool) (m : Nat) (e u : Int) : Int :=
  let x : Int := ((m * 2 ^ (e - u).toNat : Nat) : Int)
  if neg then -x else x

/-- The exact sum of two finite values; a zero sum takes its sign from R145. -/
def addFin (rm : Rm) (n1 : Bool) (m1 : Nat) (e1 : Int) (n2 : Bool) (m2 : Nat) (e2 : Int) : Bool × Nat × Int :=
  let u := if e1 ≤ e2 then e1 else e2
  let s := scaled n1 m1 e1 u + scaled n2 m2 e2 u
  if s = 0 then
    (if n1 == n2 && m1 = 0 && m2 = 0 then n1 else (match rm with | .rdn => true | _ => false), 0, u)
  else (decide (s < 0), s.natAbs, u)

/-- x + y rounded once (R133). -/
def addVal (k : Fmt) (rm : Rm) (a b : Val) : Res :=
  let nv := nvOf a ||| nvOf b
  match a, b with
  | .nan _, _ => resNaN k nv
  | _, .nan _ => resNaN k nv
  | .inf n1, .inf n2 => if n1 == n2 then ⟨k.signed n1 k.inf, 0⟩ else resNaN k flagNV
  | .inf n1, .fin .. => ⟨k.signed n1 k.inf, 0⟩
  | .fin .., .inf n2 => ⟨k.signed n2 k.inf, 0⟩
  | .fin n1 m1 e1, .fin n2 m2 e2 =>
    let (n, m, e) := addFin rm n1 m1 e1 n2 m2 e2
    roundFin k rm false n m e

/-- The exact product as a value, with NV for 0 × ∞ or a signalling NaN. -/
def mulVal (a b : Val) : Val × Flags :=
  match a, b with
  | .nan _, _ => (.nan false, nvOf a ||| nvOf b)
  | _, .nan _ => (.nan false, nvOf a ||| nvOf b)
  | .inf n1, .inf n2 => (.inf (n1 != n2), 0)
  | .inf n1, .fin n2 m2 _ => if m2 = 0 then (.nan false, flagNV) else (.inf (n1 != n2), 0)
  | .fin n1 m1 _, .inf n2 => if m1 = 0 then (.nan false, flagNV) else (.inf (n1 != n2), 0)
  | .fin n1 m1 e1, .fin n2 m2 e2 => (.fin (n1 != n2) (m1 * m2) (e1 + e2), 0)

/-- An exact value rounded to format `k`. -/
def roundVal (k : Fmt) (rm : Rm) (a : Val) : Res :=
  match a with
  | .nan _ => resNaN k (nvOf a)
  | .inf n => ⟨k.signed n k.inf, 0⟩
  | .fin n m e => roundFin k rm false n m e

def fpAdd (k : Fmt) (rm : Rm) (x y : Nat) : Res := addVal k rm (unpack k x) (unpack k y)
def fpSub (k : Fmt) (rm : Rm) (x y : Nat) : Res := addVal k rm (unpack k x) (unpack k y).negate
def fpMul (k : Fmt) (rm : Rm) (x y : Nat) : Res :=
  let (p, fl) := mulVal (unpack k x) (unpack k y)
  let r := roundVal k rm p
  ⟨r.bits, r.fl ||| fl⟩

/-- a × b + d with an exact product and one rounding (R135); `p` is the exact product with its flags. -/
def addProduct (k : Fmt) (rm : Rm) (p : Val × Flags) (d : Val) : Res :=
  let r := addVal k rm p.1 d
  ⟨r.bits, r.fl ||| p.2⟩

def fpFma (k : Fmt) (rm : Rm) (x y z : Nat) (negProd negAdd : Bool) : Res :=
  let p := mulVal (unpack k x) (unpack k y)
  let p' := if negProd then (p.1.negate, p.2) else p
  let d := unpack k z
  addProduct k rm p' (if negAdd then d.negate else d)

/-- x ÷ y rounded once (R133): the quotient is taken with enough bits that the last one can stand for all that follow. -/
def fpDiv (k : Fmt) (rm : Rm) (x y : Nat) : Res :=
  let a := unpack k x
  let b := unpack k y
  match a, b with
  | .nan _, _ => resNaN k (nvOf a ||| nvOf b)
  | _, .nan _ => resNaN k (nvOf a ||| nvOf b)
  | .inf _, .inf _ => resNaN k flagNV
  | .inf n1, .fin n2 _ _ => ⟨k.signed (n1 != n2) k.inf, 0⟩
  | .fin n1 _ _, .inf n2 => ⟨k.signed (n1 != n2) 0, 0⟩
  | .fin n1 m1 e1, .fin n2 m2 e2 =>
    if m2 = 0 then
      if m1 = 0 then resNaN k flagNV else ⟨k.signed (n1 != n2) k.inf, flagDZ⟩
    else
      let sh := k.f + 3 + bitLen m2
      let q := m1 * 2 ^ sh / m2
      let st := if m1 * 2 ^ sh % m2 = 0 then 0 else 1
      roundFin k rm false (n1 != n2) (2 * q + st) (e1 - e2 - sh - 1)

/-- The integer square root of m, bit by bit from bit i − 1 down, above the part r already found. -/
def isqrtFrom (m : Nat) : Nat → Nat → Nat
  | 0, r => r
  | i + 1, r => if (r + 2 ^ i) * (r + 2 ^ i) ≤ m then isqrtFrom m i (r + 2 ^ i) else isqrtFrom m i r

/-- The largest r with r × r ≤ m. -/
def isqrt (m : Nat) : Nat := isqrtFrom m (bitLen m / 2 + 1) 0

/-- √x rounded once (R133). -/
def fpSqrt (k : Fmt) (rm : Rm) (x : Nat) : Res :=
  let a := unpack k x
  match a with
  | .nan _ => resNaN k (nvOf a)
  | .inf n => if n then resNaN k flagNV else ⟨k.inf, 0⟩
  | .fin n m e =>
    if m = 0 then ⟨k.signed n 0, 0⟩
    else if n then resNaN k flagNV
    else
      -- an even exponent, and enough bits that the last one can stand for all that follow
      let sh := 2 * (k.f + 3) + (if (e % 2 : Int) = 0 then 0 else 1)
      let m' := m * 2 ^ sh
      let r := isqrt m'
      let st := if r * r = m' then 0 else 1
      roundFin k rm false false (2 * r + st) ((e - sh) / 2 - 1)

/-- Order of two finite or infinite values: −1, 0 or 1; zeros compare equal. -/
def cmpVal (a b : Val) : Int :=
  match a, b with
  | .inf n1, .inf n2 => if n1 == n2 then 0 else if n1 then -1 else 1
  | .inf n1, _ => if n1 then -1 else 1
  | _, .inf n2 => if n2 then 1 else -1
  | .fin n1 m1 e1, .fin n2 m2 e2 =>
    let u := if e1 ≤ e2 then e1 else e2
    let d := scaled n1 m1 e1 u - scaled n2 m2 e2 u
    if d < 0 then -1 else if d = 0 then 0 else 1
  | _, _ => 0

/-- The sign of a value that is no NaN. -/
def Val.isNeg (a : Val) : Bool :=
  match a with
  | .nan _ => false
  | .inf n => n
  | .fin n _ _ => n

/-- minimumNumber (`mx` false) or maximumNumber of IEEE 754-2019 with −0 < +0 (R133). -/
def fpMinMax (k : Fmt) (mx : Bool) (x y : Nat) : Res :=
  let a := unpack k x
  let b := unpack k y
  let fl := nvOf a ||| nvOf b
  match a, b with
  | .nan _, .nan _ => resNaN k fl
  | .nan _, _ => ⟨y, fl⟩
  | _, .nan _ => ⟨x, fl⟩
  | _, _ =>
    let c := cmpVal a b
    let xFirst := if c = 0 then (a.isNeg || !b.isNeg) else decide (c < 0)
    ⟨if xFirst != mx then x else y, 0⟩

/-- x = y, with NV for a signalling NaN (R133). -/
def fpEq (k : Fmt) (x y : Nat) : Bool × Flags :=
  let a := unpack k x
  let b := unpack k y
  if a.isNaN || b.isNaN then (false, nvOf a ||| nvOf b) else (decide (cmpVal a b = 0), 0)

/-- x < y (or x ≤ y with `orEq`), with NV for any NaN (R133). -/
def fpLt (k : Fmt) (orEq : Bool) (x y : Nat) : Bool × Flags :=
  let a := unpack k x
  let b := unpack k y
  if a.isNaN || b.isNaN then (false, flagNV)
  else (if orEq then decide (cmpVal a b ≤ 0) else decide (cmpVal a b < 0), 0)

/-! ### Integers and conversions -/

/-- A w-bit pattern read as a number of etype `t`. -/
def intVal (t x : Nat) : Int :=
  let w := sewOf t
  if isSigned t ∧ x ≥ 2 ^ (w - 1) then (x : Int) - 2 ^ w else x

/-- Smallest and largest number of an integer etype (R143). -/
def intMin (t : Nat) : Int := if isSigned t then -(2 ^ (sewOf t - 1) : Int) else 0
def intMax (t : Nat) : Int := if isSigned t then (2 ^ (sewOf t - 1) : Int) - 1 else (2 ^ sewOf t : Int) - 1

/-- A number wrapped to w bits (R143). -/
def wrapInt (w : Nat) (x : Int) : Nat := (x % (2 ^ w : Int)).toNat

/-- A number clamped to the range of an integer etype. -/
def clampInt (t : Nat) (x : Int) : Int := if x < intMin t then intMin t else if x > intMax t then intMax t else x

/-- A value rounded to an integer of etype `t` (R152): the range is judged on the rounded integer. -/
def fpToInt (t : Nat) (rm : Rm) (a : Val) : Res :=
  let w := sewOf t
  match a with
  | .nan _ => ⟨wrapInt w (intMax t), flagNV⟩
  | .inf n => ⟨wrapInt w (if n then intMin t else intMax t), flagNV⟩
  | .fin n m e =>
    let (lo, rem, sh) := splitAt m e 0
    let r := roundMag rm n lo rem sh
    let x : Int := if n then -(r : Int) else r
    if x < intMin t then ⟨wrapInt w (intMin t), flagNV⟩
    else if x > intMax t then ⟨wrapInt w (intMax t), flagNV⟩
    else ⟨wrapInt w x, if rem = 0 then 0 else flagNX⟩

/-- A value converted to an FP etype (R152). -/
def valToFp (t : Nat) (rm : Rm) (sat : Bool) (a : Val) : Res :=
  let k := fmtOf t
  match a with
  | .nan _ => resNaN k (nvOf a)
  | .inf n =>
    if sat then ⟨k.signed n k.maxFin, flagOF ||| flagNX⟩
    else if k.hasInf then ⟨k.signed n k.inf, 0⟩
    else resNaN k flagNV
  | .fin n m e => roundFin k rm sat n m e

/-- The element types whose every value the etype `d` holds (the exact rows of R152). -/
def fpHolds (s d : Nat) : Bool :=
  match s, d with
  | 8, 10 | 8, 11 | 9, 10 | 9, 11 | 10, 11 => true
  | 12, 8 | 12, 9 | 12, 10 | 12, 11 | 13, 8 | 13, 9 | 13, 10 | 13, 11 => true
  | 8, 8 | 9, 9 | 10, 10 | 11, 11 | 12, 12 | 13, 13 => true
  | _, _ => false

/-- The pattern `x` of etype `s` converted to etype `d` (R152). -/
def convert (s d : Nat) (rm : Rm) (sat : Bool) (x : Nat) : Res :=
  if isInt s then
    let n := intVal s x
    if isInt d then ⟨wrapInt (sewOf d) (if sat then clampInt d n else n), 0⟩
    else roundFin (fmtOf d) rm sat (decide (n < 0)) n.natAbs 0
  else if isInt d then
    let a := unpack (fmtOf s) x
    fpToInt d rm a
  else
    -- an infinity stays infinity where the conversion is exact, whatever the saturate bit
    valToFp d rm (sat && !fpHolds s d) (unpack (fmtOf s) x)

end Sys2Proof.Machine
end

