-- ==== Sys2Proof/Machine/State.lean ====
section
/-! DEFINITION. The state of the PH640: strands, gangs, dies, the package and its memory, as plain data. -/

namespace Sys2Proof.Machine

/-- A sparse map from numbers to values: pairs in strictly rising order of their key, none with the default value. -/
abbrev Sparse (α : Type) := List (Nat × α)

/-! ### Window -/

/-- A fault that a window entry has detected and that no trap has reported yet (R108). -/
structure Detected where
  /-- The cause code (R104). -/
  cause : BitVec 8
  /-- The value for TVAL. -/
  tval : Word
  /-- The faulting element. -/
  elem : BitVec 32
  deriving DecidableEq, Repr

/-- Bytes of a source register, or bits of a source mask, as the entry still reads them although units of its own have
written there: the version that earlier writers left (R58, R159). -/
structure Held where
  /-- A mask, else a vector register. -/
  mask : Bool
  reg : Nat
  /-- The first byte or bit, and how many. -/
  lo : Nat
  len : Nat
  val : Nat
  deriving DecidableEq, Repr

/-- A window entry: the 96-byte record of R64 with its partial map (R116). -/
structure Entry where
  /-- WORD, the instruction word. -/
  word : BitVec 32
  /-- The instruction that the word is. -/
  ins : Instr
  /-- The g register that the entry has marked pending and not yet written (R40). -/
  gpend : Option (BitVec 5)
  /-- STATUS bit 1: the tail writes of R54 are made. -/
  tailDone : Bool
  /-- VL at entry. -/
  vl : BitVec 32
  /-- RL at entry. -/
  rl : BitVec 16
  /-- VTYPE at entry. -/
  vtype : BitVec 16
  /-- Latched scalar operand of field B. -/
  opb : Word
  /-- Latched scalar operand of field C. -/
  opc : Word
  /-- Latched scalar operand of field D, or the value the definition latches. -/
  opd : Word
  /-- The progress index p. -/
  pidx : Nat
  /-- NGRP, the element groups covered. -/
  ngrp : Nat
  /-- LATCH: FRM. -/
  frm : BitVec 3
  /-- LATCH: REPRO. -/
  repro : Bool
  /-- LATCH: MVL. -/
  mvl : BitVec 7
  /-- LATCH: tile etype. -/
  tet : BitVec 4
  /-- Latched scalar operand of field A. -/
  opa : Word
  /-- DONE: bit j stands for group p + 1 + j. -/
  done : BitVec 256
  /-- The partial map: bit 32 j + i stands for element 32 (p + j) + i. -/
  part : BitVec 8224
  /-- A detected, unreported fault. -/
  detected : Option Detected
  /-- Groups that a unit has admitted (R44), bit g for group g. -/
  adm : BitVec 1024
  /-- Groups whose fills and appends the VMU has admitted (R42). -/
  streamed : BitVec 1024
  /-- Units that have fired and whose groups are not all complete: rows and segments (R171, R209). -/
  fires : List Nat
  /-- What the entry still reads of the versions that its own results have replaced (R159). -/
  olds : List Held
  /-- The strip in which the entry stands (R92). -/
  strip : Nat
  /-- The fills of its bound sources are made (R212). -/
  filled : Bool
  /-- A resumption has restored the entry: its fills are made again, as a whole (R212). -/
  restored : Bool
  /-- GVLEN in effect at entry (R204). -/
  gvlen : BitVec 17
  /-- The slot image that a CX entry holds (R286). -/
  image : Option (BitVec 2048)
  /-- What a VBPOS has sampled at entry (R214). -/
  sample : Word
  deriving DecidableEq, Repr

/-- What the model keeps of an entry beside its window record: the record has no field for it. -/
structure Aside where
  fires : List Nat
  olds : List Held
  strip : Nat
  gvlen : BitVec 17
  image : Option (BitVec 2048)
  sample : Word
  deriving DecidableEq, Repr

/-! ### Strand -/

/-- A copy position with the record of its last ticket (R117, R295, R300). -/
structure CopyPos where
  /-- The last ticket; 0 with STATE 0. -/
  ticket : Word
  /-- STATUS.STATE: 0 NONE, 1 RUNNING, 2 DONE, 3 FAULTED, 4 CANCELLED. -/
  st : BitVec 3
  /-- STATUS.SIDE. -/
  side : Bool
  /-- STATUS.POISON. -/
  poison : Bool
  /-- STATUS.CAUSE. -/
  cause : BitVec 8
  /-- P, the progress offset in bytes. -/
  p : Nat
  /-- Virtual address of the recorded faulting line. -/
  faddr : Word
  /-- Latched destination. -/
  dst : Word
  /-- Latched source. -/
  src : Word
  /-- Latched control word. -/
  ctl : Word
  /-- Done map D. -/
  d : BitVec 256
  /-- The die on whose copy engine the copy runs. -/
  die : Nat
  deriving DecidableEq, Repr

/-- A binding slot record (R211). -/
structure Slot where
  base : Word
  stride : BitVec 32
  format : BitVec 8
  mode : BitVec 8
  reg : BitVec 8
  status : BitVec 8
  scaleBase : Word
  length : BitVec 32
  progress : BitVec 32
  /-- Bytes sent by the partner that have not yet arrived in the bound register, oldest first (R216). -/
  inflight : List Byte
  /-- Bytes that have arrived and that no receive entry has taken yet. -/
  arrived : List Byte
  /-- The partner's end marker is under way. -/
  endSent : Bool
  deriving DecidableEq, Repr

/-- An update pair in the update queue (R251, R253). -/
structure Pair where
  /-- Region handle. -/
  handle : Nat
  /-- The region that the handle named when the pair was formed (R259). -/
  serial : Nat
  /-- Physical address of the element. -/
  addr : Nat
  /-- Home press segment. -/
  seg : Nat
  /-- The value, in the low bits. -/
  val : Word
  /-- Origin key. -/
  key : BitVec 58
  /-- The elements of the run, in the UPD entry that sent the pair. -/
  elems : List Nat
  deriving DecidableEq, Repr

/-- A write that has been accepted and has not performed (R88, R193): where, how many bytes, and the value. -/
structure LateStore where
  addr : Nat
  n : Nat
  val : Nat
  /-- On the VEC path, else on SCA. -/
  vec : Bool
  /-- The strip of the entry that made a VEC write (R92). -/
  strip : Nat
  deriving DecidableEq, Repr

/-- What a trap reports. -/
structure TrapInfo where
  cause : BitVec 8
  /-- The resumption address. -/
  tepc : Word
  tval : Word
  elem : Nat
  /-- The window position of the reporting entry, when one reports. -/
  win : Option Nat
  async : Bool
  step : Bool
  deriving DecidableEq, Repr

/-- Where a strand is in its life (R30, R118, R119, R141). -/
inductive Phase where
  /-- No strand: the record is idle. -/
  | absent
  /-- Placed, but held until the commit tick of its gang (R324). -/
  | held
  /-- Resident on a core. -/
  | resident
  /-- Switched out by pre-emption; its image lies at TWIN. -/
  | switchedOut
  /-- Ended by EXIT. -/
  | exited
  deriving DecidableEq, Repr

/-- The state of one strand (R47), with its window, queues and place. -/
structure Strand where
  phase : Phase
  /-- g0 to g31. -/
  g : Vector Word 32
  pc : Word
  /-- Supervisor level. -/
  sup : Bool
  /-- v0 to v31, each in the low GRSZ bytes. -/
  v : Vector (BitVec 262144) 32
  /-- m0 to m7. -/
  m : Vector (BitVec 32768) 8
  /-- t0 to t3, 16 KiB each, laid out as R224 gives it. -/
  t : Vector (BitVec 131072) 4
  /-- k0 to k7. -/
  k : Vector Slot 8
  /-- cx0 to cx7: the loaded image, or none. -/
  cx : Vector (Option (BitVec 2048)) 8
  /-- cb0 to cb7: sixteen BF16 values each. -/
  cb : Vector (BitVec 256) 8
  /-- The slalom table (R263). -/
  slalom : BitVec 131072
  /-- Shadows of g24 to g29. -/
  shadow : Vector Word 6
  /-- The window, oldest entry first. -/
  window : List Entry
  vl : BitVec 32
  rl : BitVec 7
  vtype : BitVec 6
  gvlen : BitVec 17
  grsz : BitVec 16
  frm : BitVec 3
  fflags : BitVec 5
  repro : BitVec 1
  mvl : BitVec 7
  tetype : BitVec 4
  tilesOn : Bool
  tilesAllow : Bool
  srseed : BitVec 32
  /-- STRAND. -/
  id : BitVec 32
  /-- GANG. -/
  gang : BitVec 32
  /-- GANGSIZE. -/
  gangSize : BitVec 32
  /-- CORE, the package core number (R9). -/
  core : BitVec 10
  /-- PKG. -/
  pkg : BitVec 6
  /-- CYCLE. -/
  cycle : Word
  uivec : BitVec 58
  uicause : BitVec 8
  uiepc : Word
  uiIn : Bool
  enDone : Bool
  enFault : Bool
  enTrapu : Bool
  pDone : BitVec 8
  pFault : BitVec 8
  cxldr : BitVec 58
  tvec : BitVec 58
  tcause : BitVec 16
  tepc : Word
  tval : Word
  telem : BitVec 32
  twin : BitVec 34
  ptroot : BitVec 34
  asid : BitVec 16
  wdog : Word
  estep : Bool
  grantNext : BitVec 17
  grantPend : Bool
  /-- Watchdog count in tk (R121). -/
  wcount : Word
  /-- The event bit (R139). -/
  event : Bool
  /-- Current link generation (R95). -/
  linkGen : BitVec 4
  /-- Update sequence counter (R253). -/
  usn : BitVec 40
  /-- Pairs emitted and not yet received. -/
  updq : List Pair
  /-- Copy positions (R295). -/
  copies : Vector CopyPos 8
  /-- Copy sequence counter. -/
  copySeq : BitVec 32
  /-- Balance in element-beats, in units of 2^-16 (R43). -/
  balance : Int
  /-- Strand slot on its core, 0 to 3 (R38). -/
  slot : Nat
  /-- Strand group of the gang (R29). -/
  group : Nat
  /-- CORE at the gang's first placement (R253). -/
  core0 : BitVec 10
  /-- Addresses of the BARAWs whose arrival has been counted and whose wait is still to come (R138). -/
  arrived : List Word
  /-- An element step is under way (R120). -/
  stepping : Bool
  /-- The instruction of an element step has executed (R120). -/
  stepDone : Bool
  /-- The next instruction waits (R38). -/
  stalled : Bool
  /-- The strand waits in a way that the watchdog does not count (R121). -/
  quiet : Bool
  /-- The model's mode: windowed instructions only enter the window, and events fire them. -/
  ahead : Bool
  /-- The number of the strip that the last VSTRIP has opened (R92). -/
  strip : Nat
  /-- A trap whose stop sequence is under way: admitted slices have still to complete (R114). -/
  stop : Option TrapInfo
  /-- A kill, with its reason, whose KILL report waits for admitted slices and copies (R103, R119). -/
  dying : Option Word
  /-- The strand waits in EXIT and executes nothing more (R141). -/
  leaving : Bool
  /-- What goes with the entries of the trap record, in window order. -/
  aside : List Aside
  /-- The same for the entries of the image that a pre-emption has written. -/
  away : List Aside
  /-- The trap record that a pre-emption at supervisor level has set aside (R243). -/
  kept : Option Nat
  /-- Writes accepted and not yet performed, oldest first (R88, R193). -/
  late : List LateStore
  /-- The model's mode: the groups of vector stores are accepted now and perform later (R193). -/
  slow : Bool
  deriving DecidableEq, Repr

/-! ### Gang -/

/-- A barrier (R137). -/
structure Barrier where
  expect : Nat
  arrived : Nat
  sarr : Nat
  passed : Nat
  rel : Bool
  /-- Arrivals of copies that have completed and that the release holds (R137). -/
  held : Nat
  deriving DecidableEq, Repr

/-- An entry at a press segment or in a log: a partial or an accumulator (R254). -/
structure PressEntry where
  addr : Nat
  val : Word
  key : BitVec 58
  /-- Batch of an ORDERED region (R256). -/
  batch : Nat
  /-- Home press segment: package × 256 + die × 64 + channel (R15, R16). -/
  seg : Nat
  /-- The physical address of the 32 bytes of the region's log to which the entry has been moved, if it has. -/
  unit : Option Nat
  /-- A write to the log's extents may have changed the logged value (R254). -/
  spoiled : Bool
  deriving DecidableEq, Repr

/-- An open update region (R245, R249). -/
structure Region where
  base : Word
  length : Nat
  etype : BitVec 8
  oper : BitVec 8
  ordered : Bool
  /-- Scope: system, else package. -/
  sysScope : Bool
  /-- Package of the opening strand. -/
  pkg : BitVec 6
  /-- The leaf and page size (log2) that map each 64 KiB of the range, as URGN recorded them, lowest first. -/
  pages : List (Word × Nat)
  /-- Log extents: their virtual addresses and sizes in bytes. -/
  extents : List (Word × Nat)
  /-- The physical ranges that the extents occupy, as URGN recorded them: first byte and size. -/
  logs : List (Nat × Nat)
  /-- Which opening of a region this one is, over all of the package. -/
  serial : Nat
  flags : BitVec 5
  broken : Bool
  /-- The batch that receives new entries; lower ones are sealed. -/
  batch : Nat
  entries : List PressEntry
  deriving DecidableEq, Repr

/-- Parameters of a KERNEL packet (R313). -/
structure Params where
  ptroot : Word
  asid : BitVec 16
  code : Word
  entry : BitVec 32
  nstrand : Nat
  perCore : Nat
  grszCode : Nat
  gvlenCode : Nat
  weight : Nat
  place : Nat
  argbuf : Word
  argmask : BitVec 32
  wdog : Word
  compl : Word
  deriving DecidableEq, Repr

/-- A gang (R25, R27). -/
structure Gang where
  id : BitVec 32
  params : Params
  /-- Strands per core in effect, P of R27. -/
  perCore : Nat
  /-- GANGSIZE over every package. -/
  size : Nat
  /-- Number of the first strand on this package. -/
  first : Nat
  queue : Nat
  /-- The gang has strands on other packages. -/
  multi : Bool
  /-- Packages of the gang, as PKGMASK. -/
  pkgMask : Word
  /-- The GVLEN granted at launch, in bits. -/
  gvlen0 : Nat
  barrier : Barrier
  /-- Named barriers: for each strand group, 32 barriers. -/
  named : Sparse (Vector Barrier 32)
  regions : Vector (Option Region) 64
  /-- Identity of the code object: its first physical page. -/
  object : Nat
  /-- Placed now (resident); else switched out. -/
  placed : Bool
  /-- Tick of the latest placement (R31). -/
  placedAt : Word
  /-- Tick of the switch-out. -/
  outAt : Word
  /-- Order of switch-outs. -/
  outOrder : Nat
  /-- Queue for whose head the gang was switched out (R31). -/
  outFor : Option Nat
  /-- Die that the gang loads (R321). -/
  loading : Option Nat
  killed : Option (BitVec 64)
  /-- Placed in reduced service (R332). -/
  reduced : Bool
  /-- Commit tick of a multi-package gang (R324). -/
  commit : Option Word
  deriving DecidableEq, Repr

/-! ### Package -/

/-- A cached translation (R125). -/
structure TlbEntry where
  core : Nat
  asid : BitVec 16
  /-- The virtual page address, with the bits below the page size zero. -/
  va : Nat
  /-- log2 of the page size. -/
  bits : Nat
  /-- The leaf. -/
  pte : Word
  deriving DecidableEq, Repr

/-- The owner of a link tag (R95). -/
structure LinkTag where
  gang : BitVec 32
  strand : BitVec 32
  gen : BitVec 4
  deriving DecidableEq, Repr

/-- A page of the execute-permit map with the object it belongs to (R334). -/
structure Permit where
  page : Nat
  object : Nat
  deriving DecidableEq, Repr

/-- A key slot of the trust core (R333, R334): empty, or a P-384 public key, perhaps revoked. -/
inductive KeySlot where
  | empty
  | key (x y : Nat)
  | revoked (x y : Nat)
  deriving DecidableEq, Repr

/-- A per-core unit of the vector sequencer (R44): when it is free again, and the slot it admitted last. -/
structure UnitState where
  freeAt : Nat
  last : Nat
  deriving DecidableEq, Repr

/-- The four admission units of a core, with its count of lc. -/
structure CoreUnits where
  lc : Nat
  lanes : UnitState
  matrix : UnitState
  slalomU : UnitState
  vmu : UnitState
  /-- The front end's next turn is that of the core's first strand from this place on (R38). -/
  turn : Nat
  deriving DecidableEq, Repr

/-- A voltage and frequency island (R325 to R329). -/
structure Island where
  droop : BitVec 32
  fstep : Nat
  alc : Nat
  margin : BitVec 8
  /-- A droop since the last evaluation. -/
  fresh : Bool
  /-- Tick since which the island has been free of pressure, or of its last step if later. -/
  calmSince : Word
  deriving DecidableEq, Repr

/-- A die's weight store state (R304, R321). -/
structure Die where
  wsState : BitVec 2
  wsGen : BitVec 8
  /-- The loading gang has ended with a faulted copy into the store: SERVING is not entered (R305). -/
  wsFault : Bool
  deriving DecidableEq, Repr

/-- A cluster temperature monitor. -/
structure Ctemp where
  t : BitVec 12
  tmax : BitVec 12
  /-- T has been reported since TMAX was read last. -/
  seen : Bool
  deriving DecidableEq, Repr

/-- An error record (R325). -/
structure ErrRec where
  struct : BitVec 8
  die : BitVec 2
  core : BitVec 8
  uncorr : Bool
  line : BitVec 40
  deriving DecidableEq, Repr

/-- The management block (R325), outside islands and fence map. -/
structure Mgmt where
  pkg : BitVec 6
  hostpkg : BitVec 8
  linken : BitVec 16
  tsync : Bool
  phase : BitVec 3
  warm : Bool
  calmap : BitVec 32
  tlim : BitVec 8
  plim : BitVec 16
  ce : BitVec 16
  ue : BitVec 16
  errs : List ErrRec
  ctemp : Vector Ctemp 32
  pring : Vector (BitVec 16) 4
  /-- The fence map, bit c for core c. -/
  fence : BitVec 640
  /-- Package power in W, as the monitor last gave it. -/
  power : Nat
  /-- Host physical address at which the host has mapped the device memory range (R307, R310), if it has. -/
  hdm : Option Nat
  /-- The tick origin is set (R323). -/
  origin : Bool
  deriving DecidableEq, Repr

/-- What a queue holds at its head between the packet's reading and its step (R315). -/
inductive Head where
  /-- Nothing: the next packet is not yet read. -/
  | none
  /-- A KERNEL, not yet placed; whether its code object has been accepted, and the object's first page. -/
  | kernel (p : Params) (checked : Bool) (object : Nat)
  /-- A WAIT whose condition does not hold yet. -/
  | wait (addr value : Word) (cond : BitVec 64)
  /-- A SIGNAL that waits for earlier completion records. -/
  | signal (addr value : Word)
  /-- A WSLOAD and its KERNEL. -/
  | wsload (die : Nat) (p : Params) (checked : Bool) (object : Nat)
  /-- A GANGSYNC and its KERNEL; the cores reserved for its groups, when there were places; and, in the coordinator, the
  packages whose RESERVED it holds and whether a FAILED has come. -/
  | gangsync (mask commit tag : Word) (p : Params) (checked : Bool) (object : Nat) (places : Option (List Nat))
      (got : List (BitVec 6)) (failed : Bool)
  deriving DecidableEq, Repr

/-- A launch queue (R310). -/
structure Queue where
  base : BitVec 52
  log : Nat
  tail : BitVec 32
  prog : BitVec 32
  mirEn : Bool
  mirAddr : BitVec 61
  en : Bool
  prio : BitVec 2
  stopped : Bool
  swout : Bool
  errCode : BitVec 8
  errSlot : BitVec 32
  qkill : BitVec 32
  /-- Values in effect: those written while EN = 0, or taken up by the last QRESET. -/
  liveBase : BitVec 52
  liveLog : Nat
  liveMirEn : Bool
  liveMirAddr : BitVec 61
  /-- Shadow of TAIL, and PROG at the switch-out (R319). -/
  shadowTail : BitVec 32
  frozenProg : BitVec 32
  head : Head
  /-- Tick at which the head was read. -/
  headSince : Word
  /-- The head has waited 1,000,000 tk (R31). -/
  aged : Bool
  /-- PROG has changed since the mirror was written. -/
  mirDirty : Bool
  deriving DecidableEq, Repr

/-- What comes to pass next, besides the current strand's own execution: the model's input list. -/
inductive Turn where
  /-- An event of the part. -/
  | event (i : Instr)
  /-- A strand takes the focus, for the events that follow. -/
  | strand (gang id : BitVec 32)
  /-- The next turn is one of this core. -/
  | core (core : Nat)
  /-- A strand on another package arrives at the gang barrier. -/
  | remoteArrive (gang : BitVec 32)
  /-- A strand on another package waits at the gang barrier. -/
  | remoteWait (gang : BitVec 32)
  /-- The monitor of a cluster reports a temperature. -/
  | temperature (cluster : Nat) (t : BitVec 12)
  /-- The monitor of the package reports its power in W. -/
  | power (watts : Nat)
  /-- A die's process ring reports its frequency in MHz. -/
  | frequency (die : Nat) (mhz : BitVec 16)
  /-- The host maps the device memory range at an address, or unmaps it. -/
  | hostMap (base : Option Nat)
  /-- The host writes `n` bytes of its own memory. -/
  | hostStore (addr n value : Nat)
  /-- The trust core's provisioning interface sets a key slot. -/
  | provision (slot : Nat) (key : KeySlot)
  /-- The routing table gives a route to a package. -/
  | route (pkg : BitVec 6)
  /-- A home segment moves the standing entry with a key at an address of a region to the region's log (R254). -/
  | logMove (gang : BitVec 32) (handle addr : Nat) (key : BitVec 58)
  /-- A pair of a strand on another package arrives at its home segment on this one (R247, R254). -/
  | remotePair (gang : BitVec 32) (p : Pair)
  /-- A strand on another package opens a region of system scope, which takes its handle (R247, R249). -/
  | remoteOpen (gang : BitVec 32) (handle : Nat) (r : Region)
  /-- A strand on another package seals, flushes or closes a region of system scope (R259). -/
  | remoteSeal (gang : BitVec 32) (handle : Nat)
  | remoteFlush (gang : BitVec 32) (handle : Nat)
  | remoteClose (gang : BitVec 32) (handle : Nat)
  /-- A turn in which a scalar store goes out and performs later (R88). -/
  | late
  /-- A write that the strand in focus owes performs (R88). -/
  | perform (i : Nat)
  /-- From now on the groups of vector stores of the strand in focus perform later than they are accepted, or at once. -/
  | slow (on : Bool)
  /-- From now on the strand in focus fires its window by events, or in program order. -/
  | ahead (on : Bool)
  deriving DecidableEq, Repr

/-- The state of the machine. -/
structure State where
  /-- The strand in focus. -/
  cur : Strand
  /-- Every other strand of the package. -/
  others : List Strand
  gangs : List Gang
  /-- Device memory of every package, by physical address. -/
  mem : Sparse Byte
  /-- Host memory, by host physical address. -/
  hostMem : Sparse Byte
  /-- The weight stores: die × 2^30 + offset. -/
  ws : Sparse Byte
  /-- Poisoned 64-byte sectors of device memory. -/
  poison : Sparse Bool
  /-- Poisoned sectors of the weight stores. -/
  wsPoison : Sparse Bool
  /-- Link owner tags by 64-byte line. -/
  links : Sparse (Option LinkTag)
  /-- The package's counter of SC tickets. -/
  ticket : Nat
  tlb : List TlbEntry
  permits : List Permit
  keys : Vector KeySlot 8
  tick : Word
  mgmt : Mgmt
  islands : Sparse Island
  units : Sparse CoreUnits
  dies : Vector Die 4
  queues : Sparse Queue
  /-- Packages reachable over Flaral. -/
  routes : List (BitVec 6)
  /-- Links that are up: 0 to 15 the Flaral links, four a die; 16 to 21 the die bridges; 22 the CXL port. -/
  linksUp : BitVec 23
  /-- Queue served last (R31). -/
  served : Nat
  nextGang : BitVec 32
  outCount : Nat
  /-- Regions opened so far. -/
  regionNo : Nat
  /-- For each cluster the latest tick at which a strand stood there, when one has (R329). -/
  lastBusy : Sparse (Option Word)
  /-- The next turn is one of the first core with a strand from this one on. -/
  turn : Nat
  /-- What the host's last read returned. -/
  hostRead : Word
  agenda : List Turn
  /-- How many free values have been drawn. -/
  fresh : Nat
  deriving DecidableEq, Repr

/-- Reasons why the machine stops with a fault: there are none. What the spec calls a fault is a trap, a kill or an error
record, that is, a next state; a machine with nothing to run lets time pass. -/
inductive Fault where
  deriving DecidableEq, Repr

/-- Reasons why an instruction or an event has no meaning here. -/
inductive Refusal where
  /-- Raised by `exec` for a constructor whose meaning is not modelled. Safe: nothing is claimed about it. -/
  | notModelled (mnemonic : String)
  /-- Raised by an event whose own precondition in the spec does not hold: such an event does not come to pass. Safe:
  no step of the part is lost. -/
  | notEnabled (event : String)
  deriving DecidableEq, Repr

/-! ### Reset -/

/-- An unbound binding slot. -/
def Slot.unbound : Slot :=
  { base := 0, stride := 0, format := 0, mode := 0, reg := 0, status := 0, scaleBase := 0, length := 0, progress := 0,
    inflight := [], arrived := [], endSent := false }

/-- A copy position that no copy has held. -/
def CopyPos.none : CopyPos :=
  { ticket := 0, st := 0, side := false, poison := false, cause := 0, p := 0, faddr := 0, dst := 0, src := 0, ctl := 0,
    d := 0, die := 0 }

/-- A barrier as placement sets it (R137). -/
def Barrier.fresh (n : Nat) : Barrier := { expect := n, arrived := 0, sarr := 0, passed := 0, rel := false, held := 0 }

/-- The record of no strand: every field at the value that R56 and R106 give for reset or launch, else 0 (DESIGN CHOICE,
log 1). -/
def Strand.idle : Strand :=
  { phase := .absent, g := Vector.replicate 32 0, pc := 0, sup := false, v := Vector.replicate 32 0,
    m := Vector.replicate 8 0, t := Vector.replicate 4 0, k := Vector.replicate 8 Slot.unbound,
    cx := Vector.replicate 8 none, cb := Vector.replicate 8 0, slalom := 0, shadow := Vector.replicate 6 0,
    window := [], vl := 0, rl := 0, vtype := 0, gvlen := 0, grsz := 0, frm := 1, fflags := 0, repro := 0, mvl := 0,
    tetype := 0, tilesOn := false, tilesAllow := false, srseed := 0x2545F490, id := 0, gang := 0, gangSize := 0,
    core := 0, pkg := 0, cycle := 0, uivec := 0, uicause := 0, uiepc := 0, uiIn := false, enDone := false,
    enFault := false, enTrapu := false, pDone := 0, pFault := 0, cxldr := 0, tvec := 0, tcause := 0, tepc := 0, tval := 0,
    telem := 0, twin := 0, ptroot := 0, asid := 0, wdog := 0, estep := false, grantNext := 0, grantPend := false,
    wcount := 0, event := false, linkGen := 0, usn := 0, updq := [], copies := Vector.replicate 8 CopyPos.none,
    copySeq := 0, balance := 0, slot := 0, group := 0, core0 := 0, arrived := [], stepping := false, stepDone := false, stalled := false,
    quiet := false, ahead := false, strip := 0, stop := none, dying := none, leaving := false,
    aside := [], away := [],
    kept := none, late := [], slow := false }

/-- The management block after a cold start (R325). -/
def Mgmt.reset : Mgmt :=
  { pkg := 0, hostpkg := 0xFF, linken := 0, tsync := false, phase := 0, warm := false, calmap := 0, tlim := 95,
    plim := 2000, ce := 0, ue := 0, errs := [], ctemp := Vector.replicate 32 { t := 0, tmax := 0, seen := false },
    pring := Vector.replicate 4 0, fence := 0, power := 0, hdm := none, origin := false }

/-- A core's units, all free; the first admission goes to slot 0. -/
def CoreUnits.reset : CoreUnits :=
  let u : UnitState := { freeAt := 0, last := 3 }
  { lc := 0, lanes := u, matrix := u, slalomU := u, vmu := u, turn := 0 }

/-- A launch queue after a cold start (R310). -/
def Queue.reset : Queue :=
  { base := 0, log := 6, tail := 0, prog := 0, mirEn := false, mirAddr := 0, en := false, prio := 0, stopped := false,
    swout := false, errCode := 0, errSlot := 0, qkill := 0, liveBase := 0, liveLog := 6, liveMirEn := false,
    liveMirAddr := 0, shadowTail := 0, frozenProg := 0, head := .none, headSince := 0, aged := false, mirDirty := false }

/-- The machine right after a cold start: no strand, no gang, memory with nothing listed, and every register at the reset
value that R56, R106, R304, R310 and R325 state. -/
def State.reset : State :=
  { cur := Strand.idle, others := [], gangs := [], mem := [], hostMem := [], ws := [], poison := [], wsPoison := [],
    links := [], ticket := 0, tlb := [], permits := [], keys := Vector.replicate 8 .empty, tick := 0, mgmt := Mgmt.reset,
    islands := [], units := [], dies := Vector.replicate 4 { wsState := 0, wsGen := 0, wsFault := false }, queues := [],
    routes := [], linksUp := 0x7F0000, served := 63, nextGang := 1, outCount := 0, regionNo := 0, lastBusy := [],
    turn := 0, hostRead := 0, agenda := [], fresh := 0 }

end Sys2Proof.Machine
end

