-- ==== Sys2Proof/Machine/Memory.lean ====
section
/-! DEFINITION. Sparse maps, raw memory, link owner tags, poison, and the press: the entries it holds and how it applies
them when a line is accessed (R20, R95 to R97, R254 to R258). -/

namespace Sys2Proof.Machine

/-! ### Sparse maps -/

/-- The value at key `k`, or the default. -/
def Sparse.get (d : α) (m : Sparse α) (k : Nat) : α :=
  match m with
  | [] => d
  | p :: r => if p.1 = k then p.2 else Sparse.get d r k

/-- Set the value at key `k`, keeping the canonical form. -/
def Sparse.put [DecidableEq α] (d : α) (m : Sparse α) (k : Nat) (x : α) : Sparse α :=
  match m with
  | [] => if x = d then [] else [(k, x)]
  | p :: r =>
    if p.1 < k then p :: Sparse.put d r k x
    else if p.1 = k then (if x = d then r else (k, x) :: r)
    else if x = d then p :: r else (k, x) :: p :: r

/-- Keys above `lo` in strictly rising order and no entry equal to the default. -/
def Sparse.wfFrom [DecidableEq α] (d : α) (lo : Nat) (m : Sparse α) : Bool :=
  match m with
  | [] => true
  | p :: r => decide (lo ≤ p.1) && decide (p.2 ≠ d) && Sparse.wfFrom d (p.1 + 1) r

/-- The canonical form. -/
def Sparse.wf [DecidableEq α] (d : α) (m : Sparse α) : Bool := Sparse.wfFrom d 0 m

/-! ### Raw bytes -/

/-- The byte that device memory holds at a physical address; an unlisted byte reads 0 (DESIGN CHOICE, log 2). -/
def State.byte (s : State) (pa : Nat) : Byte := Sparse.get 0 s.mem pa
/-- Host memory, likewise. -/
def State.hostByte (s : State) (a : Nat) : Byte := Sparse.get 0 s.hostMem a
/-- The weight stores, likewise: address die × 2^30 + offset. -/
def State.wsByte (s : State) (a : Nat) : Byte := Sparse.get 0 s.ws a

def State.setByte (s : State) (pa : Nat) (b : Byte) : State := { s with mem := Sparse.put 0 s.mem pa b }
def State.setHostByte (s : State) (a : Nat) (b : Byte) : State := { s with hostMem := Sparse.put 0 s.hostMem a b }
def State.setWsByte (s : State) (a : Nat) (b : Byte) : State := { s with ws := Sparse.put 0 s.ws a b }

/-- Little-endian value of `n` bytes given by `f` from address `a` (R1). -/
def leBytes (f : Nat → Byte) (a : Nat) : Nat → Nat
  | 0 => 0
  | n + 1 => (f a).toNat + 256 * leBytes f (a + 1) n

/-- `n` bytes of device memory, little-endian. -/
def State.rawRead (s : State) (pa n : Nat) : Nat := leBytes s.byte pa n
def State.hostRawRead (s : State) (a n : Nat) : Nat := leBytes s.hostByte a n

/-- Write the low `n` bytes of `x`, little-endian. -/
def State.rawWrite (s : State) (pa : Nat) : Nat → Nat → State
  | 0, _ => s
  | n + 1, x => ((s.setByte pa (BitVec.ofNat 8 x)).rawWrite (pa + 1) n (x / 256))

def State.hostRawWrite (s : State) (a : Nat) : Nat → Nat → State
  | 0, _ => s
  | n + 1, x => ((s.setHostByte a (BitVec.ofNat 8 x)).hostRawWrite (a + 1) n (x / 256))

/-- The low `n` bytes of `x` from address `a` on, as many as it needs; the bytes there are already zero. -/
def Sparse.poke (m : Sparse Byte) (a : Nat) : Nat → Nat → Sparse Byte
  | 0, _ => m
  | n + 1, x => if x = 0 then m else Sparse.poke (Sparse.put 0 m a (BitVec.ofNat 8 x)) (a + 1) n (x / 256)

/-- A block of `len` bytes that is zero but for some fields: offset and value each. -/
def Sparse.block (m : Sparse Byte) (base len : Nat) (fields : List (Nat × Nat)) : Sparse Byte :=
  fields.foldl (fun m f => Sparse.poke m (base + f.1) len f.2)
    (m.filter fun p => decide (p.1 < base) || decide (base + len ≤ p.1))

/-- Memory in its canonical form. -/
def Memory.wf (s : State) : Bool := Sparse.wf 0 s.mem && Sparse.wf 0 s.hostMem && Sparse.wf 0 s.ws

/-! ### Poison (R20) -/

def State.poisoned (s : State) (pa : Nat) : Bool := Sparse.get false s.poison (pa / 64)

/-- The poisoned mark after a write of `n` bytes at `pa` within one sector: a write of the whole sector clears it. -/
def State.unpoison (s : State) (pa n : Nat) : State :=
  if n ≥ 64 ∧ pa % 64 = 0 then { s with poison := Sparse.put false s.poison (pa / 64) false } else s

/-! ### Link owner tags (R95 to R97) -/

/-- The tag of a line. -/
def State.tag (s : State) (line : Nat) : Option LinkTag := Sparse.get none s.links line
def State.setTag (s : State) (line : Nat) (t : Option LinkTag) : State :=
  { s with links := Sparse.put none s.links line t }

/-- Who makes a memory access: a strand, or another agent. -/
inductive Agent where
  | strand (gang id : BitVec 32)
  | other
  deriving DecidableEq, Repr

/-- A write by `ag` to a line clears another agent's tag and leaves the owner's (R97). -/
def State.clearTag (s : State) (ag : Agent) (line : Nat) : State :=
  match s.tag line with
  | none => s
  | some t =>
    match ag with
    | .strand g i => if t.gang == g && t.strand == i then s else s.setTag line none
    | .other => s.setTag line none

/-! ### The press (R246, R254 to R258) -/

/-- Two values combined under a region's operator (R246), with the flags of the rounding. -/
def combine (oper etype : Nat) (rm : Rm) (x y : Nat) : Res :=
  let w := sewOf etype
  match oper with
  | 0 => if isInt etype then ⟨(x + y) % 2 ^ w, 0⟩ else fpAdd (fmtOf etype) rm x y
  | 1 => if isInt etype then ⟨if intVal etype y < intVal etype x then y else x, 0⟩ else fpMinMax (fmtOf etype) false x y
  | 2 => if isInt etype then ⟨if intVal etype x < intVal etype y then y else x, 0⟩ else fpMinMax (fmtOf etype) true x y
  | 3 => ⟨x &&& y, 0⟩
  | 4 => ⟨x ||| y, 0⟩
  | 5 => ⟨x ^^^ y, 0⟩
  | _ => ⟨y, 0⟩

/-- Remove the element at an index from a list, giving it and the rest. -/
def takeAt (x : α) (l : List α) : Nat → α × List α
  | 0 => (x, l)
  | n + 1 =>
    match l with
    | [] => (x, l)
    | y :: r =>
      let (z, t) := takeAt y r n
      (z, x :: t)

/-- The values of a list combined in an order and bracketing that the part chooses (R254, R257); with one or two values
there is no choice. `fuel` counts the values. -/
def combineFree (oper etype : Nat) (n : Nat) (fl : Flags) : Nat → List Nat → Res
  | 0, l => ⟨l.headD 0, fl⟩
  | fuel + 1, l =>
    match l with
    | [] => ⟨0, fl⟩
    | [x] => ⟨x, fl⟩
    | [x, y] =>
      let r := combine oper etype .rne x y
      ⟨r.bits, fl ||| r.fl⟩
    | x :: r =>
      let (a, l1) := takeAt x r (Config.pick (n + 2 * fuel) % l.length)
      match l1 with
      | [] => ⟨a, fl⟩
      | y :: r1 =>
        let (b, l2) := takeAt y r1 (Config.pick (n + 2 * fuel + 1) % l1.length)
        let c := combine oper etype .rne a b
        combineFree oper etype n (fl ||| c.fl) fuel (c.bits :: l2)

/-- Partials in ascending origin key (R257). -/
def insertKey (e : PressEntry) : List PressEntry → List PressEntry
  | [] => [e]
  | x :: r => if e.key.toNat < x.key.toNat then e :: x :: r else x :: insertKey e r

def sortKey (l : List PressEntry) : List PressEntry := l.foldr insertKey []

/-- The partials of an ORDERED region in seal order and, within a batch, by ascending key. -/
def byBatch (l : List PressEntry) : Nat → List PressEntry
  | 0 => []
  | n + 1 => byBatch l n ++ sortKey (l.filter fun e => e.batch == n)

/-- Folding partials into a stored value, with one RNE rounding per step (R257). -/
def foldPartials (oper etype : Nat) (x : Nat) (fl : Flags) : List PressEntry → Res
  | [] => ⟨x, fl⟩
  | e :: r =>
    let c := combine oper etype .rne x e.val.toNat
    foldPartials oper etype c.bits (fl ||| c.fl) r

/-- The element size of a region. -/
def Region.size (r : Region) : Nat := sewOf r.etype.toNat / 8

/-- Entries of a region that are due at a line: all of an ARRIVAL region, those of sealed batches of an ORDERED one. -/
def Region.due (r : Region) (line : Nat) (e : PressEntry) : Bool :=
  e.addr / 64 == line && (!r.ordered || e.batch < r.batch)

/-- The value that the due entries of one address leave there (R257). -/
def Region.applied (r : Region) (fresh stored : Nat) (l : List PressEntry) : Res :=
  if r.ordered then foldPartials r.oper.toNat r.etype.toNat stored 0 (byBatch l r.batch)
  else if r.oper == 6#8 then
    match l with
    | [] => ⟨stored, 0⟩
    | [e] => ⟨e.val.toNat, 0⟩
    | e :: t => ⟨(takeAt e t (Config.pick fresh % l.length)).1.val.toNat, 0⟩
  else combineFree r.oper.toNat r.etype.toNat fresh 0 l.length (stored :: l.map fun e => e.val.toNat)

/-- The addresses of a list of entries, each once, lowest first. -/
def addrsOf : List PressEntry → List Nat
  | [] => []
  | e :: r =>
    let t := addrsOf r
    if t.contains e.addr then t else e.addr :: t

/-- An entry as its log gives it back: a logged entry that a program has overwritten holds some value of the region's etype
(R254, log 51). -/
def Region.recalled (r : Region) (fresh : Nat) (l : List PressEntry) : List PressEntry :=
  l.zipIdx.map fun x =>
    if x.1.spoiled then { x.1 with val := BitVec.ofNat 64 ((Config.lost (fresh + x.2)).toNat % 2 ^ (8 * r.size)) } else x.1

/-- Apply the due entries of one address: an indivisible write by another agent that clears a link tag (R257). -/
def applyAddr (s : State) (r : Region) (line a : Nat) : State × Region :=
  let l := r.recalled s.fresh (r.entries.filter fun e => r.due line e && e.addr == a)
  let x := r.applied s.fresh (s.rawRead a r.size) l
  ((({ s with fresh := s.fresh + 2 * l.length }).rawWrite a r.size x.bits).clearTag .other (a / 64),
   { r with flags := r.flags ||| x.fl, entries := r.entries.filter fun e => !(r.due line e && e.addr == a) })

def applyAddrs (r : Region) (line : Nat) (s : State) : List Nat → State × Region
  | [] => (s, r)
  | a :: t =>
    let (s1, r1) := applyAddr s r line a
    applyAddrs r1 line s1 t

/-- Apply what is due at a line of one region; an apply that reads a poisoned sector stops there and breaks the region
(R258). -/
def applyLine (s : State) (r : Region) (line : Nat) : State × Region :=
  let l := r.entries.filter (r.due line)
  if l.isEmpty then (s, r)
  else if s.poisoned (line * 64) then (s, { r with broken := true })
  else applyAddrs r line s (addrsOf l)

/-- Apply at a line for every region of a list of handles. -/
def applyRegions (line : Nat) (s : State) : List (Option Region) → State × List (Option Region)
  | [] => (s, [])
  | none :: t =>
    let (s1, l) := applyRegions line s t
    (s1, none :: l)
  | some r :: t =>
    let (s1, r1) := applyLine s r line
    let (s2, l) := applyRegions line s1 t
    (s2, some r1 :: l)

/-- A vector of 64 regions from a list of 64. -/
def toRegions (l : List (Option Region)) : Vector (Option Region) 64 := Vector.ofFn fun i => l.getD i.val none

def applyGangs (line : Nat) (s : State) : List Gang → State × List Gang
  | [] => (s, [])
  | g :: t =>
    let (s1, l) := applyRegions line s g.regions.toList
    let (s2, gs) := applyGangs line s1 t
    (s2, { g with regions := toRegions l } :: gs)

/-- Some open region has an entry due at the line. -/
def State.pressDue (s : State) (line : Nat) : Bool :=
  s.gangs.any fun g => g.regions.toList.any fun o =>
    match o with
    | none => false
    | some r => r.entries.any (r.due line)

/-- Before a home segment serves an access to a line, it applies what is due for that line (R257). -/
def State.pressTouch (s : State) (line : Nat) : State :=
  if s.pressDue line then
    let (s1, gs) := applyGangs line s s.gangs
    { s1 with gangs := gs }
  else s

end Sys2Proof.Machine
end

