-- ==== Sys2Proof/Machine/Translate.lean ====
section
/-! DEFINITION. Physical addresses (R14 to R16), address translation (R122 to R125), the execute-permit map (R334), and the
accesses of a strand to memory (R20, R97, R309). -/

namespace Sys2Proof.Machine

/-! ### Causes (R104) -/

def causeIllegal : BitVec 8 := 0x01
def causeBranch : BitVec 8 := 0x02
def causeFetch : BitVec 8 := 0x03
def causeLoadPage : BitVec 8 := 0x04
def causeStorePage : BitVec 8 := 0x05
def causeAccess : BitVec 8 := 0x06
def causeMisalign : BitVec 8 := 0x07
def causeType : BitVec 8 := 0x08
def causeShape : BitVec 8 := 0x09
def causeTileOff : BitVec 8 := 0x0A
def causeUnloaded : BitVec 8 := 0x0B
def causeImage : BitVec 8 := 0x0C
def causeMetadata : BitVec 8 := 0x0D
def causeSlalom : BitVec 8 := 0x0E
def causeUpdSpill : BitVec 8 := 0x0F
def causeUpdRegion : BitVec 8 := 0x10
def causeBind : BitVec 8 := 0x11
def causeRelay : BitVec 8 := 0x12
def causeWsBusy : BitVec 8 := 0x13
def causeTrapu : BitVec 8 := 0x14
def causeBrk : BitVec 8 := 0x15
def causeWatchdog : BitVec 8 := 0x16
def causeKill : BitVec 8 := 0x17
def causePriv : BitVec 8 := 0x18
def causeCopyDone : BitVec 8 := 0x19
def causeCopyFault : BitVec 8 := 0x1A

/-! ### Physical addresses -/

/-- The package field of a physical address. -/
def paPkg (pa : Nat) : Nat := pa / 2 ^ 40 % 64
def paDie (pa : Nat) : Nat := pa / 2 ^ 36 % 4
def paOffset (pa : Nat) : Nat := pa % 2 ^ 36

/-- The address lies in the populated range (R14). -/
def populated (pa : Nat) : Bool := pa / 2 ^ 38 % 4 == 0 && decide (paOffset pa < 0xC00000000) && decide (pa < 2 ^ 46)

/-- Where an access is served. -/
inductive Loc where
  /-- Device memory, of this or another package. -/
  | dev (pa : Nat)
  /-- Host memory over CXL (R309). -/
  | host (ha : Nat)
  deriving DecidableEq, Repr

/-- The place that serves a translated address, or none: ACCESS (R14, R309, R322). This package is the one whose number
PKGCFG holds now, not at a strand's launch (DESIGN CHOICE, log 53). -/
def State.locate (s : State) (pa : Nat) : Option Loc :=
  if !populated pa then none
  else if paPkg pa = s.mgmt.pkg.toNat then some (.dev pa)
  else if paPkg pa = s.mgmt.hostpkg.toNat then
    (if Config.hostOk (paOffset pa + 2 ^ 36 * paDie pa) then some (.host (paOffset pa + 2 ^ 36 * paDie pa)) else none)
  else if s.routes.any (fun p => p.toNat == paPkg pa) then some (.dev pa)
  else none

/-- The `n` bytes at a physical address, wherever their doubleword is served; an address that nothing serves reads as device
memory holds it (DESIGN CHOICE, log 52). -/
def State.physRead (s : State) (pa n : Nat) : Nat :=
  match s.locate (pa - pa % 8) with
  | some (.host a) => s.hostRawRead (a + pa % 8) n
  | _ => s.rawRead pa n

/-- An address is served by the host (R309). -/
def State.hostServes (s : State) (pa : Nat) : Bool :=
  match s.locate pa with
  | some (.host _) => true
  | _ => false

/-- Every piece of 8 bytes of an access is answered where it is served (R309). -/
def Loc.carried (l : Loc) (n : Nat) : Bool :=
  match l with
  | .dev _ => true
  | .host a => (List.range ((n + 7) / 8)).all fun i => Config.hostOk (a + 8 * i)

/-- The channel of an address within its die: 256-byte lines, or 4 KiB rows on ROWHOME pages (R15). -/
def channelOf (pa : Nat) (rowhome : Bool) : Nat := if rowhome then pa / 2 ^ 12 % 64 else pa / 2 ^ 8 % 64

/-- The home press segment of an address (R16). -/
def segOf (pa : Nat) (rowhome : Bool) : Nat := paPkg pa * 256 + paDie pa * 64 + channelOf pa rowhome

/-! ### Translation -/

/-- Kinds of access. -/
inductive Kind where
  | read | write | fetch
  deriving DecidableEq, Repr

/-- Bits [63:48] equal bit 47 (R122). -/
def canonical (va : Word) : Bool := va.extractLsb' 47 17 == 0#17 || va.extractLsb' 47 17 == 0x1FFFF#17

/-- One bit of a table entry. -/
def pteBit (e : Word) (i : Nat) : Bool := e.getLsbD i

/-- Outcome of a walk: a leaf with the log2 of its page size, an invalid entry, or another fault. -/
inductive Walk where
  | leaf (pte : Word) (bits : Nat)
  | invalid
  | access
  deriving DecidableEq, Repr

/-- The index field of a level (R122). -/
def walkIndex (va : Word) (level : Nat) : Nat :=
  match level with
  | 0 => va.toNat / 2 ^ 43 % 32
  | 1 => va.toNat / 2 ^ 34 % 512
  | 2 => va.toNat / 2 ^ 25 % 512
  | _ => va.toNat / 2 ^ 16 % 512

/-- log2 of the page size of a leaf at a level. -/
def leafBits (level : Nat) : Nat := if level = 1 then 34 else if level = 2 then 25 else 16

/-- A leaf whose fields R123 permits: no zero field set, page base aligned, not both ROWHOME and PKGIL. -/
def leafOk (e : Word) (bits : Nat) : Bool :=
  e.extractLsb' 8 4 == 0#4 && e.extractLsb' 46 18 == 0#18 && e.toNat % 2 ^ bits / 2 ^ 12 == 0 &&
  !(pteBit e 6 && pteBit e 7)

/-- A pointer whose fields R123 permits. -/
def pointerOk (e : Word) : Bool := e.extractLsb' 2 10 == 0#10 && e.extractLsb' 46 18 == 0#18

/-- The walk from the table at physical address `table`, `fuel` levels left (R122 to R124): a table lies where its address is
served, and one that nothing serves is a fault. It reads a table in a poisoned
sector as it stands: what the part does there is open (DESIGN CHOICE, log 52). -/
def walkFrom (s : State) (va : Word) : Nat → Nat → Walk
  | 0, _ => .access
  | fuel + 1, table =>
    let level := 3 - fuel
    let at_ := table + 8 * walkIndex va level
    if (s.locate at_).isNone then .access
    else
      let e : Word := BitVec.ofNat 64 (s.physRead at_ 8)
      if !pteBit e 0 then .invalid
      else if pteBit e 1 then
        if level = 0 then .access
        else if leafOk e (leafBits level) then .leaf e (leafBits level) else .access
      else if level = 3 then .access
      else if pointerOk e then walkFrom s va fuel (e.toNat % 2 ^ 46 / 2 ^ 12 * 2 ^ 12)
      else .access

/-- The walk through the four levels from a level-0 table. -/
def walk (s : State) (root : BitVec 34) (va : Word) : Walk := walkFrom s va 4 (root.toNat * 4096)

/-- The physical address that a leaf gives a virtual address, with the package-wide interleave (R123). -/
def leafAddr (pte : Word) (bits : Nat) (va : Word) : Nat :=
  let pa := pte.toNat % 2 ^ 46 / 2 ^ bits * 2 ^ bits + va.toNat % 2 ^ bits
  if pteBit pte 7 then
    let home := pa / 2 ^ 14 % 4
    let die := paDie pa
    pa / 2 ^ 38 * 2 ^ 38 + home * 2 ^ 36 + (pa % 2 ^ 36 / 2 ^ 16 * 2 ^ 16 + die * 2 ^ 14 + pa % 2 ^ 14)
  else pa

/-- A cached translation of the strand's core and address space (R125). -/
def State.tlbHit (s : State) (st : Strand) (va : Word) : Option TlbEntry :=
  s.tlb.find? fun t => t.core == st.core.toNat && t.asid == st.asid && va.toNat % 2 ^ 48 / 2 ^ t.bits * 2 ^ t.bits == t.va

/-- The leaf that translates an address for a strand: from the buffer, or by a walk. -/
def State.leafFor (s : State) (st : Strand) (va : Word) : Walk :=
  match s.tlbHit st va with
  | some t => .leaf t.pte t.bits
  | none => walk s st.ptroot va

/-- The cause that a fault of a walk reports (R124); every fault of a fetch is FETCH_FAULT. -/
def walkCause (k : Kind) (invalid : Bool) : BitVec 8 :=
  match k with
  | .fetch => causeFetch
  | .read => if invalid then causeLoadPage else causeAccess
  | .write => if invalid then causeStorePage else causeAccess

/-- The permission bit that an access needs (R123). -/
def mayAccess (k : Kind) (sup : Bool) (pte : Word) : Bool :=
  (match k with
   | .read => pteBit pte 2
   | .write => pteBit pte 3
   | .fetch => pteBit pte 4) && (sup || pteBit pte 5)

/-- The page lies in the execute-permit map (R334). -/
def State.permitted (s : State) (pa : Nat) : Bool := s.permits.any fun p => p.page == pa / 2 ^ 16

/-- Translation of a virtual address: the place that serves it, or the cause of the trap. The leaf's ROWHOME bit comes
with it. -/
def State.translate (s : State) (st : Strand) (va : Word) (k : Kind) : Except (BitVec 8) (Loc × Bool) :=
  if !canonical va then .error (walkCause k false)
  else
    match s.leafFor st va with
    | .invalid => .error (walkCause k true)
    | .access => .error (walkCause k false)
    | .leaf pte bits =>
      if !mayAccess k st.sup pte then .error (walkCause k false)
      else
        let pa := leafAddr pte bits va
        match s.locate pa with
        | none => .error (walkCause k false)
        | some l =>
          match k with
          | .read => .ok (l, pteBit pte 6)
          | .fetch => if s.permitted pa then .ok (l, pteBit pte 6) else .error causeFetch
          | .write => if s.permitted pa then .error causeAccess else .ok (l, pteBit pte 6)

/-! ### Accesses at a place -/

/-- Outcome of an access. -/
inductive Acc (α : Type) where
  | ok (s : State) (x : α)
  /-- A trap with its cause and TVAL. -/
  | trap (cause : BitVec 8) (tval : Word)
  /-- The gang is killed for this reason (R20); the press has applied what it applied before (R258). -/
  | kill (s : State) (reason : Word)
  deriving Repr

/-- Read `n` bytes at a place: the press applies what is due, and a poisoned sector kills (R20, R257). Every read sees memory
as it is: the model has no stream buffer (DESIGN CHOICE, log 54). -/
def State.readLoc (s : State) (l : Loc) (n : Nat) : Acc Nat :=
  match l with
  | .host a => .ok s (s.hostRawRead a n)
  | .dev pa =>
    let s1 := s.pressTouch (pa / 64)
    if s1.poisoned pa then .kill s1 2 else .ok s1 (s1.rawRead pa n)

/-- A region's log occupies one of the `n` bytes at `pa`. -/
def Region.logHolds (r : Region) (pa n : Nat) : Bool := r.logs.any fun x => decide (x.1 < pa + n) && decide (pa < x.1 + x.2)

/-- The entry's 32 bytes of the log hold one of the `n` bytes at `pa`. -/
def PressEntry.liesIn (e : PressEntry) (pa n : Nat) : Bool :=
  match e.unit with
  | some u => decide (u < pa + n) && decide (pa < u + 32)
  | none => false

/-- The region after a write to its log: the entries that lie there are overwritten, and no other (R254). -/
def Region.spoil (pa n : Nat) (r : Region) : Region :=
  if r.logHolds pa n then { r with entries := r.entries.map fun e => { e with spoiled := e.spoiled || e.liesIn pa n } } else r

/-- A write reaches the log of an open region. -/
def State.spoilLogs (s : State) (pa n : Nat) : State :=
  if s.gangs.any fun g => g.regions.toList.any fun o => o.any fun r => r.logHolds pa n then
    { s with gangs := s.gangs.map fun g => { g with regions := g.regions.map fun o => o.map (Region.spoil pa n) } }
  else s

/-- Write `n` bytes of one line at a place, by `ag`. -/
def State.writeLoc (s : State) (ag : Agent) (l : Loc) (n x : Nat) : State :=
  match l with
  | .host a => s.hostRawWrite a n x
  | .dev pa => ((((s.pressTouch (pa / 64)).spoilLogs pa n).rawWrite pa n x).unpoison pa n).clearTag ag (pa / 64)

/-- The home segment of a place applies what is due before it serves a conditional store, whose tag test follows the
apply (R97, R257). -/
def State.touchLoc (s : State) (l : Loc) : State :=
  match l with
  | .host _ => s
  | .dev pa => s.pressTouch (pa / 64)

/-- The strand as the agent of its own accesses. -/
def Strand.agent (st : Strand) : Agent := .strand st.gang st.id

/-- The place of a naturally aligned access of the strand in focus: MISALIGN comes before translation (R124). One of more than
8 bytes to host memory is made in pieces of 8 (R309, log 61). -/
def State.place (s : State) (va : Word) (n : Nat) (k : Kind) : Except (BitVec 8) Loc :=
  if va.toNat % n ≠ 0 then .error causeMisalign
  else
    match s.translate s.cur va k with
    | .error c => .error c
    | .ok (l, _) => if l.carried n then .ok l else .error causeAccess

/-- A load of `n` bytes by the strand in focus. -/
def State.load (s : State) (va : Word) (n : Nat) : Acc Nat :=
  match s.place va n .read with
  | .error c => .trap c va
  | .ok l => s.readLoc l n

/-- A store of the low `n` bytes of `x` by the strand in focus. -/
def State.store (s : State) (va : Word) (n x : Nat) : Acc Unit :=
  match s.place va n .write with
  | .error c => .trap c va
  | .ok l => .ok (s.writeLoc s.cur.agent l n x) ()

/-- The link tag of a linked load: the strand and its current generation (R95). -/
def Strand.linkTag (st : Strand) : LinkTag := { gang := st.gang, strand := st.id, gen := st.linkGen }

/-- A linked load: sets the line's tag when its read is served (R95). Host lines hold no tag. -/
def State.loadLinked (s : State) (va : Word) (n : Nat) : Acc Nat :=
  match s.place va n .read with
  | .error c => .trap c va
  | .ok l =>
    match s.readLoc l n with
    | .ok s1 x =>
      match l with
      | .dev pa => .ok (s1.setTag (pa / 64) (some s.cur.linkTag)) x
      | .host _ => .ok s1 x
    | .trap c t => .trap c t
    | .kill s1 r => .kill s1 r

/-- A place's line holds the tag of the strand in focus at its current generation (R96). -/
def State.tagMatches (s : State) (l : Loc) : Bool :=
  match l with
  | .dev pa => s.tag (pa / 64) == some s.cur.linkTag
  | .host _ => false

end Sys2Proof.Machine
end

