-- ==== Sys2Proof/Machine/Press.lean ====
section
/-! DEFINITION. Update streams: origin keys, receipt of pairs, seals, and the closing of regions (R251 to R260). -/

namespace Sys2Proof.Machine

/-! ### Gangs in the state -/

/-- The gang with an identifier. -/
def State.gangOf (s : State) (id : BitVec 32) : Option Gang := s.gangs.find? fun g => g.id == id

/-- Change the gang with an identifier. -/
def State.updGang (s : State) (id : BitVec 32) (f : Gang → Gang) : State :=
  { s with gangs := s.gangs.map fun g => if g.id == id then f g else g }

/-- An open region of a gang. -/
def State.region (s : State) (gang : BitVec 32) (h : Nat) : Option Region :=
  match s.gangOf gang with
  | none => none
  | some g => if h < 64 then g.regions.toList.getD h none else none

/-- Replace a region of a gang. -/
def State.setRegion (s : State) (gang : BitVec 32) (h : Nat) (r : Option Region) : State :=
  s.updGang gang fun g => { g with regions := toRegions (g.regions.toList.set h r) }

/-! ### Pairs -/

/-- The origin key of a UPD with sequence number `usn` (R253). -/
def originKey (st : Strand) (perCore : Nat) (usn : BitVec 40) : BitVec 58 :=
  let die := st.core0.toNat / 160
  (st.pkg ++ BitVec.ofNat 2 die ++ BitVec.ofNat 8 (st.core0.toNat - 160 * die) ++
    BitVec.ofNat 2 (st.id.toNat % perCore) ++ usn : BitVec 58)

/-- Entries that a press segment holds itself, over all regions (R254). -/
def State.segCount (s : State) (seg : Nat) : Nat :=
  (s.gangs.map fun g => (g.regions.toList.map fun o =>
    match o with
    | none => 0
    | some r => (r.entries.filter fun e => e.seg == seg && e.unit.isNone).length).sum).sum

/-- Log entries for which a region has space: 32 bytes each (R254). -/
def Region.logSpace (r : Region) : Nat :=
  (r.extents.map fun x => x.2 / 32).sum - (r.entries.filter fun e => e.unit.isSome).length

/-- The physical address of unit `i` of a log that lies in some physical ranges. -/
def unitIn (i : Nat) : List (Nat × Nat) → Option Nat
  | [] => none
  | x :: t => if i < x.2 / 32 then some (x.1 + 32 * i) else unitIn (i - x.2 / 32) t

/-- The first unit from number `i` on, round the log of `n` units, that no entry occupies; `k` are tried. -/
def Region.freeUnit (r : Region) (n i : Nat) : Nat → Option Nat
  | 0 => none
  | k + 1 =>
    match unitIn (i % n) r.logs with
    | some u => if r.entries.any fun e => e.unit == some u then r.freeUnit n (i + 1) k else some u
    | none => none

/-- The unit of the log that takes the entry of an address and key (R254). -/
def Region.logUnit (r : Region) (addr key : Nat) : Option Nat :=
  r.freeUnit (r.extents.map fun x => x.2 / 32).sum (Config.logUnit addr key) (r.entries.length + 1)

/-- Pairs whose entry absorbs the pair: the segment's own accumulator or partial of the address (R254). -/
def Region.absorbs (r : Region) (p : Pair) (e : PressEntry) : Bool :=
  e.addr == p.addr && e.unit.isNone && e.batch == r.batch &&
  !(r.ordered && r.oper == 0#8 && isFp r.etype.toNat)

/-- A pair combined into an entry (R254): LAST keeps the pair of the higher key in an ORDERED region, the later pair in an
ARRIVAL region. -/
def Region.absorb (r : Region) (p : Pair) (e : PressEntry) : PressEntry × Flags :=
  if r.oper == 6#8 then
    if r.ordered && decide (p.key.toNat < e.key.toNat) then (e, 0)
    else ({ e with val := p.val, key := p.key }, 0)
  else
    let c := combine r.oper.toNat r.etype.toNat .rne e.val.toNat p.val.toNat
    ({ e with val := BitVec.ofNat 64 c.bits }, c.fl)

/-- Outcome of the arrival of a pair at its home segment. -/
inductive Received where
  | taken (r : Region)
  /-- Refused, with the cause its UPD reports (R255, R259). -/
  | refused (cause : BitVec 8)

/-- A region receives a pair; `count` is the number of entries its segment holds (R254, R255). A new entry goes to the log
when the segment is full; the events that move a standing entry there are inputs (DESIGN CHOICE, log 51). -/
def Region.receive (r : Region) (p : Pair) (count : Nat) : Received :=
  if r.entries.any (r.absorbs p) then
    let fl := ((r.entries.filter (r.absorbs p)).map fun e => (r.absorb p e).2).foldl (· ||| ·) 0
    .taken { r with entries := r.entries.map fun e => if r.absorbs p e then (r.absorb p e).1 else e,
                    flags := r.flags ||| fl }
  else if count < 65536 ∨ r.logSpace > 0 then
    .taken { r with entries := r.entries ++
      [{ addr := p.addr, val := p.val, key := p.key, batch := r.batch, seg := p.seg,
         unit := if count < 65536 then none else r.logUnit p.addr p.key.toNat, spoiled := false }] }
  else .refused causeUpdSpill

/-- The package that holds an address is reachable (R322). -/
def State.reachable (s : State) (pa : Nat) : Bool :=
  paPkg pa == s.mgmt.pkg.toNat || s.routes.any fun p => p.toNat == paPkg pa

/-- The home segment of a pair of `gang` receives it, or refuses it with a cause: a pair that was formed for an earlier
region of the handle finds its own region closed (R259). -/
def State.receivePair (s : State) (gang : BitVec 32) (p : Pair) : Except (BitVec 8) State :=
  match s.region gang p.handle with
  | none => .error causeUpdRegion
  | some r =>
    if r.serial ≠ p.serial ∨ !s.reachable p.addr then .error causeUpdRegion
    else
      match r.receive p (s.segCount p.seg) with
      | .taken r1 => .ok (s.setRegion gang p.handle (some r1))
      | .refused c => .error c

/-- All pairs of a list are received; refused ones are dropped unreceived (R114, R255). -/
def State.receiveAll (s : State) (gang : BitVec 32) : List Pair → State
  | [] => s
  | p :: r =>
    match s.receivePair gang p with
    | .ok s1 => s1.receiveAll gang r
    | .error _ => s.receiveAll gang r

/-- A home segment moves a standing entry to its region's log, which has space for it (R254). -/
def Region.moveToLog (r : Region) (addr : Nat) (key : BitVec 58) : Region :=
  if r.logSpace = 0 || r.entries.any fun e => e.addr == addr && e.key == key && e.unit.isSome then r
  else { r with entries := r.entries.map fun e => if e.addr == addr && e.key == key then { e with unit := r.logUnit addr key.toNat } else e }

/-! ### Seals and applies of a whole region -/

/-- Apply due entries at each line of a list, for one region. -/
def applyAll (s : State) (r : Region) : List Nat → State × Region
  | [] => (s, r)
  | l :: t =>
    let (s1, r1) := applyLine s r l
    applyAll s1 r1 t

/-- The lines that hold entries of a region, each once. -/
def Region.lines (r : Region) : List Nat := ((addrsOf r.entries).map fun a => a / 64).eraseDups

/-- A seal closes the current batch of an ORDERED region (R256). -/
def Region.seal (r : Region) : Region := if r.ordered then { r with batch := r.batch + 1 } else r

/-- Apply every due entry of region `h` (R259); `sealFirst` for UFLUSH and UCLOSE. -/
def State.applyRegion (s : State) (gang : BitVec 32) (h : Nat) (sealFirst : Bool) : State :=
  match s.region gang h with
  | none => s
  | some r =>
    let r0 := if sealFirst then r.seal else r
    let (s1, r1) := applyAll s r0 r0.lines
    s1.setRegion gang h (some r1)

/-- Close region `h` as UCLOSE does, or without a seal as a kill does (R259, R260); entries left over are discarded. -/
def State.closeRegion (s : State) (gang : BitVec 32) (sealFirst : Bool) (h : Nat) : State :=
  (s.applyRegion gang h sealFirst).setRegion gang h none

/-- The word that UCLOSE writes: the region's flags and BROKEN. -/
def Region.word (r : Region) : Word := BitVec.ofNat 64 (r.flags.toNat + if r.broken then 256 else 0)

/-- Close every open region of a gang (R260). -/
def State.closeRegions (s : State) (gang : BitVec 32) (sealFirst : Bool) : State :=
  (List.range 64).foldl (fun s h => s.closeRegion gang sealFirst h) s

end Sys2Proof.Machine
end

