-- ==== Sys2Proof/Machine/Ops.lean ====
section
/-! DEFINITION. The named operations: registers, waiting, barriers, taking an exception and returning from one, killing. -/

namespace Sys2Proof.Machine

/-- The outcome of a step of this machine. -/
abbrev Out := Host.Outcome State Fault Refusal

/-! ### The strand in focus -/

/-- Change the strand in focus. -/
def State.upd (s : State) (f : Strand → Strand) : State := { s with cur := f s.cur }

/-- A g register; g0 reads as zero (R48). -/
def Strand.rg (st : Strand) (x : BitVec 5) : Word := if x == 0#5 then 0 else st.g.toList.getD x.toNat 0

/-- Write a g register; writes to g0 are discarded (R48). -/
def Strand.wg (st : Strand) (x : BitVec 5) (w : Word) : Strand :=
  if x == 0#5 then st else { st with g := st.g.set x.toNat w x.isLt }

/-- A g register of the strand in focus. -/
def State.rg (s : State) (x : BitVec 5) : Word := s.cur.rg x
def State.wg (s : State) (x : BitVec 5) (w : Word) : State := s.upd fun st => st.wg x w

/-- A g register is pending: a window entry has still to write it (R40). g0 never is. -/
def Strand.pending (st : Strand) (x : BitVec 5) : Bool :=
  x != 0#5 && st.window.any fun e => e.gpend == some x

/-- An instruction completes: the next word (R70), and the watchdog count restarts (R121). -/
def Strand.advance (st : Strand) : Strand := { st with pc := st.pc + 4, wcount := 0, quiet := false }
def State.advance (s : State) : State := s.upd Strand.advance

/-- The instruction at PC waits: nothing changes but the mark (R38). `quiet` waits are not counted by the watchdog. -/
def State.stall (s : State) (quiet : Bool) : State := s.upd fun st => { st with stalled := true, quiet := quiet }

/-- An instruction completes and the pc goes to `t`. -/
def State.goto (s : State) (t : Word) : State := s.upd fun st => { st with pc := t, wcount := 0, quiet := false }

/-- Wait until none of the registers is pending, then go on (R40, R126). -/
def awaitG (rs : List (BitVec 5)) (s : State) (k : Out) : Out :=
  if rs.any s.cur.pending then .next (s.stall false) else k

/-- Number of elements N = RL × VL of a strand. -/
def Strand.nElems (st : Strand) : Nat := st.rl.toNat * st.vl.toNat

/-- Every strand of the package: the one in focus first. -/
def State.strands (s : State) : List Strand := s.cur :: s.others

/-- Change the strands that satisfy a condition. -/
def State.mapStrands (s : State) (p : Strand → Bool) (f : Strand → Strand) : State :=
  { s with cur := if p s.cur then f s.cur else s.cur, others := s.others.map fun st => if p st then f st else st }

/-- An island at full clock with every lane (R325). -/
def Island.reset : Island := { droop := 0, fstep := 8, alc := 32, margin := 0, fresh := false, calmSince := 0 }

/-- An island (R326). -/
def State.island (s : State) (i : Nat) : Island := Sparse.get Island.reset s.islands i

/-- ALC of a core: that of its lane island 3c + 1 (R45, R326). -/
def State.alcOf (s : State) (core : Nat) : Nat := (s.island (3 * core + 1)).alc

/-- DIE of a core number (R9). -/
def coreDie (c : Nat) : Nat := c / 160

/-- WSSTATE of a die (R304). -/
def State.wsStateWord (s : State) (die : Nat) : Word :=
  match s.dies.toList[die]? with
  | some d => BitVec.ofNat 64 (d.wsState.toNat + d.wsGen.toNat * 2 ^ 8)
  | none => 0

/-! ### State words (R56, R106, R115) -/

/-- UIMASK as a word. -/
def Strand.uimask (st : Strand) : Word :=
  BitVec.ofNat 64 ((if st.uiIn then 1 else 0) + (if st.enDone then 2 else 0) + (if st.enFault then 4 else 0) +
    (if st.enTrapu then 8 else 0) + st.pDone.toNat * 2 ^ 8 + st.pFault.toNat * 2 ^ 16)

/-- MVL as a word. -/
def Strand.mvlWord (st : Strand) : Word := BitVec.ofNat 64 (st.mvl.toNat + st.tetype.toNat * 256)
/-- MSTATE as a word. -/
def Strand.mstateWord (st : Strand) : Word :=
  BitVec.ofNat 64 ((if st.tilesOn then 1 else 0) + if st.tilesAllow then 2 else 0)
/-- GRANTNEXT as a word. -/
def Strand.grantWord (st : Strand) : Word :=
  BitVec.ofNat 64 (st.grantNext.toNat + if st.grantPend then 2 ^ 31 else 0)

/-- The sixteen state words at image offset 0x180 (R115). -/
def Strand.stateWords (st : Strand) : List Word :=
  [st.vl.setWidth 64, st.rl.setWidth 64, st.vtype.setWidth 64, st.frm.setWidth 64, st.fflags.setWidth 64,
   st.repro.setWidth 64, st.mvlWord, st.mstateWord, st.srseed.setWidth 64, st.uivec.setWidth 64 <<< 6,
   st.uicause.setWidth 64, st.uiepc, st.uimask, st.cxldr.setWidth 64 <<< 6, st.grantWord, 0]

/-- The value that FRM stores for a written field (R56, R142). -/
def frmStored (x : BitVec 3) : BitVec 3 := if x == 0#3 || decide (5 ≤ x.toNat) then 1 else x
/-- The value that SRSEED stores. -/
def seedStored (x : BitVec 32) : BitVec 32 := if x == 0#32 then 1 else x

/-! ### Window records (R64) -/

/-- The 96-byte record of an entry, little-endian. -/
def Entry.record (e : Entry) : Nat :=
  e.word.toNat + (1 + if e.tailDone then 2 else 0) * 2 ^ 32 + e.vl.toNat * 2 ^ 64 + e.rl.toNat * 2 ^ 96 +
  e.vtype.toNat * 2 ^ 112 + e.opb.toNat * 2 ^ 128 + e.opc.toNat * 2 ^ 192 + e.opd.toNat * 2 ^ 256 +
  e.pidx * 2 ^ 320 + e.ngrp * 2 ^ 352 +
  (e.frm.toNat + (if e.repro then 8 else 0) + e.mvl.toNat * 16 + e.tet.toNat * 2 ^ 12) * 2 ^ 384 +
  e.opa.toNat * 2 ^ 448 + e.done.toNat * 2 ^ 512

/-- The g register that the entry of an instruction writes through the return queue (R40). -/
def gDest (i : Instr) : Option (BitVec 5) :=
  match i with
  | .mpopc a _ | .mfirst a _ | .vextr a _ _ _ | .vtagq a _ | .vwaitr a _ _ | .vprog a _ => some a
  | .vnz _ _ c _ => some c
  | .vbpos a _ => some a
  | .spend a => some a
  | .acopy a _ _ => some a
  | _ => none

/-- What goes with an entry beside its record. -/
def Entry.aside (e : Entry) : Aside :=
  { fires := e.fires, olds := e.olds, strip := e.strip, gvlen := e.gvlen, image := e.image, sample := e.sample }

/-- An entry with what went with it. -/
def Entry.withAside (e : Entry) (x : Aside) : Entry :=
  { e with fires := x.fires, olds := x.olds, strip := x.strip, gvlen := x.gvlen, image := x.image, sample := x.sample }

/-- The entry of a record and its partial map, when the record is valid and its word can stand in the window. -/
def entryOf (x part : Nat) : Option Entry :=
  if x / 2 ^ 32 % 2 = 0 then none
  else
    match decodeWindow (BitVec.ofNat 32 x) with
    | .bad _ => none
    | .ok i =>
      let ngrp := x / 2 ^ 352 % 2 ^ 32
      let pidx := x / 2 ^ 320 % 2 ^ 32
      some { word := BitVec.ofNat 32 x, ins := i, gpend := if x / 2 ^ 33 % 2 = 1 then none else gDest i,
             tailDone := x / 2 ^ 33 % 2 == 1, vl := BitVec.ofNat 32 (x / 2 ^ 64), rl := BitVec.ofNat 16 (x / 2 ^ 96),
             vtype := BitVec.ofNat 16 (x / 2 ^ 112), opb := BitVec.ofNat 64 (x / 2 ^ 128),
             opc := BitVec.ofNat 64 (x / 2 ^ 192), opd := BitVec.ofNat 64 (x / 2 ^ 256), pidx := pidx, ngrp := ngrp,
             frm := BitVec.ofNat 3 (x / 2 ^ 384), repro := x / 2 ^ 387 % 2 == 1, mvl := BitVec.ofNat 7 (x / 2 ^ 388),
             tet := BitVec.ofNat 4 (x / 2 ^ 396), opa := BitVec.ofNat 64 (x / 2 ^ 448),
             done := BitVec.ofNat 256 (x / 2 ^ 512), part := BitVec.ofNat 8224 part, detected := none, adm := 0, streamed := 0, fires := [], olds := [],
             strip := 0, filled := false, restored := true, gvlen := 0, image := none,
             sample := 0 }

/-! ### The strand image's first part (R115) -/

/-- The slots loaded and bound, the word at 0x1C. -/
def Strand.slotBits (st : Strand) : Nat :=
  ((st.cx.toList.zipIdx.map fun p => if p.1.isSome then 2 ^ p.2 else 0).sum) +
  256 * ((st.k.toList.zipIdx.map fun p => if p.1.status.getLsbD 0 then 2 ^ p.2 else 0).sum)

/-- Fields of image bytes 0 to 0x483F as (offset, value), each value at most as wide as the gap to the next. -/
def recordFields (st : Strand) (full : Bool) (tepc : Word) : List (Nat × Nat) :=
  [(0x00, 0x06405348), (0x04, 1),
   (0x06, (if full then 1 else 0) + (if st.tilesOn then 2 else 0) + (if st.sup then 4 else 0) + if st.uiIn then 8 else 0),
   (0x08, tepc.toNat), (0x10, st.grsz.toNat), (0x14, st.gvlen.toNat), (0x18, st.window.length), (0x1C, st.slotBits),
   (0x20, 0x29640 + 36 * st.grsz.toNat), (0x28, st.pDone.toNat + 256 * st.pFault.toNat),
   (0x30, st.id.toNat + 2 ^ 32 * st.gang.toNat), (0x38, st.wcount.toNat)] ++
  (st.g.toList.zipIdx.map fun p => (0x40 + 8 * p.2, if p.2 = 0 then 0 else p.1.toNat)) ++
  (st.shadow.toList.zipIdx.map fun p => (0x140 + 8 * p.2, p.1.toNat)) ++
  (st.stateWords.zipIdx.map fun p => (0x180 + 8 * p.2, p.1.toNat)) ++
  (st.window.zipIdx.map fun p => (0x200 + 96 * p.2, p.1.record)) ++
  (st.window.zipIdx.map fun p => (0x800 + 1028 * p.2, p.1.part.toNat))

/-- Write a block of `len` bytes that is zero but for the fields given, where its address is served (R14, R115, R309); a write to
device memory is another agent's (R97). -/
def State.writeBlock (s : State) (base len : Nat) (fields : List (Nat × Nat)) : State :=
  match s.locate base with
  | some (.host a) => { s with hostMem := Sparse.block s.hostMem a len fields }
  | _ =>
    { s with
      mem := Sparse.block s.mem base len fields,
      links := s.links.filter fun p => decide (p.1 < base / 64) || decide ((base + len + 63) / 64 ≤ p.1) }

/-- A block can be written: its bytes are served, by one die or by the host, and no sector is poisoned (R14, R112). -/
def State.blockOk (s : State) (base len : Nat) : Bool :=
  populated base && populated (base + len - 1) && base / 2 ^ 36 == (base + len - 1) / 2 ^ 36 &&
  match s.locate base with
  | none => false
  | some (.host a) => (Loc.host a).carried len
  | some (.dev _) => !(s.poison.any fun p => decide (base / 64 ≤ p.1) && decide (p.1 ≤ (base + len - 1) / 64))

/-- TWIN as an address. -/
def Strand.twinAddr (st : Strand) : Nat := st.twin.toNat * 4096

/-! ### Relay partners (R9, R215) -/

/-- The mesh neighbour of a core in a direction: 0 N, 1 E, 2 S, 3 W (R9). -/
def neighbour (core dir : Nat) : Option Nat :=
  let n := core % 20
  let x := n % 5
  let y := n / 5
  match dir with
  | 0 => if y = 0 then none else some (core - 5)
  | 1 => if x = 4 then none else some (core + 1)
  | 2 => if y = 3 then none else some (core + 5)
  | _ => if x = 0 then none else some (core - 1)

/-- A strand is the relay partner of `st` in a direction (R215). -/
def isPartner (perCore : Nat) (st : Strand) (dir : Nat) (p : Strand) : Bool :=
  neighbour st.core.toNat dir == some p.core.toNat && p.gang == st.gang && p.phase == .resident &&
  p.id.toNat % perCore == st.id.toNat % perCore && p.id != st.id

/-- Strands per core of a strand's gang. -/
def State.perCoreOf (s : State) (st : Strand) : Nat :=
  match s.gangOf st.gang with
  | none => 1
  | some g => g.perCore

/-- The opposite direction. -/
def opposite (dir : Nat) : Nat := (dir + 2) % 4

/-- A slot is a bound relay slot of a mode (send or receive) in a direction. -/
def Slot.isRelay (k : Slot) (send : Bool) (dir : Nat) : Bool :=
  k.status.getLsbD 0 && k.mode.getLsbD 5 && k.mode.getLsbD 0 == send && (k.mode.extractLsb' 6 2).toNat == dir

/-- Change the receive slots of a strand for a direction. -/
def Strand.onReceive (st : Strand) (dir : Nat) (f : Slot → Slot) : Strand :=
  { st with k := st.k.map fun k => if k.isRelay false dir then f k else k }

/-- The end marker sets off towards the partner of a send slot (R216). -/
def State.sendEnd (s : State) (st : Strand) (dir : Nat) : State :=
  s.mapStrands (isPartner (s.perCoreOf st) st dir) fun p =>
    p.onReceive (opposite dir) fun k => { k with endSent := true }

/-- End markers for every send slot of a strand (R217). -/
def State.sendEnds (s : State) (st : Strand) : State :=
  [0, 1, 2, 3].foldl (fun s dir => if st.k.toList.any (·.isRelay true dir) then s.sendEnd st dir else s) s

/-! ### Killing (R119) -/

/-- What ends with a strand: its bindings, slot images, tiles, codebooks and slalom table (R217, R240, R267, R290). -/
def Strand.bared (st : Strand) : Strand :=
  { st with k := Vector.replicate 8 Slot.unbound, cx := Vector.replicate 8 none, t := Vector.replicate 4 0,
            cb := Vector.replicate 8 0, tilesOn := false, slalom := 0 }

/-- A strand after its kill: it runs its exit routine at TVEC, or is gone when it was switched out. -/
def Strand.killed (st : Strand) (reason : Word) : Strand :=
  match st.phase with
  | .resident | .held =>
    let g0 := st.window.foldl (fun (st : Strand) e => match e.gpend with | some r => st.wg r 0 | none => st) st
    let g1 := g0.bared
    { g1 with phase := .resident, window := [], vl := 0, updq := [], pDone := 0, pFault := 0, stop := none, dying := none,
              tcause := BitVec.ofNat 16 (0x17 + (if st.sup then 0x4000 else 0) + 0x8000), tval := reason, telem := 0,
              tepc := st.pc, sup := true, pc := st.tvec.setWidth 64 <<< 6, stepping := false, stepDone := false, stalled := false,
              quiet := false, leaving := false, arrived := [] }
  | .switchedOut => { st.bared with phase := .exited, window := [], tcause := 0x8017, tval := reason }
  | _ => st

/-- Some admitted slice has still to complete (R114). -/
def Strand.midSlice (st : Strand) : Bool := st.window.any fun e => e.adm != 0 || e.streamed != 0

/-- No admitted slice of the strand has still to complete, and no copy of it runs (R103, R119). -/
def Strand.atRest (st : Strand) : Bool :=
  !st.midSlice && st.copies.toList.all fun c => c.st != 1#3

/-- The kill of a strand: what has begun, and what it has copied, comes to its end before KILL is reported. -/
def Strand.condemn (st : Strand) (reason : Word) : Strand :=
  if (st.phase == .resident || st.phase == .switchedOut) && !st.atRest then
    { st with dying := some reason, vl := 0, updq := [], stop := none, stalled := false, quiet := false, stepping := false,
              stepDone := false, telem := 0 }
  else st.killed reason

/-- The writes that the strand in focus still owes perform, oldest first (R91, R193). -/
def State.settle (s : State) : State :=
  (s.cur.late.foldl (fun s x => s.writeLoc s.cur.agent (.dev x.addr) x.n x.val) s).upd fun st => { st with late := [] }

/-- The same for every strand that satisfies a condition. -/
def State.settleFor (s : State) (p : Strand → Bool) : State :=
  (((s.strands.filter p).flatMap fun st => st.late.map fun x => (st.agent, x)).foldl
    (fun s y => s.writeLoc y.1 (.dev y.2.addr) y.2.n y.2.val) s).mapStrands p fun st => { st with late := [] }

/-- Drain the update queues of a gang's strands to the press. -/
def State.drainGang (s : State) (id : BitVec 32) : State :=
  s.strands.foldl (fun s st => if st.gang == id then s.receiveAll id st.updq else s) s

/-- The code object that a queue's head has had accepted. -/
def acceptedObject (h : Head) : Option Nat :=
  match h with
  | .kernel _ true o | .wsload _ _ true o | .gangsync _ _ _ _ true o _ _ _ => some o
  | _ => none

/-- Pages leave the permit map when no live gang of the object, and no accepted KERNEL, is left (R334). -/
def State.releaseObject (s : State) (object : Nat) : State :=
  if s.gangs.any (fun g => g.object == object && g.killed.isNone) ||
      s.queues.any (fun q => acceptedObject q.2.head == some object) then s
  else { s with permits := s.permits.filter fun p => p.object != object }

/-- The end of a gang's kill, once every strand has reported it: open regions close, and the code object loses a gang
(R260, R334). -/
def State.killOver (s : State) (id : BitVec 32) (object : Nat) : State :=
  if s.strands.any fun st => st.gang == id && st.dying.isSome then s else (s.closeRegions id false).releaseObject object

/-- A kill of a gang for a reason (R119, R217, R260): every access that its strands have begun performs, and their update
queues drain (R103). A gang already killed is left alone. -/
def State.killGang (s : State) (id : BitVec 32) (reason : Word) : State :=
  match s.gangOf id with
  | none => s
  | some g =>
    if g.killed.isSome then s
    else
      let s0 := s.updGang id fun g => { g with killed := some reason }
      let s1 := (s0.settleFor fun st => st.gang == id).drainGang id
      let s2 := s1.strands.foldl (fun s st => if st.gang == id && st.phase == .resident then s.sendEnds st else s) s1
      (s2.mapStrands (fun st => st.gang == id) fun st => st.condemn reason).killOver id g.object

/-- The gang of a strand has been killed already, or is not known. -/
def State.isKilled (s : State) (id : BitVec 32) : Bool :=
  match s.gangOf id with
  | none => true
  | some g => g.killed.isSome

/-- The strand in focus brings about the kill of its own gang, at an element (R20, R112). In a gang already killed it
starts its exit routine again. -/
def State.killSelf (s : State) (reason : Word) (elem : Nat) : State :=
  let s1 := if s.isKilled s.cur.gang then s.settle.upd fun st => st.condemn reason else s.killGang s.cur.gang reason
  s1.upd fun st => { st with telem := BitVec.ofNat 32 elem }

/-! ### Progress (R65, R116) -/

/-- N = RL × VL as latched. -/
def Entry.n (en : Entry) : Nat := en.rl.toNat * en.vl.toNat

/-- Element groups of N elements (R24). -/
def groupsOf (n : Nat) : Nat := (n + 31) / 32

/-- Group `g` of an entry has completed. -/
def Entry.groupDone (en : Entry) (g : Nat) : Bool :=
  decide (g < en.pidx) || (decide (en.pidx < g) && en.done.getLsbD (g - en.pidx - 1))

/-- Element `e` of an entry has fired. -/
def Entry.fired (en : Entry) (e : Nat) : Bool :=
  en.groupDone (e / 32) || (decide (en.pidx ≤ e / 32) && en.part.getLsbD (e - 32 * en.pidx))

/-- Every group has completed. -/
def Entry.complete (en : Entry) : Bool := decide (en.ngrp ≤ en.pidx)

/-- The entry is complete, tail writes and results included (R63). -/
def Entry.over (en : Entry) : Bool := en.complete && en.tailDone

/-- The lowest group from `g` on, `k` of them left, that is not complete. -/
def lowestOpen (whole : Nat → Bool) (g : Nat) : Nat → Nat
  | 0 => g
  | k + 1 => if whole g then lowestOpen whole (g + 1) k else g

/-- A number with bit j set where `f j` holds, for j below a bound. -/
def bitmap (f : Nat → Bool) : Nat → Nat
  | 0 => 0
  | k + 1 => bitmap f k + if f k then 2 ^ k else 0

/-- The progress of an entry in which exactly the groups that satisfy `whole` are complete, without partial groups (R65). -/
def Entry.progressOf (en : Entry) (whole : Nat → Bool) : Entry :=
  let p := lowestOpen whole 0 en.ngrp
  { en with pidx := p, part := 0,
            done := BitVec.ofNat 256 (bitmap (fun j => decide (p + 1 + j < en.ngrp) && whole (p + 1 + j)) 256) }

/-- Every element below `n` of group `g` satisfies `f`. -/
def wholeGroup (n : Nat) (f : Nat → Bool) (g : Nat) : Bool :=
  (List.range 32).all fun i => f (32 * g + i) || decide (n ≤ 32 * g + i)

/-- The progress of an entry of `n` elements in which exactly the elements that satisfy `f` have fired. With `parts` false
no partial map is kept (R116). -/
def Entry.progress (en : Entry) (n : Nat) (parts : Bool) (f : Nat → Bool) : Entry :=
  let x := en.progressOf (wholeGroup n f)
  let p := x.pidx
  { x with
    part := if parts then
        BitVec.ofNat 8224 (bitmap (fun i => decide (32 * p + i < n) && f (32 * p + i) && !wholeGroup n f (p + i / 32))
          (Nat.min 8224 (n - 32 * p)))
      else 0 }

/-- Everything of the entry is done. -/
def Entry.finish (en : Entry) : Entry :=
  { en with pidx := en.ngrp, done := 0, part := 0, gpend := none, tailDone := true, adm := 0, streamed := 0, fires := [], olds := [] }

/-! ### The update queue (R252, R255) -/

/-- The entry is the UPD that sent a pair: its sequence number is the pair's. -/
def Entry.sender (en : Entry) (p : Pair) : Bool :=
  match en.ins with
  | .upd .. => en.opd == (p.key.setWidth 40).setWidth 64
  | _ => false

/-- The elements of a received pair fire; with the last of them the entry completes (R252). -/
def Entry.pairTaken (en : Entry) (p : Pair) : Entry :=
  let x := en.progress en.n true fun e => en.fired e || p.elems.contains e
  if x.complete then x.finish else x

/-- The lower of two detected faults. -/
def lowerFault (x : Option Detected) (d : Detected) : Detected :=
  match x with
  | some y => if y.elem.toNat ≤ d.elem.toNat then y else d
  | none => d

/-- The entry detects the refusal of a pair, at the lowest element of its run. -/
def Entry.pairRefused (en : Entry) (p : Pair) (c : BitVec 8) : Entry :=
  let d : Detected := { cause := c, tval := BitVec.ofNat 64 p.handle, elem := BitVec.ofNat 32 (p.elems.headD 0) }
  { en with detected := some (lowerFault en.detected d) }

/-- Change the entry that sent a pair. -/
def Strand.onSender (st : Strand) (p : Pair) (f : Entry → Entry) : Strand :=
  { st with window := st.window.map fun en => if en.sender p then f en else en }

/-- The home segment of a pair of the strand in focus receives or refuses it. -/
def State.takePair (s : State) (p : Pair) : State :=
  match s.receivePair s.cur.gang p with
  | .ok s1 => s1.upd fun st => st.onSender p fun en => en.pairTaken p
  | .error c => s.upd fun st => st.onSender p fun en => en.pairRefused p c

/-- The update queue of the strand in focus drains (R114). -/
def State.drainQueue (s : State) : State :=
  (s.cur.updq.foldl State.takePair s).upd fun st => { st with updq := [] }

/-! ### Supervisor traps (R111, R112, R114) -/

/-- A trap of the front end at the instruction at PC. -/
def frontTrap (s : State) (cause : BitVec 8) (tval : Word) (elem : Nat) : TrapInfo :=
  { cause := cause, tepc := s.cur.pc, tval := tval, elem := elem, win := none, async := false, step := false }

/-- TCAUSE of a trap (R106). -/
def TrapInfo.tcause (t : TrapInfo) (prev : Bool) : BitVec 16 :=
  BitVec.ofNat 16 (t.cause.toNat +
    (match t.win with
     | none => 0
     | some n => n % 16 * 2 ^ 8 + 2 ^ 12) +
    (if t.step then 2 ^ 13 else 0) + (if prev then 2 ^ 14 else 0) + if t.async then 2 ^ 15 else 0)

/-- Pending bits once a trap is taken: that of the copy whose completion or fault it reports is clear (R113). -/
def TrapInfo.clears (t : TrapInfo) (cause : BitVec 8) (pend : BitVec 8) : BitVec 8 :=
  if t.async && t.cause == cause then pend &&& ~~~(1#8 <<< (t.tval.toNat % 8)) else pend

/-- The strand enters supervisor level with an empty window (R111). -/
def Strand.enterTrap (st : Strand) (t : TrapInfo) : Strand :=
  { st with pDone := t.clears causeCopyDone st.pDone, pFault := t.clears causeCopyFault st.pFault,
            tcause := t.tcause st.sup, tepc := t.tepc, tval := t.tval, telem := BitVec.ofNat 32 t.elem, window := [],
            sup := true, pc := st.tvec.setWidth 64 <<< 6, updq := [], stepping := false, stepDone := false, stalled := false,
            quiet := false, stop := none, leaving := false, aside := st.window.map Entry.aside }

/-- The position of the oldest entry with a detected fault, from `k` on (R108). -/
def oldestFault (k : Nat) : List Entry → Option (Nat × Detected)
  | [] => none
  | en :: t =>
    match en.detected with
    | some d => some (k, d)
    | none => oldestFault (k + 1) t

/-- What a trap reports in the end: one of the window reports the oldest entry that has detected a fault by then, and its
lowest element (R108). -/
def TrapInfo.final (t : TrapInfo) (w : List Entry) : TrapInfo :=
  match t.win, oldestFault 0 w with
  | some _, some (k, d) => { t with cause := d.cause, tval := d.tval, elem := d.elem.toNat, win := some k }
  | _, _ => t

/-- The end of an S-level trap's stop sequence: the update queue drains, the trap record goes to TWIN, the trap registers are
set, and the strand stands at supervisor level at TVEC (R111, R114). A record that cannot be written kills the gang (R112). -/
def State.takeTrap (s : State) (u : TrapInfo) : State :=
  let s1 := s.drainQueue
  let t := u.final s1.cur.window
  if s1.blockOk s1.cur.twinAddr 0x4840 then
    (s1.writeBlock s1.cur.twinAddr 0x4840 (recordFields s1.cur false t.tepc)).upd fun st => st.enterTrap t
  else s1.killSelf 4 0

/-- Take an S-level trap (R111, R114): at once, or, while admitted slices have still to complete, after them. -/
def State.trap (s : State) (t : TrapInfo) : State :=
  if s.cur.midSlice then s.upd fun st => { st with stop := some t, stalled := false } else s.takeTrap t

/-- A precise trap of the instruction at PC, with TELEM 0 (R126, R158). -/
def trapAt (s : State) (cause : BitVec 8) (tval : Word) : Out := .next (s.trap (frontTrap s cause tval 0))

/-- The word of an instruction, as TVAL holds it. -/
def insWord (i : Instr) : Word := ((encode i).getD 0).setWidth 64

/-- The same with the word of the instruction as TVAL. -/
def trapWord (s : State) (cause : BitVec 8) (i : Instr) : Out := trapAt s cause (insWord i)

/-- PRIV at user level, else go on (R78). -/
def needSup (i : Instr) (s : State) (k : Out) : Out := if s.cur.sup then k else trapWord s causePriv i

/-! ### User-level traps (R105, R113) -/

/-- Take a user-level trap: the shadows, UICAUSE, UIEPC, UIMASK.IN and g24 (R113). -/
def Strand.enterUser (st : Strand) (code : BitVec 8) (detail : Word) (target : BitVec 58) : Strand :=
  let st1 := { st with
    shadow := Vector.ofFn fun i => st.g.toList.getD (24 + i.val) 0,
    uicause := code, uiepc := st.pc, uiIn := true, quiet := false, pc := target.setWidth 64 <<< 6 }
  st1.wg 24 detail

/-- A synchronous user-level cause at the instruction at PC, escalated as R105 states; `enabled` is its enable bit. -/
def userTrap (s : State) (code : BitVec 8) (detail tval : Word) (vector : BitVec 58) (enabled : Bool) : Out :=
  if !enabled || s.cur.uiIn || vector == 0#58 || s.cur.sup then trapAt s code tval
  else awaitG [24, 25, 26, 27, 28, 29] s (.next (s.upd fun st => st.enterUser code detail vector))

/-! ### Returns -/

/-- What VBPOS writes: PROGRESS, with END in bit 63 on a relay receive slot (R214). -/
def slotPos (k : Slot) : Word :=
  BitVec.ofNat 64 (k.progress.toNat + if k.mode.getLsbD 5 && !k.mode.getLsbD 0 && k.status.getLsbD 1 then 2 ^ 63 else 0)

/-- What the entry of an instruction samples. -/
def Strand.sampleFor (st : Strand) (i : Instr) : Word :=
  match i with
  | .vbpos _ b => slotPos (st.k[b.toNat]'b.isLt)
  | _ => 0

/-- What a restored entry has beside its record: what was set aside with it, or, for a record that software has made, a strip
of its own, the GVLEN of the record, and the image and the sample of its slot as it is now (DESIGN CHOICE, log 55). -/
def besides (s : State) (base : Nat) (l : List Aside) (i : Nat) (e : Entry) : Aside :=
  match l[i]? with
  | some x => x
  | none =>
    { fires := [], olds := [], strip := s.cur.strip + 1 + i, gvlen := BitVec.ofNat 17 (s.physRead (base + 0x14) 4),
      image := match e.ins with
        | .cx _ _ _ _ _ n => s.cur.cx[n.toNat]'n.isLt
        | _ => none,
      sample := s.cur.sampleFor e.ins }

/-- Restore the window records at `base` (R111), with what was set aside for them. -/
def readEntries (s : State) (base : Nat) (l : List Aside) : List Entry :=
  (List.range 16).filterMap fun i =>
    (entryOf (s.physRead (base + 0x200 + 96 * i) 96) (s.physRead (base + 0x800 + 1028 * i) 1028)).map fun e =>
      e.withAside (besides s base l i e)

/-- The number of the strip that goes on after a window is restored: a new one when software has made one of its records. -/
def Strand.stripAfter (st : Strand) (w : List Entry) : Nat :=
  if w.any fun e => decide (st.strip < e.strip) then st.strip + 17 else st.strip

/-- A word of an image. -/
def imgWord (s : State) (base off : Nat) : Word := BitVec.ofNat 64 (s.physRead (base + off) 8)

/-- Restore g registers, shadows and the state words but MVL, MSTATE and the pending copy bits (R111, R142). -/
def restoreWords (s : State) (base : Nat) (st : Strand) : Strand :=
  let w := fun i => imgWord s base (0x180 + 8 * i)
  { st with
    g := Vector.ofFn fun i => if i.val = 0 then 0 else imgWord s base (0x40 + 8 * i.val),
    shadow := Vector.ofFn fun i => imgWord s base (0x140 + 8 * i.val),
    vl := (w 0).setWidth 32, rl := (w 1).setWidth 7, vtype := (w 2).setWidth 6, frm := frmStored ((w 3).setWidth 3),
    fflags := (w 4).setWidth 5, repro := (w 5).setWidth 1, srseed := seedStored ((w 8).setWidth 32),
    uivec := (w 9).extractLsb' 6 58, uicause := (w 10).setWidth 8, uiepc := w 11, uiIn := (w 12).getLsbD 0,
    enDone := (w 12).getLsbD 1, enFault := (w 12).getLsbD 2, enTrapu := (w 12).getLsbD 3,
    cxldr := (w 13).extractLsb' 6 58, grantNext := (w 14).setWidth 17, grantPend := (w 14).getLsbD 31 }

/-- Return from a supervisor trap (R111, R140): a record with the wrong MAGIC kills the gang with reason 4. A record in a
poisoned sector, or at an address that nothing serves, is read as memory holds it: R20 names no path of this read (DESIGN
CHOICE, log 52). -/
def State.eret (s : State) : State :=
  let base := s.cur.twinAddr
  if s.physRead base 4 = 0x06405348 then
    s.upd fun st =>
      let st1 := restoreWords s base st
      let prev := st.tcause.getLsbD 14
      let w := readEntries s base st.aside
      { st1 with window := w, pc := st.tepc, sup := prev, stepping := st.estep && !prev,
                 stepDone := false, arrived := st.arrived, wcount := 0, quiet := false, strip := st.stripAfter w }
  else s.killSelf 4 0

/-- Return from a user-level trap (R113). -/
def Strand.uiret (st : Strand) : Strand :=
  let st1 := { st with uiIn := false, pc := st.uiepc, wcount := 0, quiet := false }
  (List.range 6).foldl (fun (a : Strand) i => a.wg (BitVec.ofNat 5 (24 + i)) (st.shadow.toList.getD i 0)) st1

/-! ### Barriers (R137) -/

/-- Whether an arrival is held. -/
def Barrier.holds (b : Barrier) : Bool := b.expect != 0 && b.rel

/-- An arrival, by a strand or by a copy. -/
def Barrier.arrive (b : Barrier) (byStrand : Bool) : Barrier :=
  if b.expect = 0 then b
  else
    { b with arrived := b.arrived + 1, sarr := b.sarr + if byStrand then 1 else 0, rel := decide (b.expect ≤ b.arrived + 1) }

/-- The arrival ends the gathering. -/
def Barrier.ends (b : Barrier) : Bool := b.expect != 0 && decide (b.expect ≤ b.arrived + 1)

/-- Whether a wait can complete. -/
def Barrier.open (b : Barrier) : Bool := b.expect == 0 || b.rel

/-- The release ends: the arrivals of copies that it held are made now, as far as the next phase goes. -/
def Barrier.reopen (b : Barrier) : Barrier :=
  let n := Nat.min b.held b.expect
  { b with arrived := n, sarr := 0, passed := 0, rel := decide (b.expect ≤ n), held := b.held - n }

/-- A completed wait. -/
def Barrier.pass (b : Barrier) : Barrier :=
  if b.expect = 0 then b
  else if b.passed + 1 ≥ b.sarr then b.reopen
  else { b with passed := b.passed + 1 }

/-- The completed wait has ended the release, and the arrivals that it held have ended the next gathering. -/
def Barrier.reopens (b : Barrier) : Bool := b.expect != 0 && decide (b.sarr ≤ b.passed + 1) && b.reopen.rel

/-- A named barrier of a strand's group. -/
def Gang.nb (g : Gang) (group n : Nat) : Barrier :=
  (Sparse.get (Vector.replicate 32 (Barrier.fresh 0)) g.named group).toList.getD n (Barrier.fresh 0)

/-- Replace a named barrier. -/
def Gang.setNb (g : Gang) (group n : Nat) (b : Barrier) : Gang :=
  let v := Sparse.get (Vector.replicate 32 (Barrier.fresh 0)) g.named group
  let w : Vector Barrier 32 := Vector.ofFn fun i => if i.val = n then b else v.toList.getD i.val (Barrier.fresh 0)
  { g with named := Sparse.put (Vector.replicate 32 (Barrier.fresh 0)) g.named group w }

/-- The end of a gathering at a named barrier sets the event bits of the group's strands (R139). -/
def State.wakeGroup (s : State) (gang : BitVec 32) (group : Nat) : State :=
  s.mapStrands (fun st => st.gang == gang && st.group == group) fun st => { st with event := true }

/-- The end of a gathering at the gang barrier sets the event bits of the gang's strands. -/
def State.wakeGang (s : State) (gang : BitVec 32) : State :=
  s.mapStrands (fun st => st.gang == gang) fun st => { st with event := true }

/-- The barrier that a strand's wait or arrival names: a named one, or the gang barrier. -/
def State.barrier (s : State) (st : Strand) (nb : Option Nat) : Barrier :=
  match s.gangOf st.gang with
  | none => Barrier.fresh 0
  | some g =>
    match nb with
    | none => g.barrier
    | some n => g.nb st.group n

/-- Replace it. -/
def State.setBarrier (s : State) (gang : BitVec 32) (group : Nat) (nb : Option Nat) (b : Barrier) : State :=
  s.updGang gang fun g =>
    match nb with
    | none => { g with barrier := b }
    | some n => g.setNb group n b

/-- An arrival at a barrier of `st`, with the event bits of R139 when it ends the gathering. -/
def State.arrive (s : State) (st : Strand) (nb : Option Nat) (byStrand : Bool) : State :=
  let b := s.barrier st nb
  let s1 := s.setBarrier st.gang st.group nb (b.arrive byStrand)
  if b.ends then
    match nb with
    | none => s1.wakeGang st.gang
    | some _ => s1.wakeGroup st.gang st.group
  else s1

/-- The arrival of a copy of `st` at a named barrier: held while the barrier releases (R137). -/
def State.copyArrive (s : State) (st : Strand) (nb : Nat) : State :=
  let b := s.barrier st (some nb)
  if b.holds then s.setBarrier st.gang st.group (some nb) { b with held := b.held + 1 } else s.arrive st (some nb) false

/-- A completed wait at a barrier of `st`, with the event bits of R139 when arrivals of copies that it has let in end the next
gathering. -/
def State.pass (s : State) (st : Strand) (nb : Option Nat) : State :=
  let b := s.barrier st nb
  let s1 := s.setBarrier st.gang st.group nb b.pass
  if b.reopens then s1.wakeGroup st.gang st.group else s1

end Sys2Proof.Machine
end

