-- ==== Sys2Proof/Machine/Operands.lean ====
section
/-! DEFINITION. Operand forms: elements and mask bits (R49 to R54), second operands (R156), what an instruction writes and
under which policies (R54), and the progress of an entry (R65, R116). -/

namespace Sys2Proof.Machine

/-! ### Elements -/

/-- The w-bit unit number `e` of a bit string. -/
def bitsAt (x w e : Nat) : Nat := x >>> (w * e) % 2 ^ w

/-- Replace the w-bit unit number `e`. -/
def putBits (x w e v : Nat) : Nat := (x - bitsAt x w e <<< (w * e)) + (v % 2 ^ w) <<< (w * e)

/-- Number of one bits among the low `n`. -/
def popCount (x : Nat) : Nat → Nat
  | 0 => 0
  | n + 1 => popCount x n + if x.testBit n then 1 else 0

/-- A vector register's bits. -/
def Strand.vbits (st : Strand) (r : BitVec 5) : Nat := (st.v[r.toNat]'r.isLt).toNat
/-- A mask register's bits. -/
def Strand.mbits (st : Strand) (r : BitVec 3) : Nat := (st.m[r.toNat]'r.isLt).toNat

def Strand.setVbits (st : Strand) (r : BitVec 5) (x : Nat) : Strand :=
  { st with v := st.v.set r.toNat (BitVec.ofNat 262144 x) r.isLt }
def Strand.setMbits (st : Strand) (r : BitVec 3) (x : Nat) : Strand :=
  { st with m := st.m.set r.toNat (BitVec.ofNat 32768 x) r.isLt }

/-- Element `e` of width `w` of a vector register (R49). -/
def Strand.elem (st : Strand) (r : BitVec 5) (w e : Nat) : Nat := bitsAt (st.vbits r) w e
/-- Bit `e` of a mask (R52). -/
def Strand.mbit (st : Strand) (r : BitVec 3) (e : Nat) : Bool := (st.mbits r).testBit e

/-- A register that the vector side writes. -/
inductive VReg where
  | v (r : BitVec 5)
  | m (r : BitVec 3)
  deriving DecidableEq, Repr

/-- Bits of a register. -/
def VReg.bits : VReg → Nat
  | .v _ => 262144
  | .m _ => 32768

/-- The bits of a register. -/
def Strand.rbits (st : Strand) : VReg → Nat
  | .v r => st.vbits r
  | .m r => st.mbits r

def Strand.setRbits (st : Strand) (d : VReg) (x : Nat) : Strand :=
  match d with
  | .v r => st.setVbits r x
  | .m r => st.setMbits r x

/-- Element `e` of width `w` is replaced. -/
def Strand.put (st : Strand) (d : VReg) (w e v : Nat) : Strand := st.setRbits d (putBits (st.rbits d) w e v)

/-! ### Latched values of an entry -/

/-- The latched etype. -/
def Entry.et (en : Entry) : Nat := en.vtype.toNat % 16
/-- SEW of the latched etype. -/
def Entry.w (en : Entry) : Nat := sewOf en.et
/-- MPOL: inactive elements are written with zero. -/
def Entry.mpol (en : Entry) : Bool := en.vtype.getLsbD 4
/-- TPOL: the tail is written with zero. -/
def Entry.tpol (en : Entry) : Bool := en.vtype.getLsbD 5
/-- The rounding mode that the entry latched. -/
def Entry.rm (en : Entry) : Rm := rmOfFrm en.frm

/-- Element `e` is active under mask field `m` (R53). -/
def Strand.active (st : Strand) (m : BitVec 3) (n e : Nat) : Bool := decide (e < n) && (m == 0#3 || st.mbit m e)

/-! ### Second operands (R69, R156) -/

/-- The last source of a VV, VS or VI form. -/
inductive Op2 where
  | vec (c : BitVec 5)
  | scal (c : BitVec 5)
  | imm (x : BitVec 5)
  deriving DecidableEq, Repr

/-- The second operand of form bits `f` and field `c`. -/
def op2Of (f : BitVec 2) (c : BitVec 5) : Op2 := if f == 0#2 then .vec c else if f == 1#2 then .scal c else .imm c

/-- The g registers that it names. -/
def Op2.gs : Op2 → List (BitVec 5)
  | .scal c => [c]
  | _ => []

/-- The vector registers that it names. -/
def Op2.vs : Op2 → List (BitVec 5)
  | .vec c => [c]
  | _ => []

/-- Its value for element `e` as a w-bit pattern. -/
def Op2.val (o : Op2) (st : Strand) (en : Entry) (w e : Nat) : Nat :=
  match o with
  | .vec c => st.elem c w e
  | .scal _ => en.opc.toNat % 2 ^ w
  | .imm x => wrapInt w x.toInt

/-- Its value as an index, count or amount: the unsigned 64-bit k. -/
def Op2.k (o : Op2) (opc : Word) : Nat :=
  match o with
  | .vec _ => 0
  | .scal _ => opc.toNat
  | .imm x => (x.signExtend 64).toNat

/-! ### What an instruction writes -/

/-- The writes to one destination register: element `e` below `upto` takes `val e`, or is not written. The tail, from
`tail` on, follows TPOL; with none there is no tail. -/
structure VWrite where
  reg : VReg
  w : Nat
  upto : Nat
  val : Nat → Option Nat
  tail : Option Nat

/-- The effect of a register instruction on its elements: the destinations, the flags of each of `nfl` units, and the value
for its g register. -/
structure Eff where
  writes : List VWrite
  nfl : Nat
  fl : Nat → Flags
  g : Option Word

/-- One destination element under the guard and MPOL (R54). -/
def policed (en : Entry) (act : Bool) (x : Nat) : Option Nat := if act then some x else if en.mpol then some 0 else none

/-- A whole destination: elements 0 to n − 1 under a guard, tail from n. -/
def guarded (d : VReg) (w n : Nat) (en : Entry) (act : Nat → Bool) (f : Nat → Nat) : VWrite :=
  { reg := d, w := w, upto := n, val := fun e => policed en (act e) (f e), tail := some n }

/-- A destination of elements 0 to n − 1, all written, tail from n. -/
def plain (d : VReg) (w n : Nat) (f : Nat → Nat) : VWrite :=
  { reg := d, w := w, upto := n, val := fun e => some (f e), tail := some n }

/-- No flags, no g register. -/
def Eff.quiet (ws : List VWrite) : Eff := { writes := ws, nfl := 0, fl := fun _ => 0, g := none }

/-- Write the selected elements from `e` on, `k` of them left. -/
def VWrite.from (x : VWrite) (sel : Nat → Bool) (bits : Nat) (e : Nat) : Nat → Nat
  | 0 => bits
  | k + 1 =>
    if sel e then
      match x.val e with
      | some v => x.from sel (putBits bits x.w e v) (e + 1) k
      | none => x.from sel bits (e + 1) k
    else x.from sel bits (e + 1) k

/-- Write the selected elements of a destination. -/
def Strand.write (st : Strand) (sel : Nat → Bool) (x : VWrite) : Strand :=
  st.setRbits x.reg (x.from sel (st.rbits x.reg) 0 x.upto)

/-- The tail writes of a destination (R54). -/
def Strand.writeTail (st : Strand) (en : Entry) (x : VWrite) : Strand :=
  match x.tail with
  | some t => if en.tpol then st.setRbits x.reg (st.rbits x.reg % 2 ^ (x.w * t)) else st
  | none => st

/-- The flags of the selected units from `e` on. -/
def flagsFrom (fl : Nat → Flags) (sel : Nat → Bool) (acc : Flags) (e : Nat) : Nat → Flags
  | 0 => acc
  | k + 1 => flagsFrom fl sel (if sel e then acc ||| fl e else acc) (e + 1) k

/-- OR flags into FFLAGS. -/
def Strand.raise (st : Strand) (fl : Flags) : Strand := { st with fflags := st.fflags ||| fl }

/-- Apply the selected units of an effect. -/
def Eff.fire (x : Eff) (sel : Nat → Bool) (st : Strand) : Strand :=
  (x.writes.foldl (fun st d => st.write sel d) st).raise (flagsFrom x.fl sel 0 0 x.nfl)

/-- Apply an effect where `sel d e` selects write number `d` of element `e`; the flags go with write number 0. -/
def Eff.fireBy (x : Eff) (sel : Nat → Nat → Bool) (st : Strand) : Strand :=
  (x.writes.zipIdx.foldl (fun st d => st.write (sel d.2) d.1) st).raise (flagsFrom x.fl (sel 0) 0 0 x.nfl)

/-- The tail writes of an effect. -/
def Eff.tails (x : Eff) (en : Entry) (st : Strand) : Strand := x.writes.foldl (fun st d => st.writeTail en d) st

end Sys2Proof.Machine
end

