-- ==== Sys2Proof/Machine/Scalar.lean ====
section
/-! DEFINITION. Integer register operations of the scalar front end: SOP (R127) and the immediate forms (R128). -/

namespace Sys2Proof.Machine

/-- A scalar instruction that reads the registers `rs` and writes `x` to g[A] (R126). -/
def scalarOp (rs : List (BitVec 5)) (a : BitVec 5) (x : Word) (s : State) : Out :=
  awaitG (a :: rs) s (.next (s.wg a x).advance)

/-- A member of SOP with two sources. -/
def sop (f : Word → Word → Word) (a b c : BitVec 5) (s : State) : Out := scalarOp [b, c] a (f (s.rg b) (s.rg c)) s

/-- A member with one source. -/
def sop1 (f : Word → Word) (a b : BitVec 5) (s : State) : Out := scalarOp [b] a (f (s.rg b)) s

/-- 1 or 0. -/
def bit (c : Bool) : Word := if c then 1 else 0

/-- The shift amount c[5:0]. -/
def shamt (c : Word) : Nat := c.toNat % 64

/-- Signed quotient with the fixed results of R127. -/
def divS (b c : Word) : Word := if c = 0 then -1 else b.sdiv c
def divU (b c : Word) : Word := if c = 0 then -1 else b / c
def remS (b c : Word) : Word := if c = 0 then b else b.srem c
def remU (b c : Word) : Word := if c = 0 then b else b % c

/-- Bits [127:64] of the signed and the unsigned product. -/
def mulHS (b c : Word) : Word := BitVec.ofInt 64 (b.toInt * c.toInt / 2 ^ 64)
def mulHU (b c : Word) : Word := BitVec.ofNat 64 (b.toNat * c.toNat / 2 ^ 64)

/-- Number of leading zero bits. -/
def clzW (b : Word) : Word := BitVec.ofNat 64 (64 - bitLen b.toNat)
/-- Number of trailing zero bits. -/
def ctzW (b : Word) : Word := if b = 0 then 64 else BitVec.ofNat 64 (b &&& -b).toNat.log2

def popcW (b : Word) : Word := BitVec.ofNat 64 (popCount b.toNat 64)

/-! ### SOP -/

/-- ADD (R127). -/
def execAdd (a b c : BitVec 5) (s : State) : Out := sop (· + ·) a b c s
/-- SUB (R127). -/
def execSub (a b c : BitVec 5) (s : State) : Out := sop (· - ·) a b c s
/-- AND (R127). -/
def execAnd (a b c : BitVec 5) (s : State) : Out := sop (· &&& ·) a b c s
/-- OR (R127). -/
def execOr (a b c : BitVec 5) (s : State) : Out := sop (· ||| ·) a b c s
/-- XOR (R127). -/
def execXor (a b c : BitVec 5) (s : State) : Out := sop (· ^^^ ·) a b c s
/-- SHL (R127). -/
def execShl (a b c : BitVec 5) (s : State) : Out := sop (fun x y => x <<< shamt y) a b c s
/-- SHR (R127). -/
def execShr (a b c : BitVec 5) (s : State) : Out := sop (fun x y => x >>> shamt y) a b c s
/-- SHRA (R127). -/
def execShra (a b c : BitVec 5) (s : State) : Out := sop (fun x y => x.sshiftRight (shamt y)) a b c s
/-- SLT (R127). -/
def execSlt (a b c : BitVec 5) (s : State) : Out := sop (fun x y => bit (x.slt y)) a b c s
/-- SLTN (R127). -/
def execSltn (a b c : BitVec 5) (s : State) : Out := sop (fun x y => bit (x.ult y)) a b c s
/-- MUL (R127). -/
def execMul (a b c : BitVec 5) (s : State) : Out := sop (· * ·) a b c s
/-- MULH (R127). -/
def execMulh (a b c : BitVec 5) (s : State) : Out := sop mulHS a b c s
/-- MULHN (R127). -/
def execMulhn (a b c : BitVec 5) (s : State) : Out := sop mulHU a b c s
/-- DIV (R127). -/
def execDiv (a b c : BitVec 5) (s : State) : Out := sop divS a b c s
/-- DIVN (R127). -/
def execDivn (a b c : BitVec 5) (s : State) : Out := sop divU a b c s
/-- REM (R127). -/
def execRem (a b c : BitVec 5) (s : State) : Out := sop remS a b c s
/-- REMN (R127). -/
def execRemn (a b c : BitVec 5) (s : State) : Out := sop remU a b c s
/-- MIN (R127). -/
def execMin (a b c : BitVec 5) (s : State) : Out := sop (fun x y => if x.slt y then x else y) a b c s
/-- MAX (R127). -/
def execMax (a b c : BitVec 5) (s : State) : Out := sop (fun x y => if x.slt y then y else x) a b c s
/-- MINN (R127). -/
def execMinn (a b c : BitVec 5) (s : State) : Out := sop (fun x y => if x.ult y then x else y) a b c s
/-- MAXN (R127). -/
def execMaxn (a b c : BitVec 5) (s : State) : Out := sop (fun x y => if x.ult y then y else x) a b c s
/-- CLZ (R127). -/
def execClz (a b : BitVec 5) (s : State) : Out := sop1 clzW a b s
/-- CTZ (R127). -/
def execCtz (a b : BitVec 5) (s : State) : Out := sop1 ctzW a b s
/-- POPC (R127). -/
def execPopc (a b : BitVec 5) (s : State) : Out := sop1 popcW a b s

/-! ### Immediate forms -/

/-- ADDI (R128). -/
def execAddi (a b : BitVec 5) (i : BitVec 16) (s : State) : Out := sop1 (· + i.signExtend 64) a b s
/-- ANDI (R128). -/
def execAndi (a b : BitVec 5) (i : BitVec 16) (s : State) : Out := sop1 (· &&& i.signExtend 64) a b s
/-- ORI (R128). -/
def execOri (a b : BitVec 5) (i : BitVec 16) (s : State) : Out := sop1 (· ||| i.setWidth 64) a b s
/-- XORI (R128). -/
def execXori (a b : BitVec 5) (i : BitVec 16) (s : State) : Out := sop1 (· ^^^ i.setWidth 64) a b s
/-- SLTI (R128). -/
def execSlti (a b : BitVec 5) (i : BitVec 16) (s : State) : Out := sop1 (fun x => bit (x.slt (i.signExtend 64))) a b s
/-- SHLI (R128). -/
def execShli (a b : BitVec 5) (n : BitVec 6) (s : State) : Out := sop1 (fun x => x <<< n.toNat) a b s
/-- SHRI (R128). -/
def execShri (a b : BitVec 5) (n : BitVec 6) (s : State) : Out := sop1 (fun x => x >>> n.toNat) a b s
/-- SHRAI (R128). -/
def execShrai (a b : BitVec 5) (n : BitVec 6) (s : State) : Out := sop1 (fun x => x.sshiftRight n.toNat) a b s
/-- LIH (R128). -/
def execLih (a : BitVec 5) (i : BitVec 16) (s : State) : Out := scalarOp [] a (i.signExtend 64 <<< 16) s
/-- SHORI (R128). -/
def execShori (a b : BitVec 5) (i : BitVec 16) (s : State) : Out := sop1 (fun x => x <<< 16 ||| i.setWidth 64) a b s

end Sys2Proof.Machine
end

