-- ==== Sys2Proof/Machine/Footprint.lean ====
section
/-! DEFINITION. What each windowed instruction reads and writes, as far as the firing rule (R59), bound registers (R212,
R213) and the naming of slots (R210, R216) need it. -/

namespace Sys2Proof.Machine

/-- The registers of a window entry. -/
structure Foot where
  /-- Vector registers read. -/
  vs : List (BitVec 5)
  /-- Vector registers written. -/
  vd : List (BitVec 5)
  /-- Masks read. -/
  ms : List (BitVec 3)
  /-- Masks written. -/
  md : List (BitVec 3)
  /-- Element `e` reads element `e` at SEW only. -/
  us : Bool
  /-- Element `e` writes element `e` at SEW only. -/
  ud : Bool
  /-- Accesses memory, a stream or a relay port on its own account. -/
  mem : Bool
  /-- Reads or writes tiles, codebooks, the slalom table, slots or regions: such entries fire in order. -/
  unitState : Bool
  deriving DecidableEq, Repr

/-- The guard mask of a field. -/
def guardOf (m : BitVec 3) : List (BitVec 3) := if m == 0#3 then [] else [m]

/-- An element-wise instruction on registers. -/
def Foot.lanes (vs vd : List (BitVec 5)) (ms md : List (BitVec 3)) : Foot :=
  { vs := vs, vd := vd, ms := ms, md := md, us := true, ud := true, mem := false, unitState := false }

/-- An instruction on registers that fires as a whole. -/
def Foot.whole (vs vd : List (BitVec 5)) (ms md : List (BitVec 3)) : Foot :=
  { Foot.lanes vs vd ms md with us := false, ud := false }

/-- A load: its destination elements are written one by one. -/
def Foot.load (vs vd : List (BitVec 5)) (ms : List (BitVec 3)) : Foot :=
  { Foot.lanes vs vd ms [] with us := false, mem := true }

/-- A store. -/
def Foot.store (vs : List (BitVec 5)) (ms md : List (BitVec 3)) : Foot :=
  { Foot.whole vs [] ms md with mem := true }

/-- An engine's instruction. -/
def Foot.engine (vs vd : List (BitVec 5)) (ms md : List (BitVec 3)) (mem : Bool) : Foot :=
  { Foot.whole vs vd ms md with mem := mem, unitState := true }

/-- The fields of a segment access: vA to vA + F − 1. -/
def fieldRegs (a : BitVec 5) (f : BitVec 3) : List (BitVec 5) :=
  (List.range (f.toNat + 1)).map fun i => a + BitVec.ofNat 5 i

/-- The registers of an instruction; the scalar ones and the events have none. -/
def foot (i : Instr) : Foot :=
  match i with
  | .vadd a b c m f | .vsub a b c m f | .vmul a b c m f | .vmulh a b c m f | .vmulhn a b c m f | .vdiv a b c m f
  | .vdivn a b c m f | .vrem a b c m f | .vremn a b c m f | .vmin a b c m f | .vmax a b c m f | .vminn a b c m f
  | .vmaxn a b c m f | .vand a b c m f | .vor a b c m f | .vxor a b c m f | .vshl a b c m f | .vshr a b c m f
  | .vshra a b c m f | .vsadd a b c m f | .vssub a b c m f | .vadc a b c m f | .vsbc a b c m f
  | .vfadd a b c m f | .vfsub a b c m f | .vfmul a b c m f | .vfdiv a b c m f | .vfmin a b c m f | .vfmax a b c m f
  | .vfsgn a b c m f | .vmerge a b c m f =>
    .lanes (b :: (op2Of f c).vs) [a] (guardOf m) []
  | .vmacc a b c m f => .lanes (a :: b :: (op2Of f c).vs) [a] (guardOf m) []
  | .vfsqrt a b m | .vfabs a b m | .vfneg a b m => .lanes [b] [a] (guardOf m) []
  | .vfma a b c d m | .vfms a b c d m | .vfnma a b c d m | .vfnms a b c d m | .vima a b c d m =>
    .lanes [b, c, d] [a] (guardOf m) []
  | .vwfma a b c d m => .whole [b, c, d] [a] (guardOf m) []
  | .vcvt a b _ m _ _ => .whole [b] [a] (guardOf m) []
  | .vceq a b c m f | .vcne a b c m f | .vclt a b c m f | .vcle a b c m f | .vcgt a b c m f | .vcge a b c m f
  | .vcltn a b c m f | .vclen a b c m f | .vcgtn a b c m f | .vcgen a b c m f | .vfceq a b c m f | .vfclt a b c m f
  | .vfcle a b c m f | .vfcun a b c m f | .vcarry a b c m f | .vborrow a b c m f =>
    .lanes (b :: (op2Of f c).vs) [] (guardOf m) [a]
  | .mand a b c | .mor a b c | .mxor a b c | .mandn a b c => .lanes [] [] [b, c] [a]
  | .mnot a b | .mmov a b => .lanes [] [] [b] [a]
  | .mshup a b _ | .mshdn a b _ => .whole [] [] [b] [a]
  | .mpopc _ b | .mfirst _ b => .whole [] [] [b] []
  | .mset a | .mclr a => .lanes [] [] [] [a]
  | .mtov a b => .lanes [] [a] [b] []
  | .vtom a b => .lanes [b] [] [] [a]
  | .vmov a c m f => .lanes (op2Of f c).vs [a] (guardOf m) []
  | .vsplat a b _ m _ | .vslup a b _ m _ | .vsldn a b _ m _ | .vrows a b _ m _ | .vcols a b _ m _ | .vroww a b _ m _
  | .vcolw a b _ m _ => .whole [b] [a] (guardOf m) []
  | .vrgath a b c m => .whole [b, c] [a] (guardOf m) []
  | .vextr _ b _ _ => .whole [b] [] [] []
  | .vins a _ _ _ => .whole [] [a] [] []
  | .vid a m => .lanes [] [a] (guardOf m) []
  | .vcompress a b m | .vexpand a b m | .vconflict a b m => .whole [b] [a] (guardOf m) []
  | .viota a b m => .whole [] [a] (b :: guardOf m) []
  | .vsegscan a b _ m => .whole [b] [a] (guardOf m) []
  | .vinter a b c m => .whole [b, c] [a] (guardOf m) []
  | .vdelta a b c m => .lanes [b, c] [a, c] (guardOf m) []
  | .vprune48 a b c => .whole [b] [a, c] [] []
  | .vsortseg a b c m => .whole [b] [a, c] (guardOf m) []
  | .vnz a b _ m => .whole [b] [a] (guardOf m) []
  | .vrsum a b m | .vrmin a b m | .vrmax a b m | .vrand a b m | .vror a b m | .vrxor a b m | .vfrsum a b m
  | .vfrmin a b m | .vfrmax a b m => .whole [b] [a] (guardOf m) []
  | .vfdot a b c m => .whole [b, c] [a] (guardOf m) []
  | .vtagq _ b => .whole [b] [] [] []
  | .vwaitr _ b m => .whole [b] [] (guardOf m) []
  | .vdrop a m => .lanes [] [a] (guardOf m) []
  | .vprog .. => .whole [] [] [] []
  | .vld a _ m | .vlds a _ _ m | .vldw a _ m => .load [] [a] (guardOf m)
  | .vldx a _ c m | .vldl a _ c m | .vldsc a _ c m => .load [c] [a] (guardOf m)
  | .vldseg a _ _ m f => .load [] (fieldRegs a f) (guardOf m)
  | .vrload a _ => .load [] [a] []
  | .vldrow a _ m => .load [] [a] (guardOf m)
  | .vst a _ m | .vsts a _ _ m | .vstrow a _ m => .store [a] (guardOf m) []
  | .vstx a _ c m | .vstsc a _ c m => .store [a, c] (guardOf m) []
  | .vstc a _ c m => .store [a, c] (guardOf m) [0#3]
  | .vstseg a _ _ m f => .store (fieldRegs a f) (guardOf m) []
  | .vrsave a _ => .store [a] [] []
  | .vemb a _ c d m => .engine [c, d] [a] (guardOf m) [] true
  | .vbind .. | .vunbind .. | .vbpos .. | .vbset .. | .relay .. => .engine [] [] [] [] true
  | .urgn .. | .useal .. | .uflush .. | .uclose .. => .engine [] [] [] [] true
  | .upd _ b c m => .engine [b, c] [] (guardOf m) [] true
  | .tzero _ => .engine [] [] [] [] false
  | .tgetr a _ _ m | .tgetc a _ _ m => .engine [] [a] (guardOf m) [] false
  | .tsetr _ b _ m | .tsetc _ b _ m => .engine [b] [] (guardOf m) [] false
  | .tstr _ _ _ _ m => .engine [] [] (guardOf m) [] true
  | .tstx _ _ _ c m => .engine [c] [] (guardOf m) [] true
  | .mcbld .. => .engine [] [] [] [] true
  | .tfold r _ b c m | .tfoldn r _ b c m | .tfoldi8 r _ b c m | .tfoldf8 r _ b c m | .tfoldc4 r _ b c m =>
    .engine [b, c] [] (guardOf r ++ guardOf m) [] false
  | .tfoldsp r _ b c d m => .engine [b, c, d] [] (guardOf r ++ guardOf m) [] false
  | .sclaimw _ c m | .sclaimr _ c m => .engine [c] [] (guardOf m) [] false
  | .swave a b => .engine [] [] [b] [a] false
  | .sretire b => .engine [] [] [b] [] false
  | .sclear | .spend _ => .engine [] [] [] [] false
  | .cx a b c d m _ => .lanes [b, c, d] [a] (guardOf m) []
  | .acopy .. => .engine [] [] [] [] true
  | _ => .whole [] [] [] []

/-- NVEC of a slot image (R275). -/
def imageNvec (x : BitVec 2048) : Nat := x.toNat / 2 ^ 48 % 256

/-- The registers of an instruction under a slot image: a CX names as many vector operands as its image takes (R284). -/
def footUnder (i : Instr) (image : Option (BitVec 2048)) : Foot :=
  match i with
  | .cx _ b c d _ _ =>
    match image with
    | some x => { foot i with vs := [b, c, d].take (imageNvec x) }
    | none => { foot i with vs := [] }
  | _ => foot i

/-- The image in the slot that an instruction names (R286). -/
def Strand.imageFor (st : Strand) (i : Instr) : Option (BitVec 2048) :=
  match i with
  | .cx _ _ _ _ _ n => st.cx[n.toNat]'n.isLt
  | _ => none

/-- The registers of an instruction of a strand. -/
def Strand.foot (st : Strand) (i : Instr) : Foot := footUnder i (st.imageFor i)

/-- The registers of an entry, under the image that it holds. -/
def Entry.foot (en : Entry) : Foot := footUnder en.ins en.image

end Sys2Proof.Machine
end

