-- ==== Sys2Proof/Machine/Units.lean ====
section
/-! DEFINITION. The units in which the effect of a window entry fires, with what each reads and writes, and what the older
entries of a window leave to do (R57 to R60, R110, R167 to R171, R189, R192, R193, R204, R209, R227, R229, R267). -/

namespace Sys2Proof.Machine

/-! ### Stretches of tags -/

/-- A part of the strand's state that window entries read and write. -/
inductive Part where
  | v (r : BitVec 5)
  | m (r : BitVec 3)
  | t (n : BitVec 2)
  | cb (k : BitVec 3)
  | slalom
  /-- The port of a relay-bound register, sending or receiving: its entries go in program order (R216). -/
  | port (send : Bool) (r : BitVec 5)
  /-- The copy positions, which ACOPY entries take in program order. -/
  | copies
  /-- The link generation and the tags of lines, which linked loads and conditional stores leave to each other (R61, R95). -/
  | links
  deriving DecidableEq, Repr

/-- Consecutive ripe tags (R57): bytes of a vector register, bits of a mask, or a part as a whole. -/
structure Stretch where
  part : Part
  lo : Nat
  len : Nat
  deriving DecidableEq, Repr

/-- Two stretches have a tag in common. -/
def Stretch.meets (a b : Stretch) : Bool :=
  a.part == b.part && decide (0 < a.len) && decide (0 < b.len) && decide (a.lo < b.lo + b.len) && decide (b.lo < a.lo + a.len)

/-- What is left of a stretch outside another. -/
def Stretch.minus (a b : Stretch) : List Stretch :=
  if a.meets b then
    (if a.lo < b.lo then [{ a with len := b.lo - a.lo }] else []) ++
    if b.lo + b.len < a.lo + a.len then [{ a with lo := b.lo + b.len, len := a.lo + a.len - (b.lo + b.len) }] else []
  else [a]

/-- No stretch of the first list meets one of the second. -/
def apart (a b : List Stretch) : Bool := a.all fun x => b.all fun y => !x.meets y

/-- `n` elements of width `w` of a vector register, from element `lo` on. -/
def vecAt (r : BitVec 5) (w lo n : Nat) : Stretch := { part := .v r, lo := lo * (w / 8), len := n * (w / 8) }
/-- `n` bits of a mask from bit `lo` on. -/
def bitsOf (r : BitVec 3) (lo n : Nat) : Stretch := { part := .m r, lo := lo, len := n }
/-- The bits of a guard. -/
def guardAt (m : BitVec 3) (lo n : Nat) : List Stretch := if m == 0#3 then [] else [bitsOf m lo n]
/-- A part that is read and written as a whole. -/
def wholePart (p : Part) : Stretch := { part := p, lo := 0, len := 1 }

/-! ### Table descriptors and addresses (R190, R202, R207, R208) -/

/-- A table descriptor (R208). -/
structure Table where
  base0 : Word
  k0 : Word
  base1 : Word
  k1 : Word
  log0 : Nat
  log1 : Nat
  width : Nat
  format : Nat
  ntab : Nat
  compose : Nat
  pitch : Nat
  zero : Bool
  deriving DecidableEq, Repr

/-- The descriptor in 64 little-endian bytes. -/
def tableOf (x : Nat) : Table :=
  let at_ := fun off n => x / 2 ^ (8 * off) % 2 ^ (8 * n)
  { base0 := BitVec.ofNat 64 (at_ 0 8), k0 := BitVec.ofNat 64 (at_ 8 8), base1 := BitVec.ofNat 64 (at_ 0x10 8),
    k1 := BitVec.ofNat 64 (at_ 0x18 8), log0 := at_ 0x20 1, log1 := at_ 0x21 1, width := at_ 0x22 2, format := at_ 0x24 1,
    ntab := at_ 0x25 1, compose := at_ 0x26 1, pitch := at_ 0x28 4, zero := at_ 0x27 1 == 0 && at_ 0x2C 20 == 0 }

/-- Bytes of a row element. -/
def Table.fs (t : Table) : Nat := sewOf t.format / 8

/-- Every field has a permitted value (R208). -/
def Table.ok (t : Table) : Bool :=
  (t.format == 8 || t.format == 9 || t.format == 10 || t.format == 12 || t.format == 13) &&
  (t.ntab == 1 || t.ntab == 2) && t.zero && decide (1 ≤ t.width) && decide (t.width ≤ 1024) &&
  decide (t.log0 ≤ 40) && decide (t.log1 ≤ 40) && t.k0.getLsbD 0 && t.base0.toNat % t.fs == 0 &&
  (t.ntab == 1 || (t.k1.getLsbD 0 && t.base1.toNat % t.fs == 0 && decide (t.compose ≤ 1))) &&
  t.pitch % t.fs == 0 && decide (t.width * t.fs ≤ t.pitch)

/-- The row of index `i` in table `j` (R209). -/
def Table.row (t : Table) (j i : Nat) : Nat :=
  let k := if j = 0 then t.k0.toNat else t.k1.toNat
  let l := if j = 0 then t.log0 else t.log1
  i * k % 2 ^ 64 / 2 ^ (64 - l)

/-- The address of column `c` of a row of table `j`. -/
def Table.addr (t : Table) (j i c : Nat) : Word :=
  (if j = 0 then t.base0 else t.base1) + BitVec.ofNat 64 (t.row j i * t.pitch + c * t.fs)

/-- g[B] + e × s (R190). -/
def unitAddr (en : Entry) (e : Nat) : Word := en.opb + BitVec.ofNat 64 (e * (en.w / 8))
/-- g[B] + e × sext(g[C]). -/
def strideAddr (en : Entry) (e : Nat) : Word := en.opb + BitVec.ofNat 64 e * en.opc
/-- g[B] + x(e) × s. -/
def indexAddr (st : Strand) (c : BitVec 5) (en : Entry) (e : Nat) : Word :=
  en.opb + BitVec.ofNat 64 (st.elem c 32 e * (en.w / 8))

/-- Address of field `f` of record `e` (R202). -/
def fieldAddr (en : Entry) (mt : BitVec 4) (nf f e : Nat) : Word :=
  let ms := sewOf mt.toNat / 8
  en.opb + BitVec.ofNat 64 (e * nf * ms + f * ms)

/-- Elements of a whole register: C = GRSZ × 8 / SEW. -/
def Strand.capacity (st : Strand) : Nat := st.grsz.toNat * 8 / sewOf (st.vtype.toNat % 16)

/-- The panel rows that a MOP folds (R228): the rank of the latched etype. -/
def rankOf (t : Nat) : Nat :=
  match t with
  | 8 | 9 => 2
  | 0 | 1 | 12 | 13 => 4
  | 14 => 8
  | _ => 1

/-- The indices below `n` that satisfy a condition, ascending. -/
def activeList (act : Nat → Bool) (n : Nat) : List Nat := (List.range n).filter act

/-- Number of active elements below `e`. -/
def activeBelow (act : Nat → Bool) : Nat → Nat
  | 0 => 0
  | e + 1 => activeBelow act e + if act e then 1 else 0

/-- Element `e` begins a segment under head mask field `m` (R175, R207). -/
def isHead (st : Strand) (m : BitVec 3) (e : Nat) : Bool := e == 0 || (m != 0#3 && st.mbit m e)

/-- A nonzero element (R181): an FP element is zero when it is +0 or −0. -/
def nonzero (t x : Nat) : Bool := if isInt t then x != 0 else x % 2 ^ (sewOf t - 1) != 0

/-! ### Guards -/

/-- The mask field of an instruction that guards its elements. -/
def guardField (i : Instr) : BitVec 3 :=
  match i with
  | .vadd _ _ _ m _ | .vsub _ _ _ m _ | .vmul _ _ _ m _ | .vmulh _ _ _ m _ | .vmulhn _ _ _ m _ | .vdiv _ _ _ m _
  | .vdivn _ _ _ m _ | .vrem _ _ _ m _ | .vremn _ _ _ m _ | .vmin _ _ _ m _ | .vmax _ _ _ m _ | .vminn _ _ _ m _
  | .vmaxn _ _ _ m _ | .vand _ _ _ m _ | .vor _ _ _ m _ | .vxor _ _ _ m _ | .vshl _ _ _ m _ | .vshr _ _ _ m _
  | .vshra _ _ _ m _ | .vsadd _ _ _ m _ | .vssub _ _ _ m _ | .vmacc _ _ _ m _ | .vfadd _ _ _ m _ | .vfsub _ _ _ m _
  | .vfmul _ _ _ m _ | .vfdiv _ _ _ m _ | .vfmin _ _ _ m _ | .vfmax _ _ _ m _ | .vfsgn _ _ _ m _ | .vfsqrt _ _ m
  | .vfabs _ _ m | .vfneg _ _ m | .vfma _ _ _ _ m | .vfms _ _ _ _ m | .vfnma _ _ _ _ m | .vfnms _ _ _ _ m
  | .vima _ _ _ _ m | .vwfma _ _ _ _ m | .vcvt _ _ _ m _ _ | .vceq _ _ _ m _ | .vcne _ _ _ m _ | .vclt _ _ _ m _
  | .vcle _ _ _ m _ | .vcgt _ _ _ m _ | .vcge _ _ _ m _ | .vcltn _ _ _ m _ | .vclen _ _ _ m _ | .vcgtn _ _ _ m _
  | .vcgen _ _ _ m _ | .vfceq _ _ _ m _ | .vfclt _ _ _ m _ | .vfcle _ _ _ m _ | .vfcun _ _ _ m _ | .vmov _ _ m _
  | .vsplat _ _ _ m _ | .vslup _ _ _ m _ | .vsldn _ _ _ m _ | .vrgath _ _ _ m | .vrows _ _ _ m _ | .vcols _ _ _ m _
  | .vroww _ _ _ m _ | .vcolw _ _ _ m _ | .vid _ m | .vcompress _ _ m | .vexpand _ _ m | .viota _ _ m | .vconflict _ _ m
  | .vinter _ _ _ m | .vdelta _ _ _ m | .vsortseg _ _ _ m | .vnz _ _ _ m | .vrsum _ _ m | .vrmin _ _ m | .vrmax _ _ m
  | .vrand _ _ m | .vror _ _ m | .vrxor _ _ m | .vfrsum _ _ m | .vfrmin _ _ m | .vfrmax _ _ m | .vfdot _ _ _ m
  | .vwaitr _ _ m | .vdrop _ m | .vld _ _ m | .vlds _ _ _ m | .vldx _ _ _ m | .vldseg _ _ _ m _ | .vldw _ _ m
  | .vldl _ _ _ m | .vldsc _ _ _ m | .vldrow _ _ m | .vst _ _ m | .vsts _ _ _ m | .vstx _ _ _ m | .vstseg _ _ _ m _
  | .vstc _ _ _ m | .vstsc _ _ _ m | .vstrow _ _ m | .upd _ _ _ m | .tgetr _ _ _ m | .tgetc _ _ _ m | .tsetr _ _ _ m
  | .tsetc _ _ _ m | .tstr _ _ _ _ m | .tstx _ _ _ _ m | .sclaimw _ _ m | .sclaimr _ _ m | .cx _ _ _ _ m _ => m
  | _ => 0

/-- An entry as seen from its place in the window: the strand, and which tags are ripe for it. -/
structure View where
  st : Strand
  en : Entry
  ripe : Stretch → Bool

/-- Bit `e` of a guard is ripe. -/
def View.known (v : View) (m : BitVec 3) (e : Nat) : Bool := m == 0#3 || v.ripe (bitsOf m e 1)
/-- Element `e` is known to be inactive. -/
def View.off (v : View) (m : BitVec 3) (e : Nat) : Bool := m != 0#3 && v.ripe (bitsOf m e 1) && !v.st.mbit m e
/-- Element `e` is known to be active. -/
def View.on (v : View) (m : BitVec 3) (e : Nat) : Bool := m == 0#3 || (v.ripe (bitsOf m e 1) && v.st.mbit m e)
/-- Every bit of a guard below `n` is ripe. -/
def View.settled (v : View) (m : BitVec 3) (n : Nat) : Bool := m == 0#3 || v.ripe (bitsOf m 0 n)

/-! ### Units -/

/-- The units of an entry. Unit `u` belongs to the progress groups `first u` to `last u`. -/
structure Units where
  count : Nat
  /-- The units are elements, which the partial map records (R116). -/
  byElem : Bool := false
  /-- The units are groups of destination elements. -/
  byGroup : Bool := false
  first : Nat → Nat := id
  last : Nat → Nat := first
  /-- What must be ripe before a unit fires (R59 a). -/
  srcs : Nat → List Stretch
  /-- What a unit writes (R54). -/
  dsts : Nat → List Stretch := fun _ => []
  /-- What the entry reads without waiting for ripeness (R187). -/
  peeks : List Stretch := []
  /-- The tail writes (R54). -/
  tails : List Stretch := []
  /-- The unit that completes the entry makes the tail writes with it: where the tail begins depends on the sources. -/
  joint : Bool := false
  /-- The entry does not wait for older writers (R189). -/
  early : Bool := false
  /-- The units fire in ascending order. -/
  ordered : Bool := false
  /-- Unit 0 fires before the others. -/
  lead : Bool := false
  /-- The unit that makes write number `d` of element `e`. -/
  unitOf : Nat → Nat → Nat := fun _ e => e
  /-- The unit to which an event that names element `e` belongs. -/
  at_ : Nat → Nat := id

/-- The tail of a vector register from element `e` on, when the tail is written. -/
def View.vecTail (v : View) (r : BitVec 5) (w e : Nat) : List Stretch :=
  if v.en.tpol then [{ part := .v r, lo := e * (w / 8), len := v.st.grsz.toNat - e * (w / 8) }] else []
/-- The tail of a mask. -/
def View.maskTail (v : View) (r : BitVec 3) (e : Nat) : List Stretch := if v.en.tpol then [bitsOf r e (32768 - e)] else []

/-- Element-wise units under guard `m`: an inactive element needs its mask bit only, and is a destination under MPOL only. -/
def View.elements (v : View) (m : BitVec 3) (n : Nat) (src dst : Nat → List Stretch) (tails : List Stretch) : Units :=
  { count := n, byElem := true, first := (· / 32), tails := tails,
    srcs := fun e => guardAt m e 1 ++ if v.off m e then [] else src e,
    dsts := fun e => if v.off m e && !v.en.mpol then [] else dst e }

/-- Elements of group `g` below `n`. -/
def groupList (n g : Nat) : List Nat := ((List.range 32).map (32 * g + ·)).filter (· < n)

/-- Units that are groups of `n` destination elements; `idle` says which elements the member itself leaves inactive. -/
def View.groups (v : View) (m : BitVec 3) (n : Nat) (idle : Nat → Bool) (src : Nat → List Stretch) (dst : Nat → List Stretch)
    (tails : List Stretch) : Units :=
  { count := v.en.ngrp, byGroup := true, tails := tails,
    srcs := fun g => guardAt m (32 * g) (groupList n g).length ++ src g,
    dsts := fun g => (groupList n g).flatMap fun e => if (v.off m e || idle e) && !v.en.mpol then [] else dst e,
    unitOf := fun _ e => e / 32, at_ := (· / 32) }

/-- One unit, for the entry as a whole. -/
def View.whole (v : View) (src dst : List Stretch) : Units :=
  { count := 1, first := fun _ => 0, last := fun _ => v.en.ngrp - 1, srcs := fun _ => src, dsts := fun _ => dst,
    unitOf := fun _ _ => 0, at_ := fun _ => 0 }

/-- The whole groups of 32 elements of a register that hold elements `lo` to `hi - 1`, as far as they lie below `n`. -/
def groupsAt (r : BitVec 5) (w n lo hi : Nat) : List Stretch :=
  if lo < hi then [vecAt r w (lo / 32 * 32) (Nat.min n ((hi + 31) / 32 * 32) - lo / 32 * 32)] else []

/-- The groups of a register that hold the elements of a list, each once, as far as they lie below `n`. -/
def groupsOfList (r : BitVec 5) (w n : Nat) (l : List Nat) : List Stretch :=
  (l.map (· / 32)).eraseDups.flatMap fun g => groupsAt r w n (32 * g) (32 * g + 1)

/-- Elements of a list that are not known to be inactive. -/
def View.maybe (v : View) (m : BitVec 3) (l : List Nat) : List Nat := l.filter fun e => !v.off m e

/-! ### The classes -/

/-- Elements on the registers of `foot` at the width `w`. -/
def View.lanes (v : View) (f : Foot) (w : Nat) : Units :=
  let m := guardField v.en.ins
  let n := v.en.n
  let u := v.elements m n (fun e => f.vs.map fun r => vecAt r w e 1)
    (fun e => f.vd.map (fun r => vecAt r w e 1) ++ f.md.map fun r => bitsOf r e 1)
    (f.vd.flatMap (fun r => v.vecTail r w n) ++ f.md.flatMap fun r => v.maskTail r n)
  { u with srcs := fun e => f.ms.map (fun r => bitsOf r e 1) ++ if v.off m e then [] else f.vs.map fun r => vecAt r w e 1 }

/-- Prefix groups (R171): group `g` after groups 0 to g of each source. -/
def View.prefixes (v : View) (m : BitVec 3) (src : Nat → List Stretch) (a : BitVec 5) (guarded : Bool) : Units :=
  let n := v.en.n
  let upto := fun g => Nat.min n (32 * g + 32)
  { v.groups (if guarded then m else 0) n (fun _ => false) (fun _ => []) (fun e => [vecAt a v.en.w e 1])
      (v.vecTail a v.en.w n) with
    srcs := fun g => guardAt m 0 (upto g) ++ src (upto g) }

/-- The number of active elements of VCOMPRESS's guard in groups that are ripe, up to group `g`, `k` groups left, until it
reaches `need`; the elements to wait for, or none. -/
def View.reach (v : View) (m : BitVec 3) (n need have_ g : Nat) : Nat → Option Nat
  | 0 => none
  | k + 1 =>
    let l := groupList n g
    if m == 0#3 || v.ripe (bitsOf m (32 * g) l.length) then
      let c := have_ + (l.filter fun e => v.st.active m n e).length
      if need ≤ c then some (Nat.min n (32 * g + 32)) else v.reach m n need c (g + 1) k
    else none

/-- Selection groups (R171, R173). -/
def View.compress (v : View) (a b : BitVec 5) (m : BitVec 3) : Units :=
  let n := v.en.n
  let j := if v.settled m n then activeBelow (v.st.active m n) n else n
  { v.groups 0 j (fun _ => false) (fun _ => []) (fun e => [vecAt a v.en.w e 1]) (v.vecTail a v.en.w j) with
    joint := true, peeks := guardAt m 0 n,
    srcs := fun g =>
      let h := (v.reach m n (32 * g + 32) 0 0 v.en.ngrp).getD n
      guardAt m 0 h ++ [vecAt b v.en.w 0 h] }

/-- Rows (R171, R185). -/
def View.rows (v : View) (a : BitVec 5) (l : List (BitVec 5)) (m : BitVec 3) : Units :=
  let c := v.en.vl.toNat
  { count := v.en.rl.toNat, first := fun r => r * c / 32, last := fun r => (r * c + c - 1) / 32,
    srcs := fun r => guardAt m (r * c) c ++ l.map fun b => vecAt b v.en.w (r * c) c,
    dsts := fun r => [vecAt a v.en.w r 1], tails := v.vecTail a v.en.w v.en.rl.toNat, at_ := (· / c) }

/-- The list of writes of VNZ and VSORTSEG: elements below the number of selected ones, once that is known. -/
def View.selected (v : View) (srcs : List Stretch) (sel : Nat → Bool) (dst : Nat → List Stretch) (tail : Nat → List Stretch) :
    Units :=
  let n := v.en.n
  let j := if srcs.all v.ripe then (activeList sel n).length else n
  { v.whole srcs (dst j) with tails := tail j, joint := true }

/-- The segments of VEMB (R207): for each its first element and the one after its last. -/
def segmentsOf (st : Strand) (m : BitVec 3) (n : Nat) : List (Nat × Nat) :=
  let heads := activeList (isHead st m) n
  heads.zip (heads.drop 1 ++ [n])

/-- The units of VEMB: its segments once the heads and the table are known, else the entry as a whole (R209). -/
def View.segments (v : View) (table : Option Table) (a c d : BitVec 5) (m : BitVec 3) : Units :=
  let n := v.en.n
  let all := [vecAt c 64 0 n, vecAt d 32 0 n] ++ guardAt m 0 n
  let reg : Stretch := { part := .v a, lo := 0, len := v.st.grsz.toNat }
  let l := segmentsOf v.st m n
  match table with
  | some t =>
    if v.settled m n && t.ok && decide (l.length * t.width * 32 ≤ v.st.grsz.toNat * 8) then
      { count := l.length, first := fun i => (l.getD i (0, 1)).1 / 32, last := fun i => ((l.getD i (0, 1)).2 - 1) / 32,
        srcs := fun i =>
          let x := l.getD i (0, 1)
          guardAt m 0 n ++ [vecAt c 64 x.1 (x.2 - x.1), vecAt d 32 x.1 (x.2 - x.1)],
        dsts := fun i => [vecAt a 32 (i * t.width) t.width], tails := v.vecTail a 32 (l.length * t.width), joint := true,
        at_ := fun e => ((l.filter fun x => decide (x.1 ≤ e)).length - 1) }
    else v.whole all [reg]
  | none => v.whole all [reg]

/-- The units of a load: elements into the registers of a list, with the source of the index. -/
def View.load (v : View) (dests : List (BitVec 5)) (m : BitVec 3) (idx : Nat → List Stretch) : Units :=
  v.elements m v.en.n idx (fun e => dests.map fun r => vecAt r v.en.w e 1) (dests.flatMap fun r => v.vecTail r v.en.w v.en.n)

/-- The units of a store: groups, whose active elements need their sources. -/
def View.store (v : View) (m : BitVec 3) (src : Nat → List Stretch) : Units :=
  v.groups m v.en.n (fun _ => false) (fun g => (v.maybe m (groupList v.en.n g)).flatMap src) (fun _ => []) []

/-- The units of a MOP (R229). -/
def View.mop (v : View) (t : BitVec 2) (r m : BitVec 3) (panels : List Stretch) : Units :=
  v.whole ([wholePart (.t t)] ++ guardAt r 0 v.en.mvl.toNat ++ guardAt m 0 v.en.mvl.toNat ++ panels) [wholePart (.t t)]

/-- Elements of a flat panel (R229): cb4 codes lie two to a byte. -/
def View.panel (v : View) (b : BitVec 5) (num den : Nat) : Stretch :=
  let n := rankOf v.en.et * v.en.mvl.toNat * num / den
  if v.en.et = 14 then { part := .v b, lo := 0, len := (n + 1) / 2 } else vecAt b v.en.w 0 n

/-- How many of the active elements below `e` there are is a source of a stochastic conversion (R150). -/
def drawSrcs (m : BitVec 3) (rm : BitVec 5) (e : Nat) : List Stretch := if rm == 7#5 then guardAt m 0 e else []

/-- The index of an index or count operand. -/
def Entry.k (en : Entry) (f : BitVec 2) (c : BitVec 5) : Nat := (op2Of f c).k en.opc

/-- The units of a permutation that fires by group (R168, R169). -/
def View.perm (v : View) : Option Units :=
  let n := v.en.n
  let w := v.en.w
  let vl := v.en.vl.toNat
  let none_ := fun (_ : Nat) => false
  match v.en.ins with
  | .vsplat a b c m f => some (v.groups m n none_ (fun _ => [vecAt b w (v.en.k f c) 1]) (fun e => [vecAt a w e 1]) (v.vecTail a w n))
  | .vslup a b c m f =>
    let k := v.en.k f c
    some (v.groups m n (fun e => decide (e < k))
      (fun g => groupsAt b w n (32 * g - k) (Nat.min n (32 * g + 32) - k)) (fun e => [vecAt a w e 1]) (v.vecTail a w n))
  | .vsldn a b c m f =>
    let k := v.en.k f c
    some (v.groups m n none_ (fun g => groupsAt b w n (32 * g + k) (Nat.min n (32 * g + 32 + k))) (fun e => [vecAt a w e 1])
      (v.vecTail a w n))
  | .vrgath a b c m =>
    some (v.groups m n none_
      (fun g =>
        let l := groupList n g
        let idx := vecAt c w (32 * g) l.length
        idx :: if v.ripe idx then (l.map (v.st.elem c w)).filterMap fun j => if j < n then some (vecAt b w j 1) else none
               else [vecAt b w 0 n])
      (fun e => [vecAt a w e 1]) (v.vecTail a w n))
  | .vrows a b c m f =>
    some (v.groups m vl none_ (fun g => groupsAt b w n (v.en.k f c * vl + 32 * g) (v.en.k f c * vl + Nat.min vl (32 * g + 32)))
      (fun e => [vecAt a w e 1]) (v.vecTail a w vl))
  | .vcols a b c m f =>
    let rl := v.en.rl.toNat
    some (v.groups m rl none_ (fun g => groupsOfList b w n ((groupList rl g).map fun r => r * vl + v.en.k f c))
      (fun e => [vecAt a w e 1]) (v.vecTail a w rl))
  | .vroww a b c m f =>
    let lo := v.en.k f c * vl
    let row := fun e => decide (lo ≤ e) && decide (e < lo + vl)
    some { v.groups m n (fun e => !row e) (fun g => groupsOfList b w n (((groupList n g).filter row).map (· - lo)))
             (fun e => [vecAt a w e 1]) [] with
           dsts := fun g => (groupList n g).flatMap fun e =>
             if row e && !(v.off m e && !v.en.mpol) then [vecAt a w e 1] else [] }
  | .vcolw a b c m f =>
    let col := fun e => e % vl == v.en.k f c
    some { v.groups m n (fun e => !col e) (fun g => groupsOfList b w n (((groupList n g).filter col).map (· / vl)))
             (fun e => [vecAt a w e 1]) [] with
           dsts := fun g => (groupList n g).flatMap fun e =>
             if col e && !(v.off m e && !v.en.mpol) then [vecAt a w e 1] else [] }
  | .vextr _ b c f => some (v.whole [vecAt b w (v.en.k f c) 1] [])
  | .vins a _ c f => some (v.elements 0 n (fun _ => []) (fun e => if e = v.en.k f c then [vecAt a w e 1] else []) [])
  | .vmerge a b c m f =>
    some { v.elements 0 n (fun _ => []) (fun e => [vecAt a w e 1]) (v.vecTail a w n) with
           srcs := fun e => guardAt m e 1 ++ (if v.off m e then [] else (op2Of f c).vs.map fun r => vecAt r w e 1) ++
             if v.on m e then [] else [vecAt b w e 1] }
  | _ => none

/-- The units of a mask or sparse instruction that is not element-wise on registers of one width (R167, R171). -/
def View.sparse (v : View) : Option Units :=
  let n := v.en.n
  let w := v.en.w
  match v.en.ins with
  | .mshup a b _ =>
    some (v.groups 0 n (fun _ => false) (fun g => [bitsOf b (32 * (g - 1)) (Nat.min n (32 * g + 32) - 32 * (g - 1))])
      (fun e => [bitsOf a e 1]) (v.maskTail a n))
  | .mshdn a b _ =>
    some (v.groups 0 n (fun _ => false) (fun g => [bitsOf b (32 * g) (Nat.min n (32 * g + 64) - 32 * g)])
      (fun e => [bitsOf a e 1]) (v.maskTail a n))
  | .mpopc _ b | .mfirst _ b => some (v.whole [bitsOf b 0 n] [])
  | .vcompress a b m => some (v.compress a b m)
  | .vexpand a b m | .vconflict a b m => some (v.prefixes m (fun k => [vecAt b w 0 k]) a true)
  | .viota a b m => some (v.prefixes m (fun k => [bitsOf b 0 k]) a true)
  | .vsegscan a b _ m => some (v.prefixes m (fun k => [vecAt b w 0 k]) a false)
  | .vinter a b c m =>
    some (v.groups m n (fun _ => false) (fun g => groupsAt b w n (32 * g) (Nat.min n (32 * g + 32)) ++ [vecAt c w 0 n])
      (fun e => [vecAt a w e 1]) (v.vecTail a w n))
  | .vdelta a b c m =>
    some { v.elements m n (fun e => [vecAt b w e 1, vecAt c w e 1]) (fun e => [vecAt a w e 1]) (v.vecTail a w n) with
           dsts := fun e => (if v.off m e && !v.en.mpol then [] else [vecAt a w e 1]) ++
             if v.off m e then [] else [vecAt c w e 1] }
  | .vprune48 a b c =>
    some { count := v.en.ngrp, srcs := fun g => [vecAt b w (32 * g) (groupList n g).length],
           dsts := fun g => [vecAt a w (16 * g) ((groupList n g).length / 2), vecAt c 8 (4 * g) ((groupList n g).length / 8)],
           tails := v.vecTail a w (n / 2) ++ v.vecTail c 8 (n / 8),
           unitOf := fun d e => if d = 0 then e / 16 else e / 4, at_ := (· / 32) }
  | .vsortseg a b c m =>
    some (v.selected (guardAt m 0 n ++ [vecAt b w 0 n]) (v.st.active m n) (fun j => [vecAt a w 0 j, vecAt c 32 0 j])
      (fun j => v.vecTail a w j ++ v.vecTail c 32 j))
  | .vnz a b _ m =>
    some (v.selected (guardAt m 0 n ++ [vecAt b w 0 n]) (fun e => v.st.active m n e && nonzero v.en.et (v.st.elem b w e))
      (fun j => [vecAt a 32 0 j]) (fun j => v.vecTail a 32 j))
  | .vrsum a b m | .vrmin a b m | .vrmax a b m | .vrand a b m | .vror a b m | .vrxor a b m | .vfrsum a b m | .vfrmin a b m
  | .vfrmax a b m => some (v.rows a [b] m)
  | .vfdot a b c m => some (v.rows a [b, c] m)
  | .vtagq _ b => some { v.whole [] [] with peeks := [vecAt b w 0 n] }
  | .vwaitr _ b m => some (if n = 0 then v.whole [] [] else v.elements m n (fun e => [vecAt b w e 1]) (fun _ => []) [])
  | .vdrop a m =>
    some { v.elements m n (fun _ => []) (fun e => [vecAt a w e 1]) (v.vecTail a w n) with early := true }
  | .vwfma a b c d m =>
    some (v.elements m n (fun e => [vecAt b w e 1, vecAt c w e 1, vecAt d (2 * w) e 1]) (fun e => [vecAt a (2 * w) e 1])
      (v.vecTail a (2 * w) n))
  | .vcvt a b r m _ d =>
    some { v.elements m n (fun e => vecAt b w e 1 :: drawSrcs m r e) (fun e => [vecAt a (sewOf d.toNat) e 1])
             (v.vecTail a (sewOf d.toNat) n) with peeks := drawSrcs m r n }
  | _ => none

/-- A register is bound to a relay port of a mode (R215). -/
def Strand.relayBound (st : Strand) (send : Bool) (r : BitVec 5) : Bool :=
  st.k.toList.any fun k => k.status.getLsbD 0 && k.mode.getLsbD 5 && k.mode.getLsbD 0 == send && k.reg.toNat == r.toNat

/-- The units of a memory instruction (R192, R193, R201, R204, R205, R209, R216). -/
def View.memory (v : View) (table : Option Table) : Option Units :=
  let n := v.en.n
  let w := v.en.w
  match v.en.ins with
  | .vld a _ m =>
    some (if v.st.relayBound false a then
        { v.elements 0 n (fun _ => []) (fun e => [wholePart (.port false a), vecAt a w e 1]) (v.vecTail a w n) with ordered := true }
      else v.load [a] m fun _ => [])
  | .vlds a _ _ m | .vldw a _ m => some (v.load [a] m fun _ => [])
  | .vldx a _ c m => some (v.load [a] m fun e => [vecAt c 32 e 1])
  | .vldl a _ c m =>
    let U := v.load [a] m fun e => [vecAt c 32 e 1]
    some { U with dsts := fun e => wholePart .links :: U.dsts e, peeks := guardAt m 0 n }
  | .vldsc a _ c m => some { v.load [a] m (fun e => [vecAt c 32 e 1]) with ordered := true }
  | .vldseg a _ _ m f => some (v.load (fieldRegs a f) m fun _ => [])
  | .vrload a _ =>
    let cap := v.st.grsz.toNat * 8 / w
    some { v.elements 0 cap (fun _ => []) (fun e => [vecAt a w e 1]) [] with lead := true }
  | .vldrow a _ m =>
    some { v.whole (guardAt m 0 n) ((List.range n).flatMap fun e => if v.off m e && !v.en.mpol then [] else [vecAt a w e 1]) with
           tails := v.vecTail a w n }
  | .vst a _ m =>
    some (if v.st.relayBound true a then
        { v.store m (fun e => [vecAt a w e 1]) with ordered := true, dsts := fun _ => [wholePart (.port true a)] }
      else v.store m fun e => [vecAt a w e 1])
  | .vsts a _ _ m => some (v.store m fun e => [vecAt a w e 1])
  | .vstx a _ c m => some (v.store m fun e => [vecAt a w e 1, vecAt c 32 e 1])
  | .vstsc a _ c m => some { v.store m (fun e => [vecAt a w e 1, vecAt c 32 e 1]) with ordered := true }
  | .vstc a _ c m =>
    let U := v.groups m n (fun _ => false) (fun _ => []) (fun e => [bitsOf 0 e 1]) (v.maskTail 0 n)
    some { U with
           srcs := fun g =>
             let k := Nat.min n (32 * g + 32)
             guardAt m 0 k ++ (v.maybe m (List.range k)).map (fun e => vecAt c 32 e 1) ++
               (v.maybe m (groupList n g)).map fun e => vecAt a w e 1
           dsts := fun g => wholePart .links :: U.dsts g
           peeks := bitsOf 0 0 n :: guardAt m 0 n }
  | .vstseg a _ _ m f => some (v.store m fun e => (fieldRegs a f).map fun r => vecAt r w e 1)
  | .vrsave a _ =>
    let cap := v.st.grsz.toNat * 8 / w
    some { count := v.en.ngrp, srcs := fun g => [vecAt a w (32 * g) (groupList cap g).length], unitOf := fun _ e => e / 32,
           at_ := (· / 32) }
  | .vstrow a _ m => some (v.whole (guardAt m 0 n ++ (v.maybe m (List.range n)).map fun e => vecAt a w e 1) [])
  | .vemb a _ c d m => some (v.segments table a c d m)
  | _ => none

/-- The unit of a slalom member: it fires once every older one of the strand has completed, its tail writes with it (R267). -/
def View.slalom (v : View) (src dst tails : List Stretch) : Units :=
  { v.whole (wholePart .slalom :: src) (wholePart .slalom :: dst) with tails := tails, joint := true }

/-- The units of an engine's instruction (R227, R229, R235, R238, R251, R267). -/
def View.engine (v : View) : Option Units :=
  let n := v.en.n
  let w := v.en.w
  let vl := v.en.vl.toNat
  match v.en.ins with
  | .upd _ b c m =>
    some (v.elements m n (fun e => [vecAt b 32 e 1, vecAt c w e 1]) (fun _ => []) [])
  | .tzero t => some (v.whole [] [wholePart (.t t)])
  | .tgetr a t _ m | .tgetc a t _ m =>
    some { v.whole (wholePart (.t t) :: guardAt m 0 vl)
             ((List.range vl).flatMap fun e => if v.off m e && !v.en.mpol then [] else [vecAt a w e 1]) with
           tails := v.vecTail a w vl }
  | .tsetr t b _ m | .tsetc t b _ m =>
    some (v.whole (guardAt m 0 vl ++ (v.maybe m (List.range vl)).map fun e => vecAt b w e 1) [wholePart (.t t)])
  | .tstr _ t _ _ m =>
    some { v.store m (fun _ => []) with
           srcs := fun g => wholePart (.t t) :: guardAt m (32 * g) (groupList n g).length }
  | .tstx _ t _ c m =>
    some { v.store m (fun _ => []) with
           srcs := fun g =>
             wholePart (.t t) :: guardAt m (32 * g) (groupList n g).length ++
               (v.maybe m (groupList n g)).map fun e => vecAt c 64 (e / vl) 1 }
  | .mcbld k _ => some (v.whole [] [wholePart (.cb k)])
  | .tfold r t b c m | .tfoldn r t b c m | .tfoldi8 r t b c m | .tfoldf8 r t b c m =>
    some (v.mop t r m [v.panel b 1 1, v.panel c 1 1])
  | .tfoldc4 r t b c m =>
    some (v.mop t r m [v.panel b 1 1, v.panel c 1 1, wholePart (.cb (t.setWidth 3 <<< 1)), wholePart (.cb (t.setWidth 3 <<< 1 ||| 1))])
  | .tfoldsp r t b c d m =>
    some (v.mop t r m [v.panel b 1 2, v.panel c 1 1, vecAt d 8 0 (rankOf v.en.et * v.en.mvl.toNat / 8)])
  | .sclaimw _ c m | .sclaimr _ c m =>
    some (v.slalom (guardAt m 0 n ++ [vecAt c 32 0 n]) [] [])
  | .swave a b => some (v.slalom [bitsOf b 0 n] [bitsOf a 0 n] (v.maskTail a n))
  | .sretire b => some (v.slalom [bitsOf b 0 n] [] [])
  | .sclear | .spend _ => some (v.slalom [] [] [])
  | .acopy .. => some (v.whole [] [wholePart .copies])
  | .vbind .. | .vunbind .. | .vbpos .. | .vbset .. | .relay .. | .vprog .. => some (v.whole [] [])
  | _ => none

/-- The units of an entry that stands in a window. An entry at VL 0 reads and writes nothing (R36). -/
def View.units (v : View) (table : Option Table) : Units :=
  if v.en.vl == 0#32 then
    match v.en.ins with
    | .mcbld k _ => v.whole [] [wholePart (.cb k)]
    | .acopy .. => v.whole [] [wholePart .copies]
    | _ => v.whole [] []
  else
    (((v.perm.orElse fun _ => v.sparse).orElse fun _ => v.memory table).orElse fun _ => v.engine).getD
      (v.lanes v.en.foot v.en.w)

end Sys2Proof.Machine
end

