-- ==== Sys2Proof/Machine/Streams.lean ====
section
/-! DEFINITION. Bound registers: the implicit fill before a reader and the implicit append after a writer (R147, R212,
R213). -/

namespace Sys2Proof.Machine

/-- Outcome of a sequence of element accesses. -/
inductive Ran where
  | done (s : State)
  /-- A fault at an element, with the entry's progress. -/
  | stop (s : State) (en : Entry) (cause : BitVec 8) (tval : Word) (elem : Nat)
  /-- The gang is killed, at an element. -/
  | kill (s : State) (reason : Word) (elem : Nat)
  /-- The entry waits, with its progress. -/
  | wait (s : State) (en : Entry)

/-- A bound stream slot of a direction: 0 read, 1 write. -/
def Slot.isStream (k : Slot) (write : Bool) : Bool :=
  k.status.getLsbD 0 && !k.mode.getLsbD 5 && k.mode.getLsbD 0 == write

/-- The number of the stream slot to which a register is bound in a direction. -/
def Strand.streamSlot (st : Strand) (write : Bool) (r : BitVec 5) : Option Nat :=
  (List.range 8).find? fun i =>
    let k := st.k.toList.getD i Slot.unbound
    k.isStream write && k.reg.toNat == r.toNat

/-- Vector registers that an entry reads, and writes, each once. -/
def Entry.vsrc (en : Entry) : List (BitVec 5) := en.foot.vs.eraseDups
def Entry.vdst (en : Entry) : List (BitVec 5) := en.foot.vd.eraseDups

/-- A slot of a strand. -/
def Strand.slotAt (st : Strand) (i : Nat) : Slot := st.k.toList.getD i Slot.unbound

/-- Change a slot. -/
def Strand.setSlot (st : Strand) (i : Nat) (f : Slot → Slot) : Strand :=
  { st with k := Vector.ofFn fun j => if j.val = i then f (st.slotAt i) else st.slotAt j.val }

/-- The two classes of R202 and R212: integer, and FP with FP storage. -/
def sameClass (f t : Nat) : Bool := isInt f == isInt t

/-- STRIDE as a signed distance. -/
def Slot.step (k : Slot) : Word := k.stride.signExtend 64

/-- Value of an E8M0 scale byte (R147). -/
def scaleVal (x : Nat) : Val := if x = 255 then .nan true else .fin false 1 ((x : Int) - 127)

/-- A stream value under its scale: the exact product, rounded once into `t` (R147); a NaN scale gives the canonical NaN and
NV. -/
def scaled1 (t : Nat) (v : Val) (x : Nat) : Res :=
  if x = 255 then resNaN (fmtOf t) flagNV
  else
    let p := mulVal v (scaleVal x)
    let r := valToFp t .rne true p.1
    ⟨r.bits, r.fl ||| p.2⟩

/-- The stored unit of stream element `i`: its bits and the etype they are read as (R148, R212). -/
def readStream (s : State) (k : Slot) (i : Nat) : Acc (Nat × Nat) :=
  if k.format == 14#8 then
    match s.load (k.base + BitVec.ofNat 64 (i / 2) * k.step) 1 with
    | .ok s1 b =>
      let cb := s1.cur.cb.toList.getD (k.mode.extractLsb' 2 3).toNat 0
      .ok s1 (bitsAt cb.toNat 16 (bitsAt b 4 (i % 2)), 9)
    | .trap c t => .trap c t
    | .kill s1 r => .kill s1 r
  else
    match s.load (k.base + BitVec.ofNat 64 i * k.step) (sewOf k.format.toNat / 8) with
    | .ok s1 b => .ok s1 (b, k.format.toNat)
    | .trap c t => .trap c t
    | .kill s1 r => .kill s1 r

/-- The value of stream element `i` as etype `t`. -/
def fillValue (s : State) (k : Slot) (t i : Nat) : Acc Res :=
  if k.length.toNat ≤ i then .ok s ⟨0, 0⟩
  else
    match readStream s k i with
    | .trap c a => .trap c a
    | .kill s1 r => .kill s1 r
    | .ok s1 (x, f) =>
      if k.mode.getLsbD 1 then
        match s1.load (k.scaleBase + BitVec.ofNat 64 (i / 32)) 1 with
        | .trap c a => .trap c a
        | .kill s1 r => .kill s1 r
        | .ok s2 b => .ok s2 (scaled1 t (unpack (fmtOf f) x) b)
      else .ok s1 (convert f t .rne true x)

/-- Fill elements `e` on, `n` of them left, of register `r` from stream element `i` on. A conversion raises its flags whether or
not the entry's guard has the element active (DESIGN CHOICE, log 78). -/
def fillFrom (en : Entry) (k : Slot) (r : BitVec 5) (s : State) (i e : Nat) : Nat → Ran
  | 0 => .done s
  | n + 1 =>
    match fillValue s k en.et i with
    | .trap c a => .stop s en c a e
    | .kill s1 x => .kill s1 x e
    | .ok s1 x => fillFrom en k r (s1.upd fun st => (st.put (.v r) en.w e x.bits).raise x.fl) (i + 1) (e + 1) n

/-- The first stream element of an entry's fill or append: PROGRESS less what it and the younger entries that use the
register have requested (R212). -/
def streamStart (st : Strand) (i : Nat) (later : List Entry) (uses : Entry → Bool) : Nat :=
  (st.slotAt i).progress.toNat - ((later.filter uses).map Entry.n).sum

/-- The fills of an entry's elements `e` on, `n` of them, for the registers of a list. `later` is the entry with its younger
ones. -/
def fills (en : Entry) (later : List Entry) (e n : Nat) (s : State) : List (BitVec 5) → Ran
  | [] => .done s
  | r :: t =>
    match s.cur.streamSlot false r with
    | none => fills en later e n s t
    | some i =>
      match fillFrom en (s.cur.slotAt i) r s ((streamStart s.cur i later fun x => x.foot.vs.contains r) + e) e n with
      | .done s1 => fills en later e n s1 t
      | x => x

/-! ### Writes of a group -/

/-- One write of a store: its place, its size in bytes and its value. -/
structure Span where
  loc : Loc
  n : Nat
  x : Nat
  deriving DecidableEq, Repr

/-- A span covers a byte of device memory. -/
def Span.covers (x : Span) (pa : Nat) : Bool :=
  match x.loc with
  | .dev a => decide (a ≤ pa) && decide (pa < a + x.n)
  | .host _ => false

/-- A write that covers whole sectors clears their poison (R20). -/
def State.clearCovered (s : State) (l : List Span) : State :=
  { s with poison := s.poison.filter fun p => !(List.range 64).all fun i => l.any (·.covers (64 * p.1 + i)) }

/-- Writes made as one group, in order (R193, R198). -/
def writeSpans (s : State) (l : List Span) : State :=
  (l.foldl (fun s x => s.writeLoc s.cur.agent x.loc x.n x.x) s).clearCovered l

/-- A group of writes can perform later than it is accepted: its strand is in that mode, and the writes go to device memory, to
no poisoned sector (DESIGN CHOICE, log 25). -/
def State.maySlow (s : State) (l : List Span) : Bool :=
  s.cur.slow && s.cur.ahead && l.all fun x =>
    match x.loc with
    | .dev pa => !s.poisoned pa
    | .host _ => false

/-- A write of an entry of a strip as it is owed. -/
def Span.owed (strip : Nat) (x : Span) : LateStore :=
  { addr := match x.loc with
      | .dev pa => pa
      | .host a => a,
    n := x.n, val := x.x, vec := true, strip := strip }

/-- A group of writes is accepted: it performs now, or later (R193). -/
def acceptSpans (strip : Nat) (s : State) (l : List Span) : State :=
  if s.maySlow l then s.upd fun st => { st with late := st.late ++ l.map (Span.owed strip) } else writeSpans s l

/-! ### Appends -/

/-- Address of stream element `i` of a write slot. -/
def Slot.addr (k : Slot) (i : Nat) : Word := k.base + BitVec.ofNat 64 i * k.step

/-- The first fault of an append of elements `e` on, `n` of them, as stream elements `i` on. -/
def appendFault (s : State) (k : Slot) (i e : Nat) : Nat → Option (Nat × BitVec 8 × Word)
  | 0 => none
  | n + 1 =>
    if k.length.toNat ≤ i then none
    else
      match s.place (k.addr i) (sewOf k.format.toNat / 8) .write with
      | .error c => some (e, c, k.addr i)
      | .ok _ => appendFault s k (i + 1) (e + 1) n

/-- Element `e` of an entry is active, as its flags go (R53, R151, R168). -/
def Strand.counts (st : Strand) (en : Entry) (e : Nat) : Bool :=
  st.active (guardField en.ins) en.n e &&
  match en.ins with
  | .vslup _ _ c _ f => decide (en.k f c ≤ e)
  | _ => true

/-- Element `e` of register `r` as its stream stores it. -/
def appendValue (en : Entry) (k : Slot) (r : BitVec 5) (st : Strand) (e : Nat) : Res :=
  convert en.et k.format.toNat .rne true (st.elem r en.w e)

/-- The writes of elements `e` on, `n` left, of register `r` as stream elements `i` on. -/
def appendSpans (en : Entry) (k : Slot) (r : BitVec 5) (s : State) (i e : Nat) : Nat → List Span
  | 0 => []
  | n + 1 =>
    if k.length.toNat ≤ i then []
    else
      let sz := sewOf k.format.toNat / 8
      match s.place (k.addr i) sz .write with
      | .ok l => ⟨l, sz, (appendValue en k r s.cur e).bits⟩ :: appendSpans en k r s (i + 1) (e + 1) n
      | .error _ => appendSpans en k r s (i + 1) (e + 1) n

/-- Append elements `e` to `e + n - 1` of register `r` to slot `i`, the entry's element 0 being stream element `start`: one
group of writes (R193, R213). Only active elements set flags (R151). -/
def appendGroup (en : Entry) (e n : Nat) (s : State) (x : BitVec 5 × Nat × Nat) : State :=
  let k := s.cur.slotAt x.2.1
  let fl := ((List.range n).map (e + ·)).foldl (fun (fl : Flags) j =>
    if s.cur.counts en j && decide (x.2.2 + j < k.length.toNat) then fl ||| (appendValue en k x.1 s.cur j).fl else fl) 0
  (acceptSpans en.strip s (appendSpans en k x.1 s (x.2.2 + e) e n)).upd fun st => st.raise fl

/-- The registers of a list that are bound for writing, with slot and first stream element. -/
def appendsOf (st : Strand) (later : List Entry) (regs : List (BitVec 5)) : List (BitVec 5 × Nat × Nat) :=
  regs.filterMap fun r =>
    match st.streamSlot true r with
    | none => none
    | some i => some (r, i, streamStart st i later fun x => x.foot.vd.contains r)

/-- The first fault among the appends of elements `e` on, `n` of them: a group fires once its append has translated (DESIGN
CHOICE, log 20). -/
def appendsFault (s : State) (e n : Nat) : List (BitVec 5 × Nat × Nat) → Option (Nat × BitVec 8 × Word)
  | [] => none
  | (_, i, a) :: t =>
    match appendFault s (s.cur.slotAt i) (a + e) e n with
    | some x => some x
    | none => appendsFault s e n t

/-- Make the appends of elements `e` on, `n` of them. -/
def appends (s : State) (en : Entry) (e n : Nat) (l : List (BitVec 5 × Nat × Nat)) : State :=
  l.foldl (appendGroup en e n) s

/-! ### Checks at entry (R212, R213) -/

/-- A bound register of a list makes the instruction a TYPE trap. -/
def streamType (st : Strand) (t : Nat) (write : Bool) (regs : List (BitVec 5)) : Bool :=
  regs.any fun r =>
    match st.streamSlot write r with
    | none => false
    | some i => t == 14 || !sameClass (st.slotAt i).format.toNat t

/-- The slot whose PROGRESS would pass 2^32 − 1. -/
def streamOver (st : Strand) (n : Nat) (write : Bool) (regs : List (BitVec 5)) : Option Nat :=
  regs.findSome? fun r =>
    match st.streamSlot write r with
    | none => none
    | some i => if (st.slotAt i).progress.toNat + n > 2 ^ 32 - 1 then some i else none

/-- Advance PROGRESS for the bound registers of a list. -/
def bumpStreams (st : Strand) (n : Nat) (write : Bool) (regs : List (BitVec 5)) : Strand :=
  regs.foldl (fun st r =>
    match st.streamSlot write r with
    | none => st
    | some i => st.setSlot i fun k => { k with progress := k.progress + BitVec.ofNat 32 n }) st

end Sys2Proof.Machine
end

