-- ==== Sys2Proof/Machine/Hazards.lean ====
section
/-! DEFINITION. When a unit of a window entry may fire as far as registers go: what the older entries leave unripe, owe and
still read (R58, R59, R110, R171, R189, R212, R213), and which units fire as one act. -/

namespace Sys2Proof.Machine

/-! ### Progress in units -/

/-- The progress groups of a unit. -/
def Units.span (U : Units) (u : Nat) : List Nat := (List.range (U.last u + 1 - U.first u)).map (U.first u + ·)

/-- Unit `u` of an entry has fired. -/
def Units.hasFired (U : Units) (en : Entry) (u : Nat) : Bool :=
  if U.byElem then en.fired u else en.over || en.fires.contains u || (U.span u).any en.groupDone

/-- The units of an entry that have not fired. -/
def Units.left (U : Units) (en : Entry) : List Nat := (List.range U.count).filter fun u => !U.hasFired en u

/-- The progress of an entry in which exactly the units that satisfy `f` have fired (R65, R116, R171). -/
def Units.progress (U : Units) (en : Entry) (f : Nat → Bool) : Entry :=
  if U.byElem then en.progress U.count true f
  else
    let x := en.progressOf fun g => (List.range U.count).all fun u => f u || decide (g < U.first u) || decide (U.last u < g)
    { x with fires := (List.range U.count).filter fun u => f u && !(U.span u).any x.groupDone }

/-! ### Versions that an entry has replaced (R58, R159) -/

/-- Bits `lo` on, `n` of them, of `x` replaced by those of `y`. -/
def mergeBits (x y lo n : Nat) : Nat := x - x / 2 ^ lo % 2 ^ n * 2 ^ lo + y / 2 ^ lo % 2 ^ n * 2 ^ lo

/-- The tags that a kept piece stands for. -/
def Held.stretch (h : Held) : Stretch :=
  { part := if h.mask then .m (BitVec.ofNat 3 h.reg) else .v (BitVec.ofNat 5 h.reg), lo := h.lo, len := h.len }

/-- The bytes or bits of a stretch as a strand has them. -/
def heldOf (st : Strand) (d : Stretch) : Option Held :=
  match d.part with
  | .v r => some { mask := false, reg := r.toNat, lo := d.lo, len := d.len, val := st.vbits r / 2 ^ (8 * d.lo) % 2 ^ (8 * d.len) }
  | .m r => some { mask := true, reg := r.toNat, lo := d.lo, len := d.len, val := st.mbits r / 2 ^ d.lo % 2 ^ d.len }
  | _ => none

/-- A kept piece in its place. -/
def Held.put (h : Held) (st : Strand) : Strand :=
  if h.mask then
    let r := BitVec.ofNat 3 h.reg
    st.setMbits r (mergeBits (st.mbits r) (h.val * 2 ^ h.lo) h.lo h.len)
  else
    let r := BitVec.ofNat 5 h.reg
    st.setVbits r (mergeBits (st.vbits r) (h.val * 2 ^ (8 * h.lo)) (8 * h.lo) (8 * h.len))

/-- The registers as an entry reads them: what its own units have replaced stands there as before (R159). -/
def Entry.reading (en : Entry) (st : Strand) : Strand := en.olds.foldl (fun st h => h.put st) st

/-- What is left of the stretches of a list outside the kept pieces of an entry. -/
def Entry.unkept (en : Entry) (l : List Stretch) : List Stretch :=
  en.olds.foldl (fun l h => l.flatMap (·.minus h.stretch)) l

/-! ### Bound registers -/

/-- Registers that an entry reads, or writes, while a stream is bound to them. -/
def Entry.fillRegs (st : Strand) (en : Entry) : List (BitVec 5) := en.vsrc.filter fun r => (st.streamSlot false r).isSome
def Entry.appendRegs (st : Strand) (en : Entry) : List (BitVec 5) := en.vdst.filter fun r => (st.streamSlot true r).isSome

/-- The fill of a stream makes element `u` with unit `u`: in an element-wise entry that no stop has interrupted and whose units
read and write the register element by element, but for a UPD, whose pairs need every element. Any other entry makes its
fills as a whole, before its first unit (DESIGN CHOICE, log 56). -/
def Units.fillsByElem (U : Units) (st : Strand) (en : Entry) : Bool :=
  U.byElem && !en.restored &&
  (match en.ins with
   | .upd .. => false
   | _ => true) &&
  (en.fillRegs st).all fun r => (List.range U.count).all fun u => (U.srcs u ++ U.dsts u).all fun t =>
    t.part != .v r || t == vecAt r en.w u 1

/-- The elements that the fills of an entry make before unit `u`: the first of them and their number. -/
def Units.fillAt (U : Units) (st : Strand) (en : Entry) (u : Nat) : Nat × Nat :=
  if U.fillsByElem st en then (u, 1) else if en.filled then (0, 0) else (0, en.n)

/-- The elements that are appended with unit `u`: its own, those of its group, or, of an entry that fires neither by element
nor by group or whose tail depends on its sources, all of them (DESIGN CHOICE, log 58). -/
def Units.appendAt (U : Units) (en : Entry) (u : Nat) : Nat × Nat :=
  if U.joint then (0, en.n)
  else if U.byElem then (u, 1)
  else if U.byGroup then (32 * u, Nat.min 32 (en.n - 32 * u))
  else (0, en.n)

/-- What a unit or the tail writes to appended elements that are not its own: an element of another width, or a tail that
begins below `N`. -/
def Units.spreads (U : Units) (st : Strand) (en : Entry) : Bool :=
  (en.appendRegs st).any fun r =>
    U.tails.any (·.meets (vecAt r en.w 0 en.n)) ||
    (List.range U.count).any fun u => (U.dsts u).any fun d =>
      d.part == .v r && !(d.minus (vecAt r en.w (U.appendAt en u).1 (U.appendAt en u).2)).isEmpty

/-- The units of an entry seen from its place. Where its writes spread over the elements that it appends, all of them are
appended with the last unit (DESIGN CHOICE, log 58). -/
def View.seated (v : View) (table : Option Table) : Units :=
  let U := v.units table
  if U.spreads v.st v.en then { U with joint := true } else U

/-- What the appends of unit `u` read: every element, active or not (R213). -/
def Units.appendSrcs (U : Units) (st : Strand) (en : Entry) (u : Nat) : List Stretch :=
  (en.appendRegs st).map fun r => vecAt r en.w (U.appendAt en u).1 (U.appendAt en u).2

/-- The codebooks that the fills of an entry read. -/
def Entry.books (st : Strand) (en : Entry) : List Stretch :=
  (en.fillRegs st).filterMap fun r =>
    match st.streamSlot false r with
    | some i =>
      if (st.slotAt i).format == 14#8 then some (wholePart (.cb ((st.slotAt i).mode.extractLsb' 2 3))) else none
    | none => none

/-! ### Older entries -/

/-- What the entries before a place in the window leave to be done. -/
structure Hazard where
  /-- Tags that are not ripe in the versions read from here on (R58). -/
  unripe : List Stretch
  /-- What older entries have still to write (R59 c). -/
  owed : List Stretch
  /-- What older entries have not consumed (R59 b, R110). -/
  read : List Stretch
  /-- An SC access has not completed (R94). -/
  sc : Bool

/-- With no older entry everything is ripe. -/
def Hazard.clear : Hazard := { unripe := [], owed := [], read := [], sc := false }

/-- An SC access (R94). -/
def isSc (i : Instr) : Bool :=
  match i with
  | .vldsc .. | .vstsc .. => true
  | _ => false

/-- The instruction forms pairs. -/
def Entry.pairing (en : Entry) : Option (BitVec 5 × BitVec 5 × BitVec 3) :=
  match en.ins with
  | .upd _ b c m => if en.vl == 0#32 then none else some (b, c, m)
  | _ => none

/-- The table descriptor that an entry names, as memory holds it now (R208). -/
def State.tableFor (s : State) (en : Entry) : Option Table :=
  match en.ins with
  | .vemb .. =>
    match s.load en.opb 64 with
    | .ok _ x => some (tableOf x)
    | _ => none
  | _ => none

/-- An entry as seen after some older ones: what its fills are to give it is not known before they are made. -/
def Hazard.view (h : Hazard) (st : Strand) (en : Entry) : View :=
  { st := en.reading st, en := en,
    ripe := fun x => apart [x] h.unripe && (en.filled || (en.fillRegs st).all fun r => x.part != .v r) }

/-- Writes that an entry has still to make. -/
def Units.writesLeft (U : Units) (st : Strand) (en : Entry) : List Stretch :=
  if en.over then []
  else
    (U.left en).flatMap U.dsts ++ (if en.tailDone then [] else U.tails) ++
    (en.fillRegs st).flatMap fun r =>
      if U.fillsByElem st en then (U.left en).map fun u => vecAt r en.w u 1
      else if en.filled then [] else [vecAt r en.w 0 en.n]

/-- Sources that an entry has not consumed: those of units whose groups are not complete, but for what it keeps itself. A VDROP keeps its guard until it
retires, since what it has written must stay known as long as an older writer may come after it (DESIGN CHOICE, log 57). -/
def Units.readsLeft (U : Units) (st : Strand) (en : Entry) : List Stretch :=
  if U.early then (List.range U.count).flatMap U.srcs
  else if en.over then []
  else
    en.unkept (((List.range U.count).filter fun u => !(U.span u).all en.groupDone).flatMap U.srcs ++ U.peeks) ++
    ((List.range U.count).filter fun u => !(U.span u).all en.groupDone).flatMap (U.appendSrcs st en) ++ en.books st

/-- What an entry that does not wait for older writers has written (R189). -/
def Units.overlay (U : Units) (en : Entry) : List Stretch :=
  if U.early then
    ((List.range U.count).filter (U.hasFired en)).flatMap U.dsts ++ if en.tailDone then U.tails else []
  else []

/-- The hazards after one more entry. -/
def Hazard.pass (h : Hazard) (st : Strand) (en : Entry) (U : Units) : Hazard :=
  let writes := U.writesLeft st en
  { unripe := writes ++ (U.overlay en).foldl (fun l d => l.flatMap (·.minus d)) h.unripe, owed := writes ++ h.owed,
    read := U.readsLeft st en ++ h.read, sc := h.sc || (isSc en.ins && !en.over) }

/-- An entry in its place: its units and what stands before it. -/
structure Seat where
  en : Entry
  units : Units
  before : Hazard

/-- The entries of a list in their places. -/
def seatsFrom (s : State) (h : Hazard) : List Entry → List Seat
  | [] => []
  | en :: t =>
    let U := (h.view s.cur en).seated (s.tableFor en)
    { en := en, units := U, before := h } :: seatsFrom s (h.pass s.cur en U) t

/-- The window of the strand in focus. -/
def State.seats (s : State) : List Seat := seatsFrom s Hazard.clear s.cur.window

/-- The hazards after all entries of a list. -/
def hazardsAfter (s : State) (h : Hazard) : List Entry → Hazard
  | [] => h
  | en :: t => hazardsAfter s (h.pass s.cur en ((h.view s.cur en).seated (s.tableFor en))) t

/-- An entry with nothing before it. -/
def State.headSeat (s : State) (en : Entry) : Seat :=
  { en := en, units := (Hazard.clear.view s.cur en).seated (s.tableFor en), before := Hazard.clear }

/-- What entries after position `k` have written that did not wait for it. -/
def State.overlays (s : State) (k : Nat) : List Stretch :=
  (s.cur.window.drop (k + 1)).flatMap fun en => ((Hazard.clear.view s.cur en).seated none).overlay en

/-- The bytes of a stretch as an earlier strand has them. -/
def Strand.keep (old st : Strand) (d : Stretch) : Strand :=
  match d.part with
  | .v r => st.setVbits r (mergeBits (st.vbits r) (old.vbits r) (8 * d.lo) (8 * d.len))
  | _ => st

/-- An older entry's writes lie below those of younger entries that did not wait for it (R189). -/
def State.under (s old : State) (k : Nat) : State := s.upd fun st => (old.overlays k).foldl (Strand.keep old.cur) st

/-! ### Readiness (R59) -/

/-- Two lists of stretches name a common part. -/
def sharePart (a b : List Stretch) : Bool := a.any fun x => b.any fun y => x.part == y.part

/-- A unit writes what another unit of the entry reads: the entry then keeps what it still reads there (R159). -/
def Seat.clash (x : Seat) : Bool :=
  let us := List.range x.units.count
  if x.units.byElem then
    us.any fun u => (x.units.dsts u).any fun d => (x.units.srcs u).any fun t => d.part == t.part && d != t
  else decide (1 < x.units.count) && sharePart (us.flatMap x.units.dsts) (us.flatMap x.units.srcs)

/-- The entry `en`, which seat `x` has become by firing on the registers of `st`, keeps what its units have replaced and others
of them have still to read. -/
def Seat.hold (x : Seat) (st : Strand) (en : Entry) : Entry :=
  if x.clash then
    let left := x.units.left en
    let read := left.flatMap x.units.srcs
    let now := ((x.units.left x.en).filter (x.units.hasFired en)).flatMap x.units.dsts
    { en with olds := if left.isEmpty then []
                      else x.en.olds ++ (x.en.unkept (now.filter fun d => !apart [d] read)).filterMap (heldOf st) }
  else en

/-- The units that fire with unit `u`: those of its group where the group is appended to a stream (DESIGN CHOICE, log 58). -/
def Seat.act (x : Seat) (st : Strand) (u : Nat) : List Nat :=
  let bound := !(x.en.appendRegs st).isEmpty && x.units.byElem
  (x.units.left x.en).filter fun w => w == u || (bound && w / 32 == u / 32)

/-- What unit `u` writes, fills included. -/
def Seat.writes (x : Seat) (st : Strand) (u : Nat) : List Stretch :=
  let f := x.units.fillAt st x.en u
  x.units.dsts u ++ (x.en.fillRegs st).map fun r => vecAt r x.en.w f.1 f.2

/-- What unit `u` needs: its sources, but for those that its own fills give, the codebooks of the fills, and what it appends
without writing it. -/
def Seat.needs (x : Seat) (st : Strand) (u : Nat) : List Stretch :=
  x.en.unkept ((x.en.fillRegs st).foldl (fun l r => l.flatMap (·.minus (vecAt r x.en.w 0 x.en.n))) (x.units.srcs u)) ++
  x.en.books st ++
  (x.units.dsts u).foldl (fun l d => l.flatMap (·.minus d)) (x.units.appendSrcs st x.en u)

/-- Writes may be made: (b) and (c). -/
def Seat.mayWrite (x : Seat) (l : List Stretch) : Bool := apart l x.before.read && (x.units.early || apart l x.before.owed)

/-- Group `g` lies in the window of groups (R65). -/
def Entry.inReach (en : Entry) (g : Nat) : Bool := decide (g ≤ en.pidx + 256)

/-- The groups of unit `u` lie in the window of groups. A unit that holds group p makes p advance when it fires, however far
it reaches (DEDUCED, log 72). -/
def Seat.near (x : Seat) (u : Nat) : Bool := decide (x.units.first u ≤ x.en.pidx) || x.en.inReach (x.units.last u)

/-- Units `us`, in ascending order, keep to the window of groups: p advances as they fire. -/
def Seat.reaches (x : Seat) (us : List Nat) : Bool :=
  us.all fun u => x.near u || (x.units.left x.en).all fun w => decide (u ≤ w) || us.contains w

/-- Unit `u` is ready as far as registers go: (a) to (c), and R94. -/
def Seat.ripe (x : Seat) (st : Strand) (u : Nat) : Bool :=
  decide (u < x.units.count) && !x.units.hasFired x.en u && !x.before.sc && apart (x.needs st u) x.before.unripe &&
  x.mayWrite (x.writes st u)

/-- It is ready, and lies in the window of groups. -/
def Seat.ready (x : Seat) (st : Strand) (u : Nat) : Bool := x.near u && x.ripe st u

/-- Units `us` fire in the order that the entry's units keep among themselves. -/
def Seat.inOrder (x : Seat) (us : List Nat) : Bool :=
  let past := fun w => x.units.hasFired x.en w || us.contains w
  (!x.units.ordered || us.all fun u => (List.range u).all past) && (!x.units.lead || past 0)

/-- An act leaves no unit to fire. -/
def Seat.completes (x : Seat) (us : List Nat) : Bool := (x.units.left x.en).all us.contains

/-- The tail writes may be made: with the last unit, or after it (R54). -/
def Seat.tailReady (x : Seat) : Bool := !x.before.sc && x.mayWrite x.units.tails

end Sys2Proof.Machine
end

