-- ==== Sys2Proof/Machine/Order.lean ====
section
/-! DEFINITION. The memory accesses that window entries have still to make, and the order among them (R86, R91, R92, R94,
R194). -/

namespace Sys2Proof.Machine

/-! ### What a unit accesses -/

/-- An access by virtual address, or a read of the weight store. -/
inductive Touch where
  | mem (va : Word) (n : Nat) (k : Kind)
  | weights
  deriving DecidableEq, Repr

/-- The accesses of elements that may be active: one each, by address. -/
def touchAll (k : Kind) (n : Nat) (addr : Nat → Word) (l : List Nat) : List Touch := l.map fun e => .mem (addr e) n k

/-- The accesses of a list of elements through an index register: known once their indices are ripe. -/
def View.indexed (v : View) (k : Kind) (c : BitVec 5) (l : List Nat) : Option (List Touch) :=
  if l.all fun e => v.ripe (vecAt c 32 e 1) then some (touchAll k (v.en.w / 8) (indexAddr v.st c v.en) l) else none

/-- The fields of a record. -/
def View.fields (v : View) (k : Kind) (mt : BitVec 4) (f : BitVec 3) (l : List Nat) : List Touch :=
  l.flatMap fun e => (List.range (f.toNat + 1)).map fun i => .mem (fieldAddr v.en mt (f.toNat + 1) i e) (sewOf mt.toNat / 8) k

/-- The address of element `e` of a whole-register image (R204). -/
def imageAddr (en : Entry) (e : Nat) : Word := en.opb + 64 + BitVec.ofNat 64 (e * (en.w / 8))

/-- The header of an image goes with element 0. -/
def imageTouch (k : Kind) (en : Entry) (l : List Nat) : List Touch :=
  (if l.contains 0 then [.mem en.opb 64 k] else []) ++ touchAll k (en.w / 8) (imageAddr en) l

/-- The rows that elements `lo` to `hi - 1` of a VEMB read, with the descriptor (R208, R209). -/
def View.tableRows (v : View) (t : Table) (c : BitVec 5) (lo hi : Nat) : Option (List Touch) :=
  if v.ripe (vecAt c 64 lo (hi - lo)) then
    some (.mem v.en.opb 64 .read :: ((List.range (hi - lo)).map (lo + ·)).flatMap fun e => (List.range t.ntab).flatMap fun j =>
      (List.range t.width).map fun x => .mem (t.addr j (v.st.elem c 64 e) x) t.fs .read)
  else none

/-- The accesses of unit `u` of an entry on its own account, as far as they are known. Relay sends and receives go on their
own path and make none here. -/
def View.touches (v : View) (table : Option Table) (u : Nat) : Option (List Touch) :=
  let en := v.en
  let n := en.n
  let sz := en.w / 8
  let one := fun m => v.maybe m [u]
  let group := fun m => v.maybe m (groupList n u)
  if en.vl == 0#32 then
    match en.ins with
    | .mcbld .. => some [.mem en.opb 32 .read]
    | _ => some []
  else
  match en.ins with
  | .vld a _ m => some (if v.st.relayBound false a then [] else touchAll .read sz (unitAddr en) (one m))
  | .vlds _ _ _ m => some (touchAll .read sz (strideAddr en) (one m))
  | .vldx _ _ c m | .vldl _ _ c m | .vldsc _ _ c m => v.indexed .read c (one m)
  | .vldseg _ _ t m f => some (v.fields .read t f (one m))
  | .vldw _ _ m => some ((one m).map fun _ => .weights)
  | .vrload _ _ => some (imageTouch .read en [u])
  | .vldrow .. => some [.mem en.opb (n * sz) .read]
  | .vst a _ m => some (if v.st.relayBound true a then [] else touchAll .write sz (unitAddr en) (group m))
  | .vsts _ _ _ m => some (touchAll .write sz (strideAddr en) (group m))
  | .vstx _ _ c m | .vstsc _ _ c m | .vstc _ _ c m => v.indexed .write c (group m)
  | .vstseg _ _ t m f => some (v.fields .write t f (group m))
  | .vrsave _ _ => some (imageTouch .write en (groupList (v.st.grsz.toNat * 8 / en.w) u))
  | .vstrow .. => some [.mem en.opb (n * sz) .write]
  | .vemb _ _ c _ m =>
    match table with
    | none => some [.mem en.opb 64 .read]
    | some t =>
      if v.settled m n then
        let x := (segmentsOf v.st m n).getD u (0, n)
        v.tableRows t c x.1 x.2
      else none
  | .tstr _ _ _ _ m =>
    some (touchAll .write sz (fun e => en.opb + BitVec.ofNat 64 (e / en.vl.toNat) * en.opc + BitVec.ofNat 64 (e % en.vl.toNat * sz))
      (group m))
  | .tstx _ _ _ c m =>
    if (group m).all fun e => v.ripe (vecAt c 64 (e / en.vl.toNat) 1) then
      some (touchAll .write sz (fun e => en.opb + BitVec.ofNat 64 (v.st.elem c 64 (e / en.vl.toNat)) +
        BitVec.ofNat 64 (e % en.vl.toNat * sz)) (group m))
    else none
  | .mcbld .. => some [.mem en.opb 32 .read]
  | _ => some []

/-! ### Streams -/

/-- The reads of a fill of elements `e` on, `n` of them, from a slot whose first element for the entry is `start` (R212). -/
def fillTouches (k : Slot) (start e n : Nat) : List Touch :=
  ((List.range n).map (start + e + ·)).flatMap fun i =>
    if k.length.toNat ≤ i then []
    else
      (if k.format == 14#8 then Touch.mem (k.base + BitVec.ofNat 64 (i / 2) * k.step) 1 .read
       else .mem (k.base + BitVec.ofNat 64 i * k.step) (sewOf k.format.toNat / 8) .read) ::
      if k.mode.getLsbD 1 then [.mem (k.scaleBase + BitVec.ofNat 64 (i / 32)) 1 .read] else []

/-- The writes of an append of elements `e` on, `n` of them (R213). -/
def appendTouches (k : Slot) (start e n : Nat) : List Touch :=
  (((List.range n).map (start + e + ·)).filter (· < k.length.toNat)).map fun i =>
    .mem (k.addr i) (sewOf k.format.toNat / 8) .write

/-- The stream accesses of unit `u`; `later` is the entry with its younger ones. -/
def streamTouches (st : Strand) (x : Seat) (later : List Entry) (u : Nat) : List Touch :=
  let f := x.units.fillAt st x.en u
  let a := x.units.appendAt x.en u
  (x.en.fillRegs st).flatMap (fun r =>
    match st.streamSlot false r with
    | some i => fillTouches (st.slotAt i) (streamStart st i later fun y => y.foot.vs.contains r) f.1 f.2
    | none => []) ++
  (x.en.appendRegs st).flatMap fun r =>
    match st.streamSlot true r with
    | some i => appendTouches (st.slotAt i) (streamStart st i later fun y => y.foot.vd.contains r) a.1 a.2
    | none => []

/-! ### Places -/

/-- Bytes at a place, or the weight store. -/
inductive Place where
  | bytes (l : Loc) (n : Nat)
  | weights
  deriving DecidableEq, Repr

/-- Two accesses have a byte in common. -/
def Place.meets (a b : Place) : Bool :=
  match a, b with
  | .bytes (.dev x) n, .bytes (.dev y) m | .bytes (.host x) n, .bytes (.host y) m => decide (x < y + m) && decide (y < x + n)
  | _, _ => false

/-- Where an access goes; none when it does not translate. -/
def State.placeOf (s : State) (t : Touch) : Option Place :=
  match t with
  | .weights => some .weights
  | .mem va n k =>
    match s.translate s.cur va k with
    | .ok (l, _) => some (.bytes l n)
    | .error _ => none

/-- All places of a list, or none when one does not translate. -/
def State.placesOf (s : State) (l : List Touch) : Option (List Place) :=
  if l.all fun t => (s.placeOf t).isSome then some (l.filterMap s.placeOf) else none

/-- What unit `u` of an entry accesses, as far as it is known. -/
def State.touchesOf (s : State) (x : Seat) (later : List Entry) (u : Nat) : Option (List Touch) :=
  ((x.before.view s.cur x.en).touches (s.tableFor x.en) u).map fun l => l ++ streamTouches s.cur x later u

/-- The accesses that an entry has still to make, unit by unit: none for those not yet known. -/
def State.pendingOf (s : State) (x : Seat) (later : List Entry) : List (Option (List Place)) :=
  if x.en.over then [] else (x.units.left x.en).map fun u => (s.touchesOf x later u).bind s.placesOf

/-- The same for every entry of the window. -/
def State.pendings (s : State) : List (Nat × List (Option (List Place))) :=
  s.seats.zipIdx.map fun p => (p.1.en.strip, s.pendingOf p.1 (s.cur.window.drop p.2))

/-- An entry has no access left. -/
def quietList (l : List (Option (List Place))) : Bool := l.all fun o => o == some []

/-- An access to the places of a list may not pass a pending one. -/
def blocks (l : List Place) (o : Option (List Place)) : Bool :=
  match o with
  | none => true
  | some p => p.any fun a => l.any a.meets

/-- The writes of a list. -/
def writesOf (l : List Touch) : List Touch :=
  l.filter fun t =>
    match t with
    | .mem _ _ .write => true
    | _ => false

/-- Its reads by address. -/
def readsOf (l : List Touch) : List Touch :=
  l.filter fun t =>
    match t with
    | .mem _ _ .read => true
    | _ => false

/-- Units `us` write no byte that a lower unit of their entry has still to write: the writes of one entry to the same bytes go
in ascending order of its elements (R198, R213). -/
def State.ascends (s : State) (x : Seat) (later : List Entry) (us : List Nat) : Bool :=
  let mine := us.map fun u => ((s.touchesOf x later u).map writesOf).bind s.placesOf
  mine.all (· == some []) ||
  (x.units.left x.en).all fun w =>
    us.all (· < w) || us.contains w ||
    let theirs := ((s.touchesOf x later w).map writesOf).bind s.placesOf
    theirs == some [] || mine.all fun o =>
      match o with
      | none => false
      | some l => !blocks l theirs

/-- No other strand stands on the core of the strand in focus: nobody else is in core scope (R87). -/
def State.alone (s : State) : Bool := s.others.all fun st => st.phase != .resident || st.core != s.cur.core

/-- Where a write that is owed goes. -/
def LateStore.place (x : LateStore) : Place := .bytes (.dev x.addr) x.n

/-- An access of strip `strip` to the places of a list may be made before a write that is owed: other bytes, and, as the core's
strands see it, no earlier strip (R91, R92). -/
def State.passes (s : State) (strip : Nat) (l : List Place) (x : LateStore) : Bool :=
  !l.any x.place.meets && (!x.vec || x.strip == strip || s.alone)

/-- The same for the accesses that an entry of strip `q.1` has still to make. -/
def State.goesBefore (s : State) (strip : Nat) (l : List Place) (q : Nat × List (Option (List Place))) : Bool :=
  (q.1 == strip || s.alone || quietList q.2) && !q.2.any (blocks l)

/-- The VEC accesses of units `us` of the entry at position `k` may be made before what older entries have left and what is
owed: same bytes in program order, earlier strips first as the core's strands see it, an SC access after everything (R91, R92,
R94), and in the order of their own entry. Where an address depends on a fill that is made with the unit, everything older comes
first. -/
def State.memReady (s : State) (k : Nat) (x : Seat) (us : List Nat) : Bool :=
  let later := s.cur.window.drop k
  let mine := us.map (s.touchesOf x later)
  let places := (mine.flatMap (·.getD [])).filterMap s.placeOf
  let after := isSc x.en.ins || mine.any Option.isNone
  (!after && mine.all (· == some [])) ||
  ((s.pendings.take k).all fun p => if after then quietList p.2 else s.goesBefore x.en.strip places p) &&
  (s.cur.late.all fun y => !after && s.passes x.en.strip places y) && s.ascends x later us

/-- An append of the entry may meet a read of its own: the append follows the instruction, so that no read of it sees the
append (R91, R213). -/
def State.crosses (s : State) (x : Seat) (later : List Entry) : Bool :=
  !(x.en.appendRegs s.cur).isEmpty &&
  let left := x.units.left x.en
  let writes := left.flatMap fun u => (writesOf (streamTouches s.cur x later u)).filterMap s.placeOf
  left.any fun u => blocks writes ((s.touchesOf x later u).bind fun l => s.placesOf (readsOf l))

/-- The units that fire with unit `u` of an entry: those of its act, or all that are left. -/
def State.actOf (s : State) (x : Seat) (later : List Entry) (u : Nat) : List Nat :=
  if s.crosses x later then x.units.left x.en else x.act s.cur u

/-- The act of unit `u` at position `k` is ready (R59 to R62, R91 to R94). -/
def State.actReady (s : State) (k : Nat) (x : Seat) (u : Nat) : Bool :=
  let us := s.actOf x (s.cur.window.drop k) u
  us.contains u && us.all (x.ripe s.cur) && x.reaches us && x.inOrder us && (!(x.units.joint && x.completes us) || x.tailReady) && s.memReady k x us

/-! ### Scalar accesses and fences -/

/-- No SC access is in the window (R94). -/
def State.noSc (s : State) : Bool := s.cur.window.all fun en => !isSc en.ins || en.over

/-- A scalar access to the bytes at a virtual address waits for no window access (R91, R94). -/
def State.scalarFree (s : State) (va : Word) (n : Nat) (k : Kind) : Bool :=
  s.noSc &&
  match s.placeOf (.mem va n k) with
  | none => true
  | some p => s.pendings.all fun q => !q.2.any (blocks [p])

/-- The VEC read of `n` bytes that an instruction makes at its entry waits for no window access (R91, R92, R94). -/
def State.vecFree (s : State) (va : Word) (n : Nat) : Bool :=
  s.noSc &&
  let l := (s.placeOf (.mem va n .read)).toList
  s.pendings.all (s.goesBefore s.cur.strip l) && s.cur.late.all (s.passes s.cur.strip l)

/-- No older linked load or conditional store is in the window (R61, R95). -/
def State.linksDone (s : State) : Bool := apart [wholePart .links] (hazardsAfter s Hazard.clear s.cur.window).owed

/-- No access is pending, as an SC access wants it (R94). -/
def State.accessesDone (s : State) : Bool := s.noSc && s.cur.late.isEmpty && s.pendings.all fun q => quietList q.2

/-- A VEC access that has not performed may go to device memory or the weight store, or to host memory (R86). -/
def State.vecBusy (s : State) : Bool :=
  s.cur.late.any (·.vec) || s.pendings.any fun q => q.2.any fun o =>
    match o with
    | none => true
    | some l => l.any fun p =>
      match p with
      | .bytes (.host _) _ => false
      | _ => true
def State.hostBusy (s : State) : Bool :=
  s.pendings.any fun q => q.2.any fun o =>
    match o with
    | none => true
    | some l => l.any fun p =>
      match p with
      | .bytes (.host _) _ => true
      | _ => false

end Sys2Proof.Machine
end

