-- ==== Sys2Proof/Machine/Window.lean ====
section
/-! DEFINITION. The window: entry of an instruction with its checks, and the running of an entry (R36, R39, R40, R59 to R65,
R107 to R110, R157, R158, R191 to R193).

By default the strand runs in the order of R61: an instruction that enters an empty window runs at once, wholly, and
retires. A fault or a wait leaves it in the window with its progress. -/

namespace Sys2Proof.Machine

/-- A load: its destination registers with their element widths, which elements are active, and the access of one element. -/
structure LoadPlan where
  dests : List (BitVec 5 × Nat)
  n : Nat
  act : Nat → Bool
  /-- The values of element `e` for the destinations, with the flags of the conversions. -/
  get : State → Nat → Acc (List Nat × Flags)
  /-- What comes once, before the first active element performs. -/
  first : State → State := id

/-- A store: which elements are active, the writes of an element or its fault, and the flags of its conversions. -/
structure StorePlan where
  n : Nat
  /-- A fault of the access as a whole, at element 0. -/
  fault : Option (BitVec 8 × Word) := none
  act : Nat → Bool
  spans : State → Nat → Except (BitVec 8 × Word) (List Span)
  fl : Nat → Flags := fun _ => 0

/-- How an instruction takes effect. -/
inductive Body where
  /-- On registers alone. -/
  | regs (eff : Strand → Entry → Eff)
  /-- On registers, with a new SRSEED from the elements that have fired (R116, R150). -/
  | drawn (eff : Strand → Entry → Eff) (seed : Strand → Entry → (Nat → Bool) → BitVec 32)
  | load (plan : Strand → Entry → LoadPlan)
  | store (plan : Strand → Entry → StorePlan)
  /-- A value for its g register, sampled among the older entries. -/
  | sample (f : State → Entry → List Entry → Word)
  /-- As one act. -/
  | run (f : State → Entry → Ran)
  /-- Unit by unit, on the registers as they were before the first of them, with the tail writes that follow the last one. -/
  | parts (f : Strand → State → Entry → Nat → Ran) (tails : State → Entry → Strand → Strand)
  /-- In one of two ways. -/
  | cond (c : State → Entry → Bool) (x y : Body)

/-- The way that holds now. -/
def Body.resolve (s : State) (en : Entry) : Body → Body
  | .cond c x y => if c s en then x.resolve s en else y.resolve s en
  | b => b

/-- The operands that an entry latches, for fields A, B, C and D (R64). -/
structure Latch where
  opa : Word
  opb : Word
  opc : Word
  opd : Word

/-- A windowed instruction: its checks at entry and its effect. -/
structure WOp where
  ins : Instr
  /-- g registers latched at entry. -/
  gsrc : List (BitVec 5)
  /-- Cause and TVAL of an own check that precedes the others (R239, R250). -/
  pre : State → Option (BitVec 8 × Word) := fun _ => none
  /-- A vector memory access: its etype set lies in codes 0 to 14 (R191). -/
  access : Bool := false
  /-- At VL 0 it makes no check here (R191, R250, R266). -/
  skips0 : Bool := access
  /-- The etype set (R51). -/
  etypes : Nat → Bool := fun _ => true
  /-- The shape check fails. -/
  shape : Strand → Bool := fun _ => false
  /-- The causes that follow SHAPE (R191). -/
  cause : State → Acc Unit := fun s => .ok s ()
  /-- The effect does not depend on VL (R36). -/
  anyVl : Bool := false
  /-- The operands of fields A, B, C and D to latch. -/
  latch : Strand → Latch := fun _ => ⟨0, 0, 0, 0⟩
  /-- Groups covered. -/
  ngrp : Strand → Nat := fun st => groupsOf st.nElems
  /-- What entering changes besides the window. -/
  onEnter : Strand → Strand := id
  /-- The instruction is held outside the window. -/
  holds : State → Bool := fun _ => false
  /-- After its checks it is held outside the window (R297). -/
  waits : Strand → Bool := fun _ => false
  body : Body

/-! ### Running an entry -/

/-- The results of a load's active element, as its access gives them. -/
def LoadPlan.land (p : LoadPlan) (e : Nat) (x : List Nat × Flags) (st : Strand) : Strand :=
  ((p.dests.zip x.1).foldl (fun (st : Strand) d => st.put (.v d.1.1) d.1.2 e d.2) st).raise x.2

/-- The zero writes of a load's inactive element. -/
def LoadPlan.zero (p : LoadPlan) (en : Entry) (e : Nat) (st : Strand) : Strand :=
  if en.mpol then p.dests.foldl (fun st d => st.put (.v d.1) d.2 e 0) st else st

/-- No active element of a load has fired. -/
def LoadPlan.fresh (p : LoadPlan) (en : Entry) : Bool := (List.range p.n).all fun e => !(p.act e && en.fired e)

/-- A load's elements from `e` on, `k` of them left; `fresh` says that no active element has performed. -/
def loadFrom (p : LoadPlan) (en : Entry) (fresh : Bool) (s : State) (e : Nat) : Nat → Ran
  | 0 => .done (if fresh then p.first s else s)
  | k + 1 =>
    if en.fired e then loadFrom p en fresh s (e + 1) k
    else if p.act e then
      match p.get (if fresh then p.first s else s) e with
      | .ok s1 x => loadFrom p en false (s1.upd (p.land e x)) (e + 1) k
      | .trap c t => .stop s (en.progress p.n true fun x => en.fired x || decide (x < e)) c t e
      | .kill s1 r => .kill s1 r e
    else loadFrom p en fresh (s.upd (p.zero en e)) (e + 1) k

/-- The tail writes of a load. -/
def LoadPlan.tails (p : LoadPlan) (en : Entry) (st : Strand) : Strand :=
  p.dests.foldl (fun st d => st.writeTail en { reg := .v d.1, w := d.2, upto := p.n, val := fun _ => none, tail := some p.n })
    st

/-- The writes of a list of active elements, lowest first, or the first fault among them. -/
def spansOf (p : StorePlan) (s : State) : List Nat → Except (Nat × BitVec 8 × Word) (List Span)
  | [] => .ok []
  | e :: t =>
    match p.spans s e with
    | .error x => .error (e, x)
    | .ok l =>
      match spansOf p s t with
      | .error x => .error x
      | .ok r => .ok (l ++ r)

/-- The active elements of group `g`. -/
def groupElems (p : StorePlan) (g : Nat) : List Nat :=
  ((List.range 32).map fun i => 32 * g + i).filter fun e => p.act e && decide (e < p.n)

/-- The places that groups above `g` have already written: the bytes keep the values of those higher elements (R198). -/
def laterPlaces (p : StorePlan) (s : State) (en : Entry) (g : Nat) : List Loc :=
  (((List.range en.ngrp).filter fun h => decide (g < h) && en.groupDone h).flatMap (groupElems p)).flatMap fun e =>
    match p.spans s e with
    | .ok l => l.map (·.loc)
    | .error _ => []

/-- The writes that group `g` has to make. -/
def groupSpans (p : StorePlan) (s : State) (en : Entry) (g : Nat) : Except (Nat × BitVec 8 × Word) (List Span) :=
  match p.fault, spansOf p s (groupElems p g) with
  | some x, _ => .error (0, x)
  | none, .error x => .error x
  | none, .ok l => .ok (if en.done == 0#256 then l else l.filter fun x => !(laterPlaces p s en g).contains x.loc)

/-- The writes of group `g` of a store are accepted, and its conversions raise their flags. -/
def StorePlan.write (p : StorePlan) (en : Entry) (g : Nat) (l : List Span) (s : State) : State :=
  (acceptSpans en.strip s l).upd fun st => st.raise ((groupElems p g).foldl (fun f e => f ||| p.fl e) 0)

/-- A store's groups from `g` on, `k` of them left. -/
def storeFrom (p : StorePlan) (en : Entry) (s : State) (g : Nat) : Nat → Ran
  | 0 => .done s
  | k + 1 =>
    if en.groupDone g then storeFrom p en s (g + 1) k
    else
      match groupSpans p s en g with
      | .error (e, c, t) => .stop s (en.progress p.n false fun x => en.groupDone (x / 32) || decide (x / 32 < g)) c t e
      | .ok l => storeFrom p en (p.write en g l s) (g + 1) k

/-- Write the g register of an entry through the return queue (R40). -/
def Strand.returnG (st : Strand) (en : Entry) (x : Option Word) : Strand :=
  match en.gpend, x with
  | some r, some w => st.wg r w
  | _, _ => st

/-- Nothing of an entry has fired. -/
def Entry.untouched (en : Entry) : Bool := en.pidx == 0 && en.done == 0#256 && en.part == 0#8224 && en.fires.isEmpty

/-- What an effect does that is left to do. -/
def fireLeft (s : State) (en : Entry) (x : Eff) : Strand → Strand :=
  if en.untouched then x.fire fun _ => true
  else
    let U := (s.headSeat en).units
    x.fireBy fun d e => !U.hasFired en (U.unitOf d e)

/-- Units of a body in parts, each with the entry as the ones before leave it. -/
def partsFrom (f : State → Entry → Nat → Ran) (U : Units) (s : State) (en : Entry) : List Nat → Ran
  | [] => .done s
  | u :: t =>
    match f s en u with
    | .done s1 => partsFrom f U s1 (U.progress en fun x => U.hasFired en x || x == u) t
    | .stop s1 _ c v e => .stop s1 en c v e
    | .kill s1 r e => .kill s1 r e
    | .wait s1 _ => .wait s1 en

/-- What interrupts a run keeps, of the versions that it has replaced, what is still to be read (R159). -/
def Ran.holding (x : Seat) (st : Strand) (r : Ran) : Ran :=
  match r with
  | .stop s en c v e => .stop s (x.hold st en) c v e
  | .wait s en => .wait s (x.hold st en)
  | y => y

/-- Units of a body in parts that stand in a seat. -/
def runParts (f : Strand → State → Entry → Nat → Ran) (x : Seat) (s : State) (us : List Nat) : Ran :=
  (partsFrom (f (x.en.reading s.cur)) x.units s x.en us).holding x s.cur

/-- The body of an entry, all of it that is left. -/
def runBody (b : Body) (s : State) (en : Entry) (older : List Entry) : Ran :=
  match b with
  | .regs eff =>
    let x := eff (en.reading s.cur) en
    if en.vl == 0#32 then .done (s.upd fun st => st.returnG en x.g)
    else .done (s.upd fun st => (x.tails en (fireLeft s en x st)).returnG en x.g)
  | .drawn eff seed =>
    let x := eff (en.reading s.cur) en
    if en.vl == 0#32 then .done s
    else .done (s.upd fun st => { x.tails en (fireLeft s en x st) with srseed := seed st en fun _ => true })
  | .load plan =>
    let p := plan (en.reading s.cur) en
    if en.vl == 0#32 then .done s
    else
      match loadFrom p en (p.fresh en) s 0 p.n with
      | .done s1 => .done (s1.upd (p.tails en))
      | x => x.holding (s.headSeat en) s.cur
  | .store plan =>
    let p := plan s.cur en
    if en.vl == 0#32 then .done s else storeFrom p en s 0 en.ngrp
  | .sample f => .done (s.upd fun st => st.returnG en (some (f s en older)))
  | .run f => f s en
  | .parts f tails =>
    if en.vl == 0#32 then .done s
    else
      let x := s.headSeat en
      match runParts f x s (x.units.left en) with
      | .done s1 => .done (s1.upd (tails s1 en))
      | x => x
  | .cond c x y => if c s en then runBody x s en older else runBody y s en older

/-! ### Acts -/

/-- The progress of an entry after an act on the registers of `st`. -/
def Seat.after (x : Seat) (st : Strand) (us : List Nat) : Entry :=
  x.hold st { x.units.progress x.en fun u => x.units.hasFired x.en u || us.contains u with
    filled := x.en.filled || !x.units.fillsByElem st x.en }

/-- Elements of a load, in the order of a list. -/
def loadEach (p : LoadPlan) (en : Entry) (fresh : Bool) (s : State) : List Nat → Ran
  | [] => .done s
  | e :: t =>
    if p.act e then
      match p.get (if fresh then p.first s else s) e with
      | .ok s1 x => loadEach p en false (s1.upd (p.land e x)) t
      | .trap c v => .stop s en c v e
      | .kill s1 r => .kill s1 r e
    else loadEach p en fresh (s.upd (p.zero en e)) t

/-- Groups of a store, in the order of a list. -/
def storeEach (p : StorePlan) (en : Entry) (s : State) : List Nat → Ran
  | [] => .done s
  | g :: t =>
    match groupSpans p s en g with
    | .error (e, c, v) => .stop s en c v e
    | .ok l => storeEach p en (p.write en g l s) t

/-- The units of a list of an entry's body. -/
def unitsBody (b : Body) (s : State) (x : Seat) (older : List Entry) (us : List Nat) : Ran :=
  let en := x.en
  match b with
  | .regs eff =>
    let y := eff (en.reading s.cur) en
    if en.vl == 0#32 then .done (s.upd fun st => st.returnG en y.g)
    else
      .done (s.upd fun st => (y.fireBy (fun d e => us.contains (x.units.unitOf d e)) st).returnG en
        (if x.completes us then y.g else none))
  | .drawn eff seed =>
    let y := eff (en.reading s.cur) en
    if en.vl == 0#32 then .done s
    else
      .done (s.upd fun st => { y.fireBy (fun d e => us.contains (x.units.unitOf d e)) st with
        srseed := seed st en fun e => x.units.hasFired en e || us.contains e })
  | .load plan =>
    let p := plan (en.reading s.cur) en
    if en.vl == 0#32 then .done s
    else
      match loadEach p en (p.fresh en) s us with
      | .done s1 => .done (if x.completes us && !(List.range p.n).any p.act then p.first s1 else s1)
      | .stop s1 _ c t e =>
        if !(en.appendRegs s.cur).isEmpty then .stop s en c t e
        else .stop s1 (x.after s.cur (us.takeWhile fun u => u != e)) c t e
      | r => r
  | .store plan => if en.vl == 0#32 then .done s else storeEach (plan s.cur en) en s us
  | .sample f => .done (s.upd fun st => st.returnG en (some (f s en older)))
  | .run f => f s en
  | .parts f _ => if en.vl == 0#32 then .done s else runParts f x s us
  | .cond c y z => if c s en then unitsBody y s x older us else unitsBody z s x older us

/-- The tail writes of a body; at VL 0 there are none (R36). -/
def Body.tails (b : Body) (s : State) (en : Entry) (st : Strand) : Strand :=
  if en.vl == 0#32 then st else
  match b with
  | .regs eff | .drawn eff _ => (eff (en.reading s.cur) en).tails en st
  | .load plan => (plan (en.reading s.cur) en).tails en st
  | .parts _ tails => tails s en st
  | .cond c x y => if c s en then x.tails s en st else y.tails s en st
  | _ => st

/-- What the units of a list of entries have written. -/
def writtenBy (st : Strand) (l : List Entry) : List Stretch :=
  l.flatMap fun en =>
    let U := (Hazard.clear.view st en).seated none
    ((List.range U.count).filter (U.hasFired en)).flatMap U.dsts ++ if en.tailDone then U.tails else []

/-- The fills that come before the units of a list. Those that a restored entry makes again lie below what it and younger entries
have written already (R212). -/
def fillAct (x : Seat) (later : List Entry) (s : State) (us : List Nat) : Ran :=
  let regs := x.en.fillRegs s.cur
  if x.units.fillsByElem s.cur x.en then
    us.foldl (fun r u =>
      match r with
      | .done s1 => fills x.en later u 1 s1 regs
      | y => y) (.done s)
  else if x.en.filled || regs.isEmpty then .done s
  else
    match fills x.en later 0 x.en.n s regs with
    | .done s1 => .done (if x.en.restored then s1.upd fun st => (writtenBy s.cur later).foldl (Strand.keep s.cur) st else s1)
    | y => y

/-- The registers on which the units of an act fire: its fills are made. -/
def Seat.base (x : Seat) (later : List Entry) (s : State) (us : List Nat) : Strand :=
  if x.clash && !(x.en.fillRegs s.cur).isEmpty then
    match fillAct x later s us with
    | .done s1 => s1.cur
    | _ => s.cur
  else s.cur

/-- The stretches of elements that are appended after the units of a list: first element and number. -/
def Seat.appended (x : Seat) (us : List Nat) : List (Nat × Nat) :=
  if !x.units.joint && (x.units.byElem || x.units.byGroup) then
    (us.map fun u => if x.units.byElem then u / 32 else u).eraseDups.map fun g => (32 * g, Nat.min 32 (x.en.n - 32 * g))
  else if x.completes us then [(0, x.en.n)] else []

/-- An act: its fills, its units, with `tail` the tail writes, as the sources stood before the units fired, and the appends of
what it completes. A fault leaves as they were the elements and the memory that it has not reached. -/
def runAct (op : WOp) (s : State) (x : Seat) (older later : List Entry) (us : List Nat) (tail : Bool) : Ran :=
  match fillAct x later s us with
  | .done s1 =>
    let aps := appendsOf s1.cur later (x.en.appendRegs s1.cur)
    let spans := x.appended us
    match spans.findSome? fun r => appendsFault s1 r.1 r.2 aps with
    | some (e, c, t) => .stop s x.en c t e
    | none =>
      match unitsBody op.body s1 x older us with
      | .done s2 =>
        .done (spans.foldl (fun s r => appends s x.en r.1 r.2 aps) (if tail then s2.upd (op.body.tails s1 x.en) else s2))
      | y => y
  | .stop _ en c t e => .stop s en c t e
  | y => y

/-- A register of the entry is bound to a stream. -/
def streamBound (st : Strand) (en : Entry) : Bool := !(en.fillRegs st).isEmpty || !(en.appendRegs st).isEmpty

/-- What is left of an entry with bound registers, act by act, in ascending order. -/
def runActs (op : WOp) (later : List Entry) (s : State) (en : Entry) : Nat → Ran
  | 0 => .done (s.upd (op.body.tails s en))
  | k + 1 =>
    let x := s.headSeat en
    match x.units.left en with
    | [] => .done (s.upd (op.body.tails s en))
    | u :: _ =>
      let us := s.actOf x later u
      match runAct op s x [] later us (x.completes us) with
      | .done s1 => if x.completes us then .done s1 else runActs op later s1 (x.after (x.base later s us) us) k
      | .stop s1 _ c t e => .stop s1 en c t e
      | .wait s1 _ => .wait s1 en
      | y => y

/-- A UPD with bound registers: its fills are made, and its pairs are formed from all that is left (R212, R251). -/
def runFilled (op : WOp) (later : List Entry) (s : State) (en : Entry) : Ran :=
  match fillAct (s.headSeat en) later s [] with
  | .done s1 => runBody op.body s1 { en with filled := true } []
  | y => y

/-- An entry with its fills and appends, between the `older` entries and `later`, itself with the younger ones. -/
def runEntry (op : WOp) (s : State) (en : Entry) (older later : List Entry) : Ran :=
  if en.over then .done s
  else if streamBound s.cur en && en.pairing.isSome then runFilled op later s en
  else if streamBound s.cur en then runActs op later s en ((s.headSeat en).units.count + 1)
  else runBody op.body s en older

/-- What a run of the window's oldest entry leads to: it retires (R63), the strand traps (R108), or it waits. -/
def settle (rest : List Entry) (r : Ran) : Out :=
  match r with
  | .done s => .next (s.upd fun st => { st with window := rest, wcount := 0 })
  | .stop s en c t e =>
    let d : Detected := { cause := c, tval := t, elem := BitVec.ofNat 32 e }
    let s1 := s.upd fun st => { st with window := { en with detected := some d } :: rest }
    .next (s1.trap { cause := c, tepc := s1.cur.pc, tval := t, elem := e, win := some 0, async := false, step := false })
  | .kill s r e => .next (s.killSelf r e)
  | .wait s en => .next (s.upd fun st => { st with window := en :: rest })

/-- What a run has done lies below what younger entries have written that did not wait for it. -/
def Ran.under (r : Ran) (old : State) : Ran :=
  match r with
  | .done s => .done (s.under old 0)
  | .stop s en c t e => .stop (s.under old 0) en c t e
  | .wait s en => .wait (s.under old 0) en
  | y => y

/-- Run the oldest entry of the window with its operation. -/
def runHead (op : WOp) (s : State) : Out :=
  match s.cur.window with
  | [] => .next s
  | [en] => settle [] (runEntry op s en [] [en])
  | en :: rest => settle rest ((runEntry op s en [] s.cur.window).under s)

/-! ### Entering the window -/

/-- The entry that an instruction makes, with all its latches (R63, R64). -/
def entryFor (op : WOp) (st : Strand) : Entry :=
  let l := op.latch st
  { word := (encode op.ins).getD 0, ins := op.ins, gpend := gDest op.ins, tailDone := false, vl := st.vl,
    rl := st.rl.setWidth 16, vtype := st.vtype.setWidth 16, opb := l.opb, opc := l.opc, opd := l.opd, pidx := 0,
    ngrp := op.ngrp st, frm := st.frm, repro := st.repro == 1#1, mvl := st.mvl, tet := st.tetype, opa := l.opa, done := 0,
    part := 0, detected := none, adm := 0, streamed := 0, fires := [], olds := [], strip := st.strip, filled := false, restored := false,
    gvlen := st.gvlen, image := st.imageFor op.ins, sample := st.sampleFor op.ins }

/-- No place in the window or in the return queue (R39). -/
def noPlace (op : WOp) (st : Strand) : Bool :=
  decide (16 ≤ st.window.length) ||
  ((gDest op.ins).isSome && decide (8 ≤ (st.window.filter fun e => e.gpend.isSome).length))

/-- The instruction enters: its streams advance, the pc goes on. -/
def enter (op : WOp) (st : Strand) : Strand :=
  let en := entryFor op st
  let st1 := op.onEnter (bumpStreams (bumpStreams st en.n false en.vsrc) en.n true en.vdst)
  { st1 with window := st1.window ++ [en], pc := st1.pc + 4 }

/-- After entry: an instruction alone in the window of a strand in order runs at once. -/
def afterEntry (op : WOp) (s : State) : Out :=
  if s.cur.ahead || decide (1 < s.cur.window.length) || s.cur.stepping then .next s else runHead op s

/-- Streams past their last number, else entry (R212, R213). Of the causes of R191's last step RELAY and WS_BUSY come before
this BIND (DESIGN CHOICE, log 59). -/
def enterChecked (op : WOp) (live : Bool) (s : State) : Out :=
  let n := s.cur.nElems
  let f := s.cur.foot op.ins
  let past := (streamOver s.cur n false f.vs.eraseDups).orElse fun _ => streamOver s.cur n true f.vd.eraseDups
  match (if live then past else none) with
  | some k => trapAt s causeBind (BitVec.ofNat 64 k)
  | none => afterEntry op (s.upd (enter op))

/-- A windowed instruction at the front end: waits, then the checks at entry in their order, then entry (R157, R158, R191,
R212). Where an instruction is no vector memory access the spec gives the TYPE of a bound register no place among the others:
it comes before SHAPE (DESIGN CHOICE, log 59). -/
def issue (op : WOp) (s : State) : Out :=
  awaitG (op.gsrc ++ (gDest op.ins).toList) s <|
    if noPlace op s.cur || op.holds s then .next (s.stall false)
    else
      let t := s.cur.vtype.toNat % 16
      let live := s.cur.vl != 0#32
      let f := s.cur.foot op.ins
      match op.pre s with
      | some (c, v) => trapAt s c v
      | none =>
      if (live || !op.skips0) && (!op.etypes t || (op.access && t == 15)) then trapWord s causeType op.ins
      else if (live || !op.skips0) && (streamType s.cur t false f.vs || streamType s.cur t true f.vd) then trapWord s causeType op.ins
      else if (live || op.anyVl) && op.shape s.cur then trapWord s causeShape op.ins
      else
        match (if live || op.anyVl then op.cause s else .ok s ()) with
        | .trap c v => trapAt s c v
        | .kill s1 r => .next (s1.killSelf r 0)
        | .ok s1 _ => if op.waits s.cur then .next (s.stall false) else enterChecked op live s1

/-- The mask that a guard selects. -/
def Entry.act (en : Entry) (st : Strand) (m : BitVec 3) (e : Nat) : Bool := st.active m en.n e

end Sys2Proof.Machine
end

