-- ==== Sys2Proof/Machine/ScalarMemory.lean ====
section
/-! DEFINITION. Scalar loads and stores (R129), linked and sequentially consistent accesses (R94 to R97, R136). -/

namespace Sys2Proof.Machine

/-- A scalar access waits for the accesses to its bytes that window entries have still to make, and for SC accesses (R91,
R94). -/
def awaitMem (va : Word) (n : Nat) (w : Kind) (s : State) (k : Out) : Out :=
  if s.scalarFree va n w then k else .next (s.stall false)

/-- A scalar SC access waits for every access that window entries have still to make (R94). -/
def awaitAll (s : State) (k : Out) : Out := if s.accessesDone then k else .next (s.stall false)

/-- A linked or conditional access waits for the older ones of the window (R61, R95). -/
def awaitLinks (s : State) (k : Out) : Out := if s.linksDone then k else .next (s.stall false)

/-- What follows an access: the result, a precise trap (R126), or a kill. -/
def afterAcc (s : State) (r : Acc α) (k : State → α → State) : Out :=
  match r with
  | .ok s1 x => .next (k s1 x)
  | .trap c t => trapAt s c t
  | .kill s1 r => .next (s1.killSelf r 0)

/-- The address g[B] + sext(IMM16). -/
def memAddr (s : State) (b : BitVec 5) (i : BitVec 16) : Word := s.rg b + i.signExtend 64

/-- A load of `n` bytes; `ext` extends the value. -/
def scalarLoad (n : Nat) (ext : Nat → Word) (a b : BitVec 5) (i : BitVec 16) (s : State) : Out :=
  awaitG [a, b] s <| awaitMem (memAddr s b i) n .read s <|
    afterAcc s (s.load (memAddr s b i) n) fun s1 x => (s1.wg a (ext x)).advance

/-- A store of the low `n` bytes of g[A]. -/
def scalarStore (n : Nat) (a b : BitVec 5) (i : BitVec 16) (s : State) : Out :=
  awaitG [a, b] s <| awaitMem (memAddr s b i) n .write s <|
    afterAcc s (s.store (memAddr s b i) n (s.rg a).toNat) fun s1 _ => s1.advance

/-- Sign extension of the low `w` bits, and zero extension. -/
def sxt (w : Nat) (x : Nat) : Word := (BitVec.ofNat w x).signExtend 64
def zxt (x : Nat) : Word := BitVec.ofNat 64 x

/-- LDB (R129). -/
def execLdb (a b : BitVec 5) (i : BitVec 16) (s : State) : Out := scalarLoad 1 (sxt 8) a b i s
/-- LDBN (R129). -/
def execLdbn (a b : BitVec 5) (i : BitVec 16) (s : State) : Out := scalarLoad 1 zxt a b i s
/-- LDH (R129). -/
def execLdh (a b : BitVec 5) (i : BitVec 16) (s : State) : Out := scalarLoad 2 (sxt 16) a b i s
/-- LDHN (R129). -/
def execLdhn (a b : BitVec 5) (i : BitVec 16) (s : State) : Out := scalarLoad 2 zxt a b i s
/-- LDW (R129). -/
def execLdw (a b : BitVec 5) (i : BitVec 16) (s : State) : Out := scalarLoad 4 (sxt 32) a b i s
/-- LDWN (R129). -/
def execLdwn (a b : BitVec 5) (i : BitVec 16) (s : State) : Out := scalarLoad 4 zxt a b i s
/-- LDD (R129). -/
def execLdd (a b : BitVec 5) (i : BitVec 16) (s : State) : Out := scalarLoad 8 zxt a b i s
/-- STB (R129). -/
def execStb (a b : BitVec 5) (i : BitVec 16) (s : State) : Out := scalarStore 1 a b i s
/-- STH (R129). -/
def execSth (a b : BitVec 5) (i : BitVec 16) (s : State) : Out := scalarStore 2 a b i s
/-- STW (R129). -/
def execStw (a b : BitVec 5) (i : BitVec 16) (s : State) : Out := scalarStore 4 a b i s
/-- STD (R129). -/
def execStd (a b : BitVec 5) (i : BitVec 16) (s : State) : Out := scalarStore 8 a b i s

/-! ### LINK -/

/-- The generation advances by 1 modulo 16 (R95). -/
def Strand.nextGen (st : Strand) : Strand := { st with linkGen := st.linkGen + 1 }

/-- A linked load: the generation advances, then the line's tag is set (R95). -/
def scalarLinked (n : Nat) (ext : Nat → Word) (a b : BitVec 5) (s : State) : Out :=
  awaitG [a, b] s <| awaitLinks s <| awaitMem (s.rg b) n .read s <|
    afterAcc s ((s.upd Strand.nextGen).loadLinked (s.rg b) n) fun s1 x => (s1.wg a (ext x)).advance

/-- A conditional store (R96, R136): translation faults first, the press applies what is due for the line
(R257), and then the tag decides. -/
def scalarCond (n : Nat) (a b c : BitVec 5) (s : State) : Out :=
  awaitG [a, b, c] s <| awaitLinks s <| awaitMem (s.rg b) n .write s <|
    match s.place (s.rg b) n .write with
    | .error k => trapAt s k (s.rg b)
    | .ok l =>
      let s1 := s.touchLoc l
      if s1.tagMatches l then
        .next (((s1.writeLoc s.cur.agent l n (s.rg c).toNat).wg a 1).upd fun st => st.nextGen.advance)
      else .next (s1.wg a 0).advance

/-- Draw a ticket of the package (R94). -/
def State.drawTicket (s : State) : State := { s with ticket := s.ticket + 1 }

/-- LDLW (R136). -/
def execLdlw (a b : BitVec 5) (s : State) : Out := scalarLinked 4 (sxt 32) a b s
/-- LDLD (R136). -/
def execLdld (a b : BitVec 5) (s : State) : Out := scalarLinked 8 zxt a b s
/-- STCW (R136). -/
def execStcw (a b c : BitVec 5) (s : State) : Out := scalarCond 4 a b c s
/-- STCD (R136). -/
def execStcd (a b c : BitVec 5) (s : State) : Out := scalarCond 8 a b c s
/-- LDSCW (R94, R136). -/
def execLdscw (a b : BitVec 5) (s : State) : Out :=
  awaitG [a, b] s <| awaitAll s <| afterAcc s (s.load (s.rg b) 4) fun s1 x => (s1.drawTicket.wg a (sxt 32 x)).advance
/-- LDSCD (R94, R136). -/
def execLdscd (a b : BitVec 5) (s : State) : Out :=
  awaitG [a, b] s <| awaitAll s <| afterAcc s (s.load (s.rg b) 8) fun s1 x => (s1.drawTicket.wg a (zxt x)).advance
/-- STSCW (R94, R136). -/
def execStscw (a b : BitVec 5) (s : State) : Out :=
  awaitG [a, b] s <| awaitAll s <| afterAcc s (s.store (s.rg b) 4 (s.rg a).toNat) fun s1 _ => s1.drawTicket.advance
/-- STSCD (R94, R136). -/
def execStscd (a b : BitVec 5) (s : State) : Out :=
  awaitG [a, b] s <| awaitAll s <| afterAcc s (s.store (s.rg b) 8 (s.rg a).toNat) fun s1 _ => s1.drawTicket.advance

end Sys2Proof.Machine
end

