-- ==== Sys2Proof/Machine/Sums.lean ====
section
/-! DEFINITION. Order of floating-point sums (R154, R155, R176, R184) and folds of minima and maxima (R133, R183). -/

namespace Sys2Proof.Machine

/-- Two members of a pair: added when both are present, else the present one, rounded to the etype. -/
def pairOf (k : Fmt) (rm : Rm) (x y : Option Val) : Option Val × Flags :=
  match x, y with
  | some a, some b =>
    let r := addVal k rm a b
    (some (unpack k r.bits), r.fl)
  | some a, none | none, some a =>
    let r := roundVal k rm a
    (some (unpack k r.bits), r.fl)
  | none, none => (none, 0)

/-- One level of the tree within a block. -/
def pairLevel (k : Fmt) (rm : Rm) : List (Option Val) → List (Option Val) × Flags
  | x :: y :: t =>
    let p := pairOf k rm x y
    let q := pairLevel k rm t
    (p.1 :: q.1, p.2 ||| q.2)
  | [x] =>
    let p := pairOf k rm x none
    ([p.1], p.2)
  | [] => ([], 0)

/-- `n` levels. -/
def levels (k : Fmt) (rm : Rm) : Nat → List (Option Val) → List (Option Val) × Flags
  | 0, l => (l, 0)
  | n + 1, l =>
    let p := pairLevel k rm l
    let q := levels k rm n p.1
    (q.1, p.2 ||| q.2)

/-- The result of one block of at most 32 positions. -/
def blockSum (k : Fmt) (rm : Rm) (l : List (Option Val)) : Option Val × Flags :=
  let p := levels k rm 5 l
  (p.1.headD none, p.2)

/-- Fold the blocks of 32 left, in ascending order; `n` bounds their number. -/
def foldBlocks (k : Fmt) (rm : Rm) : Nat → Option Val → Flags → List (Option Val) → Option Val × Flags
  | 0, acc, fl, _ => (acc, fl)
  | n + 1, acc, fl, l =>
    match l with
    | [] => (acc, fl)
    | _ :: _ =>
      let b := blockSum k rm (l.take 32)
      match acc, b.1 with
      | some a, some x =>
        let r := addVal k rm a x
        foldBlocks k rm n (some (unpack k r.bits)) (fl ||| b.2 ||| r.fl) (l.drop 32)
      | none, y => foldBlocks k rm n y (fl ||| b.2) (l.drop 32)
      | some a, none => foldBlocks k rm n (some a) (fl ||| b.2) (l.drop 32)

/-- A final sum as bits: a NaN is canonical, an empty sequence sums to +0. -/
def delivered (k : Fmt) (rm : Rm) (x : Option Val × Flags) : Res :=
  match x.1 with
  | none => ⟨0, x.2⟩
  | some v => ⟨(roundVal k rm v).bits, x.2⟩

/-- The canonical sum of R154 over positions that hold a term or none. -/
def canonicalSum (k : Fmt) (rm : Rm) (l : List (Option Val)) : Res :=
  delivered k rm (foldBlocks k rm ((l.length + 31) / 32) none 0 l)

/-- A binary tree over all positions that `choose` picks: with n parts left, it names two of them (R155). -/
def treeFrom (k : Fmt) (rm : Rm) (choose : Nat → Nat) : Nat → Flags → List (Option Val) → Option Val × Flags
  | 0, fl, l => (l.headD none, fl)
  | n + 1, fl, l =>
    match l with
    | [] => (none, fl)
    | [x] => (x, fl)
    | x :: r =>
      let p := choose l.length
      let a := takeAt x r (p % l.length)
      match a.2 with
      | [] => (a.1, fl)
      | y :: r1 =>
        let b := takeAt y r1 (p / l.length % a.2.length)
        let c := pairOf k rm a.1 b.1
        treeFrom k rm choose n (fl ||| c.2) (c.1 :: b.2)

/-- The present terms, when there are at most two. -/
def fewTerms (l : List (Option Val)) : Option (Option Val × Option Val) :=
  match l.filterMap id with
  | [] => some (none, none)
  | [x] => some (some x, none)
  | [x, y] => some (some x, some y)
  | _ => none

/-- The sum of R155: with at most two terms every tree gives the same. -/
def freeSum (k : Fmt) (rm : Rm) (choose : Nat → Nat) (l : List (Option Val)) : Res :=
  match fewTerms l with
  | some (x, y) => delivered k rm (pairOf k rm x y)
  | none => delivered k rm (treeFrom k rm choose l.length 0 l)

/-- The sum of a sequence under the latched REPRO. -/
def fpSum (repro : Bool) (k : Fmt) (rm : Rm) (choose : Nat → Nat) (l : List (Option Val)) : Res :=
  if repro then canonicalSum k rm l else freeSum k rm choose l

/-- minimumNumber or maximumNumber of the present terms, or `empty` (R183): a NaN only when every term is one, and NV for
every signalling NaN. -/
def fpExtreme (k : Fmt) (mx : Bool) (empty : Nat) (l : List Nat) : Res :=
  let fl := l.foldl (fun fl x => fl ||| nvOf (unpack k x)) (0 : Flags)
  match l.filter fun x => !(unpack k x).isNaN with
  | x :: t => ⟨t.foldl (fun a y => (fpMinMax k mx a y).bits) x, fl⟩
  | [] => if l.isEmpty then ⟨empty, 0⟩ else ⟨k.nan, fl⟩

end Sys2Proof.Machine
end

