-- ==== Sys2Proof/Machine/VectorInt.lean ====
section
/-! DEFINITION. Integer vector arithmetic: VINT (R160, R161). -/

namespace Sys2Proof.Machine

/-- A w-bit pattern read as two's complement. -/
def sval (w x : Nat) : Int := if x ≥ 2 ^ (w - 1) then (x : Int) - 2 ^ w else x

/-- The latches of an instruction whose only scalar operand is a second operand. -/
def Op2.latch (o : Op2) (st : Strand) : Latch :=
  match o with
  | .scal c => ⟨0, 0, st.rg c, 0⟩
  | _ => ⟨0, 0, 0, 0⟩

/-- An element-wise instruction into a vector register (R157): the result and flags of `f` at each active element. -/
def laneOp (i : Instr) (ets : Nat → Bool) (gs : List (BitVec 5)) (latch : Strand → Latch) (flags : Bool) (a : BitVec 5)
    (m : BitVec 3) (f : Strand → Entry → Nat → Res) : WOp :=
  { ins := i, gsrc := gs, etypes := ets, latch := latch,
    body := .regs fun st en =>
      { writes := [guarded (.v a) en.w en.n en (en.act st m) fun e => (f st en e).bits],
        nfl := if flags then en.n else 0, fl := fun e => if en.act st m e then (f st en e).fl else 0, g := none } }

/-- A member of VINT with result `f w a b`. -/
def vint (i : Instr) (a b c : BitVec 5) (m : BitVec 3) (fm : BitVec 2) (f : Nat → Nat → Nat → Nat) : WOp :=
  let o := op2Of fm c
  laneOp i isInt o.gs o.latch false a m fun st en e => ⟨f en.w (st.elem b en.w e) (o.val st en en.w e), 0⟩

/-- A member that depends on the etype's signedness. -/
def vintT (i : Instr) (a b c : BitVec 5) (m : BitVec 3) (fm : BitVec 2) (f : Nat → Nat → Nat → Nat) : WOp :=
  let o := op2Of fm c
  laneOp i isInt o.gs o.latch false a m fun st en e => ⟨f en.et (st.elem b en.w e) (o.val st en en.w e), 0⟩

/-- VADC and VSBC: the mask field names the carry mask and no element is inactive (R161). -/
def vintCarry (i : Instr) (a b c : BitVec 5) (m : BitVec 3) (fm : BitVec 2) (f : Nat → Nat → Nat → Nat → Nat) : WOp :=
  let o := op2Of fm c
  laneOp i isInt o.gs o.latch false a 0 fun st en e =>
    ⟨f en.w (st.elem b en.w e) (o.val st en en.w e) (st.mbit m e).toNat, 0⟩

/-! ### Results (R160) -/

def iAdd (w a b : Nat) : Nat := (a + b) % 2 ^ w
def iSub (w a b : Nat) : Nat := (a + 2 ^ w - b) % 2 ^ w
def iMul (w a b : Nat) : Nat := a * b % 2 ^ w
def iMulh (w a b : Nat) : Nat := wrapInt w (sval w a * sval w b / 2 ^ w)
def iMulhn (w a b : Nat) : Nat := a * b / 2 ^ w % 2 ^ w
def iDiv (w a b : Nat) : Nat := if b = 0 then 2 ^ w - 1 else wrapInt w ((sval w a).tdiv (sval w b))
def iDivn (w a b : Nat) : Nat := if b = 0 then 2 ^ w - 1 else a / b
def iRem (w a b : Nat) : Nat := if b = 0 then a else wrapInt w ((sval w a).tmod (sval w b))
def iRemn (_w a b : Nat) : Nat := if b = 0 then a else a % b
def iMin (w a b : Nat) : Nat := if sval w b < sval w a then b else a
def iMax (w a b : Nat) : Nat := if sval w a < sval w b then b else a
def iShl (w a b : Nat) : Nat := a <<< (b % w) % 2 ^ w
def iShr (w a b : Nat) : Nat := a >>> (b % w)
def iShra (w a b : Nat) : Nat := wrapInt w (sval w a / 2 ^ (b % w))
def iSadd (t a b : Nat) : Nat := wrapInt (sewOf t) (clampInt t (intVal t a + intVal t b))
def iSsub (t a b : Nat) : Nat := wrapInt (sewOf t) (clampInt t (intVal t a - intVal t b))
def iAdc (w a b c : Nat) : Nat := (a + b + c) % 2 ^ w
def iSbc (w a b c : Nat) : Nat := (a + 2 * 2 ^ w - b - c) % 2 ^ w

/-! ### The members -/

/-- VADD (R160). -/
def opVadd (a b c : BitVec 5) (m : BitVec 3) (f : BitVec 2) : WOp := vint (.vadd a b c m f) a b c m f iAdd
def execVadd (a b c : BitVec 5) (m : BitVec 3) (f : BitVec 2) (s : State) : Out := issue (opVadd a b c m f) s

/-- VSUB (R160). -/
def opVsub (a b c : BitVec 5) (m : BitVec 3) (f : BitVec 2) : WOp := vint (.vsub a b c m f) a b c m f iSub
def execVsub (a b c : BitVec 5) (m : BitVec 3) (f : BitVec 2) (s : State) : Out := issue (opVsub a b c m f) s

/-- VMUL (R160). -/
def opVmul (a b c : BitVec 5) (m : BitVec 3) (f : BitVec 2) : WOp := vint (.vmul a b c m f) a b c m f iMul
def execVmul (a b c : BitVec 5) (m : BitVec 3) (f : BitVec 2) (s : State) : Out := issue (opVmul a b c m f) s

/-- VMULH (R160). -/
def opVmulh (a b c : BitVec 5) (m : BitVec 3) (f : BitVec 2) : WOp := vint (.vmulh a b c m f) a b c m f iMulh
def execVmulh (a b c : BitVec 5) (m : BitVec 3) (f : BitVec 2) (s : State) : Out := issue (opVmulh a b c m f) s

/-- VMULHN (R160). -/
def opVmulhn (a b c : BitVec 5) (m : BitVec 3) (f : BitVec 2) : WOp := vint (.vmulhn a b c m f) a b c m f iMulhn
def execVmulhn (a b c : BitVec 5) (m : BitVec 3) (f : BitVec 2) (s : State) : Out := issue (opVmulhn a b c m f) s

/-- VDIV (R160). -/
def opVdiv (a b c : BitVec 5) (m : BitVec 3) (f : BitVec 2) : WOp := vint (.vdiv a b c m f) a b c m f iDiv
def execVdiv (a b c : BitVec 5) (m : BitVec 3) (f : BitVec 2) (s : State) : Out := issue (opVdiv a b c m f) s

/-- VDIVN (R160). -/
def opVdivn (a b c : BitVec 5) (m : BitVec 3) (f : BitVec 2) : WOp := vint (.vdivn a b c m f) a b c m f iDivn
def execVdivn (a b c : BitVec 5) (m : BitVec 3) (f : BitVec 2) (s : State) : Out := issue (opVdivn a b c m f) s

/-- VREM (R160). -/
def opVrem (a b c : BitVec 5) (m : BitVec 3) (f : BitVec 2) : WOp := vint (.vrem a b c m f) a b c m f iRem
def execVrem (a b c : BitVec 5) (m : BitVec 3) (f : BitVec 2) (s : State) : Out := issue (opVrem a b c m f) s

/-- VREMN (R160). -/
def opVremn (a b c : BitVec 5) (m : BitVec 3) (f : BitVec 2) : WOp := vint (.vremn a b c m f) a b c m f iRemn
def execVremn (a b c : BitVec 5) (m : BitVec 3) (f : BitVec 2) (s : State) : Out := issue (opVremn a b c m f) s

/-- VMIN (R160). -/
def opVmin (a b c : BitVec 5) (m : BitVec 3) (f : BitVec 2) : WOp := vint (.vmin a b c m f) a b c m f iMin
def execVmin (a b c : BitVec 5) (m : BitVec 3) (f : BitVec 2) (s : State) : Out := issue (opVmin a b c m f) s

/-- VMAX (R160). -/
def opVmax (a b c : BitVec 5) (m : BitVec 3) (f : BitVec 2) : WOp := vint (.vmax a b c m f) a b c m f iMax
def execVmax (a b c : BitVec 5) (m : BitVec 3) (f : BitVec 2) (s : State) : Out := issue (opVmax a b c m f) s

/-- VMINN (R160). -/
def opVminn (a b c : BitVec 5) (m : BitVec 3) (f : BitVec 2) : WOp := vint (.vminn a b c m f) a b c m f (fun _ => Nat.min)
def execVminn (a b c : BitVec 5) (m : BitVec 3) (f : BitVec 2) (s : State) : Out := issue (opVminn a b c m f) s

/-- VMAXN (R160). -/
def opVmaxn (a b c : BitVec 5) (m : BitVec 3) (f : BitVec 2) : WOp := vint (.vmaxn a b c m f) a b c m f (fun _ => Nat.max)
def execVmaxn (a b c : BitVec 5) (m : BitVec 3) (f : BitVec 2) (s : State) : Out := issue (opVmaxn a b c m f) s

/-- VAND (R160). -/
def opVand (a b c : BitVec 5) (m : BitVec 3) (f : BitVec 2) : WOp := vint (.vand a b c m f) a b c m f (fun _ => Nat.land)
def execVand (a b c : BitVec 5) (m : BitVec 3) (f : BitVec 2) (s : State) : Out := issue (opVand a b c m f) s

/-- VOR (R160). -/
def opVor (a b c : BitVec 5) (m : BitVec 3) (f : BitVec 2) : WOp := vint (.vor a b c m f) a b c m f (fun _ => Nat.lor)
def execVor (a b c : BitVec 5) (m : BitVec 3) (f : BitVec 2) (s : State) : Out := issue (opVor a b c m f) s

/-- VXOR (R160). -/
def opVxor (a b c : BitVec 5) (m : BitVec 3) (f : BitVec 2) : WOp := vint (.vxor a b c m f) a b c m f (fun _ => Nat.xor)
def execVxor (a b c : BitVec 5) (m : BitVec 3) (f : BitVec 2) (s : State) : Out := issue (opVxor a b c m f) s

/-- VSHL (R160). -/
def opVshl (a b c : BitVec 5) (m : BitVec 3) (f : BitVec 2) : WOp := vint (.vshl a b c m f) a b c m f iShl
def execVshl (a b c : BitVec 5) (m : BitVec 3) (f : BitVec 2) (s : State) : Out := issue (opVshl a b c m f) s

/-- VSHR (R160). -/
def opVshr (a b c : BitVec 5) (m : BitVec 3) (f : BitVec 2) : WOp := vint (.vshr a b c m f) a b c m f iShr
def execVshr (a b c : BitVec 5) (m : BitVec 3) (f : BitVec 2) (s : State) : Out := issue (opVshr a b c m f) s

/-- VSHRA (R160). -/
def opVshra (a b c : BitVec 5) (m : BitVec 3) (f : BitVec 2) : WOp := vint (.vshra a b c m f) a b c m f iShra
def execVshra (a b c : BitVec 5) (m : BitVec 3) (f : BitVec 2) (s : State) : Out := issue (opVshra a b c m f) s

/-- VSADD (R160). -/
def opVsadd (a b c : BitVec 5) (m : BitVec 3) (f : BitVec 2) : WOp := vintT (.vsadd a b c m f) a b c m f iSadd
def execVsadd (a b c : BitVec 5) (m : BitVec 3) (f : BitVec 2) (s : State) : Out := issue (opVsadd a b c m f) s

/-- VSSUB (R160). -/
def opVssub (a b c : BitVec 5) (m : BitVec 3) (f : BitVec 2) : WOp := vintT (.vssub a b c m f) a b c m f iSsub
def execVssub (a b c : BitVec 5) (m : BitVec 3) (f : BitVec 2) (s : State) : Out := issue (opVssub a b c m f) s

/-- VADC (R160). -/
def opVadc (a b c : BitVec 5) (m : BitVec 3) (f : BitVec 2) : WOp := vintCarry (.vadc a b c m f) a b c m f iAdc
def execVadc (a b c : BitVec 5) (m : BitVec 3) (f : BitVec 2) (s : State) : Out := issue (opVadc a b c m f) s

/-- VSBC (R160). -/
def opVsbc (a b c : BitVec 5) (m : BitVec 3) (f : BitVec 2) : WOp := vintCarry (.vsbc a b c m f) a b c m f iSbc
def execVsbc (a b c : BitVec 5) (m : BitVec 3) (f : BitVec 2) (s : State) : Out := issue (opVsbc a b c m f) s

/-- VMACC (R160): the destination's earlier element is a source. -/
def opVmacc (a b c : BitVec 5) (m : BitVec 3) (f : BitVec 2) : WOp :=
  let o := op2Of f c
  laneOp (.vmacc a b c m f) isInt o.gs o.latch false a m fun st en e =>
    ⟨(st.elem a en.w e + st.elem b en.w e * o.val st en en.w e) % 2 ^ en.w, 0⟩
def execVmacc (a b c : BitVec 5) (m : BitVec 3) (f : BitVec 2) (s : State) : Out := issue (opVmacc a b c m f) s

end Sys2Proof.Machine
end

