-- ==== Sys2Proof/Machine/VectorFp.lean ====
section
/-! DEFINITION. Floating-point vector arithmetic, fused multiply-add and conversion: VFP (R162), VFMA (R163), VCVT (R164). -/

namespace Sys2Proof.Machine

/-- A rounding member of VFP with two sources. -/
def vfp (i : Instr) (a b c : BitVec 5) (m : BitVec 3) (fm : BitVec 2) (f : Fmt → Rm → Nat → Nat → Res) : WOp :=
  let o := op2Of fm c
  laneOp i isFpArith o.gs o.latch true a m fun st en e =>
    f (fmtOf en.et) en.rm (st.elem b en.w e) (o.val st en en.w e)

/-- A member with one source. -/
def vfp1 (i : Instr) (a b : BitVec 5) (m : BitVec 3) (f : Entry → Nat → Res) : WOp :=
  laneOp i isFpArith [] (fun _ => ⟨0, 0, 0, 0⟩) true a m fun st en e => f en (st.elem b en.w e)

/-- `x` with its sign bit cleared, inverted, or that of `y` (R162). -/
def fAbs (w x : Nat) : Nat := x % 2 ^ (w - 1)
def fNeg (w x : Nat) : Nat := x ^^^ 2 ^ (w - 1)
def fSgn (w x y : Nat) : Nat := x % 2 ^ (w - 1) + y / 2 ^ (w - 1) * 2 ^ (w - 1)

/-- VFADD (R162). -/
def opVfadd (a b c : BitVec 5) (m : BitVec 3) (f : BitVec 2) : WOp := vfp (.vfadd a b c m f) a b c m f fpAdd
def execVfadd (a b c : BitVec 5) (m : BitVec 3) (f : BitVec 2) (s : State) : Out := issue (opVfadd a b c m f) s

/-- VFSUB (R162). -/
def opVfsub (a b c : BitVec 5) (m : BitVec 3) (f : BitVec 2) : WOp := vfp (.vfsub a b c m f) a b c m f fpSub
def execVfsub (a b c : BitVec 5) (m : BitVec 3) (f : BitVec 2) (s : State) : Out := issue (opVfsub a b c m f) s

/-- VFMUL (R162). -/
def opVfmul (a b c : BitVec 5) (m : BitVec 3) (f : BitVec 2) : WOp := vfp (.vfmul a b c m f) a b c m f fpMul
def execVfmul (a b c : BitVec 5) (m : BitVec 3) (f : BitVec 2) (s : State) : Out := issue (opVfmul a b c m f) s

/-- VFDIV (R162). -/
def opVfdiv (a b c : BitVec 5) (m : BitVec 3) (f : BitVec 2) : WOp := vfp (.vfdiv a b c m f) a b c m f fpDiv
def execVfdiv (a b c : BitVec 5) (m : BitVec 3) (f : BitVec 2) (s : State) : Out := issue (opVfdiv a b c m f) s

/-- VFMIN (R162). -/
def opVfmin (a b c : BitVec 5) (m : BitVec 3) (f : BitVec 2) : WOp := vfp (.vfmin a b c m f) a b c m f (fun k _ => fpMinMax k false)
def execVfmin (a b c : BitVec 5) (m : BitVec 3) (f : BitVec 2) (s : State) : Out := issue (opVfmin a b c m f) s

/-- VFMAX (R162). -/
def opVfmax (a b c : BitVec 5) (m : BitVec 3) (f : BitVec 2) : WOp := vfp (.vfmax a b c m f) a b c m f (fun k _ => fpMinMax k true)
def execVfmax (a b c : BitVec 5) (m : BitVec 3) (f : BitVec 2) (s : State) : Out := issue (opVfmax a b c m f) s

/-- VFSQRT (R162). -/
def opVfsqrt (a b : BitVec 5) (m : BitVec 3) : WOp := vfp1 (.vfsqrt a b m) a b m (fun en x => fpSqrt (fmtOf en.et) en.rm x)
def execVfsqrt (a b : BitVec 5) (m : BitVec 3) (s : State) : Out := issue (opVfsqrt a b m) s

/-- VFABS (R162). -/
def opVfabs (a b : BitVec 5) (m : BitVec 3) : WOp := vfp1 (.vfabs a b m) a b m (fun en x => ⟨fAbs en.w x, 0⟩)
def execVfabs (a b : BitVec 5) (m : BitVec 3) (s : State) : Out := issue (opVfabs a b m) s

/-- VFNEG (R162). -/
def opVfneg (a b : BitVec 5) (m : BitVec 3) : WOp := vfp1 (.vfneg a b m) a b m (fun en x => ⟨fNeg en.w x, 0⟩)
def execVfneg (a b : BitVec 5) (m : BitVec 3) (s : State) : Out := issue (opVfneg a b m) s

/-- VFSGN (R162). -/
def opVfsgn (a b c : BitVec 5) (m : BitVec 3) (f : BitVec 2) : WOp :=
  let o := op2Of f c
  laneOp (.vfsgn a b c m f) isFpArith o.gs o.latch false a m fun st en e =>
    ⟨fSgn en.w (st.elem b en.w e) (o.val st en en.w e), 0⟩
def execVfsgn (a b c : BitVec 5) (m : BitVec 3) (f : BitVec 2) (s : State) : Out := issue (opVfsgn a b c m f) s

/-! ### VFMA -/

/-- A fused member at the etype's width. -/
def vfmaOp (i : Instr) (a b c d : BitVec 5) (m : BitVec 3) (negProd negAdd : Bool) : WOp :=
  laneOp i isFpArith [] (fun _ => ⟨0, 0, 0, 0⟩) true a m fun st en e =>
    fpFma (fmtOf en.et) en.rm (st.elem b en.w e) (st.elem c en.w e) (st.elem d en.w e) negProd negAdd

/-- VFMA (R163). -/
def opVfma (a b c d : BitVec 5) (m : BitVec 3) : WOp := vfmaOp (.vfma a b c d m) a b c d m false false
def execVfma (a b c d : BitVec 5) (m : BitVec 3) (s : State) : Out := issue (opVfma a b c d m) s

/-- VFMS (R163). -/
def opVfms (a b c d : BitVec 5) (m : BitVec 3) : WOp := vfmaOp (.vfms a b c d m) a b c d m false true
def execVfms (a b c d : BitVec 5) (m : BitVec 3) (s : State) : Out := issue (opVfms a b c d m) s

/-- VFNMA (R163). -/
def opVfnma (a b c d : BitVec 5) (m : BitVec 3) : WOp := vfmaOp (.vfnma a b c d m) a b c d m true true
def execVfnma (a b c d : BitVec 5) (m : BitVec 3) (s : State) : Out := issue (opVfnma a b c d m) s

/-- VFNMS (R163). -/
def opVfnms (a b c d : BitVec 5) (m : BitVec 3) : WOp := vfmaOp (.vfnms a b c d m) a b c d m true false
def execVfnms (a b c d : BitVec 5) (m : BitVec 3) (s : State) : Out := issue (opVfnms a b c d m) s

/-- VIMA (R163). -/
def opVima (a b c d : BitVec 5) (m : BitVec 3) : WOp :=
  laneOp (.vima a b c d m) isInt [] (fun _ => ⟨0, 0, 0, 0⟩) false a m fun st en e =>
    ⟨(st.elem d en.w e + st.elem b en.w e * st.elem c en.w e) % 2 ^ en.w, 0⟩
def execVima (a b c d : BitVec 5) (m : BitVec 3) (s : State) : Out := issue (opVima a b c d m) s

/-- The wide type of VWFMA: f32 for f16 and bf16, f64 for f32. -/
def wideOf (t : Nat) : Nat := if t = 10 then 11 else 10

/-- The element result of VWFMA: an exact product of narrow values, one rounding into the wide type. -/
def wideFma (t : Nat) (rm : Rm) (b c d : Nat) : Res :=
  let k := fmtOf t
  addProduct (fmtOf (wideOf t)) rm (mulVal (unpack k b) (unpack k c)) (unpack (fmtOf (wideOf t)) d)

/-- VWFMA (R163). -/
def opVwfma (a b c d : BitVec 5) (m : BitVec 3) : WOp :=
  { ins := .vwfma a b c d m, gsrc := [], etypes := fun t => t == 8 || t == 9 || t == 10,
    shape := fun st => decide (st.nElems * 2 * sewOf (st.vtype.toNat % 16) > st.grsz.toNat * 8),
    body := .regs fun st en =>
      let r := fun e => wideFma en.et en.rm (st.elem b en.w e) (st.elem c en.w e) (st.elem d (2 * en.w) e)
      { writes := [guarded (.v a) (2 * en.w) en.n en (en.act st m) fun e => (r e).bits],
        nfl := en.n, fl := fun e => if en.act st m e then (r e).fl else 0, g := none } }
def execVwfma (a b c d : BitVec 5) (m : BitVec 3) (s : State) : Out := issue (opVwfma a b c d m) s

/-! ### VCVT -/

/-- The draw of active element `e` of a stochastic entry that starts from state `s0` (R150). -/
def drawAt (s0 : BitVec 32) (act : Nat → Bool) (e : Nat) : Nat := (xorshiftN (activeBelow act (e + 1)) s0).toNat

/-- The element result of VCVT: an FP element of its own type is copied but for NaNs (R164). -/
def cvtElem (st : Strand) (en : Entry) (b r : BitVec 5) (m : BitVec 3) (sat : Bool) (d e : Nat) : Res :=
  let rm := rmOfCode r.toNat en.frm (if r == 7#5 then drawAt (en.opd.setWidth 32) (en.act st m) e else 0)
  let x := st.elem b en.w e
  if en.et = d then
    if isInt d then ⟨x, 0⟩
    else if (unpack (fmtOf d) x).isNaN then resNaN (fmtOf d) (nvOf (unpack (fmtOf d) x)) else ⟨x, 0⟩
  else convert en.et d rm sat x

/-- The effect of VCVT. -/
def cvtEff (a b r : BitVec 5) (m : BitVec 3) (sat : BitVec 1) (d : BitVec 4) (st : Strand) (en : Entry) : Eff :=
  let f := cvtElem st en b r m (sat == 1#1) d.toNat
  { writes := [guarded (.v a) (sewOf d.toNat) en.n en (en.act st m) fun e => (f e).bits], nfl := en.n,
    fl := fun e => if en.act st m e then (f e).fl else 0, g := none }

/-- SRSEED once the elements that satisfy `f` have fired: the state after the draw of the last active one (R116, R150). -/
def seedAfter (m : BitVec 3) (st : Strand) (en : Entry) (f : Nat → Bool) : BitVec 32 :=
  let act := en.act st m
  match ((List.range en.n).filter fun e => f e && act e).getLast? with
  | some e => xorshiftN (activeBelow act (e + 1)) (en.opd.setWidth 32)
  | none => en.opd.setWidth 32

/-- VCVT (R164). A stochastic entry latches SRSEED in OPD and leaves it advanced by its count of active elements (R150); it
enters once every older stochastic entry has fired. -/
def opVcvt (a b r : BitVec 5) (m : BitVec 3) (sat : BitVec 1) (d : BitVec 4) : WOp :=
  { ins := .vcvt a b r m sat d, gsrc := [],
    etypes := fun t => t != 14 && t != 15 && d != 14#4,
    shape := fun st => decide (st.nElems * sewOf d.toNat > st.grsz.toNat * 8),
    latch := fun st => ⟨0, 0, 0, if r == 7#5 then st.srseed.setWidth 64 else 0⟩,
    holds := fun s => r == 7#5 && s.cur.window.any fun e =>
      match e.ins with
      | .vcvt _ _ r' _ _ _ => r' == 7#5
      | _ => false,
    body := if r == 7#5 then .drawn (cvtEff a b r m sat d) (seedAfter m) else .regs (cvtEff a b r m sat d) }
def execVcvt (a b r : BitVec 5) (m : BitVec 3) (sat : BitVec 1) (d : BitVec 4) (s : State) : Out :=
  issue (opVcvt a b r m sat d) s

end Sys2Proof.Machine
end

