-- ==== Sys2Proof/Machine/VectorMask.lean ====
section
/-! DEFINITION. Compares into masks: VCMP (R165), and mask operations: MASK (R166, R167). -/

namespace Sys2Proof.Machine

/-- A compare: bit `e` of mask A under the guard, with the flags of each active element (R165). -/
def vcmp (i : Instr) (ets : Nat → Bool) (a : BitVec 3) (b c : BitVec 5) (m : BitVec 3) (fm : BitVec 2)
    (f : Entry → Nat → Nat → Bool × Flags) : WOp :=
  let o := op2Of fm c
  { ins := i, gsrc := o.gs, etypes := ets, latch := o.latch,
    body := .regs fun st en =>
      let r := fun e => f en (st.elem b en.w e) (o.val st en en.w e)
      { writes := [guarded (.m a) 1 en.n en (en.act st m) fun e => (r e).1.toNat],
        nfl := en.n, fl := fun e => if en.act st m e then (r e).2 else 0, g := none } }

/-- An integer compare. -/
def icmp (f : Nat → Nat → Nat → Bool) (en : Entry) (x y : Nat) : Bool × Flags := (f en.w x y, 0)

/-- Either operand is a NaN. -/
def fpUnordered (k : Fmt) (x y : Nat) : Bool × Flags :=
  let a := unpack k x
  let b := unpack k y
  (a.isNaN || b.isNaN, nvOf a ||| nvOf b)

/-- VCARRY and VBORROW: the mask field names the carry mask and no element is inactive (R161, R165). -/
def vcmpCarry (i : Instr) (a : BitVec 3) (b c : BitVec 5) (m : BitVec 3) (fm : BitVec 2)
    (f : Nat → Nat → Nat → Nat → Bool) : WOp :=
  let o := op2Of fm c
  { ins := i, gsrc := o.gs, etypes := isInt, latch := o.latch,
    body := .regs fun st en =>
      Eff.quiet [plain (.m a) 1 en.n fun e =>
        (f en.w (st.elem b en.w e) (o.val st en en.w e) (st.mbit m e).toNat).toNat] }

/-- VCEQ (R165). -/
def opVceq (a : BitVec 3) (b c : BitVec 5) (m : BitVec 3) (f : BitVec 2) : WOp :=
  vcmp (.vceq a b c m f) isInt a b c m f (icmp (fun _ x y => x == y))
def execVceq (a : BitVec 3) (b c : BitVec 5) (m : BitVec 3) (f : BitVec 2) (s : State) : Out := issue (opVceq a b c m f) s

/-- VCNE (R165). -/
def opVcne (a : BitVec 3) (b c : BitVec 5) (m : BitVec 3) (f : BitVec 2) : WOp :=
  vcmp (.vcne a b c m f) isInt a b c m f (icmp (fun _ x y => x != y))
def execVcne (a : BitVec 3) (b c : BitVec 5) (m : BitVec 3) (f : BitVec 2) (s : State) : Out := issue (opVcne a b c m f) s

/-- VCLT (R165). -/
def opVclt (a : BitVec 3) (b c : BitVec 5) (m : BitVec 3) (f : BitVec 2) : WOp :=
  vcmp (.vclt a b c m f) isInt a b c m f (icmp (fun w x y => decide (sval w x < sval w y)))
def execVclt (a : BitVec 3) (b c : BitVec 5) (m : BitVec 3) (f : BitVec 2) (s : State) : Out := issue (opVclt a b c m f) s

/-- VCLE (R165). -/
def opVcle (a : BitVec 3) (b c : BitVec 5) (m : BitVec 3) (f : BitVec 2) : WOp :=
  vcmp (.vcle a b c m f) isInt a b c m f (icmp (fun w x y => decide (sval w x ≤ sval w y)))
def execVcle (a : BitVec 3) (b c : BitVec 5) (m : BitVec 3) (f : BitVec 2) (s : State) : Out := issue (opVcle a b c m f) s

/-- VCGT (R165). -/
def opVcgt (a : BitVec 3) (b c : BitVec 5) (m : BitVec 3) (f : BitVec 2) : WOp :=
  vcmp (.vcgt a b c m f) isInt a b c m f (icmp (fun w x y => decide (sval w y < sval w x)))
def execVcgt (a : BitVec 3) (b c : BitVec 5) (m : BitVec 3) (f : BitVec 2) (s : State) : Out := issue (opVcgt a b c m f) s

/-- VCGE (R165). -/
def opVcge (a : BitVec 3) (b c : BitVec 5) (m : BitVec 3) (f : BitVec 2) : WOp :=
  vcmp (.vcge a b c m f) isInt a b c m f (icmp (fun w x y => decide (sval w y ≤ sval w x)))
def execVcge (a : BitVec 3) (b c : BitVec 5) (m : BitVec 3) (f : BitVec 2) (s : State) : Out := issue (opVcge a b c m f) s

/-- VCLTN (R165). -/
def opVcltn (a : BitVec 3) (b c : BitVec 5) (m : BitVec 3) (f : BitVec 2) : WOp :=
  vcmp (.vcltn a b c m f) isInt a b c m f (icmp (fun _ x y => decide (x < y)))
def execVcltn (a : BitVec 3) (b c : BitVec 5) (m : BitVec 3) (f : BitVec 2) (s : State) : Out := issue (opVcltn a b c m f) s

/-- VCLEN (R165). -/
def opVclen (a : BitVec 3) (b c : BitVec 5) (m : BitVec 3) (f : BitVec 2) : WOp :=
  vcmp (.vclen a b c m f) isInt a b c m f (icmp (fun _ x y => decide (x ≤ y)))
def execVclen (a : BitVec 3) (b c : BitVec 5) (m : BitVec 3) (f : BitVec 2) (s : State) : Out := issue (opVclen a b c m f) s

/-- VCGTN (R165). -/
def opVcgtn (a : BitVec 3) (b c : BitVec 5) (m : BitVec 3) (f : BitVec 2) : WOp :=
  vcmp (.vcgtn a b c m f) isInt a b c m f (icmp (fun _ x y => decide (y < x)))
def execVcgtn (a : BitVec 3) (b c : BitVec 5) (m : BitVec 3) (f : BitVec 2) (s : State) : Out := issue (opVcgtn a b c m f) s

/-- VCGEN (R165). -/
def opVcgen (a : BitVec 3) (b c : BitVec 5) (m : BitVec 3) (f : BitVec 2) : WOp :=
  vcmp (.vcgen a b c m f) isInt a b c m f (icmp (fun _ x y => decide (y ≤ x)))
def execVcgen (a : BitVec 3) (b c : BitVec 5) (m : BitVec 3) (f : BitVec 2) (s : State) : Out := issue (opVcgen a b c m f) s

/-- VFCEQ (R165). -/
def opVfceq (a : BitVec 3) (b c : BitVec 5) (m : BitVec 3) (f : BitVec 2) : WOp :=
  vcmp (.vfceq a b c m f) isFpArith a b c m f fun en x y => fpEq (fmtOf en.et) x y
def execVfceq (a : BitVec 3) (b c : BitVec 5) (m : BitVec 3) (f : BitVec 2) (s : State) : Out := issue (opVfceq a b c m f) s

/-- VFCLT (R165). -/
def opVfclt (a : BitVec 3) (b c : BitVec 5) (m : BitVec 3) (f : BitVec 2) : WOp :=
  vcmp (.vfclt a b c m f) isFpArith a b c m f fun en x y => fpLt (fmtOf en.et) false x y
def execVfclt (a : BitVec 3) (b c : BitVec 5) (m : BitVec 3) (f : BitVec 2) (s : State) : Out := issue (opVfclt a b c m f) s

/-- VFCLE (R165). -/
def opVfcle (a : BitVec 3) (b c : BitVec 5) (m : BitVec 3) (f : BitVec 2) : WOp :=
  vcmp (.vfcle a b c m f) isFpArith a b c m f fun en x y => fpLt (fmtOf en.et) true x y
def execVfcle (a : BitVec 3) (b c : BitVec 5) (m : BitVec 3) (f : BitVec 2) (s : State) : Out := issue (opVfcle a b c m f) s

/-- VFCUN (R165). -/
def opVfcun (a : BitVec 3) (b c : BitVec 5) (m : BitVec 3) (f : BitVec 2) : WOp :=
  vcmp (.vfcun a b c m f) isFpArith a b c m f fun en x y => fpUnordered (fmtOf en.et) x y
def execVfcun (a : BitVec 3) (b c : BitVec 5) (m : BitVec 3) (f : BitVec 2) (s : State) : Out := issue (opVfcun a b c m f) s

/-- VCARRY (R161, R165). -/
def opVcarry (a : BitVec 3) (b c : BitVec 5) (m : BitVec 3) (f : BitVec 2) : WOp :=
  vcmpCarry (.vcarry a b c m f) a b c m f fun w x y k => decide (2 ^ w ≤ x + y + k)
def execVcarry (a : BitVec 3) (b c : BitVec 5) (m : BitVec 3) (f : BitVec 2) (s : State) : Out := issue (opVcarry a b c m f) s

/-- VBORROW (R161, R165). -/
def opVborrow (a : BitVec 3) (b c : BitVec 5) (m : BitVec 3) (f : BitVec 2) : WOp :=
  vcmpCarry (.vborrow a b c m f) a b c m f fun _ x y k => decide (x < y + k)
def execVborrow (a : BitVec 3) (b c : BitVec 5) (m : BitVec 3) (f : BitVec 2) (s : State) : Out := issue (opVborrow a b c m f) s

/-! ### MASK -/

/-- A member that writes a mask (R166): every bit below N, tail under TPOL. -/
def maskOp (i : Instr) (a : BitVec 3) (f : Strand → Entry → Nat → Bool) : WOp :=
  { ins := i, gsrc := [], etypes := isElem,
    body := .regs fun st en => Eff.quiet [plain (.m a) 1 en.n fun e => (f st en e).toNat] }

/-- MAND (R166). -/
def opMand (a b c : BitVec 3) : WOp := maskOp (.mand a b c) a fun st _ e => st.mbit b e && st.mbit c e
def execMand (a b c : BitVec 3) (s : State) : Out := issue (opMand a b c) s

/-- MOR (R166). -/
def opMor (a b c : BitVec 3) : WOp := maskOp (.mor a b c) a fun st _ e => st.mbit b e || st.mbit c e
def execMor (a b c : BitVec 3) (s : State) : Out := issue (opMor a b c) s

/-- MXOR (R166). -/
def opMxor (a b c : BitVec 3) : WOp := maskOp (.mxor a b c) a fun st _ e => st.mbit b e != st.mbit c e
def execMxor (a b c : BitVec 3) (s : State) : Out := issue (opMxor a b c) s

/-- MANDN (R166). -/
def opMandn (a b c : BitVec 3) : WOp := maskOp (.mandn a b c) a fun st _ e => st.mbit b e && !st.mbit c e
def execMandn (a b c : BitVec 3) (s : State) : Out := issue (opMandn a b c) s

/-- MNOT (R166). -/
def opMnot (a b : BitVec 3) : WOp := maskOp (.mnot a b) a fun st _ e => !st.mbit b e
def execMnot (a b : BitVec 3) (s : State) : Out := issue (opMnot a b) s

/-- MMOV (R166). -/
def opMmov (a b : BitVec 3) : WOp := maskOp (.mmov a b) a fun st _ e => st.mbit b e
def execMmov (a b : BitVec 3) (s : State) : Out := issue (opMmov a b) s

/-- MSHUP (R166, R167). -/
def opMshup (a b : BitVec 3) (k : BitVec 5) : WOp :=
  maskOp (.mshup a b k) a fun st _ e => decide (k.toNat ≤ e) && st.mbit b (e - k.toNat)
def execMshup (a b : BitVec 3) (k : BitVec 5) (s : State) : Out := issue (opMshup a b k) s

/-- MSHDN (R166, R167). -/
def opMshdn (a b : BitVec 3) (k : BitVec 5) : WOp :=
  maskOp (.mshdn a b k) a fun st en e => decide (e + k.toNat < en.n) && st.mbit b (e + k.toNat)
def execMshdn (a b : BitVec 3) (k : BitVec 5) (s : State) : Out := issue (opMshdn a b k) s

/-- A member that only writes a g register. -/
def scalarResult (i : Instr) (f : Strand → Entry → Word) : WOp :=
  { ins := i, gsrc := [], etypes := isElem,
    body := .regs fun st en => { writes := [], nfl := 0, fl := fun _ => 0, g := some (f st en) } }

/-- The lowest index from `e` on, `k` left, at which a condition holds. -/
def firstFrom (p : Nat → Bool) (e : Nat) : Nat → Option Nat
  | 0 => none
  | k + 1 => if p e then some e else firstFrom p (e + 1) k

/-- MPOPC (R166, R167). -/
def opMpopc (a : BitVec 5) (b : BitVec 3) : WOp :=
  scalarResult (.mpopc a b) fun st en => BitVec.ofNat 64 (popCount (st.mbits b) en.n)
def execMpopc (a : BitVec 5) (b : BitVec 3) (s : State) : Out := issue (opMpopc a b) s

/-- MFIRST (R166, R167). -/
def opMfirst (a : BitVec 5) (b : BitVec 3) : WOp :=
  scalarResult (.mfirst a b) fun st en =>
    match firstFrom (st.mbit b) 0 en.n with
    | some e => BitVec.ofNat 64 e
    | none => -1
def execMfirst (a : BitVec 5) (b : BitVec 3) (s : State) : Out := issue (opMfirst a b) s

/-- MSET (R166). -/
def opMset (a : BitVec 3) : WOp := maskOp (.mset a) a fun _ _ _ => true
def execMset (a : BitVec 3) (s : State) : Out := issue (opMset a) s
/-- MCLR (R166). -/
def opMclr (a : BitVec 3) : WOp := maskOp (.mclr a) a fun _ _ _ => false
def execMclr (a : BitVec 3) (s : State) : Out := issue (opMclr a) s
/-- MTOV (R166). -/
def opMtov (a : BitVec 5) (b : BitVec 3) : WOp :=
  { ins := .mtov a b, gsrc := [], etypes := isElem,
    body := .regs fun st en => Eff.quiet [plain (.v a) en.w en.n fun e => (st.mbit b e).toNat] }
def execMtov (a : BitVec 5) (b : BitVec 3) (s : State) : Out := issue (opMtov a b) s
/-- VTOM (R166). -/
def opVtom (a : BitVec 3) (b : BitVec 5) : WOp := maskOp (.vtom a b) a fun st en e => st.elem b en.w e != 0
def execVtom (a : BitVec 3) (b : BitVec 5) (s : State) : Out := issue (opVtom a b) s

end Sys2Proof.Machine
end

