-- ==== Sys2Proof/Machine/VectorPerm.lean ====
section
/-! DEFINITION. Moves and permutes: VPERM (R168, R169). -/

namespace Sys2Proof.Machine

/-- A member whose destination is every element below N under the guard. -/
def vperm (i : Instr) (o : Op2) (a : BitVec 5) (m : BitVec 3) (f : Strand → Entry → Nat → Nat) : WOp :=
  { ins := i, gsrc := o.gs, etypes := isElem, latch := o.latch,
    body := .regs fun st en => Eff.quiet [guarded (.v a) en.w en.n en (en.act st m) (f st en)] }

/-- VMOV (R168). -/
def opVmov (a c : BitVec 5) (m : BitVec 3) (f : BitVec 2) : WOp :=
  let o := op2Of f c
  vperm (.vmov a c m f) o a m fun st en e => o.val st en en.w e
def execVmov (a c : BitVec 5) (m : BitVec 3) (f : BitVec 2) (s : State) : Out := issue (opVmov a c m f) s

/-- The k of a member as the front end sees it at entry. -/
def Op2.kNow (o : Op2) (st : Strand) : Nat := o.k (o.latch st).opc

/-- VSPLAT (R168). -/
def opVsplat (a b c : BitVec 5) (m : BitVec 3) (f : BitVec 2) : WOp :=
  let o := op2Of f c
  { vperm (.vsplat a b c m f) o a m (fun st en _ => st.elem b en.w (o.k en.opc)) with
    shape := fun st => decide (st.nElems ≤ o.kNow st) }
def execVsplat (a b c : BitVec 5) (m : BitVec 3) (f : BitVec 2) (s : State) : Out := issue (opVsplat a b c m f) s

/-- VSLUP (R168): elements below k are inactive. -/
def opVslup (a b c : BitVec 5) (m : BitVec 3) (f : BitVec 2) : WOp :=
  let o := op2Of f c
  { ins := .vslup a b c m f, gsrc := o.gs, etypes := isElem, latch := o.latch,
    body := .regs fun st en =>
      Eff.quiet [guarded (.v a) en.w en.n en (fun e => decide (o.k en.opc ≤ e) && en.act st m e) fun e =>
        st.elem b en.w (e - o.k en.opc)] }
def execVslup (a b c : BitVec 5) (m : BitVec 3) (f : BitVec 2) (s : State) : Out := issue (opVslup a b c m f) s

/-- VSLDN (R168). -/
def opVsldn (a b c : BitVec 5) (m : BitVec 3) (f : BitVec 2) : WOp :=
  let o := op2Of f c
  vperm (.vsldn a b c m f) o a m fun st en e =>
    if e + o.k en.opc < en.n then st.elem b en.w (e + o.k en.opc) else 0
def execVsldn (a b c : BitVec 5) (m : BitVec 3) (f : BitVec 2) (s : State) : Out := issue (opVsldn a b c m f) s

/-- VRGATH (R168). -/
def opVrgath (a b c : BitVec 5) (m : BitVec 3) : WOp :=
  vperm (.vrgath a b c m) (.vec c) a m fun st en e =>
    let j := st.elem c en.w e
    if j < en.n then st.elem b en.w j else 0
def execVrgath (a b c : BitVec 5) (m : BitVec 3) (s : State) : Out := issue (opVrgath a b c m) s

/-- VROWS (R168): the destination is elements 0 to VL − 1. -/
def opVrows (a b c : BitVec 5) (m : BitVec 3) (f : BitVec 2) : WOp :=
  let o := op2Of f c
  { ins := .vrows a b c m f, gsrc := o.gs, etypes := isElem, latch := o.latch,
    shape := fun st => decide (st.rl.toNat ≤ o.kNow st),
    body := .regs fun st en =>
      Eff.quiet [guarded (.v a) en.w en.vl.toNat en (en.act st m) fun e =>
        st.elem b en.w (o.k en.opc * en.vl.toNat + e)] }
def execVrows (a b c : BitVec 5) (m : BitVec 3) (f : BitVec 2) (s : State) : Out := issue (opVrows a b c m f) s

/-- VCOLS (R168): the destination is elements 0 to RL − 1. -/
def opVcols (a b c : BitVec 5) (m : BitVec 3) (f : BitVec 2) : WOp :=
  let o := op2Of f c
  { ins := .vcols a b c m f, gsrc := o.gs, etypes := isElem, latch := o.latch,
    shape := fun st => decide (st.vl.toNat ≤ o.kNow st),
    body := .regs fun st en =>
      Eff.quiet [guarded (.v a) en.w en.rl.toNat en (en.act st m) fun r =>
        st.elem b en.w (r * en.vl.toNat + o.k en.opc)] }
def execVcols (a b c : BitVec 5) (m : BitVec 3) (f : BitVec 2) (s : State) : Out := issue (opVcols a b c m f) s

/-- Writes to a set of elements outside which no policy applies (R169). -/
def scattered (a : BitVec 5) (en : Entry) (dest act : Nat → Bool) (f : Nat → Nat) : VWrite :=
  { reg := .v a, w := en.w, upto := en.n, val := fun e => if dest e then policed en (act e) (f e) else none, tail := none }

/-- VROWW (R168, R169). -/
def opVroww (a b c : BitVec 5) (m : BitVec 3) (f : BitVec 2) : WOp :=
  let o := op2Of f c
  { ins := .vroww a b c m f, gsrc := o.gs, etypes := isElem, latch := o.latch,
    shape := fun st => decide (st.rl.toNat ≤ o.kNow st),
    body := .regs fun st en =>
      let lo := o.k en.opc * en.vl.toNat
      Eff.quiet [scattered a en (fun e => decide (lo ≤ e) && decide (e < lo + en.vl.toNat)) (en.act st m) fun e =>
        st.elem b en.w (e - lo)] }
def execVroww (a b c : BitVec 5) (m : BitVec 3) (f : BitVec 2) (s : State) : Out := issue (opVroww a b c m f) s

/-- VCOLW (R168, R169). -/
def opVcolw (a b c : BitVec 5) (m : BitVec 3) (f : BitVec 2) : WOp :=
  let o := op2Of f c
  { ins := .vcolw a b c m f, gsrc := o.gs, etypes := isElem, latch := o.latch,
    shape := fun st => decide (st.vl.toNat ≤ o.kNow st),
    body := .regs fun st en =>
      Eff.quiet [scattered a en (fun e => e % en.vl.toNat == o.k en.opc) (en.act st m) fun e =>
        st.elem b en.w (e / en.vl.toNat)] }
def execVcolw (a b c : BitVec 5) (m : BitVec 3) (f : BitVec 2) (s : State) : Out := issue (opVcolw a b c m f) s

/-- An element as a g register takes it: sign-extended for signed integer etypes, else zero-extended (R168). -/
def extend (t x : Nat) : Word := if isSigned t then BitVec.ofInt 64 (sval (sewOf t) x) else BitVec.ofNat 64 x

/-- VEXTR (R168, R169): with VL = 0 it writes 0. -/
def opVextr (a b c : BitVec 5) (f : BitVec 2) : WOp :=
  let o := op2Of f c
  { ins := .vextr a b c f, gsrc := o.gs, etypes := isElem, latch := o.latch,
    shape := fun st => decide (st.nElems ≤ o.kNow st),
    body := .regs fun st en =>
      { writes := [], nfl := 0, fl := fun _ => 0,
        g := some (if en.vl == 0#32 then 0 else extend en.et (st.elem b en.w (o.k en.opc))) } }
def execVextr (a b c : BitVec 5) (f : BitVec 2) (s : State) : Out := issue (opVextr a b c f) s

/-- VINS (R168, R169): unguarded, one element. -/
def opVins (a b c : BitVec 5) (f : BitVec 2) : WOp :=
  let o := op2Of f c
  { ins := .vins a b c f, gsrc := b :: o.gs, etypes := isElem, latch := fun st => { o.latch st with opb := st.rg b },
    shape := fun st => decide (st.nElems ≤ o.kNow st),
    body := .regs fun _ en => Eff.quiet [scattered a en (fun e => e == o.k en.opc) (fun _ => true) fun _ => en.opb.toNat] }
def execVins (a b c : BitVec 5) (f : BitVec 2) (s : State) : Out := issue (opVins a b c f) s

/-- VMERGE (R168, R169): every element below N is written. -/
def opVmerge (a b c : BitVec 5) (m : BitVec 3) (f : BitVec 2) : WOp :=
  let o := op2Of f c
  { ins := .vmerge a b c m f, gsrc := o.gs, etypes := isElem, latch := o.latch,
    body := .regs fun st en =>
      Eff.quiet [plain (.v a) en.w en.n fun e => if en.act st m e then o.val st en en.w e else st.elem b en.w e] }
def execVmerge (a b c : BitVec 5) (m : BitVec 3) (f : BitVec 2) (s : State) : Out := issue (opVmerge a b c m f) s

/-- VID (R168). -/
def opVid (a : BitVec 5) (m : BitVec 3) : WOp :=
  { ins := .vid a m, gsrc := [], etypes := isInt,
    body := .regs fun st en => Eff.quiet [guarded (.v a) en.w en.n en (en.act st m) fun e => e % 2 ^ en.w] }
def execVid (a : BitVec 5) (m : BitVec 3) (s : State) : Out := issue (opVid a m) s

end Sys2Proof.Machine
end

