-- ==== Sys2Proof/Machine/VectorSparse.lean ====
section
/-! DEFINITION. Sparse and irregular instructions: VSPARSE (R170 to R181). -/

namespace Sys2Proof.Machine

/-- VCOMPRESS (R173). -/
def opVcompress (a b : BitVec 5) (m : BitVec 3) : WOp :=
  { ins := .vcompress a b m, gsrc := [], etypes := isElem,
    body := .regs fun st en =>
      let l := (activeList (en.act st m) en.n).toArray
      Eff.quiet [plain (.v a) en.w l.size fun j => st.elem b en.w (l.getD j 0)] }
def execVcompress (a b : BitVec 5) (m : BitVec 3) (s : State) : Out := issue (opVcompress a b m) s

/-- VEXPAND (R173). -/
def opVexpand (a b : BitVec 5) (m : BitVec 3) : WOp :=
  { ins := .vexpand a b m, gsrc := [], etypes := isElem,
    body := .regs fun st en =>
      Eff.quiet [guarded (.v a) en.w en.n en (en.act st m) fun e => st.elem b en.w (activeBelow (en.act st m) e)] }
def execVexpand (a b : BitVec 5) (m : BitVec 3) (s : State) : Out := issue (opVexpand a b m) s

/-- VIOTA (R173): it counts the bits of mB, not those of the guard. -/
def opViota (a : BitVec 5) (b m : BitVec 3) : WOp :=
  { ins := .viota a b m, gsrc := [], etypes := isInt,
    body := .regs fun st en =>
      Eff.quiet [guarded (.v a) en.w en.n en (en.act st m) fun e => popCount (st.mbits b) e % 2 ^ en.w] }
def execViota (a : BitVec 5) (b m : BitVec 3) (s : State) : Out := issue (opViota a b m) s

/-- The largest index below `j` at which a condition holds. -/
def lastBelow (p : Nat → Bool) : Nat → Option Nat
  | 0 => none
  | j + 1 => if p j then some j else lastBelow p j

/-- An index taken modulo 2^w, or all ones. -/
def indexOr (w : Nat) (x : Option Nat) : Nat :=
  match x with
  | some j => j % 2 ^ w
  | none => 2 ^ w - 1

/-- VCONFLICT (R174). -/
def opVconflict (a b : BitVec 5) (m : BitVec 3) : WOp :=
  { ins := .vconflict a b m, gsrc := [], etypes := isInt,
    body := .regs fun st en =>
      Eff.quiet [guarded (.v a) en.w en.n en (en.act st m) fun e =>
        indexOr en.w (lastBelow (fun j => en.act st m j && st.elem b en.w j == st.elem b en.w e) e)] }
def execVconflict (a b : BitVec 5) (m : BitVec 3) (s : State) : Out := issue (opVconflict a b m) s

/-! ### Segmented scan -/

/-- The head of the segment of `e`. -/
def headOf (st : Strand) (m : BitVec 3) (e : Nat) : Nat := (lastBelow (isHead st m) (e + 1)).getD 0

/-- Etypes that a scan operator accepts (R175). -/
def scanTypes (op t : Nat) : Bool := if op < 6 then isInt t else isFpArith t

/-- Integer combination under scan operators 0 to 5; signedness from the etype. -/
def scanInt (op t x y : Nat) : Nat :=
  match op with
  | 0 => (x + y) % 2 ^ sewOf t
  | 1 => if intVal t y < intVal t x then y else x
  | 2 => if intVal t x < intVal t y then y else x
  | 3 => x &&& y
  | 4 => x ||| y
  | _ => x ^^^ y

/-- The tree of an entry's sums (R155, R176), by the GVLEN of its entry: the choice with `n` parts left. -/
def Entry.treeChoice (en : Entry) (n : Nat) : Nat :=
  Config.treePick en.gvlen.toNat en.vl.toNat en.rl.toNat en.et n

/-- The scan of a segment's terms. -/
def scanResult (en : Entry) (op : Nat) (l : List Nat) : Res :=
  let k := fmtOf en.et
  match op with
  | 6 => fpSum en.repro k en.rm (en.treeChoice) (l.map fun x => some (unpack k x))
  | 7 => fpExtreme k false 0 l
  | 8 => fpExtreme k true 0 l
  | _ =>
    match l with
    | [] => ⟨0, 0⟩
    | x :: t => ⟨t.foldl (scanInt op en.et) x, 0⟩

/-- VSEGSCAN (R175, R176). -/
def opVsegscan (a b o : BitVec 5) (m : BitVec 3) : WOp :=
  { ins := .vsegscan a b o m, gsrc := [], etypes := scanTypes o.toNat,
    body := .regs fun st en =>
      let r := fun e =>
        let h := headOf st m e
        scanResult en o.toNat ((List.range (e + 1 - h)).map fun i => st.elem b en.w (h + i))
      { writes := [plain (.v a) en.w en.n fun e => (r e).bits], nfl := en.n, fl := fun e => (r e).fl, g := none } }
def execVsegscan (a b o : BitVec 5) (m : BitVec 3) (s : State) : Out := issue (opVsegscan a b o m) s

/-! ### Search and delta -/

/-- VINTER (R177). -/
def opVinter (a b c : BitVec 5) (m : BitVec 3) : WOp :=
  { ins := .vinter a b c m, gsrc := [], etypes := isInt,
    body := .regs fun st en =>
      Eff.quiet [guarded (.v a) en.w en.n en (en.act st m) fun e =>
        indexOr en.w (firstFrom (fun j => st.elem c en.w j == st.elem b en.w e) 0 en.n)] }
def execVinter (a b c : BitVec 5) (m : BitVec 3) (s : State) : Out := issue (opVinter a b c m) s

/-- The difference of a new and a kept sample. -/
def deltaOf (en : Entry) (b c : Nat) : Res :=
  if isInt en.et then ⟨iSub en.w b c, 0⟩ else fpSub (fmtOf en.et) en.rm b c

/-- VDELTA (R178): vC takes the new sample at active elements only. -/
def opVdelta (a b c : BitVec 5) (m : BitVec 3) : WOp :=
  { ins := .vdelta a b c m, gsrc := [], etypes := fun t => decide (t < 12), shape := fun _ => a == c,
    body := .regs fun st en =>
      let r := fun e => deltaOf en (st.elem b en.w e) (st.elem c en.w e)
      { writes := [guarded (.v a) en.w en.n en (en.act st m) fun e => (r e).bits,
          { reg := .v c, w := en.w, upto := en.n,
            val := fun e => if en.act st m e then some (st.elem b en.w e) else none, tail := none }],
        nfl := en.n, fl := fun e => if en.act st m e then (r e).fl else 0, g := none } }
def execVdelta (a b c : BitVec 5) (m : BitVec 3) (s : State) : Out := issue (opVdelta a b c m) s

/-! ### Pruning and sorting -/

/-- `x` ranks above `y` by magnitude (R179). -/
def magAbove (t x y : Nat) : Bool :=
  if isInt t then decide ((intVal t y).natAbs < (intVal t x).natAbs)
  else
    match unpack (fmtOf t) x, unpack (fmtOf t) y with
    | .nan _, .nan _ => false
    | .nan _, _ => true
    | _, .nan _ => false
    | a, b => decide (cmpVal (if b.isNeg then b.negate else b) (if a.isNeg then a.negate else a) < 0)

/-- Position `i` of a block of 8 is among the four highest-ranked: fewer than four others rank above it (R179). -/
def kept (t : Nat) (x : Nat → Nat) (i : Nat) : Bool :=
  decide (((List.range 8).filter fun j => j != i &&
    (magAbove t (x j) (x i) || (!magAbove t (x i) (x j) && decide (j < i)))).length < 4)

/-- The kept positions of block `j`, ascending. -/
def keptOf (st : Strand) (en : Entry) (b : BitVec 5) (j : Nat) : List Nat :=
  (List.range 8).filter (kept en.et fun i => st.elem b en.w (8 * j + i))

/-- VPRUNE48 (R179). -/
def opVprune48 (a b c : BitVec 5) : WOp :=
  { ins := .vprune48 a b c, gsrc := [],
    etypes := fun t => t == 0 || t == 1 || t == 8 || t == 9 || t == 12 || t == 13,
    shape := fun st => a == c || st.vl.toNat % 8 != 0,
    body := .regs fun st en =>
      Eff.quiet [plain (.v a) en.w (en.n / 2) fun i =>
          st.elem b en.w (8 * (i / 4) + (keptOf st en b (i / 4)).getD (i % 4) 0),
        plain (.v c) 8 (en.n / 8) fun j => ((keptOf st en b j).map fun i => 2 ^ i).sum] }
def execVprune48 (a b c : BitVec 5) (s : State) : Out := issue (opVprune48 a b c) s

/-- Insert an index into a list sorted by key, before the first larger key: it stands after equal ones. -/
def insertBy (key : Nat → Int) (e : Nat) : List Nat → List Nat
  | [] => [e]
  | x :: r => if key e < key x then e :: x :: r else x :: insertBy key e r

/-- A stable ascending sort of an ascending list of indices. -/
def sortBy (key : Nat → Int) (l : List Nat) : List Nat := l.foldl (fun acc e => insertBy key e acc) []

/-- VSORTSEG (R180). -/
def opVsortseg (a b c : BitVec 5) (m : BitVec 3) : WOp :=
  { ins := .vsortseg a b c m, gsrc := [], etypes := isInt,
    shape := fun st => a == c || decide (st.nElems * 32 > st.grsz.toNat * 8),
    body := .regs fun st en =>
      let l := (sortBy (fun e => intVal en.et (st.elem b en.w e)) (activeList (en.act st m) en.n)).toArray
      Eff.quiet [plain (.v a) en.w l.size fun i => st.elem b en.w (l.getD i 0), plain (.v c) 32 l.size fun i => l.getD i 0] }
def execVsortseg (a b c : BitVec 5) (m : BitVec 3) (s : State) : Out := issue (opVsortseg a b c m) s

/-- VNZ (R181). -/
def opVnz (a b c : BitVec 5) (m : BitVec 3) : WOp :=
  { ins := .vnz a b c m, gsrc := [], etypes := fun t => decide (t < 14),
    shape := fun st => decide (st.nElems * 32 > st.grsz.toNat * 8),
    body := .regs fun st en =>
      let l := (activeList (fun e => en.act st m e && nonzero en.et (st.elem b en.w e)) en.n).toArray
      { writes := [plain (.v a) 32 l.size fun i => l.getD i 0], nfl := 0, fl := fun _ => 0,
        g := some (BitVec.ofNat 64 l.size) } }
def execVnz (a b c : BitVec 5) (m : BitVec 3) (s : State) : Out := issue (opVnz a b c m) s

end Sys2Proof.Machine
end

