-- ==== Sys2Proof/Machine/VectorReduce.lean ====
section
/-! DEFINITION. Per-row reductions: VRED (R182 to R185). -/

namespace Sys2Proof.Machine

/-- The elements of row `r` that are active, as positions of the row. -/
def rowTerms (st : Strand) (en : Entry) (m : BitVec 3) (f : Nat → α) (r : Nat) : List (Option α) :=
  (List.range en.vl.toNat).map fun c =>
    let e := r * en.vl.toNat + c
    if en.act st m e then some (f e) else none

/-- A reduction: one result per row, tail from RL (R183). -/
def vred (i : Instr) (ets : Nat → Bool) (a : BitVec 5) (f : Strand → Entry → Nat → Res) : WOp :=
  { ins := i, gsrc := [], etypes := ets,
    body := .regs fun st en =>
      { writes := [plain (.v a) en.w en.rl.toNat fun r => (f st en r).bits], nfl := en.rl.toNat,
        fl := fun r => (f st en r).fl, g := none } }

/-- An integer reduction with its empty-row result. -/
def vredInt (i : Instr) (a b : BitVec 5) (m : BitVec 3) (op : Nat) (empty : Nat → Nat) : WOp :=
  vred i isInt a fun st en r =>
    match (rowTerms st en m (st.elem b en.w) r).filterMap id with
    | [] => ⟨empty en.et, 0⟩
    | x :: t => ⟨t.foldl (scanInt op en.et) x, 0⟩

/-- VRSUM (R182, R183). -/
def opVrsum (a b : BitVec 5) (m : BitVec 3) : WOp := vredInt (.vrsum a b m) a b m 0 (fun _ => 0)
def execVrsum (a b : BitVec 5) (m : BitVec 3) (s : State) : Out := issue (opVrsum a b m) s

/-- VRMIN (R182, R183). -/
def opVrmin (a b : BitVec 5) (m : BitVec 3) : WOp := vredInt (.vrmin a b m) a b m 1 (fun t => wrapInt (sewOf t) (intMax t))
def execVrmin (a b : BitVec 5) (m : BitVec 3) (s : State) : Out := issue (opVrmin a b m) s

/-- VRMAX (R182, R183). -/
def opVrmax (a b : BitVec 5) (m : BitVec 3) : WOp := vredInt (.vrmax a b m) a b m 2 (fun t => wrapInt (sewOf t) (intMin t))
def execVrmax (a b : BitVec 5) (m : BitVec 3) (s : State) : Out := issue (opVrmax a b m) s

/-- VRAND (R182, R183). -/
def opVrand (a b : BitVec 5) (m : BitVec 3) : WOp := vredInt (.vrand a b m) a b m 3 (fun t => 2 ^ sewOf t - 1)
def execVrand (a b : BitVec 5) (m : BitVec 3) (s : State) : Out := issue (opVrand a b m) s

/-- VROR (R182, R183). -/
def opVror (a b : BitVec 5) (m : BitVec 3) : WOp := vredInt (.vror a b m) a b m 4 (fun _ => 0)
def execVror (a b : BitVec 5) (m : BitVec 3) (s : State) : Out := issue (opVror a b m) s

/-- VRXOR (R182, R183). -/
def opVrxor (a b : BitVec 5) (m : BitVec 3) : WOp := vredInt (.vrxor a b m) a b m 5 (fun _ => 0)
def execVrxor (a b : BitVec 5) (m : BitVec 3) (s : State) : Out := issue (opVrxor a b m) s

/-- VFRSUM (R184). -/
def opVfrsum (a b : BitVec 5) (m : BitVec 3) : WOp :=
  vred (.vfrsum a b m) isFpArith a fun st en r =>
    let k := fmtOf en.et
    fpSum en.repro k en.rm (en.treeChoice) (rowTerms st en m (fun e => unpack k (st.elem b en.w e)) r)
def execVfrsum (a b : BitVec 5) (m : BitVec 3) (s : State) : Out := issue (opVfrsum a b m) s

/-- A reduction to the minimum or maximum number (R183). -/
def vredExtreme (i : Instr) (a b : BitVec 5) (m : BitVec 3) (mx : Bool) : WOp :=
  vred i isFpArith a fun st en r =>
    let k := fmtOf en.et
    fpExtreme k mx (k.signed mx k.inf) ((rowTerms st en m (st.elem b en.w) r).filterMap id)

/-- VFRMIN (R183). -/
def opVfrmin (a b : BitVec 5) (m : BitVec 3) : WOp := vredExtreme (.vfrmin a b m) a b m false
def execVfrmin (a b : BitVec 5) (m : BitVec 3) (s : State) : Out := issue (opVfrmin a b m) s
/-- VFRMAX (R183). -/
def opVfrmax (a b : BitVec 5) (m : BitVec 3) : WOp := vredExtreme (.vfrmax a b m) a b m true
def execVfrmax (a b : BitVec 5) (m : BitVec 3) (s : State) : Out := issue (opVfrmax a b m) s

/-- The exact product of an element pair, or the product rounded to the etype. -/
def dotTerm (k : Fmt) (rm : Rm) (rounds : Bool) (x y : Nat) : Val × Flags :=
  let p := mulVal (unpack k x) (unpack k y)
  if rounds then
    let r := roundVal k rm p.1
    (unpack k r.bits, p.2 ||| r.fl)
  else p

/-- VFDOT (R154 rule 4, R184): with REPRO = 0 the part may round each product (log 7). -/
def opVfdot (a b c : BitVec 5) (m : BitVec 3) : WOp :=
  vred (.vfdot a b c m) isFpArith a fun st en r =>
    let k := fmtOf en.et
    let rounds := !en.repro && Config.dotRounds en.gvlen.toNat en.vl.toNat en.rl.toNat en.et
    let l := rowTerms st en m (fun e => dotTerm k en.rm rounds (st.elem b en.w e) (st.elem c en.w e)) r
    let x := fpSum en.repro k en.rm (en.treeChoice) (l.map fun o => o.map (·.1))
    ⟨x.bits, x.fl ||| (l.filterMap id).foldl (fun fl p => fl ||| p.2) 0⟩
def execVfdot (a b c : BitVec 5) (m : BitVec 3) (s : State) : Out := issue (opVfdot a b c m) s

end Sys2Proof.Machine
end

