-- ==== Sys2Proof/Machine/VectorTag.lean ====
section
/-! DEFINITION. Tag instructions: VTAG (R186 to R189). -/

namespace Sys2Proof.Machine

/-- Length of the prefix of elements of a register whose tags a list of stretches leaves alone, from `e` on, `k` left. -/
def ripePrefix (l : List Stretch) (r : BitVec 5) (w e : Nat) : Nat → Nat
  | 0 => e
  | k + 1 => if apart [vecAt r w e 1] l then ripePrefix l r w (e + 1) k else e

/-- VTAGQ (R187). -/
def opVtagq (a b : BitVec 5) : WOp :=
  { ins := .vtagq a b, gsrc := [], etypes := isElem,
    body := .sample fun s en older => BitVec.ofNat 64 (ripePrefix (hazardsAfter s Hazard.clear older).unripe b en.w 0 en.n) }
def execVtagq (a b : BitVec 5) (s : State) : Out := issue (opVtagq a b) s

/-- VWAITR (R188). -/
def opVwaitr (a b : BitVec 5) (m : BitVec 3) : WOp :=
  scalarResult (.vwaitr a b m) fun st en => BitVec.ofNat 64 (activeList (en.act st m) en.n).length
def execVwaitr (a b : BitVec 5) (m : BitVec 3) (s : State) : Out := issue (opVwaitr a b m) s

/-- VDROP (R189). -/
def opVdrop (a : BitVec 5) (m : BitVec 3) : WOp :=
  { ins := .vdrop a m, gsrc := [], etypes := isElem,
    body := .regs fun st en => Eff.quiet [guarded (.v a) en.w en.n en (en.act st m) fun _ => 0] }
def execVdrop (a : BitVec 5) (m : BitVec 3) (s : State) : Out := issue (opVdrop a m) s

/-- VPROG (R187): 32 × the progress index of the entry `n` places before it, or all ones. -/
def opVprog (a n : BitVec 5) : WOp :=
  { ins := .vprog a n, gsrc := [], etypes := isElem, anyVl := true,
    body := .sample fun _ _ older =>
      if n.toNat = 0 ∨ older.length < n.toNat then -1
      else
        match older[older.length - n.toNat]? with
        | some e => BitVec.ofNat 64 (32 * e.pidx)
        | none => -1 }
def execVprog (a n : BitVec 5) (s : State) : Out := issue (opVprog a n) s

end Sys2Proof.Machine
end

