-- ==== Sys2Proof/Machine/VectorLoad.lean ====
section
/-! DEFINITION. Vector loads: VLD (R190 to R192, R195 to R204), VLDROW (R205, R206), and the receiving end of a relay port
(R216). -/

namespace Sys2Proof.Machine

/-! ### Relay-bound registers (R215, R216) -/

/-- The slot to which a register is bound as a relay port of a mode. -/
def Strand.relaySlot (st : Strand) (send : Bool) (r : BitVec 5) : Option Nat :=
  (List.range 8).find? fun i =>
    let k := st.slotAt i
    k.status.getLsbD 0 && k.mode.getLsbD 5 && k.mode.getLsbD 0 == send && k.reg.toNat == r.toNat

/-- The direction of a slot. -/
def Slot.dir (k : Slot) : Nat := (k.mode.extractLsb' 6 2).toNat

/-- RELAY for a register of a list that is bound to a relay port of one of the modes (R216). -/
def relayCause (modes : List Bool) (regs : List (BitVec 5)) (s : State) : Acc Unit :=
  match regs.findSome? fun r => modes.findSome? fun b => s.cur.relaySlot b r with
  | some i => .trap causeRelay (BitVec.ofNat 64 (s.cur.slotAt i).dir)
  | none => .ok s ()

/-- Element `e` of a receive entry of slot `i` into register `r` takes its bytes, or zero once END has come; without either it
waits (R216). The element ripens and sets the event bit (R139). Bytes left over at END that do not make an element are dropped
and not counted (DESIGN CHOICE, log 62). -/
def receiveElem (i : Nat) (r : BitVec 5) (s : State) (en : Entry) (e : Nat) : Ran :=
  let k := s.cur.slotAt i
  let sz := en.w / 8
  let take := fun (n x : Nat) => s.upd fun st =>
    { (st.put (.v r) en.w e x).setSlot i fun k =>
        { k with arrived := k.arrived.drop n, progress := k.progress + BitVec.ofNat 32 (if n = sz then sz else 0) } with
      event := true }
  if sz ≤ k.arrived.length then .done (take sz ((k.arrived.take sz).foldr (fun b acc => b.toNat + 256 * acc) 0))
  else if k.status.getLsbD 1 then .done (take k.arrived.length 0)
  else .wait s en

/-- The body of a VLD that receives (R216). -/
def receiveBody (r : BitVec 5) : Body :=
  .parts (fun _ s en e => receiveElem ((s.cur.relaySlot false r).getD 0) r s en e) fun _ en st =>
    st.writeTail en (plain (.v r) en.w en.n fun _ => 0)

/-! ### Plain loads -/

/-- One element as a load of the etype's size at an address. -/
def getAt (addr : Nat → Word) (w : Nat) (s : State) (e : Nat) : Acc (List Nat × Flags) :=
  match s.load (addr e) (w / 8) with
  | .ok s1 x => .ok s1 ([x], 0)
  | .trap c t => .trap c t
  | .kill s1 r => .kill s1 r

/-- The index vector fits: N × 32 ≤ GRSZ × 8 (R191). -/
def indexShape (st : Strand) : Bool := decide (st.nElems * 32 > st.grsz.toNat * 8)

/-- A load of one register. -/
def loadPlan (a : BitVec 5) (m : BitVec 3) (addr : Strand → Entry → Nat → Word) (st : Strand) (en : Entry) : LoadPlan :=
  { dests := [(a, en.w)], n := en.n, act := en.act st m, get := getAt (addr st en) en.w }

/-- VLD (R196), or a relay receive (R216). -/
def opVld (a b : BitVec 5) (m : BitVec 3) : WOp :=
  { ins := .vld a b m, gsrc := [b], access := true, latch := fun st => ⟨0, st.rg b, 0, 0⟩, cause := relayCause [true] [a],
    body := .cond (fun s _ => (s.cur.relaySlot false a).isSome)
      (receiveBody a)
      (.load (loadPlan a m fun _ en => unitAddr en)) }
def execVld (a b : BitVec 5) (m : BitVec 3) (s : State) : Out := issue (opVld a b m) s

/-- VLDS (R196). -/
def opVlds (a b c : BitVec 5) (m : BitVec 3) : WOp :=
  { ins := .vlds a b c m, gsrc := [b, c], access := true, latch := fun st => ⟨0, st.rg b, st.rg c, 0⟩,
    cause := relayCause [true, false] [a], body := .load (loadPlan a m fun _ en => strideAddr en) }
def execVlds (a b c : BitVec 5) (m : BitVec 3) (s : State) : Out := issue (opVlds a b c m) s

/-- VLDX (R196, R197). -/
def opVldx (a b c : BitVec 5) (m : BitVec 3) : WOp :=
  { ins := .vldx a b c m, gsrc := [b], access := true, latch := fun st => ⟨0, st.rg b, 0, 0⟩, shape := indexShape,
    cause := relayCause [true, false] [a, c],
    body := .load (loadPlan a m fun st => indexAddr st c) }
def execVldx (a b c : BitVec 5) (m : BitVec 3) (s : State) : Out := issue (opVldx a b c m) s

/-- VLDL (R199): a gather of linked loads; the generation advances before the first tag is set. -/
def opVldl (a b c : BitVec 5) (m : BitVec 3) : WOp :=
  { ins := .vldl a b c m, gsrc := [b], access := true, latch := fun st => ⟨0, st.rg b, 0, 0⟩, shape := indexShape,
    cause := relayCause [true, false] [a, c],
    body := .load fun st en =>
      { loadPlan a m (fun st => indexAddr st c) st en with
        first := fun s => s.upd Strand.nextGen,
        get := fun s e =>
          match s.loadLinked (indexAddr st c en e) (en.w / 8) with
          | .ok s1 x => .ok s1 ([x], 0)
          | .trap k t => .trap k t
          | .kill s1 r => .kill s1 r } }
def execVldl (a b c : BitVec 5) (m : BitVec 3) (s : State) : Out := issue (opVldl a b c m) s

/-- VLDSC (R94, R201): one element at a time, each under its ticket. -/
def opVldsc (a b c : BitVec 5) (m : BitVec 3) : WOp :=
  { ins := .vldsc a b c m, gsrc := [b], access := true, latch := fun st => ⟨0, st.rg b, 0, 0⟩, shape := indexShape,
    cause := relayCause [true, false] [a, c],
    body := .load fun st en =>
      { loadPlan a m (fun st => indexAddr st c) st en with
        get := fun s e =>
          match getAt (indexAddr st c en) en.w s e with
          | .ok s1 x => .ok s1.drawTicket x
          | x => x } }
def execVldsc (a b c : BitVec 5) (m : BitVec 3) (s : State) : Out := issue (opVldsc a b c m) s

/-! ### Segments -/

/-- Memory field type and element type of a segment access do not go together (R202). -/
def segTypes (mt : BitVec 4) (t : Nat) : Bool := mt != 14#4 && t != 14 && t != 15 && sameClass mt.toNat t

/-- Fields `f` on, `k` left, of record `e`, converted to etype `t`. -/
def getFields (en : Entry) (mt : BitVec 4) (nf : Nat) (s : State) (e f : Nat) : Nat → Acc (List Nat × Flags)
  | 0 => .ok s ([], 0)
  | k + 1 =>
    match s.load (fieldAddr en mt nf f e) (sewOf mt.toNat / 8) with
    | .trap c t => .trap c t
    | .kill s1 r => .kill s1 r
    | .ok s1 x =>
      let r := convert mt.toNat en.et .rne true x
      match getFields en mt nf s1 e (f + 1) k with
      | .ok s2 y => .ok s2 (r.bits :: y.1, r.fl ||| y.2)
      | y => y

/-- VLDSEG (R202). -/
def opVldseg (a b : BitVec 5) (t : BitVec 4) (m f : BitVec 3) : WOp :=
  let nf := f.toNat + 1
  { ins := .vldseg a b t m f, gsrc := [b], access := true, etypes := segTypes t, latch := fun st => ⟨0, st.rg b, 0, 0⟩,
    cause := relayCause [true, false] (fieldRegs a f),
    body := .load fun st en =>
      { dests := (fieldRegs a f).map fun r => (r, en.w), n := en.n, act := en.act st m,
        get := fun s e => getFields en t nf s e 0 nf } }
def execVldseg (a b : BitVec 5) (t : BitVec 4) (m f : BitVec 3) (s : State) : Out := issue (opVldseg a b t m f) s

/-! ### Weight store -/

/-- WSSTATE of the die of the strand in focus. -/
def State.wsNow (s : State) : Word := s.wsStateWord (coreDie s.cur.core.toNat)

/-- One element from the weight store of the issuing die (R203). -/
def getWs (addr : Nat → Word) (w : Nat) (s : State) (e : Nat) : Acc (List Nat × Flags) :=
  let a := (addr e).toNat
  if a % (w / 8) ≠ 0 then .trap causeMisalign (addr e)
  else if 2 ^ 30 ≤ a then .trap causeAccess (addr e)
  else
    let p := coreDie s.cur.core.toNat * 2 ^ 30 + a
    if Sparse.get false s.wsPoison (p / 64) then .kill s 2 else .ok s ([leBytes s.wsByte p (w / 8)], 0)

/-- VLDW (R203). -/
def opVldw (a b : BitVec 5) (m : BitVec 3) : WOp :=
  { ins := .vldw a b m, gsrc := [b], access := true, latch := fun st => ⟨0, st.rg b, 0, 0⟩,
    cause := fun s =>
      match relayCause [true, false] [a] s with
      | .ok s1 _ => if s1.wsNow.setWidth 2 == 2#2 then .ok s1 () else .trap causeWsBusy s1.wsNow
      | x => x,
    body := .load fun st en =>
      { dests := [(a, en.w)], n := en.n, act := en.act st m, get := getWs (unitAddr en) en.w } }
def execVldw (a b : BitVec 5) (m : BitVec 3) (s : State) : Out := issue (opVldw a b m) s

/-! ### Whole-register images -/

/-- The header of an image admits this strand (R204). -/
def headerOk (st : Strand) (x : Nat) : Bool := x % 2 ^ 32 == 0x06405652 && x / 2 ^ 128 % 2 ^ 32 == st.grsz.toNat

/-- Element `e` of an image; element 0 comes with the header. -/
def getImage (en : Entry) (s : State) (e : Nat) : Acc (List Nat × Flags) :=
  let elem := fun s => getAt (imageAddr en) en.w s e
  if e = 0 then
    match s.load en.opb 64 with
    | .trap c t => .trap c t
    | .kill s1 r => .kill s1 r
    | .ok s1 x => if headerOk s1.cur x then elem s1 else .trap causeShape (en.word.setWidth 64)
  else elem s

/-- VRLOAD (R204). -/
def opVrload (a b : BitVec 5) : WOp :=
  { ins := .vrload a b, gsrc := [b], access := true, latch := fun st => ⟨0, st.rg b, 0, 0⟩, cause := relayCause [true, false] [a],
    ngrp := fun st => groupsOf st.capacity,
    body := .load fun st en =>
      { dests := [(a, en.w)], n := st.grsz.toNat * 8 / en.w, act := fun _ => true, get := getImage en } }
def execVrload (a b : BitVec 5) (s : State) : Out := issue (opVrload a b) s

/-! ### Rows -/

/-- A place further on in the same page. -/
def Loc.plus (l : Loc) (n : Nat) : Loc :=
  match l with
  | .dev pa => .dev (pa + n)
  | .host a => .host (a + n)

/-- The place of a row of `n` elements of `sz` bytes, or its fault (R205). Host memory takes no rows (R309). -/
def rowPlace (s : State) (va : Word) (n sz : Nat) (k : Kind) : Except (BitVec 8) Loc :=
  if va.toNat % sz ≠ 0 ∨ va.toNat % 4096 + n * sz > 4096 then .error causeMisalign
  else
    match s.translate s.cur va k with
    | .error c => .error c
    | .ok (.dev pa, true) => .ok (.dev pa)
    | .ok _ => .error causeAccess

/-- The elements of a row from `e` on, read together; a poisoned sector kills at the element that meets it (R20). -/
def readRow (s : State) (l : Loc) (sz e : Nat) : Nat → Acc (List Nat) × Nat
  | 0 => (.ok s [], e)
  | k + 1 =>
    match s.readLoc (l.plus (e * sz)) sz with
    | .trap c t => (.trap c t, e)
    | .kill s1 r => (.kill s1 r, e)
    | .ok s1 x =>
      match readRow s1 l sz (e + 1) k with
      | (.ok s2 t, n) => (.ok s2 (x :: t), n)
      | y => y

/-- The row limit: N × s ≤ 4,096. -/
def rowShape (st : Strand) : Bool := decide (st.nElems * (sewOf (st.vtype.toNat % 16) / 8) > 4096)

/-- VLDROW (R205): one indivisible read, in one group of progress. -/
def opVldrow (a b : BitVec 5) (m : BitVec 3) : WOp :=
  { ins := .vldrow a b m, gsrc := [b], access := true, shape := rowShape, cause := relayCause [true, false] [a],
    latch := fun st => ⟨0, st.rg b, 0, 0⟩, ngrp := fun _ => 1,
    body := .run fun s en =>
      if en.vl == 0#32 then .done s
      else
        match rowPlace s en.opb en.n (en.w / 8) .read with
        | .error c => .stop s en c en.opb 0
        | .ok l =>
          match readRow s l (en.w / 8) 0 en.n with
          | (.trap c t, e) => .stop s en c t e
          | (.kill s1 r, e) => .kill s1 r e
          | (.ok s1 xs, _) =>
            let v := xs.toArray
            let x := Eff.quiet [guarded (.v a) en.w en.n en (en.act s.cur m) fun e => v.getD e 0]
            .done (s1.upd fun st => x.tails en (x.fire (fun _ => true) st)) }
def execVldrow (a b : BitVec 5) (m : BitVec 3) (s : State) : Out := issue (opVldrow a b m) s

end Sys2Proof.Machine
end

