-- ==== Sys2Proof/Machine/VectorStore.lean ====
section
/-! DEFINITION. Vector stores: VST (R193, R196, R198, R200 to R202, R204), VSTROW (R205, R206), and the sending end of a
relay port (R216). -/

namespace Sys2Proof.Machine

/-- One element as a write at an address. -/
def spanAt (addr : Word) (n x : Nat) (s : State) : Except (BitVec 8 × Word) (List Span) :=
  match s.place addr n .write with
  | .error c => .error (c, addr)
  | .ok l => .ok [⟨l, n, x⟩]

/-- A store of one register. -/
def storePlan (a : BitVec 5) (m : BitVec 3) (addr : Strand → Entry → Nat → Word) (st : Strand) (en : Entry) : StorePlan :=
  { n := en.n, act := en.act st m, spans := fun s e => spanAt (addr st en e) (en.w / 8) (st.elem a en.w e) s }

/-! ### Relay sends -/

/-- The strand's relay partner in a direction (R215). -/
def State.partner (s : State) (st : Strand) (dir : Nat) : Option Strand :=
  s.strands.find? (isPartner (s.perCoreOf st) st dir)

/-- A window entry receives through slot `i`. -/
def receivesOn (st : Strand) (i : Nat) (en : Entry) : Bool :=
  match en.ins with
  | .vld a _ _ => st.relaySlot false a == some i
  | _ => false

/-- Bytes for which a strand's receive entries on slot `i` have still room, beyond those on their way (R216). -/
def receiveRoom (st : Strand) (i : Nat) : Nat :=
  let k := st.slotAt i
  ((st.window.filter (receivesOn st i)).map fun en =>
      ((List.range en.n).filter fun e => !en.fired e).length * (en.w / 8)).sum - (k.arrived.length + k.inflight.length)

/-- The number of a strand's receive slot for a direction. -/
def Strand.receiveSlot (st : Strand) (dir : Nat) : Option Nat :=
  (List.range 8).find? fun i => (st.slotAt i).isRelay false dir

/-- The little-endian bytes of an element. -/
def bytesOf (x : Nat) : Nat → List Byte
  | 0 => []
  | n + 1 => BitVec.ofNat 8 x :: bytesOf (x / 256) n

/-- The bytes that group `g` of a send carries: those of its active elements, in ascending order. -/
def sendBytes (a : BitVec 5) (m : BitVec 3) (st : Strand) (en : Entry) (g : Nat) : List Byte :=
  (((List.range 32).map fun i => 32 * g + i).filter (en.act st m)).flatMap fun e => bytesOf (st.elem a en.w e) (en.w / 8)

/-- Group `g` of a send begins once the partner's receive entries cover it (R216). -/
def sendGroup (a : BitVec 5) (m : BitVec 3) (s : State) (en : Entry) (g : Nat) : Ran :=
  let i := (s.cur.relaySlot true a).getD 0
  let dir := (s.cur.slotAt i).dir
  let bytes := sendBytes a m s.cur en g
  match (s.partner s.cur dir).bind fun p => (p.receiveSlot (opposite dir)).map fun j => (p, j) with
  | none => .wait s en
  | some (p, j) =>
    if bytes.length ≤ receiveRoom p j then
      let s1 := s.mapStrands (isPartner (s.perCoreOf s.cur) s.cur dir) fun p =>
        p.setSlot j fun k => { k with inflight := k.inflight ++ bytes }
      .done (s1.upd fun st => st.setSlot i fun k => { k with progress := k.progress + BitVec.ofNat 32 bytes.length })
    else .wait s en

/-- VST (R196), or a relay send (R216). -/
def opVst (a b : BitVec 5) (m : BitVec 3) : WOp :=
  { ins := .vst a b m, gsrc := [b], access := true, latch := fun st => ⟨0, st.rg b, 0, 0⟩, cause := relayCause [false] [a],
    body := .cond (fun s _ => (s.cur.relaySlot true a).isSome)
      (.parts (fun _ => sendGroup a m) fun _ _ st => st)
      (.store (storePlan a m fun _ en => unitAddr en)) }
def execVst (a b : BitVec 5) (m : BitVec 3) (s : State) : Out := issue (opVst a b m) s

/-- VSTS (R196). -/
def opVsts (a b c : BitVec 5) (m : BitVec 3) : WOp :=
  { ins := .vsts a b c m, gsrc := [b, c], access := true, latch := fun st => ⟨0, st.rg b, st.rg c, 0⟩,
    cause := relayCause [true, false] [a], body := .store (storePlan a m fun _ en => strideAddr en) }
def execVsts (a b c : BitVec 5) (m : BitVec 3) (s : State) : Out := issue (opVsts a b c m) s

/-- VSTX (R196, R198): equal addresses receive the writes in ascending element order. -/
def opVstx (a b c : BitVec 5) (m : BitVec 3) : WOp :=
  { ins := .vstx a b c m, gsrc := [b], access := true, latch := fun st => ⟨0, st.rg b, 0, 0⟩, shape := indexShape,
    cause := relayCause [true, false] [a, c], body := .store (storePlan a m fun st => indexAddr st c) }
def execVstx (a b c : BitVec 5) (m : BitVec 3) (s : State) : Out := issue (opVstx a b c m) s

/-! ### Conditional and sequentially consistent stores -/

/-- The line of a place. -/
def Loc.line (l : Loc) : Nat × Bool :=
  match l with
  | .dev pa => (pa / 64, false)
  | .host a => (a / 64, true)

/-- A lower active element of the access lies in the same line (R96). -/
def lowerInLine (s : State) (addr : Nat → Word) (act : Nat → Bool) (l : Loc) (n e : Nat) : Bool :=
  (List.range e).any fun j => act j &&
    match s.place (addr j) n .write with
    | .ok l' => l'.line == l.line
    | .error _ => false

/-- The conditional writes of a list of active elements, lowest first; success goes to m0 (R200). -/
def condElems (a : BitVec 5) (addr : Nat → Word) (act : Nat → Bool) (w : Nat) (s : State) : List Nat → State
  | [] => s
  | e :: t =>
    match s.place (addr e) (w / 8) .write with
    | .error _ => condElems a addr act w s t
    | .ok l =>
      let s0 := s.touchLoc l
      let ok := s0.tagMatches l && !lowerInLine s addr act l (w / 8) e
      let s1 := if ok then s0.writeLoc s.cur.agent l (w / 8) (s.cur.elem a w e) else s0
      condElems a addr act w (s1.upd fun st => st.put (.m 0) 1 e ok.toNat) t

/-- Group `g` of a VSTC; with the last one, when an element succeeded, the generation advances (R200). -/
def condGroup (a c : BitVec 5) (m : BitVec 3) (s : State) (en : Entry) (g : Nat) : Ran :=
  let p := storePlan a m (fun st => indexAddr st c) s.cur en
  match spansOf p s (groupElems p g) with
  | .error (e, k, t) => .stop s en k t e
  | .ok _ =>
    let s1 := condElems a (indexAddr s.cur c en) p.act en.w s (groupElems p g)
    let zero := fun (st : Strand) => if en.mpol then
        st.write (fun e => e / 32 == g && !p.act e) { plain (.m 0) 1 en.n (fun _ => 0) with tail := none }
      else st
    let s2 := s1.upd zero
    let last := (List.range en.ngrp).all fun h => h == g || en.groupDone h
    .done (if last && (List.range en.n).any fun e => p.act e && s2.cur.mbit 0 e then s2.upd Strand.nextGen else s2)

/-- VSTC (R96, R200). -/
def opVstc (a b c : BitVec 5) (m : BitVec 3) : WOp :=
  { ins := .vstc a b c m, gsrc := [b], access := true, latch := fun st => ⟨0, st.rg b, 0, 0⟩, shape := indexShape,
    cause := relayCause [true, false] [a, c],
    body := .parts (fun _ => condGroup a c m) fun _ en st => st.writeTail en (plain (.m 0) 1 en.n fun _ => 0) }
def execVstc (a b c : BitVec 5) (m : BitVec 3) (s : State) : Out := issue (opVstc a b c m) s

/-- The writes of a list of active elements, each under its ticket; a fault stops the access there (R94, R201). -/
def scElems (p : StorePlan) (en : Entry) (s : State) : List Nat → Ran
  | [] => .done s
  | e :: t =>
    match p.spans s e with
    | .error (c, v) => .stop s en c v e
    | .ok l => scElems p en (writeSpans s l).drawTicket t

/-- VSTSC (R201). Progress is kept by whole groups (R109, R116). -/
def opVstsc (a b c : BitVec 5) (m : BitVec 3) : WOp :=
  { ins := .vstsc a b c m, gsrc := [b], access := true, latch := fun st => ⟨0, st.rg b, 0, 0⟩, shape := indexShape,
    cause := relayCause [true, false] [a, c],
    body := .parts (fun _ s en g =>
        let p := storePlan a m (fun st => indexAddr st c) s.cur en
        scElems p en s (groupElems p g)) fun _ _ st => st }
def execVstsc (a b c : BitVec 5) (m : BitVec 3) (s : State) : Out := issue (opVstsc a b c m) s

/-! ### Segments, images and rows -/

/-- The writes of fields `f` on, `k` left, of record `e`. -/
def fieldSpans (a : BitVec 5) (mt : BitVec 4) (nf : Nat) (st : Strand) (en : Entry) (s : State) (e f : Nat) :
    Nat → Except (BitVec 8 × Word) (List Span)
  | 0 => .ok []
  | k + 1 =>
    let x := convert en.et mt.toNat .rne true (st.elem (a + BitVec.ofNat 5 f) en.w e)
    match spanAt (fieldAddr en mt nf f e) (sewOf mt.toNat / 8) x.bits s with
    | .error x => .error x
    | .ok l =>
      match fieldSpans a mt nf st en s e (f + 1) k with
      | .error x => .error x
      | .ok r => .ok (l ++ r)

/-- VSTSEG (R202). -/
def opVstseg (a b : BitVec 5) (t : BitVec 4) (m f : BitVec 3) : WOp :=
  let nf := f.toNat + 1
  { ins := .vstseg a b t m f, gsrc := [b], access := true, etypes := segTypes t, latch := fun st => ⟨0, st.rg b, 0, 0⟩,
    cause := relayCause [true, false] (fieldRegs a f),
    body := .store fun st en =>
      { n := en.n, act := en.act st m, spans := fun s e => fieldSpans a t nf st en s e 0 nf,
        fl := fun e => (fieldRegs a f).foldl (fun fl r => fl ||| (convert en.et t.toNat .rne true (st.elem r en.w e)).fl) 0 } }
def execVstseg (a b : BitVec 5) (t : BitVec 4) (m f : BitVec 3) (s : State) : Out := issue (opVstseg a b t m f) s

/-- The header of a VRSAVE image (R204). -/
def imageHeader (st : Strand) (en : Entry) : Nat :=
  0x06405652 + en.vl.toNat * 2 ^ 32 + en.rl.toNat * 2 ^ 64 + en.vtype.toNat * 2 ^ 80 + en.gvlen.toNat * 2 ^ 96 +
  st.grsz.toNat * 2 ^ 128 + (if en.vl.toNat = en.gvlen.toNat / en.w then 1 else 0) * 2 ^ 160

/-- The writes of element `e` of an image; element 0 comes with the header. -/
def imageSpans (a : BitVec 5) (st : Strand) (en : Entry) (s : State) (e : Nat) : Except (BitVec 8 × Word) (List Span) :=
  match spanAt (imageAddr en e) (en.w / 8) (st.elem a en.w e) s with
  | .error x => .error x
  | .ok l =>
    if e = 0 then
      match spanAt en.opb 64 (imageHeader st en) s with
      | .error x => .error x
      | .ok h => .ok (h ++ l)
    else .ok l

/-- VRSAVE (R204): every byte of the register, without guard. -/
def opVrsave (a b : BitVec 5) : WOp :=
  { ins := .vrsave a b, gsrc := [b], access := true, latch := fun st => ⟨0, st.rg b, 0, 0⟩, cause := relayCause [true, false] [a],
    ngrp := fun st => groupsOf st.capacity,
    body := .store fun st en =>
      { n := st.grsz.toNat * 8 / en.w, act := fun _ => true,
        fault := if en.opb.toNat % 64 ≠ 0 then some (causeMisalign, en.opb) else none, spans := imageSpans a st en } }
def execVrsave (a b : BitVec 5) (s : State) : Out := issue (opVrsave a b) s

/-- VSTROW (R205): every active element in one indivisible write, in one group of progress. -/
def opVstrow (a b : BitVec 5) (m : BitVec 3) : WOp :=
  { ins := .vstrow a b m, gsrc := [b], access := true, shape := rowShape, cause := relayCause [true, false] [a],
    latch := fun st => ⟨0, st.rg b, 0, 0⟩, ngrp := fun _ => 1,
    body := .run fun s en =>
      if en.vl == 0#32 then .done s
      else
        match rowPlace s en.opb en.n (en.w / 8) .write with
        | .error c => .stop s en c en.opb 0
        | .ok l =>
          .done (writeSpans s ((activeList (en.act s.cur m) en.n).map fun e =>
            ⟨l.plus (e * (en.w / 8)), en.w / 8, s.cur.elem a en.w e⟩)) }
def execVstrow (a b : BitVec 5) (m : BitVec 3) (s : State) : Out := issue (opVstrow a b m) s

end Sys2Proof.Machine
end

