-- ==== Sys2Proof/Machine/Embedding.lean ====
section
/-! DEFINITION. Embedding lookup: VEMB (R207 to R209). -/

namespace Sys2Proof.Machine

/-- Columns `c` on, `k` left, of the row of index `i` in table `j`, widened to f32. -/
def readCols (t : Table) (j i : Nat) (s : State) (c : Nat) : Nat → Acc (List Nat × Flags)
  | 0 => .ok s ([], 0)
  | k + 1 =>
    match s.load (t.addr j i c) t.fs with
    | .trap x a => .trap x a
    | .kill s1 r => .kill s1 r
    | .ok s1 x =>
      let v : Res := if t.format = 10 then ⟨x, 0⟩ else convert t.format 10 .rne false x
      match readCols t j i s1 (c + 1) k with
      | .ok s2 y => .ok s2 (v.bits :: y.1, v.fl ||| y.2)
      | y => y

/-- Results of a list with the flags of all. -/
def withFlags (l : List Res) (fl : Flags) : List Nat × Flags := (l.map (·.bits), l.foldl (fun f r => f ||| r.fl) fl)

/-- The composed row of index `i` (R209). -/
def readRows (t : Table) (rm : Rm) (s : State) (i : Nat) : Acc (List Nat × Flags) :=
  match readCols t 0 i s 0 t.width with
  | .ok s1 x =>
    if t.ntab = 1 then .ok s1 x
    else
      match readCols t 1 i s1 0 t.width with
      | .ok s2 y =>
        let f := if t.compose = 0 then fpAdd else fpMul
        .ok s2 (withFlags ((x.1.zip y.1).map fun p => f (fmtOf 10) rm p.1 p.2) (x.2 ||| y.2))
      | z => z
  | z => z

/-- acc[c] + w × u[c], with an exact product and one rounding. -/
def accumulate (rm : Rm) (w : Nat) (acc u : List Nat) : List Nat × Flags :=
  withFlags ((acc.zip u).map fun p => fpFma (fmtOf 10) rm w p.2 p.1 false false) 0

/-- Elements `e` on, `k` left, of a segment with the sums so far (R209). -/
def embFrom (t : Table) (en : Entry) (c d : BitVec 5) (st : Strand) (s : State) (acc : List Nat) (fl : Flags) (e : Nat) :
    Nat → Except Ran (State × List Nat × Flags)
  | 0 => .ok (s, acc, fl)
  | k + 1 =>
    match readRows t en.rm s (st.elem c 64 e) with
    | .trap a v => .error (.stop s en a v e)
    | .kill s1 r => .error (.kill s1 r e)
    | .ok s1 u =>
      let y := accumulate en.rm (st.elem d 32 e) acc u.1
      embFrom t en c d st s1 y.1 (fl ||| u.2 ||| y.2) (e + 1) k

/-- Segment `i` of an entry whose table is known, on the registers of `st`. -/
def embSegment (t : Table) (a c d : BitVec 5) (m : BitVec 3) (st : Strand) (s : State) (en : Entry) (i : Nat) : Ran :=
  let x := (segmentsOf st m en.n).getD i (0, 0)
  match embFrom t en c d st s (List.replicate t.width 0) 0 x.1 (x.2 - x.1) with
  | .error r => r
  | .ok (s1, acc, fl) =>
    .done (s1.upd fun st => (acc.zipIdx.foldl (fun (st : Strand) p => st.put (.v a) 32 (i * t.width + p.2) p.1) st).raise fl)

/-- Number of segments below N (R207). -/
def segCount (st : Strand) (m : BitVec 3) (n : Nat) : Nat := (segmentsOf st m n).length

/-- Segment `i` of a VEMB: the descriptor, its checks, then the rows (R207 to R209). Every segment reads the descriptor (DESIGN
CHOICE, log 63). -/
def embPart (a c d : BitVec 5) (m : BitVec 3) (st : Strand) (s : State) (en : Entry) (i : Nat) : Ran :=
  match s.load en.opb 64 with
  | .trap k v => .stop s en k v 0
  | .kill s1 r => .kill s1 r 0
  | .ok s1 x =>
    let t := tableOf x
    if !t.ok || decide (segCount st m en.n * t.width * 32 > st.grsz.toNat * 8) then
      .stop s en causeShape (en.word.setWidth 64) 0
    else embSegment t a c d m st s1 en i

/-- VEMB (R207 to R209). -/
def opVemb (a b c d : BitVec 5) (m : BitVec 3) : WOp :=
  { ins := .vemb a b c d m, gsrc := [b], access := true, etypes := fun t => t == 10, latch := fun st => ⟨0, st.rg b, 0, 0⟩,
    shape := fun st => decide (st.nElems * 64 > st.grsz.toNat * 8), cause := relayCause [true, false] [a, c, d],
    body := .parts (embPart a c d m) fun s en st =>
      match s.tableFor en with
      | some t => st.writeTail en (plain (.v a) 32 (segCount st m en.n * t.width) fun _ => 0)
      | none => st }
def execVemb (a b c d : BitVec 5) (m : BitVec 3) (s : State) : Out := issue (opVemb a b c d m) s

end Sys2Proof.Machine
end

