-- ==== Sys2Proof/Machine/Bindings.lean ====
section
/-! DEFINITION. Bindings and relay ports: VBIND (R210, R211, R214 to R217). -/

namespace Sys2Proof.Machine

/-- Slot number of a field. -/
def slotNum (a : BitVec 3) : Word := a.setWidth 64

/-- An older entry names a register (R210). -/
def namesReg (st : Strand) (r : BitVec 5) : Bool :=
  st.window.any fun e => (st.foot e.ins).vs.contains r || (st.foot e.ins).vd.contains r

/-- The slot that a member of VBIND names. -/
def slotOfMember (i : Instr) : Option (BitVec 3) :=
  match i with
  | .vbind a _ _ | .vunbind a | .vbpos _ a | .vbset a _ | .relay a _ _ _ => some a
  | _ => none

/-- An older entry names the slot, or the register bound to it (R210). -/
def namesSlot (st : Strand) (a : BitVec 3) : Bool :=
  (st.window.any fun e => slotOfMember e.ins == some a) ||
  ((st.slotAt a.toNat).status.getLsbD 0 && namesReg st ((st.slotAt a.toNat).reg.setWidth 5))

/-- A register is bound in some slot. -/
def Strand.isBound (st : Strand) (r : BitVec 5) : Bool :=
  st.k.toList.any fun k => k.status.getLsbD 0 && k.reg.toNat == r.toNat

/-- The slot record in 32 little-endian bytes (R211). -/
def slotOf (x : Nat) : Slot :=
  let at_ := fun off n => x / 2 ^ (8 * off) % 2 ^ (8 * n)
  { base := BitVec.ofNat 64 (at_ 0 8), stride := BitVec.ofNat 32 (at_ 8 4), format := BitVec.ofNat 8 (at_ 12 1),
    mode := BitVec.ofNat 8 (at_ 13 1), reg := BitVec.ofNat 8 (at_ 14 1), status := BitVec.ofNat 8 (at_ 15 1),
    scaleBase := BitVec.ofNat 64 (at_ 16 8), length := BitVec.ofNat 32 (at_ 24 4), progress := BitVec.ofNat 32 (at_ 28 4),
    inflight := [], arrived := [] , endSent := false }

/-- A record in memory that VBIND accepts (R211). -/
def Slot.acceptable (k : Slot) : Bool :=
  k.mode.extractLsb' 5 3 == 0#3 && k.reg == 0#8 && k.status == 0#8 && decide (k.format.toNat < 15) &&
  !(k.mode.getLsbD 1 && (k.mode.getLsbD 0 || isInt k.format.toNat)) && !(k.format == 14#8 && k.mode.getLsbD 0)

/-- VBIND's checks and its effect at entry (R211). -/
def bindNow (a : BitVec 3) (b : BitVec 5) (addr : Word) (s : State) : Acc Unit :=
  if (s.cur.slotAt a.toNat).status.getLsbD 0 || s.cur.isBound b then .trap causeBind (slotNum a)
  else
    match s.load addr 32 with
    | .trap c t => .trap c t
    | .kill s1 r => .kill s1 r
    | .ok s1 x =>
      let k := slotOf x
      if k.acceptable then
        .ok (s1.upd fun st => st.setSlot a.toNat fun _ => { k with reg := b.setWidth 8, status := 1 }) ()
      else .trap causeBind (slotNum a)

/-- VBIND (R211). It takes effect at entry; the read of its record is a VEC access. -/
def opVbind (a : BitVec 3) (b c : BitVec 5) : WOp :=
  { ins := .vbind a b c, gsrc := [c], anyVl := true, holds := fun s => namesSlot s.cur a || namesReg s.cur b || !s.vecFree (s.rg c) 32,
    latch := fun st => ⟨0, 0, st.rg c, 0⟩, cause := fun s => bindNow a b (s.rg c) s, body := .run fun s _ => .done s }
def execVbind (a : BitVec 3) (b c : BitVec 5) (s : State) : Out := issue (opVbind a b c) s

/-- VUNBIND at entry (R214). What is under way to a receive slot, or has arrived there and not been taken, is dropped: the spec
does not say what becomes of it (DESIGN CHOICE, log 73). -/
def unbindNow (a : BitVec 3) (s : State) : Acc Unit :=
  let k := s.cur.slotAt a.toNat
  if !k.status.getLsbD 0 then .trap causeBind (slotNum a)
  else
    let s1 := if k.isRelay true k.dir then s.sendEnd s.cur k.dir else s
    .ok (s1.upd fun st => st.setSlot a.toNat fun k =>
      { k with status := k.status &&& 0xFE, inflight := [], arrived := [], endSent := false }) ()

/-- VUNBIND (R214): the register keeps its contents. -/
def opVunbind (a : BitVec 3) : WOp :=
  { ins := .vunbind a, gsrc := [], anyVl := true, holds := fun s => namesSlot s.cur a, cause := unbindNow a,
    body := .run fun s _ => .done s }
def execVunbind (a : BitVec 3) (s : State) : Out := issue (opVunbind a) s

/-- VBPOS (R214). It samples at entry. -/
def opVbpos (a : BitVec 5) (b : BitVec 3) : WOp :=
  { ins := .vbpos a b, gsrc := [], anyVl := true, holds := fun s => namesSlot s.cur b,
    cause := fun s => if (s.cur.slotAt b.toNat).status.getLsbD 0 then .ok s () else .trap causeBind (slotNum b),
    body := .sample fun _ en _ => en.sample }
def execVbpos (a : BitVec 5) (b : BitVec 3) (s : State) : Out := issue (opVbpos a b) s

/-- VBSET at entry (R214). -/
def bsetNow (a : BitVec 3) (x : Word) (s : State) : Acc Unit :=
  let k := s.cur.slotAt a.toNat
  if !k.status.getLsbD 0 || k.mode.getLsbD 5 || decide (2 ^ 32 ≤ x.toNat) then .trap causeBind (slotNum a)
  else .ok (s.upd fun st => st.setSlot a.toNat fun k => { k with progress := x.setWidth 32 }) ()

/-- VBSET (R214). -/
def opVbset (a : BitVec 3) (b : BitVec 5) : WOp :=
  { ins := .vbset a b, gsrc := [b], anyVl := true, holds := fun s => namesSlot s.cur a,
    latch := fun st => ⟨0, st.rg b, 0, 0⟩, cause := fun s => bsetNow a (s.rg b) s, body := .run fun s _ => .done s }
def execVbset (a : BitVec 3) (b : BitVec 5) (s : State) : Out := issue (opVbset a b) s

/-- A new relay port (R215). -/
def relayPort (b : BitVec 5) (send : BitVec 1) (dir : BitVec 2) : Slot :=
  { Slot.unbound with mode := dir ++ 1#1 ++ 0#4 ++ send, reg := b.setWidth 8, status := 1 }

/-- RELAY at entry (R215). -/
def relayNow (a : BitVec 3) (b : BitVec 5) (send : BitVec 1) (dir : BitVec 2) (s : State) : Acc Unit :=
  let st := s.cur
  if (st.slotAt a.toNat).status.getLsbD 0 || st.isBound b || st.k.toList.any (·.isRelay (send == 1#1) dir.toNat) then
    .trap causeBind (slotNum a)
  else
    match s.partner st dir.toNat with
    | none => .trap causeRelay (dir.setWidth 64)
    | some _ => .ok (s.upd fun st => st.setSlot a.toNat fun _ => relayPort b send dir) ()

/-- RELAY (R215). It takes effect at entry. -/
def opRelay (a : BitVec 3) (b : BitVec 5) (send : BitVec 1) (dir : BitVec 2) : WOp :=
  { ins := .relay a b send dir, gsrc := [], anyVl := true, holds := fun s => namesSlot s.cur a || namesReg s.cur b,
    cause := relayNow a b send dir, body := .run fun s _ => .done s }
def execRelay (a : BitVec 3) (b : BitVec 5) (send : BitVec 1) (dir : BitVec 2) (s : State) : Out :=
  issue (opRelay a b send dir) s

/-! ### Events of relay ports (R216) -/

/-- RELAY_DATA_ARRIVE for slot `i` of the strand in focus: what is on its way arrives. -/
def Strand.relayArrive (i : Nat) (st : Strand) : Strand :=
  st.setSlot i fun k => { k with arrived := k.arrived ++ k.inflight, inflight := [] }

/-- RELAY_END_MARKER for slot `i`: END is set once every datum sent before it has arrived. -/
def Strand.relayEnd (i : Nat) (st : Strand) : Strand :=
  st.setSlot i fun k => { k with status := k.status ||| 2, endSent := false }

end Sys2Proof.Machine
end

