-- ==== Sys2Proof/Machine/Control.lean ====
section
/-! DEFINITION. Transfers (R71 to R74, R130 to R132). A fetch that fails at the target is the next step's. -/

namespace Sys2Proof.Machine

/-- The fetch block of the instruction at PC. -/
def State.blk (s : State) : Word := s.cur.pc &&& ~~~0x3F#64

/-- A conditional branch (R130). -/
def branch (cond : Word → Word → Bool) (b c : BitVec 5) (o : BitVec 13) (s : State) : Out :=
  awaitG [b, c] s (.next (if cond (s.rg b) (s.rg c) then s.goto (s.blk + o.signExtend 64 <<< 6) else s.advance))

/-- BEQ (R130). -/
def execBeq (b c : BitVec 5) (o : BitVec 13) (s : State) : Out := branch (· == ·) b c o s
/-- BNE (R130). -/
def execBne (b c : BitVec 5) (o : BitVec 13) (s : State) : Out := branch (· != ·) b c o s
/-- BLT (R130). -/
def execBlt (b c : BitVec 5) (o : BitVec 13) (s : State) : Out := branch (fun x y => x.slt y) b c o s
/-- BGE (R130). -/
def execBge (b c : BitVec 5) (o : BitVec 13) (s : State) : Out := branch (fun x y => !x.slt y) b c o s
/-- BLTN (R130). -/
def execBltn (b c : BitVec 5) (o : BitVec 13) (s : State) : Out := branch (fun x y => x.ult y) b c o s
/-- BGEN (R130). -/
def execBgen (b c : BitVec 5) (o : BitVec 13) (s : State) : Out := branch (fun x y => !x.ult y) b c o s

/-- JMP (R131). -/
def execJmp (o : BitVec 26) (s : State) : Out := .next (s.goto (s.blk + o.signExtend 64 <<< 6))

/-- CALL (R131): g30 takes the next fetch block (R73). -/
def execCall (o : BitVec 26) (s : State) : Out :=
  awaitG [30#5] s (.next ((s.wg 30 (s.blk + 64)).goto (s.blk + o.signExtend 64 <<< 6)))

/-- A target with bits [5:0] zero, else BRANCH_ALIGN (R72). -/
def alignedTarget (t : Word) (s : State) (k : Out) : Out := if t.setWidth 6 == 0#6 then k else trapAt s causeBranch t

/-- JR (R132). -/
def execJr (b : BitVec 5) (s : State) : Out := awaitG [b] s (alignedTarget (s.rg b) s (.next (s.goto (s.rg b))))

/-- JALR (R132): the target is read before g30 is written. -/
def execJalr (b : BitVec 5) (s : State) : Out :=
  awaitG [b, 30#5] s (alignedTarget (s.rg b) s (.next ((s.wg 30 (s.blk + 64)).goto (s.rg b))))

end Sys2Proof.Machine
end

