-- ==== Sys2Proof/Machine/Sync.lean ====
section
/-! DEFINITION. FENCE (R93), barriers, drains and events: SYNC (R137 to R139). -/

namespace Sys2Proof.Machine

/-- Wait until `c` holds; `quiet` waits are not counted by the watchdog (R121). -/
def holdUntil (c quiet : Bool) (s : State) (k : Out) : Out := if c then k else .next (s.stall quiet)

/-- Relay bytes that the strand has sent are not all ripe in its partners' registers, whatever has become of the sending slot
(R88). -/
def State.relayBusy (s : State) : Bool :=
  (List.range 4).any fun dir =>
    s.strands.any fun p => isPartner (s.perCoreOf s.cur) s.cur dir p &&
      p.k.toList.any fun k => k.isRelay false (opposite dir) && (!k.inflight.isEmpty || !k.arrived.isEmpty)

/-- An entry that sends or receives through a relay port, and has not finished (R86). -/
def relayEntry (st : Strand) (e : Entry) : Bool :=
  !e.over &&
  match e.ins with
  | .vld a _ _ => st.relayBound false a
  | .vst a _ _ => st.relayBound true a
  | _ => false

/-- An update entry of the window. -/
def isUpd (i : Instr) : Bool :=
  match i with
  | .upd .. | .useal .. | .uflush .. | .uclose .. => true
  | _ => false

/-- A copy entry of the window. -/
def isCopy (i : Instr) : Bool :=
  match i with
  | .acopy .. => true
  | _ => false

/-- An earlier access of the strand on a path has not performed (R86, R88). -/
def State.pathBusy (s : State) (path : Nat) : Bool :=
  match path with
  | 0 => s.cur.late.any fun x => !x.vec
  | 1 => s.vecBusy
  | 2 => !s.cur.updq.isEmpty || s.cur.window.any fun e => isUpd e.ins
  | 3 => s.cur.copies.toList.any (fun c => c.st == 1#3) || s.cur.window.any fun e => isCopy e.ins
  | 4 => s.relayBusy || s.cur.window.any (relayEntry s.cur)
  | 5 => s.hostBusy
  | _ => false

/-- Every access on the paths of a mask has performed. -/
def State.performed (s : State) (mask : BitVec 6) : Bool :=
  (List.range 6).all fun p => !mask.getLsbD p || !s.pathBusy p

/-- FENCE (R93). An access of this model performs at every scope at once, so the scope adds nothing (DEDUCED, log 25), and the
after-paths hold nothing longer than the fence itself. The stores that the strand owes on a path of BEFORE have performed
before the FENCE executes in its turn (`State.settled`). -/
def execFence (_sc : BitVec 2) (before _after : BitVec 6) (s : State) : Out :=
  holdUntil (s.performed before) false s (.next s.advance)

/-! ### Barriers -/

/-- An arrival: held while the barrier releases (R137). -/
def arriveAt (nb : Option Nat) (s : State) : Out :=
  holdUntil (!(s.barrier s.cur nb).holds) false s (.next (s.arrive s.cur nb true).advance)

/-- A wait: held until the barrier releases. -/
def waitAt (nb : Option Nat) (s : State) : Out :=
  holdUntil (s.barrier s.cur nb).open true s (.next (s.pass s.cur nb).advance)

/-- BARA (R138). -/
def execBara (b : BitVec 5) (s : State) : Out := arriveAt (some b.toNat) s
/-- BARW (R138). -/
def execBarw (b : BitVec 5) (s : State) : Out := waitAt (some b.toNat) s

/-- The wait part of a BARAW. -/
def barawWait (nb : Nat) (s : State) : Out :=
  holdUntil (s.barrier s.cur (some nb)).open true s
    (.next ((s.pass s.cur (some nb)).upd fun st => { st.advance with arrived := st.arrived.erase st.pc }))

/-- BARAW (R138): the arrival executes once, then the wait. That a wait is still to come is kept with the strand, by the
address of the BARAW, and in no image or trap record (DESIGN CHOICE, log 60). -/
def execBaraw (b : BitVec 5) (s : State) : Out :=
  if s.cur.arrived.contains s.cur.pc then barawWait b.toNat s
  else
    holdUntil (!(s.barrier s.cur (some b.toNat)).holds) true s
      (barawWait b.toNat ((s.arrive s.cur (some b.toNat) true).upd fun st => { st with arrived := st.pc :: st.arrived }))

/-- BARSET (R138). -/
def execBarset (a b : BitVec 5) (s : State) : Out :=
  awaitG [a] s <|
    let x := s.barrier s.cur (some b.toNat)
    holdUntil (!x.rel && x.arrived == 0) false s
      (.next (s.setBarrier s.cur.gang s.cur.group (some b.toNat)
        { x with expect := Nat.min (s.rg a).toNat 255 }).advance)

/-- GBARA (R138). -/
def execGbara (s : State) : Out := arriveAt none s
/-- GBARW (R138). -/
def execGbarw (s : State) : Out := waitAt none s

/-- A queue of the strand is drained (R39). -/
def State.drained (s : State) (q : Nat) : Bool :=
  match q with
  | 0 => s.cur.window.isEmpty
  | 1 => s.cur.window.all fun e => e.gpend.all (· == 0#5)
  | 2 => s.cur.updq.isEmpty
  | _ => s.cur.copies.toList.all (fun c => c.st != 1#3) && s.cur.window.all fun e => !isCopy e.ins

/-- QDRAIN (R138). -/
def execQdrain (q : BitVec 4) (s : State) : Out :=
  holdUntil ((List.range 4).all fun i => !q.getLsbD i || s.drained i) false s (.next s.advance)

/-- WFE (R139). -/
def execWfe (s : State) : Out :=
  holdUntil s.cur.event true s (.next (s.upd fun st => { st.advance with event := false }))

end Sys2Proof.Machine
end

