-- ==== Sys2Proof/Machine/Copies.lean ====
section
/-! DEFINITION. The copy engine: ACOPY, and the lines, completions and faults of copies (R294 to R303). -/

namespace Sys2Proof.Machine

/-! ### Records (R294, R295, R300) -/

/-- LEN, NB, BAR and WS of a control word. -/
def ctlLen (w : Word) : Nat := w.toNat % 2 ^ 40
def ctlNb (w : Word) : Nat := w.toNat / 2 ^ 40 % 32
def ctlBar (w : Word) : Bool := w.getLsbD 45
def ctlWs (w : Word) : Bool := w.getLsbD 46

/-- Lines of a copy. -/
def CopyPos.lines (c : CopyPos) : Nat := ctlLen c.ctl / 64

/-- A copy position. -/
def Strand.copyAt (st : Strand) (i : Nat) : CopyPos := st.copies.toList.getD i CopyPos.none
/-- Change a copy position. -/
def Strand.setCopy (st : Strand) (i : Nat) (c : CopyPos) : Strand :=
  { st with copies := Vector.ofFn fun j => if j.val = i then c else st.copyAt j.val }

/-- The pending bit of a position, of either cause. -/
def Strand.copyPend (st : Strand) (i : Nat) : Bool := st.pDone.getLsbD i || st.pFault.getLsbD i

/-- A copy holds the position (R295). -/
def Strand.copyHeld (st : Strand) (i : Nat) : Bool :=
  (st.copyAt i).st == 1#3 || (st.copyAt i).st == 3#3 || st.copyPend i

/-- The position that the next ACOPY takes: the lowest free one (DESIGN CHOICE, log 71). -/
def Strand.freeCopy (st : Strand) : Option Nat := (List.range 8).find? fun i => !st.copyHeld i

/-- There are free positions that no older ACOPY entry, one that has not fired, will take. -/
def Strand.copyRoom (st : Strand) : Bool :=
  decide ((st.window.filter fun e => isCopy e.ins && !e.complete).length < ((List.range 8).filter fun i => !st.copyHeld i).length)

/-- The byte with one bit set. -/
def posBit (i : Nat) : BitVec 8 := 1#8 <<< i

/-- STATUS (R300). -/
def Strand.copyStatus (st : Strand) (i : Nat) : Word :=
  let c := st.copyAt i
  BitVec.ofNat 64 (c.st.toNat + (if st.copyPend i then 2 ^ 3 else 0) + (if c.side then 2 ^ 4 else 0) +
    (if c.poison then 2 ^ 5 else 0) + c.cause.toNat * 2 ^ 8)

/-- The position whose last ticket a word is. -/
def Strand.ticketPos (st : Strand) (t : Word) : Option Nat :=
  let i := t.toNat % 8
  if (st.copyAt i).ticket == t && (st.copyAt i).st != 0#3 then some i else none

/-- Word `w` of the record of a position (R300). -/
def Strand.copyWord (st : Strand) (i w : Nat) : Word :=
  let c := st.copyAt i
  match w with
  | 0 => st.copyStatus i
  | 1 => BitVec.ofNat 64 c.p
  | 2 => c.faddr
  | 3 => c.dst
  | 4 => c.src
  | 5 => c.ctl
  | 6 => c.d.extractLsb' 0 64
  | 7 => c.d.extractLsb' 64 64
  | 8 => c.d.extractLsb' 128 64
  | _ => c.d.extractLsb' 192 64

/-! ### Ends of a copy (R298, R299, R302) -/

/-- A fault's fields are clear. -/
def CopyPos.clean (c : CopyPos) : CopyPos := { c with side := false, poison := false, cause := 0, faddr := 0 }

/-- A completion or a fault becomes pending, and the event bit is set; in a killed gang it is discarded (R119). -/
def State.copyPending (s : State) (i : Nat) (fault : Bool) : State :=
  if s.isKilled s.cur.gang then s
  else
    s.upd fun st =>
      { st with pDone := if fault then st.pDone else st.pDone ||| posBit i,
                pFault := if fault then st.pFault ||| posBit i else st.pFault, event := true }

/-- A copy completes: DONE, and COPY_DONE becomes pending or its arrival is made, or held while its barrier releases (R137). -/
def State.copyDone (s : State) (i : Nat) : State :=
  let c := s.cur.copyAt i
  let s1 := s.upd fun st => st.setCopy i { c with st := 2 }
  if s.isKilled s.cur.gang then s1
  else if ctlBar c.ctl then s1.copyArrive s1.cur (ctlNb c.ctl) else s1.copyPending i false

/-! ### ACOPY (R297) -/

/-- The checks of ACOPY at entry. -/
def copyCause (a b c : BitVec 5) (s : State) : Acc Unit :=
  let w := s.rg a
  if w.toNat / 2 ^ 47 ≠ 0 then .trap causeAccess w
  else if ctlLen w % 64 ≠ 0 then .trap causeMisalign (BitVec.ofNat 64 (ctlLen w))
  else if (s.rg b).toNat % 64 ≠ 0 then .trap causeMisalign (s.rg b)
  else if (s.rg c).toNat % 64 ≠ 0 then .trap causeMisalign (s.rg c)
  else if ctlWs w && s.wsStateWord (coreDie s.cur.core.toNat) % 4 != 1 then
    .trap causeWsBusy (s.wsStateWord (coreDie s.cur.core.toNat))
  else if ctlWs w && decide ((s.rg b).toNat + ctlLen w > 2 ^ 30) then .trap causeAccess (s.rg b)
  else .ok s ()

/-- The ticket that the next copy receives in a position. -/
def Strand.nextTicket (st : Strand) (i : Nat) : Word := BitVec.ofNat 64 (st.copySeq.toNat * 8 + i)

/-- The record of a copy handed to the engine. -/
def Strand.newCopy (st : Strand) (i : Nat) (en : Entry) : CopyPos :=
  { CopyPos.none with ticket := st.nextTicket i, st := 1, dst := en.opb, src := en.opc, ctl := en.opa,
                      die := coreDie st.core.toNat }

/-- The firing of an ACOPY: a position, a ticket, and the copy is handed over; one of no length completes at once. -/
def copyFire (s : State) (en : Entry) : Ran :=
  match s.cur.freeCopy with
  | none => .wait s en
  | some i =>
    let s1 := s.upd fun st =>
      { ((st.setCopy i (st.newCopy i en)).returnG en (some (st.nextTicket i))) with copySeq := st.copySeq + 1 }
    .done (if ctlLen en.opa = 0 then s1.copyDone i else s1)

/-- ACOPY (R297). -/
def opAcopy (a b c : BitVec 5) : WOp :=
  { ins := .acopy a b c, gsrc := [a, b, c], anyVl := true, cause := copyCause a b c, waits := fun st => !st.copyRoom,
    latch := fun st => ⟨st.rg a, st.rg b, st.rg c, 0⟩, ngrp := fun _ => 1, body := .run copyFire }
def execAcopy (a b c : BitVec 5) (s : State) : Out := issue (opAcopy a b c) s

/-! ### ACWAIT, ACQ, ACRESUME, ACCANCEL (R300 to R302) -/

/-- A position's pending bits are clear. -/
def Strand.clearPend (st : Strand) (i : Nat) : Strand :=
  { st with pDone := st.pDone &&& ~~~posBit i, pFault := st.pFault &&& ~~~posBit i }

/-- ACWAIT (R301). -/
def execAcwait (a b : BitVec 5) (s : State) : Out :=
  awaitG [a, b] s <|
    match s.cur.ticketPos (s.rg b) with
    | none => .next (s.wg a 0).advance
    | some i =>
      holdUntil ((s.cur.copyAt i).st != 1#3) false s
        (.next (s.upd fun st => ((st.wg a (st.copyStatus i)).clearPend i).advance))

/-- ACQ (R300). -/
def execAcq (a b w : BitVec 5) (s : State) : Out :=
  awaitG [a, b] s <|
    match s.cur.ticketPos (s.rg b) with
    | none => .next (s.wg a 0).advance
    | some i => .next (s.wg a (s.cur.copyWord i w.toNat)).advance

/-- ACRESUME (R302). -/
def execAcresume (b : BitVec 5) (s : State) : Out :=
  awaitG [b] s <|
    match s.cur.ticketPos (s.rg b) with
    | none => .next s.advance
    | some i =>
      let c := s.cur.copyAt i
      if c.st == 3#3 then
        .next (s.upd fun st =>
          ({ st with pFault := st.pFault &&& ~~~posBit i }.setCopy i { c.clean with st := 1 }).advance)
      else .next s.advance

/-- ACCANCEL (R302). With BAR = 1 it makes the copy's arrival, which a release of the barrier holds (R137). -/
def execAccancel (b : BitVec 5) (s : State) : Out :=
  awaitG [b] s <|
    match s.cur.ticketPos (s.rg b) with
    | none => .next s.advance
    | some i =>
      let c := s.cur.copyAt i
      if c.st == 1#3 || c.st == 3#3 then
        let s1 := s.upd fun st => { st with pFault := st.pFault &&& ~~~posBit i }.setCopy i { c.clean with st := 4 }
        .next (if ctlBar c.ctl then s1.copyArrive s1.cur (ctlNb c.ctl) else s1).advance
      else .next s.advance

/-! ### Lines (R298, R299) -/

/-- Line `l` of a copy has been written. -/
def CopyPos.written (c : CopyPos) (l : Nat) : Bool :=
  decide (64 * l < c.p) || (decide (c.p / 64 < l) && c.d.getLsbD (l - c.p / 64 - 1))

/-- The lowest line not yet written and the done map after line `p` has been written: `fuel` bounds the lines passed. -/
def passWritten (d : BitVec 256) (p : Nat) : Nat → Nat × BitVec 256
  | 0 => (p + 1, d >>> 1)
  | n + 1 => if d.getLsbD 0 then passWritten (d >>> 1) (p + 1) n else (p + 1, d >>> 1)

/-- Line `l` is marked written. -/
def CopyPos.mark (c : CopyPos) (l : Nat) : CopyPos :=
  if l = c.p / 64 then
    let x := passWritten c.d (c.p / 64) 256
    { c with p := 64 * x.1, d := x.2 }
  else { c with d := c.d ||| (1#256 <<< (l - c.p / 64 - 1)) }

/-- Line `l` may be copied now. -/
def CopyPos.canCopy (c : CopyPos) (l : Nat) : Bool :=
  c.st == 1#3 && decide (l < c.lines) && !c.written l && decide (l ≤ c.p / 64 + 256)

/-- Where a copy's line goes. -/
inductive CopyDest where
  | loc (l : Loc)
  | store (a : Nat)
  deriving DecidableEq, Repr

/-- The fault of a line: side, poison, cause and address. -/
structure CopyFault where
  side : Bool
  poison : Bool
  cause : BitVec 8
  addr : Word
  deriving DecidableEq, Repr

/-- A line goes to host memory, which carries accesses of 1 to 8 bytes only (R309): it faults with ACCESS (DESIGN CHOICE,
log 61). -/
def Loc.isHost (l : Loc) : Bool :=
  match l with
  | .host _ => true
  | .dev _ => false

/-- The source bytes of a line, or its fault. -/
def copySource (s : State) (c : CopyPos) (l : Nat) : Except (State × CopyFault) (State × Nat) :=
  let va := c.src + BitVec.ofNat 64 (64 * l)
  match s.translate s.cur va .read with
  | .error k => .error (s, ⟨false, false, k, va⟩)
  | .ok (p, _) =>
    if p.isHost then .error (s, ⟨false, false, causeAccess, va⟩)
    else
      match s.readLoc p 64 with
      | .ok s1 x => .ok (s1, x)
      | .trap k a => .error (s, ⟨false, false, k, a⟩)
      | .kill s1 _ => .error (s1, ⟨false, true, causeAccess, va⟩)

/-- The destination of a line, or its fault. -/
def copyDest (s : State) (c : CopyPos) (l : Nat) : Except CopyFault CopyDest :=
  let va := c.dst + BitVec.ofNat 64 (64 * l)
  if ctlWs c.ctl then .ok (.store (c.die * 2 ^ 30 + va.toNat))
  else
    match s.translate s.cur va .write with
    | .error k => .error ⟨true, false, k, va⟩
    | .ok (p, _) => if p.isHost then .error ⟨true, false, causeAccess, va⟩ else .ok (.loc p)

/-- Bytes written to a weight store; the whole sectors lose their poison. -/
def State.wsWrite (s : State) (a : Nat) : Nat → Nat → State
  | 0, _ => s
  | n + 1, x => ((s.setWsByte a (BitVec.ofNat 8 x)).wsWrite (a + 1) n (x / 256))

/-- Write a line at its destination; the writes are the engine's (R97, R298). -/
def State.copyWrite (s : State) (d : CopyDest) (x : Nat) : State :=
  match d with
  | .loc p => s.writeLoc .other p 64 x
  | .store a => { s.wsWrite a 64 x with wsPoison := Sparse.put false s.wsPoison (a / 64) false }

/-- One line of a copy of the strand in focus, or its fault, with what the press has applied by then. -/
def copyLineOf (s : State) (c : CopyPos) (l : Nat) : Except (State × CopyFault) State :=
  match copySource s c l with
  | .error f => .error f
  | .ok (s1, x) =>
    match copyDest s c l with
    | .error f => .error (s, f)
    | .ok d => .ok (s1.copyWrite d x)

/-- The engine stops a copy at a fault (R299). -/
def State.copyFaulted (s : State) (i : Nat) (f : CopyFault) : State :=
  let c := s.cur.copyAt i
  (s.upd fun st => st.setCopy i { c with st := 3, side := f.side, poison := f.poison, cause := f.cause, faddr := f.addr }).copyPending
    i true

/-- A line is written and marked. -/
def State.copyStep (s : State) (i l : Nat) : Except (State × CopyFault) State :=
  match copyLineOf s (s.cur.copyAt i) l with
  | .error f => .error f
  | .ok s1 => .ok (s1.upd fun st => st.setCopy i ((st.copyAt i).mark l))

/-- Every line of a running copy has been written. -/
def CopyPos.finished (c : CopyPos) : Bool := c.st == 1#3 && decide (ctlLen c.ctl ≤ c.p)

/-- One step of the engine on a running copy, its lowest line first: what it does when nothing else is asked of it. -/
def State.copyProgress (s : State) (i : Nat) : State :=
  let c := s.cur.copyAt i
  if c.finished then s.copyDone i
  else
    match s.copyStep i (c.p / 64) with
    | .ok s1 => s1
    | .error (s1, f) => s1.copyFaulted i f

end Sys2Proof.Machine
end

