-- ==== Sys2Proof/Machine/Dvorine.lean ====
section
/-! DEFINITION. Dvorine arrays: slot images, DVORINE and CX (R274 to R290). -/

namespace Sys2Proof.Machine

/-! ### The slot image (R275, R276) -/

/-- `n` bytes of an image at an offset. -/
def imageAt (x off n : Nat) : Nat := x / 2 ^ (8 * off) % 2 ^ (8 * n)

def imageLat (x : Nat) : Nat := imageAt x 4 2
def imageScalar (x : Nat) : Nat := imageAt x 7 1
/-- SUSE: the scalar operand is used. -/
def imageSuse (x : Nat) : Bool := imageScalar x / 128 == 1
/-- SREG: the g register of the scalar operand. -/
def imageSreg (x : Nat) : Nat := imageScalar x % 32
def imageOut (x : Nat) : Nat := imageAt x 8 1
/-- Cell word `n`. -/
def imageCell (x n : Nat) : Nat := imageAt x (0x10 + 4 * n) 4
/-- Constant `k`. -/
def imageConst (x k : Nat) : Nat := imageAt x (0x50 + 4 * k) 4

/-- A cell word's fields. -/
structure Cell where
  op : Nat
  srcA : Nat
  srcB : Nat
  srcC : Nat
  en : Bool
  uns : Bool
  zero : Bool
  deriving DecidableEq, Repr

/-- The fields of a cell word. -/
def cellOf (w : Nat) : Cell :=
  { op := w % 64, srcA := w / 2 ^ 6 % 32, srcB := w / 2 ^ 11 % 32, srcC := w / 2 ^ 16 % 32, en := w / 2 ^ 21 % 2 == 1,
    uns := w / 2 ^ 22 % 2 == 1, zero := w / 2 ^ 23 == 0 }

/-- Inputs that an operation uses: A alone, A and B, or all three (R278). -/
def cellArity (op : Nat) : Nat := if op = 0 ∨ op = 21 then 1 else if op = 14 ∨ op = 18 ∨ op = 23 then 3 else 2

/-- A selector names a valid input for a cell (R277). -/
def selectorOk (x cell sel : Nat) : Bool :=
  if sel < 3 then decide (sel < imageAt x 6 1)
  else if sel = 3 then imageSuse x
  else if sel < 20 then true
  else (cellOf (imageCell x (sel - 20))).en && decide ((sel - 20) / 4 < cell / 4)

/-- A cell word is permitted (R282). -/
def cellOk (x n : Nat) : Bool :=
  let w := imageCell x n
  let c := cellOf w
  w == 0 ||
  (c.en && decide (c.op ≤ 23) && selectorOk x n c.srcA &&
   (if 2 ≤ cellArity c.op then selectorOk x n c.srcB else c.srcB == 0) &&
   (if cellArity c.op = 3 then selectorOk x n c.srcC else c.srcC == 0) &&
   (!c.uns || c.op == 4 || c.op == 5 || c.op == 12) && c.zero)

/-- Rows with a cell in use. -/
def usedRows (x : Nat) : Nat :=
  ((List.range 4).filter fun r => (List.range 4).any fun i => (cellOf (imageCell x (4 * r + i))).en).length

/-- The word index of the first failed check of an image, or none (R282). -/
def imageFault (x : Nat) : Option Nat :=
  if imageAt x 0 4 ≠ 0x06404358 then some 0
  else if imageLat x = 0 ∨ 255 < imageLat x ∨ 3 < imageAt x 6 1 ∨ imageScalar x / 32 % 4 ≠ 0 ∨
      (!imageSuse x ∧ imageSreg x ≠ 0) then some 1
  else if 15 < imageOut x ∨ imageAt x 9 3 ≠ 0 then some 2
  else if imageAt x 0xC 4 ≠ 0 then some 3
  else
    match (List.range 16).find? fun n => !cellOk x n with
    | some n => some (4 + n)
    | none =>
      match (List.range 28).find? fun k => imageAt x (0x90 + 4 * k) 4 != 0 with
      | some k => some (36 + k)
      | none =>
        if !(cellOf (imageCell x (imageOut x))).en then some 2
        else if imageLat x < 2 * usedRows x + 1 then some 1
        else none

/-! ### DVORINE (R280 to R283) -/

/-- A slot's image. -/
def Strand.slotImage (st : Strand) (n : BitVec 3) : Option (BitVec 2048) := st.cx[n.toNat]'n.isLt
def Strand.setImage (st : Strand) (n : BitVec 3) (x : Option (BitVec 2048)) : Strand :=
  { st with cx := st.cx.set n.toNat x n.isLt }

/-- No older entry's CX word names the slot. -/
def Strand.slotIdle (st : Strand) (n : BitVec 3) : Bool :=
  st.window.all fun e =>
    match e.ins with
    | .cx _ _ _ _ _ k => k != n
    | _ => true

/-- What the reading of an image comes to: its bytes, or a fault at a word. -/
inductive ImageRead where
  | ok (s : State) (x : Nat)
  | trap (w : Nat) (cause : BitVec 8) (tval : Word)
  | kill (s : State) (reason : Word) (w : Nat)

/-- Words `w` on, `k` left, of the image at `a`. -/
def readImage (a : Word) (s : State) (w acc : Nat) : Nat → ImageRead
  | 0 => .ok s acc
  | k + 1 =>
    match s.load (a + BitVec.ofNat 64 (4 * w)) 4 with
    | .trap c t => .trap w c t
    | .kill s1 r => .kill s1 r w
    | .ok s1 x => readImage a s1 (w + 1) (acc + x * 2 ^ (32 * w)) k

/-- A precise trap at an image word. -/
def trapImage (s : State) (c : BitVec 8) (tval : Word) (w : Nat) : Out := .next (s.trap (frontTrap s c tval w))

/-- The number of a slot in a g register. -/
def slotNo (x : Word) : BitVec 3 := x.setWidth 3

/-- CXLOAD (R281, R282): its reads are VEC accesses. -/
def execCxload (a b : BitVec 5) (s : State) : Out :=
  awaitG [a, b] s <| holdUntil (s.cur.slotIdle (slotNo (s.rg a))) false s <|
    if (s.rg b).toNat % 64 ≠ 0 then trapAt s causeMisalign (s.rg b)
    else holdUntil ((List.range 4).all fun i => s.vecFree (s.rg b + BitVec.ofNat 64 (64 * i)) 64) false s <|
      match readImage (s.rg b) s 0 0 64 with
      | .trap w c t => trapImage s c t w
      | .kill s1 r w => .next (s1.killSelf r w)
      | .ok s1 x =>
        match imageFault x with
        | some w => trapImage s1 causeImage (s.rg b) w
        | none => .next (s1.upd fun st => (st.setImage (slotNo (s.rg a)) (some (BitVec.ofNat 2048 x))).advance)

/-- CXDROP (R281, R283). -/
def execCxdrop (a : BitVec 5) (s : State) : Out :=
  awaitG [a] s <| holdUntil (s.cur.slotIdle (slotNo (s.rg a))) false s <|
    .next (s.upd fun st => (st.setImage (slotNo (s.rg a)) none).advance)

/-- The status of a slot (R283). -/
def slotStatus (o : Option (BitVec 2048)) : Word :=
  match o with
  | none => 0
  | some x =>
    BitVec.ofNat 64 (1 + imageNvec x % 4 * 2 ^ 2 + (if imageSuse x.toNat then 2 ^ 4 else 0) + imageSreg x.toNat * 2 ^ 5 +
      imageOut x.toNat % 16 * 2 ^ 10 + imageLat x.toNat % 256 * 2 ^ 16)

/-- CXQ (R283). -/
def execCxq (a b : BitVec 5) (s : State) : Out :=
  awaitG [a, b] s (.next (s.wg a (slotStatus (s.cur.slotImage (slotNo (s.rg b))))).advance)

/-! ### The graph (R278, R279) -/

/-- The format of f32. -/
def f32 : Fmt := fmtOf 10

/-- A truth value as a result. -/
def boolRes (b : Bool) (fl : Flags) : Res := ⟨b.toNat, fl⟩

/-- A 32-bit pattern read by a cell, signed or unsigned. -/
def cellVal (uns : Bool) (x : Nat) : Int := if uns then (x : Int) else intVal 4 x

/-- What a cell computes. -/
def cellResult (op : Nat) (uns : Bool) (a b c : Nat) : Res :=
  match op with
  | 0 => ⟨a, 0⟩
  | 1 => ⟨(a + b) % 2 ^ 32, 0⟩
  | 2 => ⟨(a + 2 ^ 32 - b) % 2 ^ 32, 0⟩
  | 3 => ⟨a * b % 2 ^ 32, 0⟩
  | 4 => ⟨if cellVal uns b < cellVal uns a then b else a, 0⟩
  | 5 => ⟨if cellVal uns a < cellVal uns b then b else a, 0⟩
  | 6 => ⟨a &&& b, 0⟩
  | 7 => ⟨a ||| b, 0⟩
  | 8 => ⟨a ^^^ b, 0⟩
  | 9 => ⟨a <<< (b % 32) % 2 ^ 32, 0⟩
  | 10 => ⟨a >>> (b % 32), 0⟩
  | 11 => ⟨wrapInt 32 (intVal 4 a / 2 ^ (b % 32)), 0⟩
  | 12 => boolRes (decide (cellVal uns a < cellVal uns b)) 0
  | 13 => boolRes (a == b) 0
  | 14 => ⟨if a ≠ 0 then b else c, 0⟩
  | 15 => fpAdd f32 .rne a b
  | 16 => fpSub f32 .rne a b
  | 17 => fpMul f32 .rne a b
  | 18 => fpFma f32 .rne a b c false false
  | 19 => fpMinMax f32 false a b
  | 20 => fpMinMax f32 true a b
  | 21 => ⟨a % 2 ^ 31, 0⟩
  | 22 => boolRes (fpLt f32 false a b).1 (fpLt f32 false a b).2
  | _ => ⟨if !(unpack f32 a).isNaN && (decide (a < 2 ^ 31) || a == 2 ^ 31) then b else c, 0⟩

/-- The inputs of a graph: the vector operands of the element and the scalar. -/
structure GraphIn where
  vec : List Nat
  scalar : Nat

/-- The input that a selector names, given the outputs of the cells so far. -/
def cellInput (x : Nat) (g : GraphIn) (outs : List Nat) (sel : Nat) : Nat :=
  if sel < 3 then g.vec.getD sel 0
  else if sel = 3 then g.scalar
  else if sel < 20 then imageConst x (sel - 4)
  else outs.getD (sel - 20) 0

/-- Cells `n` on, `k` left: outputs so far with the flags of the enabled ones. -/
def runCells (x : Nat) (g : GraphIn) (outs : List Nat) (fl : Flags) (n : Nat) : Nat → List Nat × Flags
  | 0 => (outs, fl)
  | k + 1 =>
    let c := cellOf (imageCell x n)
    let i := cellInput x g outs
    let r := if c.en then cellResult c.op c.uns (i c.srcA) (i c.srcB) (i c.srcC) else ⟨0, 0⟩
    runCells x g (outs ++ [r.bits]) (fl ||| r.fl) (n + 1) k

/-- The value of a graph with its flags. -/
def graphValue (x : Nat) (g : GraphIn) : Res :=
  let r := runCells x g [] 0 0 16
  ⟨r.1.getD (imageOut x) 0, r.2⟩

/-! ### CX (R284 to R286) -/

/-- The value of an element of a CX entry. -/
def cxElem (x : BitVec 2048) (b c d : BitVec 5) (st : Strand) (en : Entry) (e : Nat) : Res :=
  graphValue x.toNat ⟨([b, c, d].take (imageNvec x)).map fun r => st.elem r 32 e, en.opa.toNat % 2 ^ 32⟩

/-- A field at or beyond NVEC is nonzero. -/
def cxReserved (x : BitVec 2048) (b c d : BitVec 5) : Bool := ([b, c, d].drop (imageNvec x)).any fun f => f != 0#5

/-- The scalar register of a slot's image. -/
def cxScalar (o : Option (BitVec 2048)) : List (BitVec 5) :=
  match o with
  | some x => if imageSuse x.toNat then [BitVec.ofNat 5 (imageSreg x.toNat)] else []
  | none => []

/-- CX once its slot is loaded (R285, R286): the entry runs the image that the slot held when it entered. -/
def opCx (a b c d : BitVec 5) (m n : BitVec 3) (sreg : List (BitVec 5)) : WOp :=
  { ins := .cx a b c d m n, gsrc := sreg,
    pre := fun s =>
      let t := s.cur.vtype.toNat % 16
      if s.cur.vl != 0#32 && t != 4 && t != 5 && t != 10 then some (causeType, insWord (.cx a b c d m n)) else none,
    latch := fun st => ⟨match sreg with
      | r :: _ => (st.rg r).setWidth 32 |>.setWidth 64
      | [] => 0, 0, 0, 0⟩,
    body := .regs fun st en =>
      let f := cxElem (en.image.getD 0) b c d st en
      let act := st.active m en.n
      { writes := [guarded (.v a) 32 en.n en act fun e => (f e).bits], nfl := en.n,
        fl := fun e => if act e then (f e).fl else 0, g := none } }

/-- CX (R284, R285, R289). -/
def execCx (a b c d : BitVec 5) (m n : BitVec 3) (s : State) : Out :=
  match s.cur.slotImage n with
  | none => userTrap s causeUnloaded (n.setWidth 64) (insWord (.cx a b c d m n)) s.cur.cxldr true
  | some x =>
    if cxReserved x b c d then trapWord s causeIllegal (.cx a b c d m n)
    else issue (opCx a b c d m n (cxScalar (some x))) s

end Sys2Proof.Machine
end

