-- ==== Sys2Proof/Machine/Crypto.lean ====
section
/-! DEFINITION. The digest and the signature of a code object (R333): SHA-384 and ECDSA over P-384. The spec names the two
standards; their constants and steps are taken from them (PRESUMED, log 10). -/

namespace Sys2Proof.Machine

/-! ### SHA-384 -/

/-- The first 80 primes. -/
def primes : List Nat :=
  (List.range 410).filter fun n => decide (2 ≤ n) && (List.range 21).all fun d => decide (d < 2) || decide (n ≤ d) || n % d != 0

/-- The `k`-th root of `x`, rounded down, bit by bit from bit `n` − 1 on; `r` holds the bits above. -/
def rootFrom (k x r : Nat) : Nat → Nat
  | 0 => r
  | n + 1 => rootFrom k x (if (r + 2 ^ n) ^ k ≤ x then r + 2 ^ n else r) n

/-- The first 64 bits of the fraction of the `k`-th root of a small number. -/
def rootFraction (k p : Nat) : Word := BitVec.ofNat 64 (rootFrom k (p * 2 ^ (64 * k)) 0 68)

/-- The constants of the 80 rounds come from cube roots, and the initial value from square roots of the ninth to the sixteenth
prime. -/
def roundKeys : List Word := primes.map (rootFraction 3)
def initialWords : List Word := ((primes.drop 8).take 8).map (rootFraction 2)

/-- The exclusive or of a word's rotations to the right. -/
def turns (x : Word) (l : List Nat) : Word := l.foldl (fun y n => y ^^^ x.rotateRight n) 0

/-- The next word of a schedule whose words stand newest first. -/
def nextWord (w : List Word) : Word :=
  let at_ := fun i => w.getD i 0
  (turns (at_ 1) [19, 61] ^^^ at_ 1 >>> 6) + at_ 6 + (turns (at_ 14) [1, 8] ^^^ at_ 14 >>> 7) + at_ 15

/-- The 80 words of the schedule of a block's sixteen words, which stand newest first. -/
def schedule (w : List Word) : List Word := ((List.range 64).foldl (fun l _ => nextWord l :: l) w).reverse

/-- One round with its constant and its word of the schedule, on the four latest values of each of the two sequences that the
rounds make. -/
def shaRound (x : List Word × List Word) (k : Word × Word) : List Word × List Word :=
  match x.1, x.2 with
  | [a, b, c, d], [e, f, g, h] =>
    let t := turns e [14, 18, 41] + (g ^^^ (e &&& (f ^^^ g))) + h + k.1 + k.2
    ([t + turns a [28, 34, 39] + ((a &&& (b ||| c)) ||| (b &&& c)), a, b, c], [d + t, e, f, g])
  | _, _ => x

/-- A number of `n` bytes from a list, the first byte highest. -/
def beNat (l : List Byte) : Nat := l.foldl (fun x b => 256 * x + b.toNat) 0

/-- The sixteen words of a block, newest first. -/
def blockWords (l : List Byte) : List Word :=
  ((List.range 16).map fun i => BitVec.ofNat 64 (beNat ((l.drop (8 * i)).take 8))).reverse

/-- The chaining value after one more block of 128 bytes. -/
def absorbBlock (h : List Word) (block : List Byte) : List Word :=
  let x := (roundKeys.zip (schedule (blockWords block))).foldl shaRound (h.take 4, h.drop 4)
  List.zipWith (· + ·) h (x.1 ++ x.2)

/-- The chaining value after `n` more blocks. -/
def absorbAll (h : List Word) (l : List Byte) : Nat → List Word
  | 0 => h
  | n + 1 => absorbAll (absorbBlock h (l.take 128)) (l.drop 128) n

/-- The bytes of a number, highest first. -/
def beBytes (n x : Nat) : List Byte := ((List.range n).map fun i => BitVec.ofNat 8 (x / 256 ^ i)).reverse

/-- The SHA-384 digest of a message as a number. -/
def sha384 (m : List Byte) : Nat :=
  let pad := (239 - m.length % 128) % 128
  let l := m ++ 0x80#8 :: List.replicate pad 0 ++ beBytes 16 (8 * m.length)
  ((absorbAll initialWords l (l.length / 128)).take 6).foldl (fun x w => 2 ^ 64 * x + w.toNat) 0

/-! ### P-384 -/

def p384 : Nat := 2 ^ 384 - 2 ^ 128 - 2 ^ 96 + 2 ^ 32 - 1
def b384 : Nat := 0xb3312fa7e23ee7e4988e056be3f82d19181d9c6efe8141120314088f5013875ac656398d8a2ed19d2a85c8edd3ec2aef
def gx384 : Nat := 0xaa87ca22be8b05378eb1c71ef320ad746e1d3b628ba79b9859f741e082542a385502f25dbf55296c3a545e3872760ab7
def gy384 : Nat := 0x3617de4a96262c6f5d9e98bf9292dc29f8f41dbd289a147ce9da3113b5f0b8c00a60b1ce1d7e819d7a431d7c90ea0e5f
/-- The order of the base point. -/
def n384 : Nat := 0xffffffffffffffffffffffffffffffffffffffffffffffffc7634d81f4372ddf581a0db248b0a77aecec196accc52973

/-- x^e mod m, bits of `e` from `k` − 1 down. -/
def powMod (m x e : Nat) : Nat → Nat
  | 0 => 1
  | k + 1 =>
    let y := powMod m (x * x % m) (e / 2) k
    if e % 2 = 1 then y * x % m else y

/-- The inverse modulo a prime. -/
def invMod (m x : Nat) : Nat := powMod m x (m - 2) 384

/-- The difference modulo the prime of the curve, of two reduced numbers. -/
def subP (x y : Nat) : Nat := (x + (p384 - y)) % p384

/-- A point (x / z², y / z³) of the curve; z is 0 at infinity. -/
structure Point where
  x : Nat
  y : Nat
  z : Nat
  deriving DecidableEq, Repr

/-- The point at infinity. -/
def Point.infinity : Point := ⟨1, 1, 0⟩

/-- Twice a point. -/
def Point.double (a : Point) : Point :=
  let d := a.z * a.z % p384
  let g := a.y * a.y % p384
  let b := a.x * g % p384
  let l := 3 * subP a.x d * (a.x + d) % p384
  let x := subP (l * l % p384) (8 * b % p384)
  ⟨x, subP (l * subP (4 * b % p384) x % p384) (8 * g * g % p384), 2 * a.y * a.z % p384⟩

/-- The sum of a point and the point (x, y). -/
def Point.plus (a : Point) (x y : Nat) : Point :=
  if a.z = 0 then ⟨x, y, 1⟩
  else
    let zz := a.z * a.z % p384
    let h := subP (x * zz % p384) a.x
    let r := subP (y * a.z * zz % p384) a.y
    if h = 0 then if r = 0 then a.double else .infinity
    else
      let hh := h * h % p384
      let hhh := h * hh % p384
      let v := a.x * hh % p384
      let x3 := subP (r * r % p384) ((hhh + 2 * v) % p384)
      ⟨x3, subP (r * subP v x3 % p384) (a.y * hhh % p384), a.z * h % p384⟩

/-- The `n` low bits of `u` and `v` give the sum of `u` times the base point and `v` times (x, y). -/
def twoMultiples (x y u v : Nat) : Nat → Point
  | 0 => .infinity
  | n + 1 =>
    let a := (twoMultiples x y (u / 2) (v / 2) n).double
    let b := if u % 2 = 1 then a.plus gx384 gy384 else a
    if v % 2 = 1 then b.plus x y else b

/-- The point lies on the curve. -/
def onCurve (x y : Nat) : Bool :=
  decide (x < p384) && decide (y < p384) && (x * x * x + (p384 - 3) * x + b384) % p384 == y * y % p384

/-- The signature (r, s) of a digest verifies under the public key (x, y). -/
def verifies (x y digest r s : Nat) : Bool :=
  onCurve x y && decide (0 < r) && decide (r < n384) && decide (0 < s) && decide (s < n384) &&
  (let w := invMod n384 s
   let q := twoMultiples x y (digest * w % n384) (r * w % n384) 384
   let i := invMod p384 q.z
   q.z != 0 && q.x * i * i % p384 % n384 == r)

end Sys2Proof.Machine
end

