-- ==== Sys2Proof/Machine/Matrix.lean ====
section
/-! DEFINITION. The matrix engine: tiles, MAT and MOP (R224 to R240). -/

namespace Sys2Proof.Machine

/-! ### Tiles (R224) -/

/-- Elements of a tile row in the layout of R224. -/
def tileSide (tet : Nat) : Nat := if tet = 11 then 32 else 64

/-- The place of element (i, j) in its tile, in elements. -/
def tileIndex (tet i j : Nat) : Nat := i * tileSide tet + j

/-- A tile's bits. -/
def Strand.tbits (st : Strand) (t : BitVec 2) : Nat := (st.t[t.toNat]'t.isLt).toNat
def Strand.setTbits (st : Strand) (t : BitVec 2) (x : Nat) : Strand :=
  { st with t := st.t.set t.toNat (BitVec.ofNat 131072 x) t.isLt }

/-- Element (i, j) of a tile. -/
def Strand.tile (st : Strand) (t : BitVec 2) (tet i j : Nat) : Nat := bitsAt (st.tbits t) (sewOf tet) (tileIndex tet i j)

/-- An instruction that names a tile (R225). -/
def namesTile (i : Instr) : Bool :=
  match i with
  | .tzero .. | .tgetr .. | .tgetc .. | .tsetr .. | .tsetc .. | .tstr .. | .tstx .. | .tfold .. | .tfoldn .. | .tfoldi8 ..
  | .tfoldf8 .. | .tfoldc4 .. | .tfoldsp .. => true
  | _ => false

/-! ### MMODE and MOFF (R225) -/

/-- The strand's gang was placed in reduced service (R332). -/
def State.inReduced (s : State) : Bool :=
  match s.gangOf s.cur.gang with
  | some g => g.reduced
  | none => false

/-- The granted tile side. -/
def grantedMvl (tet q : Nat) : Nat := if q = 0 ∨ tileSide tet ≤ q then tileSide tet else q

/-- The effect of MMODE on its strand. -/
def Strand.mmode (st : Strand) (a : BitVec 5) (q : Nat) (tt : BitVec 4) : Strand :=
  let mvl := grantedMvl tt.toNat q
  let st1 :=
    if !st.tilesOn || st.mvl.toNat != mvl || st.tetype != tt then
      { st with t := Vector.replicate 4 0, mvl := BitVec.ofNat 7 mvl, tetype := tt, tilesOn := true }
    else st
  st1.wg a (BitVec.ofNat 64 mvl)

/-- No older entry names a tile. -/
def State.tilesFree (s : State) : Bool := s.cur.window.all fun e => !namesTile e.ins

/-- MMODE (R225). -/
def execMmode (a b : BitVec 5) (t : BitVec 4) (s : State) : Out :=
  if (if s.inReduced then t != 10#4 else t != 4#4 && t != 10#4 && t != 11#4) then trapWord s causeType (.mmode a b t)
  else if !s.cur.tilesAllow then trapWord s causeTileOff (.mmode a b t)
  else
    awaitG [a, b] s
      (holdUntil s.tilesFree false s (.next (s.upd fun st => (st.mmode a (st.rg b).toNat t).advance)))

/-- MOFF (R225). -/
def execMoff (s : State) : Out :=
  holdUntil s.tilesFree false s (.next (s.upd fun st => { st.advance with tilesOn := false }))

/-! ### Entries that name a tile (R226, R239) -/

/-- TILE_OFF, then a TYPE check on the etype and the tile etype. -/
def tilePre (i : Instr) (bad : Nat → Nat → Bool) (s : State) : Option (BitVec 8 × Word) :=
  if !s.cur.tilesOn then some (causeTileOff, insWord i)
  else if bad (s.cur.vtype.toNat % 16) s.cur.tetype.toNat then some (causeType, insWord i)
  else none

/-- A body that needs tiles: a restored entry that reaches its firing with none traps (R226). -/
def tileBody (b : Body) : Body :=
  .cond (fun s en => !s.cur.tilesOn && en.vl != 0#32)
    (.run fun s en => .stop s en causeTileOff (en.word.setWidth 64) 0) b

/-- The latched tile etype. -/
def Entry.tt (en : Entry) : Nat := en.tet.toNat

/-! ### Slice moves and zeroing (R235, R236) -/

/-- SEW is not the tile element's width. -/
def sliceType (t tet : Nat) : Bool := sewOf t != sewOf tet

/-- VL > MVL or x ≥ MVL. -/
def sliceShape (c : BitVec 5) (st : Strand) : Bool :=
  decide (st.vl.toNat > st.mvl.toNat) || decide ((st.rg c).toNat ≥ st.mvl.toNat)

/-- A move from a tile: `at_ x c` is the place of element c of slice x. -/
def tileGet (i : Instr) (a : BitVec 5) (t : BitVec 2) (c : BitVec 5) (m : BitVec 3) (at_ : Nat → Nat → Nat × Nat) : WOp :=
  { ins := i, gsrc := [c], pre := tilePre i sliceType, shape := sliceShape c, latch := fun st => ⟨0, 0, st.rg c, 0⟩,
    ngrp := fun _ => 1,
    body := tileBody (.regs fun st en =>
      let n := en.vl.toNat
      Eff.quiet [guarded (.v a) en.w n en (st.active m n) fun e =>
        st.tile t en.tt (at_ en.opc.toNat e).1 (at_ en.opc.toNat e).2]) }

/-- TGETR (R235). -/
def opTgetr (a : BitVec 5) (t : BitVec 2) (c : BitVec 5) (m : BitVec 3) : WOp :=
  tileGet (.tgetr a t c m) a t c m fun x e => (x, e)
def execTgetr (a : BitVec 5) (t : BitVec 2) (c : BitVec 5) (m : BitVec 3) (s : State) : Out := issue (opTgetr a t c m) s

/-- TGETC (R235). -/
def opTgetc (a : BitVec 5) (t : BitVec 2) (c : BitVec 5) (m : BitVec 3) : WOp :=
  tileGet (.tgetc a t c m) a t c m fun x e => (e, x)
def execTgetc (a : BitVec 5) (t : BitVec 2) (c : BitVec 5) (m : BitVec 3) (s : State) : Out := issue (opTgetc a t c m) s

/-- The elements of a list, put into a tile at their places. -/
def putSlice (w : Nat) (at_ val : Nat → Nat) (bits : Nat) (l : List Nat) : Nat :=
  l.foldl (fun bits e => putBits bits w (at_ e) (val e)) bits

/-- A move to a tile. -/
def tileSet (i : Instr) (t : BitVec 2) (b c : BitVec 5) (m : BitVec 3) (at_ : Nat → Nat → Nat × Nat) : WOp :=
  { ins := i, gsrc := [c], pre := tilePre i sliceType, shape := sliceShape c, latch := fun st => ⟨0, 0, st.rg c, 0⟩,
    ngrp := fun _ => 1,
    body := tileBody (.run fun s en =>
      .done (s.upd fun st =>
        st.setTbits t (putSlice (sewOf en.tt)
          (fun e => tileIndex en.tt (at_ en.opc.toNat e).1 (at_ en.opc.toNat e).2) (fun e => st.elem b en.w e) (st.tbits t)
          ((List.range en.vl.toNat).filter (st.active m en.vl.toNat))))) }

/-- TSETR (R235). -/
def opTsetr (t : BitVec 2) (b c : BitVec 5) (m : BitVec 3) : WOp := tileSet (.tsetr t b c m) t b c m fun x e => (x, e)
def execTsetr (t : BitVec 2) (b c : BitVec 5) (m : BitVec 3) (s : State) : Out := issue (opTsetr t b c m) s

/-- TSETC (R235). -/
def opTsetc (t : BitVec 2) (b c : BitVec 5) (m : BitVec 3) : WOp := tileSet (.tsetc t b c m) t b c m fun x e => (e, x)
def execTsetc (t : BitVec 2) (b c : BitVec 5) (m : BitVec 3) (s : State) : Out := issue (opTsetc t b c m) s

/-- TZERO (R236). -/
def opTzero (t : BitVec 2) : WOp :=
  { ins := .tzero t, gsrc := [], pre := tilePre (.tzero t) fun _ _ => false, ngrp := fun _ => 1,
    body := tileBody (.run fun s en => .done (if en.vl == 0#32 then s else s.upd fun st => st.setTbits t 0)) }
def execTzero (t : BitVec 2) (s : State) : Out := issue (opTzero t) s

/-! ### Codebooks (R237) -/

/-- The sixteen values from entry `q` on, `k` left, or the first fault. -/
def loadCodes (addr : Word) (s : State) (en : Entry) (q acc : Nat) : Nat → Except Ran (State × Nat)
  | 0 => .ok (s, acc)
  | k + 1 =>
    match s.load (addr + BitVec.ofNat 64 (2 * q)) 2 with
    | .trap c t => .error (.stop s en c t q)
    | .kill s1 r => .error (.kill s1 r q)
    | .ok s1 x => loadCodes addr s1 en (q + 1) (acc + x * 2 ^ (16 * q)) k

/-- MCBLD (R237). -/
def opMcbld (k : BitVec 3) (b : BitVec 5) : WOp :=
  { ins := .mcbld k b, gsrc := [b], anyVl := true, latch := fun st => ⟨0, st.rg b, 0, 0⟩, ngrp := fun _ => 1,
    body := .run fun s en =>
      if en.opb.toNat % 32 ≠ 0 then .stop s en causeMisalign en.opb 0
      else
        match loadCodes en.opb s en 0 0 16 with
        | .error r => r
        | .ok (s1, x) => .done (s1.upd fun st => { st with cb := st.cb.set k.toNat (BitVec.ofNat 256 x) k.isLt }) }
def execMcbld (k : BitVec 3) (b : BitVec 5) (s : State) : Out := issue (opMcbld k b) s

/-! ### Drains (R238) -/

/-- A tile element as a drain stores it: converted, or, where the latched etype is the tile's, its bits (R238). -/
def drained1 (en : Entry) (x : Nat) : Res := if en.tt = en.et then ⟨x, 0⟩ else convert en.tt en.et en.rm true x

/-- The drain of a tile from row 8 r on; `off r'` is the byte offset of row r'. -/
def drainPlan (r : BitVec 3) (t : BitVec 2) (m : BitVec 3) (off : Strand → Entry → Nat → Word) (st : Strand) (en : Entry) :
    StorePlan :=
  let vl := en.vl.toNat
  let val := fun e => drained1 en (st.tile t en.tt (8 * r.toNat + e / vl) (e % vl))
  { n := en.n, act := en.act st m, fl := fun e => (val e).fl,
    spans := fun s e =>
      spanAt (en.opb + off st en (e / vl) + BitVec.ofNat 64 (e % vl * (en.w / 8))) (en.w / 8) (val e).bits s }

/-- cb4 and the reserved code are no etypes of a drain (R51, R238). -/
def drainType (t _tet : Nat) : Bool := t == 14 || t == 15

/-- VL > MVL or row0 + RL > MVL. -/
def drainShape (r : BitVec 3) (st : Strand) : Bool :=
  decide (st.vl.toNat > st.mvl.toNat) || decide (8 * r.toNat + st.rl.toNat > st.mvl.toNat)

/-- TSTR (R238). -/
def opTstr (r : BitVec 3) (t : BitVec 2) (b c : BitVec 5) (m : BitVec 3) : WOp :=
  { ins := .tstr r t b c m, gsrc := [b, c], pre := tilePre (.tstr r t b c m) drainType, shape := drainShape r,
    latch := fun st => ⟨0, st.rg b, st.rg c, 0⟩,
    body := tileBody (.store (drainPlan r t m fun _ en i => BitVec.ofNat 64 i * en.opc)) }
def execTstr (r : BitVec 3) (t : BitVec 2) (b c : BitVec 5) (m : BitVec 3) (s : State) : Out := issue (opTstr r t b c m) s

/-- TSTX (R238). -/
def opTstx (r : BitVec 3) (t : BitVec 2) (b c : BitVec 5) (m : BitVec 3) : WOp :=
  { ins := .tstx r t b c m, gsrc := [b], pre := tilePre (.tstx r t b c m) drainType, shape := drainShape r,
    latch := fun st => ⟨0, st.rg b, 0, 0⟩,
    body := tileBody (.store (drainPlan r t m fun st _ i => BitVec.ofNat 64 (st.elem c 64 i))) }
def execTstx (r : BitVec 3) (t : BitVec 2) (b c : BitVec 5) (m : BitVec 3) (s : State) : Out := issue (opTstx r t b c m) s

/-! ### Outer products (R228 to R232) -/

/-- One term of an outer product: the product of A-row k's element i and B-row k's element j, folded into the tile
element; none where the panel holds no such element. -/
abbrev Fold := Nat → Nat → Nat → Nat → Res

/-- The steps of tile element (i, j), rows `k` on, `n` left. -/
def foldRows (f : Fold) (i j : Nat) (x : Res) (k : Nat) : Nat → Res
  | 0 => x
  | n + 1 =>
    let y := f k i j x.bits
    foldRows f i j ⟨y.bits, x.fl ||| y.fl⟩ (k + 1) n

/-- One tile element of the product. -/
def foldElem (f : Fold) (tet kn : Nat) (on : Nat → Nat → Bool) (x : Res) (ij : Nat × Nat) : Res :=
  if on ij.1 ij.2 then
    let p := tileIndex tet ij.1 ij.2
    let y := foldRows f ij.1 ij.2 ⟨bitsAt x.bits (sewOf tet) p, 0⟩ 0 kn
    ⟨putBits x.bits (sewOf tet) p y.bits, x.fl ||| y.fl⟩
  else x

/-- The places (i, j) below a side. -/
def places (n : Nat) : List (Nat × Nat) := (List.range n).flatMap fun i => (List.range n).map fun j => (i, j)

/-- A tile after an outer product of `kn` rows, with the flags (R230). -/
def foldTile (f : Fold) (tet mvl kn : Nat) (on : Nat → Nat → Bool) (bits : Nat) : Res :=
  (places mvl).foldl (foldElem f tet kn on) ⟨bits, 0⟩

/-- round_to(t ± a × b, tile etype, FRM) on patterns of an etype. -/
def foldFp (tet et : Nat) (rm : Rm) (neg : Bool) (a b t : Nat) : Res :=
  let p := mulVal (unpack (fmtOf et) a) (unpack (fmtOf et) b)
  addProduct (fmtOf tet) rm (if neg then (p.1.negate, p.2) else p) (unpack (fmtOf tet) t)

/-- (t + a × b) mod 2^32. -/
def foldInt (et a b t : Nat) : Res := ⟨wrapInt 32 ((t : Int) + intVal et a * intVal et b), 0⟩

/-- The step of a latched etype. -/
def foldStep (en : Entry) (neg : Bool) (a b t : Nat) : Res :=
  if isInt en.et then foldInt en.et a b t else foldFp en.tt en.et en.rm neg a b t

/-- A step over two flat panels (R229). -/
def panelFold (b c : BitVec 5) (neg : Bool) (st : Strand) (en : Entry) : Fold := fun k i j t =>
  let mvl := en.mvl.toNat
  foldStep en neg (st.elem b en.w (k * mvl + i)) (st.elem c en.w (k * mvl + j)) t

/-- Entry `x` of a codebook. -/
def Strand.code (st : Strand) (n x : Nat) : Nat := bitsAt (st.cb.toList.getD n 0).toNat 16 x

/-- A step over two panels of codes (R231). -/
def codeFold (t : BitVec 2) (b c : BitVec 5) (st : Strand) (en : Entry) : Fold := fun k i j x =>
  let mvl := en.mvl.toNat
  foldFp en.tt 9 en.rm false (st.code (2 * t.toNat) (bitsAt (st.vbits b) 4 (k * mvl + i)))
    (st.code (2 * t.toNat + 1) (bitsAt (st.vbits c) 4 (k * mvl + j))) x

/-- A step over a compressed A panel (R232): a dropped element adds no product. -/
def sparseFold (b c d : BitVec 5) (st : Strand) (en : Entry) : Fold := fun k i j t =>
  let mvl := en.mvl.toNat
  let meta_ := st.elem d 8 (k * mvl / 8 + i / 8)
  let q := i % 8
  if meta_.testBit q then
    foldStep en false (st.elem b en.w (k * mvl / 2 + 4 * (i / 8) + popCount meta_ q)) (st.elem c en.w (k * mvl + j)) t
  else ⟨t, 0⟩

/-- The rows and columns that the predicates select. -/
def Strand.selected (st : Strand) (r m : BitVec 3) (i j : Nat) : Bool :=
  (r == 0#3 || st.mbit r i) && (m == 0#3 || st.mbit m j)

/-- The firing of a MOP (R230). -/
def mopRun (t : BitVec 2) (r m : BitVec 3) (f : Strand → Entry → Fold) (s : State) (en : Entry) : Ran :=
  .done (s.upd fun st =>
    let x := foldTile (f st en) en.tt en.mvl.toNat (rankOf en.et) (st.selected r m) (st.tbits t)
    (st.setTbits t x.bits).raise x.fl)

/-- An outer product: its etypes with their tile etype, of which reduced service leaves f32 panels (R332), its shape check
and its firing. -/
def mop (i : Instr) (ok : Nat → Nat → Bool) (shape : Strand → Bool) (run : State → Entry → Ran) : WOp :=
  { ins := i, gsrc := [], pre := fun s => tilePre i (fun t tet => !ok t tet || (s.inReduced && t != 10)) s, shape := shape, ngrp := fun _ => 1,
    body := tileBody (.run fun s en => if en.vl == 0#32 then .done s else run s en) }

/-- The etypes of TFOLD and TFOLDN. -/
def foldTypes (t tet : Nat) : Bool := ((t == 8 || t == 9 || t == 10) && tet == 10) || (t == 11 && tet == 11)

/-- TFOLD (R228). -/
def opTfold (r : BitVec 3) (t : BitVec 2) (b c : BitVec 5) (m : BitVec 3) : WOp :=
  mop (.tfold r t b c m) foldTypes (fun _ => false) (mopRun t r m (panelFold b c false))
def execTfold (r : BitVec 3) (t : BitVec 2) (b c : BitVec 5) (m : BitVec 3) (s : State) : Out := issue (opTfold r t b c m) s

/-- TFOLDN (R228). -/
def opTfoldn (r : BitVec 3) (t : BitVec 2) (b c : BitVec 5) (m : BitVec 3) : WOp :=
  mop (.tfoldn r t b c m) foldTypes (fun _ => false) (mopRun t r m (panelFold b c true))
def execTfoldn (r : BitVec 3) (t : BitVec 2) (b c : BitVec 5) (m : BitVec 3) (s : State) : Out := issue (opTfoldn r t b c m) s

/-- TFOLDI8 (R228). -/
def opTfoldi8 (r : BitVec 3) (t : BitVec 2) (b c : BitVec 5) (m : BitVec 3) : WOp :=
  mop (.tfoldi8 r t b c m) (fun t tet => (t == 0 || t == 1) && tet == 4) (fun _ => false) (mopRun t r m (panelFold b c false))
def execTfoldi8 (r : BitVec 3) (t : BitVec 2) (b c : BitVec 5) (m : BitVec 3) (s : State) : Out :=
  issue (opTfoldi8 r t b c m) s

/-- TFOLDF8 (R228). -/
def opTfoldf8 (r : BitVec 3) (t : BitVec 2) (b c : BitVec 5) (m : BitVec 3) : WOp :=
  mop (.tfoldf8 r t b c m) (fun t tet => (t == 12 || t == 13) && tet == 10) (fun _ => false) (mopRun t r m (panelFold b c false))
def execTfoldf8 (r : BitVec 3) (t : BitVec 2) (b c : BitVec 5) (m : BitVec 3) (s : State) : Out :=
  issue (opTfoldf8 r t b c m) s

/-- TFOLDC4 (R228, R231). -/
def opTfoldc4 (r : BitVec 3) (t : BitVec 2) (b c : BitVec 5) (m : BitVec 3) : WOp :=
  mop (.tfoldc4 r t b c m) (fun t tet => t == 14 && tet == 10) (fun _ => false) (mopRun t r m (codeFold t b c))
def execTfoldc4 (r : BitVec 3) (t : BitVec 2) (b c : BitVec 5) (m : BitVec 3) (s : State) : Out :=
  issue (opTfoldc4 r t b c m) s

/-- The etypes of TFOLDSP. -/
def sparseTypes (t tet : Nat) : Bool :=
  ((t == 8 || t == 9 || t == 12 || t == 13) && tet == 10) || ((t == 0 || t == 1) && tet == 4)

/-- The first metadata byte whose popcount is not 4. -/
def badMeta (d : BitVec 5) (st : Strand) (en : Entry) : Option Nat :=
  (List.range (rankOf en.et * en.mvl.toNat / 8)).find? fun q => popCount (st.elem d 8 q) 8 != 4

/-- TFOLDSP (R228, R232). -/
def opTfoldsp (r : BitVec 3) (t : BitVec 2) (b c d : BitVec 5) (m : BitVec 3) : WOp :=
  mop (.tfoldsp r t b c d m) sparseTypes (fun st => st.mvl.toNat % 8 != 0) fun s en =>
    match badMeta d s.cur en with
    | some q => .stop s en causeMetadata (BitVec.ofNat 64 (s.cur.elem d 8 q)) q
    | none => mopRun t r m (sparseFold b c d) s en
def execTfoldsp (r : BitVec 3) (t : BitVec 2) (b c d : BitVec 5) (m : BitVec 3) (s : State) : Out :=
  issue (opTfoldsp r t b c d m) s

end Sys2Proof.Machine
end

