-- ==== Sys2Proof/Machine/Slalom.lean ====
section
/-! DEFINITION. The slalom former: SLALOM (R263 to R272). -/

namespace Sys2Proof.Machine

/-! ### The table (R263, R264) -/

/-- The hash multipliers. -/
def hashKeys : List Nat := [0x9E3779B9, 0x85EBCA6B, 0xC2B2AE35, 0x27D4EB2F]

/-- The signature of an address (R264). -/
def sigOf (a : Word) : Nat :=
  let x := a.toNat / 64 % 2 ^ 32
  hashKeys.foldl (fun sig h => sig ||| 2 ^ (x * h % 2 ^ 32 / 2 ^ 24)) 0

/-- WS and RS of an item. -/
def Strand.ws (st : Strand) (i : Nat) : Nat := bitsAt st.slalom.toNat 256 (2 * i)
def Strand.rs (st : Strand) (i : Nat) : Nat := bitsAt st.slalom.toNat 256 (2 * i + 1)

/-- Replace a signature: `k` is 0 for WS and 1 for RS. -/
def Strand.setSig (st : Strand) (i k x : Nat) : Strand :=
  { st with slalom := BitVec.ofNat 131072 (putBits st.slalom.toNat 256 (2 * i + k) x) }

/-- An item with a nonzero signature. -/
def Strand.claimed (st : Strand) (i : Nat) : Bool := st.ws i != 0 || st.rs i != 0

/-! ### Entry (R266, R267) -/

/-- TYPE and SLALOM_RANGE, when VL is not 0. -/
def slalomPre (i : Instr) (s : State) : Option (BitVec 8 × Word) :=
  if s.cur.vl == 0#32 then none
  else if s.cur.vtype.toNat % 16 = 15 then some (causeType, insWord i)
  else if 256 < s.cur.nElems then some (causeSlalom, s.cur.vl.setWidth 64)
  else none

/-- A member that acts on the table alone, as one act. -/
def slalomOp (i : Instr) (f : Strand → Entry → Strand) : WOp :=
  { ins := i, gsrc := [], pre := slalomPre i, skips0 := true,
    body := .run fun s en => .done (if en.vl == 0#32 then s else s.upd fun st => f st en) }

/-- A claim on every active element, to WS or RS (R268). -/
def claim (i : Instr) (b c : BitVec 5) (m : BitVec 3) (k : Nat) : WOp :=
  { slalomOp i (fun st en =>
      let size := if en.et = 14 then 1 else en.w / 8
      ((List.range en.n).filter (st.active m en.n)).foldl (fun (acc : Strand) e =>
        let sig := sigOf (en.opb + BitVec.ofNat 64 (st.elem c 32 e * size))
        acc.setSig e k ((if k = 0 then acc.ws e else acc.rs e) ||| sig)) st) with
    gsrc := [b], latch := fun st => ⟨0, st.rg b, 0, 0⟩ }

/-- SCLAIMW (R268). -/
def opSclaimw (b c : BitVec 5) (m : BitVec 3) : WOp := claim (.sclaimw b c m) b c m 0
def execSclaimw (b c : BitVec 5) (m : BitVec 3) (s : State) : Out := issue (opSclaimw b c m) s

/-- SCLAIMR (R268). -/
def opSclaimr (b c : BitVec 5) (m : BitVec 3) : WOp := claim (.sclaimr b c m) b c m 1
def execSclaimr (b c : BitVec 5) (m : BitVec 3) (s : State) : Out := issue (opSclaimr b c m) s

/-- Items `i` and `j` conflict, `j` the lower (R269). -/
def Strand.conflict (st : Strand) (i j : Nat) : Bool :=
  st.ws i &&& (st.ws j ||| st.rs j) != 0 || st.rs i &&& st.ws j != 0

/-- Item `i` is admitted (R269). -/
def Strand.admitted (st : Strand) (b : BitVec 3) (i : Nat) : Bool :=
  st.mbit b i && (List.range i).all fun j => !st.mbit b j || !st.conflict i j

/-- SWAVE (R269). -/
def opSwave (a b : BitVec 3) : WOp :=
  { ins := .swave a b, gsrc := [], pre := slalomPre (.swave a b), skips0 := true,
    body := .regs fun st en => Eff.quiet [plain (.m a) 1 en.n fun i => (st.admitted b i).toNat] }
def execSwave (a b : BitVec 3) (s : State) : Out := issue (opSwave a b) s

/-- SRETIRE (R270). -/
def opSretire (b : BitVec 3) : WOp :=
  slalomOp (.sretire b) fun st en =>
    ((List.range en.n).filter (st.mbit b)).foldl (fun (acc : Strand) i => (acc.setSig i 0 0).setSig i 1 0) st
def execSretire (b : BitVec 3) (s : State) : Out := issue (opSretire b) s

/-- SCLEAR (R270). -/
def opSclear : WOp := slalomOp .sclear fun st _ => { st with slalom := 0 }
def execSclear (s : State) : Out := issue opSclear s

/-- SPEND (R270). -/
def opSpend (a : BitVec 5) : WOp :=
  { ins := .spend a, gsrc := [], pre := slalomPre (.spend a), skips0 := true,
    body := .regs fun st en =>
      { writes := [], nfl := 0, fl := fun _ => 0,
        g := some (BitVec.ofNat 64 ((List.range en.n).filter st.claimed).length) } }
def execSpend (a : BitVec 5) (s : State) : Out := issue (opSpend a) s

end Sys2Proof.Machine
end

