-- ==== Sys2Proof/Machine/Strip.lean ====
section
/-! DEFINITION. VSTRIP: the shape arithmetic of R35 and the instruction of R66. -/

namespace Sys2Proof.Machine

/-- VL and RL from the requested length and rows (R35). -/
def shapeOf (n q gvlen grsz sew : Nat) : Nat × Nat :=
  if n = 0 then (0, 0)
  else
    let vl := Nat.min n (gvlen / sew)
    let q1 := if q = 0 then 1 else q
    (vl, Nat.min q1 (Nat.min 64 (grsz * 8 / (vl * sew))))

/-- GVLEN after a pending grant has been applied (R33). -/
def Strand.granted (st : Strand) : Strand :=
  if st.grantPend then { st with gvlen := st.grantNext, grantPend := false } else st

/-- The effect of VSTRIP on its strand; `p` is word[5:0]. It opens the next strip (R92). -/
def Strand.vstrip (st : Strand) (a : BitVec 5) (n q : Nat) (p : BitVec 6) : Strand :=
  let st1 := st.granted
  let x := shapeOf n q st1.gvlen.toNat st1.grsz.toNat (sewOf (p.toNat % 16))
  { st1 with vtype := p, vl := BitVec.ofNat 32 x.1, rl := BitVec.ofNat 7 x.2, strip := st.strip + 1 }.wg a (BitVec.ofNat 64 x.1)

/-- VSTRIP (R66). -/
def execVstrip (a b c : BitVec 5) (x y : BitVec 1) (e : BitVec 4) (s : State) : Out :=
  awaitG [a, b, c] s
    (.next (s.upd fun st => (st.vstrip a (st.rg b).toNat (st.rg c).toNat (x ++ y ++ e)).advance))

end Sys2Proof.Machine
end

