-- ==== Sys2Proof/Machine/System.lean ====
section
/-! DEFINITION. System instructions: SYS (R140, R141) and state access: STATE (R55, R56, R106, R142, R304). -/

namespace Sys2Proof.Machine

/-- NOP (R140). -/
def execNop (s : State) : Out := .next s.advance

/-- TRAPU (R113, R140). -/
def execTrapu (s : State) : Out := userTrap s causeTrapu 0 0x78000001 s.cur.uivec s.cur.enTrapu

/-- ERET (R111, R140). Entries of the handler retire first (log 21). -/
def execEret (s : State) : Out := needSup .eret s (holdUntil s.cur.window.isEmpty false s (.next s.eret))

/-- UIRET (R113, R140). -/
def execUiret (s : State) : Out :=
  if !s.cur.uiIn || s.cur.sup then trapWord s causeIllegal .uiret
  else awaitG [24, 25, 26, 27, 28, 29] s (.next (s.upd Strand.uiret))

/-- BRK (R140). -/
def execBrk (s : State) : Out := trapWord s causeBrk .brk

/-- HALT (R140): a kill of the strand's own gang, requested; a gang already killed is not killed again. -/
def execHalt (s : State) : Out :=
  needSup .halt s (holdUntil s.cur.window.isEmpty false s
    (.next (if s.isKilled s.cur.gang then s.advance else s.killGang s.cur.gang 1)))

/-- The strand has ended: its slots are free, and what lives with it is gone (R141, R240, R267, R290). -/
def Strand.ended (st : Strand) : Strand := { st.bared with phase := .exited, pDone := 0, pFault := 0, wcount := 0, leaving := false }

/-- EXIT may end the strand: the window has retired, the queues are drained, and the equivalent of FENCE.sys all holds. -/
def State.exitReady (s : State) : Bool := s.cur.window.isEmpty && s.drained 2 && s.drained 3 && s.performed 0x3F

/-- EXIT (R141): until the strand may end it waits, and executes nothing more. -/
def execExit (s : State) : Out :=
  if s.exitReady then .next ((s.sendEnds s.cur).upd Strand.ended)
  else .next ((s.stall false).upd fun st => { st with leaving := true })

/-- TLBINV (R125, R140). -/
def execTlbinv (s : State) : Out :=
  needSup .tlbinv s (.next { s with tlb := s.tlb.filter fun t => t.asid != s.cur.asid }.advance)

/-! ### State registers -/

/-- WSPHASE (R304). ACTIVE follows its meaning at TICK 0 too, where the Reset column has 0 (DESIGN CHOICE, log 39). -/
def wsPhase (tick : Word) : Word :=
  let p := tick.toNat % 32000
  BitVec.ofNat 64 (p + if p < 25600 then p / 400 * 2 ^ 16 + 2 ^ 22 else 0)

/-- ESTART (R56). -/
def Strand.estart (st : Strand) : Word :=
  match st.window with
  | [] => BitVec.ofNat 64 (2 ^ 32)
  | e :: _ => BitVec.ofNat 64 (32 * e.pidx % 2 ^ 32)

/-- The value of a state register (R55, R56, R106, R304). -/
def State.readReg (s : State) (n : BitVec 12) : Word :=
  let st := s.cur
  match n.toNat with
  | 0x000 => st.vl.setWidth 64
  | 0x001 => st.rl.setWidth 64
  | 0x002 => st.vtype.setWidth 64
  | 0x003 => st.gvlen.setWidth 64
  | 0x004 => st.grsz.setWidth 64
  | 0x005 => BitVec.ofNat 64 (s.alcOf st.core.toNat)
  | 0x006 => st.estart
  | 0x007 => st.frm.setWidth 64
  | 0x008 => st.fflags.setWidth 64
  | 0x009 => st.repro.setWidth 64
  | 0x00A => st.mvlWord
  | 0x00B => st.mstateWord
  | 0x00C => st.srseed.setWidth 64
  | 0x010 => st.id.setWidth 64
  | 0x011 => st.gang.setWidth 64
  | 0x012 => st.gangSize.setWidth 64
  | 0x013 => st.core.setWidth 64
  | 0x014 => BitVec.ofNat 64 (coreDie st.core.toNat)
  | 0x015 => st.pkg.setWidth 64
  | 0x018 => s.tick
  | 0x019 => st.cycle
  | 0x020 => st.uivec.setWidth 64 <<< 6
  | 0x021 => st.uicause.setWidth 64
  | 0x022 => st.uiepc
  | 0x023 => st.uimask
  | 0x024 => st.cxldr.setWidth 64 <<< 6
  | 0x030 => wsPhase s.tick
  | 0x031 => s.wsStateWord (coreDie st.core.toNat)
  | 0x100 => st.tvec.setWidth 64 <<< 6
  | 0x101 => st.tcause.setWidth 64
  | 0x102 => st.tepc
  | 0x103 => st.tval
  | 0x104 => st.telem.setWidth 64
  | 0x105 => st.twin.setWidth 64 <<< 12
  | 0x110 => st.ptroot.setWidth 64 <<< 12
  | 0x111 => st.asid.setWidth 64
  | 0x120 => st.wdog
  | 0x121 => st.grantWord
  | 0x130 => if st.estep then 1 else 0
  | _ => 0

/-- The GVLEN granted at launch to the strand's gang. -/
def State.launchGvlen (s : State) : Nat :=
  match s.gangOf s.cur.gang with
  | some g => g.gvlen0
  | none => s.cur.gvlen.toNat

/-- A power of two. -/
def isPow2 (n : Nat) : Bool := n != 0 && 2 ^ n.log2 == n

/-- A GVLEN that a resumption may grant when `g0` was granted at launch (R32). -/
def gvlenOk (g0 n : Nat) : Bool := n == g0 || (isPow2 n && decide (512 ≤ n) && decide (n < g0))

/-- The fields of a register take those of the word `w`; RO fields and reserved bits keep their values (R142). -/
def State.writeReg (s : State) (n : BitVec 12) (w : Word) : State :=
  match n.toNat with
  | 0x007 => s.upd fun st => { st with frm := frmStored (w.setWidth 3) }
  | 0x008 => s.upd fun st => { st with fflags := w.setWidth 5 }
  | 0x009 => s.upd fun st => { st with repro := w.setWidth 1 }
  | 0x00B => 
    s.upd fun st =>
      if st.sup then { st with tilesAllow := w.getLsbD 1, tilesOn := st.tilesOn && w.getLsbD 1 } else st
  | 0x00C => s.upd fun st => { st with srseed := seedStored (w.setWidth 32) }
  | 0x020 => s.upd fun st => { st with uivec := w.extractLsb' 6 58 }
  | 0x021 => s.upd fun st => { st with uicause := w.setWidth 8 }
  | 0x022 => s.upd fun st => { st with uiepc := w }
  | 0x023 => s.upd fun st => { st with enDone := w.getLsbD 1, enFault := w.getLsbD 2, enTrapu := w.getLsbD 3 }
  | 0x024 => s.upd fun st => { st with cxldr := w.extractLsb' 6 58 }
  | 0x100 => s.upd fun st => { st with tvec := w.extractLsb' 6 58 }
  | 0x101 => s.upd fun st => { st with tcause := w.setWidth 16 }
  | 0x102 => s.upd fun st => { st with tepc := w }
  | 0x103 => s.upd fun st => { st with tval := w }
  | 0x104 => s.upd fun st => { st with telem := w.setWidth 32 }
  | 0x105 => s.upd fun st => { st with twin := w.extractLsb' 12 34 }
  | 0x110 => s.upd fun st => { st with ptroot := w.extractLsb' 12 34 }
  | 0x111 => s.upd fun st => { st with asid := w.setWidth 16 }
  | 0x120 => s.upd fun st => { st with wdog := w }
  | 0x121 =>
    let x := (w.setWidth 17).toNat
    let v := if gvlenOk s.launchGvlen x then x else s.launchGvlen
    s.upd fun st => { st with grantNext := BitVec.ofNat 17 v, grantPend := w.getLsbD 31 }
  | 0x130 => s.upd fun st => { st with estep := w.getLsbD 0 }
  | _ => s

/-- The word of a state access: operation, A, B and number (R142). -/
def stateWord (op : BitVec 2) (a b : BitVec 5) (n : BitVec 12) : Word :=
  (0x1F#6 ++ a ++ b ++ op ++ 0#2 ++ n : BitVec 32).setWidth 64

/-- The checks and waits of a state access (R55, R142). -/
def stateAccess (rs : List (BitVec 5)) (n : BitVec 12) (word : Word) (s : State) (k : Out) : Out :=
  if !stateAssigned n then trapAt s causeIllegal word
  else if decide (0x100 ≤ n.toNat) && !s.cur.sup then trapAt s causePriv word
  else
    awaitG rs s <|
      if (n == 0x008#12 || n == 0x00C#12) && !s.cur.window.isEmpty then .next (s.stall false) else k

/-- MFS (R142). -/
def execMfs (a : BitVec 5) (n : BitVec 12) (s : State) : Out :=
  stateAccess [a] n (stateWord 0 a 0 n) s (.next (s.wg a (s.readReg n)).advance)
/-- MTS (R142). -/
def execMts (b : BitVec 5) (n : BitVec 12) (s : State) : Out :=
  stateAccess [b] n (stateWord 1 0 b n) s (.next (s.writeReg n (s.rg b)).advance)
/-- SETS (R142). -/
def execSets (b : BitVec 5) (n : BitVec 12) (s : State) : Out :=
  stateAccess [b] n (stateWord 2 0 b n) s (.next (s.writeReg n (s.readReg n ||| s.rg b)).advance)
/-- CLRS (R142). -/
def execClrs (b : BitVec 5) (n : BitVec 12) (s : State) : Out :=
  stateAccess [b] n (stateWord 3 0 b n) s (.next (s.writeReg n (s.readReg n &&& ~~~s.rg b)).advance)

end Sys2Proof.Machine
end

