-- ==== Sys2Proof/Machine/Updates.lean ====
section
/-! DEFINITION. Update streams: UPD (R245 to R253, R258, R259). -/

namespace Sys2Proof.Machine

/-! ### Descriptors (R245) -/

/-- A region descriptor. -/
structure RegionDesc where
  base : Word
  length : Nat
  etype : Nat
  oper : Nat
  mode : Nat
  scope : Nat
  logBase : Word
  logSize : Nat
  act : Nat
  handle : Nat
  /-- The bytes that must be zero. -/
  rest : Nat
  deriving DecidableEq, Repr

/-- The descriptor in 64 little-endian bytes. -/
def descOf (x : Nat) : RegionDesc :=
  let at_ := fun off n => x / 2 ^ (8 * off) % 2 ^ (8 * n)
  { base := BitVec.ofNat 64 (at_ 0 8), length := at_ 8 4, etype := at_ 0xC 1, oper := at_ 0xD 1, mode := at_ 0xE 1,
    scope := at_ 0xF 1, logBase := BitVec.ofNat 64 (at_ 0x10 8), logSize := at_ 0x18 8, act := at_ 0x20 1,
    handle := at_ 0x21 1, rest := at_ 0x22 30 }

/-- An etype of an operator's set (R246). -/
def operTypes (oper t : Nat) : Bool :=
  match oper with
  | 0 | 1 | 2 | 6 => decide (t ≤ 7) || t == 10 || t == 11
  | 3 | 4 | 5 => decide (t ≤ 7)
  | _ => false

/-- LOGBASE and LOGSIZE keep R245. -/
def RegionDesc.logOk (d : RegionDesc) : Bool :=
  d.logBase.toNat % 4096 == 0 && d.logSize % 4096 == 0 && decide (4096 ≤ d.logSize) && decide (d.logSize ≤ 2 ^ 40)

/-- Every field of a descriptor that opens a region has a permitted value. -/
def RegionDesc.openOk (d : RegionDesc) : Bool :=
  d.base.toNat % 64 == 0 && decide (1 ≤ d.length) && operTypes d.oper d.etype && decide (d.mode ≤ 1) &&
  (d.scope == 2 || d.scope == 3) && d.logOk && d.handle == 0 && d.rest == 0

/-- Bytes of the range. -/
def RegionDesc.bytes (d : RegionDesc) : Nat := d.length * (sewOf d.etype / 8)

/-! ### Translation of a range (R247) -/

/-- The leaf that maps an address, with the package that it leads to. -/
structure PageMap where
  pte : Word
  bits : Nat
  pkg : Nat
  deriving DecidableEq, Repr

/-- Translate the page of an address as a write. -/
def mapPage (s : State) (va : Word) : Except (BitVec 8 × Word) PageMap :=
  match s.translate s.cur va .write with
  | .error c => .error (c, va)
  | .ok _ =>
    match s.leafFor s.cur va with
    | .leaf pte bits => .ok ⟨pte, bits, paPkg (leafAddr pte bits va)⟩
    | _ => .error (causeAccess, va)

/-- The 64 KiB pages from `va` on, `n` of them; `va` is the first address used in its page. -/
def mapPages (s : State) (va : Word) : Nat → List (Except (BitVec 8 × Word) PageMap)
  | 0 => []
  | n + 1 => mapPage s va :: mapPages s (BitVec.ofNat 64 ((va.toNat / 65536 + 1) * 65536)) n

/-- How many pages a range touches. -/
def pageCount (va : Word) (n : Nat) : Nat := (va.toNat + n - 1) / 65536 - va.toNat / 65536 + 1

/-- All pages, or the first fault. -/
def allMapped : List (Except (BitVec 8 × Word) PageMap) → Except (BitVec 8 × Word) (List PageMap)
  | [] => .ok []
  | .error x :: _ => .error x
  | .ok p :: t =>
    match allMapped t with
    | .error x => .error x
    | .ok l => .ok (p :: l)

/-- A page of a range, by the first address used in it, lies on another package than the strand's: its leaf says so, whether
it lets the strand write or not (R249). -/
def leavesPackage (s : State) (va : Word) : Nat → Bool
  | 0 => false
  | n + 1 =>
    (match s.leafFor s.cur va with
     | .leaf pte bits => paPkg (leafAddr pte bits va) != s.cur.pkg.toNat
     | _ => false) || leavesPackage s (BitVec.ofNat 64 ((va.toNat / 65536 + 1) * 65536)) n

/-- The physical ranges of a log extent: one in each 16 KiB unit that it touches, since an interleaved page scatters such
units (R123, R247). -/
def logRanges (va : Word) (n : Nat) (pages : List PageMap) : List (Nat × Nat) :=
  let lo := va.toNat
  (List.range ((lo + n - 1) / 16384 - lo / 16384 + 1)).filterMap fun i =>
    let a := Nat.max lo ((lo / 16384 + i) * 16384)
    match pages[a / 65536 - lo / 65536]? with
    | some p => some (leafAddr p.pte p.bits (BitVec.ofNat 64 a), Nat.min (lo + n) ((lo / 16384 + i + 1) * 16384) - a)
    | none => none

/-! ### URGN (R249) -/

/-- TVAL of a URGN that names no handle. -/
def allOnes : Word := BitVec.allOnes 64

/-- The regions of the strand's gang, by handle. -/
def State.regionsNow (s : State) : List (Option Region) :=
  match s.gangOf s.cur.gang with
  | some g => g.regions.toList
  | none => []

/-- The lowest free handle. -/
def State.freeHandle (s : State) : Option Nat := (List.range 64).find? fun h => (s.region s.cur.gang h).isNone

/-- Bytes of a region's range. -/
def Region.bytes (r : Region) : Nat := r.length * r.size

/-- The lowest handle whose region overlaps a range. -/
def State.overlapping (s : State) (base : Word) (n : Nat) : Option Nat :=
  (List.range 64).find? fun h =>
    match s.region s.cur.gang h with
    | some r => decide (base.toNat < r.base.toNat + r.bytes) && decide (r.base.toNat < base.toNat + n)
    | none => false

/-- The region that a descriptor opens. -/
def RegionDesc.region (d : RegionDesc) (pkg : BitVec 6) (serial : Nat) (pages log : List PageMap) : Region :=
  { base := d.base, length := d.length, etype := BitVec.ofNat 8 d.etype, oper := BitVec.ofNat 8 d.oper,
    ordered := d.mode == 1, sysScope := d.scope == 3, pkg := pkg, pages := pages.map fun p => (p.pte, p.bits),
    extents := [(d.logBase, d.logSize)], logs := logRanges d.logBase d.logSize log, serial := serial, flags := 0, broken := false, batch := 0, entries := [] }

/-- URGN completes with a handle. -/
def urgnDone (a : BitVec 5) (h : Nat) (r : Region) (s : State) : Out :=
  .next ((s.setRegion s.cur.gang h (some r)).wg a (BitVec.ofNat 64 h)).advance

/-- URGN with ACT 0. -/
def urgnOpen (a : BitVec 5) (d : RegionDesc) (s : State) : Out :=
  if !d.openOk then trapAt s causeUpdRegion allOnes
  else
    match s.freeHandle with
    | none => trapAt s causeUpdRegion allOnes
    | some h =>
      match s.overlapping d.base d.bytes with
      | some k => trapAt s causeUpdRegion (BitVec.ofNat 64 k)
      | none =>
        let pages := mapPages s d.base (pageCount d.base d.bytes)
        if d.scope == 2 && leavesPackage s d.base (pageCount d.base d.bytes) then trapAt s causeUpdRegion allOnes
        else
          match allMapped pages, allMapped (mapPages s d.logBase (pageCount d.logBase d.logSize)) with
          | .error x, _ | .ok _, .error x => trapAt s x.1 x.2
          | .ok l, .ok e => urgnDone a h (d.region s.cur.pkg s.regionNo l e) { s with regionNo := s.regionNo + 1 }

/-- URGN with ACT 1: of the descriptor's other fields nothing is checked (R249). -/
def urgnExtend (a : BitVec 5) (d : RegionDesc) (s : State) : Out :=
  match s.region s.cur.gang d.handle with
  | none => trapAt s causeUpdRegion (BitVec.ofNat 64 d.handle)
  | some r =>
    if decide (8 ≤ r.extents.length) || !d.logOk then trapAt s causeUpdRegion (BitVec.ofNat 64 d.handle)
    else
      match allMapped (mapPages s d.logBase (pageCount d.logBase d.logSize)) with
      | .error x => trapAt s x.1 x.2
      | .ok e =>
        urgnDone a d.handle
          { r with extents := r.extents ++ [(d.logBase, d.logSize)], logs := r.logs ++ logRanges d.logBase d.logSize e } s

/-- The window is empty and the update queue is drained (R249). -/
def State.updIdle (s : State) : Bool := s.cur.window.isEmpty && s.cur.updq.isEmpty

/-- URGN (R249). A descriptor in host memory is read as the eight accesses of log 61. -/
def execUrgn (a b : BitVec 5) (s : State) : Out :=
  awaitG [a, b] s <| holdUntil s.updIdle false s <|
    match s.load (s.rg b) 64 with
    | .trap c t => trapAt s c t
    | .kill s1 r => .next (s1.killSelf r 0)
    | .ok s1 x =>
      let d := descOf x
      if 1 < d.act then trapAt s1 causeUpdRegion allOnes
      else if d.act = 0 then urgnOpen a d s1
      else urgnExtend a d s1

/-! ### USEAL, UFLUSH, UCLOSE (R259) -/

/-- The strand lies within a region's scope (R247). -/
def Region.inScope (r : Region) (st : Strand) : Bool := r.sysScope || r.pkg == st.pkg

/-- The open region that a handle names, within its scope. -/
def State.named (s : State) (h : Word) : Option Region :=
  match (if h.toNat < 64 then s.region s.cur.gang h.toNat else none) with
  | some r => if r.inScope s.cur then some r else none
  | none => none

/-- The waits and checks that the three share; `brokenTraps` for USEAL and UFLUSH (R258). -/
def onRegion (a : BitVec 5) (brokenTraps : Bool) (s : State) (k : Nat → Out) : Out :=
  awaitG [a] s <| holdUntil s.updIdle false s <|
    match s.named (s.rg a) with
    | none => trapAt s causeUpdRegion (s.rg a)
    | some r => if brokenTraps && r.broken then trapAt s causeUpdRegion (s.rg a) else k (s.rg a).toNat

/-- USEAL (R256, R259). -/
def execUseal (a : BitVec 5) (s : State) : Out :=
  onRegion a true s fun h =>
    match s.region s.cur.gang h with
    | some r => .next (s.setRegion s.cur.gang h (some r.seal)).advance
    | none => .next s.advance

/-- UFLUSH (R259). -/
def execUflush (a : BitVec 5) (s : State) : Out :=
  onRegion a true s fun h => .next (s.applyRegion s.cur.gang h true).advance

/-- UCLOSE (R259): the region's word is that after its last applies. -/
def execUclose (a : BitVec 5) (s : State) : Out :=
  onRegion a false s fun h =>
    let s1 := s.applyRegion s.cur.gang h true
    let w := match s1.region s.cur.gang h with
      | some r => r.word
      | none => 0
    .next ((s1.setRegion s.cur.gang h none).wg a w).advance

/-! ### UPD (R250 to R252) -/

/-- The region that a firing entry names, in scope or not. -/
def State.updRegion (s : State) (h : Word) : Option Region :=
  if h.toNat < 64 then s.region s.cur.gang h.toNat else none

/-- The checks of UPD at entry. -/
def updPre (i : Instr) (a : BitVec 5) (s : State) : Option (BitVec 8 × Word) :=
  if s.cur.vl == 0#32 then none
  else
    match s.named (s.rg a) with
    | none => some (causeUpdRegion, s.rg a)
    | some r =>
      if r.broken || s.cur.usn == BitVec.allOnes 40 then some (causeUpdRegion, s.rg a)
      else if s.cur.vtype.toNat % 16 ≠ r.etype.toNat then some (causeType, insWord i)
      else none

/-- The physical address of element `i` of a region, with the ROWHOME bit of its leaf. -/
def Region.addr (r : Region) (i : Nat) : Nat × Bool :=
  let va := r.base + BitVec.ofNat 64 (i * r.size)
  match r.pages[va.toNat / 65536 - r.base.toNat / 65536]? with
  | some (pte, bits) => (leafAddr pte bits va, pteBit pte 6)
  | none => (0, false)

/-- Elements of a list with one index. -/
def runOf (idx : Nat → Nat) (l : List Nat) (i : Nat) : List Nat := l.filter fun e => idx e == i

/-- A number put into its place in an ascending list that holds each number once. -/
def insertNat (x : Nat) : List Nat → List Nat
  | [] => [x]
  | y :: t => if x < y then x :: y :: t else if x = y then y :: t else y :: insertNat x t

/-- The indices of a list of elements, each once, ascending. -/
def indicesOf (idx : Nat → Nat) (l : List Nat) : List Nat := (l.map idx).foldr insertNat []

/-- The value that the elements of one run combine to (R251). -/
def runValue (en : Entry) (r : Region) (xs : List Nat) : Res :=
  if r.oper == 6#8 then ⟨xs.getLastD 0, 0⟩
  else if r.oper == 0#8 && isFp en.et then
    fpSum en.repro (fmtOf en.et) en.rm (en.treeChoice) (xs.map fun x => some (unpack (fmtOf en.et) x))
  else
    match xs with
    | [] => ⟨0, 0⟩
    | x :: t => t.foldl (fun acc y =>
        let c := combine r.oper.toNat en.et en.rm acc.bits y
        ⟨c.bits, acc.fl ||| c.fl⟩) ⟨x, 0⟩

/-- Active elements of an entry that have not fired. -/
def updLeft (st : Strand) (en : Entry) (m : BitVec 3) : List Nat :=
  (List.range en.n).filter fun e => st.active m en.n e && !en.fired e

/-- The pair of index `i` with the flags of its combination. -/
def pairFor (s : State) (en : Entry) (r : Region) (b c : BitVec 5) (l : List Nat) (i : Nat) : Pair × Flags :=
  let st := s.cur
  let run := runOf (st.elem b 32) l i
  let v := runValue en r (run.map (st.elem c en.w))
  let a := r.addr i
  ({ handle := en.opa.toNat, serial := r.serial, addr := a.1, seg := segOf a.1 a.2, val := BitVec.ofNat 64 v.bits,
     key := originKey st (s.perCoreOf st) (en.opd.setWidth 40), elems := run }, v.fl)

/-- What the forming of an entry's pairs comes to. -/
inductive Formed where
  | pairs (l : List (Pair × Flags))
  /-- A fault at an element. -/
  | fault (e : Nat) (cause : BitVec 8) (tval : Word)

/-- The pairs of a UPD entry from the elements that have neither fired nor satisfy `sent`. An index past the region raises
UPD_REGION before any pair. A pair for a page of the execute-permit map raises ACCESS at its element (R334), after that check
and before any pair (DEDUCED, log 64). -/
def formPairs (s : State) (en : Entry) (b c : BitVec 5) (m : BitVec 3) (sent : Nat → Bool) : Formed :=
  let l := (updLeft s.cur en m).filter fun e => !sent e
  match s.updRegion en.opa with
  | none => match l with
    | [] => .pairs []
    | e :: _ => .fault e causeUpdRegion en.opa
  | some r =>
    match l.find? fun e => decide (r.length ≤ s.cur.elem b 32 e) with
    | some e => .fault e causeUpdRegion en.opa
    | none =>
      match l.find? fun e => s.permitted (r.addr (s.cur.elem b 32 e)).1 with
      | some e => .fault e causeAccess (r.base + BitVec.ofNat 64 (s.cur.elem b 32 e * r.size))
      | none => .pairs ((indicesOf (s.cur.elem b 32) l).map (pairFor s en r b c l))

/-- The selected inactive elements of an entry have fired. -/
def Entry.inactiveFired (en : Entry) (st : Strand) (m : BitVec 3) (sel : Nat → Bool) : Entry :=
  en.progress en.n true fun e => en.fired e || (sel e && !st.active m en.n e)

/-- Change an entry of the window, found by its sequence number. -/
def Strand.onUpd (st : Strand) (en : Entry) (f : Entry → Entry) : Strand :=
  { st with window := st.window.map fun x =>
      match x.ins with
      | .upd .. => if x.opd == en.opd then f x else x
      | _ => x }

/-- The entry with a sequence number, as it stands in the window. -/
def Strand.updEntry (st : Strand) (en : Entry) : Entry :=
  (st.window.find? fun x =>
    match x.ins with
    | .upd .. => x.opd == en.opd
    | _ => false).getD en

/-- Elements of a UPD entry whose pairs stand in the update queue. -/
def Strand.onWay (st : Strand) (en : Entry) : List Nat := (st.updq.filter en.sender).flatMap Pair.elems

/-- The pairs of the selected elements of a UPD entry are received, or refused, by their home segments. -/
def updReceive (b c : BitVec 5) (m : BitVec 3) (sel : Nat → Bool) (s : State) (en : Entry) : Ran :=
  match en.detected with
  | some d => .stop s { en with detected := none } d.cause d.tval d.elem.toNat
  | none =>
    match formPairs s en b c m fun e => !sel e with
    | .fault e k t => .stop s en k t e
    | .pairs l =>
      let s0 := s.upd fun st => (st.raise (l.foldl (fun f p => f ||| p.2) 0)).onUpd en fun x => x.inactiveFired st m sel
      let s1 := (l.map (·.1)).foldl State.takePair s0
      let en1 := s1.cur.updEntry en
      match en1.detected with
      | some d => .stop s1 { en1 with detected := none } d.cause d.tval d.elem.toNat
      | none => .done s1

/-- The firing of a UPD in the order of R61: what the update queue holds drains, then its other pairs are formed, and their
home segments receive or refuse them. -/
def updRun (b c : BitVec 5) (m : BitVec 3) (s : State) (en : Entry) : Ran :=
  if s.cur.updq.isEmpty then updReceive b c m (fun _ => true) s en
  else updReceive b c m (fun _ => true) s.drainQueue (s.drainQueue.cur.updEntry en)

/-- The elements that a step of group `p` of a UPD fires: those of the group, and those of the same runs (R120, R252). -/
def stepped (b : BitVec 5) (st : Strand) (en : Entry) (m : BitVec 3) (p e : Nat) : Bool :=
  e / 32 == p || (updLeft st en m).any fun i => i / 32 == p && st.elem b 32 i == st.elem b 32 e

/-- A step of group `p` of a UPD. -/
def updStep (b c : BitVec 5) (m : BitVec 3) (p : Nat) (s : State) (en : Entry) : Ran :=
  let s0 := s.drainQueue
  let en0 := s0.cur.updEntry en
  match updReceive b c m (stepped b s0.cur en0 m p) s0 en0 with
  | .done s1 => if (s1.cur.updEntry en).over then .done s1 else .wait s1 (s1.cur.updEntry en)
  | r => r

/-- Pairs of a UPD entry that are not on their way set off, in ascending index, as many as the queue has room for (R39,
R251). -/
def updSend (b c : BitVec 5) (m : BitVec 3) (s : State) (en : Entry) : Ran :=
  match formPairs s en b c m fun e => (s.cur.onWay en).contains e with
  | .fault e k t => .stop s en k t e
  | .pairs l =>
    match l.take (4096 - s.cur.updq.length) with
    | [] => .wait s en
    | go =>
      .done (s.upd fun st => { st.raise (go.foldl (fun f p => f ||| p.2) 0) with updq := st.updq ++ go.map (·.1) })

/-- UPD (R250 to R253). -/
def opUpd (a b c : BitVec 5) (m : BitVec 3) : WOp :=
  { ins := .upd a b c m, gsrc := [a], pre := updPre (.upd a b c m) a, skips0 := true,
    shape := fun st => decide (st.nElems * 32 > st.grsz.toNat * 8),
    latch := fun st => ⟨st.rg a, 0, 0, st.usn.setWidth 64⟩,
    onEnter := fun st => if st.vl == 0#32 then st else { st with usn := st.usn + 1 },
    body := .run fun s en => if en.vl == 0#32 then .done s else updRun b c m s en }
def execUpd (a b c : BitVec 5) (m : BitVec 3) (s : State) : Out := issue (opUpd a b c m) s

end Sys2Proof.Machine
end

