-- ==== Sys2Proof/Machine/Operations.lean ====
section
/-! DEFINITION. The operation of each instruction that stands in a window. -/

namespace Sys2Proof.Machine

/-- The operation of a window instruction; none for the others. -/
def opOf (i : Instr) : Option WOp :=
  match i with
  | .vadd a b c m f => some (opVadd a b c m f)
  | .vsub a b c m f => some (opVsub a b c m f)
  | .vmul a b c m f => some (opVmul a b c m f)
  | .vmulh a b c m f => some (opVmulh a b c m f)
  | .vmulhn a b c m f => some (opVmulhn a b c m f)
  | .vdiv a b c m f => some (opVdiv a b c m f)
  | .vdivn a b c m f => some (opVdivn a b c m f)
  | .vrem a b c m f => some (opVrem a b c m f)
  | .vremn a b c m f => some (opVremn a b c m f)
  | .vmin a b c m f => some (opVmin a b c m f)
  | .vmax a b c m f => some (opVmax a b c m f)
  | .vminn a b c m f => some (opVminn a b c m f)
  | .vmaxn a b c m f => some (opVmaxn a b c m f)
  | .vand a b c m f => some (opVand a b c m f)
  | .vor a b c m f => some (opVor a b c m f)
  | .vxor a b c m f => some (opVxor a b c m f)
  | .vshl a b c m f => some (opVshl a b c m f)
  | .vshr a b c m f => some (opVshr a b c m f)
  | .vshra a b c m f => some (opVshra a b c m f)
  | .vsadd a b c m f => some (opVsadd a b c m f)
  | .vssub a b c m f => some (opVssub a b c m f)
  | .vadc a b c m f => some (opVadc a b c m f)
  | .vsbc a b c m f => some (opVsbc a b c m f)
  | .vmacc a b c m f => some (opVmacc a b c m f)
  | .vfadd a b c m f => some (opVfadd a b c m f)
  | .vfsub a b c m f => some (opVfsub a b c m f)
  | .vfmul a b c m f => some (opVfmul a b c m f)
  | .vfdiv a b c m f => some (opVfdiv a b c m f)
  | .vfmin a b c m f => some (opVfmin a b c m f)
  | .vfmax a b c m f => some (opVfmax a b c m f)
  | .vfsqrt a b m => some (opVfsqrt a b m)
  | .vfabs a b m => some (opVfabs a b m)
  | .vfneg a b m => some (opVfneg a b m)
  | .vfsgn a b c m f => some (opVfsgn a b c m f)
  | .vfma a b c d m => some (opVfma a b c d m)
  | .vfms a b c d m => some (opVfms a b c d m)
  | .vfnma a b c d m => some (opVfnma a b c d m)
  | .vfnms a b c d m => some (opVfnms a b c d m)
  | .vima a b c d m => some (opVima a b c d m)
  | .vwfma a b c d m => some (opVwfma a b c d m)
  | .vcvt a b r m s d => some (opVcvt a b r m s d)
  | .vceq a b c m f => some (opVceq a b c m f)
  | .vcne a b c m f => some (opVcne a b c m f)
  | .vclt a b c m f => some (opVclt a b c m f)
  | .vcle a b c m f => some (opVcle a b c m f)
  | .vcgt a b c m f => some (opVcgt a b c m f)
  | .vcge a b c m f => some (opVcge a b c m f)
  | .vcltn a b c m f => some (opVcltn a b c m f)
  | .vclen a b c m f => some (opVclen a b c m f)
  | .vcgtn a b c m f => some (opVcgtn a b c m f)
  | .vcgen a b c m f => some (opVcgen a b c m f)
  | .vfceq a b c m f => some (opVfceq a b c m f)
  | .vfclt a b c m f => some (opVfclt a b c m f)
  | .vfcle a b c m f => some (opVfcle a b c m f)
  | .vfcun a b c m f => some (opVfcun a b c m f)
  | .vcarry a b c m f => some (opVcarry a b c m f)
  | .vborrow a b c m f => some (opVborrow a b c m f)
  | .mand a b c => some (opMand a b c)
  | .mor a b c => some (opMor a b c)
  | .mxor a b c => some (opMxor a b c)
  | .mandn a b c => some (opMandn a b c)
  | .mnot a b => some (opMnot a b)
  | .mmov a b => some (opMmov a b)
  | .mshup a b s => some (opMshup a b s)
  | .mshdn a b s => some (opMshdn a b s)
  | .mpopc a b => some (opMpopc a b)
  | .mfirst a b => some (opMfirst a b)
  | .mset a => some (opMset a)
  | .mclr a => some (opMclr a)
  | .mtov a b => some (opMtov a b)
  | .vtom a b => some (opVtom a b)
  | .vmov a c m f => some (opVmov a c m f)
  | .vsplat a b c m f => some (opVsplat a b c m f)
  | .vslup a b c m f => some (opVslup a b c m f)
  | .vsldn a b c m f => some (opVsldn a b c m f)
  | .vrgath a b c m => some (opVrgath a b c m)
  | .vrows a b c m f => some (opVrows a b c m f)
  | .vcols a b c m f => some (opVcols a b c m f)
  | .vroww a b c m f => some (opVroww a b c m f)
  | .vcolw a b c m f => some (opVcolw a b c m f)
  | .vextr a b c f => some (opVextr a b c f)
  | .vins a b c f => some (opVins a b c f)
  | .vmerge a b c m f => some (opVmerge a b c m f)
  | .vid a m => some (opVid a m)
  | .vcompress a b m => some (opVcompress a b m)
  | .vexpand a b m => some (opVexpand a b m)
  | .viota a b m => some (opViota a b m)
  | .vconflict a b m => some (opVconflict a b m)
  | .vsegscan a b o m => some (opVsegscan a b o m)
  | .vinter a b c m => some (opVinter a b c m)
  | .vdelta a b c m => some (opVdelta a b c m)
  | .vprune48 a b c => some (opVprune48 a b c)
  | .vsortseg a b c m => some (opVsortseg a b c m)
  | .vnz a b c m => some (opVnz a b c m)
  | .vrsum a b m => some (opVrsum a b m)
  | .vrmin a b m => some (opVrmin a b m)
  | .vrmax a b m => some (opVrmax a b m)
  | .vrand a b m => some (opVrand a b m)
  | .vror a b m => some (opVror a b m)
  | .vrxor a b m => some (opVrxor a b m)
  | .vfrsum a b m => some (opVfrsum a b m)
  | .vfrmin a b m => some (opVfrmin a b m)
  | .vfrmax a b m => some (opVfrmax a b m)
  | .vfdot a b c m => some (opVfdot a b c m)
  | .vtagq a b => some (opVtagq a b)
  | .vwaitr a b m => some (opVwaitr a b m)
  | .vdrop a m => some (opVdrop a m)
  | .vprog a n => some (opVprog a n)
  | .vld a b m => some (opVld a b m)
  | .vlds a b c m => some (opVlds a b c m)
  | .vldx a b c m => some (opVldx a b c m)
  | .vldseg a b t m f => some (opVldseg a b t m f)
  | .vldw a b m => some (opVldw a b m)
  | .vldl a b c m => some (opVldl a b c m)
  | .vldsc a b c m => some (opVldsc a b c m)
  | .vrload a b => some (opVrload a b)
  | .vst a b m => some (opVst a b m)
  | .vsts a b c m => some (opVsts a b c m)
  | .vstx a b c m => some (opVstx a b c m)
  | .vstseg a b t m f => some (opVstseg a b t m f)
  | .vstc a b c m => some (opVstc a b c m)
  | .vstsc a b c m => some (opVstsc a b c m)
  | .vrsave a b => some (opVrsave a b)
  | .vldrow a b m => some (opVldrow a b m)
  | .vstrow a b m => some (opVstrow a b m)
  | .vemb a b c d m => some (opVemb a b c d m)
  | .vbind a b c => some (opVbind a b c)
  | .vunbind a => some (opVunbind a)
  | .vbpos a b => some (opVbpos a b)
  | .vbset a b => some (opVbset a b)
  | .relay a b s d => some (opRelay a b s d)
  | .upd a b c m => some (opUpd a b c m)
  | .tzero t => some (opTzero t)
  | .tgetr a t c m => some (opTgetr a t c m)
  | .tgetc a t c m => some (opTgetc a t c m)
  | .tsetr t b c m => some (opTsetr t b c m)
  | .tsetc t b c m => some (opTsetc t b c m)
  | .tstr r t b c m => some (opTstr r t b c m)
  | .tstx r t b c m => some (opTstx r t b c m)
  | .mcbld k b => some (opMcbld k b)
  | .tfold r t b c m => some (opTfold r t b c m)
  | .tfoldn r t b c m => some (opTfoldn r t b c m)
  | .tfoldi8 r t b c m => some (opTfoldi8 r t b c m)
  | .tfoldf8 r t b c m => some (opTfoldf8 r t b c m)
  | .tfoldc4 r t b c m => some (opTfoldc4 r t b c m)
  | .tfoldsp r t b c d m => some (opTfoldsp r t b c d m)
  | .sclaimw b c m => some (opSclaimw b c m)
  | .sclaimr b c m => some (opSclaimr b c m)
  | .swave a b => some (opSwave a b)
  | .sretire b => some (opSretire b)
  | .spend a => some (opSpend a)
  | .cx a b c d m s => some (opCx a b c d m s [])
  | .acopy a b c => some (opAcopy a b c)
  | .sclear => some (opSclear)
  | _ => none

end Sys2Proof.Machine
end

