-- ==== Sys2Proof/Machine/Firing.lean ====
section
/-! DEFINITION. Firing out of program order: the units of a window entry that are ready fire, in any order that the rules allow
(R58 to R62, R91 to R94, R192, R193, R197, R252). -/

namespace Sys2Proof.Machine

/-! ### Changes of an entry -/

/-- Replace the entry at position `k`. -/
def Strand.setEntry (st : Strand) (k : Nat) (en : Entry) : Strand := { st with window := st.window.set k en }

/-- A fault is detected in the entry at position `k`. -/
def detect (k : Nat) (en : Entry) (c : BitVec 8) (t : Word) (e : Nat) (s : State) : State :=
  let d : Detected := { cause := c, tval := t, elem := BitVec.ofNat 32 e }
  s.upd fun st => st.setEntry k { en with detected := some (lowerFault en.detected d) }

/-- An act on units `us` completes the entry, and the tail writes go with it. -/
def Seat.ends (x : Seat) (us : List Nat) : Bool := x.completes us && x.tailReady

/-- The entry in seat `x` at position `k` after an act on units `us`. -/
def landAct (k : Nat) (x : Seat) (us : List Nat) (old s : State) : State :=
  let en := x.after (x.base (old.cur.window.drop k) old us) us
  (s.under old k).upd fun st => st.setEntry k (if x.ends us then en.finish else en)

/-- What an act leads to; none when it can only wait. -/
def actResult (k : Nat) (x : Seat) (us : List Nat) (old : State) (r : Ran) : Option State :=
  match r with
  | .done s => some (landAct k x us old s)
  | .stop s en c t e => some (detect k en c t e s)
  | .kill s r e => some (s.killSelf r e)
  | .wait _ _ => none

/-- The entries from position `k` on. -/
def State.laterFrom (s : State) (k : Nat) : List Entry := s.cur.window.drop k

/-- The act of unit `u`, when it is ready. -/
def fireAct (op : WOp) (k : Nat) (x : Seat) (u : Nat) (s : State) : Option State :=
  if s.actReady k x u then
    let us := s.actOf x (s.laterFrom k) u
    actResult k x us s (runAct op s x (s.cur.window.take k) (s.laterFrom k) us (x.ends us))
  else none

/-- The tail writes of an entry whose units have all fired. -/
def fireTail (op : WOp) (k : Nat) (x : Seat) (s : State) : Option State :=
  if x.tailReady then some (landAct k x [] s (s.upd (op.body.tails s x.en))) else none

/-! ### UPD (R251, R252) -/

/-- Unit `u` of a UPD is an element that is known to be inactive. -/
def Seat.idle (x : Seat) (st : Strand) (m : BitVec 3) (u : Nat) : Bool := (x.before.view st x.en).off m u

/-- The elements from which a UPD has pairs to form: those left, but for the inactive ones and those whose pair is on its
way. -/
def Seat.pairUnits (x : Seat) (st : Strand) (m : BitVec 3) : List Nat :=
  (x.units.left x.en).filter fun u => !x.idle st m u && !(st.onWay x.en).contains u

/-- Every source of the pairs is ripe (R251). -/
def Seat.pairsReady (x : Seat) (st : Strand) (m : BitVec 3) : Bool :=
  x.en.detected.isNone && (x.pairUnits st m).all (x.ready st)

/-- The fills of a UPD are made, and its pairs set off as far as the update queue has room. -/
def firePairs (b c : BitVec 5) (m : BitVec 3) (k : Nat) (x : Seat) (s : State) : Option State :=
  if x.pairsReady s.cur m && s.memReady k x (x.pairUnits s.cur m) then
    match fillAct x (s.laterFrom k) s (x.units.left x.en) with
    | .done s1 =>
      match updSend b c m s1 x.en with
      | .done s2 => some (s2.upd fun st => st.setEntry k { x.en with filled := true })
      | .stop _ en k1 t e => some (detect k en k1 t e s)
      | _ => none
    | .stop _ en k1 t e => some (detect k en k1 t e s)
    | .kill s1 r e => some (s1.killSelf r e)
    | .wait _ _ => none
  else none

/-- Element `u` of a UPD fires alone when it is inactive; otherwise pairs set off. -/
def fireUpd (op : WOp) (b c : BitVec 5) (m : BitVec 3) (k : Nat) (x : Seat) (u : Nat) (s : State) : Option State :=
  if x.idle s.cur m u then (if x.ready s.cur u then some (landAct k x [u] s (if x.ends [u] then s.upd (op.body.tails s x.en) else s)) else none)
  else firePairs b c m k x s

/-! ### A unit -/

/-- The units that fire with unit `u` of the entry at position `k`. -/
def State.firing (s : State) (k : Nat) (x : Seat) (u : Nat) : List Nat :=
  match x.en.pairing with
  | some (_, _, m) => if x.idle s.cur m u then [u] else x.pairUnits s.cur m
  | none => s.actOf x (s.laterFrom k) u

/-- Unit `u` of the entry in seat `x` at position `k` may fire now. -/
def State.unitReady (s : State) (k : Nat) (x : Seat) (u : Nat) : Bool :=
  match x.en.pairing with
  | some (_, _, m) =>
    if x.idle s.cur m u then x.ready s.cur u
    else (x.pairUnits s.cur m).contains u && x.pairsReady s.cur m && s.memReady k x (x.pairUnits s.cur m)
  | none => s.actReady k x u

/-- Unit `u` of the entry in seat `x` at position `k` fires, or, with none left, the tail writes of the entry are made. -/
def fireSeat (k : Nat) (x : Seat) (u : Nat) (s : State) : Option State :=
  match opOf x.en.ins with
  | none => none
  | some op =>
    if x.en.over then none
    else if (x.units.left x.en).isEmpty then fireTail op k x s
    else
      match x.en.pairing with
      | some (b, c, m) => if x.units.hasFired x.en u then none else fireUpd op b c m k x u s
      | none => fireAct op k x u s

/-- Unit `u` of the entry at position `k` fires. -/
def fireUnit (k u : Nat) (s : State) : Option State :=
  match s.seats[k]? with
  | some x => fireSeat k x u s
  | none => none

/-! ### What an event names -/

/-- A member that writes to memory by groups, or sends by groups (R109, R193). -/
def isStore (i : Instr) : Bool :=
  match i with
  | .vst .. | .vsts .. | .vstx .. | .vstseg .. | .vstc .. | .vstsc .. | .vrsave .. | .vstrow .. | .tstr .. | .tstx .. => true
  | _ => false

/-- Unit `u` of an entry reads memory for an element, whose data return on their own (R192). -/
def returns (s : State) (en : Entry) (u : Nat) : Bool :=
  en.vl != 0#32 &&
  match opOf en.ins with
  | none => false
  | some op =>
    match op.body.resolve s en with
    | .load plan => (plan s.cur en).act u
    | _ => false

/-- A load that reaches memory by broadcast (R197). -/
def isGather (i : Instr) : Bool :=
  match i with
  | .vldx .. | .vldl .. | .vldsc .. => true
  | _ => false

/-- The base address of a gather's element. -/
def gatherAddr (st : Strand) (en : Entry) (e : Nat) : Word :=
  match en.ins with
  | .vldx _ _ c _ | .vldl _ _ c _ | .vldsc _ _ c _ => indexAddr st c en e
  | _ => 0

/-- The channel that serves an element of a gather, as its home segment number; none when it faults. -/
def gatherChannel (s : State) (en : Entry) (e : Nat) : Option Nat :=
  match s.translate s.cur (gatherAddr s.cur en e) .read with
  | .ok (.dev pa, rh) => some (segOf pa rh)
  | _ => none

end Sys2Proof.Machine
end

