-- ==== Sys2Proof/Machine/Admission.lean ====
section
/-! DEFINITION. The vector sequencer of a core: balances, slices and their admission (R18, R42 to R44, R233, R251). -/

namespace Sys2Proof.Machine

/-- The four units that admit slices (R42). -/
inductive Engine where
  | lanes | matrix | slalom | vmu
  deriving DecidableEq, Repr

/-- The unit that admits an instruction's slices; none for ACOPY and the members of VBIND. -/
def engineOf (i : Instr) : Option Engine :=
  match i with
  | .acopy .. | .vbind .. | .vunbind .. | .vbpos .. | .vbset .. | .relay .. => none
  | .tfold .. | .tfoldn .. | .tfoldi8 .. | .tfoldf8 .. | .tfoldc4 .. | .tfoldsp .. | .tzero .. | .tgetr .. | .tgetc ..
  | .tsetr .. | .tsetc .. => some .matrix
  | .sclaimw .. | .sclaimr .. | .swave .. | .sretire .. | .sclear | .spend .. => some .slalom
  | .vld .. | .vlds .. | .vldx .. | .vldseg .. | .vldw .. | .vldl .. | .vldsc .. | .vrload .. | .vst .. | .vsts .. | .vstx ..
  | .vstseg .. | .vstc .. | .vstsc .. | .vrsave .. | .vldrow .. | .vstrow .. | .vemb .. | .tstr .. | .tstx .. | .mcbld .. =>
    some .vmu
  | _ => some .lanes

/-- Multiply-adds per lc of a MOP under an etype (R18). -/
def mopRate (t : Nat) : Nat :=
  match t with
  | 8 | 9 => 4096
  | 0 | 1 | 12 | 13 => 8192
  | 14 => 16384
  | 11 => 256
  | _ => 1024

/-- Rounded-up division. -/
def ceilDiv (a b : Nat) : Nat := (a + b - 1) / b

/-- Bytes that each element of a VMU slice moves (R42). Of a VEMB whose descriptor cannot be read at the admission the spec
gives none: 1 (DESIGN CHOICE, log 16). -/
def bytesPerElem (s : State) (en : Entry) : Nat :=
  match en.ins with
  | .vldseg _ _ t _ f | .vstseg _ _ t _ f => (f.toNat + 1) * (sewOf t.toNat / 8)
  | .vemb .. =>
    match s.load en.opb 64 with
    | .ok _ x => (tableOf x).width * (tableOf x).fs
    | _ => 1
  | _ => en.w / 8

/-- The cost in element-beats of a slice of `k` elements (R42, R233, R251). -/
def sliceCost (s : State) (alc : Nat) (en : Entry) (first : Bool) (k : Nat) : Nat :=
  match engineOf en.ins with
  | some .matrix =>
    match en.ins with
    | .tzero .. | .tgetr .. | .tgetc .. | .tsetr .. | .tsetc .. => 1
    | _ => Nat.max 1 (ceilDiv (rankOf en.et * en.mvl.toNat * en.mvl.toNat) (mopRate en.et))
  | some .vmu =>
    match en.ins with
    | .mcbld .. => 1
    | .vrsave .. | .vrload .. => ceilDiv (k * bytesPerElem s en) 256 + if first then 1 else 0
    | _ => ceilDiv (k * bytesPerElem s en) 256
  | some .lanes =>
    match en.ins with
    | .upd .. => ceilDiv (k * 64) (alc * 64)
    | .cx .. => ceilDiv (k * 32) (alc * 64)
    | _ => ceilDiv (k * en.w) (alc * 64)
  | _ => 1

/-- The cost of the fills and appends of `k` elements of an entry (R42). -/
def streamCost (st : Strand) (en : Entry) (k : Nat) : Nat :=
  ((en.fillRegs st).length + (en.appendRegs st).length) * ceilDiv (k * (en.w / 8)) 256

/-! ### Ready slices -/

/-- The VMU admits slices of an entry for its fills and appends, beside the slices of its own unit. An entry of the VMU itself
has them in its own slices (DESIGN CHOICE, log 16). -/
def streamsApart (st : Strand) (en : Entry) : Bool := streamBound st en && engineOf en.ins != some .vmu

/-- The units of an entry that may fire, as far as admission does not matter. -/
def State.readyUnits (s : State) (k : Nat) (x : Seat) : List Nat := (x.units.left x.en).filter (s.unitReady k x)

/-- The groups that an entry's ready units lie in. -/
def State.readyGroups (s : State) (k : Nat) (x : Seat) : List Nat :=
  let l := (s.readyUnits k x).flatMap x.units.span
  (List.range x.en.ngrp).filter fun g => l.contains g && !x.en.groupDone g

/-- The consecutive numbers that follow `g` at the head of a list, at most `n`. -/
def runAfter (g : Nat) : Nat → List Nat → List Nat
  | 0, _ | _, [] => []
  | n + 1, h :: t => if h = g + 1 then h :: runAfter h n t else []

/-- The groups of the next slice: up to 8 consecutive ones, the lowest that wait (R42). -/
def sliceOf (l : List Nat) : List Nat :=
  match l with
  | [] => []
  | g :: t => g :: runAfter g 7 t

/-- A slice that is ready for a unit. -/
structure Slice where
  pos : Nat
  en : Entry
  groups : List Nat
  /-- It is one for the fills and appends. -/
  stream : Bool

/-- The slice of the entry in a seat that is ready for unit `u`: those of its own unit, then those of its streams. A detected
fault ends its admissions (R108). -/
def State.seatSlice (s : State) (u : Engine) (k : Nat) (x : Seat) : Option Slice :=
  let wait := fun (adm : BitVec 1024) => sliceOf ((s.readyGroups k x).filter fun g => !adm.getLsbD g)
  let own := if engineOf x.en.ins == some u then wait x.en.adm else []
  let str := if u == .vmu && streamsApart s.cur x.en then wait x.en.streamed else []
  if x.en.detected.isSome then none
  else if !own.isEmpty then some ⟨k, x.en, own, false⟩ else if !str.isEmpty then some ⟨k, x.en, str, true⟩ else none

/-- The slice of the strand in focus that is ready for a unit: of the oldest entry that has one, its lowest waiting groups.
Which of several ready slices of a strand a unit takes is open (DESIGN CHOICE, log 65). A strand whose stop sequence is under
way, or that steps, has none (R114, R120). -/
def readySlice (s : State) (u : Engine) : Option Slice :=
  if s.cur.stop.isSome || s.cur.dying.isSome || s.cur.stepping then none
  else s.seats.zipIdx.findSome? fun p => s.seatSlice u p.2 p.1

/-- Elements of a slice's groups, masked-off ones included: a row is one group, and an image holds a whole register (R204,
R205). -/
def sliceElems (st : Strand) (en : Entry) (gs : List Nat) : Nat :=
  match en.ins with
  | .vldrow .. | .vstrow .. => en.n
  | .vrsave .. | .vrload .. => (gs.map fun g => Nat.min 32 (st.grsz.toNat * 8 / en.w - 32 * g)).sum
  | _ => (gs.map fun g => Nat.min 32 (en.n - 32 * g)).sum

/-- The cost of a slice. -/
def Slice.cost (x : Slice) (s : State) (alc : Nat) : Nat :=
  let k := sliceElems s.cur x.en x.groups
  if x.stream then streamCost s.cur x.en k
  else
    sliceCost s alc x.en (x.groups.contains 0) k + if engineOf x.en.ins == some .vmu then streamCost s.cur x.en k else 0

/-! ### Balances and choice (R43, R44) -/

/-- One element-beat, in units of 2^−16. -/
def beat : Int := 65536

/-- Weight of a strand: its gang's. -/
def State.weightOf (s : State) (st : Strand) : Nat :=
  match s.gangOf st.gang with
  | some g => g.params.weight
  | none => 0

/-- A strand resident on a core. -/
def Strand.on (st : Strand) (core : Nat) : Bool := st.phase == .resident && st.core.toNat == core

/-- The refill at the start of an lc. -/
def State.refill (s : State) (core : Nat) : State :=
  let busy := fun (st : Strand) => st.on core && !st.window.isEmpty
  let total := ((s.strands.filter busy).map s.weightOf).sum
  s.mapStrands busy fun st =>
    let x := st.balance + ((s.weightOf st * 65536 / total : Nat) : Int)
    { st with balance := if x > 16 * beat then 16 * beat else x }

/-- Order of a slot after the slot admitted last. -/
def turnOf (last slot : Nat) : Nat := (slot + 4 - (last + 1) % 4) % 4

/-- `a` is preferred to `b`: the larger balance, and among equals the earlier turn. -/
def preferred (last : Nat) (a b : Strand) : Bool :=
  decide (b.balance < a.balance) || (a.balance == b.balance && decide (turnOf last a.slot < turnOf last b.slot))

/-- The preferred strand of a list. -/
def bestOf (last : Nat) : List Strand → Option Strand
  | [] => none
  | a :: t =>
    match bestOf last t with
    | none => some a
    | some b => if preferred last b a then some b else some a

/-- The strand that a unit admits among the ready ones. -/
def chooseFrom (last : Nat) (ready : List Strand) : Option Strand :=
  match bestOf last (ready.filter fun st => decide (beat ≤ st.balance)) with
  | some st => some st
  | none => bestOf last ready

/-- A unit of a core. -/
def CoreUnits.unit (c : CoreUnits) (u : Engine) : UnitState :=
  match u with
  | .lanes => c.lanes
  | .matrix => c.matrix
  | .slalom => c.slalomU
  | .vmu => c.vmu

def CoreUnits.setUnit (c : CoreUnits) (u : Engine) (x : UnitState) : CoreUnits :=
  match u with
  | .lanes => { c with lanes := x }
  | .matrix => { c with matrix := x }
  | .slalom => { c with slalomU := x }
  | .vmu => { c with vmu := x }

/-- Groups marked admitted. -/
def markGroups (adm : BitVec 1024) (gs : List Nat) : BitVec 1024 := gs.foldl (fun a g => a ||| (1#1024 <<< g)) adm


/-- One strand of the package. -/
def isStrand (x st : Strand) : Bool := x.gang == st.gang && x.id == st.id

/-- The package with this strand in focus. -/
def State.seenBy (s : State) (st : Strand) : State :=
  if isStrand s.cur st then { s with cur := st }
  else { s with cur := st, others := s.cur :: s.others.filter fun x => !isStrand x st }

/-- The entry of a slice with its groups admitted. -/
def Slice.admitted (x : Slice) : Entry :=
  if x.stream then { x.en with streamed := markGroups x.en.streamed x.groups }
  else { x.en with adm := markGroups x.en.adm x.groups }

/-- The admission of one unit, when it is free and a slice is ready. -/
def admitUnit (core : Nat) (x : State × CoreUnits) (u : Engine) : State × CoreUnits :=
  let s := x.1
  let c := x.2
  if c.lc < (c.unit u).freeAt then x
  else
    let ready := s.strands.filter fun st => st.on core && (readySlice (s.seenBy st) u).isSome
    match chooseFrom (c.unit u).last ready with
    | none => x
    | some st =>
      match readySlice (s.seenBy st) u with
      | none => x
      | some y =>
        let cost := y.cost (s.seenBy st) (s.alcOf core)
        (s.mapStrands (isStrand st) fun t => { t.setEntry y.pos y.admitted with balance := t.balance - cost * beat },
         c.setUnit u { freeAt := c.lc + cost, last := st.slot })

/-- One lc of a core's vector sequencer. The units admit in this order, each with the balances that those before it leave: the
spec says only that they admit independently (DESIGN CHOICE, log 65). -/
def State.sequence (s : State) (core : Nat) : State :=
  let c := Sparse.get CoreUnits.reset s.units core
  let x := [Engine.lanes, .matrix, .slalom, .vmu].foldl (admitUnit core) (s.refill core, c)
  { x.1 with units := Sparse.put CoreUnits.reset x.1.units core { x.2 with lc := x.2.lc + 1 } }

/-! ### Admitted work -/

/-- Every group of a list that is left of an entry has been admitted. -/
def Entry.holds (en : Entry) (adm : BitVec 1024) (gs : List Nat) : Bool :=
  gs.all fun g => decide (en.ngrp ≤ g) || en.groupDone g || adm.getLsbD g

/-- Units of an entry may fire as far as admission goes: their groups are admitted, and so are their fills and appends. -/
def Seat.admits (x : Seat) (st : Strand) (us : List Nat) : Bool :=
  let gs := us.flatMap x.units.span
  ((engineOf x.en.ins).isNone || x.en.holds x.en.adm gs) && (!streamsApart st x.en || x.en.holds x.en.streamed gs)

/-- The groups of a number that a list holds. -/
def keepGroups (en : Entry) (adm : BitVec 1024) (l : List Nat) : BitVec 1024 :=
  BitVec.ofNat 1024 (bitmap (fun g => adm.getLsbD g && l.contains g) en.ngrp)

/-- A slice is spent once none of its elements may fire: what was not ready waits for a later slice (R59). -/
def State.spend (s : State) (k : Nat) : State :=
  match s.seats[k]? with
  | none => s
  | some x =>
    if x.en.adm == 0 && x.en.streamed == 0 then s
    else
      let l := s.readyGroups k x
      s.upd fun st => st.setEntry k { x.en with adm := keepGroups x.en x.en.adm l, streamed := keepGroups x.en x.en.streamed l }

/-- Unit `u` of the entry at position `k` fires, when it is admitted. -/
def fireAdmitted (k u : Nat) (s : State) : Option State :=
  match s.seats[k]? with
  | none => none
  | some x => if x.admits s.cur (s.firing k x u) then (fireSeat k x u s).map fun s1 => s1.spend k else none

/-- The units of a list, each fired in turn where it may. -/
def fireAll (k : Nat) (s : State) : List Nat → State
  | [] => s
  | u :: t => fireAll k ((fireAdmitted k u s).getD s) t

/-- What is admitted of the entry at position `k` completes. -/
def completeEntry (s : State) (k : Nat) : State :=
  match s.seats[k]? with
  | none => s
  | some x => if x.en.adm == 0 && x.en.streamed == 0 then s else fireAll k s (x.units.left x.en)

/-- The slices that are admitted complete, the oldest entry's first; then none is left (R114). -/
def State.completeSlices (s : State) : State :=
  if s.cur.midSlice then
    ((List.range s.cur.window.length).foldl completeEntry s).upd fun st =>
      { st with window := st.window.map fun e => { e with adm := 0, streamed := 0 } }
  else s

/-- The first of a list of units that fires. -/
def firstOf (f : Nat → Option State) : List Nat → Option State
  | [] => none
  | u :: t =>
    match f u with
    | some s => some s
    | none => firstOf f t

/-- The units to try in a seat: those left, or, with none left, the tail writes. -/
def Seat.toTry (x : Seat) : List Nat :=
  match x.units.left x.en with
  | [] => [0]
  | l => l

/-- The first unit of the window that is admitted and ready fires. -/
def State.drive (s : State) : Option State :=
  s.seats.zipIdx.findSome? fun p => if p.1.en.over then none else firstOf (fun u => fireAdmitted p.2 u s) p.1.toTry

end Sys2Proof.Machine
end

