-- ==== Sys2Proof/Machine/StrandEvents.lean ====
section
/-! DEFINITION. Events of a strand and its core that no word encodes: what the part does between instructions (R40, R44,
R59, R63, R97, R105, R108, R111, R113, R120, R121, R125, R197, R216, R254, R298, R299). -/

namespace Sys2Proof.Machine

/-- An event takes place, or its precondition does not hold. -/
def enabled (row : String) (o : Option State) : Out :=
  match o with
  | some s => .next s
  | none => .refused (.notEnabled row)

/-- A state when a condition holds. -/
def onlyIf (c : Bool) (s : State) : Option State := if c then some s else none

/-- The strand in focus stands on a core. -/
def State.live (s : State) : Bool := s.cur.phase == .resident

/-- It stands on a core, and no trap or kill of it is under way. -/
def State.free (s : State) : Bool := s.live && s.cur.stop.isNone && s.cur.dying.isNone

/-- NO_INSTRUCTION (R5, R67, R78): a word that is no instruction raises ILLEGAL_OP. -/
def execNoInstruction (w : BitVec 32) (s : State) : Out := trapAt s causeIllegal (w.setWidth 64)

/-! ### The window -/

/-- SLICE_ADMIT (R42 to R44). -/
def execSliceAdmit (core : Nat) (s : State) : Out := enabled "SLICE_ADMIT" (onlyIf (decide (core < 640)) (s.sequence core))

/-- The seat of an entry whose units events may fire: none fires while the strand steps (R120), and in a stop sequence or a kill
only what a unit has admitted does (R114, R119). -/
def State.seatAt (s : State) (slot : Nat) : Option Seat :=
  if s.cur.stepping then none else s.seats[slot]?.filter fun x => s.free || (engineOf x.en.ins).isSome

/-- ELEMENT_FIRE (R59, R60): the unit of the entry at position `slot` that element `elem` belongs to, unless its data return
from memory or it is a store's. With no unit left the tail writes follow. -/
def execElementFire (slot elem : Nat) (s : State) : Out :=
  enabled "ELEMENT_FIRE" <|
    match s.seatAt slot with
    | none => none
    | some x =>
      let u := x.units.at_ elem
      if isStore x.en.ins || (returns s x.en u && !(x.units.left x.en).isEmpty) then none else fireAdmitted slot u s

/-- LOAD_RETURN (R192). -/
def execLoadReturn (slot elem : Nat) (s : State) : Out :=
  enabled "LOAD_RETURN" <|
    match s.seatAt slot with
    | none => none
    | some x => if returns s x.en elem then fireAdmitted slot elem s else none

/-- The elements of a gather that its admitted slices may return. -/
def State.gatherable (s : State) (k : Nat) (x : Seat) : List Nat :=
  (s.readyUnits k x).filter fun u =>
    returns s x.en u && x.admits s.cur (s.firing k x u) && x.en.detected.all fun d => d.elem.toNat != u

/-- GATHER_COMMAND (R197): the channel of the lowest element that may return answers every such element that it owns; a VLDSC
sends one element at a time (R201). -/
def execGatherCommand (slot : Nat) (s : State) : Out :=
  enabled "GATHER_COMMAND" <|
    match s.seatAt slot with
    | none => none
    | some x =>
      if !isGather x.en.ins then none
      else
        match s.gatherable slot x with
        | [] => none
        | e :: t =>
          some (fireAll slot s (e :: if isSc x.en.ins then []
            else t.filter fun i => gatherChannel s x.en i == gatherChannel s x.en e))

/-- STORE_GROUP_WRITE (R193, R198). -/
def execStoreGroupWrite (slot grp : Nat) (s : State) : Out :=
  enabled "STORE_GROUP_WRITE" <|
    match s.seatAt slot with
    | none => none
    | some x => if isStore x.en.ins then fireAdmitted slot grp s else none

/-- WINDOW_RETIRE (R63). -/
def execWindowRetire (s : State) : Out :=
  enabled "WINDOW_RETIRE" <|
    match s.cur.window with
    | [] => none
    | en :: t => if en.over then some (s.upd fun st => { st with window := t, wcount := 0 }) else none

/-- PRESS_PAIR_RECEIVE (R254, R255): the oldest pair of the update queue. -/
def execPressPairReceive (s : State) : Out :=
  enabled "PRESS_PAIR_RECEIVE" <|
    match s.cur.updq with
    | [] => none
    | p :: t => some ((s.upd fun st => { st with updq := t }).takePair p)

/-! ### Relay ports -/

/-- RELAY_DATA_ARRIVE (R139, R216). -/
def execRelayDataArrive (slot : Nat) (s : State) : Out :=
  enabled "RELAY_DATA_ARRIVE" <|
    onlyIf ((List.range 4).any (fun d => (s.cur.slotAt slot).isRelay false d) && !(s.cur.slotAt slot).inflight.isEmpty)
      (s.upd (Strand.relayArrive slot))

/-- RELAY_END_MARKER (R216): after every datum sent before it. -/
def execRelayEndMarker (slot : Nat) (s : State) : Out :=
  enabled "RELAY_END_MARKER" <|
    onlyIf ((s.cur.slotAt slot).endSent && (s.cur.slotAt slot).inflight.isEmpty) (s.upd (Strand.relayEnd slot))

/-! ### Translation and memory channels -/

/-- Entries of a core's translation buffer, at most 1,024: the oldest goes first. -/
def addTlb (l : List TlbEntry) (t : TlbEntry) : List TlbEntry :=
  if (l.filter fun x => x.core == t.core).length < 1024 then l ++ [t]
  else (l.eraseP fun x => x.core == t.core) ++ [t]

/-- PAGE_WALK (R122 to R125): a walk that ends in a leaf puts it into the core's translation buffer. A walk that faults
leaves nothing there; the access that needs it reports the fault. -/
def execPageWalk (va : Word) (kind : BitVec 2) (s : State) : Out :=
  enabled "PAGE_WALK" <|
    if !s.live || !canonical va || (s.tlbHit s.cur va).isSome || kind == 3#2 then none
    else
      match walk s s.cur.ptroot va with
      | .leaf pte bits =>
        let t : TlbEntry :=
          { core := s.cur.core.toNat, asid := s.cur.asid, va := va.toNat % 2 ^ 48 / 2 ^ bits * 2 ^ bits, bits := bits,
            pte := pte }
        some { s with tlb := addTlb s.tlb t }
      | _ => some s

/-- The agent of a channel access: all ones for one that is no strand, else GANG and STRAND. -/
def channelAgent (a : BitVec 64) : Agent :=
  if a == BitVec.allOnes 64 then .other else .strand (a.extractLsb' 32 32) (a.setWidth 32)

/-- CHANNEL_ACCESS (R89, R90, R97, R257): an access of another agent reaches its home channel on this package. What a read
returns stands in `hostRead`. A strand that reads a poisoned sector brings about the kill of its gang (R20). -/
def execChannelAccess (agent : BitVec 64) (pa : BitVec 46) (size : Nat) (isWrite : Bool) (data : BitVec 64) (s : State) :
    Out :=
  enabled "CHANNEL_ACCESS" <|
    if !([1, 2, 4, 8].contains size) ∨ pa.toNat % size ≠ 0 ∨ !populated pa.toNat ∨ paPkg pa.toNat ≠ s.mgmt.pkg.toNat then none
    else if isWrite then some (s.writeLoc (channelAgent agent) (.dev pa.toNat) size data.toNat)
    else
      match s.readLoc (.dev pa.toNat) size with
      | .ok s1 x => some { s1 with hostRead := BitVec.ofNat 64 x }
      | .kill s1 r =>
        match channelAgent agent with
        | .strand g _ => some (s1.killGang g r)
        | .other => some s1
      | .trap _ _ => some s

/-! ### Copies -/

/-- COPY_LINE (R298). -/
def execCopyLine (pos line : Nat) (s : State) : Out :=
  enabled "COPY_LINE" <|
    if (s.cur.copyAt pos).canCopy line then
      match s.copyStep pos line with
      | .ok s1 => some s1
      | .error _ => none
    else none

/-- COPY_COMPLETE (R298, R99, R137). -/
def execCopyComplete (pos : Nat) (s : State) : Out :=
  enabled "COPY_COMPLETE" (onlyIf (s.cur.copyAt pos).finished (s.copyDone pos))

/-- COPY_FAULT_STOP (R299). -/
def execCopyFaultStop (pos line : Nat) (s : State) : Out :=
  enabled "COPY_FAULT_STOP" <|
    if (s.cur.copyAt pos).canCopy line then
      match s.copyStep pos line with
      | .ok _ => none
      | .error (s1, f) => some (s1.copyFaulted pos f)
    else none

/-! ### Traps -/

/-- The pending copy cause that is taken next: the position, and whether it is a fault (R113). -/
def Strand.pendingCopy (st : Strand) : Option (Nat × Bool) :=
  match (if st.enFault then (List.range 8).find? fun i => st.pFault.getLsbD i else none) with
  | some i => some (i, true)
  | none =>
    match (if st.enDone then (List.range 8).find? fun i => st.pDone.getLsbD i else none) with
    | some i => some (i, false)
    | none => none

/-- The pending bit of a copy cause is clear. -/
def Strand.clearCause (st : Strand) (i : Nat) (fault : Bool) : Strand :=
  if fault then { st with pFault := st.pFault &&& ~~~posBit i } else { st with pDone := st.pDone &&& ~~~posBit i }

/-- USER_TRAP_ASYNC (R105, R113). An escalated cause stays pending until its trap is taken. -/
def execUserTrapAsync (s : State) : Out :=
  match s.cur.pendingCopy with
  | none => .refused (.notEnabled "USER_TRAP_ASYNC")
  | some (i, fault) =>
    if !s.free || s.cur.uiIn || s.cur.sup || s.cur.stepping || s.cur.leaving || [24, 25, 26, 27, 28, 29].any s.cur.pending then
      .refused (.notEnabled "USER_TRAP_ASYNC")
    else
      let code := if fault then causeCopyFault else causeCopyDone
      let ticket := (s.cur.copyAt i).ticket
      let s1 := s.upd fun st => { st with stalled := false }
      if s.cur.uivec == 0#58 then .next (s1.trap { frontTrap s1 code ticket 0 with async := true })
      else .next (s1.upd fun st => (st.clearCause i fault).enterUser code ticket st.uivec)

/-- SUPERVISOR_TRAP (R108, R111): the trap of the oldest entry that has detected a fault. -/
def execSupervisorTrap (s : State) : Out :=
  match oldestFault 0 s.cur.window with
  | none => .refused (.notEnabled "SUPERVISOR_TRAP")
  | some (k, d) =>
    if !s.free then .refused (.notEnabled "SUPERVISOR_TRAP")
    else
      .next (s.trap { cause := d.cause, tepc := s.cur.pc, tval := d.tval, elem := d.elem.toNat, win := some k,
                      async := false, step := false })

/-- WATCHDOG (R121). -/
def execWatchdog (s : State) : Out :=
  if s.free && s.cur.wdog != 0 && decide (s.cur.wdog.toNat ≤ s.cur.wcount.toNat) then
    .next ((s.trap { frontTrap s causeWatchdog s.cur.wcount 0 with async := true }).upd fun st => { st with wcount := 0 })
  else .refused (.notEnabled "WATCHDOG")

/-! ### Element steps (R120) -/

/-- BRK of an element step. -/
def stepBrk (s : State) (elem : Nat) : State := s.trap { frontTrap s causeBrk 0 elem with step := true }

/-- The units that a step of group `p` fires: those whose last element lies in it, or, with none of them left, those that reach
beyond it (R120, R185). -/
def Seat.stepUnits (x : Seat) : List Nat :=
  match (x.units.left x.en).filter fun u => x.units.last u == x.en.pidx with
  | [] => (x.units.left x.en).filter fun u => (x.units.span u).contains x.en.pidx
  | l => l

/-- The oldest entry fires the units of its group `p`: done when the entry is complete. -/
def fireGroup (op : WOp) (s : State) (en : Entry) : Ran :=
  if en.vl == 0#32 || en.over then runEntry op s en [] s.cur.window
  else
    match en.pairing with
    | some (b, c, m) => updStep b c m en.pidx s en
    | none =>
      let x := s.headSeat en
      let us := x.stepUnits
      if (x.units.left en).isEmpty then .done (s.upd (op.body.tails s en))
      else
        match runAct op s x [] s.cur.window us (x.completes us) with
        | .done s1 => if x.completes us then .done s1 else .wait s1 (x.after (x.base s.cur.window s us) us)
        | r => r

/-- What a step of the oldest entry leads to: BRK once its group has fired. -/
def settleStep (en : Entry) (rest : List Entry) (r : Ran) : Out :=
  let elem := 32 * en.pidx
  match r with
  | .done s => .next (stepBrk (s.upd fun st => { st with window := rest, wcount := 0 }) elem)
  | .wait s en1 =>
    let s1 := s.upd fun st => { st with window := en1 :: rest }
    .next (if en1.groupDone en.pidx || en1.fires != en.fires then stepBrk s1 elem else s1.stall true)
  | x => settle rest x

/-- ELEMENT_STEP (R120): the oldest entry fires its group p and the strand takes BRK; with an empty window BRK follows the
one instruction that the front end has executed. -/
def execElementStep (s : State) : Out :=
  if !s.free || !s.cur.stepping then .refused (.notEnabled "ELEMENT_STEP")
  else if s.cur.stepDone then .next (stepBrk s 0)
  else
    match s.cur.window with
    | [] => .refused (.notEnabled "ELEMENT_STEP")
    | en :: rest =>
      match opOf en.ins with
      | some op => settleStep en rest ((fireGroup op s en).under s)
      | none => .refused (.notEnabled "ELEMENT_STEP")

end Sys2Proof.Machine
end

