-- ==== Sys2Proof/Machine/Placement.lean ====
section
/-! DEFINITION. Places for the strands of a gang, and their launch (R26 to R30, R47, R56, R137, R322, R332). -/

namespace Sys2Proof.Machine

/-! ### Host physical memory (R307, R310) -/

/-- The device physical address of an offset in the device memory range (R307). -/
def rangeAddr (pkg : BitVec 6) (h : Nat) : Nat := pkg.toNat * 2 ^ 40 + h / (48 * 2 ^ 30) * 2 ^ 36 + h % (48 * 2 ^ 30)

/-- Where a host physical address lies: in the device memory range, or in host memory; none when it cannot be accessed. -/
def State.hostLoc (s : State) (a : Nat) : Option Loc :=
  match s.mgmt.hdm with
  | some b =>
    if b ≤ a ∧ a < b + 192 * 2 ^ 30 then some (.dev (rangeAddr s.mgmt.pkg (a - b)))
    else if Config.hostOk a then some (.host a) else none
  | none => if Config.hostOk a then some (.host a) else none

/-- Read 8 bytes at a host physical address; none when they cannot be read. The press has applied what it has (R258). -/
def State.hostRead8 (s : State) (a : Nat) : State × Option Word :=
  match s.hostLoc a with
  | none => (s, none)
  | some l =>
    match s.readLoc l 8 with
    | .ok s1 x => (s1, some (BitVec.ofNat 64 x))
    | .kill s1 _ => (s1, none)
    | .trap _ _ => (s, none)

/-- Every page of the objects that hold one of the `n` bytes at a physical address leaves the execute-permit map (R334). -/
def State.unpermit (s : State) (pa n : Nat) : State :=
  let l := (s.permits.filter fun p => decide (pa / 2 ^ 16 ≤ p.page) && decide (p.page ≤ (pa + n - 1) / 2 ^ 16)).map Permit.object
  { s with permits := s.permits.filter fun p => !l.contains p.object }

/-- A write of `n` bytes by the host: it takes the pages of code that it reaches out of the execute-permit map (R308, R334).
A page in host memory has the physical address that HOSTPKG gives it (R309). -/
def State.hstWrite (s : State) (l : Loc) (n x : Nat) : State :=
  match l with
  | .host a => (s.writeLoc .other l n x).unpermit (s.mgmt.hostpkg.toNat * 2 ^ 40 + a) n
  | .dev pa => (s.writeLoc .other l n x).unpermit pa n

/-- Write `n` bytes at a host physical address; none when it cannot be written. -/
def State.hostWrite (s : State) (a n x : Nat) : Option State := (s.hostLoc a).map fun l => s.hstWrite l n x

/-! ### Sizes (R27) -/

/-- Bytes per vector register of a GRSZ code. -/
def Params.grsz (p : Params) : Nat := 2048 * 2 ^ p.grszCode
/-- P in effect. -/
def Params.perCoreOf (p : Params) : Nat := if p.perCore = 0 then Nat.min 4 (2 ^ 20 / (32 * p.grsz)) else p.perCore
/-- Strand groups. -/
def Params.groups (p : Params) : Nat := ceilDiv p.nstrand p.perCoreOf
/-- Strands of group `i`. -/
def Params.groupSize (p : Params) (i : Nat) : Nat := Nat.min p.perCoreOf (p.nstrand - i * p.perCoreOf)
/-- The GVLEN granted at launch (R32). -/
def Params.gvlenAtLaunch (p : Params) : Nat := Nat.min (2 ^ p.gvlenCode) (8 * p.grsz)

/-! ### Cores (R9, R22, R29, R332) -/

/-- The cluster of a core, 0 to 31. -/
def clusterOf (core : Nat) : Nat := core / 20

/-- A strand takes up a place. -/
def Strand.placedOn (st : Strand) : Bool := st.phase == .resident || st.phase == .held

/-- Reserved groups of a queue's head: parameters and cores (R324). -/
def Head.reserved (h : Head) : Option (Params × List Nat) :=
  match h with
  | .gangsync _ _ _ p _ _ (Option.some l) _ _ => Option.some (p, l)
  | _ => Option.none

/-- Groups reserved on a core: their sizes and register bytes. -/
def State.reservedOn (s : State) (core : Nat) : List (Nat × Nat) :=
  s.queues.flatMap fun q =>
    match q.2.head.reserved with
    | none => []
    | some (p, l) => (l.zipIdx.filter fun x => x.1 == core).map fun x => (p.groupSize x.2, p.groupSize x.2 * 32 * p.grsz)

/-- Slot numbers in use on a core. -/
def State.slotsOn (s : State) (core : Nat) : List Nat :=
  (s.strands.filter fun st => st.placedOn && st.core.toNat == core).map Strand.slot

/-- Register-file bytes allotted on a core. -/
def State.bytesOn (s : State) (core : Nat) : Nat :=
  ((s.strands.filter fun st => st.placedOn && st.core.toNat == core).map fun st => 32 * st.grsz.toNat).sum +
  ((s.reservedOn core).map (·.2)).sum

/-- Strands placed or reserved on a core. -/
def State.countOn (s : State) (core : Nat) : Nat := (s.slotsOn core).length + ((s.reservedOn core).map (·.1)).sum

/-- A gang that stands in one cluster of its own: a MESH gang, placed and not killed. -/
def Gang.holdsMesh (g : Gang) : Bool := g.params.place == 1 && g.placed && g.killed.isNone

/-- A MESH pair at the head of a queue has its places in a cluster. -/
def Head.meshIn (h : Head) (cluster : Nat) : Bool :=
  match h.reserved with
  | some (p, l) => p.place == 1 && l.any fun c => clusterOf c == cluster
  | Option.none => false

/-- A cluster that a MESH gang holds, until it completes, is killed or is switched out, or that is reserved for one. -/
def State.meshHeld (s : State) (cluster : Nat) : Bool :=
  (s.strands.any fun st => st.phase != .absent && clusterOf st.core.toNat == cluster &&
    ((s.gangOf st.gang).map Gang.holdsMesh).getD false) ||
  s.queues.any fun q => q.2.head.meshIn cluster

/-- What limits the cores of a placement: the die of a loading gang (R321), the clusters of reduced service (R332), and
cores kept for a gang that has waited long (R31). -/
structure Site where
  die : Option Nat
  reduced : Bool
  avoid : Nat → Bool

/-- A WSLOAD for a die stands at the head of a queue. -/
def Head.loads (h : Head) (d : Nat) : Bool :=
  match h with
  | .wsload e _ _ _ => e == d
  | _ => false

/-- A die is closed to other gangs: it loads, or a WSLOAD for it stands at the head of a queue (R321). -/
def State.dieClosed (s : State) (d : Nat) : Bool :=
  ((s.dies.toList[d]?).map fun x => x.wsState == 1#2).getD true || s.queues.any fun q => q.2.head.loads d

/-- A core that a gang could use when nothing else stood there: unfenced, calibrated in reduced service, on its die. -/
def State.couldUse (s : State) (die : Option Nat) (reduced : Bool) (core : Nat) : Bool :=
  !s.mgmt.fence.getLsbD core && (!reduced || s.mgmt.calmap.getLsbD (clusterOf core)) &&
  (die.isNone || die == some (coreDie core))

/-- Cores that may receive strands. -/
def State.coreOpen (s : State) (w : Site) (core : Nat) : Bool :=
  s.couldUse w.die w.reduced core && !s.meshHeld (clusterOf core) && !w.avoid core &&
  (w.die.isSome || !s.dieClosed (coreDie core))

/-- The core can take a group of `n` strands (R29). -/
def State.canTake (s : State) (w : Site) (grsz n core : Nat) : Bool :=
  s.coreOpen w core && decide (s.countOn core + n ≤ 4) && decide (s.bytesOn core + n * 32 * grsz ≤ 2 ^ 20)

/-- Groups `i` on, `left` of them, given to the eligible cores of a list in its order. -/
def linearFrom (s : State) (w : Site) (p : Params) (i left : Nat) : List Nat → Option (List Nat)
  | [] => if left = 0 then some [] else none
  | c :: t =>
    match left with
    | 0 => some []
    | n + 1 =>
      if s.canTake w p.grsz (p.groupSize i) c then (linearFrom s w p (i + 1) n t).map (c :: ·)
      else linearFrom s w p i (n + 1) t

/-- A cluster with no strand whose cores can take the groups at their mesh positions. -/
def meshFits (s : State) (w : Site) (p : Params) (cluster : Nat) : Bool :=
  ((List.range 20).all fun k => s.countOn (20 * cluster + k) == 0) &&
  (List.range p.groups).all fun i => s.canTake w p.grsz (p.groupSize i) (20 * cluster + i)

/-- The cores of a gang's groups, when every group has a place (R29, R30). -/
def State.placesFor (s : State) (w : Site) (p : Params) : Option (List Nat) :=
  if p.place = 1 then
    ((List.range 32).find? (meshFits s w p)).map fun k => (List.range p.groups).map (20 * k + ·)
  else linearFrom s w p 0 p.groups (List.range 640)

/-! ### Refusals (R28) -/

/-- A field of a KERNEL outside R313. -/
def Params.fieldsOk (p : Params) : Bool :=
  p.ptroot.toNat % 4096 == 0 && p.entry.toNat % 64 == 0 && decide (1 ≤ p.nstrand) && decide (p.nstrand ≤ 2560) &&
  decide (p.perCore ≤ 4) && decide (p.grszCode ≤ 4) && decide (9 ≤ p.gvlenCode) && decide (p.gvlenCode ≤ 16) &&
  decide (1 ≤ p.weight) && decide (p.weight ≤ 15) && decide (p.place ≤ 1) && p.argbuf.toNat % 8 == 0 &&
  !p.argmask.getLsbD 0 && p.compl.toNat % 16 == 0

/-- Unfenced cores, on one die or all. -/
def State.unfenced (s : State) (die : Option Nat) : Nat :=
  ((List.range 640).filter fun c => !s.mgmt.fence.getLsbD c && (die.isNone || die == some (coreDie c))).length

/-- The launch is refused (R28). -/
def State.refuses (s : State) (die : Option Nat) (p : Params) : Bool :=
  decide (p.perCoreOf * 32 * p.grsz > 2 ^ 20) || decide (p.nstrand > s.unfenced die * p.perCoreOf) ||
  (p.place == 1 && decide (p.nstrand > 20 * p.perCoreOf))

/-! ### Launch (R47, R56) -/

/-- The argument values for the registers `r` on, `k` left, from the buffer at `a`; none when it cannot be read. -/
def readArgs (s : State) (mask : BitVec 32) (a r : Nat) : Nat → State × Option (List (Nat × Word))
  | 0 => (s, some [])
  | k + 1 =>
    if mask.getLsbD r then
      match s.hostRead8 a with
      | (s1, none) => (s1, none)
      | (s1, some w) =>
        let x := readArgs s1 mask (a + 8) (r + 1) k
        (x.1, x.2.map ((r, w) :: ·))
    else readArgs s mask a (r + 1) k

/-- The launch value of a g register. -/
def argOf (l : List (Nat × Word)) (r : Nat) : Word := ((l.find? fun x => x.1 == r).map (·.2)).getD 0

/-- A strand at its launch: number `i` on this package, on a core, in a slot (R26, R47, R56, R106). -/
def launchStrand (s : State) (g : Gang) (args : List (Nat × Word)) (i core slot : Nat) : Strand :=
  let p := g.params
  { Strand.idle with
    phase := if g.commit.isSome then .held else .resident,
    g := Vector.ofFn fun r => argOf args r.val, pc := p.code + p.entry.setWidth 64,
    gvlen := BitVec.ofNat 17 g.gvlen0, grsz := BitVec.ofNat 16 p.grsz,
    srseed := seedStored (0x2545F491 ^^^ BitVec.ofNat 32 (g.first + i + 1)), id := BitVec.ofNat 32 (g.first + i),
    gang := g.id, gangSize := BitVec.ofNat 32 g.size, core := BitVec.ofNat 10 core, pkg := s.mgmt.pkg,
    ptroot := p.ptroot.extractLsb' 12 34, asid := p.asid, wdog := p.wdog, slot := slot, group := i / g.perCore,
    core0 := BitVec.ofNat 10 core }

/-- Free slot numbers of a core, lowest first. -/
def State.freeSlots (s : State) (core : Nat) : List Nat := (List.range 4).filter fun k => !(s.slotsOn core).contains k

/-- Place of strand `i` when the groups go to a list of cores: its core and slot. -/
def placeFor (s : State) (perCore : Nat) (cores : List Nat) (i : Nat) : Nat × Nat :=
  let c := cores.getD (i / perCore) 0
  (c, (s.freeSlots c).getD (i % perCore) 0)

/-- Strands join the package; the first takes the focus when no strand is there. -/
def State.join (s : State) (l : List Strand) : State :=
  match l with
  | [] => s
  | x :: t => if s.cur.phase == .absent then { s with cur := x, others := s.others ++ t } else { s with others := s.others ++ l }

/-- The named barriers of a gang's groups at placement (R137). -/
def namedAtPlacement (p : Params) : Sparse (Vector Barrier 32) :=
  (List.range p.groups).map fun i => (i, Vector.replicate 32 (Barrier.fresh (p.groupSize i)))

/-- What a gang takes from its launch: identifier, queue and priority, and, across packages, its first strand, its size,
its packages and its commit tick. -/
structure Launch where
  id : BitVec 32
  queue : Nat
  first : Nat
  size : Nat
  mask : Word
  commit : Option Word
  loading : Option Nat
  object : Nat

/-- The gang of a launch. -/
def launchGang (s : State) (l : Launch) (p : Params) : Gang :=
  { id := l.id, params := p, perCore := p.perCoreOf, size := l.size, first := l.first, queue := l.queue,
    multi := l.commit.isSome, pkgMask := l.mask, gvlen0 := p.gvlenAtLaunch, barrier := Barrier.fresh l.size,
    named := namedAtPlacement p, regions := Vector.replicate 64 none, object := l.object, placed := true,
    placedAt := s.tick, outAt := 0, outOrder := 0, outFor := none, loading := l.loading, killed := none,
    reduced := s.mgmt.phase == 2#3, commit := l.commit }

/-- The gang's strands are placed on the cores of a list. -/
def State.launch (s : State) (l : Launch) (p : Params) (cores : List Nat) (args : List (Nat × Word)) : State :=
  let g := launchGang s l p
  let strands := (List.range p.nstrand).map fun i =>
    let x := placeFor s p.perCoreOf cores i
    launchStrand s g args i x.1 x.2
  { s with gangs := s.gangs ++ [g] }.join strands

end Sys2Proof.Machine
end

