-- ==== Sys2Proof/Machine/Packets.lean ====
section
/-! DEFINITION. Launch queues: packets, their errors, completion records and mirrors (R310 to R320). -/

namespace Sys2Proof.Machine

/-! ### Queues -/

/-- A launch queue. -/
def State.queue (s : State) (q : Nat) : Queue := Sparse.get Queue.reset s.queues q

/-- Change a launch queue. -/
def State.updQueue (s : State) (q : Nat) (f : Queue → Queue) : State :=
  { s with queues := Sparse.put Queue.reset s.queues q (f (s.queue q)) }

/-- TAIL − PROG, modulo 2^32: the slots filled and not yet consumed. -/
def Queue.filled (x : Queue) : Nat := (x.tail - x.prog).toNat

/-- Host physical address of the slot `k` places from PROG (R310). -/
def Queue.slotAddr (x : Queue) (k : Nat) : Nat :=
  x.liveBase.toNat * 4096 + 64 * ((x.prog.toNat + k) % 2 ^ x.liveLog)

/-- Queues are served in PHASE 2 and 3 (R331, R332). -/
def State.serving (s : State) : Bool := s.mgmt.phase == 2#3 || s.mgmt.phase == 3#3

/-- The device may read the packet at PROG (R315): the queue is served, and nothing is held at its head. -/
def State.mayRead (s : State) (q : Nat) : Bool :=
  let x := s.queue q
  decide (q < 64) && s.serving && x.en && !x.swout && !x.stopped && x.head == .none && x.tail != x.prog

/-! ### Mirror (R311) -/

/-- The mirror's value. -/
def mirrorWord (q : Nat) (prog : BitVec 32) : Word :=
  ((prog ^^^ 0x5A5A5A5A#32 ^^^ BitVec.ofNat 32 (q * 0x01010101)) ++ prog : BitVec 64)

/-- A malformed packet, or a mirror that cannot be written: the queue stops with QERR set, and PROG stays (R317). -/
def State.stopQueue (s : State) (q code : Nat) : State :=
  s.updQueue q fun x => { x with stopped := true, errCode := BitVec.ofNat 8 code, errSlot := x.prog }

/-- Write the mirror. -/
def State.writeMirror (s : State) (q : Nat) : State :=
  let s1 := s.updQueue q fun x => { x with mirDirty := false }
  if (s.queue q).liveMirEn then
    match s1.hostWrite ((s.queue q).liveMirAddr.toNat * 8) 8 (mirrorWord q (s.queue q).prog).toNat with
    | some s2 => s2
    | none => s1.stopQueue q 0x06
  else s1

/-- PROG moves on by `n` slots; the mirror is to be written. -/
def State.consume (s : State) (q n : Nat) : State :=
  s.updQueue q fun x => { x with prog := x.prog + BitVec.ofNat 32 n, mirDirty := x.liveMirEn }

/-- What stands at the head, and since when. -/
def State.setHead (s : State) (q : Nat) (h : Head) : State :=
  s.updQueue q fun x => { x with head := h, headSince := s.tick, aged := false }

/-! ### Records (R316, R317) -/

/-- Write a completion record; one that cannot be written is lost. -/
def State.record (s : State) (p : Params) (gang : BitVec 32) (status : Nat) (reason : Word) : State :=
  (s.hostWrite p.compl.toNat 16
    (gang.toNat + status * 2 ^ 32 + reason.toNat % 256 * 2 ^ 40 + s.tick.toNat * 2 ^ 64)).getD s

/-- The queue has let go of its head: gangs that were switched out for it may resume (R31). -/
def State.leaveHead (s : State) (q : Nat) : State :=
  { s.setHead q .none with gangs := s.gangs.map fun g => if g.outFor == some q then { g with outFor := none } else g }

/-- The KERNEL of a queue is refused: it leaves the head, its code object with it (R334), and its record is written. -/
def State.refuse (s : State) (q : Nat) (p : Params) (status : Nat) : State :=
  let s1 := s.leaveHead q
  (match acceptedObject (s.queue q).head with
   | some o => s1.releaseObject o
   | none => s1).record p 0 status 0

/-- A launch error: the packet is consumed, its completion record is written, QERR is set, and the queue goes on. -/
def State.launchError (s : State) (q : Nat) (p : Params) (code status : Nat) : State :=
  (s.refuse q p status).updQueue q fun x => { x with errCode := BitVec.ofNat 8 code, errSlot := x.prog }

/-! ### The die of a WSLOAD (R304, R321) -/

/-- Change a die. -/
def State.updDie (s : State) (d : Nat) (f : Die → Die) : State :=
  { s with dies := Vector.ofFn fun i =>
      let y := s.dies[i.val]'i.isLt
      if i.val = d then f y else y }

/-- WSSTATE.STATE of a die is set. -/
def State.setWs (s : State) (d : Nat) (x : BitVec 2) : State := s.updDie d fun y => { y with wsState := x, wsFault := false }

/-- A gang loads the die, or has loaded it and SERVING has still to be entered. -/
def State.loadUnderWay (s : State) (d : Nat) : Bool :=
  (s.gangs.any fun g => g.loading == some d) || ((s.dies.toList[d]?).map fun x => x.wsState == 1#2 && !x.wsFault).getD false

/-- Strands stand on a die, or places there are reserved. -/
def State.dieBusy (s : State) (d : Nat) : Bool :=
  (s.strands.any fun st => st.placedOn && coreDie st.core.toNat == d) ||
  s.queues.any fun q => (q.2.head.reserved.map fun x => x.2.any fun c => coreDie c == d).getD false

/-- A WSLOAD for the die can go on: nothing stands there, and no load of it is under way (R321). -/
def State.dieClear (s : State) (d : Nat) : Bool := !s.dieBusy d && !s.loadUnderWay d

/-- A KERNEL whose die is being loaded is refused: WSSTATE is IDLE (R321). -/
def State.refuseLoad (s : State) (die : Option Nat) : State :=
  match die with
  | some d => s.setWs d 0
  | none => s

/-! ### Reading a packet (R312, R315, R317) -/

/-- Doublewords from a host physical address on; none when one cannot be read. -/
def State.readDwords (s : State) (a : Nat) : Nat → State × Option (List Word)
  | 0 => (s, some [])
  | n + 1 =>
    match s.hostRead8 a with
    | (s1, none) => (s1, none)
    | (s1, some w) =>
      let x := s1.readDwords (a + 8) n
      (x.1, x.2.map (w :: ·))

/-- What a reading of the packet at PROG comes to. -/
inductive Packet where
  /-- Not all of its slots are filled. -/
  | short
  | malformed (code : Nat)
  /-- The doublewords of a packet of TYPE `type` and `size` slots. -/
  | ok (type size : Nat) (w : List Word)
  deriving DecidableEq, Repr

/-- TYPE and SIZE of a header. -/
def headType (w : Word) : Nat := w.toNat % 256
def headSize (w : Word) : Nat := w.toNat / 256 % 256

/-- SIZE is right for TYPE. -/
def sizeOk (type size : Nat) : Bool := if type = 1 then size == 2 else if type = 2 then decide (1 ≤ size) else size == 1

/-- Bytes that no layout names are zero (R312 to R314); `w` holds the doublewords of the packet. -/
def reservedOk (type : Nat) (w : List Word) : Bool :=
  let at_ := fun i => (w.getD i 0).toNat
  at_ 0 / 2 ^ 16 == 0 &&
  match type with
  | 1 => at_ 2 / 2 ^ 16 == 0 && at_ 5 / 2 ^ 40 == 0 && at_ 7 / 2 ^ 32 == 0 && (w.drop 10).all (· == 0)
  | 2 => true
  | 3 => (w.drop 4).all (· == 0)
  | 4 => (w.drop 3).all (· == 0)
  | 5 => (w.drop 2).all (· == 0)
  | _ => (w.drop 4).all (· == 0)

/-- Fields of packets other than KERNEL at values outside R314; they count as reserved bytes that are not zero. -/
def fieldsPermitted (s : State) (type : Nat) (w : List Word) : Bool :=
  let at_ := fun i => (w.getD i 0).toNat
  match type with
  | 3 => at_ 1 % 8 == 0 && decide (at_ 3 ≤ 2)
  | 4 => at_ 1 % 8 == 0
  | 5 => decide (at_ 1 ≤ 3)
  | 6 => (w.getD 1 0).getLsbD s.mgmt.pkg.toNat
  | _ => true

/-- The doublewords of the slots `k` to `k + n − 1` from PROG. -/
def State.readSlots (s : State) (x : Queue) (k : Nat) : Nat → State × Option (List Word)
  | 0 => (s, some [])
  | n + 1 =>
    match s.readDwords (x.slotAddr k) 8 with
    | (s1, none) => (s1, none)
    | (s1, some w) =>
      let y := s1.readSlots x (k + 1) n
      (y.1, y.2.map (w ++ ·))

/-- The code of a packet `k` slots from PROG whose header `h` alone shows it malformed: no further slot is read then. -/
def headFault (x : Queue) (k : Nat) (h : Word) : Option Nat :=
  let t := headType h
  let n := headSize h
  if t = 0 ∨ 6 < t then some 0x01
  else if !sizeOk t n then some 0x02
  else if (x.prog.toNat + k) % 2 ^ x.liveLog + n > 2 ^ x.liveLog then some 0x03
  else none

/-- The packet `k` slots from PROG. It is read once SIZE slots are filled, as its header gives SIZE, and then wholly, and
checked (R315). The order of the checks is that of log 30. -/
def State.readPacket (s : State) (q k : Nat) : State × Packet :=
  let x := s.queue q
  if x.filled > 2 ^ x.liveLog then (s, .malformed 0x05)
  else if x.filled ≤ k then (s, .short)
  else
    match s.readDwords (x.slotAddr k) 8 with
    | (s1, none) => (s1, .malformed 0x06)
    | (s1, some w) =>
      let n := headSize (w.headD 0)
      if x.filled < k + n then (s1, .short)
      else
        match headFault x k (w.headD 0) with
        | some c => (s1, .malformed c)
        | none =>
          match s1.readSlots x (k + 1) (n - 1) with
          | (s2, none) => (s2, .malformed 0x06)
          | (s2, some l) =>
            let t := headType (w.headD 0)
            if reservedOk t (w ++ l) && fieldsPermitted s2 t (w ++ l) then (s2, .ok t n (w ++ l))
            else (s2, .malformed 0x02)

/-- The parameters of a KERNEL (R313). -/
def paramsOf (w : List Word) : Params :=
  let at_ := fun i => (w.getD i 0).toNat
  { ptroot := w.getD 1 0, asid := BitVec.ofNat 16 (at_ 2), code := w.getD 3 0, entry := BitVec.ofNat 32 (at_ 4),
    nstrand := at_ 4 / 2 ^ 32, perCore := at_ 5 % 256, grszCode := at_ 5 / 2 ^ 8 % 256, gvlenCode := at_ 5 / 2 ^ 16 % 256,
    weight := at_ 5 / 2 ^ 24 % 256, place := at_ 5 / 2 ^ 32 % 256, argbuf := w.getD 6 0, argmask := BitVec.ofNat 32 (at_ 7),
    wdog := w.getD 8 0, compl := w.getD 9 0 }

/-- The event of a packet TYPE: a reading that comes to something else is another event. A malformed packet of no known TYPE
is read by KERNEL_PACKET. -/
def State.packetEvent (s : State) (row : String) (type q : Nat) (k : State → List Word → Option State) : Out :=
  enabled row <|
    if !s.mayRead q then none
    else
      match s.readPacket q 0 with
      | (_, .short) => none
      | (s1, .malformed c) => onlyIf (type == 1) (s1.stopQueue q c)
      | (s1, .ok t n w) => if t == type then k (s1.consume q n) w else none

/-! ### KERNEL, PAD, WAIT, SIGNAL (R313, R314) -/

/-- KERNEL_PACKET (R313, R28): a KERNEL within R313 and R28 stands at the head for placement. -/
def execKernelPacket (q : Nat) (s : State) : Out :=
  s.packetEvent "KERNEL_PACKET" 1 q fun s1 w =>
    let p := paramsOf w
    some (if !p.fieldsOk then s1.launchError q p 0x10 1
      else if s1.refuses none p then s1.launchError q p 0x11 1
      else s1.setHead q (.kernel p false 0))

/-- PAD_PACKET (R314). -/
def execPadPacket (q : Nat) (s : State) : Out := s.packetEvent "PAD_PACKET" 2 q fun s1 _ => some s1

/-- The condition of a WAIT (R314), with the reading of its word; none when the word cannot be read. -/
def State.waitHolds (s : State) (addr value cond : Word) : State × Option Bool :=
  if cond == 2 then (s, some (decide (value.toNat ≤ s.tick.toNat)))
  else
    let x := s.hostRead8 addr.toNat
    (x.1, x.2.map fun w => if cond == 0 then decide (value.toNat ≤ w.toNat) else w == value)

/-- The WAIT at a head is tested: satisfied, held, or its word cannot be read. -/
def State.testWait (s : State) (q : Nat) (addr value cond : Word) : State :=
  match s.waitHolds addr value cond with
  | (s1, none) => (s1.setHead q .none).stopQueue q 0x06
  | (s1, some true) => s1.setHead q .none
  | (s1, some false) => if (s1.queue q).head == .wait addr value cond then s1 else s1.setHead q (.wait addr value cond)

/-- WAIT_PACKET (R314). A WAIT whose word cannot be read is malformed: PROG stays at it (R317). -/
def execWaitPacket (q : Nat) (s : State) : Out :=
  s.packetEvent "WAIT_PACKET" 3 q fun s1 w =>
    let (a, v, c) := (w.getD 1 0, w.getD 2 0, w.getD 3 0)
    some (match s1.waitHolds a v c with
      | (s2, none) => ((s2.updQueue q fun x => { x with prog := (s.queue q).prog, mirDirty := (s.queue q).mirDirty }).stopQueue q 0x06)
      | _ => s1.testWait q a v c)

/-- WAIT_POLL (R314). -/
def execWaitPoll (q : Nat) (s : State) : Out :=
  enabled "WAIT_POLL" <|
    match (s.queue q).head with
    | .wait a v c => onlyIf (decide (q < 64)) (s.testWait q a v c)
    | _ => none

/-- Every earlier KERNEL of the queue has its completion record written. -/
def State.queueQuiet (s : State) (q : Nat) : Bool := !s.gangs.any fun g => g.queue == q

/-- SIGNAL_PACKET (R314). -/
def execSignalPacket (q : Nat) (s : State) : Out :=
  s.packetEvent "SIGNAL_PACKET" 4 q fun s1 w => some (s1.setHead q (.signal (w.getD 1 0) (w.getD 2 0)))

/-- SIGNAL_WRITE (R314); a value that cannot be written is lost. -/
def execSignalWrite (q : Nat) (s : State) : Out :=
  enabled "SIGNAL_WRITE" <|
    match (s.queue q).head with
    | .signal a v =>
      onlyIf (decide (q < 64) && s.queueQuiet q) ((((s.hostWrite a.toNat 8 v.toNat).getD s)).setHead q .none)
    | _ => none

/-! ### Pairs (R314, R321, R324) -/

/-- A WSLOAD or GANGSYNC is read with the KERNEL that follows it. -/
def State.pairEvent (s : State) (row : String) (type q : Nat) (k : State → List Word → Params → State) : Out :=
  enabled row <|
    if !s.mayRead q then none
    else
      match s.readPacket q 0 with
      | (s1, .ok t _ w) =>
        if t != type then none
        else
          match s1.readPacket q 1 with
          | (_, .short) => none
          | (s2, .malformed 0x01) => some (s2.stopQueue q 0x04)
          | (s2, .malformed c) => some (s2.stopQueue q c)
          | (s2, .ok u _ w2) => some (if u == 1 then k (s2.consume q 3) w (paramsOf w2) else s2.stopQueue q 0x04)
      | _ => none

/-- WSLOAD_PACKET (R321): from now on no other gang is placed on the die. -/
def execWsloadPacket (q : Nat) (s : State) : Out :=
  s.pairEvent "WSLOAD_PACKET" 5 q fun s1 w p => s1.setHead q (.wsload ((w.getD 1 0).toNat) p false 0)

/-- The coordinator of a multi-package gang: the lowest package of its mask (R324). -/
def coordinator (mask : Word) : Nat := ((List.range 64).find? fun i => mask.getLsbD i).getD 0

/-- No later than COMMIT − 10,000 tk (R324). -/
def State.inTime (s : State) (commit : Word) : Bool := decide (s.tick.toNat + 10000 ≤ commit.toNat)

/-- GANGSYNC_RESERVED (R324): the coordinator receives the message of a package; a RESERVED that comes after
COMMIT − 10,000 tk counts as a FAILED. -/
def execGangsyncReserved (q : Nat) (pkg : BitVec 6) (ok : Bool) (s : State) : Out :=
  enabled "GANGSYNC_RESERVED" <|
    match (s.queue q).head with
    | .gangsync mask commit tag p ch obj places got failed =>
      onlyIf (decide (q < 64) && coordinator mask == s.mgmt.pkg.toNat && mask.getLsbD pkg.toNat && !got.contains pkg &&
          (pkg != s.mgmt.pkg || places.isSome == ok))
        (s.updQueue q fun x =>
          let late := !s.inTime commit
          { x with head := .gangsync mask commit tag p ch obj places (if ok then got ++ [pkg] else got) (failed || !ok || late) })
    | _ => none

/-- RESERVED has come from every package of a mask (R324). -/
def allReserved (mask : Word) (got : List (BitVec 6)) : Bool :=
  (List.range 64).all fun i => !mask.getLsbD i || got.any fun x => x.toNat == i

/-- GANGSYNC_ABORT (R324): the reservation is released and STATUS 3 written. The coordinator aborts after a FAILED, or
when COMMIT − 10,000 tk has passed before every RESERVED had come. -/
def execGangsyncAbort (q : Nat) (s : State) : Out :=
  enabled "GANGSYNC_ABORT" <|
    match (s.queue q).head with
    | .gangsync mask commit _ p _ _ _ got failed =>
      onlyIf (decide (q < 64) && (coordinator mask != s.mgmt.pkg.toNat || failed || (!s.inTime commit && !allReserved mask got)))
        (s.launchError q p 0x12 3)
    | _ => none

/-! ### The host's writes of a queue's registers (R310, R317 to R320) -/

/-- MIRROR_WRITE (R311). While the queue is switched out the mirror stays frozen (R319). -/
def execMirrorWrite (q : Nat) (s : State) : Out :=
  enabled "MIRROR_WRITE" (onlyIf (decide (q < 64) && (s.queue q).mirDirty && !(s.queue q).swout) (s.writeMirror q))

/-- QTAIL_WRITE (R315, R319). -/
def State.writeTail (s : State) (q : Nat) (v : Word) : State :=
  s.updQueue q fun x => if x.swout then { x with shadowTail := v.setWidth 32 } else { x with tail := v.setWidth 32 }
def execQtailWrite (q : Nat) (v : Word) (s : State) : Out :=
  enabled "QTAIL_WRITE" (onlyIf (decide (q < 64)) (s.writeTail q v))

/-- QCTL_RESUME (R317): no effect while STOPPED = 0. -/
def State.resumeQueue (s : State) (q : Nat) : State := s.updQueue q fun x => { x with stopped := false }
def execQctlResume (q : Nat) (s : State) : Out := enabled "QCTL_RESUME" (onlyIf (decide (q < 64)) (s.resumeQueue q))

/-- QCTL_MREF (R311). -/
def State.requestMirror (s : State) (q : Nat) : State := s.updQueue q fun x => { x with mirDirty := x.liveMirEn }
def execQctlMref (q : Nat) (s : State) : Out := enabled "QCTL_MREF" (onlyIf (decide (q < 64)) (s.requestMirror q))

/-- A held KERNEL is refused with STATUS 1, and a held WAIT ends (R320). The refusal of a WSLOAD leaves WSSTATE IDLE, unless
gangs still stand on the die or another load of it is under way: then WSSTATE may not change (R305, R321). -/
def State.refuseHead (s : State) (q : Nat) : State :=
  match (s.queue q).head with
  | .kernel p .. | .gangsync _ _ _ p .. => s.refuse q p 1
  | .wsload d p .. => (if s.dieClear d then s.setWs d 0 else s).refuse q p 1
  | .wait .. => s.setHead q .none
  | _ => s

/-- QCTL_QRESET (R320). -/
def State.resetQueue (s : State) (q : Nat) : State :=
  ((s.refuseHead q).updQueue q fun x =>
    { x with prog := x.tail, stopped := false, errCode := 0, errSlot := 0, liveBase := x.base, liveLog := x.log,
             liveMirEn := x.mirEn, liveMirAddr := x.mirAddr }).writeMirror q
def execQctlQreset (q : Nat) (s : State) : Out := enabled "QCTL_QRESET" (onlyIf (decide (q < 64)) (s.resetQueue q))

/-- QCTL_SWOUT (R319). -/
def State.switchOut (s : State) (q : Nat) : State :=
  s.updQueue q fun x => if x.swout then x else { x with swout := true, shadowTail := x.tail, frozenProg := x.prog }
def execQctlSwout (q : Nat) (s : State) : Out := enabled "QCTL_SWOUT" (onlyIf (decide (q < 64)) (s.switchOut q))

/-- QCTL_SWIN (R319). -/
def State.switchIn (s : State) (q : Nat) : State :=
  s.updQueue q fun x => if x.swout then { x with swout := false, tail := x.shadowTail } else x
def execQctlSwin (q : Nat) (s : State) : Out := enabled "QCTL_SWIN" (onlyIf (decide (q < 64)) (s.switchIn q))

/-- QKILL_WRITE (R310, R119): the gang is killed when this queue launched it. -/
def State.killFrom (s : State) (q : Nat) (gang : BitVec 32) : State :=
  let s1 := s.updQueue q fun x => { x with qkill := gang }
  match s1.gangOf gang with
  | some g => if g.queue = q then s1.killGang gang 1 else s1
  | none => s1
def execQkillWrite (q : Nat) (gang : BitVec 32) (s : State) : Out :=
  enabled "QKILL_WRITE" (onlyIf (decide (q < 64)) (s.killFrom q gang))

/-- QERR as a word. -/
def Queue.errWord (x : Queue) : Word := BitVec.ofNat 64 (x.errCode.toNat + x.errSlot.toNat * 2 ^ 32)

/-- QERR_READ (R310): the read returns QERR and clears it. -/
def execQerrRead (q : Nat) (s : State) : Out :=
  enabled "QERR_READ" <|
    onlyIf (decide (q < 64)) { s.updQueue q fun x => { x with errCode := 0, errSlot := 0 } with hostRead := (s.queue q).errWord }

end Sys2Proof.Machine
end

