-- ==== Sys2Proof/Machine/Images.lean ====
section
/-! DEFINITION. Strand images: what pre-emption writes and what resumption restores (R114 to R118). -/

namespace Sys2Proof.Machine

/-! ### Every strand in turn -/

/-- The next strand takes the focus. -/
def State.rotate (s : State) : State :=
  match s.others with
  | [] => s
  | x :: t => { s with cur := x, others := t ++ [s.cur] }

/-- Do `f` with each of `n` strands in focus, those that satisfy `p`. With as many turns as strands the focus comes back. -/
def State.eachStrand (p : Strand → Bool) (f : State → State) : Nat → State → State
  | 0, s => s
  | n + 1, s => State.eachStrand p f n (if p s.cur then f s else s).rotate

/-- The same for every strand of the package. -/
def State.forStrands (s : State) (p : Strand → Bool) (f : State → State) : State :=
  State.eachStrand p f s.strands.length s

/-! ### Ripe tags (R57, R116) -/

/-- The tags of a part that the stretches of a list hold. -/
def tagsIn (l : List Stretch) (p : Part) : Nat :=
  l.foldl (fun acc x => if x.part == p then acc ||| (2 ^ x.len - 1) <<< x.lo else acc) 0

/-- The `n` ripe tags of a part: 1 where no entry of the window has still to write (R64). -/
def State.ripeTags (s : State) (p : Part) (n : Nat) : Nat :=
  2 ^ n - 1 - tagsIn (hazardsAfter s Hazard.clear s.cur.window).unripe p % 2 ^ n

/-- The ripe tags of a vector register, one bit per byte. -/
def vectorTags (s : State) (r : BitVec 5) : Nat := s.ripeTags (.v r) s.cur.grsz.toNat

/-- The ripe tags of a mask, one bit per bit. -/
def maskTags (s : State) (r : BitVec 3) : Nat := s.ripeTags (.m r) 32768

/-! ### Writing (R115, R117) -/

/-- The 32-byte record of a binding slot (R211). -/
def Slot.record (k : Slot) : Nat :=
  k.base.toNat + k.stride.toNat * 2 ^ 64 + k.format.toNat * 2 ^ 96 + k.mode.toNat * 2 ^ 104 + k.reg.toNat * 2 ^ 112 +
  k.status.toNat * 2 ^ 120 + k.scaleBase.toNat * 2 ^ 128 + k.length.toNat * 2 ^ 192 + k.progress.toNat * 2 ^ 224

/-- The 96-byte record of a copy position (R117). -/
def Strand.copyRecord (st : Strand) (i : Nat) : Nat :=
  let c := st.copyAt i
  c.ticket.toNat + (st.copyStatus i).toNat * 2 ^ 64 + c.p % 2 ^ 64 * 2 ^ 128 + c.faddr.toNat * 2 ^ 192 +
  c.dst.toNat * 2 ^ 256 + c.src.toNat * 2 ^ 320 + c.ctl.toNat * 2 ^ 384 + c.d.toNat * 2 ^ 448

/-- The size of the image. -/
def Strand.imageLen (st : Strand) : Nat := 0x29640 + 36 * st.grsz.toNat

/-- Fields of the image from 0x4840 on, of the strand in focus. -/
def imageFields (s : State) : List (Nat × Nat) :=
  let st := s.cur
  let g := st.grsz.toNat
  (st.k.toList.zipIdx.map fun p => (0x4840 + 32 * p.2, p.1.record)) ++
  (st.cb.toList.zipIdx.map fun p => (0x4940 + 32 * p.2, p.1.toNat)) ++
  (st.cx.toList.zipIdx.map fun p => (0x4A40 + 256 * p.2, (p.1.map BitVec.toNat).getD 0)) ++
  [(0x5240, st.slalom.toNat)] ++
  (st.m.toList.zipIdx.map fun p => (0x9240 + 4096 * p.2, p.1.toNat)) ++
  ((List.range 8).map fun i => (0x11240 + 4096 * i, maskTags s (BitVec.ofNat 3 i))) ++
  (st.t.toList.zipIdx.map fun p => (0x19240 + 16384 * p.2, if st.tilesOn then p.1.toNat else 0)) ++
  (st.v.toList.zipIdx.map fun p => (0x29240 + g * p.2, p.1.toNat % 2 ^ (8 * g))) ++
  ((List.range 32).map fun i => (0x29240 + 32 * g + g / 8 * i, vectorTags s (BitVec.ofNat 5 i))) ++
  ((List.range 8).map fun i => (0x29240 + 36 * g + 96 * i, st.copyRecord i)) ++
  [(0x29540 + 36 * g, st.copySeq.toNat)]

/-- The strand in focus writes its full image. The trap record of a handler, which the image overwrites, is set aside, and so
is what goes with the entries of the window (DESIGN CHOICE, log 37). -/
def State.writeImage (s : State) : State :=
  let record := s.physRead s.cur.twinAddr 0x4840
  (s.writeBlock s.cur.twinAddr s.cur.imageLen (recordFields s.cur true s.cur.pc ++ imageFields s)).upd fun st =>
    { st with kept := if st.sup then some record else none, away := st.window.map Entry.aside }

/-! ### Checking and restoring (R118, R290) -/

/-- A number of `n` bytes of an image. -/
def imgNum (s : State) (base off n : Nat) : Nat := s.physRead (base + off) n

/-- The image that a strand would take up is its own. -/
def imageOk (s : State) (st : Strand) : Bool :=
  let b := st.twinAddr
  s.blockOk b st.imageLen && imgNum s b 0 4 == 0x06405348 && imgNum s b 4 2 == 1 && imgNum s b 0x10 4 == st.grsz.toNat &&
  imgNum s b 0x30 4 == st.id.toNat && imgNum s b 0x34 4 == st.gang.toNat &&
  (List.range 8).all fun n => !(imgNum s b 0x1C 1).testBit n || (imageFault (imgNum s b (0x4A40 + 256 * n) 256)).isNone

/-- The slot records of an image. -/
def imageSlot (s : State) (base i : Nat) : Slot := slotOf (imgNum s base (0x4840 + 32 * i) 32)

/-- The copy position `i` of an image; the die stays that of the live record. -/
def imageCopy (s : State) (base i : Nat) (live : CopyPos) : CopyPos :=
  let at_ := fun off n => imgNum s base (0x29240 + 36 * imgNum s base 0x10 4 + 96 * i + off) n
  let x := at_ 8 8
  { ticket := BitVec.ofNat 64 (at_ 0 8), st := BitVec.ofNat 3 x, side := x.testBit 4, poison := x.testBit 5,
    cause := BitVec.ofNat 8 (x / 256), p := at_ 0x10 8, faddr := BitVec.ofNat 64 (at_ 0x18 8),
    dst := BitVec.ofNat 64 (at_ 0x20 8), src := BitVec.ofNat 64 (at_ 0x28 8), ctl := BitVec.ofNat 64 (at_ 0x30 8),
    d := BitVec.ofNat 256 (at_ 0x38 32), die := live.die }

/-- Positions whose copy was running when the image was written: they take the engine's live record (R117). -/
def imageRunning (s : State) (base i : Nat) : Bool := (imageCopy s base i CopyPos.none).st == 1#3

/-- A byte of pending bits: the live bit for running positions, the image's for the others. -/
def mergePend (s : State) (base : Nat) (live img : BitVec 8) : BitVec 8 :=
  BitVec.ofNat 8 (bitmap (fun i => if imageRunning s base i then live.getLsbD i else img.getLsbD i) 8)

/-- The registers of an image that a trap record does not hold. -/
def restoreRest (s : State) (base : Nat) (st : Strand) : Strand :=
  let g := st.grsz.toNat
  let w := fun i => imgWord s base (0x180 + 8 * i)
  { st with
    k := Vector.ofFn fun i => { imageSlot s base i.val with
      arrived := (st.slotAt i.val).arrived, endSent := (st.slotAt i.val).endSent },
    cb := Vector.ofFn fun i => BitVec.ofNat 256 (imgNum s base (0x4940 + 32 * i.val) 32),
    cx := Vector.ofFn fun i =>
      if (imgNum s base 0x1C 1).testBit i.val then some (BitVec.ofNat 2048 (imgNum s base (0x4A40 + 256 * i.val) 256))
      else none,
    slalom := BitVec.ofNat 131072 (imgNum s base 0x5240 16384),
    m := Vector.ofFn fun i => BitVec.ofNat 32768 (imgNum s base (0x9240 + 4096 * i.val) 4096),
    t := Vector.ofFn fun i =>
      if (imgNum s base 6 1).testBit 1 then BitVec.ofNat 131072 (imgNum s base (0x19240 + 16384 * i.val) 16384) else 0,
    v := Vector.ofFn fun i => BitVec.ofNat 262144 (imgNum s base (0x29240 + g * i.val) g),
    mvl := (w 6).setWidth 7, tetype := (w 6).extractLsb' 8 4, tilesOn := (w 7).getLsbD 0, tilesAllow := (w 7).getLsbD 1,
    copies := Vector.ofFn fun i =>
      if imageRunning s base i.val then st.copyAt i.val else imageCopy s base i.val (st.copyAt i.val),
    copySeq := BitVec.ofNat 32 (imgNum s base (0x29540 + 36 * g) 4),
    pDone := mergePend s base st.pDone (BitVec.ofNat 8 (imgNum s base 0x28 1)),
    pFault := mergePend s base st.pFault (BitVec.ofNat 8 (imgNum s base 0x29 1)) }

/-- The strand that an image restores, on a core and in a slot, under a grant (R33, R118). -/
def restoreImage (s : State) (st : Strand) (gvlen core slot : Nat) : Strand :=
  let base := st.twinAddr
  let st1 := restoreRest s base (restoreWords s base st)
  let g := imgNum s base 0x14 4
  let win := readEntries { s with cur := st1 } base st.away
  { st1 with
    phase := .resident, pc := imgWord s base 8, sup := (imgNum s base 6 1).testBit 2, gvlen := BitVec.ofNat 17 g,
    window := win, wcount := 0, linkGen := st.linkGen + 1, event := true, balance := 0, stalled := false,
    quiet := false, leaving := false, strip := st.stripAfter win, core := BitVec.ofNat 10 core, slot := slot,
    grantNext := if gvlen = g then st1.grantNext else BitVec.ofNat 17 gvlen, grantPend := gvlen != g }

/-- The trap record that was set aside for the strand in focus stands at TWIN again (DESIGN CHOICE, log 37). -/
def State.returnRecord (s : State) : State :=
  match s.cur.kept with
  | some x => (s.writeBlock s.cur.twinAddr 0x4840 [(0, x)]).upd fun st => { st with kept := none }
  | none => s

end Sys2Proof.Machine
end

