-- ==== Sys2Proof/Machine/GangEvents.lean ====
section
/-! DEFINITION. The package scheduler and the trust core: code objects, placement, pre-emption, resumption, kills and the
end of a gang (R27 to R33, R114 to R119, R141, R260, R305, R321, R324, R333, R334). -/

namespace Sys2Proof.Machine

/-! ### Code objects (R333, R334) -/

/-- The physical address of a byte of a code object, by the trust core's own translation. -/
def objectAddr (s : State) (p : Params) (off : Nat) : Option Nat :=
  let va := p.code + BitVec.ofNat 64 off
  if !canonical va then none
  else
    match walk s (p.ptroot.extractLsb' 12 34) va with
    | .leaf pte bits => some (leafAddr pte bits va)
    | _ => none

/-- `n` doublewords of a code object from an offset on, as a number: the trust core reads 8 bytes at a time, since host memory
carries no more (R309). -/
def objectWords (s : State) (p : Params) (off : Nat) : Nat → Option (State × Nat)
  | 0 => some (s, 0)
  | n + 1 =>
    match (objectAddr s p off).bind s.locate with
    | none => none
    | some l =>
      match s.readLoc l 8 with
      | .ok s1 x => (objectWords s1 p (off + 8) n).map fun y => (y.1, x + 2 ^ 64 * y.2)
      | _ => none

/-- The 64 bytes at an offset of a code object, as a number. -/
def objectLine (s : State) (p : Params) (off : Nat) : Option (State × Nat) := objectWords s p off 8

/-- The bytes of `n` lines of a code object from an offset on. -/
def objectBytes (s : State) (p : Params) (off : Nat) : Nat → Option (State × List Byte)
  | 0 => some (s, [])
  | n + 1 =>
    match objectLine s p off with
    | none => none
    | some (s1, x) =>
      (objectBytes s1 p (off + 64) n).map fun r => (r.1, ((List.range 64).map fun i => BitVec.ofNat 8 (x / 256 ^ i)) ++ r.2)

/-- The physical pages that hold `n` quarters of 16 KiB of a code object: the quarters of a page stand on the four dies where its
leaf has PKGIL set (R123). -/
def objectQuarters (s : State) (p : Params) : Nat → Option (List Nat)
  | 0 => some []
  | n + 1 =>
    match objectQuarters s p n, objectAddr s p (16384 * n) with
    | some l, some pa => some (l ++ [pa / 65536])
    | _, _ => none

/-- The physical pages of a code object of `n` pages. -/
def objectPages (s : State) (p : Params) (n : Nat) : Option (List Nat) := objectQuarters s p (4 * n)

/-- LENGTH of a header line. -/
def objectLength (x : Nat) : Nat := x / 2 ^ 64 % 2 ^ 64

/-- The header line is that of R333. -/
def objectHeaderOk (x : Nat) : Bool :=
  x % 2 ^ 32 == 0x0640434F && x / 2 ^ 32 % 2 ^ 16 == 1 && x / 2 ^ 48 % 2 ^ 16 == 0 && objectLength x % 64 == 0 &&
  decide (0x200 ≤ objectLength x) && decide (objectLength x ≤ 2 ^ 32) && x / 2 ^ 128 == 0

/-- Bytes of a list are zero from an index on, `n` of them. -/
def zeroBytes (l : List Byte) (i n : Nat) : Bool := ((l.drop i).take n).all (· == 0)

/-- The whole object satisfies R333, its key may be used, and its signature verifies. -/
def objectAccepted (keys : Vector KeySlot 8) (entry : Nat) (l : List Byte) : Bool :=
  let n := l.length
  let sig := l.drop (n - 0x60)
  zeroBytes l 0x10 240 && zeroBytes l (n - 0x7F) 31 && decide (0x100 ≤ entry) && decide (entry < n - 0x80) &&
  match keys.toList[(l.getD (n - 0x80) 0xFF).toNat]? with
  | some (.key x y) => verifies x y (sha384 (l.take (n - 0x60))) (beNat (sig.take 48)) (beNat (sig.drop 48))
  | _ => false

/-- The pages of an object that the trust core accepts. -/
def checkObject (s : State) (p : Params) : Option (State × List Nat) :=
  if p.code.toNat % 65536 ≠ 0 then none
  else
    match objectLine s p 0 with
    | none => none
    | some (s1, x) =>
      if !objectHeaderOk x then none
      else
        match objectBytes s1 p 0 (objectLength x / 64), objectPages s1 p ((objectLength x + 65535) / 65536) with
        | some (s2, l), some pages => if objectAccepted s.keys p.entry.toNat l then some (s2, pages) else none
        | _, _ => none

/-- Pages of an object join the execute-permit map. -/
def addPermits (l : List Permit) (object : Nat) (pages : List Nat) : List Permit :=
  pages.foldl (fun l x => if l.contains { page := x, object := object } then l else l ++ [{ page := x, object := object }]) l

/-- The KERNEL of a head that waits for the trust core: its die, its parameters, and the head with the object accepted. -/
def uncheckedKernel (h : Head) : Option (Option Nat × Params × (Nat → Head)) :=
  match h with
  | .kernel p false _ => some (none, p, fun o => .kernel p true o)
  | .wsload d p false _ => some (some d, p, fun o => .wsload d p true o)
  | .gangsync m c t p false _ pl got f => some (none, p, fun o => .gangsync m c t p true o pl got f)
  | _ => none

/-- CODE_OBJECT_CHECK (R334). -/
def execCodeObjectCheck (q : Nat) (s : State) : Out :=
  enabled "CODE_OBJECT_CHECK" <|
    match uncheckedKernel (s.queue q).head with
    | none => none
    | some (die, p, h) =>
      if 64 ≤ q ∨ !(die.map s.dieClear).getD true then none
      else
        match checkObject s p with
        | none => some ((s.refuseLoad die).launchError q p 0x13 4)
        | some (s1, pages) =>
          let o := pages.headD 0
          some ({ s1 with permits := addPermits s1.permits o pages }.updQueue q fun x => { x with head := h o })

/-! ### Candidates (R31) -/

/-- The KERNEL of a head that the trust core has accepted, with its die and object. -/
def readyKernel (h : Head) : Option (Option Nat × Params × Nat) :=
  match h with
  | .kernel p true o => some (none, p, o)
  | .wsload d p true o => some (some d, p, o)
  | _ => none

/-- The KERNEL of a head that waits for its places, with its die: one that the trust core has accepted, or one of a GANGSYNC
pair that has none reserved (R324). -/
def wantsPlace (h : Head) : Option (Option Nat × Params) :=
  match h with
  | .kernel p true _ => some (none, p)
  | .wsload d p true _ => some (some d, p)
  | .gangsync _ _ _ p _ _ none _ false => some (none, p)
  | _ => none

/-- The die and the parameters of a KERNEL that stands at a head without places, accepted or not. -/
def unplaced (h : Head) : Option (Option Nat) :=
  match h with
  | .kernel .. => some none
  | .wsload d .. => some (some d)
  | .gangsync _ _ _ _ _ _ none _ _ => some none
  | _ => none

/-- Priority of a queue. -/
def State.queuePrio (s : State) (q : Nat) : Nat := (s.queue q).prio.toNat

/-- A gang that is switched out and not killed, a candidate to resume. One that is held for the head of a queue is no candidate
until that head is placed: it does not age, pre-empt or share time meanwhile (DESIGN CHOICE, log 75). -/
def Gang.isOut (g : Gang) : Bool := !g.placed && g.killed.isNone && g.outFor.isNone

/-- A wait of 1,000,000 tk. -/
def State.longSince (s : State) (t : Word) : Bool := decide (1000000 ≤ (s.tick - t).toNat)

/-- The head of a queue has waited 1,000,000 tk for its places. -/
def State.longHead (s : State) (x : Queue) : Bool := (unplaced x.head).isSome && (x.aged || s.longSince x.headSince)

/-- Cores kept back from the head of queue `q` by a gang that has waited 1,000,000 tk and whose priority is no lower. Of two
such gangs of one priority neither keeps back the other. -/
def State.keptBack (s : State) (q core : Nat) : Bool :=
  let pr := s.queuePrio q
  let above := fun x => decide (pr < x) || (pr == x && !s.longHead (s.queue q))
  s.queues.any (fun x => x.1 != q && s.longHead x.2 && above x.2.prio.toNat &&
    ((unplaced x.2.head).map fun d => s.couldUse d (s.mgmt.phase == 2#3) core).getD false) ||
  s.gangs.any fun g => g.isOut && s.longSince g.outAt && above (s.queuePrio g.queue) && s.couldUse g.loading g.reduced core

/-- Where the head of queue `q` may be placed now. -/
def State.site (s : State) (q : Nat) (die : Option Nat) : Site :=
  { die := die, reduced := s.mgmt.phase == 2#3, avoid := s.keptBack q }

/-- The cores on which the KERNEL at the head of a queue can be placed now. -/
def State.headPlaces (s : State) (q : Nat) : Option (List Nat) :=
  match wantsPlace (s.queue q).head with
  | none => none
  | some (die, p) => if (die.map s.dieClear).getD true then s.placesFor (s.site q die) p else none

/-- The strands of a gang that are switched out. -/
def State.outStrands (s : State) (g : Gang) : List Strand :=
  s.strands.filter fun st => st.gang == g.id && st.phase == .switchedOut

/-- An image of the gang holds a relay-bound slot (R118). -/
def State.relayBound (s : State) (g : Gang) : Bool :=
  (s.outStrands g).any fun st => (List.range 8).any fun i =>
    let k := imageSlot s st.twinAddr i
    k.status.getLsbD 0 && k.mode.getLsbD 5

/-- The former core of each strand group. -/
def State.formerCores (s : State) (g : Gang) : List Nat :=
  (List.range g.params.groups).map fun i =>
    (((s.strands.find? fun st => st.gang == g.id && st.group == i).map fun st => st.core.toNat)).getD 0

/-- A cluster can take the groups that stood in cluster `c`, at their mesh positions. -/
def State.clusterFits (s : State) (w : Site) (p : Params) (cores : List Nat) (c new : Nat) : Bool :=
  (p.place != 1 || (List.range 20).all fun k => s.countOn (20 * new + k) == 0) &&
  cores.zipIdx.all fun x => clusterOf x.1 != c || s.canTake w p.grsz (p.groupSize x.2) (20 * new + x.1 % 20)

/-- New clusters for the former ones of a list, each another one. -/
def State.matchClusters (s : State) (w : Site) (p : Params) (cores : List Nat) (used : List Nat) :
    List Nat → Option (List (Nat × Nat))
  | [] => some []
  | c :: t =>
    (List.range 32).findSome? fun k =>
      if !used.contains k && s.clusterFits w p cores c k then
        (s.matchClusters w p cores (k :: used) t).map ((c, k) :: ·)
      else none

/-- The cores on which a switched-out gang can resume now (R29, R118). -/
def State.resumePlaces (s : State) (g : Gang) : Option (List Nat) :=
  let w : Site := { die := g.loading, reduced := g.reduced, avoid := fun _ => false }
  if s.relayBound g then
    let cores := s.formerCores g
    (s.matchClusters w g.params cores [] (cores.map clusterOf).eraseDups).map fun l =>
      cores.map fun c => 20 * (((l.find? fun x => x.1 == clusterOf c).map (·.2)).getD 0) + c % 20
  else s.placesFor w g.params

/-- Places passed in the round robin since the queue served last. -/
def State.turnOf (s : State) (q : Nat) : Nat := (q + 63 - s.served) % 64

/-- The head of queue `q` comes first among the candidates that can be placed. -/
def State.headFirst (s : State) (q : Nat) : Bool :=
  let pr := s.queuePrio q
  (s.queues.all fun x => x.1 == q || (s.headPlaces x.1).isNone || decide (x.2.prio.toNat < pr) ||
    (x.2.prio.toNat == pr && decide (s.turnOf q < s.turnOf x.1))) &&
  s.gangs.all fun g => !g.isOut || decide (s.queuePrio g.queue < pr) || (s.resumePlaces g).isNone

/-- A switched-out gang comes first among the candidates that can be placed. -/
def State.gangFirst (s : State) (g : Gang) : Bool :=
  let pr := s.queuePrio g.queue
  (s.queues.all fun x => decide (x.2.prio.toNat ≤ pr) || (s.headPlaces x.1).isNone) &&
  s.gangs.all fun h => !h.isOut || h.id == g.id || (s.resumePlaces h).isNone || decide (s.queuePrio h.queue < pr) ||
    (s.queuePrio h.queue == pr && decide (g.outOrder < h.outOrder))

/-! ### Placement -/

/-- The first identifier from `x` on, `n` tried, that no gang holds; 0 stands for no gang (R316). -/
def unusedFrom (s : State) (x : BitVec 32) : Nat → BitVec 32
  | 0 => x
  | n + 1 => if x != 0#32 && (s.gangOf x).isNone then x else unusedFrom s (x + 1) n

/-- Launch the KERNEL of the head of queue `q`, when its argument buffer can be read (R313, R317). -/
def State.launchHead (s : State) (q : Nat) (l : Launch) (p : Params) (cores : List Nat) : State :=
  match readArgs s p.argmask p.argbuf.toNat 0 32 with
  | (s1, none) => (s1.refuseLoad l.loading).launchError q p 0x14 5
  | (s1, some args) =>
    let s2 := { s1.leaveHead q with served := q }
    (match l.loading with
     | some d => s2.setWs d 1
     | none => s2).launch l p cores args

/-- The GANGSYNC pair at the head of queue `q` has its places, when it comes first among the candidates that can be placed
(R324). -/
def State.reserveHead (s : State) (q : Nat) : Option State :=
  match (s.queue q).head, s.headPlaces q with
  | .gangsync mask commit tag p ch obj none got false, some cores =>
    onlyIf (s.headFirst q)
      ({ s with served := q }.updQueue q fun x =>
        { x with head := .gangsync mask commit tag p ch obj (some cores) got false })
  | _, _ => none

/-- The KERNEL at the head of queue `q` is placed, when it comes first among the candidates that can be placed. -/
def State.placeHead (s : State) (q : Nat) (die : Option Nat) (p : Params) (obj : Nat) : Option State :=
  if !p.fieldsOk then some ((s.refuseLoad die).launchError q p 0x10 1)
  else if s.refuses die p then some ((s.refuseLoad die).launchError q p 0x11 1)
  else
    match s.headPlaces q with
    | none => none
    | some cores =>
      let id := unusedFrom s s.nextGang (s.gangs.length + 2)
      let l : Launch :=
        { id := id, queue := q, first := 0, size := p.nstrand, mask := 1#64 <<< s.mgmt.pkg.toNat, commit := none,
          loading := die, object := obj }
      onlyIf (s.headFirst q) ({ s with nextGang := id + 1 }.launchHead q l p cores)

/-- GANG_PLACE (R28 to R31, R321): a KERNEL is placed, or a GANGSYNC pair that has waited has its places (R324). -/
def execGangPlace (q : Nat) (s : State) : Out :=
  enabled "GANG_PLACE" <|
    if 64 ≤ q ∨ !s.serving then none
    else
      match readyKernel (s.queue q).head with
      | none => s.reserveHead q
      | some (die, p, obj) => if (die.map s.dieClear).getD true then s.placeHead q die p obj else none

/-- GANGSYNC_PACKET (R324, R332): before TSYNC, or when it comes late, the pair is aborted; otherwise it reserves its places,
or waits for them at the head. -/
def execGangsyncPacket (q : Nat) (s : State) : Out :=
  s.pairEvent "GANGSYNC_PACKET" 6 q fun s1 w p =>
    if !s1.mgmt.tsync then s1.launchError q p 0x12 3
    else if !p.fieldsOk then s1.launchError q p 0x10 1
    else if s1.refuses none p then s1.launchError q p 0x11 1
    else if !s1.inTime (w.getD 2 0) then s1.launchError q p 0x12 3
    else
      let s2 := s1.setHead q (.gangsync (w.getD 1 0) (w.getD 2 0) (w.getD 3 0) p false 0 none [] false)
      (s2.reserveHead q).getD s2

/-- GANGSYNC_COMMIT (R324): COMMIT arrives with the GANG identifier, the strands before this package's and their number over
every package, each of which has one at least. The coordinator, whose strands come first, sends it when it holds every RESERVED
in time. -/
def execGangsyncCommit (q : Nat) (gang : BitVec 32) (before total : Nat) (s : State) : Out :=
  enabled "GANGSYNC_COMMIT" <|
    match (s.queue q).head with
    | .gangsync mask commit _ p true obj (some cores) got failed =>
      let me := s.mgmt.pkg.toNat
      let below := ((List.range me).filter mask.getLsbD).length
      let above := ((List.range 64).filter fun i => decide (me < i) && mask.getLsbD i).length
      if 64 ≤ q ∨ gang = 0 ∨ (s.gangOf gang).isSome ∨ 163840 < total ∨
          before < below ∨ (below = 0 ∧ before ≠ 0) ∨
          total < before + p.nstrand + above ∨ (above = 0 ∧ total ≠ before + p.nstrand) ∨
          (below = 0 ∧ (failed || !allReserved mask got)) then none
      else
        let l : Launch :=
          { id := gang, queue := q, first := before, size := total, mask := mask, commit := some commit, loading := none,
            object := obj }
        some (s.launchHead q l p cores)
    | _ => none

/-- COMMIT_TICK (R324): the strands of a committed gang start. -/
def execCommitTick (gang : BitVec 32) (s : State) : Out :=
  enabled "COMMIT_TICK" <|
    match (s.gangOf gang).bind Gang.commit with
    | none => none
    | some c =>
      onlyIf (decide (c.toNat ≤ s.tick.toNat)) <|
        (s.updGang gang fun g => { g with commit := none }).mapStrands (fun st => st.gang == gang && st.phase == .held)
          fun st => { st with phase := .resident }

/-! ### Pre-emption (R31, R114, R115) -/

/-- The entry at position `k` takes what has arrived for it, admitted or not: the image holds it (R116, R217). -/
def landEntry (s : State) (k : Nat) : State :=
  match s.seats[k]? with
  | none => s
  | some x =>
    match x.en.ins with
    | .vld a _ _ =>
      if s.cur.relayBound false a then (x.units.left x.en).foldl (fun s u => (fireUnit k u s).getD s) s else s
    | _ => s

/-- What is under way to the receive slots of the strand in focus arrives, and its entries take it (R217). -/
def State.deliver (s : State) : State :=
  let s1 := (List.range 8).foldl (fun s i =>
    let s1 := if (s.cur.slotAt i).inflight.isEmpty then s else s.upd (Strand.relayArrive i)
    if (s1.cur.slotAt i).endSent then s1.upd (Strand.relayEnd i) else s1) s
  (List.range s1.cur.window.length).foldl landEntry s1

/-- A strand of a gang that stands on a core. -/
def standsIn (id : BitVec 32) (st : Strand) : Bool := st.gang == id && st.phase == .resident

/-- The stop sequence of every strand of a gang (R114): admitted slices complete, what is under way arrives, and the update
queues drain. -/
def State.stopGang (s : State) (id : BitVec 32) : State :=
  let s1 := s.forStrands (standsIn id) State.completeSlices
  (s1.forStrands (standsIn id) State.deliver).forStrands (standsIn id) State.drainQueue

/-- A strand as it leaves its core, its image written: a trap that was to be reported recurs (R105). -/
def Strand.leave (st : Strand) : Strand :=
  { st with phase := .switchedOut, window := [], stalled := false, quiet := false, stop := none, leaving := false }

/-- The gang is switched out, for the head of a queue or not: the stop sequence, then every image. An image that cannot be
written kills the gang (R112). -/
def State.preempt (s : State) (id : BitVec 32) (for_ : Option Nat) : State :=
  let s1 := s.stopGang id
  if s1.isKilled id then s1
  else if s1.strands.all fun st => !standsIn id st || s1.blockOk st.twinAddr st.imageLen then
    let s2 := s1.forStrands (standsIn id) State.writeImage
    let s3 := s2.mapStrands (standsIn id) Strand.leave
    { s3.updGang id fun g =>
        { g with placed := false, outAt := s.tick, outOrder := s.outCount, outFor := for_ } with outCount := s.outCount + 1 }
  else s1.killGang id 4

/-- A gang that stands on cores and can be pre-empted. -/
def State.isPlaced (s : State) (g : Gang) : Bool :=
  g.placed && g.killed.isNone && g.commit.isNone && s.strands.any (standsIn g.id)

/-- The head of a queue waits for a place (R31). -/
def State.headWaits (s : State) (q : Nat) : Bool :=
  match wantsPlace (s.queue q).head with
  | none => false
  | some (die, p) => (die.map s.dieClear).getD true && !s.refuses die p && (s.headPlaces q).isNone

/-- A switched-out gang waits for a place. -/
def State.gangWaits (s : State) (g : Gang) : Bool := g.isOut && (s.resumePlaces g).isNone

/-- Among the gangs of priority below `pr`, this one has been placed last. -/
def State.placedLast (s : State) (g : Gang) (pr : Nat) : Bool :=
  decide (s.queuePrio g.queue < pr) &&
  s.gangs.all fun h => !s.isPlaced h || decide (pr ≤ s.queuePrio h.queue) || decide (h.placedAt.toNat ≤ g.placedAt.toNat)

/-- A WSLOAD at the head of a queue clears a die on which the gang stands (R321). -/
def State.clearedFor (s : State) (g : Gang) : Bool :=
  s.queues.any fun q =>
    match q.2.head with
    | .wsload d .. => s.strands.any fun st => standsIn g.id st && coreDie st.core.toNat == d
    | _ => false

/-- Why a gang is pre-empted now: for the head of a queue, or for another reason; none when it is not. When several heads wait,
it is switched out for the first of them in queue order (DESIGN CHOICE, log 67). -/
def State.preemptFor (s : State) (g : Gang) : Option (Option Nat) :=
  match s.queues.find? fun q => s.headWaits q.1 && s.placedLast g q.2.prio.toNat with
  | some q => some (some q.1)
  | none =>
    if s.clearedFor g || s.gangs.any fun h => s.gangWaits h && s.placedLast g (s.queuePrio h.queue) then some none else none

/-- PREEMPTION (R31, R114). -/
def execPreemption (gang : BitVec 32) (s : State) : Out :=
  enabled "PREEMPTION" <|
    match s.gangOf gang with
    | none => none
    | some g => if s.isPlaced g then (s.preemptFor g).map (s.preempt gang) else none

/-- TIME_SHARE_EXPIRY (R31): the gang has run 10,000,000 tk, and a candidate of its own priority waits. When several heads
wait, it is switched out for the first of them in queue order (DESIGN CHOICE, log 67). -/
def execTimeShareExpiry (gang : BitVec 32) (s : State) : Out :=
  enabled "TIME_SHARE_EXPIRY" <|
    match s.gangOf gang with
    | none => none
    | some g =>
      if s.isPlaced g && decide (10000000 ≤ (s.tick - g.placedAt).toNat) then
        match s.queues.find? fun q => s.headWaits q.1 && q.2.prio.toNat == s.queuePrio g.queue with
        | some q => some (s.preempt gang (some q.1))
        | none =>
          onlyIf (s.gangs.any fun h => s.gangWaits h && s.queuePrio h.queue == s.queuePrio g.queue) (s.preempt gang none)
      else none

/-- AGEING_EXPIRY (R31). -/
def execAgeingExpiry (q : Nat) (s : State) : Out :=
  enabled "AGEING_EXPIRY" <|
    let x := s.queue q
    onlyIf (decide (q < 64) && (unplaced x.head).isSome && !x.aged && s.longSince x.headSince)
      (s.updQueue q fun x => { x with aged := true })

/-! ### Resumption (R32, R33, R118) -/

/-- The gang is placed again under a grant, with the trap records of its handlers back at TWIN. Its exited strands belong to the
new core of their group. -/
def State.resume (s : State) (g : Gang) (gvlen : Nat) (cores : List Nat) : State :=
  let s1 := s.mapStrands (fun st => st.gang == g.id && st.phase == .switchedOut) fun st =>
    let x := placeFor s g.perCore cores (st.id.toNat - g.first)
    restoreImage s st gvlen x.1 x.2
  let s2 := s1.mapStrands (fun st => st.gang == g.id && st.phase == .exited) fun st =>
    { st with core := BitVec.ofNat 10 (placeFor s g.perCore cores (st.id.toNat - g.first)).1 }
  (s2.forStrands (standsIn g.id) State.returnRecord).updGang g.id fun g => { g with placed := true, placedAt := s.tick }

/-- GANG_RESUME (R31, R118): an image that is not its strand's own kills the gang. -/
def execGangResume (gang : BitVec 32) (gvlen : Nat) (s : State) : Out :=
  enabled "GANG_RESUME" <|
    match s.gangOf gang with
    | none => none
    | some g =>
      if !g.isOut || !gvlenOk g.gvlen0 gvlen then none
      else
        match s.resumePlaces g with
        | none => none
        | some cores =>
          onlyIf (s.gangFirst g) <|
            if (s.outStrands g).all (imageOk s) then s.resume g gvlen cores else s.killGang gang 4

/-! ### Kills and the end of a gang -/

/-- KILL (R104, R119): for reasons 1 to 4. -/
def execKill (gang : BitVec 32) (reason : Word) (s : State) : Out :=
  enabled "KILL" (onlyIf (!s.isKilled gang && decide (1 ≤ reason.toNat) && decide (reason.toNat ≤ 4)) (s.killGang gang reason))

/-- A gang's strands have all ended, and so have their copies (R141). -/
def State.gangOver (s : State) (id : BitVec 32) : Bool :=
  s.strands.all fun st => st.gang != id || st.phase == .absent ||
    (st.phase == .exited && st.copies.toList.all fun c => c.st != 1#3)

/-- The strands of a gang are gone. -/
def State.dropStrands (s : State) (id : BitVec 32) : State :=
  let l := s.others.filter fun st => st.gang != id
  if s.cur.gang == id && s.cur.phase != .absent then
    match l with
    | [] => { s with cur := Strand.idle, others := [] }
    | x :: t => { s with cur := x, others := t }
  else { s with others := l }

/-- A copy into the weight store that a gang has ended with is faulted: neither completed nor cancelled (R303, R305). -/
def State.leftFaulted (s : State) (id : BitVec 32) : Bool :=
  s.strands.any fun st => st.gang == id && st.copies.toList.any fun c => ctlWs c.ctl && c.st == 3#3

/-- The gang ends: regions close, the completion record is written, a killed loading gang leaves WSSTATE IDLE, and a faulted
copy into the store keeps SERVING away (R260, R305, R316, R321). -/
def State.endGang (s : State) (g : Gang) : State :=
  let s1 := if g.killed.isNone then s.closeRegions g.id true else s
  let s2 := s1.record g.params g.id (if g.killed.isNone then 0 else 2) (g.killed.getD 0)
  let s3 := ({ s2 with gangs := s2.gangs.filter fun h => h.id != g.id }.dropStrands g.id).releaseObject g.object
  match g.loading with
  | none => s3
  | some d => if g.killed.isSome then s3.setWs d 0 else s3.updDie d fun x => { x with wsFault := s.leftFaulted g.id }

/-- GANG_COMPLETION (R141, R260, R316). -/
def execGangCompletion (gang : BitVec 32) (s : State) : Out :=
  enabled "GANG_COMPLETION" <|
    match s.gangOf gang with
    | none => none
    | some g => onlyIf (s.gangOver gang) (s.endGang g)

/-- WS_SERVING_ENTRY (R305, R321): the loading gang has completed, and so has every copy into the store. -/
def execWsServingEntry (die : Nat) (s : State) : Out :=
  enabled "WS_SERVING_ENTRY" <|
    match s.dies.toList[die]? with
    | none => none
    | some d =>
      onlyIf (d.wsState == 1#2 && !d.wsFault && !s.gangs.any fun g => g.loading == some die)
        (s.updDie die fun y => { y with wsState := 2, wsGen := y.wsGen + 1 })

end Sys2Proof.Machine
end

