-- ==== Sys2Proof/Machine/PowerEvents.lean ====
section
/-! DEFINITION. Errors, links, fences, islands, calibration and starts (R10, R19 to R22, R322, R323, R325 to R332). -/

namespace Sys2Proof.Machine

/-! ### Errors (R19, R325) -/

/-- One more, saturating. -/
def satInc (x : BitVec 16) : BitVec 16 := if x == 0xFFFF#16 then x else x + 1

/-- An error is counted. -/
def State.countError (s : State) (uncorr : Bool) : State :=
  { s with mgmt := { s.mgmt with ce := if uncorr then s.mgmt.ce else satInc s.mgmt.ce,
                                 ue := if uncorr then satInc s.mgmt.ue else s.mgmt.ue } }

/-- An error is counted and recorded. -/
def State.logError (s : State) (r : ErrRec) : State :=
  let s1 := s.countError r.uncorr
  { s1 with mgmt := { s1.mgmt with errs := s1.mgmt.errs ++ [r] } }

/-- Every gang with a strand on a core that satisfies `p` is killed. -/
def State.killOn (s : State) (p : Strand → Bool) (reason : Word) : State :=
  ((s.strands.filter fun st => p st && st.placedOn).map Strand.gang).foldl (fun s g => s.killGang g reason) s

/-- Places that a GANGSYNC pair holds on a core are lost, and with them the pair (DESIGN CHOICE, log 66). -/
def Head.without (h : Head) (core : Nat) : Head :=
  match h with
  | .gangsync mask commit tag p ch obj (some l) got failed =>
    if l.contains core then .gangsync mask commit tag p ch obj Option.none got true
    else .gangsync mask commit tag p ch obj (some l) got failed
  | h => h

/-- Fence a core: the gangs that stand on it are killed with reason 3, and nothing is placed there again (R22). -/
def State.fenceCore (s : State) (core : Nat) : State :=
  let s1 := s.killOn (fun st => st.core.toNat == core) 3
  { s1 with
    queues := s1.queues.map fun q => (q.1, { q.2 with head := q.2.head.without core }),
    mgmt := { s1.mgmt with fence := s1.mgmt.fence ||| (1#640 <<< core) } }

/-- A sector of device memory of this package. -/
def State.ownSector (s : State) (sector : Nat) : Bool := populated (64 * sector) && paPkg (64 * sector) == s.mgmt.pkg.toNat

/-- Sectors of the four weight stores: die × 2^24 + offset / 64. -/
def wsSector (sector : Nat) : Bool := decide (sector < 4 * 2 ^ 24)

/-- A record of an uncore structure. -/
def uncoreRec (struct : Nat) (die : Nat) (uncorr : Bool) (line : Nat) : ErrRec :=
  { struct := BitVec.ofNat 8 struct, die := BitVec.ofNat 2 die, core := 0xFF, uncorr := uncorr, line := BitVec.ofNat 40 line }

/-- SCRUB (R19, R21): a DRAM sector, or, from 2^40 on, a sector of a weight store; a correction is counted. Contents, link
owner tags and the press are left alone. -/
def execScrub (sector : Nat) (corrected : Bool) (s : State) : Out :=
  enabled "SCRUB" <|
    if sector < 2 ^ 40 then
      onlyIf (s.ownSector sector) (if corrected then s.logError (uncoreRec 7 (paDie (64 * sector)) false sector) else s)
    else
      let w := sector - 2 ^ 40
      onlyIf (wsSector w) (if corrected then s.logError (uncoreRec 8 (w / 2 ^ 24) false w) else s)

/-- An uncorrectable error in a core's storage: the gang of the strand in slot `slot` is killed with reason 2, then the core
is fenced (R19). -/
def State.coreError (s : State) (core slot : Nat) : State :=
  (s.killOn (fun st => st.core.toNat == core && st.slot == slot) 2).fenceCore core

/-- ECC_ERROR (R19, R20): STRUCT as in ERRREC, 0 standing for the instruction cache, whose errors are counted only. For a
core's structures `line` is the strand slot that owns the word; for memory it is the sector. -/
def execEccError (struct : BitVec 8) (die core : Nat) (uncorr : Bool) (line : Nat) (s : State) : Out :=
  enabled "ECC_ERROR" <|
    let k := struct.toNat
    if k = 0 then onlyIf (decide (die < 4) && decide (core < 160) && !uncorr) (s.countError false)
    else if k ≤ 6 then
      let s1 := s.logError { struct := struct, die := BitVec.ofNat 2 die, core := BitVec.ofNat 8 core, uncorr := uncorr, line := 0 }
      onlyIf (decide (die < 4) && decide (core < 160) && decide (line < 4))
        (if uncorr then s1.coreError (160 * die + core) line else s1)
    else if k = 7 then
      let s1 := s.logError (uncoreRec 7 die uncorr line)
      onlyIf (s.ownSector line && paDie (64 * line) == die)
        (if uncorr then { s1 with poison := Sparse.put false s1.poison line true } else s1)
    else if k = 8 then
      let s1 := s.logError (uncoreRec 8 die uncorr line)
      onlyIf (wsSector line && line / 2 ^ 24 == die)
        (if uncorr then { s1 with wsPoison := Sparse.put false s1.wsPoison line true } else s1)
    else none

/-! ### Links (R19, R322, R323) -/

/-- A link comes up or goes down. -/
def State.setLink (s : State) (link : Nat) (up : Bool) : State :=
  { s with linksUp := if up then s.linksUp ||| (1#23 <<< link) else s.linksUp &&& ~~~(1#23 <<< link) }

/-- The die of a link: four Flaral links a die, a die bridge at its lower die, the CXL port on die 0 (DESIGN CHOICE, log 35). -/
def linkDie (link : Nat) : Nat :=
  if link < 16 then link / 4 else if link < 19 then 0 else if link < 21 then 1 else if link = 21 then 2 else 0

/-- LINK_CRC_ERROR (R19): a flit is replayed and the link goes on, or retraining fails and the link is down. -/
def execLinkCrcError (link : Nat) (retrainOk : Bool) (s : State) : Out :=
  enabled "LINK_CRC_ERROR" <|
    let s1 := s.logError (uncoreRec 9 (linkDie link) (!retrainOk) 0)
    onlyIf (decide (link < 23) && s.linksUp.getLsbD link) (if retrainOk then s1 else s1.setLink link false)

/-- FLARAL_LINK_UP (R322): an enabled link comes up to package `pkg`; one whose ends hold the same PKG stays down. -/
def execFlaralLinkUp (link : Nat) (pkg : BitVec 6) (s : State) : Out :=
  enabled "FLARAL_LINK_UP" <|
    onlyIf (decide (link < 16) && s.mgmt.linken.getLsbD link && !s.linksUp.getLsbD link && pkg != s.mgmt.pkg &&
        pkg.setWidth 8 != s.mgmt.hostpkg)
      { s.setLink link true with routes := if s.routes.contains pkg then s.routes else s.routes ++ [pkg] }

/-- PACKAGE_UNREACHABLE (R322): no route leads to the package, and the gangs with strands on it are killed. -/
def execPackageUnreachable (pkg : BitVec 6) (s : State) : Out :=
  enabled "PACKAGE_UNREACHABLE" <|
    onlyIf (s.routes.contains pkg) <|
      ((s.gangs.filter fun g => g.pkgMask.getLsbD pkg.toNat).map Gang.id).foldl (fun s g => s.killGang g 2)
        { s with routes := s.routes.filter fun p => p != pkg }

/-- Every tick that the package keeps, moved by `d`: the waits that they stand for stay as long as they were. -/
def State.shiftTicks (s : State) (d : Word) : State :=
  { s with
    tick := s.tick + d,
    gangs := s.gangs.map fun g => { g with placedAt := g.placedAt + d, outAt := g.outAt + d },
    queues := (s.queues.map fun q => (q.1, { q.2 with headSince := q.2.headSince + d })).filter (·.2 != Queue.reset),
    islands := (s.islands.map fun x => (x.1, { x.2 with calmSince := x.2.calmSince + d })).filter (·.2 != Island.reset),
    lastBusy := s.lastBusy.map fun x => (x.1, x.2.map (· + d)) }

/-- TICK_SYNC (R323): TICK agrees from now on. The first synchronisation after a cold start sets its origin; later ones neither
step it nor put it back. -/
def execTickSync (s : State) : Out :=
  enabled "TICK_SYNC" <|
    onlyIf (!s.mgmt.tsync) <|
      let s1 := { s with mgmt := { s.mgmt with tsync := true, origin := true } }
      if s.mgmt.origin then s1
      else { s1.shiftTicks (Config.origin s.fresh - s.tick) with fresh := s.fresh + 1 }

/-! ### Islands (R10, R326 to R328, R332) -/

/-- Change an island. -/
def State.updIsland (s : State) (i : Nat) (f : Island → Island) : State :=
  { s with islands := Sparse.put Island.reset s.islands i (f (s.island i)) }

/-- An island that has power: the CXL port's exists on die 0 only (R326). -/
def islandPowered (i : Nat) : Bool := decide (i < 2048) && !(decide (1952 ≤ i) && i % 32 == 31)

/-- DROOP_EVENT (R325, R327). -/
def execDroopEvent (i : Nat) (s : State) : Out :=
  enabled "DROOP_EVENT" <|
    onlyIf (islandPowered i) (s.updIsland i fun x => { x with droop := x.droop + 1, fresh := true })

/-- The highest clock of a core, in eighths of nominal: half in reduced service, for as long as a gang placed there stands
on the core (R332). -/
def State.clockCap (s : State) (core : Nat) : Nat :=
  if s.mgmt.phase == 2#3 || s.strands.any fun st => st.placedOn && st.core.toNat == core &&
      ((s.gangOf st.gang).map Gang.reduced).getD false then 4 else 8

/-- The clock of an island of a core in eighths, under the cap of the core. -/
def State.coreStep (s : State) (core k : Nat) : Nat := Nat.min (s.island (3 * core + k)).fstep (s.clockCap core)

/-- FSTEP as ISLAND reads it. -/
def State.fstepOf (s : State) (i : Nat) : Nat :=
  if i < 1920 then s.coreStep (i / 3) (if i % 3 = 2 then 1 else i % 3) else (s.island i).fstep

/-- Temperature of a cluster in eighths of a degree. -/
def State.tempOf (s : State) (cluster : Nat) : Int := ((s.mgmt.ctemp.toList[cluster]?).map fun c => c.t.toInt).getD 0

/-- At or above TLIM. -/
def State.hot (s : State) (cluster : Nat) : Bool := decide (8 * (s.mgmt.tlim.toNat : Int) ≤ s.tempOf cluster)
/-- At or below TLIM − 5 °C. -/
def State.cool (s : State) (cluster : Nat) : Bool := decide (s.tempOf cluster ≤ 8 * ((s.mgmt.tlim.toNat : Int) - 5))
/-- The package's power is above PLIM. -/
def State.overPower (s : State) : Bool := decide (s.mgmt.plim.toNat < s.mgmt.power)

/-- The lane island of a core is at ALC 4 and its lowest clock. -/
def State.laneFloor (s : State) (core : Nat) : Bool := (s.island (3 * core + 1)).alc ≤ 4 && s.coreStep core 1 ≤ 1

/-- What an evaluation does with an island. -/
inductive Turnout where
  | down | up | stay
  deriving DecidableEq, Repr

/-- Down under pressure; up when the island has been calm for 10,000 tk (R327). The count may begin after `tick`. -/
def turnout (tick : Word) (x : Island) (pressure cool : Bool) : Turnout :=
  if pressure then .down else if cool && decide (10000 ≤ (tick - x.calmSince).toInt) then .up else .stay

/-- The count of calm after an evaluation: it starts at a step, and, while the temperature is above TLIM − 5 °C, at the next
evaluation at the earliest. -/
def calmAfter (tick : Word) (x : Island) (t : Turnout) (cool : Bool) : Word :=
  if !cool then tick + 1000
  else
    match t with
    | .stay => x.calmSince
    | _ => tick

/-- The island after an evaluation, stepped by `down` or `up`; one that has nothing to recover keeps no count. -/
def evaluated (tick : Word) (x : Island) (pressure cool full : Bool) (down up : Island → Island) : Island :=
  let t := turnout tick x pressure cool
  let y := { x with fresh := false }
  match t with
  | .down => { down y with calmSince := calmAfter tick x t cool }
  | .up => if full then y else { up y with calmSince := calmAfter tick x t cool }
  | .stay => if full then y else { y with calmSince := calmAfter tick x t cool }

/-- A step down of a lane island: ALC halves down to 4, then the clock falls; `f` is the clock in effect. -/
def laneDown (f : Nat) (x : Island) : Island :=
  if 4 < x.alc then { x with alc := x.alc / 2 } else if 1 < f then { x with fstep := f - 1 } else x

/-- A step up of a lane island: the clock first, up to `cap`, then ALC. -/
def laneUp (f cap : Nat) (x : Island) : Island :=
  if f < cap then { x with fstep := f + 1 } else if x.alc < 32 then { x with alc := x.alc * 2 } else x

/-- The islands of a core at an evaluation (R327, R328). -/
def State.evalCore (s : State) (core : Nat) : State :=
  let cl := clusterOf core
  let sc := s.island (3 * core)
  let ln := s.island (3 * core + 1)
  let vm := s.island (3 * core + 2)
  let scStep := s.coreStep core 0
  let lnStep := s.coreStep core 1
  let cap := Nat.min (s.clockCap core) scStep
  let sc1 := evaluated s.tick sc (sc.fresh || s.hot cl || (s.overPower && s.laneFloor core)) (s.cool cl)
    (scStep == s.clockCap core) (fun x => if 1 < scStep then { x with fstep := scStep - 1 } else x)
    (fun x => { x with fstep := scStep + 1 })
  let ln1 := evaluated s.tick ln (ln.fresh || vm.fresh || s.hot cl || s.overPower) (s.cool cl)
    (lnStep == cap && ln.alc == 32) (laneDown lnStep) (laneUp lnStep cap)
  let ln2 := if sc1.fstep < ln1.fstep then { ln1 with fstep := sc1.fstep } else ln1
  ((s.updIsland (3 * core) fun _ => sc1).updIsland (3 * core + 1) fun _ => ln2).updIsland (3 * core + 2) fun _ =>
    { vm with fresh := false }

/-- The clusters of a die, or the one cluster that an uncore island belongs to. -/
def uncoreClusters (die u : Nat) : List Nat := if u < 8 then [8 * die + u] else (List.range 8).map (8 * die + ·)

/-- Uncore islands that step. -/
def uncoreSteps (u : Nat) : Bool := decide (u < 24) || u == 28 || u == 29

/-- An uncore island at an evaluation (R328); `floor` says that every lane island of the die is at its floor. -/
def State.evalUncore (s : State) (floor : Bool) (die u : Nat) : State :=
  let i := 1920 + 32 * die + u
  let x := s.island i
  if uncoreSteps u then
    let l := uncoreClusters die u
    let y := evaluated s.tick x (x.fresh || l.any s.hot || (s.overPower && floor)) (l.all s.cool) (x.fstep == 8)
      (fun x => if 4 < x.fstep then { x with fstep := x.fstep - 1 } else x) (fun x => { x with fstep := x.fstep + 1 })
    s.updIsland i fun _ => y
  else s.updIsland i fun x => { x with fresh := false }

/-- Every lane island of a die is at its floor. -/
def State.dieFloor (s : State) (die : Nat) : Bool := (List.range 160).all fun k => s.laneFloor (160 * die + k)

/-- Every island evaluates its pressure. -/
def State.evaluate (s : State) : State :=
  let floors := (List.range 4).map s.dieFloor
  let s1 := (List.range 640).foldl State.evalCore s
  (List.range 128).foldl (fun s k => s.evalUncore (floors.getD (k / 32) false) (k / 32) (k % 32)) s1

/-- ISLAND_EVALUATE (R327, R328), at the multiples of 1,000 tk. -/
def execIslandEvaluate (s : State) : Out :=
  enabled "ISLAND_EVALUATE" (onlyIf (s.tick.toNat % 1000 == 0) s.evaluate)

/-! ### Calibration and starts (R329 to R332) -/

/-- The islands of a cluster: those of its cores, and its mesh. -/
def clusterIslands (cl : Nat) : List Nat :=
  ((List.range 60).map (60 * cl + ·)) ++ [1920 + 32 * (cl / 8) + cl % 8]

/-- The islands of a die that belong to no cluster and have power (R326). -/
def dieIslands (die : Nat) : List Nat := ((List.range 24).map (1928 + 32 * die + ·)).filter islandPowered

/-- Every cluster of the die of `cl` is calibrated. -/
def dieCalibrated (map : BitVec 32) (cl : Nat) : Bool := (List.range 8).all fun k => map.getLsbD (8 * (cl / 8) + k)

/-- The islands that the calibration of a cluster measures: its own, and with the last cluster of a die those of the die that
belong to no cluster (DESIGN CHOICE, log 76). -/
def measuredIslands (before after : BitVec 32) (cl : Nat) : List Nat :=
  clusterIslands cl ++ if dieCalibrated after cl && !dieCalibrated before cl then dieIslands (cl / 8) else []

/-- A core of a calibrating cluster fails: it is fenced, and an error record says so. -/
def State.calibrationFailed (s : State) (core : Nat) : State :=
  (s.fenceCore core).logError
    { struct := 1, die := BitVec.ofNat 2 (coreDie core), core := BitVec.ofNat 8 (core % 160), uncorr := true, line := 0 }

/-- The cluster has had no strand for 100,000 tk (R329). -/
def State.clusterIdle (s : State) (cl : Nat) : Bool :=
  (s.strands.all fun st => !st.placedOn || clusterOf st.core.toNat != cl) &&
  match Sparse.get none s.lastBusy cl with
  | none => true
  | some t => decide (100000 ≤ (s.tick - t).toNat)

/-- CALIBRATION of an idle cluster (R329); when every cluster is calibrated, PHASE 2 gives way to
PHASE 3 (R331). -/
def execCalibration (cl : Nat) (failed : Option Nat) (s : State) : Out :=
  enabled "CALIBRATION" <|
    if 32 ≤ cl ∨ !s.serving ∨ !s.clusterIdle cl ∨
        !(failed.map fun c => clusterOf c == cl).getD true then none
    else
      let map := s.mgmt.calmap ||| (1#32 <<< cl)
      let s1 := (measuredIslands s.mgmt.calmap map cl).foldl (fun s i => s.updIsland i fun x => { x with margin := Config.margin i s.fresh })
        { s with fresh := s.fresh + 1 }
      let s2 := match failed with
        | some c => s1.calibrationFailed c
        | none => s1
      some { s2 with mgmt := { s2.mgmt with calmap := map, phase := if map == BitVec.allOnes 32 then 3 else s2.mgmt.phase } }

/-- What no start touches: host memory with its map, the trust core's keys, and the model's inputs. -/
def State.restart (s : State) : State :=
  { State.reset with hostMem := s.hostMem, keys := s.keys, agenda := s.agenda, fresh := s.fresh,
                     mgmt := { Mgmt.reset with hdm := s.mgmt.hdm } }

/-- BOOTSTAT.PHASE is set. -/
def State.setPhase (s : State) (x : BitVec 3) : State := { s with mgmt := { s.mgmt with phase := x } }

/-- A cold start begins: the channels train (R331). -/
def State.cold (s : State) : State := s.restart.setPhase 1

/-- COLD_START (R331) begins a start, whose training the next one ends: in reduced service, until every cluster is calibrated,
or in PHASE 4 when a die's channels do not train. -/
def execColdStart (trained : Bool) (s : State) : Out :=
  .next (if s.mgmt.phase == 1#3 then s.setPhase (if trained then 2 else 4) else s.cold)

/-- WARM_START (R331): with the right fingerprint training and calibration are skipped; memory, the fence map (R22) and the
margins stay, and TICK goes on (R323). Otherwise a cold start begins, and how its training ends is for the COLD_START that
ends it to say: the second operand says nothing here. -/
def execWarmStart (fingerprintOk _trained : Bool) (s : State) : Out :=
  if fingerprintOk then
    let s1 := s.restart
    let keep := s.islands.filterMap fun x =>
      if x.2.margin == 0#8 then none else some (x.1, { Island.reset with margin := x.2.margin })
    .next { s1 with
      tick := s.tick, mem := s.mem, ws := s.ws, poison := s.poison, wsPoison := s.wsPoison, islands := keep,
      mgmt := { s1.mgmt with phase := 3, warm := true, calmap := BitVec.allOnes 32, fence := s.mgmt.fence,
                             origin := s.mgmt.origin } }
  else .next s.cold

end Sys2Proof.Machine
end

