-- ==== Sys2Proof/Machine/HostEvents.lean ====
section
/-! DEFINITION. The host's accesses: device memory, the queue blocks and the management block (R307 to R311, R319, R325). -/

namespace Sys2Proof.Machine

/-! ### Device memory (R307, R308) -/

/-- HOST_ACCESS (R308): an aligned access of 1, 2, 4 or 8 bytes at an offset of the device memory range. What a read returns
stands in `hostRead`. -/
def execHostAccess (offset size : Nat) (isWrite : Bool) (data : Word) (s : State) : Out :=
  enabled "HOST_ACCESS" <|
    if !([1, 2, 4, 8].contains size) ∨ offset % size ≠ 0 ∨ 192 * 2 ^ 30 < offset + size then none
    else
      let l : Loc := .dev (rangeAddr s.mgmt.pkg offset)
      if isWrite then some (s.hstWrite l size data.toNat)
      else
        match s.readLoc l size with
        | .ok s1 x => some { s1 with hostRead := BitVec.ofNat 64 x }
        | .kill s1 _ => some s1
        | .trap _ _ => some s

/-! ### What a register reads as -/

/-- A register of queue `q` at an offset of its block (R310, R319). -/
def State.readQueueReg (s : State) (q off : Nat) : Word :=
  let x := s.queue q
  let bit := fun (b : Bool) n => if b then 2 ^ n else 0
  match off with
  | 0x00 => x.base.setWidth 64 <<< 12
  | 0x08 => BitVec.ofNat 64 x.log
  | 0x10 => (if x.swout then x.shadowTail else x.tail).setWidth 64
  | 0x18 => (if x.swout then x.frozenProg else x.prog).setWidth 64
  | 0x20 => (x.mirAddr.setWidth 64 <<< 3) ||| BitVec.ofNat 64 (bit x.mirEn 0)
  | 0x28 => BitVec.ofNat 64 (bit x.en 0 + x.prio.toNat * 2 + bit x.stopped 6 + bit x.swout 7)
  | 0x30 => x.errWord
  | 0x38 => x.qkill.setWidth 64
  | _ => 0

/-- ISLAND as a word (R325). -/
def State.islandWord (s : State) (i : Nat) : Word :=
  let x := s.island i
  BitVec.ofNat 64 (x.droop.toNat + s.fstepOf i * 2 ^ 32 + (if i < 1920 ∧ i % 3 = 1 then x.alc * 2 ^ 36 else 0) +
    x.margin.toNat * 2 ^ 48)

/-- An error record as ERRREC reads it. -/
def ErrRec.word (r : ErrRec) : Word :=
  BitVec.ofNat 64 (r.struct.toNat + r.die.toNat * 2 ^ 8 + r.core.toNat * 2 ^ 10 + (if r.uncorr then 2 ^ 18 else 0) +
    r.line.toNat * 2 ^ 19)

/-- The register at a word index of a list of 64-bit pieces of the fence map. -/
def fenceWord (m : Mgmt) (k : Nat) : Word := m.fence.extractLsb' (64 * k) 64

/-- A register of the management block (R325). -/
def State.readMgmtReg (s : State) (off : Nat) : Word :=
  let m := s.mgmt
  if off = 0x1000 then
    BitVec.ofNat 64 (m.pkg.toNat + m.hostpkg.toNat * 2 ^ 8 + m.linken.toNat * 2 ^ 16 + if m.tsync then 2 ^ 32 else 0)
  else if off = 0x1008 then
    BitVec.ofNat 64 (m.phase.toNat + (if m.warm then 8 else 0) + m.calmap.toNat * 2 ^ 32)
  else if off = 0x1010 then BitVec.ofNat 64 (m.tlim.toNat + m.plim.toNat * 2 ^ 8)
  else if off = 0x1018 then BitVec.ofNat 64 (m.ce.toNat + m.ue.toNat * 2 ^ 16 + if m.errs.isEmpty then 0 else 2 ^ 32)
  else if off = 0x1020 then (m.errs.head?.map ErrRec.word).getD 0
  else if 0x1100 ≤ off ∧ off < 0x1200 then
    ((m.ctemp.toList[(off - 0x1100) / 8]?).map fun c => BitVec.ofNat 64 (c.t.toNat + c.tmax.toNat * 2 ^ 16)).getD 0
  else if 0x1200 ≤ off ∧ off < 0x1220 then ((m.pring.toList[(off - 0x1200) / 8]?).map fun x => x.setWidth 64).getD 0
  else if 0x1300 ≤ off ∧ off < 0x1350 then fenceWord m ((off - 0x1300) / 8)
  else if 0x1380 ≤ off ∧ off < 0x13D0 then fenceWord m ((off - 0x1380) / 8)
  else if 0x2000 ≤ off ∧ off < 0x6000 then s.islandWord ((off - 0x2000) / 8)
  else 0

/-- What an 8-byte read at an offset of BAR0 returns. -/
def State.hostReg (s : State) (off : Nat) : Word :=
  if off < 0x1000 then s.readQueueReg (off / 64) (off % 64) else s.readMgmtReg off

/-- The host reads a register. -/
def State.readBy (s : State) (off : Nat) : State := { s with hostRead := s.hostReg off }

/-! ### Reads that clear (R4, R325) -/

/-- ERRSTAT_READ. -/
def execErrstatRead (s : State) : Out :=
  let s1 := s.readBy 0x1018
  .next { s1 with mgmt := { s1.mgmt with ce := 0, ue := 0 } }

/-- ERRREC_READ: the oldest record, and the next one is loaded. -/
def execErrrecRead (s : State) : Out :=
  let s1 := s.readBy 0x1020
  .next { s1 with mgmt := { s1.mgmt with errs := s1.mgmt.errs.drop 1 } }

/-- CTEMP_TMAX_READ. -/
def execCtempTmaxRead (cl : Nat) (s : State) : Out :=
  enabled "CTEMP_TMAX_READ" <|
    let s1 := s.readBy (0x1100 + 8 * cl)
    onlyIf (decide (cl < 32))
      { s1 with mgmt := { s1.mgmt with ctemp := Vector.ofFn fun i =>
          let c := s1.mgmt.ctemp[i.val]'i.isLt
          if i.val = cl then { c with tmax := 0, seen := false } else c } }

/-- ISLAND_DROOP_READ. -/
def execIslandDroopRead (i : Nat) (s : State) : Out :=
  enabled "ISLAND_DROOP_READ" <|
    onlyIf (decide (i < 2048)) ((s.readBy (0x2000 + 8 * i)).updIsland i fun x => { x with droop := 0 })

/-! ### Fences (R22, R325, R330) -/

/-- The cores that a word of the fence map selects. -/
def fenceCores (k : Nat) (v : Word) : List Nat := ((List.range 64).filter fun i => v.getLsbD i).map (64 * k + ·)

/-- A write of FENCESET. -/
def State.fenceSet (s : State) (k : Nat) (v : Word) : State := (fenceCores k v).foldl State.fenceCore s
def execFencesetWrite (k : Nat) (v : Word) (s : State) : Out := enabled "FENCESET_WRITE" (onlyIf (decide (k < 10)) (s.fenceSet k v))

/-- A write of FENCECLR. -/
def State.fenceClear (s : State) (k : Nat) (v : Word) : State :=
  { s with mgmt := { s.mgmt with fence := s.mgmt.fence &&& ~~~((v.setWidth 640 : BitVec 640) <<< (64 * k)) } }
def execFenceclrWrite (k : Nat) (v : Word) (s : State) : Out :=
  enabled "FENCECLR_WRITE" (onlyIf (decide (k < 10)) (s.fenceClear k v))

/-! ### Writes (R5, R310, R325) -/

/-- A write of QCTL: the fields, then the switch, then the acts. -/
def State.writeQctl (s : State) (q : Nat) (v : Word) : State :=
  let s1 := s.updQueue q fun x => { x with en := v.getLsbD 0, prio := v.extractLsb' 1 2 }
  let s2 := if v.getLsbD 7 then s1.switchOut q else s1.switchIn q
  let s3 := if v.getLsbD 3 then s2.resumeQueue q else s2
  let s4 := if v.getLsbD 5 then s3.resetQueue q else s3
  if v.getLsbD 4 then s4.requestMirror q else s4

/-- A write to a register of a queue's block. QBASE, QSIZE and QMIR take effect at once only while EN = 0. -/
def State.writeQueueReg (s : State) (q off : Nat) (v : Word) : State :=
  match off with
  | 0x00 =>
    let b := v.extractLsb' 12 52
    s.updQueue q fun x => { x with base := b, liveBase := if x.en then x.liveBase else b }
  | 0x08 =>
    let n := v.toNat % 32
    let l := if 6 ≤ n ∧ n ≤ 16 then n else 6
    s.updQueue q fun x => { x with log := l, liveLog := if x.en then x.liveLog else l }
  | 0x10 => s.writeTail q v
  | 0x20 =>
    let e := v.getLsbD 0
    let a := v.extractLsb' 3 61
    s.updQueue q fun x => { x with mirEn := e, mirAddr := a, liveMirEn := if x.en then x.liveMirEn else e,
                                   liveMirAddr := if x.en then x.liveMirAddr else a }
  | 0x28 => s.writeQctl q v
  | 0x38 => s.killFrom q (v.setWidth 32)
  | _ => s

/-- A value held within bounds. -/
def clamp (lo hi x : Nat) : Nat := Nat.max lo (Nat.min hi x)

/-- A write to a register of the management block. -/
def State.writeMgmtReg (s : State) (off : Nat) (v : Word) : State :=
  let m := s.mgmt
  if off = 0x1000 then
    let open_ := m.linken == 0#16
    let l := v.extractLsb' 16 16
    { s with linksUp := s.linksUp &&& (0x7F#7 ++ l : BitVec 23),
             mgmt := { m with pkg := if open_ then v.setWidth 6 else m.pkg,
                              hostpkg := if open_ then v.extractLsb' 8 8 else m.hostpkg, linken := l } }
  else if off = 0x1010 then
    { s with mgmt := { m with tlim := BitVec.ofNat 8 (clamp 60 100 (v.toNat % 256)),
                              plim := BitVec.ofNat 16 (clamp 400 2000 (v.toNat / 256 % 65536)) } }
  else if 0x1300 ≤ off ∧ off < 0x1350 then s.fenceSet ((off - 0x1300) / 8) v
  else if 0x1380 ≤ off ∧ off < 0x13D0 then s.fenceClear ((off - 0x1380) / 8) v
  else s

/-- HOST_REG_WRITE (R310, R325): an aligned 8-byte write at an offset of BAR0. Read-only fields and reserved bits keep their
values. -/
def execHostRegWrite (off : Nat) (v : Word) (s : State) : Out :=
  enabled "HOST_REG_WRITE" <|
    onlyIf (off % 8 == 0 && decide (off < 0x6000))
      (if off < 0x1000 then s.writeQueueReg (off / 64) (off % 64) v else s.writeMgmtReg off v)

end Sys2Proof.Machine
end

