-- ==== Sys2Proof/Machine/ScalarFp.lean ====
section
/-! DEFINITION. Scalar floating point: SFP (R133, R134) and FMAS (R135). -/

namespace Sys2Proof.Machine

/-- The etype of precision bit P. -/
def precType (p : BitVec 1) : Nat := if p == 1#1 then 11 else 10

/-- A register read in precision P: FP32 takes bits [31:0] (R48). -/
def precVal (p : BitVec 1) (x : Word) : Nat := if p == 1#1 then x.toNat else x.toNat % 2 ^ 32

/-- Write a result and OR its flags into FFLAGS (R133). -/
def fpWrite (rs : List (BitVec 5)) (a : BitVec 5) (r : Res) (s : State) : Out :=
  awaitG (a :: rs) s
    (.next ((s.wg a (BitVec.ofNat 64 r.bits)).upd fun st => { st.advance with fflags := st.fflags ||| r.fl }))

/-- A member with two sources. -/
def sfp2 (f : Fmt → Rm → Nat → Nat → Res) (a b c : BitVec 5) (p : BitVec 1) (s : State) : Out :=
  fpWrite [b, c] a (f (fmtOf (precType p)) (rmOfFrm s.cur.frm) (precVal p (s.rg b)) (precVal p (s.rg c))) s

/-- A compare. -/
def sfpCmp (f : Fmt → Nat → Nat → Bool × Flags) (a b c : BitVec 5) (p : BitVec 1) (s : State) : Out :=
  let r := f (fmtOf (precType p)) (precVal p (s.rg b)) (precVal p (s.rg c))
  fpWrite [b, c] a ⟨if r.1 then 1 else 0, r.2⟩ s

/-- The rounding mode of a scalar conversion (R134). -/
def scalarRm (r : BitVec 5) (s : State) : Rm := rmOfCode r.toNat s.cur.frm 0

/-- FADD (R133). -/
def execFadd (a b c : BitVec 5) (p : BitVec 1) (s : State) : Out := sfp2 fpAdd a b c p s
/-- FSUB (R133). -/
def execFsub (a b c : BitVec 5) (p : BitVec 1) (s : State) : Out := sfp2 fpSub a b c p s
/-- FMUL (R133). -/
def execFmul (a b c : BitVec 5) (p : BitVec 1) (s : State) : Out := sfp2 fpMul a b c p s
/-- FDIV (R133). -/
def execFdiv (a b c : BitVec 5) (p : BitVec 1) (s : State) : Out := sfp2 fpDiv a b c p s
/-- FSQRT (R133). -/
def execFsqrt (a b : BitVec 5) (p : BitVec 1) (s : State) : Out :=
  fpWrite [b] a (fpSqrt (fmtOf (precType p)) (rmOfFrm s.cur.frm) (precVal p (s.rg b))) s
/-- FMIN (R133). -/
def execFmin (a b c : BitVec 5) (p : BitVec 1) (s : State) : Out := sfp2 (fun k _ => fpMinMax k false) a b c p s
/-- FMAX (R133). -/
def execFmax (a b c : BitVec 5) (p : BitVec 1) (s : State) : Out := sfp2 (fun k _ => fpMinMax k true) a b c p s
/-- FEQ (R133). -/
def execFeq (a b c : BitVec 5) (p : BitVec 1) (s : State) : Out := sfpCmp fpEq a b c p s
/-- FLT (R133). -/
def execFlt (a b c : BitVec 5) (p : BitVec 1) (s : State) : Out := sfpCmp (fun k => fpLt k false) a b c p s
/-- FLE (R133). -/
def execFle (a b c : BitVec 5) (p : BitVec 1) (s : State) : Out := sfpCmp (fun k => fpLt k true) a b c p s
/-- FCVTI (R134). -/
def execFcvti (a b r : BitVec 5) (p : BitVec 1) (s : State) : Out :=
  fpWrite [b] a (convert (precType p) 6 (scalarRm r s) false (precVal p (s.rg b))) s
/-- FCVTF (R134). -/
def execFcvtf (a b r : BitVec 5) (p : BitVec 1) (s : State) : Out :=
  fpWrite [b] a (convert 6 (precType p) (scalarRm r s) false (s.rg b).toNat) s
/-- FCVTW.f32 (R134). -/
def execFcvtwF32 (a b r : BitVec 5) (s : State) : Out :=
  fpWrite [b] a (convert 11 10 (scalarRm r s) false (s.rg b).toNat) s
/-- FCVTW.f64 (R134). -/
def execFcvtwF64 (a b : BitVec 5) (s : State) : Out :=
  fpWrite [b] a (convert 10 11 .rne false ((s.rg b).toNat % 2 ^ 32)) s

/-- A fused multiply-add or -subtract (R135). -/
def fmas (sub : Bool) (a b c d : BitVec 5) (p : BitVec 1) (s : State) : Out :=
  fpWrite [b, c, d] a
    (fpFma (fmtOf (precType p)) (rmOfFrm s.cur.frm) (precVal p (s.rg b)) (precVal p (s.rg c)) (precVal p (s.rg d)) false sub)
    s

/-- FMADD (R135). -/
def execFmadd (a b c d : BitVec 5) (p : BitVec 1) (s : State) : Out := fmas false a b c d p s
/-- FMSUB (R135). -/
def execFmsub (a b c d : BitVec 5) (p : BitVec 1) (s : State) : Out := fmas true a b c d p s

end Sys2Proof.Machine
end

