-- ==== Sys2Proof/Machine/Dispatch.lean ====
section
/-! DEFINITION. One arm per instruction and event: its meaning. -/

namespace Sys2Proof.Machine

def exec (i : Instr) (s : State) : Host.Outcome State Fault Refusal :=
  match i with
  | .vstrip a b c x y e => Sys2Proof.Machine.execVstrip a b c x y e s
  | .vadd a b c m f => Sys2Proof.Machine.execVadd a b c m f s
  | .vsub a b c m f => Sys2Proof.Machine.execVsub a b c m f s
  | .vmul a b c m f => Sys2Proof.Machine.execVmul a b c m f s
  | .vmulh a b c m f => Sys2Proof.Machine.execVmulh a b c m f s
  | .vmulhn a b c m f => Sys2Proof.Machine.execVmulhn a b c m f s
  | .vdiv a b c m f => Sys2Proof.Machine.execVdiv a b c m f s
  | .vdivn a b c m f => Sys2Proof.Machine.execVdivn a b c m f s
  | .vrem a b c m f => Sys2Proof.Machine.execVrem a b c m f s
  | .vremn a b c m f => Sys2Proof.Machine.execVremn a b c m f s
  | .vmin a b c m f => Sys2Proof.Machine.execVmin a b c m f s
  | .vmax a b c m f => Sys2Proof.Machine.execVmax a b c m f s
  | .vminn a b c m f => Sys2Proof.Machine.execVminn a b c m f s
  | .vmaxn a b c m f => Sys2Proof.Machine.execVmaxn a b c m f s
  | .vand a b c m f => Sys2Proof.Machine.execVand a b c m f s
  | .vor a b c m f => Sys2Proof.Machine.execVor a b c m f s
  | .vxor a b c m f => Sys2Proof.Machine.execVxor a b c m f s
  | .vshl a b c m f => Sys2Proof.Machine.execVshl a b c m f s
  | .vshr a b c m f => Sys2Proof.Machine.execVshr a b c m f s
  | .vshra a b c m f => Sys2Proof.Machine.execVshra a b c m f s
  | .vsadd a b c m f => Sys2Proof.Machine.execVsadd a b c m f s
  | .vssub a b c m f => Sys2Proof.Machine.execVssub a b c m f s
  | .vadc a b c m f => Sys2Proof.Machine.execVadc a b c m f s
  | .vsbc a b c m f => Sys2Proof.Machine.execVsbc a b c m f s
  | .vmacc a b c m f => Sys2Proof.Machine.execVmacc a b c m f s
  | .vfadd a b c m f => Sys2Proof.Machine.execVfadd a b c m f s
  | .vfsub a b c m f => Sys2Proof.Machine.execVfsub a b c m f s
  | .vfmul a b c m f => Sys2Proof.Machine.execVfmul a b c m f s
  | .vfdiv a b c m f => Sys2Proof.Machine.execVfdiv a b c m f s
  | .vfmin a b c m f => Sys2Proof.Machine.execVfmin a b c m f s
  | .vfmax a b c m f => Sys2Proof.Machine.execVfmax a b c m f s
  | .vfsqrt a b m => Sys2Proof.Machine.execVfsqrt a b m s
  | .vfabs a b m => Sys2Proof.Machine.execVfabs a b m s
  | .vfneg a b m => Sys2Proof.Machine.execVfneg a b m s
  | .vfsgn a b c m f => Sys2Proof.Machine.execVfsgn a b c m f s
  | .vfma a b c d m => Sys2Proof.Machine.execVfma a b c d m s
  | .vfms a b c d m => Sys2Proof.Machine.execVfms a b c d m s
  | .vfnma a b c d m => Sys2Proof.Machine.execVfnma a b c d m s
  | .vfnms a b c d m => Sys2Proof.Machine.execVfnms a b c d m s
  | .vima a b c d m => Sys2Proof.Machine.execVima a b c d m s
  | .vwfma a b c d m => Sys2Proof.Machine.execVwfma a b c d m s
  | .vcvt a b r m z d => Sys2Proof.Machine.execVcvt a b r m z d s
  | .vceq a b c m f => Sys2Proof.Machine.execVceq a b c m f s
  | .vcne a b c m f => Sys2Proof.Machine.execVcne a b c m f s
  | .vclt a b c m f => Sys2Proof.Machine.execVclt a b c m f s
  | .vcle a b c m f => Sys2Proof.Machine.execVcle a b c m f s
  | .vcgt a b c m f => Sys2Proof.Machine.execVcgt a b c m f s
  | .vcge a b c m f => Sys2Proof.Machine.execVcge a b c m f s
  | .vcltn a b c m f => Sys2Proof.Machine.execVcltn a b c m f s
  | .vclen a b c m f => Sys2Proof.Machine.execVclen a b c m f s
  | .vcgtn a b c m f => Sys2Proof.Machine.execVcgtn a b c m f s
  | .vcgen a b c m f => Sys2Proof.Machine.execVcgen a b c m f s
  | .vfceq a b c m f => Sys2Proof.Machine.execVfceq a b c m f s
  | .vfclt a b c m f => Sys2Proof.Machine.execVfclt a b c m f s
  | .vfcle a b c m f => Sys2Proof.Machine.execVfcle a b c m f s
  | .vfcun a b c m f => Sys2Proof.Machine.execVfcun a b c m f s
  | .vcarry a b c m f => Sys2Proof.Machine.execVcarry a b c m f s
  | .vborrow a b c m f => Sys2Proof.Machine.execVborrow a b c m f s
  | .mand a b c => Sys2Proof.Machine.execMand a b c s
  | .mor a b c => Sys2Proof.Machine.execMor a b c s
  | .mxor a b c => Sys2Proof.Machine.execMxor a b c s
  | .mandn a b c => Sys2Proof.Machine.execMandn a b c s
  | .mnot a b => Sys2Proof.Machine.execMnot a b s
  | .mmov a b => Sys2Proof.Machine.execMmov a b s
  | .mshup a b z => Sys2Proof.Machine.execMshup a b z s
  | .mshdn a b z => Sys2Proof.Machine.execMshdn a b z s
  | .mpopc a b => Sys2Proof.Machine.execMpopc a b s
  | .mfirst a b => Sys2Proof.Machine.execMfirst a b s
  | .mset a => Sys2Proof.Machine.execMset a s
  | .mclr a => Sys2Proof.Machine.execMclr a s
  | .mtov a b => Sys2Proof.Machine.execMtov a b s
  | .vtom a b => Sys2Proof.Machine.execVtom a b s
  | .vmov a c m f => Sys2Proof.Machine.execVmov a c m f s
  | .vsplat a b c m f => Sys2Proof.Machine.execVsplat a b c m f s
  | .vslup a b c m f => Sys2Proof.Machine.execVslup a b c m f s
  | .vsldn a b c m f => Sys2Proof.Machine.execVsldn a b c m f s
  | .vrgath a b c m => Sys2Proof.Machine.execVrgath a b c m s
  | .vrows a b c m f => Sys2Proof.Machine.execVrows a b c m f s
  | .vcols a b c m f => Sys2Proof.Machine.execVcols a b c m f s
  | .vroww a b c m f => Sys2Proof.Machine.execVroww a b c m f s
  | .vcolw a b c m f => Sys2Proof.Machine.execVcolw a b c m f s
  | .vextr a b c f => Sys2Proof.Machine.execVextr a b c f s
  | .vins a b c f => Sys2Proof.Machine.execVins a b c f s
  | .vmerge a b c m f => Sys2Proof.Machine.execVmerge a b c m f s
  | .vid a m => Sys2Proof.Machine.execVid a m s
  | .vcompress a b m => Sys2Proof.Machine.execVcompress a b m s
  | .vexpand a b m => Sys2Proof.Machine.execVexpand a b m s
  | .viota a b m => Sys2Proof.Machine.execViota a b m s
  | .vconflict a b m => Sys2Proof.Machine.execVconflict a b m s
  | .vsegscan a b o m => Sys2Proof.Machine.execVsegscan a b o m s
  | .vinter a b c m => Sys2Proof.Machine.execVinter a b c m s
  | .vdelta a b c m => Sys2Proof.Machine.execVdelta a b c m s
  | .vprune48 a b c => Sys2Proof.Machine.execVprune48 a b c s
  | .vsortseg a b c m => Sys2Proof.Machine.execVsortseg a b c m s
  | .vnz a b c m => Sys2Proof.Machine.execVnz a b c m s
  | .vrsum a b m => Sys2Proof.Machine.execVrsum a b m s
  | .vrmin a b m => Sys2Proof.Machine.execVrmin a b m s
  | .vrmax a b m => Sys2Proof.Machine.execVrmax a b m s
  | .vrand a b m => Sys2Proof.Machine.execVrand a b m s
  | .vror a b m => Sys2Proof.Machine.execVror a b m s
  | .vrxor a b m => Sys2Proof.Machine.execVrxor a b m s
  | .vfrsum a b m => Sys2Proof.Machine.execVfrsum a b m s
  | .vfrmin a b m => Sys2Proof.Machine.execVfrmin a b m s
  | .vfrmax a b m => Sys2Proof.Machine.execVfrmax a b m s
  | .vfdot a b c m => Sys2Proof.Machine.execVfdot a b c m s
  | .vtagq a b => Sys2Proof.Machine.execVtagq a b s
  | .vwaitr a b m => Sys2Proof.Machine.execVwaitr a b m s
  | .vdrop a m => Sys2Proof.Machine.execVdrop a m s
  | .vprog a n => Sys2Proof.Machine.execVprog a n s
  | .vld a b m => Sys2Proof.Machine.execVld a b m s
  | .vlds a b c m => Sys2Proof.Machine.execVlds a b c m s
  | .vldx a b c m => Sys2Proof.Machine.execVldx a b c m s
  | .vldseg a b t m f => Sys2Proof.Machine.execVldseg a b t m f s
  | .vldw a b m => Sys2Proof.Machine.execVldw a b m s
  | .vldl a b c m => Sys2Proof.Machine.execVldl a b c m s
  | .vldsc a b c m => Sys2Proof.Machine.execVldsc a b c m s
  | .vrload a b => Sys2Proof.Machine.execVrload a b s
  | .vst a b m => Sys2Proof.Machine.execVst a b m s
  | .vsts a b c m => Sys2Proof.Machine.execVsts a b c m s
  | .vstx a b c m => Sys2Proof.Machine.execVstx a b c m s
  | .vstseg a b t m f => Sys2Proof.Machine.execVstseg a b t m f s
  | .vstc a b c m => Sys2Proof.Machine.execVstc a b c m s
  | .vstsc a b c m => Sys2Proof.Machine.execVstsc a b c m s
  | .vrsave a b => Sys2Proof.Machine.execVrsave a b s
  | .vldrow a b m => Sys2Proof.Machine.execVldrow a b m s
  | .vstrow a b m => Sys2Proof.Machine.execVstrow a b m s
  | .vemb a b c d m => Sys2Proof.Machine.execVemb a b c d m s
  | .vbind a b c => Sys2Proof.Machine.execVbind a b c s
  | .vunbind a => Sys2Proof.Machine.execVunbind a s
  | .vbpos a b => Sys2Proof.Machine.execVbpos a b s
  | .vbset a b => Sys2Proof.Machine.execVbset a b s
  | .relay a b z d => Sys2Proof.Machine.execRelay a b z d s
  | .urgn a b => Sys2Proof.Machine.execUrgn a b s
  | .upd a b c m => Sys2Proof.Machine.execUpd a b c m s
  | .useal a => Sys2Proof.Machine.execUseal a s
  | .uflush a => Sys2Proof.Machine.execUflush a s
  | .uclose a => Sys2Proof.Machine.execUclose a s
  | .mmode a b t => Sys2Proof.Machine.execMmode a b t s
  | .tzero t => Sys2Proof.Machine.execTzero t s
  | .tgetr a t c m => Sys2Proof.Machine.execTgetr a t c m s
  | .tgetc a t c m => Sys2Proof.Machine.execTgetc a t c m s
  | .tsetr t b c m => Sys2Proof.Machine.execTsetr t b c m s
  | .tsetc t b c m => Sys2Proof.Machine.execTsetc t b c m s
  | .tstr r t b c m => Sys2Proof.Machine.execTstr r t b c m s
  | .tstx r t b c m => Sys2Proof.Machine.execTstx r t b c m s
  | .mcbld k b => Sys2Proof.Machine.execMcbld k b s
  | .tfold r t b c m => Sys2Proof.Machine.execTfold r t b c m s
  | .tfoldn r t b c m => Sys2Proof.Machine.execTfoldn r t b c m s
  | .tfoldi8 r t b c m => Sys2Proof.Machine.execTfoldi8 r t b c m s
  | .tfoldf8 r t b c m => Sys2Proof.Machine.execTfoldf8 r t b c m s
  | .tfoldc4 r t b c m => Sys2Proof.Machine.execTfoldc4 r t b c m s
  | .tfoldsp r t b c d m => Sys2Proof.Machine.execTfoldsp r t b c d m s
  | .sclaimw b c m => Sys2Proof.Machine.execSclaimw b c m s
  | .sclaimr b c m => Sys2Proof.Machine.execSclaimr b c m s
  | .swave a b => Sys2Proof.Machine.execSwave a b s
  | .sretire b => Sys2Proof.Machine.execSretire b s
  | .spend a => Sys2Proof.Machine.execSpend a s
  | .cxload a b => Sys2Proof.Machine.execCxload a b s
  | .cxdrop a => Sys2Proof.Machine.execCxdrop a s
  | .cxq a b => Sys2Proof.Machine.execCxq a b s
  | .cx a b c d m z => Sys2Proof.Machine.execCx a b c d m z s
  | .acopy a b c => Sys2Proof.Machine.execAcopy a b c s
  | .acwait a b => Sys2Proof.Machine.execAcwait a b s
  | .acq a b w => Sys2Proof.Machine.execAcq a b w s
  | .acresume b => Sys2Proof.Machine.execAcresume b s
  | .accancel b => Sys2Proof.Machine.execAccancel b s
  | .add a b c => Sys2Proof.Machine.execAdd a b c s
  | .sub a b c => Sys2Proof.Machine.execSub a b c s
  | .and a b c => Sys2Proof.Machine.execAnd a b c s
  | .or a b c => Sys2Proof.Machine.execOr a b c s
  | .xor a b c => Sys2Proof.Machine.execXor a b c s
  | .shl a b c => Sys2Proof.Machine.execShl a b c s
  | .shr a b c => Sys2Proof.Machine.execShr a b c s
  | .shra a b c => Sys2Proof.Machine.execShra a b c s
  | .slt a b c => Sys2Proof.Machine.execSlt a b c s
  | .sltn a b c => Sys2Proof.Machine.execSltn a b c s
  | .mul a b c => Sys2Proof.Machine.execMul a b c s
  | .mulh a b c => Sys2Proof.Machine.execMulh a b c s
  | .mulhn a b c => Sys2Proof.Machine.execMulhn a b c s
  | .div a b c => Sys2Proof.Machine.execDiv a b c s
  | .divn a b c => Sys2Proof.Machine.execDivn a b c s
  | .rem a b c => Sys2Proof.Machine.execRem a b c s
  | .remn a b c => Sys2Proof.Machine.execRemn a b c s
  | .min a b c => Sys2Proof.Machine.execMin a b c s
  | .max a b c => Sys2Proof.Machine.execMax a b c s
  | .minn a b c => Sys2Proof.Machine.execMinn a b c s
  | .maxn a b c => Sys2Proof.Machine.execMaxn a b c s
  | .clz a b => Sys2Proof.Machine.execClz a b s
  | .ctz a b => Sys2Proof.Machine.execCtz a b s
  | .popc a b => Sys2Proof.Machine.execPopc a b s
  | .addi a b x => Sys2Proof.Machine.execAddi a b x s
  | .andi a b x => Sys2Proof.Machine.execAndi a b x s
  | .ori a b x => Sys2Proof.Machine.execOri a b x s
  | .xori a b x => Sys2Proof.Machine.execXori a b x s
  | .slti a b x => Sys2Proof.Machine.execSlti a b x s
  | .shli a b z => Sys2Proof.Machine.execShli a b z s
  | .shri a b z => Sys2Proof.Machine.execShri a b z s
  | .shrai a b z => Sys2Proof.Machine.execShrai a b z s
  | .lih a x => Sys2Proof.Machine.execLih a x s
  | .shori a b x => Sys2Proof.Machine.execShori a b x s
  | .ldb a b x => Sys2Proof.Machine.execLdb a b x s
  | .ldbn a b x => Sys2Proof.Machine.execLdbn a b x s
  | .ldh a b x => Sys2Proof.Machine.execLdh a b x s
  | .ldhn a b x => Sys2Proof.Machine.execLdhn a b x s
  | .ldw a b x => Sys2Proof.Machine.execLdw a b x s
  | .ldwn a b x => Sys2Proof.Machine.execLdwn a b x s
  | .ldd a b x => Sys2Proof.Machine.execLdd a b x s
  | .stb a b x => Sys2Proof.Machine.execStb a b x s
  | .sth a b x => Sys2Proof.Machine.execSth a b x s
  | .stw a b x => Sys2Proof.Machine.execStw a b x s
  | .std a b x => Sys2Proof.Machine.execStd a b x s
  | .beq b c o => Sys2Proof.Machine.execBeq b c o s
  | .bne b c o => Sys2Proof.Machine.execBne b c o s
  | .blt b c o => Sys2Proof.Machine.execBlt b c o s
  | .bge b c o => Sys2Proof.Machine.execBge b c o s
  | .bltn b c o => Sys2Proof.Machine.execBltn b c o s
  | .bgen b c o => Sys2Proof.Machine.execBgen b c o s
  | .jmp o => Sys2Proof.Machine.execJmp o s
  | .call o => Sys2Proof.Machine.execCall o s
  | .jr b => Sys2Proof.Machine.execJr b s
  | .jalr b => Sys2Proof.Machine.execJalr b s
  | .fadd a b c p => Sys2Proof.Machine.execFadd a b c p s
  | .fsub a b c p => Sys2Proof.Machine.execFsub a b c p s
  | .fmul a b c p => Sys2Proof.Machine.execFmul a b c p s
  | .fdiv a b c p => Sys2Proof.Machine.execFdiv a b c p s
  | .fsqrt a b p => Sys2Proof.Machine.execFsqrt a b p s
  | .fmin a b c p => Sys2Proof.Machine.execFmin a b c p s
  | .fmax a b c p => Sys2Proof.Machine.execFmax a b c p s
  | .feq a b c p => Sys2Proof.Machine.execFeq a b c p s
  | .flt a b c p => Sys2Proof.Machine.execFlt a b c p s
  | .fle a b c p => Sys2Proof.Machine.execFle a b c p s
  | .fcvti a b r p => Sys2Proof.Machine.execFcvti a b r p s
  | .fcvtf a b r p => Sys2Proof.Machine.execFcvtf a b r p s
  | .fcvtwF32 a b r => Sys2Proof.Machine.execFcvtwF32 a b r s
  | .fcvtwF64 a b => Sys2Proof.Machine.execFcvtwF64 a b s
  | .fmadd a b c d p => Sys2Proof.Machine.execFmadd a b c d p s
  | .fmsub a b c d p => Sys2Proof.Machine.execFmsub a b c d p s
  | .ldlw a b => Sys2Proof.Machine.execLdlw a b s
  | .ldld a b => Sys2Proof.Machine.execLdld a b s
  | .stcw a b c => Sys2Proof.Machine.execStcw a b c s
  | .stcd a b c => Sys2Proof.Machine.execStcd a b c s
  | .ldscw a b => Sys2Proof.Machine.execLdscw a b s
  | .ldscd a b => Sys2Proof.Machine.execLdscd a b s
  | .stscw a b => Sys2Proof.Machine.execStscw a b s
  | .stscd a b => Sys2Proof.Machine.execStscd a b s
  | .bara b => Sys2Proof.Machine.execBara b s
  | .barw b => Sys2Proof.Machine.execBarw b s
  | .baraw b => Sys2Proof.Machine.execBaraw b s
  | .barset a b => Sys2Proof.Machine.execBarset a b s
  | .qdrain q => Sys2Proof.Machine.execQdrain q s
  | .fence z b a => Sys2Proof.Machine.execFence z b a s
  | .mfs a n => Sys2Proof.Machine.execMfs a n s
  | .mts b n => Sys2Proof.Machine.execMts b n s
  | .sets b n => Sys2Proof.Machine.execSets b n s
  | .clrs b n => Sys2Proof.Machine.execClrs b n s
  | .gbara => Sys2Proof.Machine.execGbara s
  | .gbarw => Sys2Proof.Machine.execGbarw s
  | .wfe => Sys2Proof.Machine.execWfe s
  | .nop => Sys2Proof.Machine.execNop s
  | .trapu => Sys2Proof.Machine.execTrapu s
  | .eret => Sys2Proof.Machine.execEret s
  | .uiret => Sys2Proof.Machine.execUiret s
  | .brk => Sys2Proof.Machine.execBrk s
  | .halt => Sys2Proof.Machine.execHalt s
  | .exit => Sys2Proof.Machine.execExit s
  | .tlbinv => Sys2Proof.Machine.execTlbinv s
  | .moff => Sys2Proof.Machine.execMoff s
  | .sclear => Sys2Proof.Machine.execSclear s
  | .noInstruction w => Sys2Proof.Machine.execNoInstruction w s
  | .sliceAdmit core => Sys2Proof.Machine.execSliceAdmit core s
  | .elementFire slot elem => Sys2Proof.Machine.execElementFire slot elem s
  | .loadReturn slot elem => Sys2Proof.Machine.execLoadReturn slot elem s
  | .gatherCommand slot => Sys2Proof.Machine.execGatherCommand slot s
  | .storeGroupWrite slot grp => Sys2Proof.Machine.execStoreGroupWrite slot grp s
  | .pageWalk va kind => Sys2Proof.Machine.execPageWalk va kind s
  | .channelAccess agent pa size isWrite data => Sys2Proof.Machine.execChannelAccess agent pa size isWrite data s
  | .copyLine pos line => Sys2Proof.Machine.execCopyLine pos line s
  | .copyComplete pos => Sys2Proof.Machine.execCopyComplete pos s
  | .copyFaultStop pos line => Sys2Proof.Machine.execCopyFaultStop pos line s
  | .relayDataArrive slot => Sys2Proof.Machine.execRelayDataArrive slot s
  | .relayEndMarker slot => Sys2Proof.Machine.execRelayEndMarker slot s
  | .preemption gang => Sys2Proof.Machine.execPreemption gang s
  | .gangPlace queue => Sys2Proof.Machine.execGangPlace queue s
  | .gangResume gang gvlen => Sys2Proof.Machine.execGangResume gang gvlen s
  | .ageingExpiry queue => Sys2Proof.Machine.execAgeingExpiry queue s
  | .timeShareExpiry gang => Sys2Proof.Machine.execTimeShareExpiry gang s
  | .kill gang reason => Sys2Proof.Machine.execKill gang reason s
  | .gangCompletion gang => Sys2Proof.Machine.execGangCompletion gang s
  | .wsServingEntry die => Sys2Proof.Machine.execWsServingEntry die s
  | .scrub sector corrected => Sys2Proof.Machine.execScrub sector corrected s
  | .eccError struct die core uncorr line => Sys2Proof.Machine.execEccError struct die core uncorr line s
  | .linkCrcError link retrainOk => Sys2Proof.Machine.execLinkCrcError link retrainOk s
  | .packageUnreachable pkg => Sys2Proof.Machine.execPackageUnreachable pkg s
  | .droopEvent island => Sys2Proof.Machine.execDroopEvent island s
  | .calibration cluster failed => Sys2Proof.Machine.execCalibration cluster failed s
  | .coldStart trained => Sys2Proof.Machine.execColdStart trained s
  | .warmStart fingerprintOk trained => Sys2Proof.Machine.execWarmStart fingerprintOk trained s
  | .codeObjectCheck queue => Sys2Proof.Machine.execCodeObjectCheck queue s
  | .hostAccess offset size isWrite data => Sys2Proof.Machine.execHostAccess offset size isWrite data s
  | .qtailWrite queue value => Sys2Proof.Machine.execQtailWrite queue value s
  | .qctlResume queue => Sys2Proof.Machine.execQctlResume queue s
  | .qctlMref queue => Sys2Proof.Machine.execQctlMref queue s
  | .qctlQreset queue => Sys2Proof.Machine.execQctlQreset queue s
  | .qctlSwout queue => Sys2Proof.Machine.execQctlSwout queue s
  | .qctlSwin queue => Sys2Proof.Machine.execQctlSwin queue s
  | .qkillWrite queue gang => Sys2Proof.Machine.execQkillWrite queue gang s
  | .qerrRead queue => Sys2Proof.Machine.execQerrRead queue s
  | .ctempTmaxRead cluster => Sys2Proof.Machine.execCtempTmaxRead cluster s
  | .islandDroopRead island => Sys2Proof.Machine.execIslandDroopRead island s
  | .fencesetWrite k value => Sys2Proof.Machine.execFencesetWrite k value s
  | .fenceclrWrite k value => Sys2Proof.Machine.execFenceclrWrite k value s
  | .hostRegWrite offset value => Sys2Proof.Machine.execHostRegWrite offset value s
  | .kernelPacket queue => Sys2Proof.Machine.execKernelPacket queue s
  | .padPacket queue => Sys2Proof.Machine.execPadPacket queue s
  | .waitPacket queue => Sys2Proof.Machine.execWaitPacket queue s
  | .waitPoll queue => Sys2Proof.Machine.execWaitPoll queue s
  | .signalPacket queue => Sys2Proof.Machine.execSignalPacket queue s
  | .signalWrite queue => Sys2Proof.Machine.execSignalWrite queue s
  | .wsloadPacket queue => Sys2Proof.Machine.execWsloadPacket queue s
  | .gangsyncPacket queue => Sys2Proof.Machine.execGangsyncPacket queue s
  | .gangsyncReserved queue pkg ok => Sys2Proof.Machine.execGangsyncReserved queue pkg ok s
  | .gangsyncCommit queue gang before total => Sys2Proof.Machine.execGangsyncCommit queue gang before total s
  | .gangsyncAbort queue => Sys2Proof.Machine.execGangsyncAbort queue s
  | .mirrorWrite queue => Sys2Proof.Machine.execMirrorWrite queue s
  | .flaralLinkUp link pkg => Sys2Proof.Machine.execFlaralLinkUp link pkg s
  | .commitTick gang => Sys2Proof.Machine.execCommitTick gang s
  | .windowRetire => Sys2Proof.Machine.execWindowRetire s
  | .pressPairReceive => Sys2Proof.Machine.execPressPairReceive s
  | .userTrapAsync => Sys2Proof.Machine.execUserTrapAsync s
  | .supervisorTrap => Sys2Proof.Machine.execSupervisorTrap s
  | .elementStep => Sys2Proof.Machine.execElementStep s
  | .watchdog => Sys2Proof.Machine.execWatchdog s
  | .islandEvaluate => Sys2Proof.Machine.execIslandEvaluate s
  | .tickSync => Sys2Proof.Machine.execTickSync s
  | .errstatRead => Sys2Proof.Machine.execErrstatRead s
  | .errrecRead => Sys2Proof.Machine.execErrrecRead s

end Sys2Proof.Machine
end

