-- ==== Sys2Proof/Machine/Late.lean ====
section
/-! DEFINITION. Writes that perform after their strand has gone on (R88, R91, R92, R99, R193). -/

namespace Sys2Proof.Machine

/-- Every strand's writes perform. -/
def State.settleAll (s : State) : State := s.settleFor fun _ => true

/-- An event that may come to pass while writes are owed: of a window, of another agent's access, or of copies, pairs and relay
data. -/
def keepsLate (i : Instr) : Bool :=
  match i with
  | .sliceAdmit .. | .elementFire .. | .loadReturn .. | .gatherCommand .. | .storeGroupWrite .. | .windowRetire
  | .pressPairReceive | .relayDataArrive .. | .relayEndMarker .. | .pageWalk .. | .channelAccess .. | .copyLine .. => true
  | _ => false

/-- The writes that are owed have performed before an event that may not pass them. -/
def State.settledFor (i : Instr) (s : State) : State := if keepsLate i then s else s.settleAll

/-- Write `i` of those that the strand in focus owes can perform before the older ones: no byte is theirs too, and, as the
core's strands see it, none is an older one of SCA for one of SCA, or of an earlier strip for one of VEC (R91, R92). -/
def State.canPerform (s : State) (i : Nat) (x : LateStore) : Bool :=
  (s.cur.late.take i).all fun y => !y.place.meets x.place && (y.vec != x.vec || s.alone || (x.vec && y.strip == x.strip))

/-- That write performs. -/
def State.perform (s : State) (i : Nat) : State :=
  match s.cur.late[i]? with
  | none => s
  | some x =>
    if s.canPerform i x then
      (s.writeLoc s.cur.agent (.dev x.addr) x.n x.val).upd fun st => { st with late := st.late.eraseIdx i }
    else s

/-- A store of the low `n` bytes of g[A] goes out: the strand goes on, and the write is owed. A store to host memory performs
with its completion (R88). -/
def lateStore (n : Nat) (a b : BitVec 5) (i : BitVec 16) (s : State) : Option State :=
  if [a, b].any s.cur.pending || !s.scalarFree (memAddr s b i) n .write then none
  else
    match s.place (memAddr s b i) n .write with
    | .ok (.dev p) =>
      some (s.upd fun st => { st with late := st.late ++ [{ addr := p, n := n, val := (s.rg a).toNat, vec := false, strip := 0 }] }).advance
    | _ => none

/-- The next instruction, when it is a scalar store that can go out so. -/
def State.sendStore (s : State) (i : Instr) : Option State :=
  match i with
  | .stb a b o => lateStore 1 a b o s
  | .sth a b o => lateStore 2 a b o s
  | .stw a b o => lateStore 4 a b o s
  | .std a b o => lateStore 8 a b o s
  | _ => none

/-- The strand owes a scalar store. -/
def State.scalarOwed (s : State) : Bool := s.cur.late.any fun x => !x.vec
/-- It owes a write of a vector store. -/
def State.vecOwed (s : State) : Bool := s.cur.late.any fun x => x.vec

/-- A scalar access meets no byte of a write that is owed, and can be made; a scalar store that is owed comes first as the
core's other strands see it (R92). -/
def State.clearOfLate (s : State) (n : Nat) (b : BitVec 5) (i : BitVec 16) (k : Kind) : Bool :=
  (!s.scalarOwed || s.alone) &&
  match s.place (memAddr s b i) n k with
  | .ok (.dev p) => s.cur.late.all fun x => decide (p + n ≤ x.addr) || decide (x.addr + x.n ≤ p)
  | _ => false

/-- A window instruction that accesses no memory at its entry. -/
def entersOnly (i : Instr) : Bool :=
  (opOf i).isSome &&
  match i with
  | .vbind .. => false
  | _ => true

/-- The instruction `i` with the word `w` may execute before the writes that are owed perform: it accesses no memory (scalar
arithmetic and branches, NOP, the barriers, WFE), is a FENCE whose before-paths leave out those of the writes, is a scalar access
to other bytes, or only enters the window (R91, R92, R93, R99). -/
def State.mayPass (s : State) (w : BitVec 32) (i : Instr) : Bool :=
  match i with
  | .fence _ before _ => !(before.getLsbD 0 && s.scalarOwed) && !(before.getLsbD 1 && s.vecOwed)
  | .bara _ | .barw _ | .baraw _ | .gbara | .gbarw | .wfe | .nop => true
  | .ldb _ b o | .ldbn _ b o => s.clearOfLate 1 b o .read
  | .ldh _ b o | .ldhn _ b o => s.clearOfLate 2 b o .read
  | .ldw _ b o | .ldwn _ b o => s.clearOfLate 4 b o .read
  | .ldd _ b o => s.clearOfLate 8 b o .read
  | .stb _ b o => s.clearOfLate 1 b o .write
  | .sth _ b o => s.clearOfLate 2 b o .write
  | .stw _ b o => s.clearOfLate 4 b o .write
  | .std _ b o => s.clearOfLate 8 b o .write
  | _ =>
    decide (1 ≤ (w >>> 26).toNat ∧ (w >>> 26).toNat ≤ 9) || decide (0x15 ≤ (w >>> 26).toNat ∧ (w >>> 26).toNat ≤ 0x19) ||
    (s.cur.ahead && entersOnly i)

end Sys2Proof.Machine
end

