-- ==== Sys2Proof/Machine/Inputs.lean ====
section
/-! DEFINITION. What a step is made of: the passing of time, the inputs of the agenda, the fetch of an instruction, and the
order in which the strand in focus takes its traps, steps and instructions (R38, R70, R74, R105, R120, R121). -/

namespace Sys2Proof.Machine

/-! ### Time -/

/-- A resident strand after some time: its clock, and its watchdog count unless its wait is not counted (R121). -/
def Strand.age (n ticks : Nat) (st : Strand) : Strand :=
  { st with cycle := st.cycle + BitVec.ofNat 64 (Config.clocks n st.core.toNat),
            wcount := if st.quiet || st.stepping then st.wcount else st.wcount + BitVec.ofNat 64 ticks }

/-- The clusters on which strands stand are noted as busy (R329). -/
def State.noteBusy (s : State) : State :=
  { s with lastBusy := (s.strands.filter Strand.placedOn).foldl (fun l st =>
      Sparse.put none l (clusterOf st.core.toNat) (some s.tick)) s.lastBusy }

/-- Some time passes: how much is open (log 6). -/
def State.clock (s : State) : State :=
  let n := Config.elapsed s.fresh
  State.noteBusy { s.mapStrands (fun st => st.phase == .resident) (Strand.age s.fresh n) with
    tick := s.tick + BitVec.ofNat 64 n, fresh := s.fresh + 1 }

/-! ### Turns (R38) -/

/-- The place of a strand in the order of turns of its core: by slot. -/
def Strand.place (st : Strand) : Nat := (st.slot * 2 ^ 32 + st.gang.toNat) * 2 ^ 32 + st.id.toNat

/-- The first strand of a list in the order of turns. -/
def firstPlace : List Strand → Option Strand
  | [] => none
  | st :: t =>
    match firstPlace t with
    | none => some st
    | some x => if st.place ≤ x.place then some st else some x

/-! ### Inputs -/

/-- The strand of a gang takes the focus, when it is there. -/
def State.focus (s : State) (gang id : BitVec 32) : State :=
  let p := fun (st : Strand) => st.gang == gang && st.id == id && st.phase != .absent
  if p s.cur then s
  else
    match s.others.find? p with
    | some st => { s with cur := st, others := s.cur :: s.others.eraseP p }
    | none => s

/-- The strand of a core whose turn it is: the next in slot order after the one that had the last turn. -/
def State.turnOn (s : State) (core : Nat) : Option Strand :=
  let l := s.strands.filter fun st => st.phase != .absent && st.core.toNat == core
  (firstPlace (l.filter fun st => decide ((Sparse.get CoreUnits.reset s.units core).turn ≤ st.place))).orElse fun _ => firstPlace l

/-- The core whose turn it is. The cores go round, unless an input puts another one first: how they interleave is open
(log 5). -/
def State.turnCore (s : State) : Option Nat :=
  let l := (s.strands.filter fun st => st.phase != .absent).map fun st => st.core.toNat
  (l.filter fun c => decide (s.turn ≤ c)).min?.orElse fun _ => l.min?

/-- The strand whose turn it is takes the focus. -/
def State.nextTurn (s : State) : State :=
  match s.turnCore.bind s.turnOn with
  | none => s
  | some st =>
    let c := st.core.toNat
    { s.focus st.gang st.id with
      turn := c + 1,
      units := Sparse.put CoreUnits.reset s.units c { Sparse.get CoreUnits.reset s.units c with turn := st.place + 1 } }

/-- A strand that stands for the remote strands of a gang. -/
def remoteOf (gang : BitVec 32) : Strand := { Strand.idle with gang := gang }

/-- An event of the part comes to pass; one whose precondition does not hold does not. An instruction is no event. -/
def runEvent (i : Instr) (s : State) : Out :=
  if (encode i).isSome then .next s
  else
    match exec i (s.settledFor i) with
    | .refused (.notEnabled _) => .next (s.settledFor i)
    | x => x

/-- A temperature report of a cluster (R325). -/
def State.temperature (s : State) (cl : Nat) (t : BitVec 12) : State :=
  { s with mgmt := { s.mgmt with ctemp := Vector.ofFn fun i =>
      let c := s.mgmt.ctemp[i.val]'i.isLt
      if i.val = cl then { t := t, tmax := if c.seen && decide (t.toInt ≤ c.tmax.toInt) then c.tmax else t, seen := true } else c } }

/-- A pair of a strand on another package arrives at its home segment here: only a region of system scope has such pairs (R247).
A refusal goes back to its sender. -/
def State.remotePair (s : State) (gang : BitVec 32) (p : Pair) : State :=
  if ((s.region gang p.handle).map Region.sysScope).getD false && paPkg p.addr == s.mgmt.pkg.toNat then
    match s.receivePair gang p with
    | .ok s1 => s1
    | .error _ => s
  else s

/-- A strand of a gang on another package opens a region of system scope here too, under the lowest free handle (R247, R249): one
that overlaps no open region of the gang. -/
def State.remoteOpen (s : State) (gang : BitVec 32) (h : Nat) (r : Region) : State :=
  let free := decide (h < 64) && (s.region gang h).isNone && (List.range h).all fun i => (s.region gang i).isSome
  let clear := (List.range 64).all fun i =>
    match s.region gang i with
    | some x => decide (x.base.toNat + x.bytes ≤ r.base.toNat) || decide (r.base.toNat + r.bytes ≤ x.base.toNat)
    | none => true
  if ((s.gangOf gang).map Gang.multi).getD false && free && clear && r.sysScope && r.pkg != s.mgmt.pkg then
    { s.setRegion gang h
        (some { r with serial := s.regionNo, flags := 0, broken := false, batch := 0, entries := [] }) with
      regionNo := s.regionNo + 1 }
  else s

/-- A strand of a gang on another package does something to an open region of system scope (R247, R259). -/
def State.onRemote (s : State) (gang : BitVec 32) (h : Nat) (f : State → Region → State) : State :=
  match s.region gang h with
  | some r => if r.sysScope && ((s.gangOf gang).map Gang.multi).getD false then f s r else s
  | none => s

/-! ### Waiting -/

/-- A receive slot of the strand in focus to which something is on its way. -/
def State.relayDue (s : State) : Option Nat :=
  (List.range 8).find? fun i => !(s.cur.slotAt i).inflight.isEmpty || (s.cur.slotAt i).endSent

/-- A running copy of the strand in focus that can go on. -/
def State.copyDue (s : State) : Option Nat :=
  (List.range 8).find? fun i => (s.cur.copyAt i).st == 1#3

/-- The window of a strand that runs ahead goes on by itself: its oldest entry retires, or something admitted fires, or the
sequencer of its core admits. -/
def State.engines (s : State) : State :=
  match s.cur.window with
  | [] => s
  | en :: t =>
    if en.over then s.upd fun st => { st with window := t, wcount := 0 }
    else (s.drive).getD (s.sequence s.cur.core.toNat)

/-- What comes for the strand in focus in its turn, one thing at a time: a pair is received, relay data arrive, or a line of a copy
is moved. -/
def State.supplied (s : State) : State :=
  match s.cur.updq with
  | p :: t => (s.upd fun st => { st with updq := t }).takePair p
  | [] =>
    match s.relayDue with
    | some i =>
      if (s.cur.slotAt i).inflight.isEmpty then s.upd (Strand.relayEnd i) else s.upd (Strand.relayArrive i)
    | none =>
      match s.copyDue with
      | some i => s.copyProgress i
      | none => s

/-- The window of the strand in focus goes on when it runs ahead (R46), but not while it stops or steps (R114, R120). -/
def State.driven (s : State) : State := if s.free && s.cur.ahead && !s.cur.stepping then s.engines else s

/-- What the engines do for the strand in focus in its turn. -/
def State.attended (s : State) : State := s.supplied.driven

/-- A strand that waits tries its instruction again in its next turn. -/
def State.retry (s : State) : State := s.upd fun st => { st with stalled := false }

/-! ### Fetch (R70, R74) -/

/-- What a fetch at PC comes to. -/
inductive Fetched where
  | word (s : State) (w : BitVec 32)
  /-- The block cannot be fetched; its address. -/
  | fault (block : Word)
  /-- The block's sector is poisoned. -/
  | poison (s : State)

/-- The address of the fetch block of an address. -/
def blockOf (pc : Word) : Word := (pc.extractLsb' 6 58 ++ 0#6 : BitVec 64)

/-- Fetch the word at PC; bits [1:0] of PC do not take part. -/
def State.fetch (s : State) : Fetched :=
  match s.translate s.cur (blockOf s.cur.pc) .fetch with
  | .error _ => .fault (blockOf s.cur.pc)
  | .ok (l, _) =>
    match s.readLoc (l.plus (s.cur.pc.toNat % 64 / 4 * 4)) 4 with
    | .ok s1 x => .word s1 (BitVec.ofNat 32 x)
    | .kill s1 _ => .poison s1
    | .trap _ _ => .fault (blockOf s.cur.pc)

/-! ### The strand in focus -/

/-- The instruction of an element step, when one was under way, has executed, unless it waits or has taken a trap (R120). -/
def markStep (under : Bool) (o : Out) : Out :=
  match o with
  | .next s => .next (if under && s.cur.stepping && !s.cur.stalled then s.upd fun st => { st with stepDone := true } else s)
  | x => x

/-- Fetch, decode, execute; a word that is no instruction raises ILLEGAL_OP (R78). A fetch from a poisoned sector kills the
gang with reason 2, as a read does (DESIGN CHOICE, log 68). -/
noncomputable def front (s : State) : Out :=
  match s.fetch with
  | .fault b => trapAt s causeFetch b
  | .poison s1 => .next (s1.killSelf 2 0)
  | .word s1 w =>
    markStep s1.cur.stepping <|
      match decode w with
      | .ok i => exec i s1
      | .bad _ => exec (.noInstruction w) s1

/-- A run leaves the entry as it was: it can only wait. -/
def Ran.idle (r : Ran) (en : Entry) : Bool :=
  match r with
  | .wait _ x => x == en
  | _ => false

/-- A unit of a younger entry fires. -/
def State.fireYounger (s : State) : Option State :=
  (s.seats.zipIdx.drop 1).findSome? fun p =>
    if p.1.en.over then none else firstOf (fun u => fireUnit p.2 u s) p.1.toTry

/-- The oldest entry of the window runs: a strand in program order executes nothing while one is there that can go on (R61).
While it waits, younger entries fire, and the front end goes on. -/
noncomputable def runOldest (s : State) (en : Entry) (rest : List Entry) : Out :=
  match opOf en.ins with
  | none => .next (s.upd fun st => { st with window := rest, wcount := 0 })
  | some op =>
    if (runEntry op s en [] s.cur.window).idle en then
      match s.fireYounger with
      | some s1 => .next s1
      | none => front s
    else runHead op s

/-- The watchdog has expired (R121). -/
def Strand.expired (st : Strand) : Bool := st.wdog != 0#64 && decide (st.wdog.toNat ≤ st.wcount.toNat)

/-- An asynchronous user-level cause can be taken (R105, R113, R141). -/
def Strand.asyncDue (st : Strand) : Bool :=
  st.pendingCopy.isSome && !st.uiIn && !st.sup && !st.stepping && !st.leaving && !([24, 25, 26, 27, 28, 29].any st.pending)

/-- The stop sequence of a trap comes to its end, unless the gang is killed in it (R111, R114). -/
def State.finishStop (s : State) (t : TrapInfo) : State :=
  let s1 := s.completeSlices
  if s1.cur.stop.isSome then s1.takeTrap t else s1

/-- The kill of the strand in focus comes to its end: what was admitted completes, its writes perform and its pairs are received,
the copies end, and KILL is reported (R103, R119). -/
def State.finishKill (s : State) (reason : Word) : State :=
  match s.copyDue with
  | some i => s.copyProgress i
  | none =>
    let s1 := s.completeSlices.settle.drainQueue.upd fun st => { st.killed reason with telem := st.telem }
    match s1.gangOf s1.cur.gang with
    | some g => s1.killOver g.id g.object
    | none => s1

/-- What the strand in focus does, in the order of R105. A cause that is taken between two instructions comes before an
instruction that waits is tried again, so that an ACWAIT whose copy ends with its cause enabled finds it delivered (DESIGN
CHOICE, log 74). -/
noncomputable def runStrand (s : State) : Out :=
  match s.cur.dying, s.cur.stop with
  | some r, _ => .next (s.finishKill r)
  | none, some t => .next (s.finishStop t)
  | none, none =>
    if (oldestFault 0 s.cur.window).isSome then exec .supervisorTrap s
    else if s.cur.expired then exec .watchdog s
    else if s.cur.stepping && !s.cur.stalled && (s.cur.stepDone || !s.cur.window.isEmpty) then exec .elementStep s
    else if s.cur.asyncDue then exec .userTrapAsync s
    else if s.cur.stalled then .next s.retry
    else
      match s.cur.window with
      | [] => front s
      | en :: rest => if s.cur.ahead then front s else runOldest s en rest

/-- The strand in focus can execute its next instruction, or could but for a wait. -/
def State.atFront (s : State) : Bool :=
  s.live && s.cur.dying.isNone && s.cur.stop.isNone && (oldestFault 0 s.cur.window).isNone && !s.cur.expired && !s.cur.stepping &&
  !s.cur.asyncDue && (s.cur.window.isEmpty || s.cur.ahead)

/-- The next instruction of the strand in focus, with its word, when it can be fetched and is one. -/
noncomputable def State.nextInstr (s : State) : Option (BitVec 32 × Instr) :=
  match s.fetch with
  | .word _ w =>
    match decode w with
    | .ok i => some (w, i)
    | .bad _ => none
  | _ => none

/-- The writes that the strand in focus owes perform now, unless its next instruction may come before them and does not wait. -/
noncomputable def State.settled (s : State) : State :=
  if s.cur.late.isEmpty then s
  else
    match s.nextInstr with
    | some x => if s.atFront && !s.cur.stalled && s.mayPass x.1 x.2 then s else s.settle
    | none => s.settle

/-- What the strand does whose turn it is. -/
noncomputable def runTurn (s : State) : Out :=
  let s := s.attended.settled
  if s.live || s.cur.dying.isSome then runStrand s else .next s

/-- A turn of a strand in which its next instruction, when it is a scalar store, goes out and performs later. Any other turn is
as always. -/
noncomputable def lateTurn (s : State) : Out :=
  match s.nextInstr with
  | some x =>
    match if s.atFront && !s.cur.stalled && s.mayPass x.1 x.2 then s.sendStore x.2 else none with
    | some t => .next t
    | none => runTurn s
  | none => runTurn s

/-- One entry of the agenda, which `s` no longer holds. An arrival or a wait that is held stays on it (R137). -/
noncomputable def takeTurn (t : Turn) (s : State) : Out :=
  match t with
  | .event i => runEvent i s
  | .strand g i => .next (s.focus g i)
  | .core c => .next { s with turn := c }
  | .remoteArrive g =>
    if (s.barrier (remoteOf g) none).holds then .next { s with agenda := s.agenda ++ [t] }
    else .next (s.arrive (remoteOf g) none true)
  | .remoteWait g =>
    if (s.barrier (remoteOf g) none).open then .next (s.pass (remoteOf g) none)
    else .next { s with agenda := s.agenda ++ [t] }
  | .temperature c x => .next (s.temperature c x)
  | .power w => .next { s with mgmt := { s.mgmt with power := w } }
  | .frequency d x =>
    .next { s with mgmt := { s.mgmt with pring := Vector.ofFn fun i =>
      if i.val = d then x else s.mgmt.pring[i.val]'i.isLt } }
  | .hostMap b => .next { s with mgmt := { s.mgmt with hdm := b } }
  | .hostStore a n x => .next (s.hstWrite (.host a) n x)
  | .provision k x =>
    .next { s with keys := Vector.ofFn fun i => if i.val = k then x else s.keys[i.val]'i.isLt }
  | .route p => .next { s with routes := if s.routes.contains p || p == s.mgmt.pkg then s.routes else s.routes ++ [p] }
  | .logMove g h a k =>
    match s.region g h with
    | some r => .next (s.setRegion g h (some (r.moveToLog a k)))
    | none => .next s
  | .remotePair g p => .next (s.remotePair g p)
  | .remoteOpen g h r => .next (s.remoteOpen g h r)
  | .remoteSeal g h => .next (s.onRemote g h fun s r => s.setRegion g h (some r.seal))
  | .remoteFlush g h => .next (s.onRemote g h fun s _ => s.applyRegion g h true)
  | .remoteClose g h => .next (s.onRemote g h fun s _ => s.closeRegion g true h)
  | .late => lateTurn s.nextTurn
  | .perform i => .next (s.perform i)
  | .slow b => .next (s.upd fun st => { st with slow := b })
  | .ahead b => .next (s.upd fun st => { st with ahead := b })

/-- A step after time has passed. -/
noncomputable def stepAt (s : State) : Out :=
  match s.agenda with
  | t :: r => takeTurn t { s with agenda := r }
  | [] => runTurn s.nextTurn

/-! ### Placing a word -/

/-- The page of an address. -/
def pageOf (a : Word) : Nat := a.toNat % 2 ^ 48 / 2 ^ 16 * 2 ^ 16

/-- A strand as a launch leaves it, at address 0x10000 (R47, R56). -/
def placedStrand : Strand :=
  { Strand.idle with phase := .resident, pc := 0x10000, gvlen := 16384, grsz := 2048, srseed := seedStored (0x2545F491 ^^^ 1),
                     gang := 1, gangSize := 1 }

/-- Parameters of a gang of one strand. -/
def placedParams : Params :=
  { ptroot := 0, asid := 0, code := 0x10000, entry := 0x100, nstrand := 1, perCore := 4, grszCode := 0, gvlenCode := 14,
    weight := 1, place := 0, argbuf := 0, argmask := 0, wdog := 0, compl := 0 }

/-- The gang of that strand. -/
def placedGang (s : State) : Gang :=
  launchGang s { id := 1, queue := 0, first := 0, size := 1, mask := 1, commit := none, loading := none, object := 1 }
    placedParams

/-- The leaf that maps a page of 64 KiB to the page at 0x10000, with every permission. -/
def placedLeaf : Word := 0x1003F

/-- The strand that is to run the word: the one in focus when it stands on a core, with nothing under way. -/
def State.runner (s : State) : Strand :=
  let st := if s.live then s.cur else placedStrand
  { st with pc := st.pc &&& 0x00007FFFFFFFFFFC, window := [], stalled := false, stepping := false,
            wdog := 0, enDone := false, enFault := false, stop := none, dying := none, leaving := false }

/-- The state that runs the word `w` next. -/
def State.placeWord (s : State) (w : Nat) : State :=
  let st := s.runner
  let pa := s.mgmt.pkg.toNat * 2 ^ 40 + 0x10000 + st.pc.toNat % 2 ^ 16
  let s1 := if s.live then s else { s with gangs := s.gangs ++ [placedGang s] }
  let s2 := { s1 with
    cur := st,
    tlb := { core := st.core.toNat, asid := st.asid, va := pageOf st.pc, bits := 16,
             pte := placedLeaf + BitVec.ofNat 64 (s.mgmt.pkg.toNat * 2 ^ 40) } :: s.tlb,
    permits := { page := s.mgmt.pkg.toNat * 2 ^ 24 + 1, object := 1 } :: s.permits,
    poison := Sparse.put false s.poison (pa / 64) false, turn := st.core.toNat, agenda := [],
    units := Sparse.put CoreUnits.reset s.units st.core.toNat
      { Sparse.get CoreUnits.reset s.units st.core.toNat with turn := st.place } }
  s2.rawWrite pa 4 w

end Sys2Proof.Machine
end

