-- ==== Sys2Proof/Machine/Step.lean ====
section
/-! DEFINITION. One step of the machine: an input or event that is due, else what the strand in focus does next. -/

namespace Sys2Proof.Machine

/-- One step. Time passes; the oldest entry of the agenda comes to pass, or, with none, the strand in focus does what R105
puts first. -/
noncomputable def step (s : State) : Host.Outcome State Fault Refusal := stepAt s.clock

/-- A state whose next step fetches and runs the instruction with the bits `w` (the words of this machine are 32 bits wide):
a strand stands on a core, nothing else is due, and its translation buffer and the execute-permit map hold the page of its
PC. -/
def State.withFetchWord (s : State) (_nbits w : Nat) : State := s.placeWord w

end Sys2Proof.Machine
end

