-- ==== Sys2Proof/Safety.lean ====
section
/-! DEFINITION. The terms of the claims: states at rest, the invariant of a step, and what each family of instructions gives,
written from the tables of the spec in plain arithmetic, apart from the meanings. -/

namespace Sys2Proof.Machine

/-! ### States -/

/-- A strand whose FRM holds one of its four modes (R56) and whose window holds at most 16 entries (R39, R63). -/
structure Strand.Ok (st : Strand) : Prop where
  frm : 1 ≤ st.frm.toNat ∧ st.frm.toNat ≤ 4
  window : st.window.length ≤ 16

/-- What every step keeps: the memories, the link tags, the poison marks and the named barriers in their canonical form, and
every strand of the package legal; the sparse tables of the package keep that form too. -/
structure State.Inv (s : State) : Prop where
  memory : Memory.wf s = true
  tags : Sparse.wf none s.links = true
  poison : Sparse.wf false s.poison = true
  wsPoison : Sparse.wf false s.wsPoison = true
  queues : Sparse.wf Queue.reset s.queues = true
  islands : Sparse.wf Island.reset s.islands = true
  units : Sparse.wf CoreUnits.reset s.units = true
  busy : Sparse.wf none s.lastBusy = true
  barriers : ∀ g ∈ s.gangs, Sparse.wf (Vector.replicate 32 (Barrier.fresh 0)) g.named = true
  strands : ∀ st ∈ s.strands, st.Ok

/-- The strand in focus has an empty window, runs in program order and is in no element step. -/
structure State.AtRest (s : State) : Prop where
  window : s.cur.window = []
  inOrder : s.cur.ahead = false
  free : s.cur.stepping = false

/-- None of the registers of a list is pending (R40). -/
def State.Ready (s : State) (l : List (BitVec 5)) : Prop := ∀ r ∈ l, s.cur.pending r = false

/-- No partial of an update region waits to be applied anywhere (R257), and none stands in a log, where a write could change
it (R254). -/
structure State.Quiet (s : State) : Prop where
  due : ∀ line, s.pressDue line = false
  logs : ∀ g ∈ s.gangs, ∀ r, some r ∈ g.regions.toList → ∀ e ∈ r.entries, e.unit = none

/-! ### Outcomes -/

/-- The instruction runs, writes `w` to g[A] and nothing else, and the strand goes on to the next word. -/
def State.Sets (s : State) (i : Instr) (a : BitVec 5) (w : Word) : Prop := exec i s = .next (s.wg a w).advance

/-- The same for a floating-point result, whose flags FFLAGS gathers. -/
def State.SetsFp (s : State) (i : Instr) (a : BitVec 5) (x : Res) : Prop :=
  exec i s = .next ((s.wg a (BitVec.ofNat 64 x.bits)).upd fun st => { st.advance with fflags := st.fflags ||| x.fl })

/-- The instruction runs, the strand goes to `t`, and nothing else changes. -/
def State.GoesTo (s : State) (i : Instr) (t : Word) : Prop := exec i s = .next (s.goto t)

/-- The instruction runs and takes a precise trap with this cause and TVAL, TELEM 0 and TEPC at itself. -/
def State.Traps (s : State) (i : Instr) (cause : BitVec 8) (tval : Word) : Prop :=
  exec i s = .next (s.trap { cause := cause, tepc := s.cur.pc, tval := tval, elem := 0, win := none, async := false,
                             step := false })

/-- The instruction waits: it stays at PC, and nothing else changes. -/
def State.Waits (s : State) (i : Instr) : Prop :=
  ∃ q, exec i s = .next (s.upd fun st => { st with stalled := true, quiet := q })

/-- The fetch block that holds the instruction at PC (R71). -/
def State.block (s : State) : Word := BitVec.ofNat 64 (s.cur.pc.toNat / 64 * 64)

/-- Change the strand in focus, which goes on to the next word. -/
def State.Then (s : State) (f : Strand → Strand) : State := (s.upd f).advance

/-! ### Memory -/

/-- The value of the `n` bytes at a place, little-endian. -/
def State.peek (s : State) (l : Loc) (n : Nat) : Nat :=
  match l with
  | .dev pa => s.rawRead pa n
  | .host a => s.hostRawRead a n

/-- A read at a place meets no poisoned sector (R20). -/
def State.Clean (s : State) (l : Loc) : Prop := ∀ pa, l = .dev pa → s.poisoned pa = false

/-- Byte `k` of a value. -/
def byteOf (x k : Nat) : Byte := BitVec.ofNat 8 (x / 256 ^ k)

/-- `t` is `s` after a strand's store of the low `n` bytes of `x` at a place: those bytes and no others have changed, and
of the link tags only the tag of another strand on that line, which is gone (R97). -/
structure State.Stored (s t : State) (l : Loc) (n x : Nat) : Prop where
  rest : t = { s with mem := t.mem, hostMem := t.hostMem, links := t.links }
  dev : ∀ pa, t.byte pa =
    match l with
    | .dev b => if b ≤ pa ∧ pa < b + n then byteOf x (pa - b) else s.byte pa
    | .host _ => s.byte pa
  host : ∀ a, t.hostByte a =
    match l with
    | .dev _ => s.hostByte a
    | .host b => if b ≤ a ∧ a < b + n then byteOf x (a - b) else s.hostByte a
  tags : ∀ line, t.tag line =
    match l with
    | .dev b => if line = b / 64 ∧ ¬ (∃ k, s.tag line = some ⟨s.cur.gang, s.cur.id, k⟩) then none else s.tag line
    | .host _ => s.tag line

/-! ### Vector registers -/

/-- No source of the instruction is bound for reading, and no destination for writing (R212, R213). -/
def Strand.unstreamed (st : Strand) (i : Instr) : Prop :=
  (∀ r ∈ (st.foot i).vs, st.streamSlot false r = none) ∧ (∀ r ∈ (st.foot i).vd, st.streamSlot true r = none)

/-- The strand is at rest, the instruction has no reserved value, and its registers are bound to no stream. -/
structure State.Open (s : State) (i : Instr) : Prop where
  rest : s.AtRest
  formed : illFormed i = none
  unstreamed : s.cur.unstreamed i

/-- The etype of VTYPE and its SEW (R51). -/
def State.etype (s : State) : Nat := s.cur.vtype.toNat % 16
def State.sew (s : State) : Nat := sewOf s.etype

/-- N = RL × VL (R35). -/
def State.count (s : State) : Nat := s.cur.rl.toNat * s.cur.vl.toNat

/-- Element `e` passes a guard field: there is no guard, or its bit is 1 (R53). -/
def State.guard (s : State) (m : BitVec 3) (e : Nat) : Bool := m == 0#3 || s.cur.mbit m e

/-- The last source of a VV, VS or VI form for element `e`, as a w-bit pattern (R156). -/
def State.second (s : State) (f : BitVec 2) (c : BitVec 5) (w e : Nat) : Nat :=
  if f = 0 then s.cur.elem c w e else if f = 1 then (s.rg c).toNat % 2 ^ w else (BitVec.ofInt w c.toInt).toNat

/-- The same as an index, count or amount: the k of R156, for the forms VS and VI. -/
def State.amount (s : State) (f : BitVec 2) (c : BitVec 5) : Nat :=
  if f = 1 then (s.rg c).toNat else (BitVec.ofInt 64 c.toInt).toNat

/-- `t` is `s` after a windowed instruction has entered an empty window, run and retired: the strand stands at the next
word, and besides the vector and mask registers of `ds`, the g registers of `gs` and FFLAGS nothing has changed. -/
structure State.Retired (s t : State) (ds : List VReg) (gs : List (BitVec 5)) : Prop where
  rest : t = { s with cur := { s.cur with
    pc := s.cur.pc + 4, wcount := 0, v := t.cur.v, m := t.cur.m, g := t.cur.g, fflags := t.cur.fflags } }
  vectors : ∀ q, q ∉ ds → t.cur.rbits q = s.cur.rbits q
  scalars : ∀ x, x ∉ gs → t.rg x = s.rg x

/-- The units, of width `w`, that an instruction leaves in a destination of `n` of them: an active one holds `f`, an
inactive one is zero under MPOL, one of the tail is zero under TPOL, and every other is as before (R54). With VL = 0
nothing changes (R36). -/
def State.Units (s t : State) (d : VReg) (w n : Nat) (act : Nat → Bool) (f : Nat → Nat) : Prop :=
  ∀ e, w * (e + 1) ≤ d.bits →
    bitsAt (t.cur.rbits d) w e =
      if s.cur.vl ≠ 0 ∧ e < n ∧ act e = true then f e % 2 ^ w
      else if s.cur.vl ≠ 0 ∧ e < n ∧ s.cur.vtype.getLsbD 4 = true then 0
      else if s.cur.vl ≠ 0 ∧ n ≤ e ∧ s.cur.vtype.getLsbD 5 = true then 0
      else bitsAt (s.cur.rbits d) w e

/-- FFLAGS gathers the flags of the active ones of `n` units (R56, R151). -/
def State.Gathers (s t : State) (n : Nat) (act : Nat → Bool) (f : Nat → Flags) : Prop :=
  ∀ k, t.cur.fflags.getLsbD k = true ↔
    s.cur.fflags.getLsbD k = true ∨ s.cur.vl ≠ 0 ∧ ∃ e < n, act e = true ∧ (f e).getLsbD k = true

/-- The instruction runs, retires and leaves these units in its one destination, without a flag. -/
def State.Writes (s : State) (i : Instr) (d : VReg) (w n : Nat) (act : Nat → Bool) (f : Nat → Nat) : Prop :=
  ∃ t, exec i s = .next t ∧ s.Retired t [d] [] ∧ s.Units t d w n act f ∧ t.cur.fflags = s.cur.fflags

/-- The same with the flags of its units. -/
def State.WritesFp (s : State) (i : Instr) (d : VReg) (w n : Nat) (act : Nat → Bool) (f : Nat → Res) : Prop :=
  ∃ t, exec i s = .next t ∧ s.Retired t [d] [] ∧ s.Units t d w n act (fun e => (f e).bits) ∧
    s.Gathers t n act fun e => (f e).fl

/-- The units of a destination of which only those of `dest` are destination elements: an active one holds `f`, an inactive
one is zero under MPOL, and every other is as before (R169). -/
def State.Scatters (s t : State) (d : VReg) (w : Nat) (dest act : Nat → Bool) (f : Nat → Nat) : Prop :=
  ∀ e, w * (e + 1) ≤ d.bits →
    bitsAt (t.cur.rbits d) w e =
      if s.cur.vl ≠ 0 ∧ dest e = true ∧ act e = true then f e % 2 ^ w
      else if s.cur.vl ≠ 0 ∧ dest e = true ∧ s.cur.vtype.getLsbD 4 = true then 0
      else bitsAt (s.cur.rbits d) w e

/-- The instruction runs, retires and returns `w` to g[A], and nothing else changes (R40). -/
def State.Returns (s : State) (i : Instr) (a : BitVec 5) (w : Word) : Prop :=
  exec i s = .next ((s.upd fun st => { st with pc := st.pc + 4, wcount := 0 }).wg a w)

/-- The instruction enters, runs and retires with this effect on its strand, which stands at the next word, and nothing else
changes. -/
def State.Does (s : State) (i : Instr) (f : Strand → Strand) : Prop :=
  exec i s = .next (s.upd fun st => { f st with pc := st.pc + 4, wcount := 0 })

/-- `t` is `s` after an instruction of the matrix engine: only the tiles and FFLAGS may have changed. -/
def State.Tiled (s t : State) : Prop :=
  t = { s with cur := { s.cur with pc := s.cur.pc + 4, wcount := 0, t := t.cur.t, fflags := t.cur.fflags } }

/-- Element (i, j) of tile `t` in the tile etype of MVL (R224). -/
def State.tileAt (s : State) (t : BitVec 2) (i j : Nat) : Nat :=
  let w := sewOf s.cur.tetype.toNat
  bitsAt (s.cur.t.toList.getD t.toNat 0).toNat w (i * (2048 / w) + j)

/-- An instruction that leaves element (i, j) of tile `t`, for the (i, j) that `p` selects, at `f i j`, and every other
element of every tile as it was. -/
def State.Folds (s : State) (x : Instr) (t : BitVec 2) (p : Nat → Nat → Bool) (f : Nat → Nat → Nat) : Prop :=
  ∃ u, exec x s = .next u ∧ s.Tiled u ∧
    ∀ (q : BitVec 2) (i j : Nat), j < 2048 / sewOf s.cur.tetype.toNat → i < 2048 / sewOf s.cur.tetype.toNat →
      u.tileAt q i j = if q = t ∧ p i j = true then f i j % 2 ^ sewOf s.cur.tetype.toNat else s.tileAt q i j

/-! ### Vector memory -/

/-- None of these registers is a relay port (R215). -/
def State.Unrelayed (s : State) (l : List (BitVec 5)) : Prop := ∀ r ∈ l, ∀ send, s.cur.relaySlot send r = none

/-- The load runs and its active elements receive the `n` bytes at their addresses, for every way in which these translate
(R196); no memory changes. -/
def State.Reads (s : State) (i : Instr) (a : BitVec 5) (m : BitVec 3) (addr : Nat → Word) : Prop :=
  ∀ l : Nat → Loc,
    (∀ e < s.count, s.guard m e = true → s.place (addr e) (s.sew / 8) .read = .ok (l e) ∧ s.Clean (l e)) →
    s.Writes i (.v a) s.sew s.count (s.guard m) fun e => s.peek (l e) (s.sew / 8)

/-- An address translates to a place for writing whatever the memories hold, as one does whose page is in the TLB. -/
def State.Fixed (s : State) (va : Word) (n : Nat) (l : Loc) : Prop :=
  ∀ mem hostMem links poison, ({ s with mem := mem, hostMem := hostMem, links := links, poison := poison } : State).place
    va n .write = .ok l

/-- The byte that a write puts at a place. -/
def Span.byteAt (x : Span) (l : Loc) : Option Byte :=
  match x.loc, l with
  | .dev b, .dev a => if b ≤ a ∧ a < b + x.n then some (byteOf x.x (a - b)) else none
  | .host b, .host a => if b ≤ a ∧ a < b + x.n then some (byteOf x.x (a - b)) else none
  | _, _ => none

/-- The byte that the last of a list of writes to a place puts there. -/
def lastByte (l : List Span) (p : Loc) : Option Byte := l.reverse.findSome? (·.byteAt p)

/-- A write starts in a line of device memory. -/
def Span.inLine (x : Span) (line : Nat) : Prop := ∃ b, x.loc = .dev b ∧ b / 64 = line

/-- `t` is `s` after a strand's writes in the order of the list: each byte that they cover holds what the last of them puts
there, and no other byte changes; of the link tags those of other strands on their lines are gone, and a poison mark can
only be gone from a sector that they touch (R20, R97, R198). -/
structure State.StoredAll (s t : State) (l : List Span) : Prop where
  rest : t = { s with mem := t.mem, hostMem := t.hostMem, links := t.links, poison := t.poison }
  dev : ∀ pa, t.byte pa = (lastByte l (.dev pa)).getD (s.byte pa)
  host : ∀ a, t.hostByte a = (lastByte l (.host a)).getD (s.hostByte a)
  gone : ∀ line, (∃ x ∈ l, x.inLine line) → (¬ ∃ k, s.tag line = some ⟨s.cur.gang, s.cur.id, k⟩) → t.tag line = none
  kept : ∀ line, (∀ x ∈ l, ¬ x.inLine line) ∨ (∃ k, s.tag line = some ⟨s.cur.gang, s.cur.id, k⟩) → t.tag line = s.tag line
  clears : ∀ n, Sparse.get false t.poison n = true → Sparse.get false s.poison n = true
  keeps : ∀ n, (∀ x ∈ l, ∀ i < 64, x.covers (64 * n + i) = false) → Sparse.get false t.poison n = Sparse.get false s.poison n

/-- The store runs, writes these, retires, and nothing else changes. -/
def State.Stores (s : State) (i : Instr) (l : List Span) : Prop :=
  ∃ t, s.StoredAll t l ∧ exec i s = .next (t.upd fun st => { st with pc := st.pc + 4, wcount := 0 })

/-- The active elements of an instruction, in ascending order. -/
def State.actives (s : State) (m : BitVec 3) : List Nat := (List.range s.count).filter (s.guard m)

/-! ### Events -/

/-- The event comes to pass, and leaves `t`. -/
def State.Leads (s : State) (i : Instr) (t : State) : Prop := exec i s = .next t

/-- The event comes to pass, and launch queue `q` is `y` afterwards; nothing else changes. -/
def State.SetsQueue (s : State) (i : Instr) (q : Nat) (y : Queue) : Prop :=
  ∃ m, s.Leads i { s with queues := m } ∧ ∀ r, Sparse.get Queue.reset m r = if r = q then y else s.queue r

/-- The event comes to pass, and island `n` is `y` afterwards; nothing else changes. -/
def State.SetsIsland (s : State) (i : Instr) (n : Nat) (y : Island) : Prop :=
  ∃ m, s.Leads i { s with islands := m } ∧ ∀ k, Sparse.get Island.reset m k = if k = n then y else s.island k

/-- The physical address of a place: HOSTPKG gives that of host memory (R309). -/
def State.physical (s : State) (l : Loc) : Nat :=
  match l with
  | .dev b => b
  | .host a => s.mgmt.hostpkg.toNat * 2 ^ 40 + a

/-- `t` is `s` after a write of the low `n` bytes of `x` at a place by an agent that is no strand: those bytes and no others
have changed, and a link tag of the line is gone (R97). With `code` set, the objects that hold one of the bytes leave the
execute-permit map (R334). -/
structure State.Wrote (s t : State) (code : Bool) (l : Loc) (n x : Nat) : Prop where
  rest : t = { s with mem := t.mem, hostMem := t.hostMem, links := t.links, permits := t.permits }
  dev : ∀ pa, t.byte pa =
    match l with
    | .dev b => if b ≤ pa ∧ pa < b + n then byteOf x (pa - b) else s.byte pa
    | .host _ => s.byte pa
  host : ∀ a, t.hostByte a =
    match l with
    | .dev _ => s.hostByte a
    | .host b => if b ≤ a ∧ a < b + n then byteOf x (a - b) else s.hostByte a
  tags : ∀ line, t.tag line =
    match l with
    | .dev b => if line = b / 64 then none else s.tag line
    | .host _ => s.tag line
  permits : ∀ p, p ∈ t.permits ↔ p ∈ s.permits ∧
    ¬ (code = true ∧ ∃ r ∈ s.permits, r.object = p.object ∧
      s.physical l / 65536 ≤ r.page ∧ r.page ≤ (s.physical l + n - 1) / 65536)

/-- `n` doublewords, each of them readable at its host physical address from `a` on. -/
def State.Doublewords (s : State) (a n : Nat) (w : List Word) : Prop :=
  w.length = n ∧ ∀ i < n, ∃ l, s.hostLoc (a + 8 * i) = some l ∧ s.Clean l ∧ w.getD i 0 = BitVec.ofNat 64 (s.peek l 8)

/-- The packet `k` slots from PROG of queue `q` has this TYPE and SIZE and these doublewords, all its slots are filled, and it
does not straddle the ring's end (R312, R315). -/
structure State.PacketIs (s : State) (q k type size : Nat) (w : List Word) : Prop where
  words : ∀ j < size, s.Doublewords ((s.queue q).slotAddr (k + j)) 8 ((w.drop (8 * j)).take 8)
  length : w.length = 8 * size
  head : (w.headD 0).toNat = type + 256 * size
  filled : k + size ≤ ((s.queue q).tail - (s.queue q).prog).toNat
  ring : ((s.queue q).tail - (s.queue q).prog).toNat ≤ 2 ^ (s.queue q).liveLog
  inRing : ((s.queue q).prog.toNat + k) % 2 ^ (s.queue q).liveLog + size ≤ 2 ^ (s.queue q).liveLog

/-- The queue after the device has consumed `n` slots. -/
def Queue.after (x : Queue) (n : Nat) : Queue := { x with prog := x.prog + BitVec.ofNat 32 n, mirDirty := x.liveMirEn }

/-- The queue with this at its head, since now. -/
def State.holding (s : State) (x : Queue) (h : Head) : Queue := { x with head := h, headSince := s.tick, aged := false }

/-- A completion record (R316). -/
def State.completion (s : State) (gang : BitVec 32) (status reason : Nat) : Nat :=
  gang.toNat + status * 2 ^ 32 + reason * 2 ^ 40 + s.tick.toNat * 2 ^ 64

/-- Gangs switched out for the head of queue `q` may resume. -/
def State.freed (s : State) (q : Nat) : List Gang := s.gangs.map fun g => if g.outFor = some q then { g with outFor := none } else g

/-- The accepted KERNEL at the head of queue `q` is the last that its code object has: no live gang and no other head holds
it (R334). -/
def State.LastOf (s : State) (q object : Nat) : Prop :=
  acceptedObject (s.queue q).head = some object ∧ (∀ g ∈ s.gangs, g.object = object → g.killed ≠ none) ∧
  ∀ r, r ≠ q → acceptedObject (s.queue r).head ≠ some object

/-- The event comes to pass in `s` and leaves what a launch error (R317, R334) makes of `b`: the `n` slots are consumed, the
pages of an object without a KERNEL left leave the execute-permit map, the record with this STATUS is written, QERR is set, and
the queue goes on. -/
def State.Refuses (s b : State) (i : Instr) (q n : Nat) (p : Params) (code status : Nat) : Prop :=
  ∀ l, b.hostLoc p.compl.toNat = some l → ∃ (v u : State) (m : _),
    v = { b with permits := v.permits } ∧ (∀ x, x ∈ v.permits ↔ x ∈ b.permits ∧ ¬ b.LastOf q x.object) ∧
    v.Wrote u true l 16 (b.completion 0 status 0) ∧ s.Leads i { u with queues := m, gangs := b.freed q } ∧
    ∀ r, Sparse.get Queue.reset m r =
      if r = q then
        let x := if n = 0 then b.queue q else (b.queue q).after n
        { b.holding x .none with errCode := BitVec.ofNat 8 code, errSlot := x.prog }
      else b.queue r

/-- A launch error, of the state as it is. -/
def State.LaunchError (s : State) (i : Instr) (q n : Nat) (p : Params) (code status : Nat) : Prop :=
  s.Refuses s i q n p code status

/-- The queue stops at a malformed packet (R317). -/
def Queue.stop (x : Queue) (code : Nat) : Queue :=
  { x with stopped := true, errCode := BitVec.ofNat 8 code, errSlot := x.prog }

/-- The parameters that the 16 doublewords of a KERNEL give (R313). -/
def kernelParams (w : List Word) : Params :=
  let d := fun i lo n => (w.getD i 0).toNat / 2 ^ lo % 2 ^ n
  { ptroot := w.getD 1 0, asid := BitVec.ofNat 16 (d 2 0 16), code := w.getD 3 0, entry := BitVec.ofNat 32 (d 4 0 32),
    nstrand := d 4 32 32, perCore := d 5 0 8, grszCode := d 5 8 8, gvlenCode := d 5 16 8, weight := d 5 24 8,
    place := d 5 32 8, argbuf := w.getD 6 0, argmask := BitVec.ofNat 32 (d 7 0 32), wdog := w.getD 8 0, compl := w.getD 9 0 }

/-- The reserved bytes of a KERNEL are zero (R312, R313). -/
def kernelZeros (w : List Word) : Prop :=
  let d := fun i lo => (w.getD i 0).toNat / 2 ^ lo
  d 0 16 = 0 ∧ d 2 16 = 0 ∧ d 5 40 = 0 ∧ d 7 32 = 0 ∧ ∀ i, 10 ≤ i → w.getD i 0 = 0

/-- `t` is `s` with a gang launched on the cores of a list, one for each of its groups: the gang is there with no region and a
fresh barrier, every one of its strands starts as R47 and R56 say, and every other strand is as before. -/
structure State.Launched (s t : State) (l : Launch) (p : Params) (cores : List Nat) (args : List (Nat × Word)) : Prop where
  memory : t.mem = s.mem ∧ t.hostMem = s.hostMem ∧ t.ws = s.ws ∧ t.links = s.links ∧ t.mgmt = s.mgmt
  others : ∀ st ∈ s.strands, st.phase ≠ .absent → st ∈ t.strands
  gang : ∃ g ∈ t.gangs, g.id = l.id ∧ g.params = p ∧ g.size = l.size ∧ g.barrier = Barrier.fresh l.size ∧ g.killed = none ∧
    g.placed = true ∧ g.queue = l.queue ∧ g.commit = l.commit ∧ ∀ h : Fin 64, g.regions[h.val] = none
  strands : ∀ i < p.nstrand, ∃ st ∈ t.strands, st.id = BitVec.ofNat 32 (l.first + i) ∧ st.gang = l.id ∧
    st.gangSize = BitVec.ofNat 32 l.size ∧ st.phase = (if l.commit.isSome then .held else .resident) ∧
    st.pc = p.code + p.entry.setWidth 64 ∧ st.core = BitVec.ofNat 10 (cores.getD (i / p.perCoreOf) 0) ∧
    (∀ r, st.rg r = if r = 0 then 0 else argOf args r.toNat) ∧ st.grsz = BitVec.ofNat 16 (2048 * 2 ^ p.grszCode) ∧
    st.gvlen = BitVec.ofNat 17 (min (2 ^ p.gvlenCode) (8 * (2048 * 2 ^ p.grszCode))) ∧ st.sup = false ∧ st.window = [] ∧
    st.vl = 0 ∧ st.frm = 1 ∧ st.ptroot = p.ptroot.extractLsb' 12 34 ∧ st.asid = p.asid ∧ st.wdog = p.wdog

/-! ### Images -/

/-- Values put side by side, each at its bit. -/
def packed (l : List (Nat × Nat)) : Nat := (l.map fun f => f.1 * 2 ^ f.2).sum

/-- The first part of the image of strand `st` stands at its TWIN, as a trap record and as part of a full image (R64, R115):
word for word, with a record and a partial map for each entry of the window. -/
def State.HoldsRecord (t : State) (st : Strand) (full : Bool) (tepc : Word) : Prop :=
  let at_ := fun (o n : Nat) => t.physRead (st.twinAddr + o) n
  at_ 0 4 = 0x06405348 ∧ at_ 0x04 2 = 1 ∧
  at_ 0x06 2 = packed [(full.toNat, 0), (st.tilesOn.toNat, 1), (st.sup.toNat, 2), (st.uiIn.toNat, 3)] ∧
  at_ 0x08 8 = tepc.toNat ∧ at_ 0x10 4 = st.grsz.toNat ∧ at_ 0x14 4 = st.gvlen.toNat ∧ at_ 0x18 4 = st.window.length ∧
  (∀ k : Fin 8, (at_ 0x1C 1).testBit k.val = st.cx[k.val].isSome ∧ (at_ 0x1D 1).testBit k.val = st.k[k.val].status.getLsbD 0) ∧
  at_ 0x1E 2 = 0 ∧ at_ 0x20 8 = 0x29640 + 36 * st.grsz.toNat ∧ at_ 0x28 8 = packed [(st.pDone.toNat, 0), (st.pFault.toNat, 8)] ∧
  at_ 0x30 8 = packed [(st.id.toNat, 0), (st.gang.toNat, 32)] ∧ at_ 0x38 8 = st.wcount.toNat ∧
  (∀ k : BitVec 5, at_ (0x40 + 8 * k.toNat) 8 = (st.rg k).toNat) ∧
  (∀ k : Fin 6, at_ (0x140 + 8 * k.val) 8 = st.shadow[k.val].toNat) ∧ at_ 0x170 16 = 0 ∧
  at_ 0x180 8 = st.vl.toNat ∧ at_ 0x188 8 = st.rl.toNat ∧ at_ 0x190 8 = st.vtype.toNat ∧ at_ 0x198 8 = st.frm.toNat ∧
  at_ 0x1A0 8 = st.fflags.toNat ∧ at_ 0x1A8 8 = st.repro.toNat ∧ at_ 0x1B0 8 = packed [(st.mvl.toNat, 0), (st.tetype.toNat, 8)] ∧
  at_ 0x1B8 8 = packed [(st.tilesOn.toNat, 0), (st.tilesAllow.toNat, 1)] ∧ at_ 0x1C0 8 = st.srseed.toNat ∧
  at_ 0x1C8 8 = st.uivec.toNat * 64 ∧ at_ 0x1D0 8 = st.uicause.toNat ∧ at_ 0x1D8 8 = st.uiepc.toNat ∧
  at_ 0x1E0 8 = packed [(st.uiIn.toNat, 0), (st.enDone.toNat, 1), (st.enFault.toNat, 2), (st.enTrapu.toNat, 3),
    (st.pDone.toNat, 8), (st.pFault.toNat, 16)] ∧
  at_ 0x1E8 8 = st.cxldr.toNat * 64 ∧ at_ 0x1F0 8 = packed [(st.grantNext.toNat, 0), (st.grantPend.toNat, 31)] ∧
  at_ 0x1F8 8 = 0 ∧
  (∀ k en, st.window[k]? = some en →
    let of := fun (o n : Nat) => at_ (0x200 + 96 * k + o) n
    of 0 4 = en.word.toNat ∧ of 4 4 = packed [(1, 0), (en.tailDone.toNat, 1)] ∧ of 8 4 = en.vl.toNat ∧
    of 12 2 = en.rl.toNat ∧ of 14 2 = en.vtype.toNat ∧ of 16 8 = en.opb.toNat ∧ of 24 8 = en.opc.toNat ∧
    of 32 8 = en.opd.toNat ∧ of 40 4 = en.pidx ∧ of 44 4 = en.ngrp ∧
    of 48 8 = packed [(en.frm.toNat, 0), (en.repro.toNat, 3), (en.mvl.toNat, 4), (en.tet.toNat, 12)] ∧
    of 56 8 = en.opa.toNat ∧ of 64 32 = en.done.toNat ∧ at_ (0x800 + 1028 * k) 1028 = en.part.toNat) ∧
  ∀ k < 16, st.window.length ≤ k → at_ (0x200 + 96 * k) 96 = 0 ∧ at_ (0x800 + 1028 * k) 1028 = 0

/-- The full image of a strand stands at its TWIN (R115 to R117). The ripe tags are all set where no entry of the window has
still to write (R64). -/
def State.HoldsImage (t : State) (st : Strand) : Prop :=
  let at_ := fun (o n : Nat) => t.physRead (st.twinAddr + o) n
  let g := st.grsz.toNat
  t.HoldsRecord st true st.pc ∧
  (∀ i : Fin 8,
    let x := st.k[i.val]
    let of := fun (o n : Nat) => at_ (0x4840 + 32 * i.val + o) n
    of 0 8 = x.base.toNat ∧ of 8 4 = x.stride.toNat ∧ of 12 1 = x.format.toNat ∧ of 13 1 = x.mode.toNat ∧
    of 14 1 = x.reg.toNat ∧ of 15 1 = x.status.toNat ∧ of 16 8 = x.scaleBase.toNat ∧ of 24 4 = x.length.toNat ∧
    of 28 4 = x.progress.toNat) ∧
  (∀ i : Fin 8, at_ (0x4940 + 32 * i.val) 32 = st.cb[i.val].toNat) ∧
  (∀ i : Fin 8, at_ (0x4A40 + 256 * i.val) 256 = (st.cx[i.val].map BitVec.toNat).getD 0) ∧
  at_ 0x5240 16384 = st.slalom.toNat ∧ (∀ i : Fin 8, at_ (0x9240 + 4096 * i.val) 4096 = st.m[i.val].toNat) ∧
  (∀ i : Fin 4, at_ (0x19240 + 16384 * i.val) 16384 = if st.tilesOn = true then st.t[i.val].toNat else 0) ∧
  (∀ i : Fin 32, at_ (0x29240 + g * i.val) g = st.v[i.val].toNat % 2 ^ (8 * g)) ∧
  (st.window = [] → (∀ i < 8, at_ (0x11240 + 4096 * i) 4096 = 2 ^ 32768 - 1) ∧
    ∀ i < 32, at_ (0x29240 + 32 * g + g / 8 * i) (g / 8) = 2 ^ g - 1) ∧
  (∀ i < 8,
    let c := st.copyAt i
    let of := fun (o n : Nat) => at_ (0x29240 + 36 * g + 96 * i + o) n
    of 0 8 = c.ticket.toNat ∧ of 8 8 = packed [(c.st.toNat, 0), (Bool.toNat (st.pDone.getLsbD i || st.pFault.getLsbD i), 3),
      (c.side.toNat, 4), (c.poison.toNat, 5), (c.cause.toNat, 8)] ∧
    of 0x10 8 = c.p % 2 ^ 64 ∧ of 0x18 8 = c.faddr.toNat ∧ of 0x20 8 = c.dst.toNat ∧ of 0x28 8 = c.src.toNat ∧
    of 0x30 8 = c.ctl.toNat ∧ of 0x38 32 = c.d.toNat ∧ of 0x58 8 = 0) ∧
  at_ (0x29540 + 36 * g) 4 = st.copySeq.toNat ∧ at_ (0x29544 + 36 * g) 252 = 0

/-- A strand holds the g registers, the shadows and the state words of an image, but for MVL, MSTATE and the pending bits of
UIMASK (R111, R142). -/
def State.RestoresWords (s : State) (twin : Nat) (st : Strand) : Prop :=
  let word := fun (o : Nat) => BitVec.ofNat 64 (s.physRead (twin + o) 8)
  (∀ k : BitVec 5, k ≠ 0 → st.rg k = word (0x40 + 8 * k.toNat)) ∧
  (∀ k < 6, st.shadow.toList.getD k 0 = word (0x140 + 8 * k)) ∧
  st.vl = (word 0x180).setWidth 32 ∧ st.rl = (word 0x188).setWidth 7 ∧ st.vtype = (word 0x190).setWidth 6 ∧
  (let f := (word 0x198).toNat % 8
   st.frm.toNat = if f = 0 ∨ 5 ≤ f then 1 else f) ∧
  st.fflags = (word 0x1A0).setWidth 5 ∧ st.repro = (word 0x1A8).setWidth 1 ∧
  (let x := (word 0x1C0).toNat % 2 ^ 32
   st.srseed.toNat = if x = 0 then 1 else x) ∧
  st.uivec.toNat = (word 0x1C8).toNat / 64 ∧ st.uicause = (word 0x1D0).setWidth 8 ∧ st.uiepc = word 0x1D8 ∧
  st.uiIn = (word 0x1E0).getLsbD 0 ∧ st.enDone = (word 0x1E0).getLsbD 1 ∧ st.enFault = (word 0x1E0).getLsbD 2 ∧
  st.enTrapu = (word 0x1E0).getLsbD 3 ∧ st.cxldr.toNat = (word 0x1E8).toNat / 64

/-- A window is that of the records and partial maps of an image (R64, R111): an entry for each valid record whose word can
stand in the window (log 55), with its latched operands and its progress. -/
def State.RestoresWindow (s : State) (twin : Nat) (w : List Entry) : Prop :=
  ∃ f : Nat → Option Entry, w = (List.range 16).filterMap f ∧ ∀ k < 16,
    let x := s.physRead (twin + 0x200 + 96 * k) 96
    let at_ : Nat → Nat → Nat := fun o n => x / 2 ^ (8 * o) % 2 ^ (8 * n)
    let bit : Nat → Nat → Bool := fun o j => (at_ o 8).testBit j
    let ins := decodeWindow (BitVec.ofNat 32 (at_ 0 4))
    (bit 4 0 = false ∨ (∀ i, ins ≠ .ok i) → f k = none) ∧
    (∀ i, bit 4 0 = true → ins = .ok i → ∃ en, f k = some en ∧ en.ins = i ∧ en.word.toNat = at_ 0 4 ∧
      en.tailDone = bit 4 1 ∧ en.gpend = (if bit 4 1 = true then none else gDest i) ∧ en.vl.toNat = at_ 8 4 ∧
      en.rl.toNat = at_ 12 2 ∧ en.vtype.toNat = at_ 14 2 ∧ en.opb.toNat = at_ 16 8 ∧ en.opc.toNat = at_ 24 8 ∧
      en.opd.toNat = at_ 32 8 ∧ en.pidx = at_ 40 4 ∧ en.ngrp = at_ 44 4 ∧ en.frm.toNat = at_ 48 8 % 8 ∧
      en.repro = bit 48 3 ∧ en.mvl.toNat = at_ 48 8 / 2 ^ 4 % 2 ^ 7 ∧ en.tet.toNat = at_ 48 8 / 2 ^ 12 % 2 ^ 4 ∧
      en.opa.toNat = at_ 56 8 ∧ en.done.toNat = at_ 64 32 ∧
      en.part.toNat = s.physRead (twin + 0x800 + 1028 * k) 1028 % 2 ^ 8224)

/-- A strand holds what resumption takes from the image of `a` besides (R117, R118): the registers, the bindings, the tiles, the
copy positions that did not run when the image was written, and the copy sequence counter. -/
def State.RestoresImage (s : State) (a b : Strand) : Prop :=
  let num := fun (o n : Nat) => s.physRead (a.twinAddr + o) n
  let g := a.grsz.toNat
  let word := fun (o : Nat) => BitVec.ofNat 64 (num o 8)
  s.RestoresWords a.twinAddr b ∧ s.RestoresWindow a.twinAddr b.window ∧
  b.mvl = (word 0x1B0).setWidth 7 ∧ b.tetype = (word 0x1B0).extractLsb' 8 4 ∧ b.tilesOn = (word 0x1B8).getLsbD 0 ∧
  b.tilesAllow = (word 0x1B8).getLsbD 1 ∧
  (∀ i : Fin 8,
    let x := b.k[i.val]
    let of := fun (o n : Nat) => num (0x4840 + 32 * i.val + o) n
    x.base.toNat = of 0 8 ∧ x.stride.toNat = of 8 4 ∧ x.format.toNat = of 12 1 ∧ x.mode.toNat = of 13 1 ∧
    x.reg.toNat = of 14 1 ∧ x.status.toNat = of 15 1 ∧ x.scaleBase.toNat = of 16 8 ∧ x.length.toNat = of 24 4 ∧
    x.progress.toNat = of 28 4) ∧
  (∀ i : Fin 8, b.cb[i.val].toNat = num (0x4940 + 32 * i.val) 32) ∧
  (∀ i : Fin 8, b.cx[i.val] = if (num 0x1C 1).testBit i.val = true then some (BitVec.ofNat 2048 (num (0x4A40 + 256 * i.val) 256)) else none) ∧
  b.slalom.toNat = num 0x5240 16384 ∧ (∀ i : Fin 8, b.m[i.val].toNat = num (0x9240 + 4096 * i.val) 4096) ∧
  (∀ i : Fin 4, b.t[i.val].toNat = if (num 6 1).testBit 1 = true then num (0x19240 + 16384 * i.val) 16384 else 0) ∧
  (∀ i : Fin 32, b.v[i.val].toNat = num (0x29240 + g * i.val) g % 2 ^ 262144) ∧
  (∀ i < 8,
    let of := fun (o n : Nat) => num (0x29240 + 36 * g + 96 * i + o) n
    let c := b.copyAt i
    let live := of 8 8 % 8 = 1
    (live → c = a.copyAt i ∧ b.pDone.getLsbD i = a.pDone.getLsbD i ∧ b.pFault.getLsbD i = a.pFault.getLsbD i) ∧
    (¬ live → c.ticket.toNat = of 0 8 ∧ c.st.toNat = of 8 8 % 8 ∧ c.side = (of 8 8).testBit 4 ∧ c.poison = (of 8 8).testBit 5 ∧
      c.cause.toNat = of 8 8 / 256 % 256 ∧ c.p = of 0x10 8 ∧ c.faddr.toNat = of 0x18 8 ∧ c.dst.toNat = of 0x20 8 ∧
      c.src.toNat = of 0x28 8 ∧ c.ctl.toNat = of 0x30 8 ∧ c.d.toNat = of 0x38 32 ∧
      b.pDone.getLsbD i = (num 0x28 1).testBit i ∧ b.pFault.getLsbD i = (num 0x29 1).testBit i)) ∧
  b.copySeq.toNat = num (0x29540 + 36 * g) 4

/-! ### Scalar operands -/

/-- A register read in precision P (R48): 0 is FP32, in bits [31:0]; 1 is FP64. -/
def inPrecision (p : BitVec 1) (x : Word) : Nat := if p = 1 then x.toNat else x.toNat % 2 ^ 32

/-- The etype code of a precision: 10 is f32, 11 is f64 (R51). -/
def precCode (p : BitVec 1) : Nat := if p = 1 then 11 else 10

/-- A compare's outcome as a result. -/
def truth (x : Bool × Flags) : Res := ⟨if x.1 then 1 else 0, x.2⟩

end Sys2Proof.Machine
end

