-- ==== Sys2Proof/Certificates/Slice0/Obligations.lean ====
section
/-! DEFINITION. The statements for the provers, from the numbered rules of the spec. -/

section

open Sys2Proof Sys2Proof.Machine

/-! ### Scalar instructions -/

/-- R48, R127, R128: the result of every member of SOP and of every immediate form, for registers that are not pending, division
by zero and overflow included; g0 reads as zero, and a write to it is discarded. -/
def Obligations.IntegerResult : Prop :=
  (∀ (s : State) (a b c : BitVec 5), s.Ready [a, b, c] →
     s.Sets (.add a b c) a (BitVec.ofNat 64 ((s.rg b).toNat + (s.rg c).toNat)) ∧
     s.Sets (.sub a b c) a (BitVec.ofInt 64 ((s.rg b).toNat - (s.rg c).toNat)) ∧
     s.Sets (.and a b c) a (s.rg b &&& s.rg c) ∧
     s.Sets (.or a b c) a (s.rg b ||| s.rg c) ∧
     s.Sets (.xor a b c) a (s.rg b ^^^ s.rg c) ∧
     s.Sets (.shl a b c) a (BitVec.ofNat 64 ((s.rg b).toNat * 2 ^ ((s.rg c).toNat % 64))) ∧
     s.Sets (.shr a b c) a (BitVec.ofNat 64 ((s.rg b).toNat / 2 ^ ((s.rg c).toNat % 64))) ∧
     s.Sets (.shra a b c) a (BitVec.ofInt 64 ((s.rg b).toInt / 2 ^ ((s.rg c).toNat % 64))) ∧
     s.Sets (.slt a b c) a (if (s.rg b).toInt < (s.rg c).toInt then 1 else 0) ∧
     s.Sets (.sltn a b c) a (if (s.rg b).toNat < (s.rg c).toNat then 1 else 0) ∧
     s.Sets (.mul a b c) a (BitVec.ofNat 64 ((s.rg b).toNat * (s.rg c).toNat)) ∧
     s.Sets (.mulh a b c) a (BitVec.ofInt 64 ((s.rg b).toInt * (s.rg c).toInt / 2 ^ 64)) ∧
     s.Sets (.mulhn a b c) a (BitVec.ofNat 64 ((s.rg b).toNat * (s.rg c).toNat / 2 ^ 64)) ∧
     s.Sets (.div a b c) a
       (if s.rg c = 0 then 0xFFFFFFFFFFFFFFFF else BitVec.ofInt 64 ((s.rg b).toInt.tdiv (s.rg c).toInt)) ∧
     s.Sets (.divn a b c) a
       (if s.rg c = 0 then 0xFFFFFFFFFFFFFFFF else BitVec.ofNat 64 ((s.rg b).toNat / (s.rg c).toNat)) ∧
     s.Sets (.rem a b c) a (if s.rg c = 0 then s.rg b else BitVec.ofInt 64 ((s.rg b).toInt.tmod (s.rg c).toInt)) ∧
     s.Sets (.remn a b c) a (if s.rg c = 0 then s.rg b else BitVec.ofNat 64 ((s.rg b).toNat % (s.rg c).toNat)) ∧
     s.Sets (.min a b c) a (BitVec.ofInt 64 (min (s.rg b).toInt (s.rg c).toInt)) ∧
     s.Sets (.max a b c) a (BitVec.ofInt 64 (max (s.rg b).toInt (s.rg c).toInt)) ∧
     s.Sets (.minn a b c) a (BitVec.ofNat 64 (min (s.rg b).toNat (s.rg c).toNat)) ∧
     s.Sets (.maxn a b c) a (BitVec.ofNat 64 (max (s.rg b).toNat (s.rg c).toNat)) ∧
     s.Sets (.clz a b) a (BitVec.ofNat 64 ((List.range 64).takeWhile fun i => !(s.rg b).getLsbD (63 - i)).length) ∧
     s.Sets (.ctz a b) a (BitVec.ofNat 64 ((List.range 64).takeWhile fun i => !(s.rg b).getLsbD i).length) ∧
     s.Sets (.popc a b) a (BitVec.ofNat 64 ((List.range 64).filter (s.rg b).getLsbD).length)) ∧
  (∀ (s : State) (a b : BitVec 5) (i : BitVec 16) (k : BitVec 6), s.Ready [a, b] →
     s.Sets (.addi a b i) a (BitVec.ofInt 64 ((s.rg b).toInt + i.toInt)) ∧
     s.Sets (.andi a b i) a (s.rg b &&& BitVec.ofInt 64 i.toInt) ∧
     s.Sets (.ori a b i) a (s.rg b ||| BitVec.ofNat 64 i.toNat) ∧
     s.Sets (.xori a b i) a (s.rg b ^^^ BitVec.ofNat 64 i.toNat) ∧
     s.Sets (.slti a b i) a (if (s.rg b).toInt < i.toInt then 1 else 0) ∧
     s.Sets (.shli a b k) a (BitVec.ofNat 64 ((s.rg b).toNat * 2 ^ k.toNat)) ∧
     s.Sets (.shri a b k) a (BitVec.ofNat 64 ((s.rg b).toNat / 2 ^ k.toNat)) ∧
     s.Sets (.shrai a b k) a (BitVec.ofInt 64 ((s.rg b).toInt / 2 ^ k.toNat)) ∧
     s.Sets (.lih a i) a (BitVec.ofInt 64 (i.toInt * 65536)) ∧
     s.Sets (.shori a b i) a (BitVec.ofNat 64 ((s.rg b).toNat * 65536) ||| BitVec.ofNat 64 i.toNat)) ∧
  (∀ (s : State) (x y : BitVec 5) (w : Word), (s.wg x w).rg y = (if y = x ∧ x ≠ 0 then w else s.rg y) ∧ s.rg 0 = 0)

/-- R133, R134, R135: the result and the flags of the floating-point members, in either precision, each rounded once under
FRM, and of the scalar conversions under their rounding code. The arithmetic of one operation is that of the format's
functions. -/
def Obligations.ScalarFpResult : Prop :=
  (∀ (s : State) (a b c d : BitVec 5) (p : BitVec 1), s.Ready [a, b, c, d] →
     let k := fmtOf (precCode p)
     let rm := rmOfFrm s.cur.frm
     let x := inPrecision p (s.rg b)
     let y := inPrecision p (s.rg c)
     let z := inPrecision p (s.rg d)
     s.SetsFp (.fadd a b c p) a (fpAdd k rm x y) ∧
     s.SetsFp (.fsub a b c p) a (fpSub k rm x y) ∧
     s.SetsFp (.fmul a b c p) a (fpMul k rm x y) ∧
     s.SetsFp (.fdiv a b c p) a (fpDiv k rm x y) ∧
     s.SetsFp (.fsqrt a b p) a (fpSqrt k rm x) ∧
     s.SetsFp (.fmin a b c p) a (fpMinMax k false x y) ∧
     s.SetsFp (.fmax a b c p) a (fpMinMax k true x y) ∧
     s.SetsFp (.feq a b c p) a (truth (fpEq k x y)) ∧
     s.SetsFp (.flt a b c p) a (truth (fpLt k false x y)) ∧
     s.SetsFp (.fle a b c p) a (truth (fpLt k true x y)) ∧
     s.SetsFp (.fmadd a b c d p) a (fpFma k rm x y z false false) ∧
     s.SetsFp (.fmsub a b c d p) a (fpFma k rm x y z false true)) ∧
  (∀ (s : State) (a b r : BitVec 5) (p : BitVec 1), s.Ready [a, b] →
     let rm := rmOfCode r.toNat s.cur.frm 0
     s.SetsFp (.fcvti a b r p) a (convert (precCode p) 6 rm false (inPrecision p (s.rg b))) ∧
     s.SetsFp (.fcvtf a b r p) a (convert 6 (precCode p) rm false (s.rg b).toNat) ∧
     s.SetsFp (.fcvtwF32 a b r) a (convert 11 10 rm false (s.rg b).toNat) ∧
     s.SetsFp (.fcvtwF64 a b) a (convert 10 11 .rne false ((s.rg b).toNat % 2 ^ 32)))

/-- R129: what every scalar load gives, when its access translates and meets no poison, with memory and every other register as
they were; and what every scalar store writes, with every other byte and every register as they were. -/
def Obligations.AccessResult : Prop :=
  (∀ (s : State) (a b : BitVec 5) (i : BitVec 16) (l : Loc), s.AtRest → s.Quiet → s.Clean l →
     let va := s.rg b + BitVec.ofInt 64 i.toInt
     (s.place va 1 .read = .ok l →
       s.Sets (.ldb a b i) a (BitVec.ofInt 64 (BitVec.ofNat 8 (s.peek l 1)).toInt) ∧
       s.Sets (.ldbn a b i) a (BitVec.ofNat 64 (s.peek l 1))) ∧
     (s.place va 2 .read = .ok l →
       s.Sets (.ldh a b i) a (BitVec.ofInt 64 (BitVec.ofNat 16 (s.peek l 2)).toInt) ∧
       s.Sets (.ldhn a b i) a (BitVec.ofNat 64 (s.peek l 2))) ∧
     (s.place va 4 .read = .ok l →
       s.Sets (.ldw a b i) a (BitVec.ofInt 64 (BitVec.ofNat 32 (s.peek l 4)).toInt) ∧
       s.Sets (.ldwn a b i) a (BitVec.ofNat 64 (s.peek l 4))) ∧
     (s.place va 8 .read = .ok l → s.Sets (.ldd a b i) a (BitVec.ofNat 64 (s.peek l 8)))) ∧
  (∀ (s : State) (a b : BitVec 5) (i : BitVec 16) (l : Loc), s.Inv → s.AtRest → s.Quiet →
     let va := s.rg b + BitVec.ofInt 64 i.toInt
     let stores := fun (x : Instr) (n : Nat) => s.place va n .write = .ok l →
       ∃ t, s.Stored t l n (s.rg a).toNat ∧ exec x s = .next t.advance
     stores (.stb a b i) 1 ∧ stores (.sth a b i) 2 ∧ stores (.stw a b i) 4 ∧ stores (.std a b i) 8)

/-- R94, R95, R96, R136: a linked load advances the generation, tags its line and loads; a conditional store writes, answers 1
and advances the generation when its line holds the tag of the strand at its current generation, and otherwise answers 0 and
changes nothing else. The scalar SC accesses load or store as the table says and draw one ticket of the package's counter. -/
def Obligations.OrderedAccess : Prop :=
  (∀ (s : State) (a b c : BitVec 5) (pa : Nat), s.Inv → s.AtRest → s.Quiet →
     let mine : LinkTag := ⟨s.cur.gang, s.cur.id, s.cur.linkGen⟩
     let linked := fun (x : Instr) (n : Nat) (w : Word) => s.place (s.rg b) n .read = .ok (.dev pa) → s.poisoned pa = false →
       ∃ t : State, t = { s with cur := { s.cur with linkGen := s.cur.linkGen + 1 }, links := t.links } ∧
         (∀ line, t.tag line = if line = pa / 64 then some { mine with gen := s.cur.linkGen + 1 } else s.tag line) ∧
         exec x s = .next (t.wg a w).advance
     let cond := fun (x : Instr) (n : Nat) => s.place (s.rg b) n .write = .ok (.dev pa) →
       if s.tag (pa / 64) = some mine then
         ∃ t, s.Stored t (.dev pa) n (s.rg c).toNat ∧
           exec x s = .next ((t.wg a 1).upd fun st => { st.advance with linkGen := st.linkGen + 1 })
       else s.Sets x a 0
     linked (.ldlw a b) 4 (BitVec.ofInt 64 (BitVec.ofNat 32 (s.rawRead pa 4)).toInt) ∧
     linked (.ldld a b) 8 (BitVec.ofNat 64 (s.rawRead pa 8)) ∧ cond (.stcw a b c) 4 ∧ cond (.stcd a b c) 8) ∧
  (∀ (s : State) (a b : BitVec 5) (l : Loc), s.Inv → s.AtRest → s.Quiet → s.cur.late = [] →
     let drawn := fun (t : State) => { t with ticket := s.ticket + 1 }
     (s.Clean l → s.place (s.rg b) 4 .read = .ok l →
       exec (.ldscw a b) s = .next ((drawn s).wg a (BitVec.ofInt 64 (BitVec.ofNat 32 (s.peek l 4)).toInt)).advance) ∧
     (s.Clean l → s.place (s.rg b) 8 .read = .ok l →
       exec (.ldscd a b) s = .next ((drawn s).wg a (BitVec.ofNat 64 (s.peek l 8))).advance) ∧
     (s.place (s.rg b) 4 .write = .ok l →
       ∃ t, s.Stored t l 4 (s.rg a).toNat ∧ exec (.stscw a b) s = .next (drawn t).advance) ∧
     (s.place (s.rg b) 8 .write = .ok l →
       ∃ t, s.Stored t l 8 (s.rg a).toNat ∧ exec (.stscd a b) s = .next (drawn t).advance))

/-! ### Transfers -/

/-- R71, R72, R73, R130, R131, R132: where each conditional branch goes: OFF13 blocks from its fetch block when its condition
holds, else on to the next word; the jumps and what they link; a register target off a block boundary traps BRANCH_ALIGN
with g30 unchanged. -/
def Obligations.TransferResult : Prop :=
  (∀ (s : State) (b c : BitVec 5) (o : BitVec 13), s.Ready [b, c] →
     let branches := fun (x : Instr) (taken : Prop) =>
       (taken → s.GoesTo x (s.block + BitVec.ofInt 64 (o.toInt * 64))) ∧ (¬ taken → s.GoesTo x (s.cur.pc + 4))
     branches (.beq b c o) (s.rg b = s.rg c) ∧
     branches (.bne b c o) (s.rg b ≠ s.rg c) ∧
     branches (.blt b c o) ((s.rg b).toInt < (s.rg c).toInt) ∧
     branches (.bge b c o) ((s.rg c).toInt ≤ (s.rg b).toInt) ∧
     branches (.bltn b c o) ((s.rg b).toNat < (s.rg c).toNat) ∧
     branches (.bgen b c o) ((s.rg c).toNat ≤ (s.rg b).toNat)) ∧
  (∀ (s : State) (b : BitVec 5) (o : BitVec 26), s.Ready [b, 30#5] →
     let target := s.block + BitVec.ofInt 64 (o.toInt * 64)
     let linked := s.wg 30#5 (s.block + 64)
     s.GoesTo (.jmp o) target ∧
     exec (.call o) s = .next (linked.goto target) ∧
     ((s.rg b).toNat % 64 = 0 → s.GoesTo (.jr b) (s.rg b) ∧ exec (.jalr b) s = .next (linked.goto (s.rg b))) ∧
     ((s.rg b).toNat % 64 ≠ 0 → s.Traps (.jr b) 0x02 (s.rg b) ∧ s.Traps (.jalr b) 0x02 (s.rg b)))

/-! ### Fences, barriers, drains and events -/

/-- R93, R137 to R140: an arrival completes unless the barrier releases, a wait completes once it releases or has EXPECT 0, and a
BARAW does the one and then the other; each is held otherwise. What an arrival and a wait do to the barrier is a statement
of its own. A fence completes once the accesses of its before-paths have performed, a drain once its queues are drained,
BARSET on an idle barrier, WFE with the event bit set, and NOP at once; each of the others waits until then. That the scope of
a fence adds nothing is the model's reading (log 25), and so is the mark that a BARAW leaves between its two parts (log 60). -/
def Obligations.SyncMembers : Prop :=
  (∀ (s : State) (b : BitVec 5),
     let held := fun (nb : Option Nat) => (s.barrier s.cur nb).expect ≠ 0 ∧ (s.barrier s.cur nb).rel = true
     let opens := fun (t : State) (nb : Option Nat) => (t.barrier t.cur nb).expect = 0 ∨ (t.barrier t.cur nb).rel = true
     let arrives := fun (x : Instr) (nb : Option Nat) =>
       (¬ held nb → exec x s = .next (s.arrive s.cur nb true).advance) ∧ (held nb → s.Waits x)
     let waits := fun (x : Instr) (nb : Option Nat) =>
       (opens s nb → exec x s = .next (s.pass s.cur nb).advance) ∧ (¬ opens s nb → s.Waits x)
     let both := fun (x : Instr) (nb : Option Nat) => s.cur.pc ∉ s.cur.arrived →
       (held nb → s.Waits x) ∧
       (¬ held nb →
         let t := (s.arrive s.cur nb true).upd fun st => { st with arrived := st.pc :: st.arrived }
         (opens t nb → exec x s = .next ((t.pass t.cur nb).upd fun st =>
           { st with arrived := st.arrived.erase st.pc, pc := st.pc + 4, wcount := 0, quiet := false })) ∧
         (¬ opens t nb → ∃ q, exec x s = .next (t.upd fun st => { st with stalled := true, quiet := q })))
     arrives (.bara b) (some b.toNat) ∧ arrives .gbara none ∧ waits (.barw b) (some b.toNat) ∧ waits .gbarw none ∧
     both (.baraw b) (some b.toNat)) ∧
  (∀ (s : State) (a b : BitVec 5) (q : BitVec 4) (sc : BitVec 2) (before after : BitVec 6), s.Ready [a] →
     let x := s.barrier s.cur (some b.toNat)
     (s.performed before = true → exec (.fence sc before after) s = .next s.advance) ∧
     (s.performed before = false → s.Waits (.fence sc before after)) ∧
     ((∀ i < 4, q.getLsbD i = true → s.drained i = true) → exec (.qdrain q) s = .next s.advance) ∧
     ((∃ i < 4, q.getLsbD i = true ∧ s.drained i = false) → s.Waits (.qdrain q)) ∧
     (x.rel = false ∧ x.arrived = 0 → exec (.barset a b) s = .next
       (s.setBarrier s.cur.gang s.cur.group (some b.toNat) { x with expect := min (s.rg a).toNat 255 }).advance) ∧
     (x.rel = true ∨ x.arrived ≠ 0 → s.Waits (.barset a b)) ∧
     (s.cur.event = true → exec .wfe s = .next (s.Then fun st => { st with event := false })) ∧
     (s.cur.event = false → s.Waits .wfe) ∧
     exec .nop s = .next s.advance)

/-- R137, R139: a phase of a barrier. An arrival counts, and ends the gathering when ARRIVED reaches EXPECT; a wait counts, and
ends the release when PASSED reaches SARR, or 1 when SARR is 0; a barrier with EXPECT 0 never changes. The arrival of a copy
is held while the barrier releases, and the end of the release lets in those that it held, as far as the next phase goes. The
end of a gathering sets the event bit of every strand that the barrier serves. -/
def Obligations.BarrierPhase : Prop :=
  (∀ (s : State) (st : Strand) (g : Gang) (nb : Option Nat) (byStrand : Bool),
     s.Inv → s.gangOf st.gang = some g → (∀ n, nb = some n → n < 32) →
     let b := s.barrier st nb
     (s.arrive st nb byStrand).barrier st nb =
       (if b.expect = 0 then b
        else { b with arrived := b.arrived + 1, sarr := if byStrand then b.sarr + 1 else b.sarr,
                      rel := decide (b.expect ≤ b.arrived + 1) }) ∧
     (s.pass st nb).barrier st nb =
       (if b.expect = 0 then b
        else if b.sarr ≤ b.passed + 1 then
          let n := min b.held b.expect
          { b with arrived := n, sarr := 0, passed := 0, rel := decide (b.expect ≤ n), held := b.held - n }
        else { b with passed := b.passed + 1 }) ∧
     (∀ n, nb = some n → (s.copyArrive st n).barrier st nb =
       (if b.expect = 0 then b
        else if b.rel = true then { b with held := b.held + 1 }
        else { b with arrived := b.arrived + 1, rel := decide (b.expect ≤ b.arrived + 1) }))) ∧
  (∀ (s : State) (st x : Strand) (n : Nat) (byStrand : Bool),
     let ends := fun (nb : Option Nat) => (s.barrier st nb).expect ≠ 0 ∧ (s.barrier st nb).expect ≤ (s.barrier st nb).arrived + 1
     let next := s.barrier st (some n)
     (ends none → x ∈ (s.arrive st none byStrand).strands → x.gang = st.gang → x.event = true) ∧
     (ends (some n) → x ∈ (s.arrive st (some n) byStrand).strands → x.gang = st.gang → x.group = st.group → x.event = true) ∧
     (next.expect ≠ 0 → next.sarr ≤ next.passed + 1 → next.expect ≤ next.held →
       x ∈ (s.pass st (some n)).strands → x.gang = st.gang → x.group = st.group → x.event = true))

/-! ### State registers -/

/-- R55, R56, R106: what MFS reads from every state register of a strand at rest; at user level the numbers from 0x100 on
raise PRIV instead. -/
def Obligations.StateRead : Prop :=
  ∀ (s : State) (a : BitVec 5), s.AtRest →
    let st := s.cur
    let reads := fun (n : BitVec 12) (w : Word) => s.Sets (.mfs a n) a w
    let readsSup := fun (n : BitVec 12) (w : Word) =>
      (st.sup = true → s.Sets (.mfs a n) a w) ∧ (st.sup = false → s.Traps (.mfs a n) 0x18 (stateWord 0 a 0 n))
    let word := fun (fields : List (Nat × Nat)) => BitVec.ofNat 64 (fields.map fun f => f.1 * 2 ^ f.2).sum
    reads 0x000 (word [(st.vl.toNat, 0)]) ∧ reads 0x001 (word [(st.rl.toNat, 0)]) ∧
    reads 0x002 (word [(st.vtype.toNat, 0)]) ∧ reads 0x003 (word [(st.gvlen.toNat, 0)]) ∧
    reads 0x004 (word [(st.grsz.toNat, 0)]) ∧ reads 0x005 (word [(s.alcOf st.core.toNat, 0)]) ∧
    reads 0x006 (word [(1, 32)]) ∧ reads 0x007 (word [(st.frm.toNat, 0)]) ∧
    reads 0x008 (word [(st.fflags.toNat, 0)]) ∧ reads 0x009 (word [(st.repro.toNat, 0)]) ∧
    reads 0x00A (word [(st.mvl.toNat, 0), (st.tetype.toNat, 8)]) ∧
    reads 0x00B (word [(st.tilesOn.toNat, 0), (st.tilesAllow.toNat, 1)]) ∧
    reads 0x00C (word [(st.srseed.toNat, 0)]) ∧ reads 0x010 (word [(st.id.toNat, 0)]) ∧
    reads 0x011 (word [(st.gang.toNat, 0)]) ∧ reads 0x012 (word [(st.gangSize.toNat, 0)]) ∧
    reads 0x013 (word [(st.core.toNat, 0)]) ∧ reads 0x014 (word [(st.core.toNat / 160, 0)]) ∧
    reads 0x015 (word [(st.pkg.toNat, 0)]) ∧ reads 0x018 s.tick ∧ reads 0x019 st.cycle ∧
    reads 0x020 (word [(st.uivec.toNat, 6)]) ∧ reads 0x021 (word [(st.uicause.toNat, 0)]) ∧ reads 0x022 st.uiepc ∧
    reads 0x023 (word [(st.uiIn.toNat, 0), (st.enDone.toNat, 1), (st.enFault.toNat, 2), (st.enTrapu.toNat, 3),
      (st.pDone.toNat, 8), (st.pFault.toNat, 16)]) ∧
    reads 0x024 (word [(st.cxldr.toNat, 6)]) ∧ reads 0x030 (wsPhase s.tick) ∧
    reads 0x031 (s.wsStateWord (st.core.toNat / 160)) ∧
    readsSup 0x100 (word [(st.tvec.toNat, 6)]) ∧ readsSup 0x101 (word [(st.tcause.toNat, 0)]) ∧ readsSup 0x102 st.tepc ∧
    readsSup 0x103 st.tval ∧ readsSup 0x104 (word [(st.telem.toNat, 0)]) ∧ readsSup 0x105 (word [(st.twin.toNat, 12)]) ∧
    readsSup 0x110 (word [(st.ptroot.toNat, 12)]) ∧ readsSup 0x111 (word [(st.asid.toNat, 0)]) ∧
    readsSup 0x120 st.wdog ∧ readsSup 0x121 (word [(st.grantNext.toNat, 0), (st.grantPend.toNat, 31)]) ∧
    readsSup 0x130 (word [(st.estep.toNat, 0)])

/-- R142: from the value that MTS, SETS or CLRS gives, what each state register then holds, field by field. Read-only
registers keep theirs. -/
def Obligations.StateWrite : Prop :=
  ∀ (s : State) (b : BitVec 5), s.AtRest →
    let writes := fun (n : BitVec 12) (f : Word → Strand → Strand) => (0x100 ≤ n.toNat → s.cur.sup = true) →
      exec (.mts b n) s = .next (s.Then (f (s.rg b))) ∧
      exec (.sets b n) s = .next (s.Then (f (s.readReg n ||| s.rg b))) ∧
      exec (.clrs b n) s = .next (s.Then (f (s.readReg n &&& ~~~ s.rg b)))
    writes 0x007 (fun w st => { st with frm :=
      if w.toNat % 8 = 0 ∨ 5 ≤ w.toNat % 8 then 1 else BitVec.ofNat 3 w.toNat }) ∧
    writes 0x008 (fun w st => { st with fflags := BitVec.ofNat 5 w.toNat }) ∧
    writes 0x009 (fun w st => { st with repro := BitVec.ofNat 1 w.toNat }) ∧
    writes 0x00B (fun w st => if st.sup then
      { st with tilesAllow := w.getLsbD 1, tilesOn := st.tilesOn && w.getLsbD 1 } else st) ∧
    writes 0x00C (fun w st => { st with srseed := if w.toNat % 2 ^ 32 = 0 then 1 else BitVec.ofNat 32 w.toNat }) ∧
    writes 0x020 (fun w st => { st with uivec := BitVec.ofNat 58 (w.toNat / 64) }) ∧
    writes 0x021 (fun w st => { st with uicause := BitVec.ofNat 8 w.toNat }) ∧
    writes 0x022 (fun w st => { st with uiepc := w }) ∧
    writes 0x023 (fun w st => { st with enDone := w.getLsbD 1, enFault := w.getLsbD 2, enTrapu := w.getLsbD 3 }) ∧
    writes 0x024 (fun w st => { st with cxldr := BitVec.ofNat 58 (w.toNat / 64) }) ∧
    writes 0x100 (fun w st => { st with tvec := BitVec.ofNat 58 (w.toNat / 64) }) ∧
    writes 0x101 (fun w st => { st with tcause := BitVec.ofNat 16 w.toNat }) ∧
    writes 0x102 (fun w st => { st with tepc := w }) ∧
    writes 0x103 (fun w st => { st with tval := w }) ∧
    writes 0x104 (fun w st => { st with telem := BitVec.ofNat 32 w.toNat }) ∧
    writes 0x105 (fun w st => { st with twin := BitVec.ofNat 34 (w.toNat / 4096) }) ∧
    writes 0x110 (fun w st => { st with ptroot := BitVec.ofNat 34 (w.toNat / 4096) }) ∧
    writes 0x111 (fun w st => { st with asid := BitVec.ofNat 16 w.toNat }) ∧
    writes 0x120 (fun w st => { st with wdog := w }) ∧
    writes 0x121 (fun w st => { st with
      grantNext := BitVec.ofNat 17 (let x := w.toNat % 2 ^ 17
        if x = s.launchGvlen ∨ (x ∈ [512, 1024, 2048, 4096, 8192, 16384, 32768, 65536] ∧ x < s.launchGvlen) then x else s.launchGvlen),
      grantPend := w.getLsbD 31 }) ∧
    writes 0x130 (fun w st => { st with estep := w.getLsbD 0 }) ∧
    (∀ n : BitVec 12, n ∈ [0x000#12, 0x001, 0x002, 0x003, 0x004, 0x005, 0x006, 0x00A, 0x010, 0x011, 0x012, 0x013, 0x014,
        0x015, 0x018, 0x019, 0x030, 0x031] → writes n fun _ st => st)

/-- R33, R35, R66, R92: VSTRIP takes up a pending GVLEN, sets VTYPE, VL, RL and g[A], and opens the next strip. -/
def Obligations.VstripResult : Prop :=
  ∀ (s : State) (a b c : BitVec 5) (x y : BitVec 1) (e : BitVec 4), s.Ready [a, b, c] →
    let n := (s.rg b).toNat
    let q := (s.rg c).toNat
    let gvlen := if s.cur.grantPend then s.cur.grantNext else s.cur.gvlen
    let sew := sewOf e.toNat
    let vl := if n = 0 then 0 else min n (gvlen.toNat / sew)
    let rl := if n = 0 then 0 else min (if q = 0 then 1 else q) (min 64 (s.cur.grsz.toNat * 8 / (vl * sew)))
    (gvlen.toNat ≤ 8 * s.cur.grsz.toNat → vl ≠ 0 → 1 ≤ rl) ∧
    exec (.vstrip a b c x y e) s = .next
      ((s.upd fun st => { st with gvlen := gvlen, grantPend := false, vtype := x ++ y ++ e, vl := BitVec.ofNat 32 vl,
                                  rl := BitVec.ofNat 7 rl, strip := st.strip + 1 }).wg a (BitVec.ofNat 64 vl)).advance

/-! ### Traps -/

/-- R64, R106, R111, R113, R115: taking a supervisor trap, for a strand with no admitted slice and an empty update queue whose
record can be written, in device memory or in the host's: what the trap registers receive, where the strand goes, what stays,
and what the record at TWIN holds, word for word and with a record for each entry of the window. A trap of the window reports
the oldest fault detected in it. What goes with an entry beside its record is set aside (log 55). -/
def Obligations.TrapEntry : Prop :=
  ∀ (s : State) (i : TrapInfo), s.Inv → s.cur.updq = [] → s.cur.midSlice = false →
    (∀ k, i.win = some k → (∀ en ∈ s.cur.window, en.detected = none) ∨ ∃ en d, s.cur.window[k]? = some en ∧
      en.detected = some d ∧ (∀ j < k, ∀ x, s.cur.window[j]? = some x → x.detected = none) ∧ i.cause = d.cause ∧
      i.tval = d.tval ∧ i.elem = d.elem.toNat) →
    (∀ en ∈ s.cur.window, en.pidx < 2 ^ 32 ∧ en.ngrp < 2 ^ 32) →
    let twin := s.cur.twinAddr
    s.blockOk twin 0x4840 = true →
    let r := s.trap i
    r.cur = { s.cur with
      tcause := r.cur.tcause, tepc := i.tepc, tval := i.tval, telem := BitVec.ofNat 32 i.elem, sup := true,
      pc := BitVec.ofNat 64 (s.cur.tvec.toNat * 64), stepping := false, stepDone := false, stalled := false,
      quiet := false, stop := none, leaving := false, window := [], aside := s.cur.window.map Entry.aside,
      pDone := r.cur.pDone, pFault := r.cur.pFault } ∧
    (∀ k < 8,
      let reported := fun cause => i.async = true ∧ i.cause = cause ∧ i.tval.toNat % 8 = k
      (r.cur.pDone.getLsbD k = true ↔ s.cur.pDone.getLsbD k = true ∧ ¬ reported 0x19) ∧
      (r.cur.pFault.getLsbD k = true ↔ s.cur.pFault.getLsbD k = true ∧ ¬ reported 0x1A)) ∧
    r.cur.tcause.extractLsb' 0 8 = i.cause ∧
    r.cur.tcause.extractLsb' 8 4 = BitVec.ofNat 4 (i.win.getD 0) ∧
    r.cur.tcause.getLsbD 12 = i.win.isSome ∧ r.cur.tcause.getLsbD 13 = i.step ∧
    r.cur.tcause.getLsbD 14 = s.cur.sup ∧ r.cur.tcause.getLsbD 15 = i.async ∧
    r = { s with cur := r.cur, mem := r.mem, hostMem := r.hostMem, links := r.links } ∧
    (match s.locate twin with
     | some (.host h) => r.mem = s.mem ∧ r.links = s.links ∧ ∀ a, a < h ∨ h + 0x4840 ≤ a → r.hostByte a = s.hostByte a
     | _ => r.hostMem = s.hostMem ∧ (∀ a, a < twin ∨ twin + 0x4840 ≤ a → r.byte a = s.byte a) ∧
         ∀ line, r.tag line = if twin / 64 ≤ line ∧ line < (twin + 0x4840) / 64 then none else s.tag line) ∧
    r.HoldsRecord s.cur false i.tepc

/-- R111, R115, R140: ERET from the handler that a trap entered brings back what the record holds: the g registers, the
shadows and the state words are as before the trap, at the saved pc and the level before the trap; what the record does not
hold stays as the core holds it. -/
def Obligations.TrapThenEret : Prop :=
  ∀ (s : State) (i : TrapInfo), s.Inv → s.cur.window = [] → s.cur.updq = [] → s.cur.srseed ≠ 0 →
    s.blockOk s.cur.twinAddr 0x4840 = true →
    ∃ t : State, exec .eret (s.trap i) = .next t ∧ (∀ k, t.rg k = s.rg k) ∧
      t.cur = { s.cur with
        g := t.cur.g, tcause := (s.trap i).cur.tcause, tepc := i.tepc, tval := i.tval, telem := BitVec.ofNat 32 i.elem,
        pc := i.tepc, stepping := s.cur.estep && !s.cur.sup, stepDone := false, stalled := false, wcount := 0,
        quiet := false, stop := none, leaving := false, aside := [], pDone := (s.trap i).cur.pDone,
        pFault := (s.trap i).cur.pFault }

/-- R64, R111, R140: what ERET takes from any record with the right MAGIC, for a handler whose window is empty: the g registers,
the shadows, every state word but MVL, MSTATE and the pending bits of UIMASK, and an entry for each valid window record whose
word can stand in the window, with its latched operands and its progress; the rest of the strand stays as it is. Reading a
record in a poisoned sector as memory holds it is the model's choice (log 52), and so is dropping a record whose word cannot
stand in the window (log 55). -/
def Obligations.EretResult : Prop :=
  ∀ (s : State), s.cur.sup = true → s.cur.window = [] →
    let twin := s.cur.twinAddr
    let word := fun (o : Nat) => BitVec.ofNat 64 (s.physRead (twin + o) 8)
    s.physRead twin 4 = 0x06405348 →
    ∃ t : State, exec .eret s = .next t ∧ t = { s with cur := t.cur } ∧
      t.cur.pc = s.cur.tepc ∧ t.cur.sup = s.cur.tcause.getLsbD 14 ∧
      s.RestoresWords twin t.cur ∧
      t.cur.grantNext = (word 0x1F0).setWidth 17 ∧ t.cur.grantPend = (word 0x1F0).getLsbD 31 ∧
      t.cur = { s.cur with
        g := t.cur.g, shadow := t.cur.shadow, vl := t.cur.vl, rl := t.cur.rl, vtype := t.cur.vtype, frm := t.cur.frm,
        fflags := t.cur.fflags, repro := t.cur.repro, srseed := t.cur.srseed, uivec := t.cur.uivec, uicause := t.cur.uicause,
        uiepc := t.cur.uiepc, uiIn := t.cur.uiIn, enDone := t.cur.enDone, enFault := t.cur.enFault, enTrapu := t.cur.enTrapu,
        cxldr := t.cur.cxldr, grantNext := t.cur.grantNext, grantPend := t.cur.grantPend, window := t.cur.window,
        pc := t.cur.pc, sup := t.cur.sup, stepping := s.cur.estep && !t.cur.sup, stepDone := false, wcount := 0,
        quiet := false, strip := t.cur.strip } ∧
      s.RestoresWindow twin t.cur.window

/-- R55, R78, R104, R124, R126, R129, R136, R140, R142: the traps of scalar instructions: a word that is no instruction raises ILLEGAL_OP at any level; BRK raises BRK at
any level; ERET, HALT and TLBINV raise PRIV at user level; UIRET raises ILLEGAL_OP at supervisor level or outside a
user-level handler; a state access raises ILLEGAL_OP for a number that the table does not list, at any level, else PRIV at
user level for the numbers from 0x100 on; each of these has the word in TVAL. A misaligned access traps before translation,
and a failed translation traps with its cause, a linked, conditional or SC access as well; their TVAL is the address, and
nothing is loaded or stored. Each is precise. -/
def Obligations.ScalarTraps : Prop :=
  (∀ (s : State) (w : BitVec 32),
     s.Traps (.noInstruction w) 0x01 (w.setWidth 64) ∧
     s.Traps .brk 0x15 0x78000004 ∧
     (s.cur.sup = false → s.Traps .eret 0x18 0x78000002 ∧ s.Traps .halt 0x18 0x78000005 ∧ s.Traps .tlbinv 0x18 0x78000007) ∧
     (s.cur.sup = true ∨ s.cur.uiIn = false → s.Traps .uiret 0x01 0x78000003)) ∧
  (∀ (s : State) (a b : BitVec 5) (n : BitVec 12),
     let traps := fun (cause : BitVec 8) =>
       s.Traps (.mfs a n) cause (stateWord 0 a 0 n) ∧ s.Traps (.mts b n) cause (stateWord 1 0 b n) ∧
       s.Traps (.sets b n) cause (stateWord 2 0 b n) ∧ s.Traps (.clrs b n) cause (stateWord 3 0 b n)
     (stateAssigned n = false → traps 0x01) ∧
     (stateAssigned n = true → 0x100 ≤ n.toNat → s.cur.sup = false → traps 0x18)) ∧
  (∀ (s : State) (a b : BitVec 5) (i : BitVec 16), s.AtRest →
      let va := s.rg b + BitVec.ofInt 64 i.toInt
      let check := fun (x : Instr) (n : Nat) (k : Kind) =>
        (va.toNat % n ≠ 0 → s.Traps x 0x07 va) ∧
        (va.toNat % n = 0 → ∀ c, s.translate s.cur va k = .error c → s.Traps x c va)
      check (.ldb a b i) 1 .read ∧ check (.ldbn a b i) 1 .read ∧ check (.ldh a b i) 2 .read ∧ check (.ldhn a b i) 2 .read ∧
      check (.ldw a b i) 4 .read ∧ check (.ldwn a b i) 4 .read ∧ check (.ldd a b i) 8 .read ∧
      check (.stb a b i) 1 .write ∧ check (.sth a b i) 2 .write ∧ check (.stw a b i) 4 .write ∧ check (.std a b i) 8 .write) ∧
  (∀ (s : State) (a b c : BitVec 5), s.AtRest →
      let check := fun (x : Instr) (n : Nat) (k : Kind) =>
        ((s.rg b).toNat % n ≠ 0 → s.Traps x 0x07 (s.rg b)) ∧
        ((s.rg b).toNat % n = 0 → ∀ c, s.translate s.cur (s.rg b) k = .error c → s.Traps x c (s.rg b))
      check (.ldlw a b) 4 .read ∧ check (.ldld a b) 8 .read ∧ check (.stcw a b c) 4 .write ∧ check (.stcd a b c) 8 .write ∧
      (s.cur.late = [] → check (.ldscw a b) 4 .read ∧ check (.ldscd a b) 8 .read ∧ check (.stscw a b) 4 .write ∧
        check (.stscd a b) 8 .write))

/-- R105, R113, R140: TRAPU at user level with its enable set and a vector given, outside a handler, enters the user-level
handler: the shadows, g24, UICAUSE, UIEPC, UIMASK.IN and PC, and nothing else; in every other case it escalates to a
supervisor trap with the word in TVAL. UIRET in a user-level handler restores g24 to g29 from the shadows, clears UIMASK.IN
and resumes at UIEPC. -/
def Obligations.UserTraps : Prop :=
  (∀ (s : State), s.AtRest →
     let taken := s.cur.sup = false ∧ s.cur.uiIn = false ∧ s.cur.enTrapu = true ∧ s.cur.uivec ≠ 0
     (taken → exec .trapu s = .next (s.upd fun st => { st.wg 24 0 with
       shadow := Vector.ofFn fun k => st.g[24 + k.val], uicause := 0x14, uiepc := st.pc, uiIn := true, quiet := false,
       pc := BitVec.ofNat 64 (st.uivec.toNat * 64) })) ∧
     (¬ taken → s.Traps .trapu 0x14 0x78000001)) ∧
  (∀ (s : State), s.AtRest → s.cur.sup = false → s.cur.uiIn = true →
     ∃ t : State, exec .uiret s = .next t ∧
       t = { s with cur := { s.cur with g := t.cur.g, uiIn := false, pc := s.cur.uiepc, wcount := 0, quiet := false } } ∧
       ∀ k : BitVec 5, t.rg k =
         if 24 ≤ k.toNat ∧ k.toNat ≤ 29 then s.cur.shadow.toList.getD (k.toNat - 24) 0 else s.rg k)

/-- R119, R125, R140, R141: the other members of SYS: HALT at supervisor level with an empty window kills the strand's own
gang, EXIT ends a strand that has nothing outstanding, TLBINV drops the translations of the strand's ASID on every core. -/
def Obligations.SystemMembers : Prop :=
  ∀ (s : State), s.cur.window = [] →
    (∀ g, s.cur.sup = true → s.gangOf s.cur.gang = some g → g.killed = none →
      exec .halt s = .next (s.killGang s.cur.gang 1)) ∧
    (s.cur.updq = [] → (∀ c ∈ s.cur.copies.toList, c.st ≠ 1) → s.relayBusy = false →
      ∃ t : State, exec .exit s = .next t ∧ t.cur.phase = .exited ∧ (∀ k ∈ t.cur.k.toList, k.status.getLsbD 0 = false) ∧
        (∀ i : Fin 8, t.cur.cx[i.val] = none) ∧ (∀ i : Fin 4, t.cur.t[i.val] = 0) ∧ t.cur.tilesOn = false ∧
        (∀ i : Fin 8, t.cur.cb[i.val] = 0) ∧ t.cur.slalom = 0 ∧ t.cur.pDone = 0 ∧ t.cur.pFault = 0 ∧ t.mem = s.mem ∧ t.cur.g = s.cur.g) ∧
    (s.cur.sup = true → ∃ t : State, exec .tlbinv s = .next t.advance ∧ t = { s with tlb := t.tlb } ∧
      ∀ e, e ∈ t.tlb ↔ e ∈ s.tlb ∧ e.asid ≠ s.cur.asid)

/-! ### Vector arithmetic -/

/-- R54, R156, R157, R160, R161: what every member of VINT leaves in each element of its destination, in its three forms,
under its guard and the two policies; it sets no flag and changes nothing else. -/
def Obligations.VintResult : Prop :=
  ∀ (s : State) (a b c : BitVec 5) (m : BitVec 3) (f : BitVec 2), s.etype < 8 →
    let w := s.sew
    let x := fun e => BitVec.ofNat w (s.cur.elem b w e)
    let y := fun e => BitVec.ofNat w (s.second f c w e)
    let d := fun e => BitVec.ofNat w (s.cur.elem a w e)
    let k := fun e => if s.cur.mbit m e then BitVec.ofNat w 1 else 0
    let val := fun (z : BitVec w) => if s.etype % 2 = 0 then z.toInt else (z.toNat : Int)
    let clamp := fun (z : Int) => BitVec.ofInt w (if s.etype % 2 = 0 then max (-(2 ^ (w - 1))) (min z (2 ^ (w - 1) - 1))
      else max 0 (min z (2 ^ w - 1)))
    let gives := fun (i : Instr) (r : Nat → BitVec w) => s.Open i →
      s.Writes i (.v a) w s.count (s.guard m) fun e => (r e).toNat
    let carries := fun (i : Instr) (r : Nat → BitVec w) => s.Open i →
      s.Writes i (.v a) w s.count (fun _ => true) fun e => (r e).toNat
    gives (.vadd a b c m f) (fun e => x e + y e) ∧
    gives (.vsub a b c m f) (fun e => x e - y e) ∧
    gives (.vmul a b c m f) (fun e => x e * y e) ∧
    gives (.vmulh a b c m f) (fun e => BitVec.ofInt w ((x e).toInt * (y e).toInt / 2 ^ w)) ∧
    gives (.vmulhn a b c m f) (fun e => BitVec.ofNat w ((x e).toNat * (y e).toNat / 2 ^ w)) ∧
    gives (.vdiv a b c m f) (fun e => if y e = 0 then BitVec.allOnes w else
      BitVec.ofInt w ((x e).toInt.tdiv (y e).toInt)) ∧
    gives (.vdivn a b c m f) (fun e => if y e = 0 then BitVec.allOnes w else x e / y e) ∧
    gives (.vrem a b c m f) (fun e => if y e = 0 then x e else BitVec.ofInt w ((x e).toInt.tmod (y e).toInt)) ∧
    gives (.vremn a b c m f) (fun e => if y e = 0 then x e else x e % y e) ∧
    gives (.vmin a b c m f) (fun e => if (x e).toInt ≤ (y e).toInt then x e else y e) ∧
    gives (.vmax a b c m f) (fun e => if (x e).toInt ≤ (y e).toInt then y e else x e) ∧
    gives (.vminn a b c m f) (fun e => if (x e).toNat ≤ (y e).toNat then x e else y e) ∧
    gives (.vmaxn a b c m f) (fun e => if (x e).toNat ≤ (y e).toNat then y e else x e) ∧
    gives (.vand a b c m f) (fun e => x e &&& y e) ∧
    gives (.vor a b c m f) (fun e => x e ||| y e) ∧
    gives (.vxor a b c m f) (fun e => x e ^^^ y e) ∧
    gives (.vshl a b c m f) (fun e => x e <<< ((y e).toNat % w)) ∧
    gives (.vshr a b c m f) (fun e => x e >>> ((y e).toNat % w)) ∧
    gives (.vshra a b c m f) (fun e => (x e).sshiftRight ((y e).toNat % w)) ∧
    gives (.vsadd a b c m f) (fun e => clamp (val (x e) + val (y e))) ∧
    gives (.vssub a b c m f) (fun e => clamp (val (x e) - val (y e))) ∧
    gives (.vmacc a b c m f) (fun e => d e + x e * y e) ∧
    carries (.vadc a b c m f) (fun e => x e + y e + k e) ∧
    carries (.vsbc a b c m f) (fun e => x e - y e - k e)

/-- R149, R151, R162, R163: the members of VFP and VFMA, each element rounded once under FRM by the functions of the format,
with the flags of the active elements gathered into FFLAGS. -/
def Obligations.VfpResult : Prop :=
  ∀ (s : State) (a b c d : BitVec 5) (m : BitVec 3) (f : BitVec 2),
    let t := s.etype
    let w := s.sew
    let k := fmtOf t
    let wide := fmtOf (if t = 10 then 11 else 10)
    let rm := rmOfFrm s.cur.frm
    let x := s.cur.elem b w
    let y := s.second f c w
    let u := s.cur.elem c w
    let v := s.cur.elem d w
    let gives := fun (i : Instr) (r : Nat → Res) => 8 ≤ t → t ≤ 11 → s.Open i →
      s.WritesFp i (.v a) w s.count (s.guard m) r
    let copies := fun (i : Instr) (r : Nat → Nat) => 8 ≤ t → t ≤ 11 → s.Open i →
      s.Writes i (.v a) w s.count (s.guard m) r
    gives (.vfadd a b c m f) (fun e => fpAdd k rm (x e) (y e)) ∧
    gives (.vfsub a b c m f) (fun e => fpSub k rm (x e) (y e)) ∧
    gives (.vfmul a b c m f) (fun e => fpMul k rm (x e) (y e)) ∧
    gives (.vfdiv a b c m f) (fun e => fpDiv k rm (x e) (y e)) ∧
    gives (.vfmin a b c m f) (fun e => fpMinMax k false (x e) (y e)) ∧
    gives (.vfmax a b c m f) (fun e => fpMinMax k true (x e) (y e)) ∧
    gives (.vfsqrt a b m) (fun e => fpSqrt k rm (x e)) ∧
    copies (.vfabs a b m) (fun e => x e % 2 ^ (w - 1)) ∧
    copies (.vfneg a b m) (fun e => x e ^^^ 2 ^ (w - 1)) ∧
    copies (.vfsgn a b c m f) (fun e => x e % 2 ^ (w - 1) + y e / 2 ^ (w - 1) * 2 ^ (w - 1)) ∧
    gives (.vfma a b c d m) (fun e => fpFma k rm (x e) (u e) (v e) false false) ∧
    gives (.vfms a b c d m) (fun e => fpFma k rm (x e) (u e) (v e) false true) ∧
    gives (.vfnma a b c d m) (fun e => fpFma k rm (x e) (u e) (v e) true true) ∧
    gives (.vfnms a b c d m) (fun e => fpFma k rm (x e) (u e) (v e) true false) ∧
    (t < 8 → s.Open (.vima a b c d m) →
      s.Writes (.vima a b c d m) (.v a) w s.count (s.guard m) fun e => (v e + x e * u e) % 2 ^ w) ∧
    (t = 8 ∨ t = 9 ∨ t = 10 → (s.cur.vl ≠ 0 → s.count * (2 * w) ≤ s.cur.grsz.toNat * 8) → s.Open (.vwfma a b c d m) →
      s.WritesFp (.vwfma a b c d m) (.v a) (2 * w) s.count (s.guard m) fun e =>
        addProduct wide rm (mulVal (unpack k (x e)) (unpack k (u e))) (unpack wide (s.cur.elem d (2 * w) e)))

/-- R150, R152, R164: VCVT converts each active element into the destination type; an element of its own type is copied, a
NaN made canonical. Under stochastic rounding each active element draws one step of the generator, which SRSEED keeps. -/
def Obligations.VcvtResult : Prop :=
  ∀ (s : State) (a b r : BitVec 5) (m : BitVec 3) (sat : BitVec 1) (d : BitVec 4),
    let i := Instr.vcvt a b r m sat d
    let t := s.etype
    let dt := d.toNat
    let steps := fun e => ((List.range e).filter (s.guard m)).length
    let rm := fun e => rmOfCode r.toNat s.cur.frm (xorshiftN (steps (e + 1)) s.cur.srseed).toNat
    let x := s.cur.elem b s.sew
    let result := fun e =>
      if t ≠ dt then convert t dt (rm e) (sat == 1) (x e)
      else if 8 ≤ t ∧ (unpack (fmtOf t) (x e)).isNaN = true then ⟨(fmtOf t).nan, nvOf (unpack (fmtOf t) (x e))⟩
      else ⟨x e, 0⟩
    t ≤ 13 → dt ≤ 13 → (s.cur.vl ≠ 0 → s.count * sewOf dt ≤ s.cur.grsz.toNat * 8) → s.Open i →
    ∃ u, s.Retired u [.v a] [] ∧ s.Units u (.v a) (sewOf dt) s.count (s.guard m) (fun e => (result e).bits) ∧
      s.Gathers u s.count (s.guard m) (fun e => (result e).fl) ∧
      exec i s = .next (u.upd fun st =>
        { st with srseed := if r = 7 then xorshiftN (steps s.count) s.cur.srseed else s.cur.srseed })

/-- R161, R165: the compares, the carries and the borrows: which bits of the mask they set. -/
def Obligations.VcmpResult : Prop :=
  ∀ (s : State) (a : BitVec 3) (b c : BitVec 5) (m : BitVec 3) (f : BitVec 2),
    let t := s.etype
    let w := s.sew
    let k := fmtOf t
    let x := fun e => BitVec.ofNat w (s.cur.elem b w e)
    let y := fun e => BitVec.ofNat w (s.second f c w e)
    let carry := fun e => if s.cur.mbit m e then 1 else 0
    let sets := fun (i : Instr) (p : Nat → Bool) => t < 8 → s.Open i →
      s.Writes i (.m a) 1 s.count (s.guard m) fun e => (p e).toNat
    let setsAll := fun (i : Instr) (p : Nat → Bool) => t < 8 → s.Open i →
      s.Writes i (.m a) 1 s.count (fun _ => true) fun e => (p e).toNat
    let setsFp := fun (i : Instr) (p : Nat → Nat → Bool × Flags) => 8 ≤ t → t ≤ 11 → s.Open i →
      s.WritesFp i (.m a) 1 s.count (s.guard m) fun e => truth (p (s.cur.elem b w e) (s.second f c w e))
    sets (.vceq a b c m f) (fun e => x e == y e) ∧
    sets (.vcne a b c m f) (fun e => x e != y e) ∧
    sets (.vclt a b c m f) (fun e => (x e).toInt < (y e).toInt) ∧
    sets (.vcle a b c m f) (fun e => (x e).toInt ≤ (y e).toInt) ∧
    sets (.vcgt a b c m f) (fun e => (y e).toInt < (x e).toInt) ∧
    sets (.vcge a b c m f) (fun e => (y e).toInt ≤ (x e).toInt) ∧
    sets (.vcltn a b c m f) (fun e => (x e).toNat < (y e).toNat) ∧
    sets (.vclen a b c m f) (fun e => (x e).toNat ≤ (y e).toNat) ∧
    sets (.vcgtn a b c m f) (fun e => (y e).toNat < (x e).toNat) ∧
    sets (.vcgen a b c m f) (fun e => (y e).toNat ≤ (x e).toNat) ∧
    setsFp (.vfceq a b c m f) (fpEq k) ∧
    setsFp (.vfclt a b c m f) (fpLt k false) ∧
    setsFp (.vfcle a b c m f) (fpLt k true) ∧
    setsFp (.vfcun a b c m f) (fun p q =>
      ((unpack k p).isNaN || (unpack k q).isNaN, nvOf (unpack k p) ||| nvOf (unpack k q))) ∧
    setsAll (.vcarry a b c m f) (fun e => 2 ^ w ≤ (x e).toNat + (y e).toNat + carry e) ∧
    setsAll (.vborrow a b c m f) (fun e => (x e).toNat < (y e).toNat + carry e)

/-- R166, R167: the mask instructions: which bits of the mask, which elements or which count they give. -/
def Obligations.MaskResult : Prop :=
  ∀ (s : State) (a b c : BitVec 3) (v : BitVec 5) (k : BitVec 5), s.etype ≠ 15 →
    let n := s.count
    let p := s.cur.mbit b
    let q := s.cur.mbit c
    let sets := fun (i : Instr) (f : Nat → Bool) => s.Open i → s.Writes i (.m a) 1 n (fun _ => true) fun e => (f e).toNat
    let returns := fun (i : Instr) (x : Word) => s.Open i → s.Returns i v x
    sets (.mand a b c) (fun e => p e && q e) ∧ sets (.mor a b c) (fun e => p e || q e) ∧
    sets (.mxor a b c) (fun e => p e ^^ q e) ∧ sets (.mandn a b c) (fun e => p e && !q e) ∧
    sets (.mnot a b) (fun e => !p e) ∧ sets (.mmov a b) p ∧
    sets (.mshup a b k) (fun e => k.toNat ≤ e && p (e - k.toNat)) ∧
    sets (.mshdn a b k) (fun e => e + k.toNat < n && p (e + k.toNat)) ∧
    sets (.mset a) (fun _ => true) ∧ sets (.mclr a) (fun _ => false) ∧
    sets (.vtom a v) (fun e => s.cur.elem v s.sew e != 0) ∧
    (s.Open (.mtov v b) → s.Writes (.mtov v b) (.v v) s.sew n (fun _ => true) fun e => (p e).toNat) ∧
    returns (.mpopc v b) (BitVec.ofNat 64 ((List.range n).filter p).length) ∧
    returns (.mfirst v b) (match (List.range n).find? p with
      | some e => BitVec.ofNat 64 e
      | none => 0xFFFFFFFFFFFFFFFF)

/-- R168, R169: the moves and permutes, for operands that pass the checks of shape. -/
def Obligations.VpermResult : Prop :=
  ∀ (s : State) (a b c : BitVec 5) (m : BitVec 3) (f : BitVec 2), s.etype ≠ 15 →
    let w := s.sew
    let n := s.count
    let vl := s.cur.vl.toNat
    let rl := s.cur.rl.toNat
    let k := s.amount f c
    let x := s.cur.elem b w
    let y := s.second f c w
    let gives := fun (i : Instr) (len : Nat) (r : Nat → Nat) => s.Open i → s.Writes i (.v a) w len (s.guard m) r
    let scatters := fun (i : Instr) (dest act : Nat → Bool) (r : Nat → Nat) => s.Open i →
      ∃ t, exec i s = .next t ∧ s.Retired t [.v a] [] ∧ s.Scatters t (.v a) w dest act r ∧ t.cur.fflags = s.cur.fflags
    gives (.vmov a c m f) n y ∧
    ((s.cur.vl ≠ 0 → k < n) → gives (.vsplat a b c m f) n fun _ => x k) ∧
    (s.Open (.vslup a b c m f) →
      s.Writes (.vslup a b c m f) (.v a) w n (fun e => k ≤ e && s.guard m e) fun e => x (e - k)) ∧
    gives (.vsldn a b c m f) n (fun e => if e + k < n then x (e + k) else 0) ∧
    gives (.vrgath a b c m) n (fun e => if s.cur.elem c w e < n then x (s.cur.elem c w e) else 0) ∧
    ((s.cur.vl ≠ 0 → k < rl) → gives (.vrows a b c m f) vl fun e => x (k * vl + e)) ∧
    ((s.cur.vl ≠ 0 → k < vl) → gives (.vcols a b c m f) rl fun r => x (r * vl + k)) ∧
    ((s.cur.vl ≠ 0 → k < rl) → scatters (.vroww a b c m f)
      (fun e => k * vl ≤ e && e < k * vl + vl) (s.guard m) fun e => x (e - k * vl)) ∧
    ((s.cur.vl ≠ 0 → k < vl) → scatters (.vcolw a b c m f)
      (fun e => e < n && e % vl == k) (s.guard m) fun e => x (e / vl)) ∧
    ((s.cur.vl ≠ 0 → k < n) → scatters (.vins a b c f) (· == k) (fun _ => true) fun _ => (s.rg b).toNat) ∧
    ((s.cur.vl ≠ 0 → k < n) → s.Open (.vextr a b c f) → s.Returns (.vextr a b c f) a
      (if s.cur.vl = 0 then 0
       else if s.etype < 8 ∧ s.etype % 2 = 0 then BitVec.ofInt 64 (BitVec.ofNat w (x k)).toInt
       else BitVec.ofNat 64 (x k))) ∧
    (s.Open (.vmerge a b c m f) → s.Writes (.vmerge a b c m f) (.v a) w n (fun _ => true) fun e =>
      if s.guard m e then y e else x e) ∧
    (s.etype < 8 → gives (.vid a m) n fun e => e % 2 ^ w)

/-! ### Sparse instructions, reductions and ripe tags -/

/-- R173, R174, R177: compress, expand, prefix count, conflict and search. -/
def Obligations.SelectionResult : Prop :=
  ∀ (s : State) (a b c : BitVec 5) (p m : BitVec 3), s.etype ≠ 15 →
    let w := s.sew
    let n := s.count
    let x := s.cur.elem b w
    let actives := (List.range n).filter (s.guard m)
    let index := fun (l : List Nat) => match l with
      | j :: _ => j % 2 ^ w
      | [] => 2 ^ w - 1
    let gives := fun (i : Instr) (r : Nat → Nat) => s.Open i → s.Writes i (.v a) w n (s.guard m) r
    (s.Open (.vcompress a b m) →
      s.Writes (.vcompress a b m) (.v a) w actives.length (fun _ => true) fun j => x (actives.getD j 0)) ∧
    gives (.vexpand a b m) (fun e => x ((List.range e).filter (s.guard m)).length) ∧
    (s.etype < 8 → gives (.viota a p m) fun e => ((List.range e).filter (s.cur.mbit p)).length % 2 ^ w) ∧
    (s.etype < 8 → gives (.vconflict a b m) fun e =>
      index ((List.range e).reverse.filter fun j => s.guard m j && x j == x e)) ∧
    (s.etype < 8 → gives (.vinter a b c m) fun e =>
      index ((List.range n).filter fun j => s.cur.elem c w j == x e))

/-- R175, R176: the segmented scan. The order of a sum with REPRO = 0 is the tree that the part picks (log 7). -/
def Obligations.SegmentedScan : Prop :=
  ∀ (s : State) (a b o : BitVec 5) (m : BitVec 3),
    let i := Instr.vsegscan a b o m
    let t := s.etype
    let w := s.sew
    let k := fmtOf t
    let isHead := fun e => e == 0 || (m != 0 && s.cur.mbit m e)
    let head := fun e => ((List.range (e + 1)).reverse.find? isHead).getD 0
    let terms := fun e => (List.range (e + 1 - head e)).map fun j => s.cur.elem b w (head e + j)
    let val := fun (z : Nat) => if t % 2 = 0 then (BitVec.ofNat w z).toInt else (z : Int)
    let scans := fun (r : Nat → Nat → Nat) => t < 8 → s.Open i →
      s.Writes i (.v a) w s.count (fun _ => true) fun e => (terms e).tail.foldl r ((terms e).headD 0)
    let scansFp := fun (r : Nat → Res) => 8 ≤ t → t ≤ 11 → s.Open i → s.WritesFp i (.v a) w s.count (fun _ => true) r
    (o = 0 → scans fun x y => (x + y) % 2 ^ w) ∧
    (o = 1 → scans fun x y => if val y < val x then y else x) ∧
    (o = 2 → scans fun x y => if val x < val y then y else x) ∧
    (o = 3 → scans fun x y => x &&& y) ∧ (o = 4 → scans fun x y => x ||| y) ∧ (o = 5 → scans fun x y => x ^^^ y) ∧
    (o = 6 → scansFp fun e => fpSum (s.cur.repro == 1) k (rmOfFrm s.cur.frm)
      (Config.treePick s.cur.gvlen.toNat s.cur.vl.toNat s.cur.rl.toNat t)
      ((terms e).map fun z => some (unpack k z))) ∧
    (o = 7 → scansFp fun e => fpExtreme k false 0 (terms e)) ∧ (o = 8 → scansFp fun e => fpExtreme k true 0 (terms e))

/-- R178, R179, R180, R181: the members with two results: the delta with its kept state, the pruned panel with its metadata,
the sorted keys with their sources, and the indices of the nonzero elements with their number. -/
def Obligations.PairedResults : Prop :=
  ∀ (s : State) (a b c : BitVec 5) (m : BitVec 3),
    let t := s.etype
    let w := s.sew
    let n := s.count
    let x := s.cur.elem b w
    let all := fun (_ : Nat) => true
    let val := fun (z : Nat) => if t % 2 = 0 then (BitVec.ofNat w z).toInt else (z : Int)
    let delta := fun e => if t < 8 then ⟨(BitVec.ofNat w (x e) - BitVec.ofNat w (s.cur.elem c w e)).toNat, 0⟩
      else fpSub (fmtOf t) (rmOfFrm s.cur.frm) (x e) (s.cur.elem c w e)
    let above := fun (j p q : Nat) => magAbove t (x (8 * j + p)) (x (8 * j + q)) ||
      (!magAbove t (x (8 * j + q)) (x (8 * j + p)) && p < q)
    let kept := fun j => (List.range 8).filter fun p =>
      ((List.range 8).filter fun q => q != p && above j q p).length < 4
    (t ≤ 11 → a ≠ c → s.Open (.vdelta a b c m) → ∃ u, exec (.vdelta a b c m) s = .next u ∧ s.Retired u [.v a, .v c] [] ∧
      s.Units u (.v a) w n (s.guard m) (fun e => (delta e).bits) ∧ s.Gathers u n (s.guard m) (fun e => (delta e).fl) ∧
      s.Scatters u (.v c) w (fun e => e < n && s.guard m e) all x) ∧
    (t = 0 ∨ t = 1 ∨ t = 8 ∨ t = 9 ∨ t = 12 ∨ t = 13 → a ≠ c → (s.cur.vl ≠ 0 → s.cur.vl.toNat % 8 = 0) → s.Open (.vprune48 a b c) →
      ∃ u, exec (.vprune48 a b c) s = .next u ∧ s.Retired u [.v a, .v c] [] ∧ u.cur.fflags = s.cur.fflags ∧
        s.Units u (.v a) w (n / 2) all (fun e => x (8 * (e / 4) + (kept (e / 4)).getD (e % 4) 0)) ∧
        s.Units u (.v c) 8 (n / 8) all (fun j => ((kept j).map (2 ^ ·)).sum)) ∧
    (t < 8 → a ≠ c → (s.cur.vl ≠ 0 → n * 32 ≤ s.cur.grsz.toNat * 8) → s.Open (.vsortseg a b c m) → ∀ l : List Nat,
      l.Perm ((List.range n).filter (s.guard m)) →
      l.Pairwise (fun p q => val (x p) < val (x q) ∨ val (x p) = val (x q) ∧ p < q) →
      ∃ u, exec (.vsortseg a b c m) s = .next u ∧ s.Retired u [.v a, .v c] [] ∧ u.cur.fflags = s.cur.fflags ∧
        s.Units u (.v a) w l.length all (fun j => x (l.getD j 0)) ∧ s.Units u (.v c) 32 l.length all (l.getD · 0)) ∧
    (t ≤ 13 → (s.cur.vl ≠ 0 → n * 32 ≤ s.cur.grsz.toNat * 8) → s.Open (.vnz a b c m) →
      let l := (List.range n).filter fun e => s.guard m e &&
        (if t < 8 then x e != 0 else x e % 2 ^ (w - 1) != 0)
      ∃ u, exec (.vnz a b c m) s = .next (u.wg c (BitVec.ofNat 64 l.length)) ∧ s.Retired u [.v a] [] ∧
        u.cur.fflags = s.cur.fflags ∧ s.Units u (.v a) 32 l.length all (l.getD · 0))

/-- R182, R183, R184: one result per row, from the active terms of the row, the empty-row results included. The order of a
sum with REPRO = 0, and whether it then rounds its products, are the part's (log 7); that an inactive element keeps its place in
its block of 32 with REPRO = 1 is the model's reading (log 43). -/
def Obligations.VredResult : Prop :=
  ∀ (s : State) (a b c : BitVec 5) (m : BitVec 3),
    let t := s.etype
    let w := s.sew
    let k := fmtOf t
    let rm := rmOfFrm s.cur.frm
    let vl := s.cur.vl.toNat
    let x := s.cur.elem b w
    let row := fun (r : Nat) => (List.range vl).map fun j => r * vl + j
    let actives := fun (r : Nat) => ((row r).filter (s.guard m)).map x
    let val := fun (z : Nat) => if t % 2 = 0 then (BitVec.ofNat w z).toInt else (z : Int)
    let least := if t % 2 = 0 then 2 ^ (w - 1) else 0
    let most := if t % 2 = 0 then 2 ^ (w - 1) - 1 else 2 ^ w - 1
    let folds := fun (i : Instr) (r : Nat → Nat → Nat) (empty : Nat) => t < 8 → s.Open i →
      s.Writes i (.v a) w s.cur.rl.toNat (fun _ => true) fun e => match actives e with
        | [] => empty
        | z :: l => l.foldl r z
    let rows := fun (i : Instr) (r : Nat → Res) => 8 ≤ t → t ≤ 11 → s.Open i →
      s.WritesFp i (.v a) w s.cur.rl.toNat (fun _ => true) r
    let pick := Config.treePick s.cur.gvlen.toNat vl s.cur.rl.toNat t
    let rounds := s.cur.repro == 0 && Config.dotRounds s.cur.gvlen.toNat vl s.cur.rl.toNat t
    let products := fun r => (row r).map fun e => if s.guard m e then some (dotTerm k rm rounds (x e) (s.cur.elem c w e)) else none
    folds (.vrsum a b m) (fun p q => (p + q) % 2 ^ w) 0 ∧
    folds (.vrmin a b m) (fun p q => if val q < val p then q else p) most ∧
    folds (.vrmax a b m) (fun p q => if val p < val q then q else p) least ∧
    folds (.vrand a b m) (fun p q => p &&& q) (2 ^ w - 1) ∧
    folds (.vror a b m) (fun p q => p ||| q) 0 ∧ folds (.vrxor a b m) (fun p q => p ^^^ q) 0 ∧
    rows (.vfrsum a b m) (fun r => fpSum (s.cur.repro == 1) k rm pick
      ((row r).map fun e => if s.guard m e then some (unpack k (x e)) else none)) ∧
    rows (.vfrmin a b m) (fun r => fpExtreme k false (k.signed false k.inf) (actives r)) ∧
    rows (.vfrmax a b m) (fun r => fpExtreme k true (k.signed true k.inf) (actives r)) ∧
    rows (.vfdot a b c m) (fun r =>
      let sum := fpSum (s.cur.repro == 1) k rm pick ((products r).map fun p => p.map (·.1))
      ⟨sum.bits, sum.fl ||| ((products r).filterMap id).foldl (fun fl p => fl ||| p.2) 0⟩)

/-- R187, R188, R189: the tag instructions of a strand with an empty window: everything is ripe, and nothing precedes. -/
def Obligations.VtagResult : Prop :=
  ∀ (s : State) (a b n : BitVec 5) (m : BitVec 3), s.etype ≠ 15 →
    (s.Open (.vtagq a b) → s.Returns (.vtagq a b) a (BitVec.ofNat 64 s.count)) ∧
    (s.Open (.vwaitr a b m) →
      s.Returns (.vwaitr a b m) a (BitVec.ofNat 64 ((List.range s.count).filter (s.guard m)).length)) ∧
    (s.Open (.vprog a n) → s.Returns (.vprog a n) a 0xFFFFFFFFFFFFFFFF) ∧
    (s.Open (.vdrop a m) → s.Writes (.vdrop a m) (.v a) s.sew s.count (s.guard m) fun _ => 0)

/-- R51, R157, R158, R169, R170, R191, R226, R228, R235, R238, R239, R250, R266, R285: every member with a limit on its etype or its
operands traps at entry, precisely: an etype outside its set raises TYPE, and an operand beyond its limits then raises SHAPE,
with the word in TVAL; SHAPE is not raised at VL 0, nor is a TYPE of a memory access, of the slalom former, of CX or of UPD. A
member that names a tile raises TILE_OFF before them while the tiles are off, and more than 256 items of the slalom former raise
SLALOM_RANGE. That a drain at the reserved etype raises TYPE is the model's reading (log 42). -/
def Obligations.EntryTraps : Prop :=
  ∀ (s : State) (a b c d : BitVec 5) (p q m : BitVec 3) (f tile : BitVec 2) (sat : BitVec 1) (mt : BitVec 4),
    let t := s.etype
    let tt := s.cur.tetype.toNat
    let n := s.count
    let w := s.sew
    let vl := s.cur.vl.toNat
    let rl := s.cur.rl.toNat
    let mvl := s.cur.mvl.toNat
    let room := s.cur.grsz.toNat * 8
    let k := s.amount f c
    let x := (s.rg c).toNat
    let live := s.cur.vl ≠ 0
    let traps := fun (cause : BitVec 8) (l : List Instr) => ∀ i ∈ l, s.Open i → s.Traps i cause (insWord i)
    let type := fun (ok : Prop) (l : List Instr) => ¬ ok → traps 0x08 l
    let access := fun (ok : Prop) (l : List Instr) => live → ¬ ok → traps 0x08 l
    let shape := fun (ok bad : Prop) (l : List Instr) => live → ok → bad → traps 0x09 l
    let int := t < 8
    let fp := 8 ≤ t ∧ t ≤ 11
    let elem := t ≠ 15
    let prune := t = 0 ∨ t = 1 ∨ t = 8 ∨ t = 9 ∨ t = 12 ∨ t = 13
    let segment := mt.toNat ≤ 13 ∧ t ≤ 13 ∧ (mt.toNat < 8 ↔ t < 8)
    let panels := fun (ok : Prop) => ok ∧ (s.inReduced = true → t = 10)
    let tiled := s.cur.tilesOn = true
    let moves := [.tgetr a tile c m, .tgetc a tile c m, .tsetr tile b c m, .tsetc tile b c m]
    let drains := [.tstr p tile b c m, .tstx p tile b c m]
    let items : List Instr := [.sclaimw b c m, .sclaimr b c m, .swave p q, .sretire q, .sclear, .spend a]
    type int [.vadd a b c m f, .vsub a b c m f, .vmul a b c m f, .vmulh a b c m f, .vmulhn a b c m f, .vdiv a b c m f,
      .vdivn a b c m f, .vrem a b c m f, .vremn a b c m f, .vmin a b c m f, .vmax a b c m f, .vminn a b c m f,
      .vmaxn a b c m f, .vand a b c m f, .vor a b c m f, .vxor a b c m f, .vshl a b c m f, .vshr a b c m f,
      .vshra a b c m f, .vsadd a b c m f, .vssub a b c m f, .vadc a b c m f, .vsbc a b c m f, .vmacc a b c m f,
      .vima a b c d m, .vceq p b c m f, .vcne p b c m f, .vclt p b c m f, .vcle p b c m f, .vcgt p b c m f, .vcge p b c m f,
      .vcltn p b c m f, .vclen p b c m f, .vcgtn p b c m f, .vcgen p b c m f, .vcarry p b c m f, .vborrow p b c m f,
      .vid a m, .viota a p m, .vconflict a b m, .vinter a b c m, .vsortseg a b c m, .vrsum a b m, .vrmin a b m,
      .vrmax a b m, .vrand a b m, .vror a b m, .vrxor a b m] ∧
    type fp [.vfadd a b c m f, .vfsub a b c m f, .vfmul a b c m f, .vfdiv a b c m f, .vfmin a b c m f, .vfmax a b c m f,
      .vfsqrt a b m, .vfabs a b m, .vfneg a b m, .vfsgn a b c m f, .vfma a b c d m, .vfms a b c d m, .vfnma a b c d m,
      .vfnms a b c d m, .vfceq p b c m f, .vfclt p b c m f, .vfcle p b c m f, .vfcun p b c m f, .vfrsum a b m,
      .vfrmin a b m, .vfrmax a b m, .vfdot a b c m] ∧
    type (if c.toNat < 6 then int else fp) [.vsegscan a b c m] ∧
    type elem [.mand p q m, .mor p q m, .mxor p q m, .mandn p q m, .mnot p q, .mmov p q, .mshup p q c, .mshdn p q c,
      .mpopc a p, .mfirst a p, .mset p, .mclr p, .mtov a p, .vtom p a, .vmov a c m f, .vsplat a b c m f, .vslup a b c m f,
      .vsldn a b c m f, .vrgath a b c m, .vrows a b c m f, .vcols a b c m f, .vroww a b c m f, .vcolw a b c m f,
      .vextr a b c f, .vins a b c f, .vmerge a b c m f, .vcompress a b m, .vexpand a b m, .vtagq a b, .vwaitr a b m,
      .vdrop a m, .vprog a c] ∧
    type (t = 8 ∨ t = 9 ∨ t = 10) [.vwfma a b c d m] ∧ type (t ≤ 11) [.vdelta a b c m] ∧ type (t ≤ 13) [.vnz a b c m] ∧
    type prune [.vprune48 a b c] ∧ type (t ≤ 13 ∧ mt ≠ 14) [.vcvt a b c m sat mt] ∧
    access elem [.vld a b m, .vlds a b c m, .vldx a b c m, .vldl a b c m, .vldsc a b c m, .vldw a b m, .vrload a b,
      .vldrow a b m, .vst a b m, .vsts a b c m, .vstx a b c m, .vstsc a b c m, .vstc a b c m, .vrsave a b, .vstrow a b m] ∧
    access segment [.vldseg a b mt m q, .vstseg a b mt m q] ∧ access (t = 10) [.vemb a b c d m] ∧
    shape elem (n ≤ k) [.vsplat a b c m f, .vextr a b c f, .vins a b c f] ∧
    shape elem (rl ≤ k) [.vrows a b c m f, .vroww a b c m f] ∧ shape elem (vl ≤ k) [.vcols a b c m f, .vcolw a b c m f] ∧
    shape (t ≤ 11) (a = c) [.vdelta a b c m] ∧ shape int (a = c ∨ room < n * 32) [.vsortseg a b c m] ∧
    shape prune (a = c ∨ vl % 8 ≠ 0) [.vprune48 a b c] ∧
    shape (t ≤ 13 ∧ mt ≠ 14) (room < n * sewOf mt.toNat) [.vcvt a b c m sat mt] ∧
    shape (t = 8 ∨ t = 9 ∨ t = 10) (room < n * (2 * w)) [.vwfma a b c d m] ∧ shape (t ≤ 13) (room < n * 32) [.vnz a b c m] ∧
    shape elem (room < n * 32) [.vldx a b c m, .vldl a b c m, .vldsc a b c m, .vstx a b c m, .vstsc a b c m, .vstc a b c m] ∧
    shape elem (4096 < n * (w / 8)) [.vldrow a b m, .vstrow a b m] ∧ shape (t = 10) (room < n * 64) [.vemb a b c d m] ∧
    (¬ tiled → traps 0x0A (moves ++ drains ++ [.tzero tile, .tfold p tile b c m, .tfoldn p tile b c m, .tfoldi8 p tile b c m,
      .tfoldf8 p tile b c m, .tfoldc4 p tile b c m, .tfoldsp p tile b c d m])) ∧
    (tiled →
      type (w = sewOf tt) moves ∧ type (t ≤ 13) drains ∧
      type (panels ((t = 8 ∨ t = 9 ∨ t = 10) ∧ tt = 10 ∨ t = 11 ∧ tt = 11)) [.tfold p tile b c m, .tfoldn p tile b c m] ∧
      type (panels ((t = 0 ∨ t = 1) ∧ tt = 4)) [.tfoldi8 p tile b c m] ∧
      type (panels ((t = 12 ∨ t = 13) ∧ tt = 10)) [.tfoldf8 p tile b c m] ∧
      type (panels (t = 14 ∧ tt = 10)) [.tfoldc4 p tile b c m] ∧
      type (panels ((t = 8 ∨ t = 9 ∨ t = 12 ∨ t = 13) ∧ tt = 10 ∨ (t = 0 ∨ t = 1) ∧ tt = 4)) [.tfoldsp p tile b c d m] ∧
      shape (w = sewOf tt) (mvl < vl ∨ mvl ≤ x) moves ∧ shape (t ≤ 13) (mvl < vl ∨ mvl < 8 * p.toNat + rl) drains ∧
      shape (panels ((t = 8 ∨ t = 9 ∨ t = 12 ∨ t = 13) ∧ tt = 10 ∨ (t = 0 ∨ t = 1) ∧ tt = 4)) (mvl % 8 ≠ 0)
        [.tfoldsp p tile b c d m]) ∧
    access elem items ∧ (live → elem → 256 < n → ∀ i ∈ items, s.Open i → s.Traps i 0x0E (s.cur.vl.setWidth 64)) ∧
    (∀ z, s.cur.cx.toList.getD q.toNat none = some z → (∀ g ∈ [b, c, d].drop (imageNvec z), g = 0) →
      access (t = 4 ∨ t = 5 ∨ t = 10) [.cx a b c d m q]) ∧
    (∀ r, (s.rg a).toNat < 64 → s.region s.cur.gang (s.rg a).toNat = some r → (r.sysScope = true ∨ r.pkg = s.cur.pkg) →
      r.broken = false → s.cur.usn ≠ BitVec.allOnes 40 →
      access (t = r.etype.toNat) [.upd a b c m] ∧ shape (t = r.etype.toNat) (room < n * 32) [.upd a b c m])

/-! ### Vector memory -/

/-- R190, R192, R196, R199, R201: the loads of one register, for addresses that translate and sectors without poison: each
active element receives the bytes at its address. A linked gather also advances the generation once and tags the lines it
reads; a sequentially consistent one draws a ticket for each active element. -/
def Obligations.VectorLoadResult : Prop :=
  ∀ (s : State) (a b c : BitVec 5) (m : BitVec 3), s.Inv → s.Quiet → s.etype ≠ 15 →
    let size := s.sew / 8
    let unit := fun e => s.rg b + BitVec.ofNat 64 (e * size)
    let stride := fun e => s.rg b + BitVec.ofNat 64 e * s.rg c
    let index := fun e => s.rg b + BitVec.ofNat 64 (s.cur.elem c 32 e * size)
    let fits := s.cur.vl ≠ 0 → s.count * 32 ≤ s.cur.grsz.toNat * 8
    let good := fun (l : Nat → Loc) => ∀ e < s.count, s.guard m e = true →
      s.place (index e) size .read = .ok (l e) ∧ s.Clean (l e)
    (s.Unrelayed [a] → s.Open (.vld a b m) → s.Reads (.vld a b m) a m unit) ∧
    (s.Unrelayed [a] → s.Open (.vlds a b c m) → s.Reads (.vlds a b c m) a m stride) ∧
    (s.Unrelayed [a, c] → fits → s.Open (.vldx a b c m) → s.Reads (.vldx a b c m) a m index) ∧
    (s.Unrelayed [a, c] → fits → s.Open (.vldl a b c m) → ∀ l, good l →
      ∃ t u : State, exec (.vldl a b c m) s = .next u ∧
        u = { t with cur := { t.cur with linkGen := if s.cur.vl = 0 then s.cur.linkGen else s.cur.linkGen + 1 },
                     links := u.links } ∧
        s.Retired t [.v a] [] ∧ s.Units t (.v a) s.sew s.count (s.guard m) (fun e => s.peek (l e) size) ∧
        t.cur.fflags = s.cur.fflags ∧
        ∀ line, ((∃ e ∈ s.actives m, ∃ pa, l e = .dev pa ∧ pa / 64 = line) →
            u.tag line = some ⟨s.cur.gang, s.cur.id, s.cur.linkGen + 1⟩) ∧
          ((∀ e ∈ s.actives m, ∀ pa, l e = .dev pa → pa / 64 ≠ line) → u.tag line = s.tag line)) ∧
    (s.Unrelayed [a, c] → fits → s.Open (.vldsc a b c m) → ∀ l, good l →
      ∃ t : State, exec (.vldsc a b c m) s = .next { t with ticket := s.ticket + (s.actives m).length } ∧
        s.Retired t [.v a] [] ∧ s.Units t (.v a) s.sew s.count (s.guard m) (fun e => s.peek (l e) size) ∧
        t.cur.fflags = s.cur.fflags)

/-- R191, R202, R203, R204, R205: the loads of records, of the weight store, of a whole register and of a row; a load from a store
that is not SERVING raises WS_BUSY. That a record's field is converted, and a NaN made canonical, between equal etypes as well
is the model's reading (log 44). -/
def Obligations.BlockLoadResult : Prop :=
  ∀ (s : State) (a b : BitVec 5) (mt : BitVec 4) (m f : BitVec 3), s.Quiet →
    let t := s.etype
    let w := s.sew
    let size := w / 8
    let base := s.rg b
    let nf := f.toNat + 1
    let ms := sewOf mt.toNat / 8
    let regs := (List.range nf).map fun j => a + BitVec.ofNat 5 j
    let ws := s.cur.core.toNat / 160 * 2 ^ 30
    let capacity := s.cur.grsz.toNat * 8 / w
    (s.Unrelayed regs → (s.cur.vl ≠ 0 → mt.toNat ≤ 13 ∧ t ≤ 13 ∧ (mt.toNat < 8 ↔ t < 8)) → s.Open (.vldseg a b mt m f) →
      ∀ l : Nat → Nat → Loc,
      (∀ e < s.count, s.guard m e = true → ∀ j < nf,
        s.place (base + BitVec.ofNat 64 (e * nf * ms + j * ms)) ms .read = .ok (l e j) ∧ s.Clean (l e j)) →
      ∃ u, exec (.vldseg a b mt m f) s = .next u ∧ s.Retired u (regs.map .v) [] ∧
        (∀ j < nf, s.Units u (.v (a + BitVec.ofNat 5 j)) w s.count (s.guard m) fun e =>
          (convert mt.toNat t .rne true (s.peek (l e j) ms)).bits) ∧
        (∀ k, u.cur.fflags.getLsbD k = true ↔ s.cur.fflags.getLsbD k = true ∨ s.cur.vl ≠ 0 ∧
          ∃ e < s.count, s.guard m e = true ∧ ∃ j < nf,
            (convert mt.toNat t .rne true (s.peek (l e j) ms)).fl.getLsbD k = true)) ∧
    (s.Unrelayed [a] → t ≠ 15 → s.Open (.vldw a b m) →
      (s.cur.vl ≠ 0 → (s.wsStateWord (s.cur.core.toNat / 160)).extractLsb' 0 2 = 2) →
      (∀ e < s.count, s.guard m e = true →
        let o := (base + BitVec.ofNat 64 (e * size)).toNat
        o % size = 0 ∧ o < 2 ^ 30 ∧ Sparse.get false s.wsPoison ((ws + o) / 64) = false) →
      s.Writes (.vldw a b m) (.v a) w s.count (s.guard m) fun e =>
        leBytes s.wsByte (ws + (base + BitVec.ofNat 64 (e * size)).toNat) size) ∧
    (s.Unrelayed [a] → t ≠ 15 → s.Open (.vldw a b m) → s.cur.vl ≠ 0 →
      (s.wsStateWord (s.cur.core.toNat / 160)).extractLsb' 0 2 ≠ 2 →
      s.Traps (.vldw a b m) 0x13 (s.wsStateWord (s.cur.core.toNat / 160))) ∧
    (s.Unrelayed [a] → t ≠ 15 → s.Open (.vrload a b) → ∀ (h : Loc) (l : Nat → Loc),
      s.place base 64 .read = .ok h → s.Clean h → s.peek h 64 % 2 ^ 32 = 0x06405652 →
      s.peek h 64 / 2 ^ 128 % 2 ^ 32 = s.cur.grsz.toNat →
      (∀ e < capacity, s.place (base + 64 + BitVec.ofNat 64 (e * size)) size .read = .ok (l e) ∧ s.Clean (l e)) →
      s.Writes (.vrload a b) (.v a) w capacity (fun _ => true) fun e => s.peek (l e) size) ∧
    (s.Unrelayed [a] → t ≠ 15 → s.Open (.vldrow a b m) → (s.cur.vl ≠ 0 → s.count * size ≤ 4096) → ∀ l,
      rowPlace s base s.count size .read = .ok l → (∀ e < s.count, s.Clean (l.plus (e * size))) →
      s.Writes (.vldrow a b m) (.v a) w s.count (s.guard m) fun e => s.peek (l.plus (e * size)) size)

/-- R190, R193, R196, R198, R200, R201: the stores of one register, for addresses that translate: every active element is
written at its address, the highest element of an address remaining. The conditional scatter writes the lowest active
element of each line that holds the tag of the strand at its current generation, answers in m0, and advances the generation
when one succeeded; the sequentially consistent one draws a ticket for each active element. -/
def Obligations.VectorStoreResult : Prop :=
  ∀ (s : State) (a b c : BitVec 5) (m : BitVec 3), s.Inv → s.Quiet → s.etype ≠ 15 →
    let size := s.sew / 8
    let unit := fun e => s.rg b + BitVec.ofNat 64 (e * size)
    let stride := fun e => s.rg b + BitVec.ofNat 64 e * s.rg c
    let index := fun e => s.rg b + BitVec.ofNat 64 (s.cur.elem c 32 e * size)
    let fits := s.cur.vl ≠ 0 → s.count * 32 ≤ s.cur.grsz.toNat * 8
    let good := fun (addr : Nat → Word) (l : Nat → Loc) => ∀ e ∈ s.actives m, s.Fixed (addr e) size (l e)
    let writes := fun (l : Nat → Loc) (es : List Nat) => es.map fun e => (⟨l e, size, s.cur.elem a s.sew e⟩ : Span)
    let stores := fun (i : Instr) (addr : Nat → Word) => s.Open i → ∀ l, good addr l → s.Stores i (writes l (s.actives m))
    (s.Unrelayed [a] → stores (.vst a b m) unit) ∧
    (s.Unrelayed [a] → stores (.vsts a b c m) stride) ∧
    (s.Unrelayed [a, c] → fits → stores (.vstx a b c m) index) ∧
    (s.Unrelayed [a, c] → fits → s.Open (.vstsc a b c m) → ∀ l, good index l →
      ∃ t : State, s.StoredAll t (writes l (s.actives m)) ∧
        exec (.vstsc a b c m) s = .next { t.upd fun st => { st with pc := st.pc + 4, wcount := 0 } with
          ticket := s.ticket + (s.actives m).length }) ∧
    (s.Unrelayed [a, c] → fits → s.Open (.vstc a b c m) → ∀ l, good index l →
      let wins := fun e => (List.range e).all (fun j => !s.guard m j || (l j).line != (l e).line) &&
        (match l e with
         | .dev pa => s.tag (pa / 64) == some ⟨s.cur.gang, s.cur.id, s.cur.linkGen⟩
         | .host _ => false)
      ∃ t u : State, s.StoredAll t (writes l ((s.actives m).filter wins)) ∧ s.Retired u [.m 0] [] ∧
        s.Units u (.m 0) 1 s.count (s.guard m) (fun e => (wins e).toNat) ∧ u.cur.fflags = s.cur.fflags ∧
        exec (.vstc a b c m) s = .next { t with cur := { u.cur with
          linkGen := if (s.actives m).any wins then s.cur.linkGen + 1 else s.cur.linkGen } })

/-- R202, R204, R205: the stores of records, of a whole register with its header, and of a row. That a record's field is
converted, and a NaN made canonical, between equal etypes as well is the model's reading (log 44). -/
def Obligations.BlockStoreResult : Prop :=
  ∀ (s : State) (a b : BitVec 5) (mt : BitVec 4) (m f : BitVec 3), s.Inv → s.Quiet →
    let t := s.etype
    let w := s.sew
    let size := w / 8
    let base := s.rg b
    let nf := f.toNat + 1
    let ms := sewOf mt.toNat / 8
    let capacity := s.cur.grsz.toNat * 8 / w
    let field := fun e j => convert t mt.toNat .rne true (s.cur.elem (a + BitVec.ofNat 5 j) w e)
    let header := 0x06405652 + s.cur.vl.toNat * 2 ^ 32 + s.cur.rl.toNat * 2 ^ 64 + s.cur.vtype.toNat * 2 ^ 80 +
      s.cur.gvlen.toNat * 2 ^ 96 + s.cur.grsz.toNat * 2 ^ 128 +
      (if s.cur.vl.toNat = s.cur.gvlen.toNat / w then 2 ^ 160 else 0)
    (s.Unrelayed ((List.range nf).map fun j => a + BitVec.ofNat 5 j) →
      (s.cur.vl ≠ 0 → mt.toNat ≤ 13 ∧ t ≤ 13 ∧ (mt.toNat < 8 ↔ t < 8)) → s.Open (.vstseg a b mt m f) →
      ∀ l : Nat → Nat → Loc,
      (∀ e ∈ s.actives m, ∀ j < nf, s.Fixed (base + BitVec.ofNat 64 (e * nf * ms + j * ms)) ms (l e j)) →
      ∃ u v : State, s.StoredAll u
          ((s.actives m).flatMap fun e => (List.range nf).map fun j => ⟨l e j, ms, (field e j).bits⟩) ∧
        s.Retired v [] [] ∧
        (∀ k, v.cur.fflags.getLsbD k = true ↔ s.cur.fflags.getLsbD k = true ∨
          ∃ e ∈ s.actives m, ∃ j < nf, (field e j).fl.getLsbD k = true) ∧
        exec (.vstseg a b mt m f) s = .next { u with cur := v.cur }) ∧
    (s.Unrelayed [a] → t ≠ 15 → s.Open (.vrsave a b) → ∀ (h : Loc) (l : Nat → Loc),
      s.Fixed base 64 h → (∀ e < capacity, s.Fixed (base + 64 + BitVec.ofNat 64 (e * size)) size (l e)) →
      s.Stores (.vrsave a b) (if s.cur.vl = 0 ∨ capacity = 0 then [] else
        ⟨h, 64, header⟩ :: (List.range capacity).map fun e => ⟨l e, size, s.cur.elem a w e⟩)) ∧
    (s.Unrelayed [a] → t ≠ 15 → s.Open (.vstrow a b m) → (s.cur.vl ≠ 0 → s.count * size ≤ 4096) → ∀ l,
      rowPlace s base s.count size .write = .ok l →
      s.Stores (.vstrow a b m) ((s.actives m).map fun e => ⟨l.plus (e * size), size, s.cur.elem a w e⟩))

/-- R108, R109, R191, R192: the first active element of a unit-stride load or store whose address is misaligned or does not
translate traps: TELEM is the element and TVAL its address, TEPC is past the instruction, which stays in slot 0 of the
window. A load has then fired exactly the elements below it, and a store has written exactly the groups of 32 below its
group: R109 and R192 allow other sets too, and these are the model's (log 15). -/
def Obligations.VectorAccessFaults : Prop :=
  ∀ (s : State) (a b : BitVec 5) (m : BitVec 3) (e : Nat) (c : BitVec 8) (l : Nat → Loc), s.Inv → s.Quiet →
    s.etype ≠ 15 → s.Unrelayed [a] → e ∈ s.actives m →
    let size := s.sew / 8
    let addr := fun e => s.rg b + BitVec.ofNat 64 (e * size)
    let info : TrapInfo := { cause := c, tepc := s.cur.pc + 4, tval := addr e, elem := e, win := some 0, async := false,
                             step := false }
    (s.Open (.vld a b m) → s.place (addr e) size .read = .error c →
      (∀ j < e, s.guard m j = true → s.place (addr j) size .read = .ok (l j) ∧ s.Clean (l j)) →
      ∃ u : State, exec (.vld a b m) s = .next (u.trap info) ∧
        u = { s with cur := { s.cur with pc := s.cur.pc + 4, v := u.cur.v, window := u.cur.window } } ∧
        (∀ q, q ≠ .v a → u.cur.rbits q = s.cur.rbits q) ∧
        (∃ en, u.cur.window = [en] ∧ en.ins = .vld a b m ∧ ∀ j < s.count, en.fired j = decide (j < e)) ∧
        ∀ j, s.sew * (j + 1) ≤ 262144 → u.cur.elem a s.sew j =
          if j < e ∧ s.guard m j = true then s.peek (l j) size % 2 ^ s.sew
          else if j < e ∧ s.cur.vtype.getLsbD 4 = true then 0 else s.cur.elem a s.sew j) ∧
    (s.Open (.vst a b m) →
      (∀ mem hostMem links poison,
        ({ s with mem := mem, hostMem := hostMem, links := links, poison := poison } : State).place (addr e) size .write =
          .error c) →
      (∀ j < e, s.guard m j = true → s.Fixed (addr j) size (l j)) →
      ∃ u v : State, exec (.vst a b m) s = .next (v.trap info) ∧
        s.StoredAll u (((s.actives m).filter (· < e / 32 * 32)).map fun j => ⟨l j, size, s.cur.elem a s.sew j⟩) ∧
        v = { u with cur := { s.cur with pc := s.cur.pc + 4, window := v.cur.window } } ∧
        ∃ en, v.cur.window = [en] ∧ en.ins = .vst a b m ∧ ∀ j < s.count, en.groupDone (j / 32) = decide (j / 32 < e / 32))

/-- R207, R208, R209: an embedding lookup through a valid descriptor whose rows all translate: the weighted sums of the
rows of each segment, in f32, folded in ascending order from zero with one rounding per step. -/
def Obligations.EmbeddingResult : Prop :=
  ∀ (s : State) (a b c d : BitVec 5) (m : BitVec 3) (h : Loc), s.Quiet → s.etype = 10 → s.cur.vl ≠ 0 →
    s.Unrelayed [a, c, d] → s.Open (.vemb a b c d m) → s.count * 64 ≤ s.cur.grsz.toNat * 8 →
    s.place (s.rg b) 64 .read = .ok h → s.Clean h →
    let t := tableOf (s.peek h 64)
    let k := fmtOf 10
    let rm := rmOfFrm s.cur.frm
    let heads := (List.range s.count).filter fun e => e == 0 || (m != 0 && s.cur.mbit m e)
    t.ok = true → heads.length * t.width * 32 ≤ s.cur.grsz.toNat * 8 →
    ∀ l : Nat → Nat → Nat → Loc,
    (∀ e < s.count, ∀ j < t.ntab, ∀ q < t.width,
      s.place (t.addr j (s.cur.elem c 64 e) q) t.fs .read = .ok (l e j q) ∧ s.Clean (l e j q)) →
    let value := fun e j q =>
      if t.format = 10 then s.peek (l e j q) 4 else (convert t.format 10 .rne false (s.peek (l e j q) t.fs)).bits
    let column := fun e q =>
      if t.ntab = 1 then value e 0 q
      else if t.compose = 0 then (fpAdd k rm (value e 0 q) (value e 1 q)).bits
      else (fpMul k rm (value e 0 q) (value e 1 q)).bits
    let segment := fun i => (List.range s.count).filter fun e =>
      decide (heads.getD i 0 ≤ e) && (decide (heads.length ≤ i + 1) || decide (e < heads.getD (i + 1) 0))
    ∃ u, exec (.vemb a b c d m) s = .next u ∧ s.Retired u [.v a] [] ∧
      s.Units u (.v a) 32 (heads.length * t.width) (fun _ => true) fun i =>
        (segment (i / t.width)).foldl
          (fun acc e => (fpFma k rm (s.cur.elem d 32 e) (column e (i % t.width)) acc false false).bits) 0

/-! ### Bindings, relay ports and update streams -/

/-- R210, R211, R214, R215, R216: binding a free register to a free slot with an accepted record, and the refusals; unbinding,
reading and setting a position, and making a relay port, of which a strand has one of each mode in a direction. A VLD of a
receive-bound register takes the bytes that have arrived, with zeros for those that are missing at END, and waits when bytes are
missing before it; a VST of a send-bound register sends its active elements' bytes when the partner's receive entries cover
them. That a bound slot or register raises BIND whether or not there is a partner is the model's reading (log 23), that
unbinding drops what has not been taken is its choice (log 73), and so is that bytes short of an element at END are dropped
(log 62). -/
def Obligations.BindingResult : Prop :=
  ∀ (s : State) (a : BitVec 3) (b c : BitVec 5) (send : BitVec 1) (dir : BitVec 2), s.AtRest → s.Quiet → s.cur.late = [] →
    let slot := s.cur.k.toList.getD a.toNat Slot.unbound
    let bound := fun (k : Slot) => k.status.getLsbD 0 = true
    let free := ¬ bound slot ∧ ∀ k ∈ s.cur.k.toList, bound k → k.reg.toNat ≠ b.toNat
    let number : Word := BitVec.ofNat 64 a.toNat
    let relay := fun (k : Slot) => k.mode.getLsbD 5 = true
    let sends := fun (k : Slot) => k.mode.getLsbD 0 = true
    (free → ∀ l, s.place (s.rg c) 32 .read = .ok l → s.Clean l →
      let k := slotOf (s.peek l 32)
      (k.acceptable = true → s.Does (.vbind a b c) fun st =>
        st.setSlot a.toNat fun _ => { k with reg := BitVec.ofNat 8 b.toNat, status := 1 }) ∧
      (k.acceptable = false → s.Traps (.vbind a b c) 0x11 number)) ∧
    (¬ free → s.Traps (.vbind a b c) 0x11 number ∧ s.Traps (.relay a b send dir) 0x11 number) ∧
    (bound slot → ¬ (relay slot ∧ sends slot) → s.Does (.vunbind a) fun st =>
      st.setSlot a.toNat fun k => { k with status := k.status &&& 0xFE, inflight := [], arrived := [], endSent := false }) ∧
    (bound slot → relay slot → sends slot →
      exec (.vunbind a) s = .next ((s.sendEnd s.cur (slot.mode.toNat / 64)).upd fun st =>
        { st.setSlot a.toNat (fun k =>
            { k with status := k.status &&& 0xFE, inflight := [], arrived := [], endSent := false }) with
          pc := st.pc + 4, wcount := 0 })) ∧
    (bound slot → s.Returns (.vbpos b a) b (BitVec.ofNat 64 (slot.progress.toNat +
      if relay slot ∧ ¬ sends slot ∧ slot.status.getLsbD 1 = true then 2 ^ 63 else 0))) ∧
    (bound slot → ¬ relay slot → (s.rg c).toNat < 2 ^ 32 → s.Does (.vbset a c) fun st =>
      st.setSlot a.toNat fun k => { k with progress := BitVec.ofNat 32 (s.rg c).toNat }) ∧
    (¬ bound slot ∨ relay slot ∨ 2 ^ 32 ≤ (s.rg c).toNat → s.Traps (.vbset a c) 0x11 number) ∧
    (¬ bound slot → s.Traps (.vunbind a) 0x11 number ∧ s.Traps (.vbpos b a) 0x11 number) ∧
    (free → (∀ k ∈ s.cur.k.toList, bound k → relay k → ¬ (k.mode.getLsbD 0 = send.getLsbD 0 ∧ k.mode.toNat / 64 = dir.toNat)) →
      ((∃ q, s.partner s.cur dir.toNat = some q) → s.Does (.relay a b send dir) fun st =>
        st.setSlot a.toNat fun _ => { Slot.unbound with
          mode := BitVec.ofNat 8 (send.toNat + 32 + 64 * dir.toNat), reg := BitVec.ofNat 8 b.toNat, status := 1 }) ∧
      (s.partner s.cur dir.toNat = none → s.Traps (.relay a b send dir) 0x12 (BitVec.ofNat 64 dir.toNat))) ∧
    ((∃ k ∈ s.cur.k.toList, bound k ∧ relay k ∧ k.mode.getLsbD 0 = send.getLsbD 0 ∧ k.mode.toNat / 64 = dir.toNat) →
      s.Traps (.relay a b send dir) 0x11 number) ∧
    (∀ (m : BitVec 3) (i : Nat), s.etype ≠ 15 → s.cur.vl ≠ 0 → 0 < s.count → illFormed (.vld b c m) = none →
      s.cur.relaySlot false b = some i →
      let k := s.cur.k.toList.getD i Slot.unbound
      let size := s.sew / 8
      let whole := min s.count (k.arrived.length / size)
      let value := fun e => ((k.arrived.drop (e * size)).take size).foldr (fun x acc => x.toNat + 256 * acc) 0
      (whole = s.count ∨ k.status.getLsbD 1 = true →
        ∃ t : State, exec (.vld b c m) s = .next t ∧
          t = { s with cur := { (s.cur.setSlot i fun k => { k with
                arrived := k.arrived.drop (s.count * size), progress := k.progress + BitVec.ofNat 32 (whole * size) }) with
              pc := s.cur.pc + 4, wcount := 0, event := true, v := t.cur.v } } ∧
          (∀ q, q ≠ .v b → t.cur.rbits q = s.cur.rbits q) ∧
          s.Units t (.v b) s.sew s.count (fun _ => true) fun e => if e < whole then value e else 0) ∧
      (whole < s.count → k.status.getLsbD 1 = false →
        ∃ (t : State) (en : Entry), exec (.vld b c m) s = .next t ∧ t.cur.window = [en] ∧ en.ins = .vld b c m ∧
          t.cur.pc = s.cur.pc + 4 ∧ ∀ e < s.count, en.fired e = decide (e < whole))) ∧
    (∀ (m : BitVec 3) (i j : Nat) (p : Strand), s.etype ≠ 15 → s.cur.vl ≠ 0 → illFormed (.vst b c m) = none →
      s.cur.relaySlot true b = some i →
      let k := s.cur.k.toList.getD i Slot.unbound
      let way := k.mode.toNat / 64
      let bytes := (s.actives m).flatMap fun e => (List.range (s.sew / 8)).map fun n => byteOf (s.cur.elem b s.sew e) n
      s.partner s.cur way = some p → p.receiveSlot ((way + 2) % 4) = some j → bytes.length ≤ receiveRoom p j →
      exec (.vst b c m) s = .next
        ((s.mapStrands (isPartner (s.perCoreOf s.cur) s.cur way) fun q =>
            q.setSlot j fun k => { k with inflight := k.inflight ++ bytes }).upd fun st =>
          { st.setSlot i (fun k => { k with progress := k.progress + BitVec.ofNat 32 bytes.length }) with
            pc := st.pc + 4, wcount := 0 }))

/-- R147, R148, R212, R213: a register bound for reading to a stream is filled, before an instruction reads it, from the stream
elements that start at PROGRESS, with zero past LENGTH, and PROGRESS advances by N: plain elements, scaled ones, whose exact
product is rounded once, and 4-bit codes through a codebook. VWAITR stands for the readers: it leaves the fill alone to be seen.
A register bound for writing is appended to its stream after an instruction writes it: every element below N and LENGTH, active
or not, converted to FORMAT; VMOV stands for the writers. That a conversion between equal etypes makes a NaN canonical is the
model's reading (log 44). -/
def Obligations.StreamFill : Prop :=
  (∀ (s : State) (a b : BitVec 5) (i : Nat) (l z : Nat → Loc), s.AtRest → s.Quiet → s.etype ≤ 13 → s.cur.vl ≠ 0 →
    s.cur.streamSlot false b = some i →
    let k := s.cur.k.toList.getD i Slot.unbound
    let f := k.format.toNat
    let size := if f = 14 then 1 else sewOf f / 8
    let start := k.progress.toNat
    let inside := fun e => start + e < k.length.toNat
    let scaled := k.mode.getLsbD 1 = true
    f ≤ 14 → (scaled → 8 ≤ f) → (f < 8 ↔ s.etype < 8) → start + s.count < 2 ^ 32 →
    (∀ e < s.count, inside e →
      s.place (k.base + BitVec.ofNat 64 (if f = 14 then (start + e) / 2 else start + e) * k.stride.signExtend 64) size .read =
        .ok (l e) ∧ s.Clean (l e)) →
    (∀ e < s.count, inside e → scaled →
      s.place (k.scaleBase + BitVec.ofNat 64 ((start + e) / 32)) 1 .read = .ok (z e) ∧ s.Clean (z e)) →
    let book := (s.cur.cb.toList.getD (k.mode.toNat / 4 % 8) 0).toNat
    let stored := fun e => if f = 14 then bitsAt book 16 (bitsAt (s.peek (l e) 1) 4 ((start + e) % 2)) else s.peek (l e) size
    let kind := if f = 14 then 9 else f
    let value : Nat → Res := fun e =>
      let scale := s.peek (z e) 1
      if ¬ inside e then ⟨0, 0⟩
      else if ¬ scaled then convert kind s.etype .rne true (stored e)
      else if scale = 255 then ⟨(fmtOf s.etype).nan, flagNV⟩
      else
        let p := mulVal (unpack (fmtOf kind) (stored e)) (.fin false 1 ((scale : Int) - 127))
        let r := valToFp s.etype .rne true p.1
        ⟨r.bits, r.fl ||| p.2⟩
    ∃ u : State, exec (.vwaitr a b 0) s = .next (u.wg a (BitVec.ofNat 64 s.count)) ∧
      u = { s with cur := { (s.cur.setSlot i fun k => { k with progress := BitVec.ofNat 32 (start + s.count) }) with
              pc := s.cur.pc + 4, wcount := 0, v := u.cur.v, fflags := u.cur.fflags } } ∧
      (∀ q, q ≠ .v b → u.cur.rbits q = s.cur.rbits q) ∧
      (∀ q, u.cur.fflags.getLsbD q = true ↔ s.cur.fflags.getLsbD q = true ∨
        ∃ e < s.count, (value e).fl.getLsbD q = true) ∧
      ∀ e, s.sew * (e + 1) ≤ 262144 → u.cur.elem b s.sew e =
        if s.count ≤ e then s.cur.elem b s.sew e else (value e).bits % 2 ^ s.sew) ∧
  (∀ (s : State) (a c : BitVec 5) (m : BitVec 3) (f : BitVec 2) (i : Nat) (l : Nat → Loc), s.Inv → s.AtRest → s.Quiet →
    s.etype ≤ 13 → s.cur.vl ≠ 0 → illFormed (.vmov a c m f) = none →
    s.cur.streamSlot true a = some i → (f = 0 → c ≠ a ∧ s.cur.streamSlot false c = none) →
    let k := s.cur.k.toList.getD i Slot.unbound
    let t := k.format.toNat
    let size := sewOf t / 8
    let start := k.progress.toNat
    t ≤ 13 → (t < 8 ↔ s.etype < 8) → start + s.count < 2 ^ 32 →
    let stored := (List.range s.count).filter fun e => decide (start + e < k.length.toNat)
    (∀ e ∈ stored, s.Fixed (k.base + BitVec.ofNat 64 (start + e) * k.stride.signExtend 64) size (l e)) →
    ∃ u v : State, exec (.vmov a c m f) s = .next { u with cur := v.cur } ∧
      v.cur = { (s.cur.setSlot i fun k => { k with progress := BitVec.ofNat 32 (start + s.count) }) with
        pc := s.cur.pc + 4, wcount := 0, v := v.cur.v, fflags := v.cur.fflags } ∧
      (∀ q, q ≠ .v a → v.cur.rbits q = s.cur.rbits q) ∧
      s.Units v (.v a) s.sew s.count (s.guard m) (s.second f c s.sew) ∧
      let value := fun e => convert s.etype t .rne true (v.cur.elem a s.sew e)
      s.StoredAll u (stored.map fun e => ⟨l e, size, (value e).bits⟩) ∧
      ∀ q, v.cur.fflags.getLsbD q = true ↔ s.cur.fflags.getLsbD q = true ∨
        ∃ e ∈ stored, s.guard m e = true ∧ (value e).fl.getLsbD q = true)

/-- R245, R249, R256, R257, R258, R259: the members of UPD that act on a region as a whole, for a strand whose window and
update queue are empty: opening a region or adding a log extent through a descriptor that passes its checks, sealing, flushing
and closing a region within scope; a handle that names none raises UPD_REGION. A flush seals and applies every line, a load or
store of a line applies first what is due there, and an apply leaves at each address the fold of the sealed partials in the
order of their batches and keys, for ORDERED, or the combination of what has come, for ARRIVAL, and breaks the region at a
poisoned sector. The order in which an ARRIVAL region combines several f32 or f64 values, and which value LAST keeps there, are
free values (log 8). -/
def Obligations.RegionResult : Prop :=
  (∀ (s : State) (a b : BitVec 5), s.AtRest → s.Quiet → s.cur.updq = [] →
    let gang := s.cur.gang
    let h := (s.rg a).toNat
    let fits := fun (va : Word) (n : Nat) (l : List PageMap) => allMapped (mapPages s va (pageCount va n)) = .ok l
    (∀ l, s.place (s.rg b) 64 .read = .ok l → s.Clean l →
      let d := descOf (s.peek l 64)
      (d.act = 0 → d.openOk = true → ∀ n pages logs, s.freeHandle = some n → s.overlapping d.base d.bytes = none →
        fits d.base d.bytes pages → fits d.logBase d.logSize logs →
        (d.scope = 2 → ∀ p ∈ pages, p.pkg = s.cur.pkg.toNat) →
        exec (.urgn a b) s = .next ((({ s with regionNo := s.regionNo + 1 } : State).setRegion gang n (some
          { base := d.base, length := d.length, etype := BitVec.ofNat 8 d.etype, oper := BitVec.ofNat 8 d.oper,
            ordered := d.mode == 1, sysScope := d.scope == 3, pkg := s.cur.pkg, pages := pages.map fun p => (p.pte, p.bits),
            extents := [(d.logBase, d.logSize)], logs := logRanges d.logBase d.logSize logs, serial := s.regionNo, flags := 0, broken := false, batch := 0, entries := [] })).wg a
            (BitVec.ofNat 64 n)).advance) ∧
      (d.act = 1 → d.logOk = true → ∀ r logs, s.region gang d.handle = some r → r.extents.length < 8 →
        fits d.logBase d.logSize logs →
        exec (.urgn a b) s = .next ((s.setRegion gang d.handle (some
          { r with extents := r.extents ++ [(d.logBase, d.logSize)],
                   logs := r.logs ++ logRanges d.logBase d.logSize logs })).wg a (BitVec.ofNat 64 d.handle)).advance)) ∧
    (∀ r, h < 64 → s.region gang h = some r → r.sysScope = true ∨ r.pkg = s.cur.pkg →
      (r.broken = false →
        exec (.useal a) s = .next (s.setRegion gang h (some
          { r with batch := if r.ordered then r.batch + 1 else r.batch })).advance ∧
        exec (.uflush a) s = .next (s.applyRegion gang h true).advance) ∧
      (∀ q, (s.applyRegion gang h true).region gang h = some q →
        exec (.uclose a) s = .next (((s.applyRegion gang h true).setRegion gang h none).wg a
          (BitVec.ofNat 64 (q.flags.toNat + if q.broken then 256 else 0))).advance)) ∧
    ((64 ≤ h ∨ s.region gang h = none) →
      s.Traps (.useal a) 0x10 (s.rg a) ∧ s.Traps (.uflush a) 0x10 (s.rg a) ∧ s.Traps (.uclose a) 0x10 (s.rg a))) ∧
  (∀ (s : State) (gang : BitVec 32) (h : Nat) (r : Region), s.region gang h = some r →
    let sealed := { r with batch := if r.ordered then r.batch + 1 else r.batch }
    (r.entries = [] → s.applyRegion gang h true = s.setRegion gang h (some sealed)) ∧
    ∀ line, r.entries ≠ [] → (∀ e ∈ r.entries, e.addr / 64 = line) →
      s.applyRegion gang h true = (applyLine s sealed line).1.setRegion gang h (some (applyLine s sealed line).2)) ∧
  (∀ (s : State) (g : Gang) (h : Fin 64) (r : Region) (line : Nat), s.gangs = [g] → g.regions[h.val] = some r →
    s.pressDue line = true → (∀ k : Fin 64, k ≠ h → ∀ q, g.regions[k.val] = some q → ∀ e ∈ q.entries, q.due line e = false) →
    s.pressTouch line = (applyLine s r line).1.setRegion g.id h.val (some (applyLine s r line).2)) ∧
  (∀ (s : State) (a b : BitVec 5) (i : BitVec 16) (pa : Nat), s.Inv → s.AtRest → s.poisoned pa = false →
    let va := s.rg b + BitVec.ofInt 64 i.toInt
    let t := s.pressTouch (pa / 64)
    (s.place va 4 .read = .ok (.dev pa) → exec (.ldwn a b i) s = .next (t.wg a (BitVec.ofNat 64 (t.rawRead pa 4))).advance) ∧
    (s.place va 4 .write = .ok (.dev pa) → (∀ g ∈ t.gangs, ∀ r, some r ∈ g.regions.toList → r.logHolds pa 4 = false) →
      ∃ u, t.Stored u (.dev pa) 4 (s.rg a).toNat ∧ exec (.stw a b i) s = .next u.advance)) ∧
  (∀ (s : State) (r : Region) (line : Nat), s.Inv →
    let due := r.entries.filter (r.due line)
    let t := (applyLine s r line).1
    let q := (applyLine s r line).2
    (due = [] → t = s ∧ q = r) ∧
    (due ≠ [] → s.poisoned (64 * line) = true → t = s ∧ q = { r with broken := true }) ∧
    (due ≠ [] → s.poisoned (64 * line) = false →
      t = { s with mem := t.mem, links := t.links, fresh := t.fresh } ∧
      q = { r with flags := q.flags, entries := r.entries.filter fun e => !r.due line e } ∧
      (∀ x, (∀ e ∈ due, x < e.addr ∨ e.addr + r.size ≤ x) → t.byte x = s.byte x) ∧
      (∀ k, t.tag k = if k = line then none else s.tag k) ∧
      ∀ a, let l := due.filter fun e => e.addr == a
        l ≠ [] → (∀ e ∈ l, e.spoiled = false ∧ e.val.toNat < 256 ^ r.size) →
        (∀ e ∈ due, e.addr = a ∨ e.addr + r.size ≤ a ∨ a + r.size ≤ e.addr) →
        let leaves := fun (v : Nat) => t.rawRead a r.size = v % 256 ^ r.size
        let fold := fun (p : List PressEntry) => p.foldl (fun (acc : Res) e =>
          let c := combine r.oper.toNat r.etype.toNat .rne acc.bits e.val.toNat
          ⟨c.bits, acc.fl ||| c.fl⟩) ⟨s.rawRead a r.size, 0⟩
        (r.ordered = true → ∀ p : List PressEntry, p.Perm l →
          p.Pairwise (fun x y => x.batch < y.batch ∨ x.batch = y.batch ∧ x.key.toNat < y.key.toNat) →
          leaves (fold p).bits ∧ (l = due → q.flags = r.flags ||| (fold p).fl)) ∧
        (r.ordered = false → r.oper = 6 → ∃ e ∈ l, leaves e.val.toNat) ∧
        (r.ordered = false → r.oper.toNat ≤ 5 → r.etype.toNat ≤ 7 ∨ l.length = 1 →
          leaves (fold l).bits ∧ (l = due → q.flags = r.flags ||| (fold l).fl))))

/-- R250 to R254: UPD of a strand at rest into an empty region whose segments have room: one pair for each index among the
active elements, the values of equal indices combined, reaches the region as a partial at the address of its element, with
the origin key of this UPD; the sequence number advances. The tree of an f32 or f64 sum with REPRO = 0 is the part's (log 7). -/
def Obligations.UpdResult : Prop :=
  ∀ (s : State) (a b c : BitVec 5) (m : BitVec 3) (r : Region), s.Open (.upd a b c m) → s.cur.vl ≠ 0 →
    s.cur.usn ≠ BitVec.allOnes 40 → s.cur.updq = [] → s.count * 32 ≤ s.cur.grsz.toNat * 8 →
    let h := (s.rg a).toNat
    let k := fmtOf s.etype
    let index := s.cur.elem b 32
    let addr := fun i => (r.addr i).1
    h < 64 → s.region s.cur.gang h = some r → (r.sysScope = true ∨ r.pkg = s.cur.pkg) → r.broken = false → r.entries = [] →
    s.etype = r.etype.toNat → (∀ e ∈ s.actives m, index e < r.length ∧ s.reachable (addr (index e)) = true ∧
      s.permitted (addr (index e)) = false) →
    (∀ i < r.length, ∀ j < r.length, addr i = addr j → i = j) → (∀ seg, s.segCount seg + s.count < 65536) →
    let run := fun i => ((s.actives m).filter fun e => index e == i).map (s.cur.elem c s.sew)
    let value := fun i =>
      if r.oper = 6 then (run i).getLastD 0
      else if r.oper = 0 ∧ isFp s.etype = true then
        (fpSum (s.cur.repro == 1) k (rmOfFrm s.cur.frm)
          (Config.treePick s.cur.gvlen.toNat s.cur.vl.toNat s.cur.rl.toNat s.etype)
          ((run i).map fun x => some (unpack k x))).bits
      else (run i).tail.foldl (fun acc x => (combine r.oper.toNat s.etype (rmOfFrm s.cur.frm) acc x).bits) ((run i).headD 0)
    ∃ (u : State) (q : Region), exec (.upd a b c m) s = .next u ∧ u.region s.cur.gang h = some q ∧
      q = { r with entries := q.entries } ∧
      u = { s with gangs := u.gangs, cur := { s.cur with
              pc := s.cur.pc + 4, wcount := 0, usn := s.cur.usn + 1, fflags := u.cur.fflags } } ∧
      ∀ x : PressEntry, x ∈ q.entries ↔ ∃ i, (∃ e ∈ s.actives m, index e = i) ∧
        x = { addr := addr i, val := BitVec.ofNat 64 (value i), key := originKey s.cur (s.perCoreOf s.cur) s.cur.usn,
              batch := r.batch, seg := segOf (addr i) (r.addr i).2, unit := none, spoiled := false }

/-! ### Tiles -/

/-- R225, R226: MMODE at rest grants MVL and turns the tiles on, zeroed unless MVL and tile etype stay; MOFF turns them off;
a bad tile etype raises TYPE, and then a cleared ALLOW raises TILE_OFF. R224, R235, R236, R237: reading and writing a row or
a column of a tile, zeroing a tile, and loading a codebook. -/
def Obligations.TileMembers : Prop :=
  (∀ (s : State) (a b : BitVec 5) (t : BitVec 4), s.AtRest →
      let i := Instr.mmode a b t
      let ok := if s.inReduced then t = 10 else t = 4 ∨ t = 10 ∨ t = 11
      let side := if t = 11 then 32 else 64
      let q := (s.rg b).toNat
      let mvl := if q = 0 then side else min q side
      let same := s.cur.tilesOn = true ∧ s.cur.mvl.toNat = mvl ∧ s.cur.tetype = t
      (ok → s.cur.tilesAllow = true → exec i s = .next ((s.upd fun st => { st with
          t := if same then st.t else Vector.replicate 4 0, mvl := BitVec.ofNat 7 mvl, tetype := t, tilesOn := true }).wg a
        (BitVec.ofNat 64 mvl)).advance) ∧
      (¬ ok → s.Traps i 0x08 (insWord i)) ∧ (ok → s.cur.tilesAllow = false → s.Traps i 0x0A (insWord i)) ∧
      exec .moff s = .next (s.Then fun st => { st with tilesOn := false })) ∧
  (∀ (s : State) (a b c : BitVec 5) (t : BitVec 2) (m k : BitVec 3),
      let n := s.cur.vl.toNat
      let x := (s.rg c).toNat
      let w := s.sew
      let tiled := s.cur.tilesOn = true ∧ (s.cur.tetype = 4 ∨ s.cur.tetype = 10 ∨ s.cur.tetype = 11)
      let moves := tiled ∧ sewOf s.cur.tetype.toNat = w ∧ (s.cur.vl ≠ 0 → n ≤ s.cur.mvl.toNat ∧ x < s.cur.mvl.toNat) ∧
        s.cur.mvl.toNat ≤ 2048 / w
      let y := s.cur.elem b w
      let live := fun e => decide (e < n) && s.guard m e
      (moves → s.Open (.tgetr a t c m) → s.Writes (.tgetr a t c m) (.v a) w n (s.guard m) fun e => s.tileAt t x e) ∧
      (moves → s.Open (.tgetc a t c m) → s.Writes (.tgetc a t c m) (.v a) w n (s.guard m) fun e => s.tileAt t e x) ∧
      (moves → s.Open (.tsetr t b c m) → s.Folds (.tsetr t b c m) t (fun i j => i == x && live j) fun _ j => y j) ∧
      (moves → s.Open (.tsetc t b c m) → s.Folds (.tsetc t b c m) t (fun i j => j == x && live i) fun i _ => y i) ∧
      (tiled → s.Open (.tzero t) →
        s.Folds (.tzero t) t (fun _ _ => decide (n ≠ 0)) fun _ _ => 0) ∧
      (s.Quiet → s.Open (.mcbld k b) → ∀ l : Nat → Loc, (s.rg b).toNat % 32 = 0 →
        (∀ q < 16, s.place (s.rg b + BitVec.ofNat 64 (2 * q)) 2 .read = .ok (l q) ∧ s.Clean (l q)) →
        let book := BitVec.ofNat 256 ((List.range 16).map fun q => s.peek (l q) 2 * 2 ^ (16 * q)).sum
        s.Does (.mcbld k b) fun st => { st with cb := st.cb.set k.toNat book k.isLt }))

/-- R228 to R232, R239: the outer products: each selected element of the tile takes the steps of the panel rows in ascending
order, one rounding per step, and every other element stays. The first metadata byte of a TFOLDSP without exactly four bits set
raises METADATA with the tile as it was. -/
def Obligations.TileFolds : Prop :=
  ∀ (s : State) (r m : BitVec 3) (t : BitVec 2) (b c d : BitVec 5), s.cur.tilesOn = true → s.cur.vl ≠ 0 →
    let et := s.etype
    let tt := s.cur.tetype.toNat
    let w := s.sew
    let mvl := s.cur.mvl.toNat
    let rm := rmOfFrm s.cur.frm
    let on := fun i j => decide (i < mvl) && decide (j < mvl) && s.guard r i && s.guard m j
    let float := et = 8 ∨ et = 9 ∨ et = 10
    let x := fun k i => s.cur.elem b w (k * mvl + i)
    let y := fun k j => s.cur.elem c w (k * mvl + j)
    let folds := fun (i : Instr) (rank : Nat) (step : Nat → Nat → Nat → Nat → Nat) => s.Open i → (s.inReduced = true → et = 10) →
      mvl ≤ 2048 / sewOf tt →
      s.Folds i t on fun p q => (List.range rank).foldl (fun acc k => step k p q acc) (s.tileAt t p q)
    let real := fun (neg : Bool) (a b acc : Nat) =>
      (addProduct (fmtOf tt) rm (let p := mulVal (unpack (fmtOf et) a) (unpack (fmtOf et) b)
        if neg then (p.1.negate, p.2) else p) (unpack (fmtOf tt) acc)).bits
    let whole := fun (a b acc : Nat) => (BitVec.ofInt 32 ((acc : Int) +
      (if et = 0 then (BitVec.ofNat 8 a).toInt else (a : Int)) * (if et = 0 then (BitVec.ofNat 8 b).toInt else (b : Int)))).toNat
    let code := fun (n z : Nat) => bitsAt (s.cur.cb.toList.getD n 0).toNat 16 z
    let kept := fun k i => (s.cur.elem d 8 (k * mvl / 8 + i / 8)).testBit (i % 8)
    let packed := fun k i => s.cur.elem b w (k * mvl / 2 + 4 * (i / 8) +
      ((List.range (i % 8)).filter fun z => (s.cur.elem d 8 (k * mvl / 8 + i / 8)).testBit z).length)
    (float ∧ tt = 10 → folds (.tfold r t b c m) (if et = 10 then 1 else 2) (fun k p q => real false (x k p) (y k q)) ∧
      folds (.tfoldn r t b c m) (if et = 10 then 1 else 2) (fun k p q => real true (x k p) (y k q))) ∧
    (et = 11 ∧ tt = 11 → folds (.tfold r t b c m) 1 (fun k p q => real false (x k p) (y k q)) ∧
      folds (.tfoldn r t b c m) 1 (fun k p q => real true (x k p) (y k q))) ∧
    ((et = 0 ∨ et = 1) ∧ tt = 4 → folds (.tfoldi8 r t b c m) 4 fun k p q => whole (x k p) (y k q)) ∧
    ((et = 12 ∨ et = 13) ∧ tt = 10 → folds (.tfoldf8 r t b c m) 4 fun k p q => real false (x k p) (y k q)) ∧
    (et = 14 ∧ tt = 10 → folds (.tfoldc4 r t b c m) 8 fun k p q acc =>
      (addProduct (fmtOf 10) rm (mulVal
        (unpack (fmtOf 9) (code (2 * t.toNat) (bitsAt (s.cur.rbits (.v b)) 4 (k * mvl + p))))
        (unpack (fmtOf 9) (code (2 * t.toNat + 1) (bitsAt (s.cur.rbits (.v c)) 4 (k * mvl + q))))) (unpack (fmtOf 10) acc)).bits) ∧
    (mvl % 8 = 0 → (et = 0 ∨ et = 1) ∧ tt = 4 →
      (∀ z < 4 * mvl / 8, ((List.range 8).filter (s.cur.elem d 8 z).testBit).length = 4) →
      folds (.tfoldsp r t b c d m) 4 fun k p q acc => if kept k p then whole (packed k p) (y k q) acc else acc) ∧
    (mvl % 8 = 0 → (et = 8 ∨ et = 9 ∨ et = 12 ∨ et = 13) ∧ tt = 10 →
      let rank := if et = 8 ∨ et = 9 then 2 else 4
      (∀ z < rank * mvl / 8, ((List.range 8).filter (s.cur.elem d 8 z).testBit).length = 4) →
      folds (.tfoldsp r t b c d m) rank fun k p q acc => if kept k p then real false (packed k p) (y k q) acc else acc) ∧
    (let rank := if et = 8 ∨ et = 9 then 2 else 4
     let bits := fun z => ((List.range 8).filter (s.cur.elem d 8 z).testBit).length
     let i := Instr.tfoldsp r t b c d m
     mvl % 8 = 0 → (et = 0 ∨ et = 1) ∧ tt = 4 ∨ (et = 8 ∨ et = 9 ∨ et = 12 ∨ et = 13) ∧ tt = 10 → s.inReduced = false → s.Open i →
     ∀ z < rank * mvl / 8, bits z ≠ 4 → (∀ y < z, bits y = 4) →
     ∃ (u : State) (en : Entry), u = { s with cur := { s.cur with pc := s.cur.pc + 4, window := [en] } } ∧ en.ins = i ∧
       exec i s = .next (u.trap { cause := 0x0D, tepc := s.cur.pc + 4, tval := BitVec.ofNat 64 (s.cur.elem d 8 z), elem := z,
                                  win := some 0, async := false, step := false }))

/-- R238: the drains of a tile, row by row from row 8 R, converted to the latched etype: rows apart by a stride, or at the
offsets of an index register. A drain of the tile's own type copies the bits and raises no flag. -/
def Obligations.TileStores : Prop :=
  ∀ (s : State) (r m : BitVec 3) (t : BitVec 2) (b c : BitVec 5), s.Inv → s.Quiet → s.cur.tilesOn = true →
    s.etype ≤ 13 → s.cur.tetype = 4 ∨ s.cur.tetype = 10 ∨ s.cur.tetype = 11 →
    let vl := s.cur.vl.toNat
    let size := s.sew / 8
    let row := fun e => 8 * r.toNat + e / vl
    let value : Nat → Res := fun e =>
      let x := s.tileAt t (row e) (e % vl)
      if s.cur.tetype.toNat = s.etype then ⟨x, 0⟩ else convert s.cur.tetype.toNat s.etype (rmOfFrm s.cur.frm) true x
    let drains := fun (i : Instr) (addr : Nat → Word) => s.Open i →
      (s.cur.vl ≠ 0 → vl ≤ s.cur.mvl.toNat ∧ 8 * r.toNat + s.cur.rl.toNat ≤ s.cur.mvl.toNat) →
      ∀ l : Nat → Loc, (∀ e ∈ s.actives m, s.Fixed (addr e) size (l e)) →
      ∃ u v : State, s.StoredAll u ((s.actives m).map fun e => ⟨l e, size, (value e).bits⟩) ∧ s.Retired v [] [] ∧
        (∀ k, v.cur.fflags.getLsbD k = true ↔ s.cur.fflags.getLsbD k = true ∨
          ∃ e ∈ s.actives m, (value e).fl.getLsbD k = true) ∧
        exec i s = .next { u with cur := v.cur }
    drains (.tstr r t b c m) (fun e => s.rg b + BitVec.ofNat 64 (e / vl) * s.rg c + BitVec.ofNat 64 (e % vl * size)) ∧
    drains (.tstx r t b c m) (fun e => s.rg b + BitVec.ofNat 64 (s.cur.elem c 64 (e / vl)) + BitVec.ofNat 64 (e % vl * size))

/-! ### The slalom former, custom graphs and the copy engine -/

/-- R263 to R270: claims on the table of signatures, the wave of items that conflict with no lower one, retiring, clearing
and counting. -/
def Obligations.SlalomResult : Prop :=
  ∀ (s : State) (a b : BitVec 3) (g c : BitVec 5) (m : BitVec 3), s.etype ≠ 15 → s.cur.vl ≠ 0 → s.count ≤ 256 →
    let size := if s.etype = 14 then 1 else s.sew / 8
    let mark := fun e => sigOf (s.rg g + BitVec.ofNat 64 (s.cur.elem c 32 e * size))
    let hit := fun e => decide (e < s.count) && s.guard m e
    let apart := fun p q => s.cur.ws p &&& (s.cur.ws q ||| s.cur.rs q) = 0 ∧ s.cur.rs p &&& s.cur.ws q = 0
    let makes := fun (i : Instr) (ws rs : Nat → Nat) => s.Open i → ∃ u : State, exec i s = .next u ∧
      u = { s with cur := { s.cur with pc := s.cur.pc + 4, wcount := 0, slalom := u.cur.slalom } } ∧
      ∀ e < 256, u.cur.ws e = ws e ∧ u.cur.rs e = rs e
    makes (.sclaimw g c m) (fun e => if hit e then s.cur.ws e ||| mark e else s.cur.ws e) s.cur.rs ∧
    makes (.sclaimr g c m) s.cur.ws (fun e => if hit e then s.cur.rs e ||| mark e else s.cur.rs e) ∧
    makes (.sretire b) (fun e => if e < s.count ∧ s.cur.mbit b e = true then 0 else s.cur.ws e)
      (fun e => if e < s.count ∧ s.cur.mbit b e = true then 0 else s.cur.rs e) ∧
    makes .sclear (fun _ => 0) (fun _ => 0) ∧
    (s.Open (.swave a b) → s.Writes (.swave a b) (.m a) 1 s.count (fun _ => true) fun e =>
      if s.cur.mbit b e = true ∧ ∀ j < e, s.cur.mbit b j = true → apart e j then 1 else 0) ∧
    (s.Open (.spend g) → s.Returns (.spend g) g (BitVec.ofNat 64
      ((List.range s.count).filter fun e => s.cur.ws e != 0 || s.cur.rs e != 0).length))

/-- R113, R278, R280 to R286, R289: loading a valid slot image, dropping and querying a slot, and CX through a loaded slot: the
graph of the image at each active element. An image that is not valid raises CUSTOM_IMAGE at its first bad word, and an address
off a line MISALIGN, with the slot as it was. An empty slot is reported as CUSTOM_UNLOADED: at user level, outside a handler and
with a loader given, to the loader at CXLDR with the slot in g24, else to the supervisor. -/
def Obligations.CustomResult : Prop :=
  ∀ (s : State) (a b c d : BitVec 5) (m n : BitVec 3), s.AtRest → s.Quiet → s.cur.late = [] →
    let slot := BitVec.ofNat 3 (s.rg a).toNat
    let i := Instr.cx a b c d m n
    (∀ l : Nat → Loc, (s.rg b).toNat % 64 = 0 →
      (∀ q < 64, s.place (s.rg b + BitVec.ofNat 64 (4 * q)) 4 .read = .ok (l q) ∧ s.Clean (l q)) →
      let x := ((List.range 64).map fun q => s.peek (l q) 4 * 2 ^ (32 * q)).sum
      imageFault x = none → exec (.cxload a b) s = .next (s.Then fun st =>
        { st with cx := st.cx.set slot.toNat (some (BitVec.ofNat 2048 x)) slot.isLt })) ∧
    (∀ (l : Nat → Loc) (bad : Nat), (s.rg b).toNat % 64 = 0 →
      (∀ q < 64, s.place (s.rg b + BitVec.ofNat 64 (4 * q)) 4 .read = .ok (l q) ∧ s.Clean (l q)) →
      imageFault ((List.range 64).map fun q => s.peek (l q) 4 * 2 ^ (32 * q)).sum = some bad →
      exec (.cxload a b) s = .next (s.trap { cause := 0x0C, tepc := s.cur.pc, tval := s.rg b, elem := bad, win := none,
                                             async := false, step := false })) ∧
    ((s.rg b).toNat % 64 ≠ 0 → s.Traps (.cxload a b) 0x07 (s.rg b)) ∧
    exec (.cxdrop a) s = .next (s.Then fun st => { st with cx := st.cx.set slot.toNat none slot.isLt }) ∧
    s.Sets (.cxq b a) b (match s.cur.cx.toList.getD slot.toNat none with
      | none => 0
      | some x => BitVec.ofNat 64 (1 + imageNvec x % 4 * 2 ^ 2 + (if imageSuse x.toNat then 2 ^ 4 else 0) +
          imageSreg x.toNat * 2 ^ 5 + imageOut x.toNat % 16 * 2 ^ 10 + imageLat x.toNat % 256 * 2 ^ 16)) ∧
    (∀ x, s.cur.cx.toList.getD n.toNat none = some x → s.etype = 4 ∨ s.etype = 5 ∨ s.etype = 10 →
      (∀ f ∈ [b, c, d].drop (imageNvec x), f = 0) → s.Open i →
      s.WritesFp i (.v a) 32 s.count (s.guard m) fun e => graphValue x.toNat
        ⟨([b, c, d].take (imageNvec x)).map fun r => s.cur.elem r 32 e,
         if imageSuse x.toNat then (s.rg (BitVec.ofNat 5 (imageSreg x.toNat))).toNat % 2 ^ 32 else 0⟩) ∧
    (s.cur.cx.toList.getD n.toNat none = none → s.cur.sup = true ∨ s.cur.uiIn = true ∨ s.cur.cxldr = 0 →
      s.Traps i 0x0B (insWord i)) ∧
    (s.cur.cx.toList.getD n.toNat none = none → s.cur.sup = false → s.cur.uiIn = false → s.cur.cxldr ≠ 0 →
      exec i s = .next (s.upd fun st => { st.wg 24 (BitVec.ofNat 64 n.toNat) with
        shadow := Vector.ofFn fun k => st.g[24 + k.val], uicause := 0x0B, uiepc := st.pc, uiIn := true, quiet := false,
        pc := BitVec.ofNat 64 (st.cxldr.toNat * 64) }))

/-- R137, R294, R295, R297, R300 to R302, R305: handing a copy to the engine, one of no length that completes at once included, its
traps, and the instructions that wait for it, read it, resume it and cancel it; the cancel of a copy with BAR = 1 makes its
arrival. That the lowest free position is taken is the model's choice (log 71). -/
def Obligations.CopyResult : Prop :=
  ∀ (s : State) (a b c w : BitVec 5), s.AtRest →
    let ctl := s.rg a
    let at_ := fun n => s.cur.copies.toList.getD n CopyPos.none
    let pend := fun (n : Nat) => s.cur.pDone.getLsbD n = true ∨ s.cur.pFault.getLsbD n = true
    let held := fun n => (at_ n).st = 1 ∨ (at_ n).st = 3 ∨ pend n
    let bit := fun (n : Nat) => (1#8 <<< n : BitVec 8)
    let set := fun (n : Nat) (x : CopyPos) (st : Strand) =>
      { st with copies := Vector.ofFn fun j : Fin 8 => if j.val = n then x else st.copies.toList.getD j.val CopyPos.none }
    let names := fun (n : Nat) => (s.rg b).toNat % 8 = n ∧ (at_ n).ticket = s.rg b ∧ (at_ n).st ≠ 0
    let status := fun n => BitVec.ofNat 64 ((at_ n).st.toNat + (if pend n then 8 else 0) + (if (at_ n).side then 16 else 0) +
      (if (at_ n).poison then 32 else 0) + (at_ n).cause.toNat * 256)
    let cleared := fun n => { at_ n with side := false, poison := false, cause := 0, faddr := 0 }
    let len := ctl.toNat % 2 ^ 40
    let store := s.wsStateWord (s.cur.core.toNat / 160)
    let aligned := ctl.toNat < 2 ^ 47 ∧ len % 64 = 0 ∧ (s.rg b).toNat % 64 = 0 ∧ (s.rg c).toNat % 64 = 0
    (∀ n < 8, (¬ held n) → (∀ j < n, held j) → aligned →
      (ctl.getLsbD 46 = true → store.extractLsb' 0 2 = 1 ∧ (s.rg b).toNat + len ≤ 2 ^ 30) →
      let ticket := BitVec.ofNat 64 (s.cur.copySeq.toNat * 8 + n)
      let handed := fun (state : BitVec 3) => (s.upd fun st => { set n { CopyPos.none with
          ticket := ticket, st := state, dst := s.rg b, src := s.rg c, ctl := ctl, die := s.cur.core.toNat / 160 } st with
        copySeq := st.copySeq + 1, pc := st.pc + 4, wcount := 0 }).wg a ticket
      (len ≠ 0 → exec (.acopy a b c) s = .next (handed 1)) ∧
      (len = 0 → ctl.getLsbD 45 = false → s.isKilled s.cur.gang = false → exec (.acopy a b c) s = .next ((handed 2).upd fun st =>
        { st with pDone := st.pDone ||| bit n, event := true }))) ∧
    ((∀ n < 8, held n) → aligned → ctl.getLsbD 46 = false → s.Waits (.acopy a b c)) ∧
    (2 ^ 47 ≤ ctl.toNat → s.Traps (.acopy a b c) 0x06 ctl) ∧
    (ctl.toNat < 2 ^ 47 → len % 64 ≠ 0 → s.Traps (.acopy a b c) 0x07 (BitVec.ofNat 64 len)) ∧
    (ctl.toNat < 2 ^ 47 → len % 64 = 0 → (s.rg b).toNat % 64 ≠ 0 → s.Traps (.acopy a b c) 0x07 (s.rg b)) ∧
    (ctl.toNat < 2 ^ 47 → len % 64 = 0 → (s.rg b).toNat % 64 = 0 → (s.rg c).toNat % 64 ≠ 0 →
      s.Traps (.acopy a b c) 0x07 (s.rg c)) ∧
    (aligned → ctl.getLsbD 46 = true → store.extractLsb' 0 2 ≠ 1 → s.Traps (.acopy a b c) 0x13 store) ∧
    (aligned → ctl.getLsbD 46 = true → store.extractLsb' 0 2 = 1 → 2 ^ 30 < (s.rg b).toNat + len →
      s.Traps (.acopy a b c) 0x06 (s.rg b)) ∧
    (∀ n < 8, names n →
      ((at_ n).st ≠ 1 → exec (.acwait a b) s = .next ((s.wg a (status n)).Then fun st =>
        { st with pDone := st.pDone &&& ~~~ bit n, pFault := st.pFault &&& ~~~ bit n })) ∧
      ((at_ n).st = 1 → s.Waits (.acwait a b)) ∧
      s.Sets (.acq a b 0) a (status n) ∧ s.Sets (.acq a b 1) a (BitVec.ofNat 64 (at_ n).p) ∧
      s.Sets (.acq a b 2) a (at_ n).faddr ∧ s.Sets (.acq a b 3) a (at_ n).dst ∧ s.Sets (.acq a b 4) a (at_ n).src ∧
      s.Sets (.acq a b 5) a (at_ n).ctl ∧
      (∀ k < 4, s.Sets (.acq a b (BitVec.ofNat 5 (6 + k))) a ((at_ n).d.extractLsb' (64 * k) 64)) ∧
      ((at_ n).st = 3 → exec (.acresume b) s = .next (s.Then fun st =>
        { set n { cleared n with st := 1 } st with pFault := st.pFault &&& ~~~ bit n })) ∧
      ((at_ n).st ≠ 3 → exec (.acresume b) s = .next s.advance) ∧
      ((at_ n).st = 1 ∨ (at_ n).st = 3 →
        let off := s.upd fun st => { set n { cleared n with st := 4 } st with pFault := st.pFault &&& ~~~ bit n }
        let barrier := (at_ n).ctl.toNat / 2 ^ 40 % 32
        exec (.accancel b) s = .next
          (if (at_ n).ctl.getLsbD 45 = true then off.copyArrive off.cur barrier else off).advance) ∧
      ((at_ n).st ≠ 1 → (at_ n).st ≠ 3 → exec (.accancel b) s = .next s.advance)) ∧
    ((∀ n < 8, ¬ names n) → s.Sets (.acwait a b) a 0 ∧ s.Sets (.acq a b w) a 0 ∧ exec (.acresume b) s = .next s.advance ∧
      exec (.accancel b) s = .next s.advance)

/-! ### Launch queues and the host -/

/-- R310, R311, R315, R317, R319, R320: what the host's writes and reads of a queue's register block do to that queue, and to
nothing else. A kill by QKILL is that of KILL with reason 1. -/
def Obligations.QueueRegisters : Prop :=
  ∀ (s : State) (q : Nat) (v : Word) (gang : BitVec 32), s.Inv → q < 64 →
    let x := s.queue q
    let tail := if x.swout then { x with shadowTail := v.setWidth 32 } else { x with tail := v.setWidth 32 }
    let out := if x.swout then x else { x with swout := true, shadowTail := x.tail, frozenProg := x.prog }
    let in_ := if x.swout then { x with swout := false, tail := x.shadowTail } else x
    let base := v.extractLsb' 12 52
    let log := if 6 ≤ v.toNat % 32 ∧ v.toNat % 32 ≤ 16 then v.toNat % 32 else 6
    let killed := { s with queues := Sparse.put Queue.reset s.queues q { x with qkill := gang } }
    s.SetsQueue (.qtailWrite q v) q tail ∧
    s.SetsQueue (.qctlResume q) q { x with stopped := false } ∧
    s.SetsQueue (.qctlMref q) q { x with mirDirty := x.liveMirEn } ∧
    s.SetsQueue (.qctlSwout q) q out ∧
    s.SetsQueue (.qctlSwin q) q in_ ∧
    (x.head = .none → x.mirEn = false →
      s.SetsQueue (.qctlQreset q) q
        { x with prog := x.tail, stopped := false, errCode := 0, errSlot := 0, liveBase := x.base, liveLog := x.log,
                 liveMirEn := false, liveMirAddr := x.mirAddr, mirDirty := false }) ∧
    s.Leads (.qkillWrite q gang) (if (s.gangOf gang).any (·.queue == q) then killed.killGang gang 1 else killed) ∧
    (∃ m, s.Leads (.qerrRead q) { s with queues := m, hostRead := BitVec.ofNat 64 (x.errCode.toNat + x.errSlot.toNat * 2 ^ 32) } ∧
      ∀ r, Sparse.get Queue.reset m r = if r = q then { x with errCode := 0, errSlot := 0 } else s.queue r) ∧
    s.SetsQueue (.hostRegWrite (64 * q) v) q { x with base := base, liveBase := if x.en then x.liveBase else base } ∧
    s.SetsQueue (.hostRegWrite (64 * q + 8) v) q { x with log := log, liveLog := if x.en then x.liveLog else log } ∧
    s.SetsQueue (.hostRegWrite (64 * q + 0x10) v) q tail ∧
    s.Leads (.hostRegWrite (64 * q + 0x18) v) s ∧
    s.SetsQueue (.hostRegWrite (64 * q + 0x20) v) q
      { x with mirEn := v.getLsbD 0, mirAddr := v.extractLsb' 3 61,
               liveMirEn := if x.en then x.liveMirEn else v.getLsbD 0,
               liveMirAddr := if x.en then x.liveMirAddr else v.extractLsb' 3 61 } ∧
    (v.getLsbD 3 = false → v.getLsbD 4 = false → v.getLsbD 5 = false →
      s.SetsQueue (.hostRegWrite (64 * q + 0x28) v) q
        { (if v.getLsbD 7 then out else in_) with en := v.getLsbD 0, prio := v.extractLsb' 1 2 }) ∧
    s.Leads (.hostRegWrite (64 * q + 0x30) v) s

/-- R22, R308, R325, R330: the reads that clear, the writes of the management block, the fences, and the host's accesses to
device memory. A fenced core's gangs are killed. -/
def Obligations.ManagementRegisters : Prop :=
  (∀ (s : State) (v : Word) (cl : Fin 32) (i : Nat), s.Inv →
    let m := s.mgmt
    let c := m.ctemp[cl.val]
    s.Leads .errstatRead
      { s with hostRead := BitVec.ofNat 64 (m.ce.toNat + m.ue.toNat * 2 ^ 16 + if m.errs = [] then 0 else 2 ^ 32),
               mgmt := { m with ce := 0, ue := 0 } } ∧
    (∀ r l, m.errs = r :: l → s.Leads .errrecRead
      { s with hostRead := BitVec.ofNat 64 (r.struct.toNat + r.die.toNat * 2 ^ 8 + r.core.toNat * 2 ^ 10 +
                 (if r.uncorr then 2 ^ 18 else 0) + r.line.toNat * 2 ^ 19),
               mgmt := { m with errs := l } }) ∧
    (m.errs = [] → s.Leads .errrecRead { s with hostRead := 0 }) ∧
    s.Leads (.ctempTmaxRead cl.val)
      { s with hostRead := BitVec.ofNat 64 (c.t.toNat + c.tmax.toNat * 2 ^ 16),
               mgmt := { m with ctemp := m.ctemp.set cl.val { c with tmax := 0, seen := false } } } ∧
    (i < 2048 → ∃ (w : Word) (l : Sparse Island), w.setWidth 32 = (s.island i).droop ∧
      s.Leads (.islandDroopRead i) { s with hostRead := w, islands := l } ∧
      ∀ k, Sparse.get Island.reset l k = if k = i then { s.island i with droop := 0 } else s.island k) ∧
    s.Leads (.hostRegWrite 0x1010 v)
      { s with mgmt := { m with tlim := BitVec.ofNat 8 (max 60 (min 100 (v.toNat % 256))),
                                plim := BitVec.ofNat 16 (max 400 (min 2000 (v.toNat / 256 % 65536))) } } ∧
    s.Leads (.hostRegWrite 0x1000 v)
      { s with linksUp := s.linksUp &&& (0x7F#7 ++ v.extractLsb' 16 16 : BitVec 23),
               mgmt := { m with pkg := if m.linken = 0 then v.setWidth 6 else m.pkg,
                                hostpkg := if m.linken = 0 then v.extractLsb' 8 8 else m.hostpkg,
                                linken := v.extractLsb' 16 16 } } ∧
    s.Leads (.hostRegWrite 0x1008 v) s ∧ s.Leads (.hostRegWrite 0x1018 v) s) ∧
  (∀ (s : State) (k : Fin 10) (v : Word),
    let hit := fun c => decide (c / 64 = k.val) && v.getLsbD (c % 64)
    (∃ t, s.Leads (.fencesetWrite k.val v) t ∧
      (∀ c < 640, t.mgmt.fence.getLsbD c = (s.mgmt.fence.getLsbD c || hit c)) ∧
      (∀ st ∈ s.strands, st.placedOn = true → hit st.core.toNat = true → t.isKilled st.gang = true) ∧
      ((∀ st ∈ s.strands, st.placedOn = true → hit st.core.toNat = false) →
        (∀ x ∈ s.queues, ∀ p l, x.2.head.reserved = some (p, l) → ∀ c ∈ l, hit c = false) →
        t = { s with mgmt := { s.mgmt with fence := t.mgmt.fence } }) ∧
      s.Leads (.hostRegWrite (0x1300 + 8 * k.val) v) t) ∧
    (∃ f : BitVec 640, s.Leads (.fenceclrWrite k.val v) { s with mgmt := { s.mgmt with fence := f } } ∧
      s.Leads (.hostRegWrite (0x1380 + 8 * k.val) v) { s with mgmt := { s.mgmt with fence := f } } ∧
      ∀ c < 640, f.getLsbD c = (s.mgmt.fence.getLsbD c && !hit c))) ∧
  (∀ (s : State) (off n : Nat) (x : Word), s.Inv → s.Quiet → n ∈ [1, 2, 4, 8] → off % n = 0 → off + n ≤ 192 * 2 ^ 30 →
    let l : Loc := .dev (s.mgmt.pkg.toNat * 2 ^ 40 + off / (48 * 2 ^ 30) * 2 ^ 36 + off % (48 * 2 ^ 30))
    (∃ t, s.Wrote t true l n x.toNat ∧ s.Leads (.hostAccess off n true x) t) ∧
    (s.Clean l → s.Leads (.hostAccess off n false x) { s with hostRead := BitVec.ofNat 64 (s.peek l n) }))

/-- R310 to R317: what each packet does when it is read, what a held WAIT or SIGNAL does, the mirror's write, and how a
malformed packet stops the queue once all its slots are filled (R315). The order of the checks (the ring, the first slot, TYPE,
SIZE, the ring's end, the further slots, the reserved bytes), the event that stands for an unknown TYPE, and PROG at a WAIT whose
word cannot be read are the model's readings (log 30). -/
def Obligations.PacketEvents : Prop :=
  (∀ (s : State) (q n : Nat) (w : List Word), s.Inv → s.Quiet → s.mayRead q = true →
    let x := s.queue q
    let p := kernelParams w
    let a := w.getD 1 0
    let v := w.getD 2 0
    let c := w.getD 3 0
    let filled := (x.tail - x.prog).toNat
    let size := (w.headD 0).toNat / 256 % 256
    let type := (w.headD 0).toNat % 256
    let sized := type = 1 ∧ size = 2 ∨ type = 2 ∧ 1 ≤ size ∨ 3 ≤ type ∧ type ≤ 6 ∧ size = 1
    let stops := fun code => s.SetsQueue (.kernelPacket q) q (x.stop code)
    (s.PacketIs q 0 1 2 w → kernelZeros w →
      (p.fieldsOk = true → s.refuses none p = false →
        s.SetsQueue (.kernelPacket q) q (s.holding (x.after 2) (.kernel p false 0))) ∧
      (p.fieldsOk = false → s.LaunchError (.kernelPacket q) q 2 p 0x10 1) ∧
      (p.fieldsOk = true → s.refuses none p = true → s.LaunchError (.kernelPacket q) q 2 p 0x11 1)) ∧
    (1 ≤ n → n < 256 → s.PacketIs q 0 2 n w → s.SetsQueue (.padPacket q) q (x.after n)) ∧
    (s.PacketIs q 0 3 1 w → (∀ i, 4 ≤ i → w.getD i 0 = 0) → a.toNat % 8 = 0 → c.toNat ≤ 2 →
      (c = 2 → s.SetsQueue (.waitPacket q) q
        (s.holding (x.after 1) (if v.toNat ≤ s.tick.toNat then .none else .wait a v c))) ∧
      (c ≠ 2 → ∀ l, s.hostLoc a.toNat = some l → s.Clean l → s.SetsQueue (.waitPacket q) q
        (s.holding (x.after 1)
          (if c = 0 ∧ v.toNat ≤ s.peek l 8 ∨ c = 1 ∧ s.peek l 8 = v.toNat then .none else .wait a v c))) ∧
      (c ≠ 2 → s.hostLoc a.toNat = none → s.SetsQueue (.waitPacket q) q (x.stop 6))) ∧
    (s.PacketIs q 0 4 1 w → (∀ i, 3 ≤ i → w.getD i 0 = 0) → a.toNat % 8 = 0 →
      s.SetsQueue (.signalPacket q) q (s.holding (x.after 1) (.signal a v))) ∧
    (2 ^ x.liveLog < filled → stops 5) ∧
    (filled ≤ 2 ^ x.liveLog → s.hostLoc (x.slotAddr 0) = none → stops 6) ∧
    (filled ≤ 2 ^ x.liveLog → size ≤ filled → s.Doublewords (x.slotAddr 0) 8 (w.take 8) →
      (type = 0 ∨ 6 < type → stops 1) ∧
      (1 ≤ type → type ≤ 6 → ¬ sized → stops 2) ∧
      (sized → 2 ^ x.liveLog < x.prog.toNat % 2 ^ x.liveLog + size → stops 3) ∧
      (sized → x.prog.toNat % 2 ^ x.liveLog + size ≤ 2 ^ x.liveLog →
        ((∃ j i, 1 ≤ j ∧ j < size ∧ i < 8 ∧ s.hostLoc (x.slotAddr j + 8 * i) = none) → stops 6) ∧
        ((∀ j < size, s.Doublewords (x.slotAddr j) 8 ((w.drop (8 * j)).take 8)) → (w.headD 0).toNat / 2 ^ 16 ≠ 0 →
          stops 2)))) ∧
  (∀ (s : State) (q : Nat) (a v c : Word), s.Inv → s.Quiet → q < 64 →
    let x := s.queue q
    (x.head = .wait a v c →
      (c = 2 → if v.toNat ≤ s.tick.toNat then s.SetsQueue (.waitPoll q) q (s.holding x .none) else s.Leads (.waitPoll q) s) ∧
      (c ≠ 2 → ∀ l, s.hostLoc a.toNat = some l → s.Clean l →
        if c = 0 ∧ v.toNat ≤ s.peek l 8 ∨ c ≠ 0 ∧ s.peek l 8 = v.toNat then s.SetsQueue (.waitPoll q) q (s.holding x .none)
        else s.Leads (.waitPoll q) s) ∧
      (c ≠ 2 → s.hostLoc a.toNat = none → s.SetsQueue (.waitPoll q) q ((s.holding x .none).stop 6))) ∧
    (x.head = .signal a v → (∀ g ∈ s.gangs, g.queue ≠ q) →
      (s.hostLoc a.toNat = none → s.SetsQueue (.signalWrite q) q (s.holding x .none)) ∧
      ∀ l, s.hostLoc a.toNat = some l → ∃ u m,
        s.Wrote u true l 8 v.toNat ∧ s.Leads (.signalWrite q) { u with queues := m } ∧
        ∀ r, Sparse.get Queue.reset m r = if r = q then s.holding x .none else s.queue r) ∧
    (x.mirDirty = true → x.swout = false → x.liveMirEn = true →
      (s.hostLoc (x.liveMirAddr.toNat * 8) = none →
        s.SetsQueue (.mirrorWrite q) q (({ x with mirDirty := false } : Queue).stop 6)) ∧
      ∀ l, s.hostLoc (x.liveMirAddr.toNat * 8) = some l → ∃ u m,
        s.Wrote u true l 8 (x.prog.toNat + (x.prog ^^^ 0x5A5A5A5A ^^^ BitVec.ofNat 32 (q * 0x01010101)).toNat * 2 ^ 32) ∧
        s.Leads (.mirrorWrite q) { u with queues := m } ∧
        ∀ r, Sparse.get Queue.reset m r = if r = q then { x with mirDirty := false } else s.queue r))

/-- R314, R321, R324: a WSLOAD or a GANGSYNC takes its step with the KERNEL that follows it, and a queue stops when another
packet follows; the messages of a multi-package launch, its commit, its commit tick and its abort. A GANGSYNC takes the
places of its KERNEL once both packets are consumed and it comes first among the candidates, and waits for them otherwise: that,
and that a GANGSYNC too near its COMMIT fails at once, are the model's readings (log 33), and the queue that then counts as
served is its choice (log 32). A RESERVED that comes late counts as FAILED; the coordinator commits when it holds every RESERVED
in time, and aborts after a FAILED or when one has not come in time. -/
def Obligations.PairEvents : Prop :=
  (∀ (s : State) (q : Nat) (w w2 : List Word), s.Inv → s.Quiet → s.mayRead q = true →
    let x := s.queue q
    let p := kernelParams w2
    let commit := w.getD 2 0
    let held := fun places => s.holding (x.after 3) (.gangsync (w.getD 1 0) commit (w.getD 3 0) p false 0 places [] false)
    let waits := { s with queues := Sparse.put Queue.reset s.queues q (held none) }
    let errs := s.LaunchError (.gangsyncPacket q) q 3 p
    (s.PacketIs q 0 5 1 w → (w.getD 1 0).toNat ≤ 3 → (∀ i, 2 ≤ i → w.getD i 0 = 0) →
      (s.PacketIs q 1 1 2 w2 → kernelZeros w2 →
        s.SetsQueue (.wsloadPacket q) q (s.holding (x.after 3) (.wsload (w.getD 1 0).toNat p false 0))) ∧
      (s.PacketIs q 1 2 1 w2 → s.SetsQueue (.wsloadPacket q) q (x.stop 4))) ∧
    (s.PacketIs q 0 6 1 w → (w.getD 1 0).getLsbD s.mgmt.pkg.toNat = true → (∀ i, 4 ≤ i → w.getD i 0 = 0) →
      (s.PacketIs q 1 2 1 w2 → s.SetsQueue (.gangsyncPacket q) q (x.stop 4)) ∧
      (s.PacketIs q 1 1 2 w2 → kernelZeros w2 →
        (s.mgmt.tsync = false → errs 0x12 3) ∧
        (s.mgmt.tsync = true →
          (p.fieldsOk = false → errs 0x10 1) ∧
          (p.fieldsOk = true → s.refuses none p = true → errs 0x11 1) ∧
          (p.fieldsOk = true → s.refuses none p = false →
            (commit.toNat < s.tick.toNat + 10000 → errs 0x12 3) ∧
            (s.tick.toNat + 10000 ≤ commit.toNat →
              (waits.headPlaces q = none ∨ waits.headFirst q = false → s.SetsQueue (.gangsyncPacket q) q (held none)) ∧
              ∀ cores, waits.headPlaces q = some cores → waits.headFirst q = true →
                ∃ m, s.Leads (.gangsyncPacket q) { s with queues := m, served := q } ∧
                  ∀ r, Sparse.get Queue.reset m r = if r = q then held (some cores) else s.queue r)))))) ∧
  (∀ (s : State) (q : Nat) (mask commit tag : Word) (p : Params) (ch failed : Bool) (obj : Nat) (places : Option (List Nat))
      (got : List (BitVec 6)), s.Inv → s.Quiet → q < 64 →
    (s.queue q).head = .gangsync mask commit tag p ch obj places got failed →
    let here := s.mgmt.pkg.toNat
    let leads := mask.getLsbD here = true ∧ ∀ j < here, mask.getLsbD j = false
    let complete := ∀ i < 64, mask.getLsbD i = true → ∃ x ∈ got, x.toNat = i
    let below := ((List.range here).filter mask.getLsbD).length
    let above := ((List.range 64).filter fun i => decide (here < i) && mask.getLsbD i).length
    (∀ (pkg : BitVec 6) (ok : Bool), leads → mask.getLsbD pkg.toNat = true → pkg ∉ got →
      (pkg = s.mgmt.pkg → ok = places.isSome) →
      s.SetsQueue (.gangsyncReserved q pkg ok) q
        { s.queue q with head := (.gangsync mask commit tag p ch obj places (if ok then got ++ [pkg] else got)
            (failed || !ok || decide (commit.toNat < s.tick.toNat + 10000))) }) ∧
    (mask ≠ 0 → ¬ leads ∨ failed = true ∨ commit.toNat < s.tick.toNat + 10000 ∧ ¬ complete →
      s.LaunchError (.gangsyncAbort q) q 0 p 0x12 3) ∧
    (∀ (gang : BitVec 32) (before total : Nat) (cores : List Nat) (args : List (Nat × Word)),
      ch = true → places = some cores → gang ≠ 0 → s.gangOf gang = none → below ≤ before → total ≤ 163840 →
      before + p.nstrand + above ≤ total → (above = 0 → total = before + p.nstrand) →
      (below = 0 → failed = false ∧ complete ∧ before = 0) →
      readArgs s p.argmask p.argbuf.toNat 0 32 = (s, some args) →
      ∃ t, s.Leads (.gangsyncCommit q gang before total) t ∧ (t.queue q).head = .none ∧
        s.Launched t { id := gang, queue := q, first := before, size := total, mask := mask, commit := some commit,
                       loading := none, object := obj } p cores args)) ∧
  (∀ (s : State) (gang : BitVec 32) (g : Gang) (c : Word), s.gangOf gang = some g → g.commit = some c →
    c.toNat ≤ s.tick.toNat →
    let start := fun (st : Strand) => if st.gang = gang ∧ st.phase = .held then { st with phase := .resident } else st
    s.Leads (.commitTick gang)
      { s with cur := start s.cur, others := s.others.map start,
               gangs := s.gangs.map fun h => if h.id = gang then { h with commit := none } else h })

/-! ### The scheduler -/

/-- R27 to R31, R47, R56, R313, R321, R333, R334: the trust core's answer on a code object; the placement of the head that
comes first, in ascending cores each of which can take its group, and its refusal when an argument cannot be read; a queue head
that has waited long; and the end of a weight store's load. Which identifier a gang is given is the model's choice (log 1), and
so is which queue counts as served (log 32). -/
def Obligations.PlacementEvents : Prop :=
  (∀ (s : State) (q : Nat) (p : Params) (o : Nat), s.Inv → s.Quiet → q < 64 → (s.queue q).head = .kernel p false o →
    (checkObject s p = none → s.LaunchError (.codeObjectCheck q) q 0 p 0x13 4) ∧
    (∀ pages, checkObject s p = some (s, pages) → ∃ m l,
      s.Leads (.codeObjectCheck q) { s with queues := m, permits := l } ∧
      (∀ r, Sparse.get Queue.reset m r =
        if r = q then { s.queue q with head := .kernel p true (pages.headD 0) } else s.queue r) ∧
      (∀ x, x ∈ l ↔ x ∈ s.permits ∨ x.page ∈ pages ∧ x.object = pages.headD 0))) ∧
  (∀ (s : State) (q : Nat) (p : Params) (obj : Nat) (cores : List Nat) (args : List (Nat × Word)), s.Inv → q < 64 →
    (s.queue q).head = .kernel p true obj → s.serving = true → p.fieldsOk = true → s.refuses none p = false →
    s.headPlaces q = some cores → s.headFirst q = true →
    (∀ k, readArgs { s with nextGang := k } p.argmask p.argbuf.toNat 0 32 = ({ s with nextGang := k }, some args)) →
    ∃ t id, s.Leads (.gangPlace q) t ∧ (s.nextGang ≠ 0 → s.gangOf s.nextGang = none → id = s.nextGang) ∧
      (t.queue q).head = .none ∧ t.served = q ∧
      ({ s with nextGang := id + 1 } : State).Launched t
        { id := id, queue := q, first := 0, size := p.nstrand, mask := 1 <<< s.mgmt.pkg.toNat, commit := none,
          loading := none, object := obj } p cores args) ∧
  (∀ (s : State) (q : Nat) (p : Params) (obj : Nat) (cores : List Nat), s.Inv → q < 64 →
    (s.queue q).head = .kernel p true obj → s.serving = true → p.fieldsOk = true → s.refuses none p = false →
    s.headPlaces q = some cores → s.headFirst q = true →
    (∀ k, readArgs { s with nextGang := k } p.argmask p.argbuf.toNat 0 32 = ({ s with nextGang := k }, none)) →
    ∃ k, s.Refuses { s with nextGang := k } (.gangPlace q) q 0 p 0x14 5) ∧
  (∀ (s : State) (w : Site) (p : Params) (cores : List Nat), s.placesFor w p = some cores →
    cores.length = p.groups ∧ cores.Pairwise (· < ·) ∧
    (∀ i < p.groups, s.canTake w p.grsz (p.groupSize i) (cores.getD i 0) = true) ∧
    (p.place = 1 → ∃ k < 32, cores = (List.range p.groups).map (20 * k + ·))) ∧
  (∀ (s : State) (q : Nat) (p : Params) (ch : Bool) (o : Nat), s.Inv → q < 64 → (s.queue q).head = .kernel p ch o →
    (s.queue q).aged = false → 1000000 ≤ (s.tick - (s.queue q).headSince).toNat →
    s.SetsQueue (.ageingExpiry q) q { s.queue q with aged := true }) ∧
  (∀ (s : State) (d : Fin 4), s.dies[d.val].wsState = 1 → s.dies[d.val].wsFault = false →
    (∀ g ∈ s.gangs, g.loading ≠ some d.val) →
    s.Leads (.wsServingEntry d.val)
      { s with dies := s.dies.set d.val { wsState := 2, wsGen := s.dies[d.val].wsGen + 1, wsFault := false } })

/-- R31, R114 to R119, R141, R260, R316: pre-emption for a head of higher priority, and for one of the gang's own after its
time, switches every strand of the gang out and leaves its full image at its TWIN; resumption takes each strand up from its image
under the grant, and the exited strands go with their group; a kill sends every strand to its exit routine, at once or, with
admitted slices or copies under way, after them; and the end of a gang writes its record. A trap record that the image overwrites
is set aside and stands at TWIN again after the resumption: that is the model's choice (log 37), as is what goes with the entries
of a window beside their records (log 55). -/
def Obligations.GangEvents : Prop :=
  (∀ (s : State) (gang : BitVec 32) (g : Gang), s.Inv → s.gangOf gang = some g → s.isPlaced g = true →
    let ours := fun (st : Strand) => st.gang = gang ∧ st.phase = .resident
    let out := fun (i : Instr) (f : Option Nat) =>
      (∀ st ∈ s.strands, ours st → st.midSlice = false ∧ st.updq = [] ∧ s.blockOk st.twinAddr st.imageLen = true ∧
        st.k.all (fun k => k.inflight.isEmpty && !k.endSent) = true ∧
        ∀ en ∈ st.window, en.pidx < 2 ^ 32 ∧ en.ngrp < 2 ^ 32 ∧ ∀ a b m, en.ins = .vld a b m → st.relayBound false a = false) →
      (s.strands.Pairwise fun a b => ours a → ours b →
        a.twinAddr + a.imageLen ≤ b.twinAddr ∨ b.twinAddr + b.imageLen ≤ a.twinAddr) →
      ∃ t h, s.Leads i t ∧ t.gangOf gang = some h ∧
        h = { g with placed := false, outAt := s.tick, outOrder := s.outCount, outFor := f } ∧
        (∀ a ∈ s.strands, ∃ b ∈ t.strands,
          if a.gang = gang ∧ a.phase = .resident then
            b = { a with phase := .switchedOut, stalled := false, quiet := false, stop := none, leaving := false, window := [],
                         kept := if a.sup = true then some (s.physRead a.twinAddr 0x4840) else none,
                         away := a.window.map Entry.aside } ∧ t.HoldsImage a
          else b = a)
    (∀ f, s.preemptFor g = some f → out (.preemption gang) f) ∧
    (∀ q x, (q, x) ∈ s.queues → 10000000 ≤ (s.tick - g.placedAt).toNat →
      (∀ y ∈ s.queues, s.headWaits y.1 = true → y.2.prio.toNat = (s.queue g.queue).prio.toNat → y.1 = q) →
      s.headWaits q = true → x.prio.toNat = (s.queue g.queue).prio.toNat → out (.timeShareExpiry gang) (some q))) ∧
  (∀ (s : State) (gang : BitVec 32) (gvlen : Nat) (g : Gang) (cores : List Nat), s.gangOf gang = some g → g.isOut = true →
    gvlenOk g.gvlen0 gvlen = true → s.resumePlaces g = some cores → s.gangFirst g = true →
    (∀ st ∈ s.strands, st.gang = gang → st.phase = .switchedOut → imageOk s st = true) →
    ∃ t, s.Leads (.gangResume gang gvlen) t ∧ (t.gangOf gang).map Gang.placed = some true ∧
      ∀ a ∈ s.strands, ∃ b ∈ t.strands,
        let core := BitVec.ofNat 10 (cores.getD ((a.id.toNat - g.first) / g.perCore) 0)
        let old := s.physRead (a.twinAddr + 0x14) 4
        if a.gang = gang ∧ a.phase = .switchedOut then
          s.RestoresImage a b ∧ b.id = a.id ∧ b.gang = gang ∧ b.phase = .resident ∧ b.linkGen = a.linkGen + 1 ∧
          b.event = true ∧ b.pc = BitVec.ofNat 64 (s.physRead (a.twinAddr + 8) 8) ∧
          b.sup = (s.physRead (a.twinAddr + 6) 1).testBit 2 ∧ b.core = core ∧ b.wcount = 0 ∧ b.balance = 0 ∧
          b.grsz = a.grsz ∧ b.gvlen = BitVec.ofNat 17 old ∧ (b.grantPend = true ↔ gvlen ≠ old) ∧
          (gvlen ≠ old → b.grantNext = BitVec.ofNat 17 gvlen) ∧
          (gvlen = old → b.grantNext = BitVec.ofNat 17 (s.physRead (a.twinAddr + 0x1F0) 8)) ∧ b.kept = none
        else if a.gang = gang ∧ a.phase = .exited then b = { a with core := core }
        else (a.gang = gang ∧ a.phase = .resident) ∨ b = a) ∧
  (∀ (s : State) (gang : BitVec 32) (g : Gang) (reason : Word), s.gangOf gang = some g → g.killed = none →
    1 ≤ reason.toNat → reason.toNat ≤ 4 →
    ∃ t, s.Leads (.kill gang reason) t ∧ t.isKilled gang = true ∧
      ((∀ a ∈ s.strands, a.gang = gang → a.dying = none ∧ (a.phase = .resident ∨ a.phase = .switchedOut → a.atRest = true)) →
        ∀ h, t.region gang h = none) ∧
      ∀ a ∈ s.strands, ∃ b ∈ t.strands, b.id = a.id ∧ b.gang = a.gang ∧
        if a.gang = gang ∧ (a.phase = .resident ∧ a.atRest = true ∨ a.phase = .held) then
          b.phase = .resident ∧ b.window = [] ∧ b.vl = 0 ∧ b.sup = true ∧ b.pc = a.tvec.setWidth 64 <<< 6 ∧
          b.tcause.toNat = 0x17 + 0x8000 + (if a.sup then 0x4000 else 0) ∧ b.tval = reason ∧ b.tepc = a.pc ∧
          b.updq = [] ∧ ∀ i : Fin 8, b.k[i.val] = Slot.unbound ∧ b.cx[i.val] = none
        else if a.gang = gang ∧ a.phase = .resident then
          b.phase = .resident ∧ b.dying = some reason ∧ b.vl = 0 ∧ b.updq = [] ∧ b.pc = a.pc
        else if a.gang = gang ∧ a.phase = .switchedOut then
          (a.atRest = true → b.phase = .exited) ∧ (a.atRest = false → b.phase = .switchedOut ∧ b.dying = some reason)
        else a.gang ≠ gang → b.phase = a.phase ∧ b.pc = a.pc ∧ b.g = a.g) ∧
  (∀ (s : State) (gang : BitVec 32) (g : Gang) (l : Loc), s.Inv → s.Quiet → s.gangOf gang = some g →
    (∀ st ∈ s.strands, st.gang = gang → st.phase ≠ .absent → st.phase = .exited ∧ ∀ i : Fin 8, st.copies[i.val].st ≠ 1) →
    (∀ h, s.region gang h = none) → s.hostLoc g.params.compl.toNat = some l →
    ∃ u t, s.Wrote u true l 16
        (s.completion gang (if g.killed = none then 0 else 2) ((g.killed.getD 0).toNat % 256)) ∧
      s.Leads (.gangCompletion gang) t ∧ t.mem = u.mem ∧ t.hostMem = u.hostMem ∧
      t.gangs = s.gangs.filter (fun h => h.id ≠ gang) ∧
      (∀ st ∈ t.strands, st.phase ≠ .absent → st.gang ≠ gang ∧ st ∈ s.strands) ∧
      ∀ st ∈ s.strands, st.phase ≠ .absent → st.gang ≠ gang → st ∈ t.strands)

/-! ### Errors, power and starts -/

/-- R19 to R21, R322, R323, R325, R327: a corrected error is counted and recorded, an uncorrectable one poisons its sector, or
kills its owner and fences its core; a link that fails goes down and one that trains comes up; a package that no route reaches
takes its gangs with it; droops; and the first synchronisation after a cold start sets the origin of TICK, a later one leaves
TICK alone. The die in the record of a bridge between dies or of the CXL port is the model's choice (log 35), and so are
structure 0 for the instruction cache, the slot as the owner of a word, and the numbering of sectors (log 35); that the ticks
the package keeps move with the origin is its choice too (log 34). -/
def Obligations.ErrorEvents : Prop :=
  (∀ (s : State) (r : ErrRec), s.Inv →
    let inc := fun (x : BitVec 16) => BitVec.ofNat 16 (min 65535 (x.toNat + 1))
    let m := s.mgmt
    let ce := { m with ce := inc m.ce, errs := m.errs ++ [r] }
    let ue := { m with ue := inc m.ue, errs := m.errs ++ [r] }
    let sector := r.line.toNat
    let ours := populated (64 * sector) = true ∧ paPkg (64 * sector) = m.pkg.toNat
    s.Leads (.eccError 0 0 0 false 0) { s with mgmt := { m with ce := inc m.ce } } ∧
    (1 ≤ r.struct.toNat → r.struct.toNat ≤ 6 → r.core.toNat < 160 → r.line = 0 → ∀ slot < 4,
      let core := 160 * r.die.toNat + r.core.toNat
      (r.uncorr = false → s.Leads (.eccError r.struct r.die.toNat r.core.toNat false slot) { s with mgmt := ce }) ∧
      (r.uncorr = true → ∃ t, s.Leads (.eccError r.struct r.die.toNat r.core.toNat true slot) t ∧
        t.mgmt = { ue with fence := t.mgmt.fence } ∧
        (∀ c, t.mgmt.fence.getLsbD c = (s.mgmt.fence.getLsbD c || c == core)) ∧
        ∀ st ∈ s.strands, st.placedOn = true → st.core.toNat = core → t.isKilled st.gang = true)) ∧
    (r.struct = 7 → r.core = 0xFF → ours → r.die.toNat = paDie (64 * sector) →
      s.Leads (.scrub sector false) s ∧
      (r.uncorr = false → s.Leads (.scrub sector true) { s with mgmt := ce } ∧
        s.Leads (.eccError 7 r.die.toNat 0 false sector) { s with mgmt := ce }) ∧
      (r.uncorr = true → ∃ z, s.Leads (.eccError 7 r.die.toNat 0 true sector) { s with mgmt := ue, poison := z } ∧
        ∀ k, Sparse.get false z k = (decide (k = sector) || Sparse.get false s.poison k))) ∧
    (r.struct = 8 → r.core = 0xFF → r.die.toNat = sector / 2 ^ 24 → sector < 4 * 2 ^ 24 →
      s.Leads (.scrub (2 ^ 40 + sector) false) s ∧
      (r.uncorr = false → s.Leads (.scrub (2 ^ 40 + sector) true) { s with mgmt := ce } ∧
        s.Leads (.eccError 8 r.die.toNat 0 false sector) { s with mgmt := ce }) ∧
      (r.uncorr = true → ∃ z, s.Leads (.eccError 8 r.die.toNat 0 true sector) { s with mgmt := ue, wsPoison := z } ∧
        ∀ k, Sparse.get false z k = (decide (k = sector) || Sparse.get false s.wsPoison k))) ∧
    (∀ link < 23, s.linksUp.getLsbD link = true →
      let die := if link < 16 then link / 4 else if link = 19 ∨ link = 20 then 1 else if link = 21 then 2 else 0
      r = { struct := 9, die := BitVec.ofNat 2 die, core := 0xFF, uncorr := r.uncorr, line := 0 } →
      (r.uncorr = false → s.Leads (.linkCrcError link true) { s with mgmt := ce }) ∧
      (r.uncorr = true → ∃ u, s.Leads (.linkCrcError link false) { s with mgmt := ue, linksUp := u } ∧
        ∀ k, u.getLsbD k = (s.linksUp.getLsbD k && k != link)))) ∧
  (∀ (s : State) (link : Nat) (pkg : BitVec 6), link < 16 → s.mgmt.linken.getLsbD link = true →
    s.linksUp.getLsbD link = false → pkg ≠ s.mgmt.pkg → pkg.toNat ≠ s.mgmt.hostpkg.toNat →
    ∃ u, s.Leads (.flaralLinkUp link pkg)
        { s with linksUp := u, routes := if pkg ∈ s.routes then s.routes else s.routes ++ [pkg] } ∧
      ∀ k < 23, u.getLsbD k = (s.linksUp.getLsbD k || k == link)) ∧
  (∀ (s : State) (pkg : BitVec 6), pkg ∈ s.routes →
    ∃ t, s.Leads (.packageUnreachable pkg) t ∧ t.routes = s.routes.filter (fun x => x ≠ pkg) ∧
      (∀ g ∈ s.gangs, g.pkgMask.getLsbD pkg.toNat = true → t.isKilled g.id = true) ∧
      ((∀ g ∈ s.gangs, g.pkgMask.getLsbD pkg.toNat = false) →
        t = { s with routes := s.routes.filter fun x => x ≠ pkg })) ∧
  (∀ (s : State) (i : Nat), s.Inv → i < 2048 → (i < 1952 ∨ i % 32 ≠ 31) →
    s.SetsIsland (.droopEvent i) i { s.island i with droop := (s.island i).droop + 1, fresh := true }) ∧
  (∀ s : State, s.mgmt.tsync = false →
    let synced := { s with mgmt := { s.mgmt with tsync := true, origin := true } }
    (s.mgmt.origin = true → s.Leads .tickSync synced) ∧
    (s.mgmt.origin = false → s.Leads .tickSync
      { synced.shiftTicks (Config.origin s.fresh - s.tick) with fresh := s.fresh + 1 } ∧
      (synced.shiftTicks (Config.origin s.fresh - s.tick)).tick = Config.origin s.fresh))

/-- R10, R22, R326 to R332: an evaluation, at the multiples of 1,000 tk, steps the lane island of a core under pressure and
leaves it alone without; a calibration of a cluster that was idle for 100,000 tk sets the margins of the cluster's islands and,
with the last cluster of a die, those of the die's other islands (log 76), fences a core that fails, and, as the last one, ends
reduced service; and what the beginning and the end of a cold start and a warm start leave. The margins found are open (log 11).
A cold start's memory is the model's choice (log 2), and so are that a cold start is two events (log 35) and what besides its
rules a cold and a warm start keep: host memory with its map, the keys, and at a warm start poison marks and TICK (logs 34
and 36). -/
def Obligations.PowerEvents : Prop :=
  (∀ s : State, s.tick.toNat % 1000 ≠ 0 → exec .islandEvaluate s = .refused (.notEnabled "ISLAND_EVALUATE")) ∧
  (∀ s : State, s.Inv → s.tick.toNat % 1000 = 0 → ∃ t, s.Leads .islandEvaluate t ∧ t = { s with islands := t.islands } ∧
    ∀ core < 640,
      let x := s.island (3 * core + 1)
      let y := t.island (3 * core + 1)
      let scalar := s.island (3 * core)
      let hot := s.hot (core / 20) = true
      (x.fresh = true ∨ hot ∨ s.mgmt.plim.toNat < s.mgmt.power → 4 < x.alc → y.alc = x.alc / 2 ∧ y.fresh = false) ∧
      (x.fresh = true ∨ hot ∨ s.mgmt.plim.toNat < s.mgmt.power → x.alc ≤ 4 → y.alc = x.alc) ∧
      (x.fresh = false → (s.island (3 * core + 2)).fresh = false → ¬ hot → s.mgmt.power ≤ s.mgmt.plim.toNat →
        s.cool (core / 20) = false → y.alc = x.alc) ∧
      (scalar.fresh = true ∨ hot → 1 < s.coreStep core 0 → (t.island (3 * core)).fstep = s.coreStep core 0 - 1)) ∧
  (∀ (s : State) (cl : Nat), s.Inv → cl < 32 → s.serving = true →
    (∀ st ∈ s.strands, st.placedOn = true → st.core.toNat / 20 ≠ cl) →
    (∀ last, Sparse.get none s.lastBusy cl = some last → 100000 ≤ (s.tick - last).toNat) →
    ∃ t, s.Leads (.calibration cl none) t ∧ (∀ k, t.mgmt.calmap.getLsbD k = (s.mgmt.calmap.getLsbD k || k == cl)) ∧
      t = { s with islands := t.islands, fresh := s.fresh + 1,
                   mgmt := { s.mgmt with calmap := t.mgmt.calmap,
                                         phase := if t.mgmt.calmap = BitVec.allOnes 32 then 3 else s.mgmt.phase } } ∧
      (let last := !s.mgmt.calmap.getLsbD cl && (List.range 8).all fun k =>
         8 * (cl / 8) + k == cl || s.mgmt.calmap.getLsbD (8 * (cl / 8) + k)
       ∀ i, t.island i =
        if i / 60 = cl ∧ i < 1920 ∨ i = 1920 + 32 * (cl / 8) + cl % 8 ∨
            last = true ∧ 1928 + 32 * (cl / 8) ≤ i ∧ i < 1952 + 32 * (cl / 8) ∧ (1952 ≤ i → i % 32 ≠ 31) then
          { s.island i with margin := Config.margin i (s.fresh + 1) }
        else s.island i) ∧
      ∀ c < 640, c / 20 = cl → ∃ u, s.Leads (.calibration cl (some c)) u ∧ u.islands = t.islands ∧
        u.mgmt.calmap = t.mgmt.calmap ∧ u.mgmt.phase = t.mgmt.phase ∧
        (∀ k, u.mgmt.fence.getLsbD k = (s.mgmt.fence.getLsbD k || k == c)) ∧
        u.mgmt.errs = s.mgmt.errs ++ [{ struct := 1, die := BitVec.ofNat 2 (c / 160), core := BitVec.ofNat 8 (c % 160),
                                        uncorr := true, line := 0 }]) ∧
  (∀ (s : State) (trained : Bool),
    let cold : State := { State.reset with
      hostMem := s.hostMem, keys := s.keys, agenda := s.agenda, fresh := s.fresh,
      mgmt := { Mgmt.reset with hdm := s.mgmt.hdm, phase := 1 } }
    (s.mgmt.phase ≠ 1 → s.Leads (.coldStart trained) cold) ∧
    (s.mgmt.phase = 1 → s.Leads (.coldStart trained) { s with mgmt := { s.mgmt with phase := if trained then 2 else 4 } }) ∧
    s.Leads (.warmStart false trained) cold ∧
    ∃ l, s.Leads (.warmStart true trained)
        { State.reset with
          hostMem := s.hostMem, keys := s.keys, agenda := s.agenda, fresh := s.fresh, tick := s.tick, mem := s.mem, ws := s.ws,
          poison := s.poison, wsPoison := s.wsPoison, islands := l,
          mgmt := { Mgmt.reset with hdm := s.mgmt.hdm, phase := 3, warm := true, calmap := BitVec.allOnes 32,
                                    fence := s.mgmt.fence, origin := s.mgmt.origin } } ∧
      (s.Inv → ∀ i, Sparse.get Island.reset l i = { Island.reset with margin := (s.island i).margin }))

/-! ### The window and the engines -/

/-- R39, R42 to R44, R57 to R65, R192, R193, R197: a strand that runs ahead enters its instructions and fires them later. A
window instruction that passes its checks enters behind the older ones with its latches; of the strands that are ready a unit
takes one of the largest balance, in debt or not, and among equals the next in slot order; with one strand on a core, a free unit
admits the lowest waiting groups of its oldest entry that has any, up to 8 consecutive ones, at the cost of R42; an element of
the youngest entry that is admitted and ready writes its value and no other, and a load's return the value read; a gather returns
what the channel of its lowest element owns; a store group writes its elements, or, where the strand's writes may perform later,
owes them; and a complete entry at the front retires. That a unit takes a strand's oldest entry that has a slice is the model's
choice (log 65), and which writes may perform later is its choice too (log 25). -/
def Obligations.WindowEvents : Prop :=
  (∀ (s u : State) (i : Instr) (op : WOp),
    (match i with
     | .cx a b c d m n => ∃ x, s.cur.slotImage n = some x ∧ cxReserved x b c d = false ∧ op = opCx a b c d m n (cxScalar (some x))
     | _ => opOf i = some op) → s.cur.ahead = true → s.cur.window.length < 16 →
    s.Ready (gDest i).toList → ((gDest i).isSome = true → (s.cur.window.filter fun e => e.gpend.isSome).length < 8) →
    s.Ready op.gsrc → op.holds s = false → op.waits s.cur = false → op.pre s = none →
    (s.cur.vl ≠ 0 ∨ op.skips0 = false → op.etypes s.etype = true ∧ (op.access = true → s.etype ≠ 15)) →
    (s.cur.vl ≠ 0 ∨ op.anyVl = true → op.shape s.cur = false) → s.cur.unstreamed i → u.cur.unstreamed i →
    (if s.cur.vl ≠ 0 ∨ op.anyVl = true then op.cause s else .ok s ()) = .ok u () →
    ∃ en, exec i s = .next (u.upd fun st => { op.onEnter st with window := (op.onEnter st).window ++ [en], pc := (op.onEnter st).pc + 4 }) ∧
      en.ins = i ∧ en.word = (encode i).getD 0 ∧ en.gpend = gDest i ∧ en.vl = u.cur.vl ∧ en.rl.toNat = u.cur.rl.toNat ∧
      en.vtype.toNat = u.cur.vtype.toNat ∧ en.frm = u.cur.frm ∧ en.repro = (u.cur.repro == 1) ∧ en.mvl = u.cur.mvl ∧
      en.tet = u.cur.tetype ∧ (let l := op.latch u.cur
        en.opa = l.opa ∧ en.opb = l.opb ∧ en.opc = l.opc ∧ en.opd = l.opd) ∧ en.ngrp = op.ngrp u.cur ∧ en.tailDone = false ∧
      en.detected = none ∧ ∀ e, en.fired e = false) ∧
  (∀ (a b c : BitVec 5) (m : BitVec 3) (f : BitVec 2) (st : Strand),
    (opVadd a b c m f).ngrp st = (st.rl.toNat * st.vl.toNat + 31) / 32) ∧
  (∀ (s : State) (en : Entry) (rest : List Entry), s.cur.window = en :: rest →
    (en.ngrp ≤ en.pidx → en.tailDone = true →
      s.Leads .windowRetire (s.upd fun st => { st with window := rest, wcount := 0 }))) ∧
  (∀ (s : State) (core : Nat), s.Inv → core < 640 → ∃ t, s.Leads (.sliceAdmit core) t ∧
    (Sparse.get CoreUnits.reset t.units core).lc = (Sparse.get CoreUnits.reset s.units core).lc + 1 ∧
    (∀ st ∈ t.strands, st.on core = true → st.window ≠ [] → st.balance ≤ 16 * 65536) ∧
    ((∀ st ∈ s.strands, st.on core = true → st.window = []) → t = { s with units := t.units })) ∧
  (∀ (last : Nat) (ready : List Strand) (st : Strand), chooseFrom last ready = some st →
    st ∈ ready ∧ ∀ x ∈ ready, x.balance ≤ st.balance ∧
      (x.balance = st.balance → (st.slot + 4 - (last + 1) % 4) % 4 ≤ (x.slot + 4 - (last + 1) % 4) % 4)) ∧
  (∀ (s : State) (core k : Nat) (x : Seat) (u : Engine), core < 640 → s.cur.on core = true →
    (∀ st ∈ s.others, st.on core = false ∧ isStrand st s.cur = false) → s.cur.stop = none → s.cur.dying = none →
    s.cur.stepping = false → s.weightOf s.cur ≠ 0 → s.seats[k]? = some x → engineOf x.en.ins = some u →
    streamBound s.cur x.en = false → x.en.detected = none → (∀ w, w ≠ u → readySlice s w = none) →
    (∀ j < k, ∀ y, s.seats[j]? = some y → s.seatSlice u j y = none) →
    let c := Sparse.get CoreUnits.reset s.units core
    (c.unit u).freeAt ≤ c.lc →
    let waits := (s.readyGroups k x).filter fun g => !x.en.adm.getLsbD g
    waits ≠ [] →
    ∃ (g n cost : Nat) (t : State) (y : Entry), 1 ≤ n ∧ n ≤ 8 ∧ (∀ h, g ≤ h → h < g + n → h ∈ waits) ∧ (∀ h ∈ waits, g ≤ h) ∧ (n < 8 → g + n ∉ waits) ∧
      s.Leads (.sliceAdmit core) t ∧ t.cur.window[k]? = some y ∧ y = { x.en with adm := y.adm } ∧
      (∀ h < 1024, y.adm.getLsbD h = (x.en.adm.getLsbD h || decide (g ≤ h ∧ h < g + n))) ∧
      t = { s with units := t.units, cur := { s.cur with
        window := s.cur.window.set k y, balance := min (16 * 65536) (s.cur.balance + 65536) - cost * 65536 } } ∧
      (let d := Sparse.get CoreUnits.reset t.units core
       d.lc = c.lc + 1 ∧ d.unit u = { freeAt := c.lc + cost, last := s.cur.slot } ∧ ∀ w, w ≠ u → d.unit w = c.unit w) ∧
      let up := fun (a b : Nat) => (a + b - 1) / b
      let size := fun (total : Nat) => ((List.range n).map fun j => min 32 (total - 32 * (g + j))).sum
      let elems := size (x.en.rl.toNat * x.en.vl.toNat)
      let sew := sewOf (x.en.vtype.toNat % 16)
      let lanes := 64 * s.alcOf core
      let mvl := x.en.mvl.toNat
      let image := up (size (s.cur.grsz.toNat * 8 / sew) * (sew / 8)) 256 + if g = 0 then 1 else 0
      match x.en.ins with
      | .upd .. => cost = up (elems * 64) lanes
      | .cx .. => cost = up (elems * 32) lanes
      | .tzero .. | .tgetr .. | .tgetc .. | .tsetr .. | .tsetc .. | .mcbld .. => cost = 1
      | .vldseg _ _ e _ f | .vstseg _ _ e _ f => cost = up (elems * ((f.toNat + 1) * (sewOf e.toNat / 8))) 256
      | .vrsave .. | .vrload .. => cost = image
      | .vldrow .. | .vstrow .. => cost = up (x.en.rl.toNat * x.en.vl.toNat * (sew / 8)) 256
      | .vemb .. => ∀ r z, s.load x.en.opb 64 = .ok r z → cost = up (elems * ((tableOf z).width * (tableOf z).fs)) 256
      | _ =>
        (u = .lanes → cost = up (elems * sew) lanes) ∧
        (u = .matrix → cost = max 1 (up (rankOf (x.en.vtype.toNat % 16) * mvl * mvl) (mopRate (x.en.vtype.toNat % 16)))) ∧
        (u = .slalom → cost = 1) ∧ (u = .vmu → cost = up (elems * (sew / 8)) 256)) ∧
  (∀ (s : State) (k e : Nat) (x : Seat) (op : WOp), s.free = true → s.cur.stepping = false → s.seats[k]? = some x →
    k + 1 = s.cur.window.length → opOf x.en.ins = some op → x.en.vl ≠ 0 → x.en.over = false → x.en.pairing = none →
    x.clash = false → streamBound s.cur x.en = false →
    let marks := fun (t : State) => ∃ y, t.cur.window[k]? = some y ∧
      ∀ i < x.units.count, y.fired i = (x.en.fired i || i == e)
    let ready := x.units.byElem = true ∧ x.units.at_ e = e ∧ (∀ i, x.units.unitOf 0 i = i) ∧
      x.en.ngrp = (x.units.count + 31) / 32 ∧ x.admits s.cur (s.firing k x e) = true ∧ s.actReady k x e = true ∧
      x.completes [e] = false
    (∀ (eff : Strand → Entry → Eff) (d : VWrite) (v : Nat), ready → op.body.resolve s x.en = .regs eff →
      isStore x.en.ins = false → (eff (x.en.reading s.cur) x.en).writes = [d] → e < d.upto → d.val e = some v →
      ∃ t, s.Leads (.elementFire k e) t ∧ marks t ∧ ∀ j, d.w * (j + 1) ≤ d.reg.bits →
        bitsAt (t.cur.rbits d.reg) d.w j = if j = e then v % 2 ^ d.w else bitsAt (s.cur.rbits d.reg) d.w j) ∧
    (∀ (plan : Strand → Entry → LoadPlan) (a : BitVec 5) (w v : Nat) (fl : Flags) (r : State), ready →
      op.body.resolve s x.en = .load plan →
      let p := plan (x.en.reading s.cur) x.en
      returns s x.en e = true → p.act e = true → p.dests = [(a, w)] → p.get (if p.fresh x.en then p.first s else s) e = .ok r ([v], fl) →
      r.cur = { s.cur with linkGen := r.cur.linkGen } →
      ∃ t, s.Leads (.loadReturn k e) t ∧ marks t ∧ ∀ j, w * (j + 1) ≤ 262144 →
        t.cur.elem a w j = if j = e then v % 2 ^ w else s.cur.elem a w j) ∧
    (∀ l, isGather x.en.ins = true → s.gatherable k x = e :: l → s.Leads (.gatherCommand k) (fireAll k s (e ::
      if isSc x.en.ins then [] else l.filter fun i => gatherChannel s x.en i == gatherChannel s x.en e))) ∧
    (∀ (plan : Strand → Entry → StorePlan) (l : List Span), s.Inv → s.Quiet → op.body.resolve s x.en = .store plan →
      isStore x.en.ins = true → x.units.byElem = false → (∀ u < x.units.count, x.units.first u = u ∧ x.units.last u = u) →
      x.en.ngrp = x.units.count → x.admits s.cur (s.firing k x e) = true → s.actReady k x e = true →
      x.completes [e] = false → groupSpans (plan s.cur x.en) s x.en e = .ok l →
      (∀ y ∈ l, y.n < 64 ∧ ∀ b, y.loc = .dev b → b % 64 + y.n ≤ 64) →
      ∃ u t y, s.Leads (.storeGroupWrite k e) t ∧ t = { u with cur := t.cur } ∧ t.cur.window[k]? = some y ∧
        y.groupDone e = true ∧ (s.maySlow l = false → s.StoredAll u l ∧ t.cur.late = s.cur.late) ∧
        (s.maySlow l = true → u = s ∧ t.cur.late = s.cur.late ++ l.map (Span.owed x.en.strip))))

/-- R97, R125, R192, R216, R251 to R255, R298, R299: what an engine does for a strand, one act at a time: the home segment
receives a pair or refuses it; sent bytes and an end marker arrive; a walk fills the translation buffer; an access of another
agent reaches its channel; and a copy writes a line, ends, or stops at a fault. A copy is DONE at once when its lines are
written, and with BAR = 1 the barrier holds its arrival while it releases. That a line of a copy cannot be in host memory is the
model's reading of what host memory carries (log 61), that a fault of the source is reported whatever the destination does is
its reading (log 19), and that a full segment puts the new pair into the log is its choice (log 51). -/
def Obligations.EngineEvents : Prop :=
  (∀ (s : State) (p : Pair) (l : List Pair), s.cur.updq = p :: l →
    let took := fun (u : State) (f : Entry → Entry) => s.Leads .pressPairReceive
      (u.upd fun st => { st with updq := l, window := st.window.map fun en => if en.sender p then f en else en })
    let refused := fun c => took s fun en => en.pairRefused p c
    (s.region s.cur.gang p.handle = none → refused 0x10) ∧
    (∀ r, s.region s.cur.gang p.handle = some r → r.serial ≠ p.serial ∨ s.reachable p.addr = false → refused 0x10) ∧
    (∀ r, s.region s.cur.gang p.handle = some r → r.serial = p.serial → s.reachable p.addr = true →
      let put := fun es => took (s.setRegion s.cur.gang p.handle (some { r with entries := es })) (·.pairTaken p)
      let entry := fun u : Option Nat =>
        ({ addr := p.addr, val := p.val, key := p.key, batch := r.batch, seg := p.seg, unit := u, spoiled := false } : PressEntry)
      ((∀ e ∈ r.entries, r.absorbs p e = false) →
        (s.segCount p.seg < 65536 → put (r.entries ++ [entry none])) ∧
        (65536 ≤ s.segCount p.seg → 0 < r.logSpace → put (r.entries ++ [entry (r.logUnit p.addr p.key.toNat)])) ∧
        (65536 ≤ s.segCount p.seg → r.logSpace = 0 → refused 0x0F)) ∧
      (∀ e, r.entries = [e] → r.absorbs p e = true → r.oper ≠ 6 →
        let c := combine r.oper.toNat r.etype.toNat .rne e.val.toNat p.val.toNat
        took (s.setRegion s.cur.gang p.handle (some
          { r with entries := [{ e with val := BitVec.ofNat 64 c.bits }], flags := r.flags ||| c.fl })) (·.pairTaken p)))) ∧
  (∀ (s : State) (i : Nat),
    let k := s.cur.slotAt i
    (k.status.getLsbD 0 = true → k.mode.getLsbD 5 = true → k.mode.getLsbD 0 = false → k.inflight ≠ [] →
      s.Leads (.relayDataArrive i) (s.upd fun st =>
        st.setSlot i fun k => { k with arrived := k.arrived ++ k.inflight, inflight := [] })) ∧
    (k.endSent = true → k.inflight = [] →
      s.Leads (.relayEndMarker i) (s.upd fun st =>
        st.setSlot i fun k => { k with status := k.status ||| 2, endSent := false }))) ∧
  (∀ (s : State) (va : Word) (kind : BitVec 2), s.cur.phase = .resident → canonical va = true → s.tlbHit s.cur va = none →
    kind ≠ 3 →
    (∀ pte bits, walk s s.cur.ptroot va = .leaf pte bits →
      let x : TlbEntry := { core := s.cur.core.toNat, asid := s.cur.asid, va := va.toNat % 2 ^ 48 / 2 ^ bits * 2 ^ bits,
                            bits := bits, pte := pte }
      ∃ l, s.Leads (.pageWalk va kind) { s with tlb := l } ∧ x ∈ l ∧
        ((s.tlb.filter fun y => y.core == s.cur.core.toNat).length < 1024 → l = s.tlb ++ [x])) ∧
    ((∀ pte bits, walk s s.cur.ptroot va ≠ .leaf pte bits) → s.Leads (.pageWalk va kind) s)) ∧
  (∀ (s : State) (agent : BitVec 64) (pa : BitVec 46) (n : Nat) (x : BitVec 64), s.Inv → s.Quiet → n ∈ [1, 2, 4, 8] →
    pa.toNat % n = 0 → populated pa.toNat = true → paPkg pa.toNat = s.mgmt.pkg.toNat →
    let l : Loc := .dev pa.toNat
    (s.Clean l → s.Leads (.channelAccess agent pa n false x) { s with hostRead := BitVec.ofNat 64 (s.peek l n) }) ∧
    (s.poisoned pa.toNat = true → s.Leads (.channelAccess agent pa n false x)
      (if agent = BitVec.allOnes 64 then s else s.killGang (agent.extractLsb' 32 32) 2)) ∧
    (agent = BitVec.allOnes 64 → ∃ t, s.Wrote t false l n x.toNat ∧ s.Leads (.channelAccess agent pa n true x) t) ∧
    (agent ≠ BitVec.allOnes 64 → ∃ u tags, s.Wrote u false l n x.toNat ∧
      s.Leads (.channelAccess agent pa n true x) { u with links := tags } ∧
      ∀ line, Sparse.get none tags line =
        if line = pa.toNat / 64 ∧ ¬ (∃ k, s.tag line = some ⟨agent.extractLsb' 32 32, agent.setWidth 32, k⟩) then none
        else s.tag line)) ∧
  (∀ (s : State) (i line : Nat), s.Inv → s.Quiet → i < 8 →
    let c := s.cur.copyAt i
    let from_ := c.src + BitVec.ofNat 64 (64 * line)
    let dest := c.dst + BitVec.ofNat 64 (64 * line)
    let stops := fun (side poison : Bool) (cause : BitVec 8) (a : Word) => s.Leads (.copyFaultStop i line)
      (s.upd fun st => { st.setCopy i { c with st := 3, side := side, poison := poison, cause := cause, faddr := a } with
        pFault := st.pFault ||| (1#8 <<< i), event := true })
    c.st = 1 → line < c.ctl.toNat % 2 ^ 40 / 64 → c.written line = false → line ≤ c.p / 64 + 256 → s.isKilled s.cur.gang = false →
    let onDevice := fun (l : Loc) => ∃ pa, l = .dev pa
    (∀ l1 r1, s.translate s.cur from_ .read = .ok (l1, r1) → onDevice l1 → s.Clean l1 →
      (∀ l2 r2, c.ctl.getLsbD 46 = false → s.translate s.cur dest .write = .ok (l2, r2) → ¬ onDevice l2 →
        stops true false 0x06 dest) ∧
      (∀ l2 r2, c.ctl.getLsbD 46 = false → s.translate s.cur dest .write = .ok (l2, r2) → onDevice l2 → ∃ u z,
        s.Wrote u false l2 64 (s.peek l1 64) ∧
        s.Leads (.copyLine i line) (({ u with poison := z } : State).upd fun st => st.setCopy i (c.mark line)) ∧
        ∀ k, Sparse.get false z k = (Sparse.get false s.poison k && !(decide (l2 = .dev (64 * k))))) ∧
      (c.ctl.getLsbD 46 = true → ∃ m z,
        s.Leads (.copyLine i line) (({ s with ws := m, wsPoison := z } : State).upd fun st => st.setCopy i (c.mark line)) ∧
        ∀ a, let base := c.die * 2 ^ 30 + dest.toNat
          Sparse.get 0 m a = if base ≤ a ∧ a < base + 64 then byteOf (s.peek l1 64) (a - base) else s.wsByte a) ∧
      (∀ k, c.ctl.getLsbD 46 = false → s.translate s.cur dest .write = .error k → stops true false k dest)) ∧
    (∀ k, s.translate s.cur from_ .read = .error k → stops false false k from_) ∧
    (∀ l1 r1, s.translate s.cur from_ .read = .ok (l1, r1) → ¬ onDevice l1 → stops false false 0x06 from_) ∧
    (∀ pa r, s.translate s.cur from_ .read = .ok (.dev pa, r) → s.poisoned pa = true → stops false true 0x06 from_)) ∧
  (∀ (c : CopyPos) (line j : Nat), c.p % 64 = 0 → c.p / 64 ≤ line → line ≤ c.p / 64 + 256 →
    (c.mark line).written j = (c.written j || j == line)) ∧
  (∀ (s : State) (i : Nat), i < 8 →
    let c := s.cur.copyAt i
    c.st = 1 → c.ctl.toNat % 2 ^ 40 ≤ c.p →
    let done := s.upd fun st => st.setCopy i { c with st := 2 }
    (c.ctl.getLsbD 45 = false → s.isKilled s.cur.gang = false →
      s.Leads (.copyComplete i) (done.upd fun st => { st with pDone := st.pDone ||| (1#8 <<< i), event := true })) ∧
    (c.ctl.getLsbD 45 = true → s.isKilled s.cur.gang = false →
      s.Leads (.copyComplete i) (done.copyArrive done.cur (c.ctl.toNat / 2 ^ 40 % 32))) ∧
    (s.isKilled s.cur.gang = true → s.Leads (.copyComplete i) done))

/-- R105, R108, R111, R113, R120, R121: the traps that no instruction at PC takes: a pending copy cause, the lowest faulted
position first, enters the user-level handler, or the supervisor when no vector is given, and its pending bit is clear once it is
taken; the oldest entry with a detected fault reports it; an expired watchdog; and the BRK that ends an element step. -/
def Obligations.AsynchronousTraps : Prop :=
  ∀ s : State, s.cur.phase = .resident → s.cur.stop = none → s.cur.dying = none →
    let user := fun (i : Nat) (code : BitVec 8) (f : Strand → Strand) =>
      s.cur.sup = false → s.cur.uiIn = false → s.cur.stepping = false → s.cur.leaving = false → s.Ready [24, 25, 26, 27, 28, 29] →
      (s.cur.uivec ≠ 0 → s.Leads .userTrapAsync (s.upd fun st => { (f st).wg 24 (s.cur.copyAt i).ticket with
        shadow := Vector.ofFn fun k => st.g[24 + k.val], uicause := code, uiepc := st.pc, uiIn := true, stalled := false,
        quiet := false, pc := BitVec.ofNat 64 (st.uivec.toNat * 64) })) ∧
      (s.cur.uivec = 0 → s.Leads .userTrapAsync ((s.upd fun st => { st with stalled := false }).trap
        { cause := code, tepc := s.cur.pc, tval := (s.cur.copyAt i).ticket, elem := 0, win := none, async := true, step := false }))
    (∀ i < 8, s.cur.enFault = true → s.cur.pFault.getLsbD i = true → (∀ j < i, s.cur.pFault.getLsbD j = false) →
      user i 0x1A fun st => { st with pFault := st.pFault &&& ~~~(1#8 <<< i) }) ∧
    (∀ i < 8, (s.cur.enFault = false ∨ s.cur.pFault = 0) → s.cur.enDone = true → s.cur.pDone.getLsbD i = true →
      (∀ j < i, s.cur.pDone.getLsbD j = false) → user i 0x19 fun st => { st with pDone := st.pDone &&& ~~~(1#8 <<< i) }) ∧
    (∀ k en d, s.cur.window[k]? = some en → en.detected = some d → (∀ j < k, ∀ x, s.cur.window[j]? = some x → x.detected = none) →
      s.Leads .supervisorTrap (s.trap { cause := d.cause, tepc := s.cur.pc, tval := d.tval, elem := d.elem.toNat, win := some k,
                                        async := false, step := false })) ∧
    (s.cur.wdog ≠ 0 → s.cur.wdog.toNat ≤ s.cur.wcount.toNat →
      s.Leads .watchdog ((s.trap { cause := 0x16, tepc := s.cur.pc, tval := s.cur.wcount, elem := 0, win := none, async := true,
                                   step := false }).upd fun st => { st with wcount := 0 })) ∧
    (s.cur.stepping = true → s.cur.stepDone = true →
      s.Leads .elementStep (s.trap { cause := 0x15, tepc := s.cur.pc, tval := 0, elem := 0, win := none, async := false,
                                     step := true })) ∧
    (∀ en rest op eff, s.cur.stepping = true → s.cur.stepDone = false → s.cur.window = en :: rest → opOf en.ins = some op →
      en.vl ≠ 0 → en.over = false → op.body.resolve s en = .regs eff → en.pairing = none → streamBound s.cur en = false →
      let x := s.headSeat en
      let us := x.stepUnits
      let next := x.after s.cur us
      let y := eff (en.reading s.cur) en
      x.clash = false → x.completes us = false → next.groupDone en.pidx = true ∨ next.fires ≠ en.fires →
      let u := ((s.upd fun st => y.fireBy (fun d e => us.contains (x.units.unitOf d e)) st).under s 0).upd fun st =>
        { st with window := next :: rest }
      s.Leads .elementStep (u.trap { cause := 0x15, tepc := s.cur.pc, tval := 0, elem := 32 * en.pidx, win := none,
                                     async := false, step := true }))

/-! ### The whole machine -/

/-- R67 to R69, R78: words written out from the encodings of the spec decode to their instructions, and words with a reserved
major opcode, a reserved function or a nonzero reserved field decode to none. -/
def Obligations.DecodeWords : Prop :=
  decode 0b000001_00011_00001_00010_000_00000000 = .ok (.add 3 1 2) ∧
  decode 0b000010_00101_00110_1111111111111100 = .ok (.addi 5 6 0xFFFC) ∧
  decode 0b010101_00100_00111_010_0000000000011 = .ok (.blt 4 7 3) ∧
  decode 0b011111_00011_00000_0000_000000110000 = .ok (.mfs 3 0x030) ∧
  (∀ i, decode 0x00000000 ≠ .ok i) ∧ (∀ i, decode 0xFFFFFFFF ≠ .ok i) ∧
  (∀ i, decode 0b000001_00011_00001_00010_000_00011000 ≠ .ok i) ∧
  (∀ i, decode 0b000001_00011_00001_00010_001_00000000 ≠ .ok i) ∧
  (∀ i, decode 0b010101_00100_00111_110_0000000000011 ≠ .ok i)

/-- R67 to R69, R78: every well-formed instruction that has an encoding comes back from decoding its word, with every operand
at every value that the encoding admits. -/
def Obligations.DecodeEncode : Prop :=
  ∀ (i : Instr) (w : BitVec 32), encode i = some w → illFormed i = none → decode w = .ok i

/-- R38, R70, R74, R78, R105, R120: the turn passes to the next strand of its core in slot order after the one that had the
core's last turn (which core comes next is the model's choice, log 5), and no strand is lost. With nothing due, a step lets
time pass and turns to the strand whose turn it is (what the engines have under way for it goes on by one act, and the stores
that it owes perform, unless its next instruction may come before them); with an empty window and no trap, kill or wait under
way that strand fetches the word at PC and executes the instruction that it decodes to, or raises ILLEGAL_OP when it decodes to
none and FETCH_FAULT when it cannot be fetched; in an element step the instruction is marked as executed; a strand that waits
tries again in its next turn. An event of the input list that can come to pass does, after the stores that strands owe where it
may not pass them, and the word that `withFetchWord` places is the one that the next step runs. -/
def Obligations.StepRunsDecoded : Prop :=
  (∀ s : State, s.Inv → (∃ st ∈ s.strands, st.phase ≠ .absent) →
    ∃ st ∈ s.strands,
      let t := s.nextTurn
      let n := (Sparse.get CoreUnits.reset s.units st.core.toNat).turn
      st.phase ≠ .absent ∧
      (∀ x ∈ s.strands, x.phase ≠ .absent → x.core = st.core →
        if n ≤ st.place then n ≤ x.place → st.place ≤ x.place else x.place < n ∧ st.place ≤ x.place) ∧
      t.cur ∈ s.strands ∧ t.cur.gang = st.gang ∧ t.cur.id = st.id ∧ t.cur.phase ≠ .absent ∧
      (∀ x ∈ s.strands, x ∈ t.strands) ∧
      t.turn = st.core.toNat + 1 ∧ (Sparse.get CoreUnits.reset t.units st.core.toNat).turn = st.place + 1) ∧
  (∀ (s s1 : State) (w : BitVec 32), s.agenda = [] →
    let u := s.clock.nextTurn.attended.settled
    u.cur.phase = .resident → u.cur.window = [] → u.cur.stop = none → u.cur.dying = none → u.cur.stalled = false →
    u.cur.expired = false → u.cur.asyncDue = false → u.cur.stepDone = false → u.fetch = .word s1 w →
    let marked := fun (o : Out) =>
      match o with
      | .next t => .next (if t.cur.stepping = true ∧ t.cur.stalled = false then t.upd fun st => { st with stepDone := true } else t)
      | x => x
    (∀ i, decode w = .ok i →
      (u.cur.stepping = false → step s = exec i s1) ∧ (u.cur.stepping = true → step s = marked (exec i s1))) ∧
    ((∀ i, decode w ≠ .ok i) → u.cur.stepping = false → step s = exec (.noInstruction w) s1)) ∧
  (∀ (s : State) (block : Word), s.agenda = [] →
    let u := s.clock.nextTurn.attended.settled
    u.cur.phase = .resident → u.cur.window = [] → u.cur.stop = none → u.cur.dying = none → u.cur.stalled = false →
    u.cur.expired = false → u.cur.asyncDue = false → u.cur.stepDone = false → u.fetch = .fault block →
    step s = .next (u.trap { cause := 0x03, tepc := u.cur.pc, tval := block, elem := 0, win := none, async := false, step := false })) ∧
  (∀ (s t : State) (e : Instr) (rest : List Turn), s.agenda = .event e :: rest → encode e = none →
    exec e (({ s.clock with agenda := rest } : State).settledFor e) = .next t → step s = .next t) ∧
  (∀ s : State, s.agenda = [] →
    let u := s.clock.nextTurn.attended.settled
    u.cur.phase = .resident → u.cur.stop = none → u.cur.dying = none → (∀ en ∈ u.cur.window, en.detected = none) →
    u.cur.expired = false → u.cur.asyncDue = false → u.cur.stalled = true →
    step s = .next (u.upd fun st => { st with stalled := false })) ∧
  (∀ (w : BitVec 32) (i : Instr), decode w = .ok i →
    ∃ s1 : State, s1.cur.pc = 0x10000 ∧ s1.cur.window = [] ∧ s1.rawRead 0x10000 4 = w.toNat ∧
      step (State.reset.withFetchWord 32 w.toNat) = exec i s1)

/-- R56, R106, R304, R310, R325, R331: what a cold start leaves, as the tables of the registers give it, the invariant of a step
included; and what a launch leaves in a strand's registers. That unlisted memory reads 0 is the model's choice (log 2). -/
def Obligations.ResetValues : Prop :=
  (let s := State.reset
   s.Inv ∧ s.gangs = [] ∧ (∀ st ∈ s.strands, st.phase = .absent) ∧ s.mem = [] ∧ s.tick = 0 ∧ s.agenda = [] ∧
   s.mgmt.pkg = 0 ∧ s.mgmt.hostpkg = 0xFF ∧ s.mgmt.linken = 0 ∧ s.mgmt.tsync = false ∧ s.mgmt.phase = 0 ∧ s.mgmt.warm = false ∧
   s.mgmt.calmap = 0 ∧ s.mgmt.tlim = 95 ∧ s.mgmt.plim = 2000 ∧ s.mgmt.ce = 0 ∧ s.mgmt.ue = 0 ∧ s.mgmt.errs = [] ∧
   s.mgmt.fence = 0 ∧ (∀ d : Fin 4, s.dies[d.val] = { wsState := 0, wsGen := 0, wsFault := false } ∧ s.mgmt.pring[d.val] = 0) ∧
   (∀ c : Fin 32, s.mgmt.ctemp[c.val] = { t := 0, tmax := 0, seen := false }) ∧
   (∀ i, (s.island i).droop = 0 ∧ (s.island i).fstep = 8 ∧ (s.island i).alc = 32 ∧ (s.island i).margin = 0) ∧
   (∀ q, let x := s.queue q
     x.base = 0 ∧ x.log = 6 ∧ x.tail = 0 ∧ x.prog = 0 ∧ x.mirEn = false ∧ x.mirAddr = 0 ∧ x.en = false ∧ x.prio = 0 ∧
     x.stopped = false ∧ x.swout = false ∧ x.errCode = 0 ∧ x.errSlot = 0 ∧ x.qkill = 0)) ∧
  (∀ (s : State) (g : Gang) (args : List (Nat × Word)) (i core slot : Nat),
    let st := launchStrand s g args i core slot
    st.vl = 0 ∧ st.rl = 0 ∧ st.vtype = 0 ∧ st.frm = 1 ∧ st.fflags = 0 ∧ st.repro = 0 ∧ st.mvl = 0 ∧ st.tetype = 0 ∧
    st.tilesOn = false ∧ st.tilesAllow = false ∧ st.cycle = 0 ∧ st.grantNext = 0 ∧ st.grantPend = false ∧ st.uivec = 0 ∧
    st.uicause = 0 ∧ st.uiepc = 0 ∧ st.uiIn = false ∧ st.enDone = false ∧ st.enFault = false ∧ st.enTrapu = false ∧
    st.pDone = 0 ∧ st.pFault = 0 ∧ st.cxldr = 0 ∧ st.tvec = 0 ∧ st.tcause = 0 ∧ st.tepc = 0 ∧ st.tval = 0 ∧ st.telem = 0 ∧
    st.twin = 0 ∧ st.estep = false ∧ st.wdog = g.params.wdog ∧ st.id.toNat = (g.first + i) % 2 ^ 32 ∧ st.gang = g.id ∧
    (0x2545F491 ^^^ (st.id + 1) ≠ 0 → st.srseed = 0x2545F491 ^^^ (st.id + 1)))

/-- R1, R39, R56, R63, R95, R137: the invariant of the machine. From every state with the invariant, every step, whatever the strand
in focus or the input list does, leaves it: the memories, the link tags, the poison marks and the tables of the package, that
of busy clusters included, stay in their one canonical form, FRM holds one of its four modes in every strand, and no window
holds more than 16 entries. -/
def Obligations.StepKeepsInvariant : Prop := ∀ s t : State, s.Inv → step s = .next t → t.Inv

end
end

