-- ==== Sys2Proof/Laws/State.lean ====
section
/-! SUPPORT. What each update leaves: one lemma per field, so that no proof unfolds a record update. -/

set_option Elab.async false

namespace Sys2Proof.Machine

/-! ### State.upd -/

@[simp] theorem State.upd_cur (s : State) (f : Strand → Strand) : (s.upd f).cur = f s.cur := rfl
@[simp] theorem State.upd_others (s : State) (f : Strand → Strand) : (s.upd f).others = s.others := rfl
@[simp] theorem State.upd_gangs (s : State) (f : Strand → Strand) : (s.upd f).gangs = s.gangs := rfl
@[simp] theorem State.upd_mem (s : State) (f : Strand → Strand) : (s.upd f).mem = s.mem := rfl
@[simp] theorem State.upd_hostMem (s : State) (f : Strand → Strand) : (s.upd f).hostMem = s.hostMem := rfl
@[simp] theorem State.upd_ws (s : State) (f : Strand → Strand) : (s.upd f).ws = s.ws := rfl
@[simp] theorem State.upd_poison (s : State) (f : Strand → Strand) : (s.upd f).poison = s.poison := rfl
@[simp] theorem State.upd_wsPoison (s : State) (f : Strand → Strand) : (s.upd f).wsPoison = s.wsPoison := rfl
@[simp] theorem State.upd_links (s : State) (f : Strand → Strand) : (s.upd f).links = s.links := rfl
@[simp] theorem State.upd_ticket (s : State) (f : Strand → Strand) : (s.upd f).ticket = s.ticket := rfl
@[simp] theorem State.upd_tlb (s : State) (f : Strand → Strand) : (s.upd f).tlb = s.tlb := rfl
@[simp] theorem State.upd_permits (s : State) (f : Strand → Strand) : (s.upd f).permits = s.permits := rfl
@[simp] theorem State.upd_keys (s : State) (f : Strand → Strand) : (s.upd f).keys = s.keys := rfl
@[simp] theorem State.upd_tick (s : State) (f : Strand → Strand) : (s.upd f).tick = s.tick := rfl
@[simp] theorem State.upd_mgmt (s : State) (f : Strand → Strand) : (s.upd f).mgmt = s.mgmt := rfl
@[simp] theorem State.upd_islands (s : State) (f : Strand → Strand) : (s.upd f).islands = s.islands := rfl
@[simp] theorem State.upd_units (s : State) (f : Strand → Strand) : (s.upd f).units = s.units := rfl
@[simp] theorem State.upd_dies (s : State) (f : Strand → Strand) : (s.upd f).dies = s.dies := rfl
@[simp] theorem State.upd_queues (s : State) (f : Strand → Strand) : (s.upd f).queues = s.queues := rfl
@[simp] theorem State.upd_routes (s : State) (f : Strand → Strand) : (s.upd f).routes = s.routes := rfl
@[simp] theorem State.upd_linksUp (s : State) (f : Strand → Strand) : (s.upd f).linksUp = s.linksUp := rfl
@[simp] theorem State.upd_served (s : State) (f : Strand → Strand) : (s.upd f).served = s.served := rfl
@[simp] theorem State.upd_nextGang (s : State) (f : Strand → Strand) : (s.upd f).nextGang = s.nextGang := rfl
@[simp] theorem State.upd_outCount (s : State) (f : Strand → Strand) : (s.upd f).outCount = s.outCount := rfl
@[simp] theorem State.upd_regionNo (s : State) (f : Strand → Strand) : (s.upd f).regionNo = s.regionNo := rfl
@[simp] theorem State.upd_lastBusy (s : State) (f : Strand → Strand) : (s.upd f).lastBusy = s.lastBusy := rfl
@[simp] theorem State.upd_turn (s : State) (f : Strand → Strand) : (s.upd f).turn = s.turn := rfl
@[simp] theorem State.upd_hostRead (s : State) (f : Strand → Strand) : (s.upd f).hostRead = s.hostRead := rfl
@[simp] theorem State.upd_agenda (s : State) (f : Strand → Strand) : (s.upd f).agenda = s.agenda := rfl
@[simp] theorem State.upd_fresh (s : State) (f : Strand → Strand) : (s.upd f).fresh = s.fresh := rfl
@[simp] theorem State.upd_upd (s : State) (f g : Strand → Strand) : (s.upd f).upd g = s.upd (fun st => g (f st)) := rfl

/-! ### State.advance, State.goto, State.stall, State.wg as changes of the strand in focus -/

@[simp] theorem State.advance_eq (s : State) : s.advance = s.upd Strand.advance := rfl
@[simp] theorem State.goto_eq (s : State) (t : Word) : s.goto t = s.upd fun st => { st with pc := t, wcount := 0, quiet := false } := rfl
@[simp] theorem State.stall_eq (s : State) (q : Bool) : s.stall q = s.upd fun st => { st with stalled := true, quiet := q } := rfl
@[simp] theorem State.wg_eq (s : State) (x : BitVec 5) (w : Word) : s.wg x w = s.upd fun st => st.wg x w := rfl

/-! ### State.setByte -/

@[simp] theorem State.setByte_cur (s : State) (pa : Nat) (b : Byte) : (s.setByte pa b).cur = s.cur := rfl
@[simp] theorem State.setByte_others (s : State) (pa : Nat) (b : Byte) : (s.setByte pa b).others = s.others := rfl
@[simp] theorem State.setByte_gangs (s : State) (pa : Nat) (b : Byte) : (s.setByte pa b).gangs = s.gangs := rfl
@[simp] theorem State.setByte_hostMem (s : State) (pa : Nat) (b : Byte) : (s.setByte pa b).hostMem = s.hostMem := rfl
@[simp] theorem State.setByte_ws (s : State) (pa : Nat) (b : Byte) : (s.setByte pa b).ws = s.ws := rfl
@[simp] theorem State.setByte_poison (s : State) (pa : Nat) (b : Byte) : (s.setByte pa b).poison = s.poison := rfl
@[simp] theorem State.setByte_wsPoison (s : State) (pa : Nat) (b : Byte) : (s.setByte pa b).wsPoison = s.wsPoison := rfl
@[simp] theorem State.setByte_links (s : State) (pa : Nat) (b : Byte) : (s.setByte pa b).links = s.links := rfl
@[simp] theorem State.setByte_ticket (s : State) (pa : Nat) (b : Byte) : (s.setByte pa b).ticket = s.ticket := rfl
@[simp] theorem State.setByte_tlb (s : State) (pa : Nat) (b : Byte) : (s.setByte pa b).tlb = s.tlb := rfl
@[simp] theorem State.setByte_permits (s : State) (pa : Nat) (b : Byte) : (s.setByte pa b).permits = s.permits := rfl
@[simp] theorem State.setByte_keys (s : State) (pa : Nat) (b : Byte) : (s.setByte pa b).keys = s.keys := rfl
@[simp] theorem State.setByte_tick (s : State) (pa : Nat) (b : Byte) : (s.setByte pa b).tick = s.tick := rfl
@[simp] theorem State.setByte_mgmt (s : State) (pa : Nat) (b : Byte) : (s.setByte pa b).mgmt = s.mgmt := rfl
@[simp] theorem State.setByte_islands (s : State) (pa : Nat) (b : Byte) : (s.setByte pa b).islands = s.islands := rfl
@[simp] theorem State.setByte_units (s : State) (pa : Nat) (b : Byte) : (s.setByte pa b).units = s.units := rfl
@[simp] theorem State.setByte_dies (s : State) (pa : Nat) (b : Byte) : (s.setByte pa b).dies = s.dies := rfl
@[simp] theorem State.setByte_queues (s : State) (pa : Nat) (b : Byte) : (s.setByte pa b).queues = s.queues := rfl
@[simp] theorem State.setByte_routes (s : State) (pa : Nat) (b : Byte) : (s.setByte pa b).routes = s.routes := rfl
@[simp] theorem State.setByte_linksUp (s : State) (pa : Nat) (b : Byte) : (s.setByte pa b).linksUp = s.linksUp := rfl
@[simp] theorem State.setByte_served (s : State) (pa : Nat) (b : Byte) : (s.setByte pa b).served = s.served := rfl
@[simp] theorem State.setByte_nextGang (s : State) (pa : Nat) (b : Byte) : (s.setByte pa b).nextGang = s.nextGang := rfl
@[simp] theorem State.setByte_outCount (s : State) (pa : Nat) (b : Byte) : (s.setByte pa b).outCount = s.outCount := rfl
@[simp] theorem State.setByte_regionNo (s : State) (pa : Nat) (b : Byte) : (s.setByte pa b).regionNo = s.regionNo := rfl
@[simp] theorem State.setByte_lastBusy (s : State) (pa : Nat) (b : Byte) : (s.setByte pa b).lastBusy = s.lastBusy := rfl
@[simp] theorem State.setByte_turn (s : State) (pa : Nat) (b : Byte) : (s.setByte pa b).turn = s.turn := rfl
@[simp] theorem State.setByte_hostRead (s : State) (pa : Nat) (b : Byte) : (s.setByte pa b).hostRead = s.hostRead := rfl
@[simp] theorem State.setByte_agenda (s : State) (pa : Nat) (b : Byte) : (s.setByte pa b).agenda = s.agenda := rfl
@[simp] theorem State.setByte_fresh (s : State) (pa : Nat) (b : Byte) : (s.setByte pa b).fresh = s.fresh := rfl

/-! ### State.setHostByte -/

@[simp] theorem State.setHostByte_cur (s : State) (pa : Nat) (b : Byte) : (s.setHostByte pa b).cur = s.cur := rfl
@[simp] theorem State.setHostByte_others (s : State) (pa : Nat) (b : Byte) : (s.setHostByte pa b).others = s.others := rfl
@[simp] theorem State.setHostByte_gangs (s : State) (pa : Nat) (b : Byte) : (s.setHostByte pa b).gangs = s.gangs := rfl
@[simp] theorem State.setHostByte_mem (s : State) (pa : Nat) (b : Byte) : (s.setHostByte pa b).mem = s.mem := rfl
@[simp] theorem State.setHostByte_ws (s : State) (pa : Nat) (b : Byte) : (s.setHostByte pa b).ws = s.ws := rfl
@[simp] theorem State.setHostByte_poison (s : State) (pa : Nat) (b : Byte) : (s.setHostByte pa b).poison = s.poison := rfl
@[simp] theorem State.setHostByte_wsPoison (s : State) (pa : Nat) (b : Byte) : (s.setHostByte pa b).wsPoison = s.wsPoison := rfl
@[simp] theorem State.setHostByte_links (s : State) (pa : Nat) (b : Byte) : (s.setHostByte pa b).links = s.links := rfl
@[simp] theorem State.setHostByte_ticket (s : State) (pa : Nat) (b : Byte) : (s.setHostByte pa b).ticket = s.ticket := rfl
@[simp] theorem State.setHostByte_tlb (s : State) (pa : Nat) (b : Byte) : (s.setHostByte pa b).tlb = s.tlb := rfl
@[simp] theorem State.setHostByte_permits (s : State) (pa : Nat) (b : Byte) : (s.setHostByte pa b).permits = s.permits := rfl
@[simp] theorem State.setHostByte_keys (s : State) (pa : Nat) (b : Byte) : (s.setHostByte pa b).keys = s.keys := rfl
@[simp] theorem State.setHostByte_tick (s : State) (pa : Nat) (b : Byte) : (s.setHostByte pa b).tick = s.tick := rfl
@[simp] theorem State.setHostByte_mgmt (s : State) (pa : Nat) (b : Byte) : (s.setHostByte pa b).mgmt = s.mgmt := rfl
@[simp] theorem State.setHostByte_islands (s : State) (pa : Nat) (b : Byte) : (s.setHostByte pa b).islands = s.islands := rfl
@[simp] theorem State.setHostByte_units (s : State) (pa : Nat) (b : Byte) : (s.setHostByte pa b).units = s.units := rfl
@[simp] theorem State.setHostByte_dies (s : State) (pa : Nat) (b : Byte) : (s.setHostByte pa b).dies = s.dies := rfl
@[simp] theorem State.setHostByte_queues (s : State) (pa : Nat) (b : Byte) : (s.setHostByte pa b).queues = s.queues := rfl
@[simp] theorem State.setHostByte_routes (s : State) (pa : Nat) (b : Byte) : (s.setHostByte pa b).routes = s.routes := rfl
@[simp] theorem State.setHostByte_linksUp (s : State) (pa : Nat) (b : Byte) : (s.setHostByte pa b).linksUp = s.linksUp := rfl
@[simp] theorem State.setHostByte_served (s : State) (pa : Nat) (b : Byte) : (s.setHostByte pa b).served = s.served := rfl
@[simp] theorem State.setHostByte_nextGang (s : State) (pa : Nat) (b : Byte) : (s.setHostByte pa b).nextGang = s.nextGang := rfl
@[simp] theorem State.setHostByte_outCount (s : State) (pa : Nat) (b : Byte) : (s.setHostByte pa b).outCount = s.outCount := rfl
@[simp] theorem State.setHostByte_regionNo (s : State) (pa : Nat) (b : Byte) : (s.setHostByte pa b).regionNo = s.regionNo := rfl
@[simp] theorem State.setHostByte_lastBusy (s : State) (pa : Nat) (b : Byte) : (s.setHostByte pa b).lastBusy = s.lastBusy := rfl
@[simp] theorem State.setHostByte_turn (s : State) (pa : Nat) (b : Byte) : (s.setHostByte pa b).turn = s.turn := rfl
@[simp] theorem State.setHostByte_hostRead (s : State) (pa : Nat) (b : Byte) : (s.setHostByte pa b).hostRead = s.hostRead := rfl
@[simp] theorem State.setHostByte_agenda (s : State) (pa : Nat) (b : Byte) : (s.setHostByte pa b).agenda = s.agenda := rfl
@[simp] theorem State.setHostByte_fresh (s : State) (pa : Nat) (b : Byte) : (s.setHostByte pa b).fresh = s.fresh := rfl

/-! ### State.setWsByte -/

@[simp] theorem State.setWsByte_cur (s : State) (pa : Nat) (b : Byte) : (s.setWsByte pa b).cur = s.cur := rfl
@[simp] theorem State.setWsByte_others (s : State) (pa : Nat) (b : Byte) : (s.setWsByte pa b).others = s.others := rfl
@[simp] theorem State.setWsByte_gangs (s : State) (pa : Nat) (b : Byte) : (s.setWsByte pa b).gangs = s.gangs := rfl
@[simp] theorem State.setWsByte_mem (s : State) (pa : Nat) (b : Byte) : (s.setWsByte pa b).mem = s.mem := rfl
@[simp] theorem State.setWsByte_hostMem (s : State) (pa : Nat) (b : Byte) : (s.setWsByte pa b).hostMem = s.hostMem := rfl
@[simp] theorem State.setWsByte_poison (s : State) (pa : Nat) (b : Byte) : (s.setWsByte pa b).poison = s.poison := rfl
@[simp] theorem State.setWsByte_wsPoison (s : State) (pa : Nat) (b : Byte) : (s.setWsByte pa b).wsPoison = s.wsPoison := rfl
@[simp] theorem State.setWsByte_links (s : State) (pa : Nat) (b : Byte) : (s.setWsByte pa b).links = s.links := rfl
@[simp] theorem State.setWsByte_ticket (s : State) (pa : Nat) (b : Byte) : (s.setWsByte pa b).ticket = s.ticket := rfl
@[simp] theorem State.setWsByte_tlb (s : State) (pa : Nat) (b : Byte) : (s.setWsByte pa b).tlb = s.tlb := rfl
@[simp] theorem State.setWsByte_permits (s : State) (pa : Nat) (b : Byte) : (s.setWsByte pa b).permits = s.permits := rfl
@[simp] theorem State.setWsByte_keys (s : State) (pa : Nat) (b : Byte) : (s.setWsByte pa b).keys = s.keys := rfl
@[simp] theorem State.setWsByte_tick (s : State) (pa : Nat) (b : Byte) : (s.setWsByte pa b).tick = s.tick := rfl
@[simp] theorem State.setWsByte_mgmt (s : State) (pa : Nat) (b : Byte) : (s.setWsByte pa b).mgmt = s.mgmt := rfl
@[simp] theorem State.setWsByte_islands (s : State) (pa : Nat) (b : Byte) : (s.setWsByte pa b).islands = s.islands := rfl
@[simp] theorem State.setWsByte_units (s : State) (pa : Nat) (b : Byte) : (s.setWsByte pa b).units = s.units := rfl
@[simp] theorem State.setWsByte_dies (s : State) (pa : Nat) (b : Byte) : (s.setWsByte pa b).dies = s.dies := rfl
@[simp] theorem State.setWsByte_queues (s : State) (pa : Nat) (b : Byte) : (s.setWsByte pa b).queues = s.queues := rfl
@[simp] theorem State.setWsByte_routes (s : State) (pa : Nat) (b : Byte) : (s.setWsByte pa b).routes = s.routes := rfl
@[simp] theorem State.setWsByte_linksUp (s : State) (pa : Nat) (b : Byte) : (s.setWsByte pa b).linksUp = s.linksUp := rfl
@[simp] theorem State.setWsByte_served (s : State) (pa : Nat) (b : Byte) : (s.setWsByte pa b).served = s.served := rfl
@[simp] theorem State.setWsByte_nextGang (s : State) (pa : Nat) (b : Byte) : (s.setWsByte pa b).nextGang = s.nextGang := rfl
@[simp] theorem State.setWsByte_outCount (s : State) (pa : Nat) (b : Byte) : (s.setWsByte pa b).outCount = s.outCount := rfl
@[simp] theorem State.setWsByte_regionNo (s : State) (pa : Nat) (b : Byte) : (s.setWsByte pa b).regionNo = s.regionNo := rfl
@[simp] theorem State.setWsByte_lastBusy (s : State) (pa : Nat) (b : Byte) : (s.setWsByte pa b).lastBusy = s.lastBusy := rfl
@[simp] theorem State.setWsByte_turn (s : State) (pa : Nat) (b : Byte) : (s.setWsByte pa b).turn = s.turn := rfl
@[simp] theorem State.setWsByte_hostRead (s : State) (pa : Nat) (b : Byte) : (s.setWsByte pa b).hostRead = s.hostRead := rfl
@[simp] theorem State.setWsByte_agenda (s : State) (pa : Nat) (b : Byte) : (s.setWsByte pa b).agenda = s.agenda := rfl
@[simp] theorem State.setWsByte_fresh (s : State) (pa : Nat) (b : Byte) : (s.setWsByte pa b).fresh = s.fresh := rfl

/-! ### State.setTag -/

@[simp] theorem State.setTag_cur (s : State) (l : Nat) (t : Option LinkTag) : (s.setTag l t).cur = s.cur := rfl
@[simp] theorem State.setTag_others (s : State) (l : Nat) (t : Option LinkTag) : (s.setTag l t).others = s.others := rfl
@[simp] theorem State.setTag_gangs (s : State) (l : Nat) (t : Option LinkTag) : (s.setTag l t).gangs = s.gangs := rfl
@[simp] theorem State.setTag_mem (s : State) (l : Nat) (t : Option LinkTag) : (s.setTag l t).mem = s.mem := rfl
@[simp] theorem State.setTag_hostMem (s : State) (l : Nat) (t : Option LinkTag) : (s.setTag l t).hostMem = s.hostMem := rfl
@[simp] theorem State.setTag_ws (s : State) (l : Nat) (t : Option LinkTag) : (s.setTag l t).ws = s.ws := rfl
@[simp] theorem State.setTag_poison (s : State) (l : Nat) (t : Option LinkTag) : (s.setTag l t).poison = s.poison := rfl
@[simp] theorem State.setTag_wsPoison (s : State) (l : Nat) (t : Option LinkTag) : (s.setTag l t).wsPoison = s.wsPoison := rfl
@[simp] theorem State.setTag_ticket (s : State) (l : Nat) (t : Option LinkTag) : (s.setTag l t).ticket = s.ticket := rfl
@[simp] theorem State.setTag_tlb (s : State) (l : Nat) (t : Option LinkTag) : (s.setTag l t).tlb = s.tlb := rfl
@[simp] theorem State.setTag_permits (s : State) (l : Nat) (t : Option LinkTag) : (s.setTag l t).permits = s.permits := rfl
@[simp] theorem State.setTag_keys (s : State) (l : Nat) (t : Option LinkTag) : (s.setTag l t).keys = s.keys := rfl
@[simp] theorem State.setTag_tick (s : State) (l : Nat) (t : Option LinkTag) : (s.setTag l t).tick = s.tick := rfl
@[simp] theorem State.setTag_mgmt (s : State) (l : Nat) (t : Option LinkTag) : (s.setTag l t).mgmt = s.mgmt := rfl
@[simp] theorem State.setTag_islands (s : State) (l : Nat) (t : Option LinkTag) : (s.setTag l t).islands = s.islands := rfl
@[simp] theorem State.setTag_units (s : State) (l : Nat) (t : Option LinkTag) : (s.setTag l t).units = s.units := rfl
@[simp] theorem State.setTag_dies (s : State) (l : Nat) (t : Option LinkTag) : (s.setTag l t).dies = s.dies := rfl
@[simp] theorem State.setTag_queues (s : State) (l : Nat) (t : Option LinkTag) : (s.setTag l t).queues = s.queues := rfl
@[simp] theorem State.setTag_routes (s : State) (l : Nat) (t : Option LinkTag) : (s.setTag l t).routes = s.routes := rfl
@[simp] theorem State.setTag_linksUp (s : State) (l : Nat) (t : Option LinkTag) : (s.setTag l t).linksUp = s.linksUp := rfl
@[simp] theorem State.setTag_served (s : State) (l : Nat) (t : Option LinkTag) : (s.setTag l t).served = s.served := rfl
@[simp] theorem State.setTag_nextGang (s : State) (l : Nat) (t : Option LinkTag) : (s.setTag l t).nextGang = s.nextGang := rfl
@[simp] theorem State.setTag_outCount (s : State) (l : Nat) (t : Option LinkTag) : (s.setTag l t).outCount = s.outCount := rfl
@[simp] theorem State.setTag_regionNo (s : State) (l : Nat) (t : Option LinkTag) : (s.setTag l t).regionNo = s.regionNo := rfl
@[simp] theorem State.setTag_lastBusy (s : State) (l : Nat) (t : Option LinkTag) : (s.setTag l t).lastBusy = s.lastBusy := rfl
@[simp] theorem State.setTag_turn (s : State) (l : Nat) (t : Option LinkTag) : (s.setTag l t).turn = s.turn := rfl
@[simp] theorem State.setTag_hostRead (s : State) (l : Nat) (t : Option LinkTag) : (s.setTag l t).hostRead = s.hostRead := rfl
@[simp] theorem State.setTag_agenda (s : State) (l : Nat) (t : Option LinkTag) : (s.setTag l t).agenda = s.agenda := rfl
@[simp] theorem State.setTag_fresh (s : State) (l : Nat) (t : Option LinkTag) : (s.setTag l t).fresh = s.fresh := rfl

/-! ### Strand.advance -/

@[simp] theorem Strand.advance_phase (st : Strand) : st.advance.phase = st.phase := rfl
@[simp] theorem Strand.advance_g (st : Strand) : st.advance.g = st.g := rfl
@[simp] theorem Strand.advance_pc (st : Strand) : st.advance.pc = st.pc + 4 := rfl
@[simp] theorem Strand.advance_sup (st : Strand) : st.advance.sup = st.sup := rfl
@[simp] theorem Strand.advance_v (st : Strand) : st.advance.v = st.v := rfl
@[simp] theorem Strand.advance_m (st : Strand) : st.advance.m = st.m := rfl
@[simp] theorem Strand.advance_t (st : Strand) : st.advance.t = st.t := rfl
@[simp] theorem Strand.advance_k (st : Strand) : st.advance.k = st.k := rfl
@[simp] theorem Strand.advance_cx (st : Strand) : st.advance.cx = st.cx := rfl
@[simp] theorem Strand.advance_cb (st : Strand) : st.advance.cb = st.cb := rfl
@[simp] theorem Strand.advance_slalom (st : Strand) : st.advance.slalom = st.slalom := rfl
@[simp] theorem Strand.advance_shadow (st : Strand) : st.advance.shadow = st.shadow := rfl
@[simp] theorem Strand.advance_window (st : Strand) : st.advance.window = st.window := rfl
@[simp] theorem Strand.advance_vl (st : Strand) : st.advance.vl = st.vl := rfl
@[simp] theorem Strand.advance_rl (st : Strand) : st.advance.rl = st.rl := rfl
@[simp] theorem Strand.advance_vtype (st : Strand) : st.advance.vtype = st.vtype := rfl
@[simp] theorem Strand.advance_gvlen (st : Strand) : st.advance.gvlen = st.gvlen := rfl
@[simp] theorem Strand.advance_grsz (st : Strand) : st.advance.grsz = st.grsz := rfl
@[simp] theorem Strand.advance_frm (st : Strand) : st.advance.frm = st.frm := rfl
@[simp] theorem Strand.advance_fflags (st : Strand) : st.advance.fflags = st.fflags := rfl
@[simp] theorem Strand.advance_repro (st : Strand) : st.advance.repro = st.repro := rfl
@[simp] theorem Strand.advance_mvl (st : Strand) : st.advance.mvl = st.mvl := rfl
@[simp] theorem Strand.advance_tetype (st : Strand) : st.advance.tetype = st.tetype := rfl
@[simp] theorem Strand.advance_tilesOn (st : Strand) : st.advance.tilesOn = st.tilesOn := rfl
@[simp] theorem Strand.advance_tilesAllow (st : Strand) : st.advance.tilesAllow = st.tilesAllow := rfl
@[simp] theorem Strand.advance_srseed (st : Strand) : st.advance.srseed = st.srseed := rfl
@[simp] theorem Strand.advance_id (st : Strand) : st.advance.id = st.id := rfl
@[simp] theorem Strand.advance_gang (st : Strand) : st.advance.gang = st.gang := rfl
@[simp] theorem Strand.advance_gangSize (st : Strand) : st.advance.gangSize = st.gangSize := rfl
@[simp] theorem Strand.advance_core (st : Strand) : st.advance.core = st.core := rfl
@[simp] theorem Strand.advance_pkg (st : Strand) : st.advance.pkg = st.pkg := rfl
@[simp] theorem Strand.advance_cycle (st : Strand) : st.advance.cycle = st.cycle := rfl
@[simp] theorem Strand.advance_uivec (st : Strand) : st.advance.uivec = st.uivec := rfl
@[simp] theorem Strand.advance_uicause (st : Strand) : st.advance.uicause = st.uicause := rfl
@[simp] theorem Strand.advance_uiepc (st : Strand) : st.advance.uiepc = st.uiepc := rfl
@[simp] theorem Strand.advance_uiIn (st : Strand) : st.advance.uiIn = st.uiIn := rfl
@[simp] theorem Strand.advance_enDone (st : Strand) : st.advance.enDone = st.enDone := rfl
@[simp] theorem Strand.advance_enFault (st : Strand) : st.advance.enFault = st.enFault := rfl
@[simp] theorem Strand.advance_enTrapu (st : Strand) : st.advance.enTrapu = st.enTrapu := rfl
@[simp] theorem Strand.advance_pDone (st : Strand) : st.advance.pDone = st.pDone := rfl
@[simp] theorem Strand.advance_pFault (st : Strand) : st.advance.pFault = st.pFault := rfl
@[simp] theorem Strand.advance_cxldr (st : Strand) : st.advance.cxldr = st.cxldr := rfl
@[simp] theorem Strand.advance_tvec (st : Strand) : st.advance.tvec = st.tvec := rfl
@[simp] theorem Strand.advance_tcause (st : Strand) : st.advance.tcause = st.tcause := rfl
@[simp] theorem Strand.advance_tepc (st : Strand) : st.advance.tepc = st.tepc := rfl
@[simp] theorem Strand.advance_tval (st : Strand) : st.advance.tval = st.tval := rfl
@[simp] theorem Strand.advance_telem (st : Strand) : st.advance.telem = st.telem := rfl
@[simp] theorem Strand.advance_twin (st : Strand) : st.advance.twin = st.twin := rfl
@[simp] theorem Strand.advance_ptroot (st : Strand) : st.advance.ptroot = st.ptroot := rfl
@[simp] theorem Strand.advance_asid (st : Strand) : st.advance.asid = st.asid := rfl
@[simp] theorem Strand.advance_wdog (st : Strand) : st.advance.wdog = st.wdog := rfl
@[simp] theorem Strand.advance_estep (st : Strand) : st.advance.estep = st.estep := rfl
@[simp] theorem Strand.advance_grantNext (st : Strand) : st.advance.grantNext = st.grantNext := rfl
@[simp] theorem Strand.advance_grantPend (st : Strand) : st.advance.grantPend = st.grantPend := rfl
@[simp] theorem Strand.advance_wcount (st : Strand) : st.advance.wcount = 0 := rfl
@[simp] theorem Strand.advance_event (st : Strand) : st.advance.event = st.event := rfl
@[simp] theorem Strand.advance_linkGen (st : Strand) : st.advance.linkGen = st.linkGen := rfl
@[simp] theorem Strand.advance_usn (st : Strand) : st.advance.usn = st.usn := rfl
@[simp] theorem Strand.advance_updq (st : Strand) : st.advance.updq = st.updq := rfl
@[simp] theorem Strand.advance_copies (st : Strand) : st.advance.copies = st.copies := rfl
@[simp] theorem Strand.advance_copySeq (st : Strand) : st.advance.copySeq = st.copySeq := rfl
@[simp] theorem Strand.advance_balance (st : Strand) : st.advance.balance = st.balance := rfl
@[simp] theorem Strand.advance_slot (st : Strand) : st.advance.slot = st.slot := rfl
@[simp] theorem Strand.advance_group (st : Strand) : st.advance.group = st.group := rfl
@[simp] theorem Strand.advance_core0 (st : Strand) : st.advance.core0 = st.core0 := rfl
@[simp] theorem Strand.advance_arrived (st : Strand) : st.advance.arrived = st.arrived := rfl
@[simp] theorem Strand.advance_stepping (st : Strand) : st.advance.stepping = st.stepping := rfl
@[simp] theorem Strand.advance_stepDone (st : Strand) : st.advance.stepDone = st.stepDone := rfl
@[simp] theorem Strand.advance_stalled (st : Strand) : st.advance.stalled = st.stalled := rfl
@[simp] theorem Strand.advance_quiet (st : Strand) : st.advance.quiet = false := rfl
@[simp] theorem Strand.advance_ahead (st : Strand) : st.advance.ahead = st.ahead := rfl
@[simp] theorem Strand.advance_strip (st : Strand) : st.advance.strip = st.strip := rfl
@[simp] theorem Strand.advance_stop (st : Strand) : st.advance.stop = st.stop := rfl
@[simp] theorem Strand.advance_dying (st : Strand) : st.advance.dying = st.dying := rfl
@[simp] theorem Strand.advance_leaving (st : Strand) : st.advance.leaving = st.leaving := rfl
@[simp] theorem Strand.advance_aside (st : Strand) : st.advance.aside = st.aside := rfl
@[simp] theorem Strand.advance_away (st : Strand) : st.advance.away = st.away := rfl
@[simp] theorem Strand.advance_kept (st : Strand) : st.advance.kept = st.kept := rfl
@[simp] theorem Strand.advance_late (st : Strand) : st.advance.late = st.late := rfl
@[simp] theorem Strand.advance_slow (st : Strand) : st.advance.slow = st.slow := rfl

/-! ### Strand.wg -/

@[simp] theorem Strand.wg_phase (st : Strand) (x : BitVec 5) (w : Word) : (st.wg x w).phase = st.phase := by unfold Strand.wg; split <;> rfl
@[simp] theorem Strand.wg_pc (st : Strand) (x : BitVec 5) (w : Word) : (st.wg x w).pc = st.pc := by unfold Strand.wg; split <;> rfl
@[simp] theorem Strand.wg_sup (st : Strand) (x : BitVec 5) (w : Word) : (st.wg x w).sup = st.sup := by unfold Strand.wg; split <;> rfl
@[simp] theorem Strand.wg_v (st : Strand) (x : BitVec 5) (w : Word) : (st.wg x w).v = st.v := by unfold Strand.wg; split <;> rfl
@[simp] theorem Strand.wg_m (st : Strand) (x : BitVec 5) (w : Word) : (st.wg x w).m = st.m := by unfold Strand.wg; split <;> rfl
@[simp] theorem Strand.wg_t (st : Strand) (x : BitVec 5) (w : Word) : (st.wg x w).t = st.t := by unfold Strand.wg; split <;> rfl
@[simp] theorem Strand.wg_k (st : Strand) (x : BitVec 5) (w : Word) : (st.wg x w).k = st.k := by unfold Strand.wg; split <;> rfl
@[simp] theorem Strand.wg_cx (st : Strand) (x : BitVec 5) (w : Word) : (st.wg x w).cx = st.cx := by unfold Strand.wg; split <;> rfl
@[simp] theorem Strand.wg_cb (st : Strand) (x : BitVec 5) (w : Word) : (st.wg x w).cb = st.cb := by unfold Strand.wg; split <;> rfl
@[simp] theorem Strand.wg_slalom (st : Strand) (x : BitVec 5) (w : Word) : (st.wg x w).slalom = st.slalom := by unfold Strand.wg; split <;> rfl
@[simp] theorem Strand.wg_shadow (st : Strand) (x : BitVec 5) (w : Word) : (st.wg x w).shadow = st.shadow := by unfold Strand.wg; split <;> rfl
@[simp] theorem Strand.wg_window (st : Strand) (x : BitVec 5) (w : Word) : (st.wg x w).window = st.window := by unfold Strand.wg; split <;> rfl
@[simp] theorem Strand.wg_vl (st : Strand) (x : BitVec 5) (w : Word) : (st.wg x w).vl = st.vl := by unfold Strand.wg; split <;> rfl
@[simp] theorem Strand.wg_rl (st : Strand) (x : BitVec 5) (w : Word) : (st.wg x w).rl = st.rl := by unfold Strand.wg; split <;> rfl
@[simp] theorem Strand.wg_vtype (st : Strand) (x : BitVec 5) (w : Word) : (st.wg x w).vtype = st.vtype := by unfold Strand.wg; split <;> rfl
@[simp] theorem Strand.wg_gvlen (st : Strand) (x : BitVec 5) (w : Word) : (st.wg x w).gvlen = st.gvlen := by unfold Strand.wg; split <;> rfl
@[simp] theorem Strand.wg_grsz (st : Strand) (x : BitVec 5) (w : Word) : (st.wg x w).grsz = st.grsz := by unfold Strand.wg; split <;> rfl
@[simp] theorem Strand.wg_frm (st : Strand) (x : BitVec 5) (w : Word) : (st.wg x w).frm = st.frm := by unfold Strand.wg; split <;> rfl
@[simp] theorem Strand.wg_fflags (st : Strand) (x : BitVec 5) (w : Word) : (st.wg x w).fflags = st.fflags := by unfold Strand.wg; split <;> rfl
@[simp] theorem Strand.wg_repro (st : Strand) (x : BitVec 5) (w : Word) : (st.wg x w).repro = st.repro := by unfold Strand.wg; split <;> rfl
@[simp] theorem Strand.wg_mvl (st : Strand) (x : BitVec 5) (w : Word) : (st.wg x w).mvl = st.mvl := by unfold Strand.wg; split <;> rfl
@[simp] theorem Strand.wg_tetype (st : Strand) (x : BitVec 5) (w : Word) : (st.wg x w).tetype = st.tetype := by unfold Strand.wg; split <;> rfl
@[simp] theorem Strand.wg_tilesOn (st : Strand) (x : BitVec 5) (w : Word) : (st.wg x w).tilesOn = st.tilesOn := by unfold Strand.wg; split <;> rfl
@[simp] theorem Strand.wg_tilesAllow (st : Strand) (x : BitVec 5) (w : Word) : (st.wg x w).tilesAllow = st.tilesAllow := by unfold Strand.wg; split <;> rfl
@[simp] theorem Strand.wg_srseed (st : Strand) (x : BitVec 5) (w : Word) : (st.wg x w).srseed = st.srseed := by unfold Strand.wg; split <;> rfl
@[simp] theorem Strand.wg_id (st : Strand) (x : BitVec 5) (w : Word) : (st.wg x w).id = st.id := by unfold Strand.wg; split <;> rfl
@[simp] theorem Strand.wg_gang (st : Strand) (x : BitVec 5) (w : Word) : (st.wg x w).gang = st.gang := by unfold Strand.wg; split <;> rfl
@[simp] theorem Strand.wg_gangSize (st : Strand) (x : BitVec 5) (w : Word) : (st.wg x w).gangSize = st.gangSize := by unfold Strand.wg; split <;> rfl
@[simp] theorem Strand.wg_core (st : Strand) (x : BitVec 5) (w : Word) : (st.wg x w).core = st.core := by unfold Strand.wg; split <;> rfl
@[simp] theorem Strand.wg_pkg (st : Strand) (x : BitVec 5) (w : Word) : (st.wg x w).pkg = st.pkg := by unfold Strand.wg; split <;> rfl
@[simp] theorem Strand.wg_cycle (st : Strand) (x : BitVec 5) (w : Word) : (st.wg x w).cycle = st.cycle := by unfold Strand.wg; split <;> rfl
@[simp] theorem Strand.wg_uivec (st : Strand) (x : BitVec 5) (w : Word) : (st.wg x w).uivec = st.uivec := by unfold Strand.wg; split <;> rfl
@[simp] theorem Strand.wg_uicause (st : Strand) (x : BitVec 5) (w : Word) : (st.wg x w).uicause = st.uicause := by unfold Strand.wg; split <;> rfl
@[simp] theorem Strand.wg_uiepc (st : Strand) (x : BitVec 5) (w : Word) : (st.wg x w).uiepc = st.uiepc := by unfold Strand.wg; split <;> rfl
@[simp] theorem Strand.wg_uiIn (st : Strand) (x : BitVec 5) (w : Word) : (st.wg x w).uiIn = st.uiIn := by unfold Strand.wg; split <;> rfl
@[simp] theorem Strand.wg_enDone (st : Strand) (x : BitVec 5) (w : Word) : (st.wg x w).enDone = st.enDone := by unfold Strand.wg; split <;> rfl
@[simp] theorem Strand.wg_enFault (st : Strand) (x : BitVec 5) (w : Word) : (st.wg x w).enFault = st.enFault := by unfold Strand.wg; split <;> rfl
@[simp] theorem Strand.wg_enTrapu (st : Strand) (x : BitVec 5) (w : Word) : (st.wg x w).enTrapu = st.enTrapu := by unfold Strand.wg; split <;> rfl
@[simp] theorem Strand.wg_pDone (st : Strand) (x : BitVec 5) (w : Word) : (st.wg x w).pDone = st.pDone := by unfold Strand.wg; split <;> rfl
@[simp] theorem Strand.wg_pFault (st : Strand) (x : BitVec 5) (w : Word) : (st.wg x w).pFault = st.pFault := by unfold Strand.wg; split <;> rfl
@[simp] theorem Strand.wg_cxldr (st : Strand) (x : BitVec 5) (w : Word) : (st.wg x w).cxldr = st.cxldr := by unfold Strand.wg; split <;> rfl
@[simp] theorem Strand.wg_tvec (st : Strand) (x : BitVec 5) (w : Word) : (st.wg x w).tvec = st.tvec := by unfold Strand.wg; split <;> rfl
@[simp] theorem Strand.wg_tcause (st : Strand) (x : BitVec 5) (w : Word) : (st.wg x w).tcause = st.tcause := by unfold Strand.wg; split <;> rfl
@[simp] theorem Strand.wg_tepc (st : Strand) (x : BitVec 5) (w : Word) : (st.wg x w).tepc = st.tepc := by unfold Strand.wg; split <;> rfl
@[simp] theorem Strand.wg_tval (st : Strand) (x : BitVec 5) (w : Word) : (st.wg x w).tval = st.tval := by unfold Strand.wg; split <;> rfl
@[simp] theorem Strand.wg_telem (st : Strand) (x : BitVec 5) (w : Word) : (st.wg x w).telem = st.telem := by unfold Strand.wg; split <;> rfl
@[simp] theorem Strand.wg_twin (st : Strand) (x : BitVec 5) (w : Word) : (st.wg x w).twin = st.twin := by unfold Strand.wg; split <;> rfl
@[simp] theorem Strand.wg_ptroot (st : Strand) (x : BitVec 5) (w : Word) : (st.wg x w).ptroot = st.ptroot := by unfold Strand.wg; split <;> rfl
@[simp] theorem Strand.wg_asid (st : Strand) (x : BitVec 5) (w : Word) : (st.wg x w).asid = st.asid := by unfold Strand.wg; split <;> rfl
@[simp] theorem Strand.wg_wdog (st : Strand) (x : BitVec 5) (w : Word) : (st.wg x w).wdog = st.wdog := by unfold Strand.wg; split <;> rfl
@[simp] theorem Strand.wg_estep (st : Strand) (x : BitVec 5) (w : Word) : (st.wg x w).estep = st.estep := by unfold Strand.wg; split <;> rfl
@[simp] theorem Strand.wg_grantNext (st : Strand) (x : BitVec 5) (w : Word) : (st.wg x w).grantNext = st.grantNext := by unfold Strand.wg; split <;> rfl
@[simp] theorem Strand.wg_grantPend (st : Strand) (x : BitVec 5) (w : Word) : (st.wg x w).grantPend = st.grantPend := by unfold Strand.wg; split <;> rfl
@[simp] theorem Strand.wg_wcount (st : Strand) (x : BitVec 5) (w : Word) : (st.wg x w).wcount = st.wcount := by unfold Strand.wg; split <;> rfl
@[simp] theorem Strand.wg_event (st : Strand) (x : BitVec 5) (w : Word) : (st.wg x w).event = st.event := by unfold Strand.wg; split <;> rfl
@[simp] theorem Strand.wg_linkGen (st : Strand) (x : BitVec 5) (w : Word) : (st.wg x w).linkGen = st.linkGen := by unfold Strand.wg; split <;> rfl
@[simp] theorem Strand.wg_usn (st : Strand) (x : BitVec 5) (w : Word) : (st.wg x w).usn = st.usn := by unfold Strand.wg; split <;> rfl
@[simp] theorem Strand.wg_updq (st : Strand) (x : BitVec 5) (w : Word) : (st.wg x w).updq = st.updq := by unfold Strand.wg; split <;> rfl
@[simp] theorem Strand.wg_copies (st : Strand) (x : BitVec 5) (w : Word) : (st.wg x w).copies = st.copies := by unfold Strand.wg; split <;> rfl
@[simp] theorem Strand.wg_copySeq (st : Strand) (x : BitVec 5) (w : Word) : (st.wg x w).copySeq = st.copySeq := by unfold Strand.wg; split <;> rfl
@[simp] theorem Strand.wg_balance (st : Strand) (x : BitVec 5) (w : Word) : (st.wg x w).balance = st.balance := by unfold Strand.wg; split <;> rfl
@[simp] theorem Strand.wg_slot (st : Strand) (x : BitVec 5) (w : Word) : (st.wg x w).slot = st.slot := by unfold Strand.wg; split <;> rfl
@[simp] theorem Strand.wg_group (st : Strand) (x : BitVec 5) (w : Word) : (st.wg x w).group = st.group := by unfold Strand.wg; split <;> rfl
@[simp] theorem Strand.wg_core0 (st : Strand) (x : BitVec 5) (w : Word) : (st.wg x w).core0 = st.core0 := by unfold Strand.wg; split <;> rfl
@[simp] theorem Strand.wg_arrived (st : Strand) (x : BitVec 5) (w : Word) : (st.wg x w).arrived = st.arrived := by unfold Strand.wg; split <;> rfl
@[simp] theorem Strand.wg_stepping (st : Strand) (x : BitVec 5) (w : Word) : (st.wg x w).stepping = st.stepping := by unfold Strand.wg; split <;> rfl
@[simp] theorem Strand.wg_stepDone (st : Strand) (x : BitVec 5) (w : Word) : (st.wg x w).stepDone = st.stepDone := by unfold Strand.wg; split <;> rfl
@[simp] theorem Strand.wg_stalled (st : Strand) (x : BitVec 5) (w : Word) : (st.wg x w).stalled = st.stalled := by unfold Strand.wg; split <;> rfl
@[simp] theorem Strand.wg_quiet (st : Strand) (x : BitVec 5) (w : Word) : (st.wg x w).quiet = st.quiet := by unfold Strand.wg; split <;> rfl
@[simp] theorem Strand.wg_ahead (st : Strand) (x : BitVec 5) (w : Word) : (st.wg x w).ahead = st.ahead := by unfold Strand.wg; split <;> rfl
@[simp] theorem Strand.wg_strip (st : Strand) (x : BitVec 5) (w : Word) : (st.wg x w).strip = st.strip := by unfold Strand.wg; split <;> rfl
@[simp] theorem Strand.wg_stop (st : Strand) (x : BitVec 5) (w : Word) : (st.wg x w).stop = st.stop := by unfold Strand.wg; split <;> rfl
@[simp] theorem Strand.wg_dying (st : Strand) (x : BitVec 5) (w : Word) : (st.wg x w).dying = st.dying := by unfold Strand.wg; split <;> rfl
@[simp] theorem Strand.wg_leaving (st : Strand) (x : BitVec 5) (w : Word) : (st.wg x w).leaving = st.leaving := by unfold Strand.wg; split <;> rfl
@[simp] theorem Strand.wg_aside (st : Strand) (x : BitVec 5) (w : Word) : (st.wg x w).aside = st.aside := by unfold Strand.wg; split <;> rfl
@[simp] theorem Strand.wg_away (st : Strand) (x : BitVec 5) (w : Word) : (st.wg x w).away = st.away := by unfold Strand.wg; split <;> rfl
@[simp] theorem Strand.wg_kept (st : Strand) (x : BitVec 5) (w : Word) : (st.wg x w).kept = st.kept := by unfold Strand.wg; split <;> rfl
@[simp] theorem Strand.wg_late (st : Strand) (x : BitVec 5) (w : Word) : (st.wg x w).late = st.late := by unfold Strand.wg; split <;> rfl
@[simp] theorem Strand.wg_slow (st : Strand) (x : BitVec 5) (w : Word) : (st.wg x w).slow = st.slow := by unfold Strand.wg; split <;> rfl

/-! ### Strand.setVbits -/

@[simp] theorem Strand.setVbits_phase (st : Strand) (r : BitVec 5) (x : Nat) : (st.setVbits r x).phase = st.phase := rfl
@[simp] theorem Strand.setVbits_g (st : Strand) (r : BitVec 5) (x : Nat) : (st.setVbits r x).g = st.g := rfl
@[simp] theorem Strand.setVbits_pc (st : Strand) (r : BitVec 5) (x : Nat) : (st.setVbits r x).pc = st.pc := rfl
@[simp] theorem Strand.setVbits_sup (st : Strand) (r : BitVec 5) (x : Nat) : (st.setVbits r x).sup = st.sup := rfl
@[simp] theorem Strand.setVbits_m (st : Strand) (r : BitVec 5) (x : Nat) : (st.setVbits r x).m = st.m := rfl
@[simp] theorem Strand.setVbits_t (st : Strand) (r : BitVec 5) (x : Nat) : (st.setVbits r x).t = st.t := rfl
@[simp] theorem Strand.setVbits_k (st : Strand) (r : BitVec 5) (x : Nat) : (st.setVbits r x).k = st.k := rfl
@[simp] theorem Strand.setVbits_cx (st : Strand) (r : BitVec 5) (x : Nat) : (st.setVbits r x).cx = st.cx := rfl
@[simp] theorem Strand.setVbits_cb (st : Strand) (r : BitVec 5) (x : Nat) : (st.setVbits r x).cb = st.cb := rfl
@[simp] theorem Strand.setVbits_slalom (st : Strand) (r : BitVec 5) (x : Nat) : (st.setVbits r x).slalom = st.slalom := rfl
@[simp] theorem Strand.setVbits_shadow (st : Strand) (r : BitVec 5) (x : Nat) : (st.setVbits r x).shadow = st.shadow := rfl
@[simp] theorem Strand.setVbits_window (st : Strand) (r : BitVec 5) (x : Nat) : (st.setVbits r x).window = st.window := rfl
@[simp] theorem Strand.setVbits_vl (st : Strand) (r : BitVec 5) (x : Nat) : (st.setVbits r x).vl = st.vl := rfl
@[simp] theorem Strand.setVbits_rl (st : Strand) (r : BitVec 5) (x : Nat) : (st.setVbits r x).rl = st.rl := rfl
@[simp] theorem Strand.setVbits_vtype (st : Strand) (r : BitVec 5) (x : Nat) : (st.setVbits r x).vtype = st.vtype := rfl
@[simp] theorem Strand.setVbits_gvlen (st : Strand) (r : BitVec 5) (x : Nat) : (st.setVbits r x).gvlen = st.gvlen := rfl
@[simp] theorem Strand.setVbits_grsz (st : Strand) (r : BitVec 5) (x : Nat) : (st.setVbits r x).grsz = st.grsz := rfl
@[simp] theorem Strand.setVbits_frm (st : Strand) (r : BitVec 5) (x : Nat) : (st.setVbits r x).frm = st.frm := rfl
@[simp] theorem Strand.setVbits_fflags (st : Strand) (r : BitVec 5) (x : Nat) : (st.setVbits r x).fflags = st.fflags := rfl
@[simp] theorem Strand.setVbits_repro (st : Strand) (r : BitVec 5) (x : Nat) : (st.setVbits r x).repro = st.repro := rfl
@[simp] theorem Strand.setVbits_mvl (st : Strand) (r : BitVec 5) (x : Nat) : (st.setVbits r x).mvl = st.mvl := rfl
@[simp] theorem Strand.setVbits_tetype (st : Strand) (r : BitVec 5) (x : Nat) : (st.setVbits r x).tetype = st.tetype := rfl
@[simp] theorem Strand.setVbits_tilesOn (st : Strand) (r : BitVec 5) (x : Nat) : (st.setVbits r x).tilesOn = st.tilesOn := rfl
@[simp] theorem Strand.setVbits_tilesAllow (st : Strand) (r : BitVec 5) (x : Nat) : (st.setVbits r x).tilesAllow = st.tilesAllow := rfl
@[simp] theorem Strand.setVbits_srseed (st : Strand) (r : BitVec 5) (x : Nat) : (st.setVbits r x).srseed = st.srseed := rfl
@[simp] theorem Strand.setVbits_id (st : Strand) (r : BitVec 5) (x : Nat) : (st.setVbits r x).id = st.id := rfl
@[simp] theorem Strand.setVbits_gang (st : Strand) (r : BitVec 5) (x : Nat) : (st.setVbits r x).gang = st.gang := rfl
@[simp] theorem Strand.setVbits_gangSize (st : Strand) (r : BitVec 5) (x : Nat) : (st.setVbits r x).gangSize = st.gangSize := rfl
@[simp] theorem Strand.setVbits_core (st : Strand) (r : BitVec 5) (x : Nat) : (st.setVbits r x).core = st.core := rfl
@[simp] theorem Strand.setVbits_pkg (st : Strand) (r : BitVec 5) (x : Nat) : (st.setVbits r x).pkg = st.pkg := rfl
@[simp] theorem Strand.setVbits_cycle (st : Strand) (r : BitVec 5) (x : Nat) : (st.setVbits r x).cycle = st.cycle := rfl
@[simp] theorem Strand.setVbits_uivec (st : Strand) (r : BitVec 5) (x : Nat) : (st.setVbits r x).uivec = st.uivec := rfl
@[simp] theorem Strand.setVbits_uicause (st : Strand) (r : BitVec 5) (x : Nat) : (st.setVbits r x).uicause = st.uicause := rfl
@[simp] theorem Strand.setVbits_uiepc (st : Strand) (r : BitVec 5) (x : Nat) : (st.setVbits r x).uiepc = st.uiepc := rfl
@[simp] theorem Strand.setVbits_uiIn (st : Strand) (r : BitVec 5) (x : Nat) : (st.setVbits r x).uiIn = st.uiIn := rfl
@[simp] theorem Strand.setVbits_enDone (st : Strand) (r : BitVec 5) (x : Nat) : (st.setVbits r x).enDone = st.enDone := rfl
@[simp] theorem Strand.setVbits_enFault (st : Strand) (r : BitVec 5) (x : Nat) : (st.setVbits r x).enFault = st.enFault := rfl
@[simp] theorem Strand.setVbits_enTrapu (st : Strand) (r : BitVec 5) (x : Nat) : (st.setVbits r x).enTrapu = st.enTrapu := rfl
@[simp] theorem Strand.setVbits_pDone (st : Strand) (r : BitVec 5) (x : Nat) : (st.setVbits r x).pDone = st.pDone := rfl
@[simp] theorem Strand.setVbits_pFault (st : Strand) (r : BitVec 5) (x : Nat) : (st.setVbits r x).pFault = st.pFault := rfl
@[simp] theorem Strand.setVbits_cxldr (st : Strand) (r : BitVec 5) (x : Nat) : (st.setVbits r x).cxldr = st.cxldr := rfl
@[simp] theorem Strand.setVbits_tvec (st : Strand) (r : BitVec 5) (x : Nat) : (st.setVbits r x).tvec = st.tvec := rfl
@[simp] theorem Strand.setVbits_tcause (st : Strand) (r : BitVec 5) (x : Nat) : (st.setVbits r x).tcause = st.tcause := rfl
@[simp] theorem Strand.setVbits_tepc (st : Strand) (r : BitVec 5) (x : Nat) : (st.setVbits r x).tepc = st.tepc := rfl
@[simp] theorem Strand.setVbits_tval (st : Strand) (r : BitVec 5) (x : Nat) : (st.setVbits r x).tval = st.tval := rfl
@[simp] theorem Strand.setVbits_telem (st : Strand) (r : BitVec 5) (x : Nat) : (st.setVbits r x).telem = st.telem := rfl
@[simp] theorem Strand.setVbits_twin (st : Strand) (r : BitVec 5) (x : Nat) : (st.setVbits r x).twin = st.twin := rfl
@[simp] theorem Strand.setVbits_ptroot (st : Strand) (r : BitVec 5) (x : Nat) : (st.setVbits r x).ptroot = st.ptroot := rfl
@[simp] theorem Strand.setVbits_asid (st : Strand) (r : BitVec 5) (x : Nat) : (st.setVbits r x).asid = st.asid := rfl
@[simp] theorem Strand.setVbits_wdog (st : Strand) (r : BitVec 5) (x : Nat) : (st.setVbits r x).wdog = st.wdog := rfl
@[simp] theorem Strand.setVbits_estep (st : Strand) (r : BitVec 5) (x : Nat) : (st.setVbits r x).estep = st.estep := rfl
@[simp] theorem Strand.setVbits_grantNext (st : Strand) (r : BitVec 5) (x : Nat) : (st.setVbits r x).grantNext = st.grantNext := rfl
@[simp] theorem Strand.setVbits_grantPend (st : Strand) (r : BitVec 5) (x : Nat) : (st.setVbits r x).grantPend = st.grantPend := rfl
@[simp] theorem Strand.setVbits_wcount (st : Strand) (r : BitVec 5) (x : Nat) : (st.setVbits r x).wcount = st.wcount := rfl
@[simp] theorem Strand.setVbits_event (st : Strand) (r : BitVec 5) (x : Nat) : (st.setVbits r x).event = st.event := rfl
@[simp] theorem Strand.setVbits_linkGen (st : Strand) (r : BitVec 5) (x : Nat) : (st.setVbits r x).linkGen = st.linkGen := rfl
@[simp] theorem Strand.setVbits_usn (st : Strand) (r : BitVec 5) (x : Nat) : (st.setVbits r x).usn = st.usn := rfl
@[simp] theorem Strand.setVbits_updq (st : Strand) (r : BitVec 5) (x : Nat) : (st.setVbits r x).updq = st.updq := rfl
@[simp] theorem Strand.setVbits_copies (st : Strand) (r : BitVec 5) (x : Nat) : (st.setVbits r x).copies = st.copies := rfl
@[simp] theorem Strand.setVbits_copySeq (st : Strand) (r : BitVec 5) (x : Nat) : (st.setVbits r x).copySeq = st.copySeq := rfl
@[simp] theorem Strand.setVbits_balance (st : Strand) (r : BitVec 5) (x : Nat) : (st.setVbits r x).balance = st.balance := rfl
@[simp] theorem Strand.setVbits_slot (st : Strand) (r : BitVec 5) (x : Nat) : (st.setVbits r x).slot = st.slot := rfl
@[simp] theorem Strand.setVbits_group (st : Strand) (r : BitVec 5) (x : Nat) : (st.setVbits r x).group = st.group := rfl
@[simp] theorem Strand.setVbits_core0 (st : Strand) (r : BitVec 5) (x : Nat) : (st.setVbits r x).core0 = st.core0 := rfl
@[simp] theorem Strand.setVbits_arrived (st : Strand) (r : BitVec 5) (x : Nat) : (st.setVbits r x).arrived = st.arrived := rfl
@[simp] theorem Strand.setVbits_stepping (st : Strand) (r : BitVec 5) (x : Nat) : (st.setVbits r x).stepping = st.stepping := rfl
@[simp] theorem Strand.setVbits_stepDone (st : Strand) (r : BitVec 5) (x : Nat) : (st.setVbits r x).stepDone = st.stepDone := rfl
@[simp] theorem Strand.setVbits_stalled (st : Strand) (r : BitVec 5) (x : Nat) : (st.setVbits r x).stalled = st.stalled := rfl
@[simp] theorem Strand.setVbits_quiet (st : Strand) (r : BitVec 5) (x : Nat) : (st.setVbits r x).quiet = st.quiet := rfl
@[simp] theorem Strand.setVbits_ahead (st : Strand) (r : BitVec 5) (x : Nat) : (st.setVbits r x).ahead = st.ahead := rfl
@[simp] theorem Strand.setVbits_strip (st : Strand) (r : BitVec 5) (x : Nat) : (st.setVbits r x).strip = st.strip := rfl
@[simp] theorem Strand.setVbits_stop (st : Strand) (r : BitVec 5) (x : Nat) : (st.setVbits r x).stop = st.stop := rfl
@[simp] theorem Strand.setVbits_dying (st : Strand) (r : BitVec 5) (x : Nat) : (st.setVbits r x).dying = st.dying := rfl
@[simp] theorem Strand.setVbits_leaving (st : Strand) (r : BitVec 5) (x : Nat) : (st.setVbits r x).leaving = st.leaving := rfl
@[simp] theorem Strand.setVbits_aside (st : Strand) (r : BitVec 5) (x : Nat) : (st.setVbits r x).aside = st.aside := rfl
@[simp] theorem Strand.setVbits_away (st : Strand) (r : BitVec 5) (x : Nat) : (st.setVbits r x).away = st.away := rfl
@[simp] theorem Strand.setVbits_kept (st : Strand) (r : BitVec 5) (x : Nat) : (st.setVbits r x).kept = st.kept := rfl
@[simp] theorem Strand.setVbits_late (st : Strand) (r : BitVec 5) (x : Nat) : (st.setVbits r x).late = st.late := rfl
@[simp] theorem Strand.setVbits_slow (st : Strand) (r : BitVec 5) (x : Nat) : (st.setVbits r x).slow = st.slow := rfl

/-! ### Strand.setMbits -/

@[simp] theorem Strand.setMbits_phase (st : Strand) (r : BitVec 3) (x : Nat) : (st.setMbits r x).phase = st.phase := rfl
@[simp] theorem Strand.setMbits_g (st : Strand) (r : BitVec 3) (x : Nat) : (st.setMbits r x).g = st.g := rfl
@[simp] theorem Strand.setMbits_pc (st : Strand) (r : BitVec 3) (x : Nat) : (st.setMbits r x).pc = st.pc := rfl
@[simp] theorem Strand.setMbits_sup (st : Strand) (r : BitVec 3) (x : Nat) : (st.setMbits r x).sup = st.sup := rfl
@[simp] theorem Strand.setMbits_v (st : Strand) (r : BitVec 3) (x : Nat) : (st.setMbits r x).v = st.v := rfl
@[simp] theorem Strand.setMbits_t (st : Strand) (r : BitVec 3) (x : Nat) : (st.setMbits r x).t = st.t := rfl
@[simp] theorem Strand.setMbits_k (st : Strand) (r : BitVec 3) (x : Nat) : (st.setMbits r x).k = st.k := rfl
@[simp] theorem Strand.setMbits_cx (st : Strand) (r : BitVec 3) (x : Nat) : (st.setMbits r x).cx = st.cx := rfl
@[simp] theorem Strand.setMbits_cb (st : Strand) (r : BitVec 3) (x : Nat) : (st.setMbits r x).cb = st.cb := rfl
@[simp] theorem Strand.setMbits_slalom (st : Strand) (r : BitVec 3) (x : Nat) : (st.setMbits r x).slalom = st.slalom := rfl
@[simp] theorem Strand.setMbits_shadow (st : Strand) (r : BitVec 3) (x : Nat) : (st.setMbits r x).shadow = st.shadow := rfl
@[simp] theorem Strand.setMbits_window (st : Strand) (r : BitVec 3) (x : Nat) : (st.setMbits r x).window = st.window := rfl
@[simp] theorem Strand.setMbits_vl (st : Strand) (r : BitVec 3) (x : Nat) : (st.setMbits r x).vl = st.vl := rfl
@[simp] theorem Strand.setMbits_rl (st : Strand) (r : BitVec 3) (x : Nat) : (st.setMbits r x).rl = st.rl := rfl
@[simp] theorem Strand.setMbits_vtype (st : Strand) (r : BitVec 3) (x : Nat) : (st.setMbits r x).vtype = st.vtype := rfl
@[simp] theorem Strand.setMbits_gvlen (st : Strand) (r : BitVec 3) (x : Nat) : (st.setMbits r x).gvlen = st.gvlen := rfl
@[simp] theorem Strand.setMbits_grsz (st : Strand) (r : BitVec 3) (x : Nat) : (st.setMbits r x).grsz = st.grsz := rfl
@[simp] theorem Strand.setMbits_frm (st : Strand) (r : BitVec 3) (x : Nat) : (st.setMbits r x).frm = st.frm := rfl
@[simp] theorem Strand.setMbits_fflags (st : Strand) (r : BitVec 3) (x : Nat) : (st.setMbits r x).fflags = st.fflags := rfl
@[simp] theorem Strand.setMbits_repro (st : Strand) (r : BitVec 3) (x : Nat) : (st.setMbits r x).repro = st.repro := rfl
@[simp] theorem Strand.setMbits_mvl (st : Strand) (r : BitVec 3) (x : Nat) : (st.setMbits r x).mvl = st.mvl := rfl
@[simp] theorem Strand.setMbits_tetype (st : Strand) (r : BitVec 3) (x : Nat) : (st.setMbits r x).tetype = st.tetype := rfl
@[simp] theorem Strand.setMbits_tilesOn (st : Strand) (r : BitVec 3) (x : Nat) : (st.setMbits r x).tilesOn = st.tilesOn := rfl
@[simp] theorem Strand.setMbits_tilesAllow (st : Strand) (r : BitVec 3) (x : Nat) : (st.setMbits r x).tilesAllow = st.tilesAllow := rfl
@[simp] theorem Strand.setMbits_srseed (st : Strand) (r : BitVec 3) (x : Nat) : (st.setMbits r x).srseed = st.srseed := rfl
@[simp] theorem Strand.setMbits_id (st : Strand) (r : BitVec 3) (x : Nat) : (st.setMbits r x).id = st.id := rfl
@[simp] theorem Strand.setMbits_gang (st : Strand) (r : BitVec 3) (x : Nat) : (st.setMbits r x).gang = st.gang := rfl
@[simp] theorem Strand.setMbits_gangSize (st : Strand) (r : BitVec 3) (x : Nat) : (st.setMbits r x).gangSize = st.gangSize := rfl
@[simp] theorem Strand.setMbits_core (st : Strand) (r : BitVec 3) (x : Nat) : (st.setMbits r x).core = st.core := rfl
@[simp] theorem Strand.setMbits_pkg (st : Strand) (r : BitVec 3) (x : Nat) : (st.setMbits r x).pkg = st.pkg := rfl
@[simp] theorem Strand.setMbits_cycle (st : Strand) (r : BitVec 3) (x : Nat) : (st.setMbits r x).cycle = st.cycle := rfl
@[simp] theorem Strand.setMbits_uivec (st : Strand) (r : BitVec 3) (x : Nat) : (st.setMbits r x).uivec = st.uivec := rfl
@[simp] theorem Strand.setMbits_uicause (st : Strand) (r : BitVec 3) (x : Nat) : (st.setMbits r x).uicause = st.uicause := rfl
@[simp] theorem Strand.setMbits_uiepc (st : Strand) (r : BitVec 3) (x : Nat) : (st.setMbits r x).uiepc = st.uiepc := rfl
@[simp] theorem Strand.setMbits_uiIn (st : Strand) (r : BitVec 3) (x : Nat) : (st.setMbits r x).uiIn = st.uiIn := rfl
@[simp] theorem Strand.setMbits_enDone (st : Strand) (r : BitVec 3) (x : Nat) : (st.setMbits r x).enDone = st.enDone := rfl
@[simp] theorem Strand.setMbits_enFault (st : Strand) (r : BitVec 3) (x : Nat) : (st.setMbits r x).enFault = st.enFault := rfl
@[simp] theorem Strand.setMbits_enTrapu (st : Strand) (r : BitVec 3) (x : Nat) : (st.setMbits r x).enTrapu = st.enTrapu := rfl
@[simp] theorem Strand.setMbits_pDone (st : Strand) (r : BitVec 3) (x : Nat) : (st.setMbits r x).pDone = st.pDone := rfl
@[simp] theorem Strand.setMbits_pFault (st : Strand) (r : BitVec 3) (x : Nat) : (st.setMbits r x).pFault = st.pFault := rfl
@[simp] theorem Strand.setMbits_cxldr (st : Strand) (r : BitVec 3) (x : Nat) : (st.setMbits r x).cxldr = st.cxldr := rfl
@[simp] theorem Strand.setMbits_tvec (st : Strand) (r : BitVec 3) (x : Nat) : (st.setMbits r x).tvec = st.tvec := rfl
@[simp] theorem Strand.setMbits_tcause (st : Strand) (r : BitVec 3) (x : Nat) : (st.setMbits r x).tcause = st.tcause := rfl
@[simp] theorem Strand.setMbits_tepc (st : Strand) (r : BitVec 3) (x : Nat) : (st.setMbits r x).tepc = st.tepc := rfl
@[simp] theorem Strand.setMbits_tval (st : Strand) (r : BitVec 3) (x : Nat) : (st.setMbits r x).tval = st.tval := rfl
@[simp] theorem Strand.setMbits_telem (st : Strand) (r : BitVec 3) (x : Nat) : (st.setMbits r x).telem = st.telem := rfl
@[simp] theorem Strand.setMbits_twin (st : Strand) (r : BitVec 3) (x : Nat) : (st.setMbits r x).twin = st.twin := rfl
@[simp] theorem Strand.setMbits_ptroot (st : Strand) (r : BitVec 3) (x : Nat) : (st.setMbits r x).ptroot = st.ptroot := rfl
@[simp] theorem Strand.setMbits_asid (st : Strand) (r : BitVec 3) (x : Nat) : (st.setMbits r x).asid = st.asid := rfl
@[simp] theorem Strand.setMbits_wdog (st : Strand) (r : BitVec 3) (x : Nat) : (st.setMbits r x).wdog = st.wdog := rfl
@[simp] theorem Strand.setMbits_estep (st : Strand) (r : BitVec 3) (x : Nat) : (st.setMbits r x).estep = st.estep := rfl
@[simp] theorem Strand.setMbits_grantNext (st : Strand) (r : BitVec 3) (x : Nat) : (st.setMbits r x).grantNext = st.grantNext := rfl
@[simp] theorem Strand.setMbits_grantPend (st : Strand) (r : BitVec 3) (x : Nat) : (st.setMbits r x).grantPend = st.grantPend := rfl
@[simp] theorem Strand.setMbits_wcount (st : Strand) (r : BitVec 3) (x : Nat) : (st.setMbits r x).wcount = st.wcount := rfl
@[simp] theorem Strand.setMbits_event (st : Strand) (r : BitVec 3) (x : Nat) : (st.setMbits r x).event = st.event := rfl
@[simp] theorem Strand.setMbits_linkGen (st : Strand) (r : BitVec 3) (x : Nat) : (st.setMbits r x).linkGen = st.linkGen := rfl
@[simp] theorem Strand.setMbits_usn (st : Strand) (r : BitVec 3) (x : Nat) : (st.setMbits r x).usn = st.usn := rfl
@[simp] theorem Strand.setMbits_updq (st : Strand) (r : BitVec 3) (x : Nat) : (st.setMbits r x).updq = st.updq := rfl
@[simp] theorem Strand.setMbits_copies (st : Strand) (r : BitVec 3) (x : Nat) : (st.setMbits r x).copies = st.copies := rfl
@[simp] theorem Strand.setMbits_copySeq (st : Strand) (r : BitVec 3) (x : Nat) : (st.setMbits r x).copySeq = st.copySeq := rfl
@[simp] theorem Strand.setMbits_balance (st : Strand) (r : BitVec 3) (x : Nat) : (st.setMbits r x).balance = st.balance := rfl
@[simp] theorem Strand.setMbits_slot (st : Strand) (r : BitVec 3) (x : Nat) : (st.setMbits r x).slot = st.slot := rfl
@[simp] theorem Strand.setMbits_group (st : Strand) (r : BitVec 3) (x : Nat) : (st.setMbits r x).group = st.group := rfl
@[simp] theorem Strand.setMbits_core0 (st : Strand) (r : BitVec 3) (x : Nat) : (st.setMbits r x).core0 = st.core0 := rfl
@[simp] theorem Strand.setMbits_arrived (st : Strand) (r : BitVec 3) (x : Nat) : (st.setMbits r x).arrived = st.arrived := rfl
@[simp] theorem Strand.setMbits_stepping (st : Strand) (r : BitVec 3) (x : Nat) : (st.setMbits r x).stepping = st.stepping := rfl
@[simp] theorem Strand.setMbits_stepDone (st : Strand) (r : BitVec 3) (x : Nat) : (st.setMbits r x).stepDone = st.stepDone := rfl
@[simp] theorem Strand.setMbits_stalled (st : Strand) (r : BitVec 3) (x : Nat) : (st.setMbits r x).stalled = st.stalled := rfl
@[simp] theorem Strand.setMbits_quiet (st : Strand) (r : BitVec 3) (x : Nat) : (st.setMbits r x).quiet = st.quiet := rfl
@[simp] theorem Strand.setMbits_ahead (st : Strand) (r : BitVec 3) (x : Nat) : (st.setMbits r x).ahead = st.ahead := rfl
@[simp] theorem Strand.setMbits_strip (st : Strand) (r : BitVec 3) (x : Nat) : (st.setMbits r x).strip = st.strip := rfl
@[simp] theorem Strand.setMbits_stop (st : Strand) (r : BitVec 3) (x : Nat) : (st.setMbits r x).stop = st.stop := rfl
@[simp] theorem Strand.setMbits_dying (st : Strand) (r : BitVec 3) (x : Nat) : (st.setMbits r x).dying = st.dying := rfl
@[simp] theorem Strand.setMbits_leaving (st : Strand) (r : BitVec 3) (x : Nat) : (st.setMbits r x).leaving = st.leaving := rfl
@[simp] theorem Strand.setMbits_aside (st : Strand) (r : BitVec 3) (x : Nat) : (st.setMbits r x).aside = st.aside := rfl
@[simp] theorem Strand.setMbits_away (st : Strand) (r : BitVec 3) (x : Nat) : (st.setMbits r x).away = st.away := rfl
@[simp] theorem Strand.setMbits_kept (st : Strand) (r : BitVec 3) (x : Nat) : (st.setMbits r x).kept = st.kept := rfl
@[simp] theorem Strand.setMbits_late (st : Strand) (r : BitVec 3) (x : Nat) : (st.setMbits r x).late = st.late := rfl
@[simp] theorem Strand.setMbits_slow (st : Strand) (r : BitVec 3) (x : Nat) : (st.setMbits r x).slow = st.slow := rfl

/-! ### Strand.raise -/

@[simp] theorem Strand.raise_phase (st : Strand) (fl : Flags) : (st.raise fl).phase = st.phase := rfl
@[simp] theorem Strand.raise_g (st : Strand) (fl : Flags) : (st.raise fl).g = st.g := rfl
@[simp] theorem Strand.raise_pc (st : Strand) (fl : Flags) : (st.raise fl).pc = st.pc := rfl
@[simp] theorem Strand.raise_sup (st : Strand) (fl : Flags) : (st.raise fl).sup = st.sup := rfl
@[simp] theorem Strand.raise_v (st : Strand) (fl : Flags) : (st.raise fl).v = st.v := rfl
@[simp] theorem Strand.raise_m (st : Strand) (fl : Flags) : (st.raise fl).m = st.m := rfl
@[simp] theorem Strand.raise_t (st : Strand) (fl : Flags) : (st.raise fl).t = st.t := rfl
@[simp] theorem Strand.raise_k (st : Strand) (fl : Flags) : (st.raise fl).k = st.k := rfl
@[simp] theorem Strand.raise_cx (st : Strand) (fl : Flags) : (st.raise fl).cx = st.cx := rfl
@[simp] theorem Strand.raise_cb (st : Strand) (fl : Flags) : (st.raise fl).cb = st.cb := rfl
@[simp] theorem Strand.raise_slalom (st : Strand) (fl : Flags) : (st.raise fl).slalom = st.slalom := rfl
@[simp] theorem Strand.raise_shadow (st : Strand) (fl : Flags) : (st.raise fl).shadow = st.shadow := rfl
@[simp] theorem Strand.raise_window (st : Strand) (fl : Flags) : (st.raise fl).window = st.window := rfl
@[simp] theorem Strand.raise_vl (st : Strand) (fl : Flags) : (st.raise fl).vl = st.vl := rfl
@[simp] theorem Strand.raise_rl (st : Strand) (fl : Flags) : (st.raise fl).rl = st.rl := rfl
@[simp] theorem Strand.raise_vtype (st : Strand) (fl : Flags) : (st.raise fl).vtype = st.vtype := rfl
@[simp] theorem Strand.raise_gvlen (st : Strand) (fl : Flags) : (st.raise fl).gvlen = st.gvlen := rfl
@[simp] theorem Strand.raise_grsz (st : Strand) (fl : Flags) : (st.raise fl).grsz = st.grsz := rfl
@[simp] theorem Strand.raise_frm (st : Strand) (fl : Flags) : (st.raise fl).frm = st.frm := rfl
@[simp] theorem Strand.raise_repro (st : Strand) (fl : Flags) : (st.raise fl).repro = st.repro := rfl
@[simp] theorem Strand.raise_mvl (st : Strand) (fl : Flags) : (st.raise fl).mvl = st.mvl := rfl
@[simp] theorem Strand.raise_tetype (st : Strand) (fl : Flags) : (st.raise fl).tetype = st.tetype := rfl
@[simp] theorem Strand.raise_tilesOn (st : Strand) (fl : Flags) : (st.raise fl).tilesOn = st.tilesOn := rfl
@[simp] theorem Strand.raise_tilesAllow (st : Strand) (fl : Flags) : (st.raise fl).tilesAllow = st.tilesAllow := rfl
@[simp] theorem Strand.raise_srseed (st : Strand) (fl : Flags) : (st.raise fl).srseed = st.srseed := rfl
@[simp] theorem Strand.raise_id (st : Strand) (fl : Flags) : (st.raise fl).id = st.id := rfl
@[simp] theorem Strand.raise_gang (st : Strand) (fl : Flags) : (st.raise fl).gang = st.gang := rfl
@[simp] theorem Strand.raise_gangSize (st : Strand) (fl : Flags) : (st.raise fl).gangSize = st.gangSize := rfl
@[simp] theorem Strand.raise_core (st : Strand) (fl : Flags) : (st.raise fl).core = st.core := rfl
@[simp] theorem Strand.raise_pkg (st : Strand) (fl : Flags) : (st.raise fl).pkg = st.pkg := rfl
@[simp] theorem Strand.raise_cycle (st : Strand) (fl : Flags) : (st.raise fl).cycle = st.cycle := rfl
@[simp] theorem Strand.raise_uivec (st : Strand) (fl : Flags) : (st.raise fl).uivec = st.uivec := rfl
@[simp] theorem Strand.raise_uicause (st : Strand) (fl : Flags) : (st.raise fl).uicause = st.uicause := rfl
@[simp] theorem Strand.raise_uiepc (st : Strand) (fl : Flags) : (st.raise fl).uiepc = st.uiepc := rfl
@[simp] theorem Strand.raise_uiIn (st : Strand) (fl : Flags) : (st.raise fl).uiIn = st.uiIn := rfl
@[simp] theorem Strand.raise_enDone (st : Strand) (fl : Flags) : (st.raise fl).enDone = st.enDone := rfl
@[simp] theorem Strand.raise_enFault (st : Strand) (fl : Flags) : (st.raise fl).enFault = st.enFault := rfl
@[simp] theorem Strand.raise_enTrapu (st : Strand) (fl : Flags) : (st.raise fl).enTrapu = st.enTrapu := rfl
@[simp] theorem Strand.raise_pDone (st : Strand) (fl : Flags) : (st.raise fl).pDone = st.pDone := rfl
@[simp] theorem Strand.raise_pFault (st : Strand) (fl : Flags) : (st.raise fl).pFault = st.pFault := rfl
@[simp] theorem Strand.raise_cxldr (st : Strand) (fl : Flags) : (st.raise fl).cxldr = st.cxldr := rfl
@[simp] theorem Strand.raise_tvec (st : Strand) (fl : Flags) : (st.raise fl).tvec = st.tvec := rfl
@[simp] theorem Strand.raise_tcause (st : Strand) (fl : Flags) : (st.raise fl).tcause = st.tcause := rfl
@[simp] theorem Strand.raise_tepc (st : Strand) (fl : Flags) : (st.raise fl).tepc = st.tepc := rfl
@[simp] theorem Strand.raise_tval (st : Strand) (fl : Flags) : (st.raise fl).tval = st.tval := rfl
@[simp] theorem Strand.raise_telem (st : Strand) (fl : Flags) : (st.raise fl).telem = st.telem := rfl
@[simp] theorem Strand.raise_twin (st : Strand) (fl : Flags) : (st.raise fl).twin = st.twin := rfl
@[simp] theorem Strand.raise_ptroot (st : Strand) (fl : Flags) : (st.raise fl).ptroot = st.ptroot := rfl
@[simp] theorem Strand.raise_asid (st : Strand) (fl : Flags) : (st.raise fl).asid = st.asid := rfl
@[simp] theorem Strand.raise_wdog (st : Strand) (fl : Flags) : (st.raise fl).wdog = st.wdog := rfl
@[simp] theorem Strand.raise_estep (st : Strand) (fl : Flags) : (st.raise fl).estep = st.estep := rfl
@[simp] theorem Strand.raise_grantNext (st : Strand) (fl : Flags) : (st.raise fl).grantNext = st.grantNext := rfl
@[simp] theorem Strand.raise_grantPend (st : Strand) (fl : Flags) : (st.raise fl).grantPend = st.grantPend := rfl
@[simp] theorem Strand.raise_wcount (st : Strand) (fl : Flags) : (st.raise fl).wcount = st.wcount := rfl
@[simp] theorem Strand.raise_event (st : Strand) (fl : Flags) : (st.raise fl).event = st.event := rfl
@[simp] theorem Strand.raise_linkGen (st : Strand) (fl : Flags) : (st.raise fl).linkGen = st.linkGen := rfl
@[simp] theorem Strand.raise_usn (st : Strand) (fl : Flags) : (st.raise fl).usn = st.usn := rfl
@[simp] theorem Strand.raise_updq (st : Strand) (fl : Flags) : (st.raise fl).updq = st.updq := rfl
@[simp] theorem Strand.raise_copies (st : Strand) (fl : Flags) : (st.raise fl).copies = st.copies := rfl
@[simp] theorem Strand.raise_copySeq (st : Strand) (fl : Flags) : (st.raise fl).copySeq = st.copySeq := rfl
@[simp] theorem Strand.raise_balance (st : Strand) (fl : Flags) : (st.raise fl).balance = st.balance := rfl
@[simp] theorem Strand.raise_slot (st : Strand) (fl : Flags) : (st.raise fl).slot = st.slot := rfl
@[simp] theorem Strand.raise_group (st : Strand) (fl : Flags) : (st.raise fl).group = st.group := rfl
@[simp] theorem Strand.raise_core0 (st : Strand) (fl : Flags) : (st.raise fl).core0 = st.core0 := rfl
@[simp] theorem Strand.raise_arrived (st : Strand) (fl : Flags) : (st.raise fl).arrived = st.arrived := rfl
@[simp] theorem Strand.raise_stepping (st : Strand) (fl : Flags) : (st.raise fl).stepping = st.stepping := rfl
@[simp] theorem Strand.raise_stepDone (st : Strand) (fl : Flags) : (st.raise fl).stepDone = st.stepDone := rfl
@[simp] theorem Strand.raise_stalled (st : Strand) (fl : Flags) : (st.raise fl).stalled = st.stalled := rfl
@[simp] theorem Strand.raise_quiet (st : Strand) (fl : Flags) : (st.raise fl).quiet = st.quiet := rfl
@[simp] theorem Strand.raise_ahead (st : Strand) (fl : Flags) : (st.raise fl).ahead = st.ahead := rfl
@[simp] theorem Strand.raise_strip (st : Strand) (fl : Flags) : (st.raise fl).strip = st.strip := rfl
@[simp] theorem Strand.raise_stop (st : Strand) (fl : Flags) : (st.raise fl).stop = st.stop := rfl
@[simp] theorem Strand.raise_dying (st : Strand) (fl : Flags) : (st.raise fl).dying = st.dying := rfl
@[simp] theorem Strand.raise_leaving (st : Strand) (fl : Flags) : (st.raise fl).leaving = st.leaving := rfl
@[simp] theorem Strand.raise_aside (st : Strand) (fl : Flags) : (st.raise fl).aside = st.aside := rfl
@[simp] theorem Strand.raise_away (st : Strand) (fl : Flags) : (st.raise fl).away = st.away := rfl
@[simp] theorem Strand.raise_kept (st : Strand) (fl : Flags) : (st.raise fl).kept = st.kept := rfl
@[simp] theorem Strand.raise_late (st : Strand) (fl : Flags) : (st.raise fl).late = st.late := rfl
@[simp] theorem Strand.raise_slow (st : Strand) (fl : Flags) : (st.raise fl).slow = st.slow := rfl

/-! ### Strand.setRbits -/

@[simp] theorem Strand.setRbits_phase (st : Strand) (d : VReg) (x : Nat) : (st.setRbits d x).phase = st.phase := by cases d <;> rfl
@[simp] theorem Strand.setRbits_g (st : Strand) (d : VReg) (x : Nat) : (st.setRbits d x).g = st.g := by cases d <;> rfl
@[simp] theorem Strand.setRbits_pc (st : Strand) (d : VReg) (x : Nat) : (st.setRbits d x).pc = st.pc := by cases d <;> rfl
@[simp] theorem Strand.setRbits_sup (st : Strand) (d : VReg) (x : Nat) : (st.setRbits d x).sup = st.sup := by cases d <;> rfl
@[simp] theorem Strand.setRbits_t (st : Strand) (d : VReg) (x : Nat) : (st.setRbits d x).t = st.t := by cases d <;> rfl
@[simp] theorem Strand.setRbits_k (st : Strand) (d : VReg) (x : Nat) : (st.setRbits d x).k = st.k := by cases d <;> rfl
@[simp] theorem Strand.setRbits_cx (st : Strand) (d : VReg) (x : Nat) : (st.setRbits d x).cx = st.cx := by cases d <;> rfl
@[simp] theorem Strand.setRbits_cb (st : Strand) (d : VReg) (x : Nat) : (st.setRbits d x).cb = st.cb := by cases d <;> rfl
@[simp] theorem Strand.setRbits_slalom (st : Strand) (d : VReg) (x : Nat) : (st.setRbits d x).slalom = st.slalom := by cases d <;> rfl
@[simp] theorem Strand.setRbits_shadow (st : Strand) (d : VReg) (x : Nat) : (st.setRbits d x).shadow = st.shadow := by cases d <;> rfl
@[simp] theorem Strand.setRbits_window (st : Strand) (d : VReg) (x : Nat) : (st.setRbits d x).window = st.window := by cases d <;> rfl
@[simp] theorem Strand.setRbits_vl (st : Strand) (d : VReg) (x : Nat) : (st.setRbits d x).vl = st.vl := by cases d <;> rfl
@[simp] theorem Strand.setRbits_rl (st : Strand) (d : VReg) (x : Nat) : (st.setRbits d x).rl = st.rl := by cases d <;> rfl
@[simp] theorem Strand.setRbits_vtype (st : Strand) (d : VReg) (x : Nat) : (st.setRbits d x).vtype = st.vtype := by cases d <;> rfl
@[simp] theorem Strand.setRbits_gvlen (st : Strand) (d : VReg) (x : Nat) : (st.setRbits d x).gvlen = st.gvlen := by cases d <;> rfl
@[simp] theorem Strand.setRbits_grsz (st : Strand) (d : VReg) (x : Nat) : (st.setRbits d x).grsz = st.grsz := by cases d <;> rfl
@[simp] theorem Strand.setRbits_frm (st : Strand) (d : VReg) (x : Nat) : (st.setRbits d x).frm = st.frm := by cases d <;> rfl
@[simp] theorem Strand.setRbits_fflags (st : Strand) (d : VReg) (x : Nat) : (st.setRbits d x).fflags = st.fflags := by cases d <;> rfl
@[simp] theorem Strand.setRbits_repro (st : Strand) (d : VReg) (x : Nat) : (st.setRbits d x).repro = st.repro := by cases d <;> rfl
@[simp] theorem Strand.setRbits_mvl (st : Strand) (d : VReg) (x : Nat) : (st.setRbits d x).mvl = st.mvl := by cases d <;> rfl
@[simp] theorem Strand.setRbits_tetype (st : Strand) (d : VReg) (x : Nat) : (st.setRbits d x).tetype = st.tetype := by cases d <;> rfl
@[simp] theorem Strand.setRbits_tilesOn (st : Strand) (d : VReg) (x : Nat) : (st.setRbits d x).tilesOn = st.tilesOn := by cases d <;> rfl
@[simp] theorem Strand.setRbits_tilesAllow (st : Strand) (d : VReg) (x : Nat) : (st.setRbits d x).tilesAllow = st.tilesAllow := by cases d <;> rfl
@[simp] theorem Strand.setRbits_srseed (st : Strand) (d : VReg) (x : Nat) : (st.setRbits d x).srseed = st.srseed := by cases d <;> rfl
@[simp] theorem Strand.setRbits_id (st : Strand) (d : VReg) (x : Nat) : (st.setRbits d x).id = st.id := by cases d <;> rfl
@[simp] theorem Strand.setRbits_gang (st : Strand) (d : VReg) (x : Nat) : (st.setRbits d x).gang = st.gang := by cases d <;> rfl
@[simp] theorem Strand.setRbits_gangSize (st : Strand) (d : VReg) (x : Nat) : (st.setRbits d x).gangSize = st.gangSize := by cases d <;> rfl
@[simp] theorem Strand.setRbits_core (st : Strand) (d : VReg) (x : Nat) : (st.setRbits d x).core = st.core := by cases d <;> rfl
@[simp] theorem Strand.setRbits_pkg (st : Strand) (d : VReg) (x : Nat) : (st.setRbits d x).pkg = st.pkg := by cases d <;> rfl
@[simp] theorem Strand.setRbits_cycle (st : Strand) (d : VReg) (x : Nat) : (st.setRbits d x).cycle = st.cycle := by cases d <;> rfl
@[simp] theorem Strand.setRbits_uivec (st : Strand) (d : VReg) (x : Nat) : (st.setRbits d x).uivec = st.uivec := by cases d <;> rfl
@[simp] theorem Strand.setRbits_uicause (st : Strand) (d : VReg) (x : Nat) : (st.setRbits d x).uicause = st.uicause := by cases d <;> rfl
@[simp] theorem Strand.setRbits_uiepc (st : Strand) (d : VReg) (x : Nat) : (st.setRbits d x).uiepc = st.uiepc := by cases d <;> rfl
@[simp] theorem Strand.setRbits_uiIn (st : Strand) (d : VReg) (x : Nat) : (st.setRbits d x).uiIn = st.uiIn := by cases d <;> rfl
@[simp] theorem Strand.setRbits_enDone (st : Strand) (d : VReg) (x : Nat) : (st.setRbits d x).enDone = st.enDone := by cases d <;> rfl
@[simp] theorem Strand.setRbits_enFault (st : Strand) (d : VReg) (x : Nat) : (st.setRbits d x).enFault = st.enFault := by cases d <;> rfl
@[simp] theorem Strand.setRbits_enTrapu (st : Strand) (d : VReg) (x : Nat) : (st.setRbits d x).enTrapu = st.enTrapu := by cases d <;> rfl
@[simp] theorem Strand.setRbits_pDone (st : Strand) (d : VReg) (x : Nat) : (st.setRbits d x).pDone = st.pDone := by cases d <;> rfl
@[simp] theorem Strand.setRbits_pFault (st : Strand) (d : VReg) (x : Nat) : (st.setRbits d x).pFault = st.pFault := by cases d <;> rfl
@[simp] theorem Strand.setRbits_cxldr (st : Strand) (d : VReg) (x : Nat) : (st.setRbits d x).cxldr = st.cxldr := by cases d <;> rfl
@[simp] theorem Strand.setRbits_tvec (st : Strand) (d : VReg) (x : Nat) : (st.setRbits d x).tvec = st.tvec := by cases d <;> rfl
@[simp] theorem Strand.setRbits_tcause (st : Strand) (d : VReg) (x : Nat) : (st.setRbits d x).tcause = st.tcause := by cases d <;> rfl
@[simp] theorem Strand.setRbits_tepc (st : Strand) (d : VReg) (x : Nat) : (st.setRbits d x).tepc = st.tepc := by cases d <;> rfl
@[simp] theorem Strand.setRbits_tval (st : Strand) (d : VReg) (x : Nat) : (st.setRbits d x).tval = st.tval := by cases d <;> rfl
@[simp] theorem Strand.setRbits_telem (st : Strand) (d : VReg) (x : Nat) : (st.setRbits d x).telem = st.telem := by cases d <;> rfl
@[simp] theorem Strand.setRbits_twin (st : Strand) (d : VReg) (x : Nat) : (st.setRbits d x).twin = st.twin := by cases d <;> rfl
@[simp] theorem Strand.setRbits_ptroot (st : Strand) (d : VReg) (x : Nat) : (st.setRbits d x).ptroot = st.ptroot := by cases d <;> rfl
@[simp] theorem Strand.setRbits_asid (st : Strand) (d : VReg) (x : Nat) : (st.setRbits d x).asid = st.asid := by cases d <;> rfl
@[simp] theorem Strand.setRbits_wdog (st : Strand) (d : VReg) (x : Nat) : (st.setRbits d x).wdog = st.wdog := by cases d <;> rfl
@[simp] theorem Strand.setRbits_estep (st : Strand) (d : VReg) (x : Nat) : (st.setRbits d x).estep = st.estep := by cases d <;> rfl
@[simp] theorem Strand.setRbits_grantNext (st : Strand) (d : VReg) (x : Nat) : (st.setRbits d x).grantNext = st.grantNext := by cases d <;> rfl
@[simp] theorem Strand.setRbits_grantPend (st : Strand) (d : VReg) (x : Nat) : (st.setRbits d x).grantPend = st.grantPend := by cases d <;> rfl
@[simp] theorem Strand.setRbits_wcount (st : Strand) (d : VReg) (x : Nat) : (st.setRbits d x).wcount = st.wcount := by cases d <;> rfl
@[simp] theorem Strand.setRbits_event (st : Strand) (d : VReg) (x : Nat) : (st.setRbits d x).event = st.event := by cases d <;> rfl
@[simp] theorem Strand.setRbits_linkGen (st : Strand) (d : VReg) (x : Nat) : (st.setRbits d x).linkGen = st.linkGen := by cases d <;> rfl
@[simp] theorem Strand.setRbits_usn (st : Strand) (d : VReg) (x : Nat) : (st.setRbits d x).usn = st.usn := by cases d <;> rfl
@[simp] theorem Strand.setRbits_updq (st : Strand) (d : VReg) (x : Nat) : (st.setRbits d x).updq = st.updq := by cases d <;> rfl
@[simp] theorem Strand.setRbits_copies (st : Strand) (d : VReg) (x : Nat) : (st.setRbits d x).copies = st.copies := by cases d <;> rfl
@[simp] theorem Strand.setRbits_copySeq (st : Strand) (d : VReg) (x : Nat) : (st.setRbits d x).copySeq = st.copySeq := by cases d <;> rfl
@[simp] theorem Strand.setRbits_balance (st : Strand) (d : VReg) (x : Nat) : (st.setRbits d x).balance = st.balance := by cases d <;> rfl
@[simp] theorem Strand.setRbits_slot (st : Strand) (d : VReg) (x : Nat) : (st.setRbits d x).slot = st.slot := by cases d <;> rfl
@[simp] theorem Strand.setRbits_group (st : Strand) (d : VReg) (x : Nat) : (st.setRbits d x).group = st.group := by cases d <;> rfl
@[simp] theorem Strand.setRbits_core0 (st : Strand) (d : VReg) (x : Nat) : (st.setRbits d x).core0 = st.core0 := by cases d <;> rfl
@[simp] theorem Strand.setRbits_arrived (st : Strand) (d : VReg) (x : Nat) : (st.setRbits d x).arrived = st.arrived := by cases d <;> rfl
@[simp] theorem Strand.setRbits_stepping (st : Strand) (d : VReg) (x : Nat) : (st.setRbits d x).stepping = st.stepping := by cases d <;> rfl
@[simp] theorem Strand.setRbits_stepDone (st : Strand) (d : VReg) (x : Nat) : (st.setRbits d x).stepDone = st.stepDone := by cases d <;> rfl
@[simp] theorem Strand.setRbits_stalled (st : Strand) (d : VReg) (x : Nat) : (st.setRbits d x).stalled = st.stalled := by cases d <;> rfl
@[simp] theorem Strand.setRbits_quiet (st : Strand) (d : VReg) (x : Nat) : (st.setRbits d x).quiet = st.quiet := by cases d <;> rfl
@[simp] theorem Strand.setRbits_ahead (st : Strand) (d : VReg) (x : Nat) : (st.setRbits d x).ahead = st.ahead := by cases d <;> rfl
@[simp] theorem Strand.setRbits_strip (st : Strand) (d : VReg) (x : Nat) : (st.setRbits d x).strip = st.strip := by cases d <;> rfl
@[simp] theorem Strand.setRbits_stop (st : Strand) (d : VReg) (x : Nat) : (st.setRbits d x).stop = st.stop := by cases d <;> rfl
@[simp] theorem Strand.setRbits_dying (st : Strand) (d : VReg) (x : Nat) : (st.setRbits d x).dying = st.dying := by cases d <;> rfl
@[simp] theorem Strand.setRbits_leaving (st : Strand) (d : VReg) (x : Nat) : (st.setRbits d x).leaving = st.leaving := by cases d <;> rfl
@[simp] theorem Strand.setRbits_aside (st : Strand) (d : VReg) (x : Nat) : (st.setRbits d x).aside = st.aside := by cases d <;> rfl
@[simp] theorem Strand.setRbits_away (st : Strand) (d : VReg) (x : Nat) : (st.setRbits d x).away = st.away := by cases d <;> rfl
@[simp] theorem Strand.setRbits_kept (st : Strand) (d : VReg) (x : Nat) : (st.setRbits d x).kept = st.kept := by cases d <;> rfl
@[simp] theorem Strand.setRbits_late (st : Strand) (d : VReg) (x : Nat) : (st.setRbits d x).late = st.late := by cases d <;> rfl
@[simp] theorem Strand.setRbits_slow (st : Strand) (d : VReg) (x : Nat) : (st.setRbits d x).slow = st.slow := by cases d <;> rfl

/-! ### Strand.put -/

@[simp] theorem Strand.put_phase (st : Strand) (d : VReg) (w e x : Nat) : (st.put d w e x).phase = st.phase := Strand.setRbits_phase _ _ _
@[simp] theorem Strand.put_g (st : Strand) (d : VReg) (w e x : Nat) : (st.put d w e x).g = st.g := Strand.setRbits_g _ _ _
@[simp] theorem Strand.put_pc (st : Strand) (d : VReg) (w e x : Nat) : (st.put d w e x).pc = st.pc := Strand.setRbits_pc _ _ _
@[simp] theorem Strand.put_sup (st : Strand) (d : VReg) (w e x : Nat) : (st.put d w e x).sup = st.sup := Strand.setRbits_sup _ _ _
@[simp] theorem Strand.put_t (st : Strand) (d : VReg) (w e x : Nat) : (st.put d w e x).t = st.t := Strand.setRbits_t _ _ _
@[simp] theorem Strand.put_k (st : Strand) (d : VReg) (w e x : Nat) : (st.put d w e x).k = st.k := Strand.setRbits_k _ _ _
@[simp] theorem Strand.put_cx (st : Strand) (d : VReg) (w e x : Nat) : (st.put d w e x).cx = st.cx := Strand.setRbits_cx _ _ _
@[simp] theorem Strand.put_cb (st : Strand) (d : VReg) (w e x : Nat) : (st.put d w e x).cb = st.cb := Strand.setRbits_cb _ _ _
@[simp] theorem Strand.put_slalom (st : Strand) (d : VReg) (w e x : Nat) : (st.put d w e x).slalom = st.slalom := Strand.setRbits_slalom _ _ _
@[simp] theorem Strand.put_shadow (st : Strand) (d : VReg) (w e x : Nat) : (st.put d w e x).shadow = st.shadow := Strand.setRbits_shadow _ _ _
@[simp] theorem Strand.put_window (st : Strand) (d : VReg) (w e x : Nat) : (st.put d w e x).window = st.window := Strand.setRbits_window _ _ _
@[simp] theorem Strand.put_vl (st : Strand) (d : VReg) (w e x : Nat) : (st.put d w e x).vl = st.vl := Strand.setRbits_vl _ _ _
@[simp] theorem Strand.put_rl (st : Strand) (d : VReg) (w e x : Nat) : (st.put d w e x).rl = st.rl := Strand.setRbits_rl _ _ _
@[simp] theorem Strand.put_vtype (st : Strand) (d : VReg) (w e x : Nat) : (st.put d w e x).vtype = st.vtype := Strand.setRbits_vtype _ _ _
@[simp] theorem Strand.put_gvlen (st : Strand) (d : VReg) (w e x : Nat) : (st.put d w e x).gvlen = st.gvlen := Strand.setRbits_gvlen _ _ _
@[simp] theorem Strand.put_grsz (st : Strand) (d : VReg) (w e x : Nat) : (st.put d w e x).grsz = st.grsz := Strand.setRbits_grsz _ _ _
@[simp] theorem Strand.put_frm (st : Strand) (d : VReg) (w e x : Nat) : (st.put d w e x).frm = st.frm := Strand.setRbits_frm _ _ _
@[simp] theorem Strand.put_fflags (st : Strand) (d : VReg) (w e x : Nat) : (st.put d w e x).fflags = st.fflags := Strand.setRbits_fflags _ _ _
@[simp] theorem Strand.put_repro (st : Strand) (d : VReg) (w e x : Nat) : (st.put d w e x).repro = st.repro := Strand.setRbits_repro _ _ _
@[simp] theorem Strand.put_mvl (st : Strand) (d : VReg) (w e x : Nat) : (st.put d w e x).mvl = st.mvl := Strand.setRbits_mvl _ _ _
@[simp] theorem Strand.put_tetype (st : Strand) (d : VReg) (w e x : Nat) : (st.put d w e x).tetype = st.tetype := Strand.setRbits_tetype _ _ _
@[simp] theorem Strand.put_tilesOn (st : Strand) (d : VReg) (w e x : Nat) : (st.put d w e x).tilesOn = st.tilesOn := Strand.setRbits_tilesOn _ _ _
@[simp] theorem Strand.put_tilesAllow (st : Strand) (d : VReg) (w e x : Nat) : (st.put d w e x).tilesAllow = st.tilesAllow := Strand.setRbits_tilesAllow _ _ _
@[simp] theorem Strand.put_srseed (st : Strand) (d : VReg) (w e x : Nat) : (st.put d w e x).srseed = st.srseed := Strand.setRbits_srseed _ _ _
@[simp] theorem Strand.put_id (st : Strand) (d : VReg) (w e x : Nat) : (st.put d w e x).id = st.id := Strand.setRbits_id _ _ _
@[simp] theorem Strand.put_gang (st : Strand) (d : VReg) (w e x : Nat) : (st.put d w e x).gang = st.gang := Strand.setRbits_gang _ _ _
@[simp] theorem Strand.put_gangSize (st : Strand) (d : VReg) (w e x : Nat) : (st.put d w e x).gangSize = st.gangSize := Strand.setRbits_gangSize _ _ _
@[simp] theorem Strand.put_core (st : Strand) (d : VReg) (w e x : Nat) : (st.put d w e x).core = st.core := Strand.setRbits_core _ _ _
@[simp] theorem Strand.put_pkg (st : Strand) (d : VReg) (w e x : Nat) : (st.put d w e x).pkg = st.pkg := Strand.setRbits_pkg _ _ _
@[simp] theorem Strand.put_cycle (st : Strand) (d : VReg) (w e x : Nat) : (st.put d w e x).cycle = st.cycle := Strand.setRbits_cycle _ _ _
@[simp] theorem Strand.put_uivec (st : Strand) (d : VReg) (w e x : Nat) : (st.put d w e x).uivec = st.uivec := Strand.setRbits_uivec _ _ _
@[simp] theorem Strand.put_uicause (st : Strand) (d : VReg) (w e x : Nat) : (st.put d w e x).uicause = st.uicause := Strand.setRbits_uicause _ _ _
@[simp] theorem Strand.put_uiepc (st : Strand) (d : VReg) (w e x : Nat) : (st.put d w e x).uiepc = st.uiepc := Strand.setRbits_uiepc _ _ _
@[simp] theorem Strand.put_uiIn (st : Strand) (d : VReg) (w e x : Nat) : (st.put d w e x).uiIn = st.uiIn := Strand.setRbits_uiIn _ _ _
@[simp] theorem Strand.put_enDone (st : Strand) (d : VReg) (w e x : Nat) : (st.put d w e x).enDone = st.enDone := Strand.setRbits_enDone _ _ _
@[simp] theorem Strand.put_enFault (st : Strand) (d : VReg) (w e x : Nat) : (st.put d w e x).enFault = st.enFault := Strand.setRbits_enFault _ _ _
@[simp] theorem Strand.put_enTrapu (st : Strand) (d : VReg) (w e x : Nat) : (st.put d w e x).enTrapu = st.enTrapu := Strand.setRbits_enTrapu _ _ _
@[simp] theorem Strand.put_pDone (st : Strand) (d : VReg) (w e x : Nat) : (st.put d w e x).pDone = st.pDone := Strand.setRbits_pDone _ _ _
@[simp] theorem Strand.put_pFault (st : Strand) (d : VReg) (w e x : Nat) : (st.put d w e x).pFault = st.pFault := Strand.setRbits_pFault _ _ _
@[simp] theorem Strand.put_cxldr (st : Strand) (d : VReg) (w e x : Nat) : (st.put d w e x).cxldr = st.cxldr := Strand.setRbits_cxldr _ _ _
@[simp] theorem Strand.put_tvec (st : Strand) (d : VReg) (w e x : Nat) : (st.put d w e x).tvec = st.tvec := Strand.setRbits_tvec _ _ _
@[simp] theorem Strand.put_tcause (st : Strand) (d : VReg) (w e x : Nat) : (st.put d w e x).tcause = st.tcause := Strand.setRbits_tcause _ _ _
@[simp] theorem Strand.put_tepc (st : Strand) (d : VReg) (w e x : Nat) : (st.put d w e x).tepc = st.tepc := Strand.setRbits_tepc _ _ _
@[simp] theorem Strand.put_tval (st : Strand) (d : VReg) (w e x : Nat) : (st.put d w e x).tval = st.tval := Strand.setRbits_tval _ _ _
@[simp] theorem Strand.put_telem (st : Strand) (d : VReg) (w e x : Nat) : (st.put d w e x).telem = st.telem := Strand.setRbits_telem _ _ _
@[simp] theorem Strand.put_twin (st : Strand) (d : VReg) (w e x : Nat) : (st.put d w e x).twin = st.twin := Strand.setRbits_twin _ _ _
@[simp] theorem Strand.put_ptroot (st : Strand) (d : VReg) (w e x : Nat) : (st.put d w e x).ptroot = st.ptroot := Strand.setRbits_ptroot _ _ _
@[simp] theorem Strand.put_asid (st : Strand) (d : VReg) (w e x : Nat) : (st.put d w e x).asid = st.asid := Strand.setRbits_asid _ _ _
@[simp] theorem Strand.put_wdog (st : Strand) (d : VReg) (w e x : Nat) : (st.put d w e x).wdog = st.wdog := Strand.setRbits_wdog _ _ _
@[simp] theorem Strand.put_estep (st : Strand) (d : VReg) (w e x : Nat) : (st.put d w e x).estep = st.estep := Strand.setRbits_estep _ _ _
@[simp] theorem Strand.put_grantNext (st : Strand) (d : VReg) (w e x : Nat) : (st.put d w e x).grantNext = st.grantNext := Strand.setRbits_grantNext _ _ _
@[simp] theorem Strand.put_grantPend (st : Strand) (d : VReg) (w e x : Nat) : (st.put d w e x).grantPend = st.grantPend := Strand.setRbits_grantPend _ _ _
@[simp] theorem Strand.put_wcount (st : Strand) (d : VReg) (w e x : Nat) : (st.put d w e x).wcount = st.wcount := Strand.setRbits_wcount _ _ _
@[simp] theorem Strand.put_event (st : Strand) (d : VReg) (w e x : Nat) : (st.put d w e x).event = st.event := Strand.setRbits_event _ _ _
@[simp] theorem Strand.put_linkGen (st : Strand) (d : VReg) (w e x : Nat) : (st.put d w e x).linkGen = st.linkGen := Strand.setRbits_linkGen _ _ _
@[simp] theorem Strand.put_usn (st : Strand) (d : VReg) (w e x : Nat) : (st.put d w e x).usn = st.usn := Strand.setRbits_usn _ _ _
@[simp] theorem Strand.put_updq (st : Strand) (d : VReg) (w e x : Nat) : (st.put d w e x).updq = st.updq := Strand.setRbits_updq _ _ _
@[simp] theorem Strand.put_copies (st : Strand) (d : VReg) (w e x : Nat) : (st.put d w e x).copies = st.copies := Strand.setRbits_copies _ _ _
@[simp] theorem Strand.put_copySeq (st : Strand) (d : VReg) (w e x : Nat) : (st.put d w e x).copySeq = st.copySeq := Strand.setRbits_copySeq _ _ _
@[simp] theorem Strand.put_balance (st : Strand) (d : VReg) (w e x : Nat) : (st.put d w e x).balance = st.balance := Strand.setRbits_balance _ _ _
@[simp] theorem Strand.put_slot (st : Strand) (d : VReg) (w e x : Nat) : (st.put d w e x).slot = st.slot := Strand.setRbits_slot _ _ _
@[simp] theorem Strand.put_group (st : Strand) (d : VReg) (w e x : Nat) : (st.put d w e x).group = st.group := Strand.setRbits_group _ _ _
@[simp] theorem Strand.put_core0 (st : Strand) (d : VReg) (w e x : Nat) : (st.put d w e x).core0 = st.core0 := Strand.setRbits_core0 _ _ _
@[simp] theorem Strand.put_arrived (st : Strand) (d : VReg) (w e x : Nat) : (st.put d w e x).arrived = st.arrived := Strand.setRbits_arrived _ _ _
@[simp] theorem Strand.put_stepping (st : Strand) (d : VReg) (w e x : Nat) : (st.put d w e x).stepping = st.stepping := Strand.setRbits_stepping _ _ _
@[simp] theorem Strand.put_stepDone (st : Strand) (d : VReg) (w e x : Nat) : (st.put d w e x).stepDone = st.stepDone := Strand.setRbits_stepDone _ _ _
@[simp] theorem Strand.put_stalled (st : Strand) (d : VReg) (w e x : Nat) : (st.put d w e x).stalled = st.stalled := Strand.setRbits_stalled _ _ _
@[simp] theorem Strand.put_quiet (st : Strand) (d : VReg) (w e x : Nat) : (st.put d w e x).quiet = st.quiet := Strand.setRbits_quiet _ _ _
@[simp] theorem Strand.put_ahead (st : Strand) (d : VReg) (w e x : Nat) : (st.put d w e x).ahead = st.ahead := Strand.setRbits_ahead _ _ _
@[simp] theorem Strand.put_strip (st : Strand) (d : VReg) (w e x : Nat) : (st.put d w e x).strip = st.strip := Strand.setRbits_strip _ _ _
@[simp] theorem Strand.put_stop (st : Strand) (d : VReg) (w e x : Nat) : (st.put d w e x).stop = st.stop := Strand.setRbits_stop _ _ _
@[simp] theorem Strand.put_dying (st : Strand) (d : VReg) (w e x : Nat) : (st.put d w e x).dying = st.dying := Strand.setRbits_dying _ _ _
@[simp] theorem Strand.put_leaving (st : Strand) (d : VReg) (w e x : Nat) : (st.put d w e x).leaving = st.leaving := Strand.setRbits_leaving _ _ _
@[simp] theorem Strand.put_aside (st : Strand) (d : VReg) (w e x : Nat) : (st.put d w e x).aside = st.aside := Strand.setRbits_aside _ _ _
@[simp] theorem Strand.put_away (st : Strand) (d : VReg) (w e x : Nat) : (st.put d w e x).away = st.away := Strand.setRbits_away _ _ _
@[simp] theorem Strand.put_kept (st : Strand) (d : VReg) (w e x : Nat) : (st.put d w e x).kept = st.kept := Strand.setRbits_kept _ _ _
@[simp] theorem Strand.put_late (st : Strand) (d : VReg) (w e x : Nat) : (st.put d w e x).late = st.late := Strand.setRbits_late _ _ _
@[simp] theorem Strand.put_slow (st : Strand) (d : VReg) (w e x : Nat) : (st.put d w e x).slow = st.slow := Strand.setRbits_slow _ _ _

/-! ### Strand.write -/

@[simp] theorem Strand.write_phase (st : Strand) (sel : Nat → Bool) (x : VWrite) : (st.write sel x).phase = st.phase := Strand.setRbits_phase _ _ _
@[simp] theorem Strand.write_g (st : Strand) (sel : Nat → Bool) (x : VWrite) : (st.write sel x).g = st.g := Strand.setRbits_g _ _ _
@[simp] theorem Strand.write_pc (st : Strand) (sel : Nat → Bool) (x : VWrite) : (st.write sel x).pc = st.pc := Strand.setRbits_pc _ _ _
@[simp] theorem Strand.write_sup (st : Strand) (sel : Nat → Bool) (x : VWrite) : (st.write sel x).sup = st.sup := Strand.setRbits_sup _ _ _
@[simp] theorem Strand.write_t (st : Strand) (sel : Nat → Bool) (x : VWrite) : (st.write sel x).t = st.t := Strand.setRbits_t _ _ _
@[simp] theorem Strand.write_k (st : Strand) (sel : Nat → Bool) (x : VWrite) : (st.write sel x).k = st.k := Strand.setRbits_k _ _ _
@[simp] theorem Strand.write_cx (st : Strand) (sel : Nat → Bool) (x : VWrite) : (st.write sel x).cx = st.cx := Strand.setRbits_cx _ _ _
@[simp] theorem Strand.write_cb (st : Strand) (sel : Nat → Bool) (x : VWrite) : (st.write sel x).cb = st.cb := Strand.setRbits_cb _ _ _
@[simp] theorem Strand.write_slalom (st : Strand) (sel : Nat → Bool) (x : VWrite) : (st.write sel x).slalom = st.slalom := Strand.setRbits_slalom _ _ _
@[simp] theorem Strand.write_shadow (st : Strand) (sel : Nat → Bool) (x : VWrite) : (st.write sel x).shadow = st.shadow := Strand.setRbits_shadow _ _ _
@[simp] theorem Strand.write_window (st : Strand) (sel : Nat → Bool) (x : VWrite) : (st.write sel x).window = st.window := Strand.setRbits_window _ _ _
@[simp] theorem Strand.write_vl (st : Strand) (sel : Nat → Bool) (x : VWrite) : (st.write sel x).vl = st.vl := Strand.setRbits_vl _ _ _
@[simp] theorem Strand.write_rl (st : Strand) (sel : Nat → Bool) (x : VWrite) : (st.write sel x).rl = st.rl := Strand.setRbits_rl _ _ _
@[simp] theorem Strand.write_vtype (st : Strand) (sel : Nat → Bool) (x : VWrite) : (st.write sel x).vtype = st.vtype := Strand.setRbits_vtype _ _ _
@[simp] theorem Strand.write_gvlen (st : Strand) (sel : Nat → Bool) (x : VWrite) : (st.write sel x).gvlen = st.gvlen := Strand.setRbits_gvlen _ _ _
@[simp] theorem Strand.write_grsz (st : Strand) (sel : Nat → Bool) (x : VWrite) : (st.write sel x).grsz = st.grsz := Strand.setRbits_grsz _ _ _
@[simp] theorem Strand.write_frm (st : Strand) (sel : Nat → Bool) (x : VWrite) : (st.write sel x).frm = st.frm := Strand.setRbits_frm _ _ _
@[simp] theorem Strand.write_fflags (st : Strand) (sel : Nat → Bool) (x : VWrite) : (st.write sel x).fflags = st.fflags := Strand.setRbits_fflags _ _ _
@[simp] theorem Strand.write_repro (st : Strand) (sel : Nat → Bool) (x : VWrite) : (st.write sel x).repro = st.repro := Strand.setRbits_repro _ _ _
@[simp] theorem Strand.write_mvl (st : Strand) (sel : Nat → Bool) (x : VWrite) : (st.write sel x).mvl = st.mvl := Strand.setRbits_mvl _ _ _
@[simp] theorem Strand.write_tetype (st : Strand) (sel : Nat → Bool) (x : VWrite) : (st.write sel x).tetype = st.tetype := Strand.setRbits_tetype _ _ _
@[simp] theorem Strand.write_tilesOn (st : Strand) (sel : Nat → Bool) (x : VWrite) : (st.write sel x).tilesOn = st.tilesOn := Strand.setRbits_tilesOn _ _ _
@[simp] theorem Strand.write_tilesAllow (st : Strand) (sel : Nat → Bool) (x : VWrite) : (st.write sel x).tilesAllow = st.tilesAllow := Strand.setRbits_tilesAllow _ _ _
@[simp] theorem Strand.write_srseed (st : Strand) (sel : Nat → Bool) (x : VWrite) : (st.write sel x).srseed = st.srseed := Strand.setRbits_srseed _ _ _
@[simp] theorem Strand.write_id (st : Strand) (sel : Nat → Bool) (x : VWrite) : (st.write sel x).id = st.id := Strand.setRbits_id _ _ _
@[simp] theorem Strand.write_gang (st : Strand) (sel : Nat → Bool) (x : VWrite) : (st.write sel x).gang = st.gang := Strand.setRbits_gang _ _ _
@[simp] theorem Strand.write_gangSize (st : Strand) (sel : Nat → Bool) (x : VWrite) : (st.write sel x).gangSize = st.gangSize := Strand.setRbits_gangSize _ _ _
@[simp] theorem Strand.write_core (st : Strand) (sel : Nat → Bool) (x : VWrite) : (st.write sel x).core = st.core := Strand.setRbits_core _ _ _
@[simp] theorem Strand.write_pkg (st : Strand) (sel : Nat → Bool) (x : VWrite) : (st.write sel x).pkg = st.pkg := Strand.setRbits_pkg _ _ _
@[simp] theorem Strand.write_cycle (st : Strand) (sel : Nat → Bool) (x : VWrite) : (st.write sel x).cycle = st.cycle := Strand.setRbits_cycle _ _ _
@[simp] theorem Strand.write_uivec (st : Strand) (sel : Nat → Bool) (x : VWrite) : (st.write sel x).uivec = st.uivec := Strand.setRbits_uivec _ _ _
@[simp] theorem Strand.write_uicause (st : Strand) (sel : Nat → Bool) (x : VWrite) : (st.write sel x).uicause = st.uicause := Strand.setRbits_uicause _ _ _
@[simp] theorem Strand.write_uiepc (st : Strand) (sel : Nat → Bool) (x : VWrite) : (st.write sel x).uiepc = st.uiepc := Strand.setRbits_uiepc _ _ _
@[simp] theorem Strand.write_uiIn (st : Strand) (sel : Nat → Bool) (x : VWrite) : (st.write sel x).uiIn = st.uiIn := Strand.setRbits_uiIn _ _ _
@[simp] theorem Strand.write_enDone (st : Strand) (sel : Nat → Bool) (x : VWrite) : (st.write sel x).enDone = st.enDone := Strand.setRbits_enDone _ _ _
@[simp] theorem Strand.write_enFault (st : Strand) (sel : Nat → Bool) (x : VWrite) : (st.write sel x).enFault = st.enFault := Strand.setRbits_enFault _ _ _
@[simp] theorem Strand.write_enTrapu (st : Strand) (sel : Nat → Bool) (x : VWrite) : (st.write sel x).enTrapu = st.enTrapu := Strand.setRbits_enTrapu _ _ _
@[simp] theorem Strand.write_pDone (st : Strand) (sel : Nat → Bool) (x : VWrite) : (st.write sel x).pDone = st.pDone := Strand.setRbits_pDone _ _ _
@[simp] theorem Strand.write_pFault (st : Strand) (sel : Nat → Bool) (x : VWrite) : (st.write sel x).pFault = st.pFault := Strand.setRbits_pFault _ _ _
@[simp] theorem Strand.write_cxldr (st : Strand) (sel : Nat → Bool) (x : VWrite) : (st.write sel x).cxldr = st.cxldr := Strand.setRbits_cxldr _ _ _
@[simp] theorem Strand.write_tvec (st : Strand) (sel : Nat → Bool) (x : VWrite) : (st.write sel x).tvec = st.tvec := Strand.setRbits_tvec _ _ _
@[simp] theorem Strand.write_tcause (st : Strand) (sel : Nat → Bool) (x : VWrite) : (st.write sel x).tcause = st.tcause := Strand.setRbits_tcause _ _ _
@[simp] theorem Strand.write_tepc (st : Strand) (sel : Nat → Bool) (x : VWrite) : (st.write sel x).tepc = st.tepc := Strand.setRbits_tepc _ _ _
@[simp] theorem Strand.write_tval (st : Strand) (sel : Nat → Bool) (x : VWrite) : (st.write sel x).tval = st.tval := Strand.setRbits_tval _ _ _
@[simp] theorem Strand.write_telem (st : Strand) (sel : Nat → Bool) (x : VWrite) : (st.write sel x).telem = st.telem := Strand.setRbits_telem _ _ _
@[simp] theorem Strand.write_twin (st : Strand) (sel : Nat → Bool) (x : VWrite) : (st.write sel x).twin = st.twin := Strand.setRbits_twin _ _ _
@[simp] theorem Strand.write_ptroot (st : Strand) (sel : Nat → Bool) (x : VWrite) : (st.write sel x).ptroot = st.ptroot := Strand.setRbits_ptroot _ _ _
@[simp] theorem Strand.write_asid (st : Strand) (sel : Nat → Bool) (x : VWrite) : (st.write sel x).asid = st.asid := Strand.setRbits_asid _ _ _
@[simp] theorem Strand.write_wdog (st : Strand) (sel : Nat → Bool) (x : VWrite) : (st.write sel x).wdog = st.wdog := Strand.setRbits_wdog _ _ _
@[simp] theorem Strand.write_estep (st : Strand) (sel : Nat → Bool) (x : VWrite) : (st.write sel x).estep = st.estep := Strand.setRbits_estep _ _ _
@[simp] theorem Strand.write_grantNext (st : Strand) (sel : Nat → Bool) (x : VWrite) : (st.write sel x).grantNext = st.grantNext := Strand.setRbits_grantNext _ _ _
@[simp] theorem Strand.write_grantPend (st : Strand) (sel : Nat → Bool) (x : VWrite) : (st.write sel x).grantPend = st.grantPend := Strand.setRbits_grantPend _ _ _
@[simp] theorem Strand.write_wcount (st : Strand) (sel : Nat → Bool) (x : VWrite) : (st.write sel x).wcount = st.wcount := Strand.setRbits_wcount _ _ _
@[simp] theorem Strand.write_event (st : Strand) (sel : Nat → Bool) (x : VWrite) : (st.write sel x).event = st.event := Strand.setRbits_event _ _ _
@[simp] theorem Strand.write_linkGen (st : Strand) (sel : Nat → Bool) (x : VWrite) : (st.write sel x).linkGen = st.linkGen := Strand.setRbits_linkGen _ _ _
@[simp] theorem Strand.write_usn (st : Strand) (sel : Nat → Bool) (x : VWrite) : (st.write sel x).usn = st.usn := Strand.setRbits_usn _ _ _
@[simp] theorem Strand.write_updq (st : Strand) (sel : Nat → Bool) (x : VWrite) : (st.write sel x).updq = st.updq := Strand.setRbits_updq _ _ _
@[simp] theorem Strand.write_copies (st : Strand) (sel : Nat → Bool) (x : VWrite) : (st.write sel x).copies = st.copies := Strand.setRbits_copies _ _ _
@[simp] theorem Strand.write_copySeq (st : Strand) (sel : Nat → Bool) (x : VWrite) : (st.write sel x).copySeq = st.copySeq := Strand.setRbits_copySeq _ _ _
@[simp] theorem Strand.write_balance (st : Strand) (sel : Nat → Bool) (x : VWrite) : (st.write sel x).balance = st.balance := Strand.setRbits_balance _ _ _
@[simp] theorem Strand.write_slot (st : Strand) (sel : Nat → Bool) (x : VWrite) : (st.write sel x).slot = st.slot := Strand.setRbits_slot _ _ _
@[simp] theorem Strand.write_group (st : Strand) (sel : Nat → Bool) (x : VWrite) : (st.write sel x).group = st.group := Strand.setRbits_group _ _ _
@[simp] theorem Strand.write_core0 (st : Strand) (sel : Nat → Bool) (x : VWrite) : (st.write sel x).core0 = st.core0 := Strand.setRbits_core0 _ _ _
@[simp] theorem Strand.write_arrived (st : Strand) (sel : Nat → Bool) (x : VWrite) : (st.write sel x).arrived = st.arrived := Strand.setRbits_arrived _ _ _
@[simp] theorem Strand.write_stepping (st : Strand) (sel : Nat → Bool) (x : VWrite) : (st.write sel x).stepping = st.stepping := Strand.setRbits_stepping _ _ _
@[simp] theorem Strand.write_stepDone (st : Strand) (sel : Nat → Bool) (x : VWrite) : (st.write sel x).stepDone = st.stepDone := Strand.setRbits_stepDone _ _ _
@[simp] theorem Strand.write_stalled (st : Strand) (sel : Nat → Bool) (x : VWrite) : (st.write sel x).stalled = st.stalled := Strand.setRbits_stalled _ _ _
@[simp] theorem Strand.write_quiet (st : Strand) (sel : Nat → Bool) (x : VWrite) : (st.write sel x).quiet = st.quiet := Strand.setRbits_quiet _ _ _
@[simp] theorem Strand.write_ahead (st : Strand) (sel : Nat → Bool) (x : VWrite) : (st.write sel x).ahead = st.ahead := Strand.setRbits_ahead _ _ _
@[simp] theorem Strand.write_strip (st : Strand) (sel : Nat → Bool) (x : VWrite) : (st.write sel x).strip = st.strip := Strand.setRbits_strip _ _ _
@[simp] theorem Strand.write_stop (st : Strand) (sel : Nat → Bool) (x : VWrite) : (st.write sel x).stop = st.stop := Strand.setRbits_stop _ _ _
@[simp] theorem Strand.write_dying (st : Strand) (sel : Nat → Bool) (x : VWrite) : (st.write sel x).dying = st.dying := Strand.setRbits_dying _ _ _
@[simp] theorem Strand.write_leaving (st : Strand) (sel : Nat → Bool) (x : VWrite) : (st.write sel x).leaving = st.leaving := Strand.setRbits_leaving _ _ _
@[simp] theorem Strand.write_aside (st : Strand) (sel : Nat → Bool) (x : VWrite) : (st.write sel x).aside = st.aside := Strand.setRbits_aside _ _ _
@[simp] theorem Strand.write_away (st : Strand) (sel : Nat → Bool) (x : VWrite) : (st.write sel x).away = st.away := Strand.setRbits_away _ _ _
@[simp] theorem Strand.write_kept (st : Strand) (sel : Nat → Bool) (x : VWrite) : (st.write sel x).kept = st.kept := Strand.setRbits_kept _ _ _
@[simp] theorem Strand.write_late (st : Strand) (sel : Nat → Bool) (x : VWrite) : (st.write sel x).late = st.late := Strand.setRbits_late _ _ _
@[simp] theorem Strand.write_slow (st : Strand) (sel : Nat → Bool) (x : VWrite) : (st.write sel x).slow = st.slow := Strand.setRbits_slow _ _ _

/-! ### Strand.writeTail -/

@[simp] theorem Strand.writeTail_phase (st : Strand) (en : Entry) (x : VWrite) : (st.writeTail en x).phase = st.phase := by
  unfold Strand.writeTail; split <;> (try split) <;> first | rfl | exact Strand.setRbits_phase _ _ _
@[simp] theorem Strand.writeTail_g (st : Strand) (en : Entry) (x : VWrite) : (st.writeTail en x).g = st.g := by
  unfold Strand.writeTail; split <;> (try split) <;> first | rfl | exact Strand.setRbits_g _ _ _
@[simp] theorem Strand.writeTail_pc (st : Strand) (en : Entry) (x : VWrite) : (st.writeTail en x).pc = st.pc := by
  unfold Strand.writeTail; split <;> (try split) <;> first | rfl | exact Strand.setRbits_pc _ _ _
@[simp] theorem Strand.writeTail_sup (st : Strand) (en : Entry) (x : VWrite) : (st.writeTail en x).sup = st.sup := by
  unfold Strand.writeTail; split <;> (try split) <;> first | rfl | exact Strand.setRbits_sup _ _ _
@[simp] theorem Strand.writeTail_t (st : Strand) (en : Entry) (x : VWrite) : (st.writeTail en x).t = st.t := by
  unfold Strand.writeTail; split <;> (try split) <;> first | rfl | exact Strand.setRbits_t _ _ _
@[simp] theorem Strand.writeTail_k (st : Strand) (en : Entry) (x : VWrite) : (st.writeTail en x).k = st.k := by
  unfold Strand.writeTail; split <;> (try split) <;> first | rfl | exact Strand.setRbits_k _ _ _
@[simp] theorem Strand.writeTail_cx (st : Strand) (en : Entry) (x : VWrite) : (st.writeTail en x).cx = st.cx := by
  unfold Strand.writeTail; split <;> (try split) <;> first | rfl | exact Strand.setRbits_cx _ _ _
@[simp] theorem Strand.writeTail_cb (st : Strand) (en : Entry) (x : VWrite) : (st.writeTail en x).cb = st.cb := by
  unfold Strand.writeTail; split <;> (try split) <;> first | rfl | exact Strand.setRbits_cb _ _ _
@[simp] theorem Strand.writeTail_slalom (st : Strand) (en : Entry) (x : VWrite) : (st.writeTail en x).slalom = st.slalom := by
  unfold Strand.writeTail; split <;> (try split) <;> first | rfl | exact Strand.setRbits_slalom _ _ _
@[simp] theorem Strand.writeTail_shadow (st : Strand) (en : Entry) (x : VWrite) : (st.writeTail en x).shadow = st.shadow := by
  unfold Strand.writeTail; split <;> (try split) <;> first | rfl | exact Strand.setRbits_shadow _ _ _
@[simp] theorem Strand.writeTail_window (st : Strand) (en : Entry) (x : VWrite) : (st.writeTail en x).window = st.window := by
  unfold Strand.writeTail; split <;> (try split) <;> first | rfl | exact Strand.setRbits_window _ _ _
@[simp] theorem Strand.writeTail_vl (st : Strand) (en : Entry) (x : VWrite) : (st.writeTail en x).vl = st.vl := by
  unfold Strand.writeTail; split <;> (try split) <;> first | rfl | exact Strand.setRbits_vl _ _ _
@[simp] theorem Strand.writeTail_rl (st : Strand) (en : Entry) (x : VWrite) : (st.writeTail en x).rl = st.rl := by
  unfold Strand.writeTail; split <;> (try split) <;> first | rfl | exact Strand.setRbits_rl _ _ _
@[simp] theorem Strand.writeTail_vtype (st : Strand) (en : Entry) (x : VWrite) : (st.writeTail en x).vtype = st.vtype := by
  unfold Strand.writeTail; split <;> (try split) <;> first | rfl | exact Strand.setRbits_vtype _ _ _
@[simp] theorem Strand.writeTail_gvlen (st : Strand) (en : Entry) (x : VWrite) : (st.writeTail en x).gvlen = st.gvlen := by
  unfold Strand.writeTail; split <;> (try split) <;> first | rfl | exact Strand.setRbits_gvlen _ _ _
@[simp] theorem Strand.writeTail_grsz (st : Strand) (en : Entry) (x : VWrite) : (st.writeTail en x).grsz = st.grsz := by
  unfold Strand.writeTail; split <;> (try split) <;> first | rfl | exact Strand.setRbits_grsz _ _ _
@[simp] theorem Strand.writeTail_frm (st : Strand) (en : Entry) (x : VWrite) : (st.writeTail en x).frm = st.frm := by
  unfold Strand.writeTail; split <;> (try split) <;> first | rfl | exact Strand.setRbits_frm _ _ _
@[simp] theorem Strand.writeTail_fflags (st : Strand) (en : Entry) (x : VWrite) : (st.writeTail en x).fflags = st.fflags := by
  unfold Strand.writeTail; split <;> (try split) <;> first | rfl | exact Strand.setRbits_fflags _ _ _
@[simp] theorem Strand.writeTail_repro (st : Strand) (en : Entry) (x : VWrite) : (st.writeTail en x).repro = st.repro := by
  unfold Strand.writeTail; split <;> (try split) <;> first | rfl | exact Strand.setRbits_repro _ _ _
@[simp] theorem Strand.writeTail_mvl (st : Strand) (en : Entry) (x : VWrite) : (st.writeTail en x).mvl = st.mvl := by
  unfold Strand.writeTail; split <;> (try split) <;> first | rfl | exact Strand.setRbits_mvl _ _ _
@[simp] theorem Strand.writeTail_tetype (st : Strand) (en : Entry) (x : VWrite) : (st.writeTail en x).tetype = st.tetype := by
  unfold Strand.writeTail; split <;> (try split) <;> first | rfl | exact Strand.setRbits_tetype _ _ _
@[simp] theorem Strand.writeTail_tilesOn (st : Strand) (en : Entry) (x : VWrite) : (st.writeTail en x).tilesOn = st.tilesOn := by
  unfold Strand.writeTail; split <;> (try split) <;> first | rfl | exact Strand.setRbits_tilesOn _ _ _
@[simp] theorem Strand.writeTail_tilesAllow (st : Strand) (en : Entry) (x : VWrite) : (st.writeTail en x).tilesAllow = st.tilesAllow := by
  unfold Strand.writeTail; split <;> (try split) <;> first | rfl | exact Strand.setRbits_tilesAllow _ _ _
@[simp] theorem Strand.writeTail_srseed (st : Strand) (en : Entry) (x : VWrite) : (st.writeTail en x).srseed = st.srseed := by
  unfold Strand.writeTail; split <;> (try split) <;> first | rfl | exact Strand.setRbits_srseed _ _ _
@[simp] theorem Strand.writeTail_id (st : Strand) (en : Entry) (x : VWrite) : (st.writeTail en x).id = st.id := by
  unfold Strand.writeTail; split <;> (try split) <;> first | rfl | exact Strand.setRbits_id _ _ _
@[simp] theorem Strand.writeTail_gang (st : Strand) (en : Entry) (x : VWrite) : (st.writeTail en x).gang = st.gang := by
  unfold Strand.writeTail; split <;> (try split) <;> first | rfl | exact Strand.setRbits_gang _ _ _
@[simp] theorem Strand.writeTail_gangSize (st : Strand) (en : Entry) (x : VWrite) : (st.writeTail en x).gangSize = st.gangSize := by
  unfold Strand.writeTail; split <;> (try split) <;> first | rfl | exact Strand.setRbits_gangSize _ _ _
@[simp] theorem Strand.writeTail_core (st : Strand) (en : Entry) (x : VWrite) : (st.writeTail en x).core = st.core := by
  unfold Strand.writeTail; split <;> (try split) <;> first | rfl | exact Strand.setRbits_core _ _ _
@[simp] theorem Strand.writeTail_pkg (st : Strand) (en : Entry) (x : VWrite) : (st.writeTail en x).pkg = st.pkg := by
  unfold Strand.writeTail; split <;> (try split) <;> first | rfl | exact Strand.setRbits_pkg _ _ _
@[simp] theorem Strand.writeTail_cycle (st : Strand) (en : Entry) (x : VWrite) : (st.writeTail en x).cycle = st.cycle := by
  unfold Strand.writeTail; split <;> (try split) <;> first | rfl | exact Strand.setRbits_cycle _ _ _
@[simp] theorem Strand.writeTail_uivec (st : Strand) (en : Entry) (x : VWrite) : (st.writeTail en x).uivec = st.uivec := by
  unfold Strand.writeTail; split <;> (try split) <;> first | rfl | exact Strand.setRbits_uivec _ _ _
@[simp] theorem Strand.writeTail_uicause (st : Strand) (en : Entry) (x : VWrite) : (st.writeTail en x).uicause = st.uicause := by
  unfold Strand.writeTail; split <;> (try split) <;> first | rfl | exact Strand.setRbits_uicause _ _ _
@[simp] theorem Strand.writeTail_uiepc (st : Strand) (en : Entry) (x : VWrite) : (st.writeTail en x).uiepc = st.uiepc := by
  unfold Strand.writeTail; split <;> (try split) <;> first | rfl | exact Strand.setRbits_uiepc _ _ _
@[simp] theorem Strand.writeTail_uiIn (st : Strand) (en : Entry) (x : VWrite) : (st.writeTail en x).uiIn = st.uiIn := by
  unfold Strand.writeTail; split <;> (try split) <;> first | rfl | exact Strand.setRbits_uiIn _ _ _
@[simp] theorem Strand.writeTail_enDone (st : Strand) (en : Entry) (x : VWrite) : (st.writeTail en x).enDone = st.enDone := by
  unfold Strand.writeTail; split <;> (try split) <;> first | rfl | exact Strand.setRbits_enDone _ _ _
@[simp] theorem Strand.writeTail_enFault (st : Strand) (en : Entry) (x : VWrite) : (st.writeTail en x).enFault = st.enFault := by
  unfold Strand.writeTail; split <;> (try split) <;> first | rfl | exact Strand.setRbits_enFault _ _ _
@[simp] theorem Strand.writeTail_enTrapu (st : Strand) (en : Entry) (x : VWrite) : (st.writeTail en x).enTrapu = st.enTrapu := by
  unfold Strand.writeTail; split <;> (try split) <;> first | rfl | exact Strand.setRbits_enTrapu _ _ _
@[simp] theorem Strand.writeTail_pDone (st : Strand) (en : Entry) (x : VWrite) : (st.writeTail en x).pDone = st.pDone := by
  unfold Strand.writeTail; split <;> (try split) <;> first | rfl | exact Strand.setRbits_pDone _ _ _
@[simp] theorem Strand.writeTail_pFault (st : Strand) (en : Entry) (x : VWrite) : (st.writeTail en x).pFault = st.pFault := by
  unfold Strand.writeTail; split <;> (try split) <;> first | rfl | exact Strand.setRbits_pFault _ _ _
@[simp] theorem Strand.writeTail_cxldr (st : Strand) (en : Entry) (x : VWrite) : (st.writeTail en x).cxldr = st.cxldr := by
  unfold Strand.writeTail; split <;> (try split) <;> first | rfl | exact Strand.setRbits_cxldr _ _ _
@[simp] theorem Strand.writeTail_tvec (st : Strand) (en : Entry) (x : VWrite) : (st.writeTail en x).tvec = st.tvec := by
  unfold Strand.writeTail; split <;> (try split) <;> first | rfl | exact Strand.setRbits_tvec _ _ _
@[simp] theorem Strand.writeTail_tcause (st : Strand) (en : Entry) (x : VWrite) : (st.writeTail en x).tcause = st.tcause := by
  unfold Strand.writeTail; split <;> (try split) <;> first | rfl | exact Strand.setRbits_tcause _ _ _
@[simp] theorem Strand.writeTail_tepc (st : Strand) (en : Entry) (x : VWrite) : (st.writeTail en x).tepc = st.tepc := by
  unfold Strand.writeTail; split <;> (try split) <;> first | rfl | exact Strand.setRbits_tepc _ _ _
@[simp] theorem Strand.writeTail_tval (st : Strand) (en : Entry) (x : VWrite) : (st.writeTail en x).tval = st.tval := by
  unfold Strand.writeTail; split <;> (try split) <;> first | rfl | exact Strand.setRbits_tval _ _ _
@[simp] theorem Strand.writeTail_telem (st : Strand) (en : Entry) (x : VWrite) : (st.writeTail en x).telem = st.telem := by
  unfold Strand.writeTail; split <;> (try split) <;> first | rfl | exact Strand.setRbits_telem _ _ _
@[simp] theorem Strand.writeTail_twin (st : Strand) (en : Entry) (x : VWrite) : (st.writeTail en x).twin = st.twin := by
  unfold Strand.writeTail; split <;> (try split) <;> first | rfl | exact Strand.setRbits_twin _ _ _
@[simp] theorem Strand.writeTail_ptroot (st : Strand) (en : Entry) (x : VWrite) : (st.writeTail en x).ptroot = st.ptroot := by
  unfold Strand.writeTail; split <;> (try split) <;> first | rfl | exact Strand.setRbits_ptroot _ _ _
@[simp] theorem Strand.writeTail_asid (st : Strand) (en : Entry) (x : VWrite) : (st.writeTail en x).asid = st.asid := by
  unfold Strand.writeTail; split <;> (try split) <;> first | rfl | exact Strand.setRbits_asid _ _ _
@[simp] theorem Strand.writeTail_wdog (st : Strand) (en : Entry) (x : VWrite) : (st.writeTail en x).wdog = st.wdog := by
  unfold Strand.writeTail; split <;> (try split) <;> first | rfl | exact Strand.setRbits_wdog _ _ _
@[simp] theorem Strand.writeTail_estep (st : Strand) (en : Entry) (x : VWrite) : (st.writeTail en x).estep = st.estep := by
  unfold Strand.writeTail; split <;> (try split) <;> first | rfl | exact Strand.setRbits_estep _ _ _
@[simp] theorem Strand.writeTail_grantNext (st : Strand) (en : Entry) (x : VWrite) : (st.writeTail en x).grantNext = st.grantNext := by
  unfold Strand.writeTail; split <;> (try split) <;> first | rfl | exact Strand.setRbits_grantNext _ _ _
@[simp] theorem Strand.writeTail_grantPend (st : Strand) (en : Entry) (x : VWrite) : (st.writeTail en x).grantPend = st.grantPend := by
  unfold Strand.writeTail; split <;> (try split) <;> first | rfl | exact Strand.setRbits_grantPend _ _ _
@[simp] theorem Strand.writeTail_wcount (st : Strand) (en : Entry) (x : VWrite) : (st.writeTail en x).wcount = st.wcount := by
  unfold Strand.writeTail; split <;> (try split) <;> first | rfl | exact Strand.setRbits_wcount _ _ _
@[simp] theorem Strand.writeTail_event (st : Strand) (en : Entry) (x : VWrite) : (st.writeTail en x).event = st.event := by
  unfold Strand.writeTail; split <;> (try split) <;> first | rfl | exact Strand.setRbits_event _ _ _
@[simp] theorem Strand.writeTail_linkGen (st : Strand) (en : Entry) (x : VWrite) : (st.writeTail en x).linkGen = st.linkGen := by
  unfold Strand.writeTail; split <;> (try split) <;> first | rfl | exact Strand.setRbits_linkGen _ _ _
@[simp] theorem Strand.writeTail_usn (st : Strand) (en : Entry) (x : VWrite) : (st.writeTail en x).usn = st.usn := by
  unfold Strand.writeTail; split <;> (try split) <;> first | rfl | exact Strand.setRbits_usn _ _ _
@[simp] theorem Strand.writeTail_updq (st : Strand) (en : Entry) (x : VWrite) : (st.writeTail en x).updq = st.updq := by
  unfold Strand.writeTail; split <;> (try split) <;> first | rfl | exact Strand.setRbits_updq _ _ _
@[simp] theorem Strand.writeTail_copies (st : Strand) (en : Entry) (x : VWrite) : (st.writeTail en x).copies = st.copies := by
  unfold Strand.writeTail; split <;> (try split) <;> first | rfl | exact Strand.setRbits_copies _ _ _
@[simp] theorem Strand.writeTail_copySeq (st : Strand) (en : Entry) (x : VWrite) : (st.writeTail en x).copySeq = st.copySeq := by
  unfold Strand.writeTail; split <;> (try split) <;> first | rfl | exact Strand.setRbits_copySeq _ _ _
@[simp] theorem Strand.writeTail_balance (st : Strand) (en : Entry) (x : VWrite) : (st.writeTail en x).balance = st.balance := by
  unfold Strand.writeTail; split <;> (try split) <;> first | rfl | exact Strand.setRbits_balance _ _ _
@[simp] theorem Strand.writeTail_slot (st : Strand) (en : Entry) (x : VWrite) : (st.writeTail en x).slot = st.slot := by
  unfold Strand.writeTail; split <;> (try split) <;> first | rfl | exact Strand.setRbits_slot _ _ _
@[simp] theorem Strand.writeTail_group (st : Strand) (en : Entry) (x : VWrite) : (st.writeTail en x).group = st.group := by
  unfold Strand.writeTail; split <;> (try split) <;> first | rfl | exact Strand.setRbits_group _ _ _
@[simp] theorem Strand.writeTail_core0 (st : Strand) (en : Entry) (x : VWrite) : (st.writeTail en x).core0 = st.core0 := by
  unfold Strand.writeTail; split <;> (try split) <;> first | rfl | exact Strand.setRbits_core0 _ _ _
@[simp] theorem Strand.writeTail_arrived (st : Strand) (en : Entry) (x : VWrite) : (st.writeTail en x).arrived = st.arrived := by
  unfold Strand.writeTail; split <;> (try split) <;> first | rfl | exact Strand.setRbits_arrived _ _ _
@[simp] theorem Strand.writeTail_stepping (st : Strand) (en : Entry) (x : VWrite) : (st.writeTail en x).stepping = st.stepping := by
  unfold Strand.writeTail; split <;> (try split) <;> first | rfl | exact Strand.setRbits_stepping _ _ _
@[simp] theorem Strand.writeTail_stepDone (st : Strand) (en : Entry) (x : VWrite) : (st.writeTail en x).stepDone = st.stepDone := by
  unfold Strand.writeTail; split <;> (try split) <;> first | rfl | exact Strand.setRbits_stepDone _ _ _
@[simp] theorem Strand.writeTail_stalled (st : Strand) (en : Entry) (x : VWrite) : (st.writeTail en x).stalled = st.stalled := by
  unfold Strand.writeTail; split <;> (try split) <;> first | rfl | exact Strand.setRbits_stalled _ _ _
@[simp] theorem Strand.writeTail_quiet (st : Strand) (en : Entry) (x : VWrite) : (st.writeTail en x).quiet = st.quiet := by
  unfold Strand.writeTail; split <;> (try split) <;> first | rfl | exact Strand.setRbits_quiet _ _ _
@[simp] theorem Strand.writeTail_ahead (st : Strand) (en : Entry) (x : VWrite) : (st.writeTail en x).ahead = st.ahead := by
  unfold Strand.writeTail; split <;> (try split) <;> first | rfl | exact Strand.setRbits_ahead _ _ _
@[simp] theorem Strand.writeTail_strip (st : Strand) (en : Entry) (x : VWrite) : (st.writeTail en x).strip = st.strip := by
  unfold Strand.writeTail; split <;> (try split) <;> first | rfl | exact Strand.setRbits_strip _ _ _
@[simp] theorem Strand.writeTail_stop (st : Strand) (en : Entry) (x : VWrite) : (st.writeTail en x).stop = st.stop := by
  unfold Strand.writeTail; split <;> (try split) <;> first | rfl | exact Strand.setRbits_stop _ _ _
@[simp] theorem Strand.writeTail_dying (st : Strand) (en : Entry) (x : VWrite) : (st.writeTail en x).dying = st.dying := by
  unfold Strand.writeTail; split <;> (try split) <;> first | rfl | exact Strand.setRbits_dying _ _ _
@[simp] theorem Strand.writeTail_leaving (st : Strand) (en : Entry) (x : VWrite) : (st.writeTail en x).leaving = st.leaving := by
  unfold Strand.writeTail; split <;> (try split) <;> first | rfl | exact Strand.setRbits_leaving _ _ _
@[simp] theorem Strand.writeTail_aside (st : Strand) (en : Entry) (x : VWrite) : (st.writeTail en x).aside = st.aside := by
  unfold Strand.writeTail; split <;> (try split) <;> first | rfl | exact Strand.setRbits_aside _ _ _
@[simp] theorem Strand.writeTail_away (st : Strand) (en : Entry) (x : VWrite) : (st.writeTail en x).away = st.away := by
  unfold Strand.writeTail; split <;> (try split) <;> first | rfl | exact Strand.setRbits_away _ _ _
@[simp] theorem Strand.writeTail_kept (st : Strand) (en : Entry) (x : VWrite) : (st.writeTail en x).kept = st.kept := by
  unfold Strand.writeTail; split <;> (try split) <;> first | rfl | exact Strand.setRbits_kept _ _ _
@[simp] theorem Strand.writeTail_late (st : Strand) (en : Entry) (x : VWrite) : (st.writeTail en x).late = st.late := by
  unfold Strand.writeTail; split <;> (try split) <;> first | rfl | exact Strand.setRbits_late _ _ _
@[simp] theorem Strand.writeTail_slow (st : Strand) (en : Entry) (x : VWrite) : (st.writeTail en x).slow = st.slow := by
  unfold Strand.writeTail; split <;> (try split) <;> first | rfl | exact Strand.setRbits_slow _ _ _

end Sys2Proof.Machine
end

