-- ==== Sys2Proof/Laws/Memory.lean ====
section
/-! SUPPORT. Sparse maps and raw memory: reads after writes, and the canonical form that every memory operation keeps. -/

set_option Elab.async false

namespace Sys2Proof.Machine

/-! ### Sparse maps -/

section
variable {α : Type} [DecidableEq α] {d : α}

theorem Sparse.wfFrom_mono {m : Sparse α} {a b : Nat} (h : a ≤ b) (hw : Sparse.wfFrom d b m = true) :
    Sparse.wfFrom d a m = true := by
  cases m with
  | nil => rfl
  | cons p r => simp only [Sparse.wfFrom, Bool.and_eq_true, decide_eq_true_eq] at hw ⊢; exact ⟨⟨by omega, hw.1.2⟩, hw.2⟩

/-- Below its first key a canonical map holds the default. -/
theorem Sparse.get_below {m : Sparse α} {lo k : Nat} (hw : Sparse.wfFrom d lo m = true) (h : k < lo) :
    Sparse.get d m k = d := by
  induction m generalizing lo with
  | nil => rfl
  | cons p r ih =>
    simp only [Sparse.wfFrom, Bool.and_eq_true, decide_eq_true_eq] at hw
    unfold Sparse.get
    rw [if_neg (by omega)]
    exact ih hw.2 (by omega)

/-- What is put is what is got. -/
theorem Sparse.get_put_same {m : Sparse α} {lo : Nat} (hw : Sparse.wfFrom d lo m = true) (k : Nat) (x : α) :
    Sparse.get d (Sparse.put d m k x) k = x := by
  induction m generalizing lo with
  | nil => unfold Sparse.put; split <;> simp_all [Sparse.get]
  | cons p r ih =>
    simp only [Sparse.wfFrom, Bool.and_eq_true, decide_eq_true_eq] at hw
    unfold Sparse.put
    by_cases h1 : p.1 < k
    · rw [if_pos h1, Sparse.get, if_neg (by omega)]; exact ih hw.2
    · rw [if_neg h1]
      by_cases h2 : p.1 = k
      · rw [if_pos h2]
        by_cases h3 : x = d
        · rw [if_pos h3, h3]; exact Sparse.get_below hw.2 (by omega)
        · rw [if_neg h3]; simp [Sparse.get]
      · rw [if_neg h2]
        by_cases h3 : x = d
        · rw [if_pos h3, Sparse.get, if_neg h2, h3]; exact Sparse.get_below hw.2 (by omega)
        · rw [if_neg h3]; simp [Sparse.get]

/-- Putting at one key leaves every other key alone. -/
theorem Sparse.get_put_other (m : Sparse α) {k j : Nat} (h : j ≠ k) (x : α) :
    Sparse.get d (Sparse.put d m k x) j = Sparse.get d m j := by
  induction m with
  | nil => unfold Sparse.put; split <;> simp [Sparse.get]; omega
  | cons p r ih =>
    unfold Sparse.put
    by_cases h1 : p.1 < k
    · rw [if_pos h1, Sparse.get, Sparse.get]; split <;> simp_all
    · rw [if_neg h1]
      by_cases h2 : p.1 = k
      · rw [if_pos h2]
        by_cases h3 : x = d
        · rw [if_pos h3]; conv => rhs; unfold Sparse.get
          rw [if_neg (by omega)]
        · rw [if_neg h3, Sparse.get, Sparse.get, if_neg (by simpa using fun e => h e.symm), if_neg (by omega)]
      · rw [if_neg h2]
        by_cases h3 : x = d
        · rw [if_pos h3]
        · rw [if_neg h3, Sparse.get, if_neg (by simpa using fun e => h e.symm)]

/-- Putting keeps the canonical form. -/
theorem Sparse.wfFrom_put {m : Sparse α} {lo k : Nat} (hw : Sparse.wfFrom d lo m = true) (h : lo ≤ k) (x : α) :
    Sparse.wfFrom d lo (Sparse.put d m k x) = true := by
  induction m generalizing lo with
  | nil => unfold Sparse.put; split <;> simp_all [Sparse.wfFrom]
  | cons p r ih =>
    simp only [Sparse.wfFrom, Bool.and_eq_true, decide_eq_true_eq] at hw
    unfold Sparse.put
    by_cases h1 : p.1 < k
    · rw [if_pos h1]
      simp only [Sparse.wfFrom, Bool.and_eq_true, decide_eq_true_eq]
      exact ⟨hw.1, ih hw.2 (by omega)⟩
    · rw [if_neg h1]
      by_cases h2 : p.1 = k
      · rw [if_pos h2]
        by_cases h3 : x = d
        · rw [if_pos h3]; exact Sparse.wfFrom_mono (by omega) hw.2
        · rw [if_neg h3]; simp only [Sparse.wfFrom, Bool.and_eq_true, decide_eq_true_eq]
          exact ⟨⟨by omega, h3⟩, by rw [← h2]; exact hw.2⟩
      · rw [if_neg h2]
        by_cases h3 : x = d
        · rw [if_pos h3]; simp only [Sparse.wfFrom, Bool.and_eq_true, decide_eq_true_eq]; exact hw
        · rw [if_neg h3]; simp only [Sparse.wfFrom, Bool.and_eq_true, decide_eq_true_eq]
          exact ⟨⟨by omega, h3⟩, ⟨by omega, hw.1.2⟩, hw.2⟩

theorem Sparse.wf_put {m : Sparse α} (hw : Sparse.wf d m = true) (k : Nat) (x : α) :
    Sparse.wf d (Sparse.put d m k x) = true := Sparse.wfFrom_put hw (Nat.zero_le k) x

/-- Dropping entries keeps the canonical form. -/
theorem Sparse.wfFrom_filter {m : Sparse α} {lo : Nat} (q : Nat × α → Bool) (hw : Sparse.wfFrom d lo m = true) :
    Sparse.wfFrom d lo (m.filter q) = true := by
  induction m generalizing lo with
  | nil => rfl
  | cons p r ih =>
    simp only [Sparse.wfFrom, Bool.and_eq_true, decide_eq_true_eq] at hw
    rw [List.filter_cons]
    split
    · simp only [Sparse.wfFrom, Bool.and_eq_true, decide_eq_true_eq]; exact ⟨hw.1, ih hw.2⟩
    · exact Sparse.wfFrom_mono (by omega) (ih hw.2)

theorem Sparse.wf_filter {m : Sparse α} (q : Nat × α → Bool) (hw : Sparse.wf d m = true) :
    Sparse.wf d (m.filter q) = true := Sparse.wfFrom_filter q hw

end

theorem Sparse.wf_poke {m : Sparse Byte} (h : Sparse.wf 0 m = true) (a n x : Nat) : Sparse.wf 0 (Sparse.poke m a n x) = true := by
  induction n generalizing m a x with
  | zero => exact h
  | succ n ih =>
    unfold Sparse.poke
    split
    · exact h
    · exact ih (Sparse.wf_put h _ _) _ _

theorem Sparse.wf_pokes {m : Sparse Byte} (h : Sparse.wf 0 m = true) (base len : Nat) (l : List (Nat × Nat)) :
    Sparse.wf 0 (l.foldl (fun m f => Sparse.poke m (base + f.1) len f.2) m) = true := by
  induction l generalizing m with
  | nil => exact h
  | cons f t ih => exact ih (Sparse.wf_poke h _ _ _)

theorem Sparse.wf_block {m : Sparse Byte} (h : Sparse.wf 0 m = true) (base len : Nat) (l : List (Nat × Nat)) :
    Sparse.wf 0 (Sparse.block m base len l) = true :=
  Sparse.wf_pokes (Sparse.wf_filter _ h) _ _ _

/-! ### Bytes -/

/-- The three parts of the canonical form. -/
theorem Memory.wf_iff (s : State) :
    Memory.wf s = true ↔ Sparse.wf 0 s.mem = true ∧ Sparse.wf 0 s.hostMem = true ∧ Sparse.wf 0 s.ws = true := by
  simp [Memory.wf, and_assoc]

theorem State.byte_setByte_same {s : State} (h : Memory.wf s = true) (pa : Nat) (b : Byte) : (s.setByte pa b).byte pa = b :=
  Sparse.get_put_same ((Memory.wf_iff s).1 h).1 pa b

theorem State.byte_setByte_other (s : State) {pa a : Nat} (h : a ≠ pa) (b : Byte) : (s.setByte pa b).byte a = s.byte a :=
  Sparse.get_put_other s.mem h b

theorem State.hostByte_setHostByte_same {s : State} (h : Memory.wf s = true) (a : Nat) (b : Byte) :
    (s.setHostByte a b).hostByte a = b :=
  Sparse.get_put_same ((Memory.wf_iff s).1 h).2.1 a b

theorem State.hostByte_setHostByte_other (s : State) {a x : Nat} (h : x ≠ a) (b : Byte) :
    (s.setHostByte a b).hostByte x = s.hostByte x :=
  Sparse.get_put_other s.hostMem h b

theorem State.wf_setByte {s : State} (h : Memory.wf s = true) (pa : Nat) (b : Byte) : Memory.wf (s.setByte pa b) = true := by
  rw [Memory.wf_iff] at h ⊢; exact ⟨Sparse.wf_put h.1 pa b, h.2⟩

theorem State.wf_setHostByte {s : State} (h : Memory.wf s = true) (a : Nat) (b : Byte) :
    Memory.wf (s.setHostByte a b) = true := by
  rw [Memory.wf_iff] at h ⊢; exact ⟨h.1, Sparse.wf_put h.2.1 a b, h.2.2⟩

theorem State.wf_setWsByte {s : State} (h : Memory.wf s = true) (a : Nat) (b : Byte) :
    Memory.wf (s.setWsByte a b) = true := by
  rw [Memory.wf_iff] at h ⊢; exact ⟨h.1, h.2.1, Sparse.wf_put h.2.2 a b⟩

/-! ### Runs of bytes -/

theorem State.wf_rawWrite {s : State} (h : Memory.wf s = true) (pa n x : Nat) : Memory.wf (s.rawWrite pa n x) = true := by
  induction n generalizing s pa x with
  | zero => exact h
  | succ n ih => exact ih (State.wf_setByte h _ _) _ _

theorem State.wf_hostRawWrite {s : State} (h : Memory.wf s = true) (a n x : Nat) :
    Memory.wf (s.hostRawWrite a n x) = true := by
  induction n generalizing s a x with
  | zero => exact h
  | succ n ih => exact ih (State.wf_setHostByte h _ _) _ _

/-- A byte outside a write is as before. -/
theorem State.byte_rawWrite_out (s : State) (pa n x : Nat) {a : Nat} (h : a < pa ∨ pa + n ≤ a) :
    (s.rawWrite pa n x).byte a = s.byte a := by
  induction n generalizing s pa x with
  | zero => rfl
  | succ n ih =>
    unfold State.rawWrite
    rw [ih _ _ _ (by omega), State.byte_setByte_other _ (by omega)]

/-- Byte `i` of a write is byte `i` of the value. -/
theorem State.byte_rawWrite_in {s : State} (h : Memory.wf s = true) (pa n x : Nat) {i : Nat} (hi : i < n) :
    (s.rawWrite pa n x).byte (pa + i) = BitVec.ofNat 8 (x / 256 ^ i) := by
  induction n generalizing s pa x i with
  | zero => omega
  | succ n ih =>
    unfold State.rawWrite
    cases i with
    | zero => rw [State.byte_rawWrite_out _ _ _ _ (by omega)]; simpa using State.byte_setByte_same h pa _
    | succ i =>
      have := ih (State.wf_setByte h pa (BitVec.ofNat 8 x)) (pa + 1) (x / 256) (i := i) (by omega)
      rw [show pa + (i + 1) = pa + 1 + i by omega, this, Nat.div_div_eq_div_mul, Nat.pow_succ, Nat.mul_comm]

theorem leBytes_congr {f g : Nat → Byte} {a n : Nat} (h : ∀ i, i < n → f (a + i) = g (a + i)) : leBytes f a n = leBytes g a n := by
  induction n generalizing a with
  | zero => rfl
  | succ n ih =>
    unfold leBytes
    rw [show f a = g a from h 0 (by omega),
      ih fun i hi => by simpa [Nat.add_assoc, Nat.add_comm 1] using h (i + 1) (by omega)]

theorem leBytes_bytes {f : Nat → Byte} {a n x : Nat} (h : ∀ i, i < n → f (a + i) = BitVec.ofNat 8 (x / 256 ^ i)) :
    leBytes f a n = x % 256 ^ n := by
  induction n generalizing a x with
  | zero => simp [leBytes, Nat.mod_one]
  | succ n ih =>
    unfold leBytes
    have h0 := h 0 (by omega)
    have h1 : leBytes f (a + 1) n = x / 256 % 256 ^ n := ih fun i hi => by
      have := h (i + 1) (by omega)
      rw [show a + 1 + i = a + (i + 1) by omega, this, Nat.div_div_eq_div_mul, Nat.pow_succ, Nat.mul_comm]
    simp only [Nat.add_zero, Nat.pow_zero, Nat.div_one] at h0
    have e : 256 ^ (n + 1) = 256 * 256 ^ n := Nat.pow_succ'
    rw [h0, h1, BitVec.toNat_ofNat, e]
    exact (Nat.mod_mul (x := x) (a := 256) (b := 256 ^ n)).symm

/-- A read after a write of the same bytes gives the value, as far as the bytes hold it. -/
theorem State.rawRead_rawWrite_same {s : State} (h : Memory.wf s = true) (pa n x : Nat) :
    (s.rawWrite pa n x).rawRead pa n = x % 256 ^ n :=
  leBytes_bytes fun _ hi => State.byte_rawWrite_in h pa n x hi

/-- A read of bytes that a write leaves alone is as before. -/
theorem State.rawRead_rawWrite_other (s : State) (pa n x a k : Nat) (h : a + k ≤ pa ∨ pa + n ≤ a) :
    (s.rawWrite pa n x).rawRead a k = s.rawRead a k :=
  leBytes_congr fun _ hi => State.byte_rawWrite_out s pa n x (by omega)

/-! ### What the updates of memory leave -/

theorem State.rawWrite_rest (s : State) (pa n x : Nat) : s.rawWrite pa n x = { s with mem := (s.rawWrite pa n x).mem } := by
  induction n generalizing s pa x with
  | zero => rfl
  | succ n ih => unfold State.rawWrite; rw [ih]; simp [State.setByte]

theorem State.hostRawWrite_rest (s : State) (a n x : Nat) :
    s.hostRawWrite a n x = { s with hostMem := (s.hostRawWrite a n x).hostMem } := by
  induction n generalizing s a x with
  | zero => rfl
  | succ n ih => unfold State.hostRawWrite; rw [ih]; simp [State.setHostByte]

@[simp] theorem State.rawWrite_cur (s : State) (pa n x : Nat) : (s.rawWrite pa n x).cur = s.cur := by
  rw [State.rawWrite_rest]
@[simp] theorem State.rawWrite_gangs (s : State) (pa n x : Nat) : (s.rawWrite pa n x).gangs = s.gangs := by
  rw [State.rawWrite_rest]
@[simp] theorem State.rawWrite_poison (s : State) (pa n x : Nat) : (s.rawWrite pa n x).poison = s.poison := by
  rw [State.rawWrite_rest]
@[simp] theorem State.hostRawWrite_cur (s : State) (a n x : Nat) : (s.hostRawWrite a n x).cur = s.cur := by
  rw [State.hostRawWrite_rest]
@[simp] theorem State.hostRawWrite_mem (s : State) (a n x : Nat) : (s.hostRawWrite a n x).mem = s.mem := by
  rw [State.hostRawWrite_rest]

/-- Reset memory is in canonical form. -/
theorem State.wf_reset : Memory.wf State.reset = true := rfl

end Sys2Proof.Machine
end

