-- ==== Sys2Proof/Laws/Bits.lean ====
section
/-! SUPPORT. Bit strings by units, elements of registers, and what an instruction's writes leave in a register. -/

set_option Elab.async false

namespace Sys2Proof.Machine

/-! ### Units of a bit string -/

theorem bitsAt_lt (x w e : Nat) : bitsAt x w e < 2 ^ w := Nat.mod_lt _ (Nat.two_pow_pos w)

theorem bitsAt_testBit (x w e i : Nat) : (bitsAt x w e).testBit i = (decide (i < w) && x.testBit (w * e + i)) := by
  unfold bitsAt
  rw [Nat.testBit_mod_two_pow, Nat.testBit_shiftRight]

/-- A replaced unit stands between the bits below it and those above it. -/
theorem putBits_split (x w e v : Nat) :
    putBits x w e v = 2 ^ (w * e) * (2 ^ w * (x / 2 ^ (w * e) / 2 ^ w) + v % 2 ^ w) + x % 2 ^ (w * e) := by
  unfold putBits bitsAt
  rw [Nat.shiftLeft_eq, Nat.shiftLeft_eq, Nat.shiftRight_eq_div_pow]
  have h1 := Nat.div_add_mod x (2 ^ (w * e))
  have h2 := Nat.div_add_mod (x / 2 ^ (w * e)) (2 ^ w)
  generalize x / 2 ^ (w * e) = y at *
  generalize y / 2 ^ w = z at *
  generalize y % 2 ^ w = u at *
  generalize x % 2 ^ (w * e) = l at *
  generalize 2 ^ (w * e) = p at *
  subst h2
  rw [← h1, Nat.mul_add, Nat.mul_add]
  have : u * p = p * u := Nat.mul_comm _ _
  have : v % 2 ^ w * p = p * (v % 2 ^ w) := Nat.mul_comm _ _
  omega

/-- Bit by bit, a replaced unit. -/
theorem putBits_testBit (x w e v i : Nat) :
    (putBits x w e v).testBit i =
      if w * e ≤ i ∧ i < w * e + w then v.testBit (i - w * e) else x.testBit i := by
  rw [putBits_split, Nat.testBit_two_pow_mul_add _ (Nat.mod_lt _ (Nat.two_pow_pos _))]
  by_cases h1 : i < w * e
  · rw [if_pos h1, if_neg (by omega), Nat.testBit_mod_two_pow]; simp [h1]
  · rw [if_neg h1, Nat.testBit_two_pow_mul_add _ (Nat.mod_lt _ (Nat.two_pow_pos _))]
    by_cases h2 : i - w * e < w
    · rw [if_pos h2, if_pos (by omega), Nat.testBit_mod_two_pow]; simp [h2]
    · rw [if_neg h2, if_neg (by omega), Nat.testBit_div_two_pow, Nat.testBit_div_two_pow]
      congr 1; omega

/-- The unit that was put, as far as it holds the value. -/
theorem bitsAt_putBits_same (x w e v : Nat) : bitsAt (putBits x w e v) w e = v % 2 ^ w := by
  apply Nat.eq_of_testBit_eq
  intro i
  rw [bitsAt_testBit, putBits_testBit, Nat.testBit_mod_two_pow]
  by_cases h : i < w
  · rw [if_pos (by omega)]; simp [h]
  · simp [h]

/-- Every other unit of the same width is as before. -/
theorem bitsAt_putBits_other (x w e v : Nat) {j : Nat} (h : j ≠ e) : bitsAt (putBits x w e v) w j = bitsAt x w j := by
  apply Nat.eq_of_testBit_eq
  intro i
  rw [bitsAt_testBit, bitsAt_testBit, putBits_testBit]
  by_cases hi : i < w
  · rw [if_neg]
    rintro ⟨h1, h2⟩
    rcases Nat.lt_or_gt_of_ne h with hj | hj
    · have := Nat.mul_le_mul_left w (Nat.succ_le_of_lt hj)
      rw [Nat.mul_succ] at this; omega
    · have := Nat.mul_le_mul_left w (Nat.succ_le_of_lt hj)
      rw [Nat.mul_succ] at this; omega
  · simp [hi]

/-- A unit put below 2^k bits stays below. -/
theorem putBits_lt {x w e v k : Nat} (hx : x < 2 ^ k) (h : w * e + w ≤ k) : putBits x w e v < 2 ^ k := by
  apply Nat.lt_pow_two_of_testBit
  intro i hi
  rw [putBits_testBit, if_neg (by omega)]
  exact Nat.testBit_lt_two_pow (Nat.lt_of_lt_of_le hx (Nat.pow_le_pow_right (by omega) hi))

/-! ### Elements of registers -/

theorem Strand.vbits_lt (st : Strand) (r : BitVec 5) : st.vbits r < 2 ^ 262144 := (st.v[r.toNat]'r.isLt).isLt
theorem Strand.mbits_lt (st : Strand) (r : BitVec 3) : st.mbits r < 2 ^ 32768 := (st.m[r.toNat]'r.isLt).isLt

theorem Strand.vbits_setVbits_same (st : Strand) (r : BitVec 5) (x : Nat) :
    (st.setVbits r x).vbits r = x % 2 ^ 262144 := by
  unfold Strand.vbits Strand.setVbits
  rw [Vector.getElem_set_self]
  exact BitVec.toNat_ofNat _ _

theorem Strand.vbits_setVbits_other (st : Strand) {r q : BitVec 5} (h : q ≠ r) (x : Nat) :
    (st.setVbits r x).vbits q = st.vbits q := by
  unfold Strand.vbits Strand.setVbits
  simp only
  rw [Vector.getElem_set_ne _ _ (fun e => h (BitVec.eq_of_toNat_eq e.symm))]

theorem Strand.mbits_setMbits_same (st : Strand) (r : BitVec 3) (x : Nat) :
    (st.setMbits r x).mbits r = x % 2 ^ 32768 := by
  unfold Strand.mbits Strand.setMbits
  rw [Vector.getElem_set_self]
  exact BitVec.toNat_ofNat _ _

theorem Strand.mbits_setMbits_other (st : Strand) {r q : BitVec 3} (h : q ≠ r) (x : Nat) :
    (st.setMbits r x).mbits q = st.mbits q := by
  unfold Strand.mbits Strand.setMbits
  simp only
  rw [Vector.getElem_set_ne _ _ (fun e => h (BitVec.eq_of_toNat_eq e.symm))]

theorem Strand.rbits_lt (st : Strand) (d : VReg) : st.rbits d < 2 ^ d.bits := by
  cases d with
  | v r => exact st.vbits_lt r
  | m r => exact st.mbits_lt r

theorem Strand.rbits_setRbits_same (st : Strand) (d : VReg) (x : Nat) : (st.setRbits d x).rbits d = x % 2 ^ d.bits := by
  cases d with
  | v r => exact st.vbits_setVbits_same r x
  | m r => exact st.mbits_setMbits_same r x

theorem Strand.rbits_setRbits_other (st : Strand) {d q : VReg} (h : q ≠ d) (x : Nat) :
    (st.setRbits d x).rbits q = st.rbits q := by
  cases d with
  | v r => cases q with
    | v p => exact st.vbits_setVbits_other (fun e => h (by rw [e])) x
    | m p => rfl
  | m r => cases q with
    | v p => rfl
    | m p => exact st.mbits_setMbits_other (fun e => h (by rw [e])) x

theorem Strand.elem_lt (st : Strand) (r : BitVec 5) (w e : Nat) : st.elem r w e < 2 ^ w := bitsAt_lt _ _ _

/-! ### The writes of an instruction -/

/-- The units of a register after the writes of a destination: those selected, below the bound and written take their
value, the rest is as before. -/
theorem VWrite.from_unit (x : VWrite) (sel : Nat → Bool) (bits e k : Nat) (j : Nat) :
    bitsAt (x.from sel bits e k) x.w j =
      if e ≤ j ∧ j < e + k ∧ sel j = true then (match x.val j with | some v => v % 2 ^ x.w | none => bitsAt bits x.w j)
      else bitsAt bits x.w j := by
  induction k generalizing bits e with
  | zero => unfold VWrite.from; rw [if_neg (by omega)]
  | succ k ih =>
    unfold VWrite.from
    by_cases hj : j = e
    · subst hj
      by_cases hs : sel j = true
      · rw [if_pos hs, if_pos ⟨Nat.le_refl _, by omega, hs⟩]
        cases hv : x.val j with
        | none => rw [ih, if_neg (by omega)]
        | some v => rw [ih, if_neg (by omega), bitsAt_putBits_same]
      · rw [if_neg hs, if_neg (fun h => hs h.2.2), ih, if_neg (by omega)]
    · have hc : (e ≤ j ∧ j < e + (k + 1) ∧ sel j = true) ↔ (e + 1 ≤ j ∧ j < e + 1 + k ∧ sel j = true) := by
        constructor <;> rintro ⟨h1, h2, h3⟩ <;> exact ⟨by omega, by omega, h3⟩
      simp only [hc]
      split
      · cases x.val e with
        | none => exact ih bits (e + 1)
        | some v => simp only; rw [ih, bitsAt_putBits_other _ _ _ _ hj]
      · exact ih bits (e + 1)

theorem VWrite.from_lt (x : VWrite) (sel : Nat → Bool) {bits e k n : Nat} (hb : bits < 2 ^ n) (h : x.w * (e + k) ≤ n) :
    x.from sel bits e k < 2 ^ n := by
  induction k generalizing bits e with
  | zero => exact hb
  | succ k ih =>
    have he : x.w * e + x.w ≤ n := by
      have := Nat.mul_le_mul_left x.w (show e + 1 ≤ e + (k + 1) by omega)
      rw [Nat.mul_succ] at this; omega
    have h' : x.w * (e + 1 + k) ≤ n := by rw [show e + 1 + k = e + (k + 1) by omega]; exact h
    unfold VWrite.from
    split
    · split
      · exact ih (putBits_lt hb he) h'
      · exact ih hb h'
    · exact ih hb h'

/-- A unit within the low bits of a string. -/
theorem bitsAt_mod (x n w e : Nat) (h : w * (e + 1) ≤ n) : bitsAt (x % 2 ^ n) w e = bitsAt x w e := by
  apply Nat.eq_of_testBit_eq
  intro i
  rw [bitsAt_testBit, bitsAt_testBit, Nat.testBit_mod_two_pow]
  rw [Nat.mul_succ] at h
  by_cases hi : i < w
  · rw [show decide (w * e + i < n) = true from decide_eq_true (by omega)]; simp
  · simp [hi]

/-- The units of a destination after its writes, as far as its register holds them. -/
theorem Strand.write_unit (st : Strand) (sel : Nat → Bool) (x : VWrite) (j : Nat) (h : x.w * (j + 1) ≤ x.reg.bits) :
    bitsAt ((st.write sel x).rbits x.reg) x.w j =
      if j < x.upto ∧ sel j = true then
        (match x.val j with | some v => v % 2 ^ x.w | none => bitsAt (st.rbits x.reg) x.w j)
      else bitsAt (st.rbits x.reg) x.w j := by
  unfold Strand.write
  rw [Strand.rbits_setRbits_same, bitsAt_mod _ _ _ _ h, x.from_unit]
  simp

/-- Every other register is as before. -/
theorem Strand.write_other (st : Strand) (sel : Nat → Bool) (x : VWrite) {q : VReg} (h : q ≠ x.reg) :
    (st.write sel x).rbits q = st.rbits q := Strand.rbits_setRbits_other st h _

theorem Strand.writeTail_other (st : Strand) (en : Entry) (x : VWrite) {q : VReg} (h : q ≠ x.reg) :
    (st.writeTail en x).rbits q = st.rbits q := by
  unfold Strand.writeTail
  split
  · split
    · exact Strand.rbits_setRbits_other st h _
    · rfl
  · rfl

/-- Below the tail a destination keeps its units; in it they are zero under TPOL and as before without (R54). -/
theorem Strand.writeTail_unit (st : Strand) (en : Entry) (x : VWrite) (t : Nat) (ht : x.tail = some t) (j : Nat) :
    bitsAt ((st.writeTail en x).rbits x.reg) x.w j =
      if t ≤ j ∧ en.tpol = true then 0 else bitsAt (st.rbits x.reg) x.w j := by
  unfold Strand.writeTail
  simp only [ht]
  by_cases hp : en.tpol = true
  · rw [if_pos hp, Strand.rbits_setRbits_same,
      Nat.mod_eq_of_lt (Nat.lt_of_le_of_lt (Nat.mod_le _ _) (st.rbits_lt x.reg))]
    apply Nat.eq_of_testBit_eq
    intro i
    by_cases hj : t ≤ j
    · rw [if_pos ⟨hj, hp⟩, bitsAt_testBit, Nat.testBit_mod_two_pow]
      have := Nat.mul_le_mul_left x.w hj
      simp only [Nat.zero_testBit]
      rw [show decide (x.w * j + i < x.w * t) = false from decide_eq_false (by omega)]; simp
    · rw [if_neg (fun h => hj h.1), bitsAt_testBit, bitsAt_testBit, Nat.testBit_mod_two_pow]
      by_cases hi : i < x.w
      · have := Nat.mul_le_mul_left x.w (show j + 1 ≤ t by omega)
        rw [Nat.mul_succ] at this
        rw [show decide (x.w * j + i < x.w * t) = true from decide_eq_true (by omega)]; simp
      · simp [hi]
  · rw [if_neg hp, if_neg (fun h => hp h.2)]

end Sys2Proof.Machine
end

