-- ==== Sys2Proof/Laws/Window.lean ====
section
/-! SUPPORT. What a windowed instruction does when it enters an empty window of a strand in program order: it runs at once
and retires, traps, waits or is killed, and with a register effect it retires. -/

set_option Elab.async false

namespace Sys2Proof.Machine

/-! ### Registers that no stream is bound to -/

theorem fills_none {en : Entry} {later : List Entry} {e n : Nat} {s : State} {l : List (BitVec 5)}
    (h : ∀ r ∈ l, s.cur.streamSlot false r = none) : fills en later e n s l = .done s := by
  induction l with
  | nil => rfl
  | cons r t ih =>
    unfold fills
    rw [h r (by simp)]
    exact ih fun q hq => h q (by simp [hq])

theorem appendsOf_none {st : Strand} {later : List Entry} {l : List (BitVec 5)}
    (h : ∀ r ∈ l, st.streamSlot true r = none) : appendsOf st later l = [] := by
  unfold appendsOf
  rw [List.filterMap_eq_nil_iff]
  intro r hr
  rw [h r hr]

theorem bumpStreams_none {st : Strand} {n : Nat} {w : Bool} {l : List (BitVec 5)}
    (h : ∀ r ∈ l, st.streamSlot w r = none) : bumpStreams st n w l = st := by
  unfold bumpStreams
  induction l with
  | nil => rfl
  | cons r t ih =>
    rw [List.foldl_cons, h r (by simp)]
    exact ih fun q hq => h q (by simp [hq])

theorem streamOver_none {st : Strand} {n : Nat} {w : Bool} {l : List (BitVec 5)}
    (h : ∀ r ∈ l, st.streamSlot w r = none) : streamOver st n w l = none := by
  unfold streamOver
  rw [List.findSome?_eq_none_iff]
  intro r hr
  rw [h r hr]

theorem streamType_none {st : Strand} {t : Nat} {w : Bool} {l : List (BitVec 5)}
    (h : ∀ r ∈ l, st.streamSlot w r = none) : streamType st t w l = false := by
  unfold streamType
  rw [List.any_eq_false]
  intro r hr
  rw [h r hr]
  simp

/-! ### Entry into an empty window -/

/-- A windowed operation passes its checks and runs at once. -/
structure Enters (op : WOp) (s : State) : Prop where
  empty : s.cur.window = []
  inOrder : s.cur.ahead = false
  free : s.cur.stepping = false
  held : op.holds s = false
  waits : op.waits s.cur = false
  pre : op.pre s = none
  etype : ((s.cur.vl != 0#32) || !op.skips0) = true →
    op.etypes (s.cur.vtype.toNat % 16) = true ∧ (op.access = true → s.cur.vtype.toNat % 16 ≠ 15)
  shape : ((s.cur.vl != 0#32) || op.anyVl) = true → op.shape s.cur = false
  cause : ((s.cur.vl != 0#32) || op.anyVl) = true → op.cause s = .ok s ()
  unstreamed : s.cur.unstreamed op.ins

/-- No register of an empty window is pending. -/
theorem Strand.pending_empty {st : Strand} (h : st.window = []) (x : BitVec 5) : st.pending x = false := by
  simp [Strand.pending, h]

theorem awaitG_empty {s : State} (h : s.cur.window = []) (rs : List (BitVec 5)) (k : Out) : awaitG rs s k = k := by
  unfold awaitG
  rw [if_neg]
  simp [Strand.pending_empty h]

/-- The strand after a plain entry. -/
theorem enter_plain {op : WOp} {st : Strand} (h : st.unstreamed op.ins) :
    enter op st =
      { op.onEnter st with
        window := (op.onEnter st).window ++ [entryFor op st], pc := (op.onEnter st).pc + 4 } := by
  unfold enter
  simp only [Entry.vsrc, Entry.vdst]
  rw [bumpStreams_none (w := false), bumpStreams_none (w := true)]
  · intro r hr
    exact h.2 r (List.mem_eraseDups.1 hr)
  · intro r hr
    exact h.1 r (List.mem_eraseDups.1 hr)

/-- A fresh entry has fired nothing. -/
theorem entryFor_fired (op : WOp) (st : Strand) (e : Nat) : (entryFor op st).fired e = false := by
  simp [Entry.fired, Entry.groupDone, entryFor]

theorem entryFor_groupDone (op : WOp) (st : Strand) (g : Nat) : (entryFor op st).groupDone g = false := by
  simp [Entry.groupDone, entryFor]

theorem entryFor_over (op : WOp) (st : Strand) : (entryFor op st).over = false := by
  simp [Entry.over, entryFor]

theorem entryFor_untouched (op : WOp) (st : Strand) : (entryFor op st).untouched = true := by
  show ((0 == 0) && ((0 : BitVec 256) == 0) && ((0 : BitVec 8224) == 0) && true) = true
  rw [beq_self_eq_true, beq_self_eq_true, beq_self_eq_true]
  rfl

/-- The registers of a fresh entry are those of its instruction. -/
theorem entryFor_foot (op : WOp) (st : Strand) : (entryFor op st).foot = st.foot op.ins := rfl

/-- `f` leaves the binding slots, the loaded images, the window and the modes of a strand alone. -/
def Plain (f : Strand → Strand) : Prop :=
  ∀ st, (f st).k = st.k ∧ (f st).cx = st.cx ∧ (f st).window = st.window ∧ (f st).ahead = st.ahead ∧
    (f st).stepping = st.stepping

theorem Plain.id : Plain id := fun _ => ⟨rfl, rfl, rfl, rfl, rfl⟩

theorem Strand.foot_congr {a b : Strand} (h : a.cx = b.cx) (i : Instr) : a.foot i = b.foot i := by
  have hi : a.imageFor i = b.imageFor i := by
    unfold Strand.imageFor
    split <;> simp only [h]
  rw [Strand.foot, Strand.foot, hi]

theorem Strand.streamSlot_congr {a b : Strand} (h : a.k = b.k) (w : Bool) (r : BitVec 5) :
    a.streamSlot w r = b.streamSlot w r := by
  unfold Strand.streamSlot
  rw [h]

/-- The state in which an entry runs that has just entered. -/
def entered (op : WOp) (s : State) : State :=
  s.upd fun st => { op.onEnter st with window := [entryFor op st], pc := (op.onEnter st).pc + 4 }

/-- An operation that enters an empty window in program order runs at once. -/
theorem issue_enters {op : WOp} {s : State} (h : Enters op s) (hp : Plain op.onEnter) :
    issue op s = settle [] (runBody op.body (entered op s) (entryFor op s.cur) []) := by
  have hw : (op.onEnter s.cur).window = [] := by rw [(hp s.cur).2.2.1, h.empty]
  have he : s.upd (enter op) = entered op s := by
    unfold State.upd entered State.upd
    rw [enter_plain h.unstreamed, hw]
    rfl
  have hk : (entered op s).cur.k = s.cur.k := (hp s.cur).1
  have hx : (entered op s).cur.cx = s.cur.cx := (hp s.cur).2.1
  unfold issue
  rw [awaitG_empty h.empty]
  simp only [noPlace, h.empty, h.held, List.length_nil, List.filter_nil]
  rw [if_neg (by simp)]
  simp only [h.pre]
  rw [streamType_none h.unstreamed.1, streamType_none h.unstreamed.2]
  have hty : ¬ (((s.cur.vl != 0#32) || !op.skips0) && (!op.etypes (s.cur.vtype.toNat % 16) ||
      (op.access && s.cur.vtype.toNat % 16 == 15))) = true := by
    intro hc
    rw [Bool.and_eq_true] at hc
    have := h.etype hc.1
    rw [this.1] at hc
    simp only [Bool.not_true, Bool.false_or, Bool.and_eq_true, beq_iff_eq] at hc
    exact this.2 hc.2.1 hc.2.2
  rw [if_neg hty]
  rw [if_neg (by simp)]
  have hsh : ¬ (((s.cur.vl != 0#32) || op.anyVl) && op.shape s.cur) = true := by
    intro hc
    rw [Bool.and_eq_true] at hc
    rw [h.shape hc.1] at hc
    exact absurd hc.2 (by simp)
  rw [if_neg hsh]
  have hca : (if ((s.cur.vl != 0#32) || op.anyVl) = true then op.cause s else .ok s ()) = .ok s () := by
    split
    · next hc => exact h.cause hc
    · rfl
  rw [hca]
  simp only [h.waits]
  rw [if_neg (by simp)]
  unfold enterChecked
  have ho1 : streamOver s.cur s.cur.nElems false (s.cur.foot op.ins).vs.eraseDups = none :=
    streamOver_none fun r hr => h.unstreamed.1 r (List.mem_eraseDups.1 hr)
  have ho2 : streamOver s.cur s.cur.nElems true (s.cur.foot op.ins).vd.eraseDups = none :=
    streamOver_none fun r hr => h.unstreamed.2 r (List.mem_eraseDups.1 hr)
  simp only [ho1, ho2, Option.orElse_none, ite_self]
  rw [he]
  unfold afterEntry
  have ha : (entered op s).cur.ahead = false := by
    show (op.onEnter s.cur).ahead = false
    rw [(hp s.cur).2.2.2.1, h.inOrder]
  have hs : (entered op s).cur.stepping = false := by
    show (op.onEnter s.cur).stepping = false
    rw [(hp s.cur).2.2.2.2, h.free]
  have hl : (entered op s).cur.window = [entryFor op s.cur] := rfl
  rw [if_neg (by simp [ha, hs, hl])]
  unfold runHead
  rw [hl]
  simp only
  have hf : (entryFor op s.cur).foot = s.cur.foot op.ins := rfl
  have hfill : (entryFor op s.cur).fillRegs (entered op s).cur = [] := by
    simp only [Entry.fillRegs, List.filter_eq_nil_iff, Entry.vsrc, hf, List.mem_eraseDups]
    intro r hr
    rw [Strand.streamSlot_congr hk, h.unstreamed.1 r hr]
    simp
  have happ : (entryFor op s.cur).appendRegs (entered op s).cur = [] := by
    simp only [Entry.appendRegs, List.filter_eq_nil_iff, Entry.vdst, hf, List.mem_eraseDups]
    intro r hr
    rw [Strand.streamSlot_congr hk, h.unstreamed.2 r hr]
    simp
  have hb : streamBound (entered op s).cur (entryFor op s.cur) = false := by simp [streamBound, hfill, happ]
  unfold runEntry
  rw [if_neg (by simp [entryFor_over]), if_neg (by simp [hb]), if_neg (by simp [hb])]

/-- A register effect, applied whole to a strand, retires. -/
def Eff.whole (x : Eff) (en : Entry) (st : Strand) : Strand :=
  (if en.vl == 0#32 then st else x.tails en (x.fire (fun _ => true) st)).returnG en x.g

/-- The state in which a register instruction leaves a strand with an empty window. -/
def retired (op : WOp) (eff : Strand → Entry → Eff) (s : State) : State :=
  (entered op s).upd fun st =>
    { (eff st (entryFor op s.cur)).whole (entryFor op s.cur) st with window := [], wcount := 0 }

/-- A register instruction that enters an empty window in program order retires at once. -/
theorem issue_regs {op : WOp} {s : State} {eff : Strand → Entry → Eff} (hb : op.body = .regs eff) (h : Enters op s)
    (hp : Plain op.onEnter) : issue op s = .next (retired op eff s) := by
  rw [issue_enters h hp, hb]
  simp only [runBody, fireLeft, entryFor_untouched, if_true]
  unfold retired Eff.whole
  by_cases hv : ((entryFor op s.cur).vl == 0#32) = true
  · simp only [hv, if_true]; rfl
  · simp only [hv]; rfl

end Sys2Proof.Machine
end

