-- ==== Sys2Proof/Laws/Scalar.lean ====
section
/-! SUPPORT. The scalar results in plain arithmetic, and waiting for registers that are not pending. -/

set_option Elab.async false

namespace Sys2Proof.Machine

/-- Registers that are not pending hold nothing up. -/
theorem awaitG_ready {s : State} {l : List (BitVec 5)} (h : s.Ready l) (k : Out) : awaitG l s k = k := by
  unfold awaitG
  rw [if_neg]
  simp only [List.any_eq_true, not_exists, not_and]
  intro x hx
  simp [h x hx]

/-- At rest no register is pending. -/
theorem State.AtRest.ready {s : State} (h : s.AtRest) (l : List (BitVec 5)) : s.Ready l :=
  fun _ _ => Strand.pending_empty h.window _

theorem State.Ready.sub {s : State} {l l' : List (BitVec 5)} (h : s.Ready l) (hs : ∀ r ∈ l', r ∈ l) : s.Ready l' :=
  fun r hr => h r (hs r hr)

/-! ### Arithmetic -/

theorem ofInt_sub_toNat (b c : Word) : BitVec.ofInt 64 (b.toNat - c.toNat) = b - c := by
  apply BitVec.eq_of_toNat_eq
  rw [BitVec.toNat_ofInt, BitVec.toNat_sub]
  have := b.isLt
  have := c.isLt
  omega

theorem ofNat_shl (b : Word) (k : Nat) : BitVec.ofNat 64 (b.toNat * 2 ^ k) = b <<< k := by
  apply BitVec.eq_of_toNat_eq
  rw [BitVec.toNat_ofNat, BitVec.toNat_shiftLeft, Nat.shiftLeft_eq]

theorem ofNat_shr (b : Word) (k : Nat) : BitVec.ofNat 64 (b.toNat / 2 ^ k) = b >>> k := by
  apply BitVec.eq_of_toNat_eq
  rw [BitVec.toNat_ofNat, BitVec.toNat_ushiftRight, Nat.shiftRight_eq_div_pow]
  exact Nat.mod_eq_of_lt (Nat.lt_of_le_of_lt (Nat.div_le_self _ _) b.isLt)

theorem ofInt_shra (b : Word) (k : Nat) : BitVec.ofInt 64 (b.toInt / 2 ^ k) = b.sshiftRight k := by
  have : b.toInt / 2 ^ k = (b.sshiftRight k).toInt := by
    rw [BitVec.toInt_sshiftRight, Int.shiftRight_eq_div_pow]
    norm_cast
  rw [this, BitVec.ofInt_toInt]

theorem bit_slt (b c : Word) : bit (b.slt c) = if b.toInt < c.toInt then 1 else 0 := by
  unfold bit
  rw [BitVec.slt_eq_decide]
  simp

theorem bit_ult (b c : Word) : bit (b.ult c) = if b.toNat < c.toNat then 1 else 0 := by
  unfold bit
  rw [BitVec.ult_eq_decide]
  simp

theorem ofInt_tdiv (b c : Word) : BitVec.ofInt 64 (b.toInt.tdiv c.toInt) = b.sdiv c := by
  rw [← BitVec.toInt_inj, BitVec.toInt_ofInt, BitVec.toInt_sdiv]

theorem ofInt_tmod (b c : Word) : BitVec.ofInt 64 (b.toInt.tmod c.toInt) = b.srem c := by
  rw [← BitVec.toInt_srem, BitVec.ofInt_toInt]

theorem divS_eq (b c : Word) :
    divS b c = if c = 0 then 0xFFFFFFFFFFFFFFFF else BitVec.ofInt 64 (b.toInt.tdiv c.toInt) := by
  rw [ofInt_tdiv]
  rfl

theorem divU_eq (b c : Word) :
    divU b c = if c = 0 then 0xFFFFFFFFFFFFFFFF else BitVec.ofNat 64 (b.toNat / c.toNat) := by
  unfold divU
  split
  · rfl
  · apply BitVec.eq_of_toNat_eq
    rw [BitVec.toNat_udiv, BitVec.toNat_ofNat]
    exact (Nat.mod_eq_of_lt (Nat.lt_of_le_of_lt (Nat.div_le_self _ _) b.isLt)).symm

theorem remS_eq (b c : Word) : remS b c = if c = 0 then b else BitVec.ofInt 64 (b.toInt.tmod c.toInt) := by
  rw [ofInt_tmod]
  rfl

theorem remU_eq (b c : Word) : remU b c = if c = 0 then b else BitVec.ofNat 64 (b.toNat % c.toNat) := by
  unfold remU
  split
  · rfl
  · apply BitVec.eq_of_toNat_eq
    rw [BitVec.toNat_umod, BitVec.toNat_ofNat]
    exact (Nat.mod_eq_of_lt (Nat.lt_of_le_of_lt (Nat.mod_le _ _) b.isLt)).symm

theorem minS_eq (b c : Word) : (if b.slt c = true then b else c) = BitVec.ofInt 64 (min b.toInt c.toInt) := by
  rw [BitVec.slt_eq_decide]
  by_cases h : b.toInt < c.toInt
  · rw [if_pos (by simpa using h), Int.min_eq_left (by omega), BitVec.ofInt_toInt]
  · rw [if_neg (by simpa using h), Int.min_eq_right (by omega), BitVec.ofInt_toInt]

theorem maxS_eq (b c : Word) : (if b.slt c = true then c else b) = BitVec.ofInt 64 (max b.toInt c.toInt) := by
  rw [BitVec.slt_eq_decide]
  by_cases h : b.toInt < c.toInt
  · rw [if_pos (by simpa using h), Int.max_eq_right (by omega), BitVec.ofInt_toInt]
  · rw [if_neg (by simpa using h), Int.max_eq_left (by omega), BitVec.ofInt_toInt]

theorem minU_eq (b c : Word) : (if b.ult c = true then b else c) = BitVec.ofNat 64 (min b.toNat c.toNat) := by
  rw [BitVec.ult_eq_decide]
  by_cases h : b.toNat < c.toNat
  · rw [if_pos (by simpa using h), Nat.min_eq_left (by omega), BitVec.ofNat_toNat, BitVec.setWidth_eq]
  · rw [if_neg (by simpa using h), Nat.min_eq_right (by omega), BitVec.ofNat_toNat, BitVec.setWidth_eq]

theorem maxU_eq (b c : Word) : (if b.ult c = true then c else b) = BitVec.ofNat 64 (max b.toNat c.toNat) := by
  rw [BitVec.ult_eq_decide]
  by_cases h : b.toNat < c.toNat
  · rw [if_pos (by simpa using h), Nat.max_eq_right (by omega), BitVec.ofNat_toNat, BitVec.setWidth_eq]
  · rw [if_neg (by simpa using h), Nat.max_eq_left (by omega), BitVec.ofNat_toNat, BitVec.setWidth_eq]

theorem ofInt_sext (i : BitVec 16) : BitVec.ofInt 64 i.toInt = i.signExtend 64 := rfl

theorem toInt_sext (i : BitVec 16) : (i.signExtend 64).toInt = i.toInt := BitVec.toInt_signExtend_of_le (by omega)

theorem ofNat_zext (i : BitVec 16) : BitVec.ofNat 64 i.toNat = i.setWidth 64 := BitVec.ofNat_toNat 64 i

theorem ofInt_add_sext (b : Word) (i : BitVec 16) : BitVec.ofInt 64 (b.toInt + i.toInt) = b + i.signExtend 64 := by
  rw [BitVec.ofInt_add, BitVec.ofInt_toInt, ofInt_sext]

theorem ofInt_mul_65536 (i : BitVec 16) : BitVec.ofInt 64 (i.toInt * 65536) = i.signExtend 64 <<< 16 := by
  rw [BitVec.ofInt_mul, ofInt_sext, BitVec.shiftLeft_eq_mul_twoPow]
  rfl

theorem shori_eq (b : Word) (i : BitVec 16) :
    b <<< 16 ||| i.setWidth 64 = BitVec.ofNat 64 (b.toNat * 65536) ||| BitVec.ofNat 64 i.toNat := by
  rw [ofNat_zext, ← ofNat_shl b 16]
  all_goals rfl

theorem precType_eq (p : BitVec 1) : precType p = precCode p := by
  unfold precType precCode
  by_cases h : p = 1#1 <;> simp [h]

theorem precVal_eq (p : BitVec 1) (x : Word) : precVal p x = inPrecision p x := by
  unfold precVal inPrecision
  by_cases h : p = 1#1 <;> simp [h]

/-! ### Transfers -/

/-- The fetch block in plain arithmetic. -/
theorem block_eq (s : State) : s.block = s.blk := by
  unfold State.block State.blk
  apply BitVec.eq_of_getLsbD_eq
  intro i hi
  rw [BitVec.getLsbD_ofNat, BitVec.getLsbD_and, BitVec.getLsbD_not]
  have : s.cur.pc.toNat / 64 * 64 = (s.cur.pc.toNat >>> 6) <<< 6 := by
    rw [Nat.shiftLeft_eq, Nat.shiftRight_eq_div_pow]
  rw [this, Nat.testBit_shiftLeft, Nat.testBit_shiftRight]
  have h63 : (63#64).getLsbD i = decide (i < 6) := by
    rw [show (63#64) = BitVec.ofNat 64 (2 ^ 6 - 1) from rfl, BitVec.getLsbD_ofNat, Nat.testBit_two_pow_sub_one]
    simp [hi]
  rw [h63]
  by_cases h : 6 ≤ i
  · simp [h, hi, show ¬ i < 6 by omega, BitVec.getLsbD, show 6 + (i - 6) = i by omega]
  · simp [h, hi]; intro; omega

/-- A block offset in bytes. -/
theorem ofInt_mul64 {n : Nat} (o : BitVec n) : BitVec.ofInt 64 (o.toInt * 64) = o.signExtend 64 <<< 6 := by
  rw [BitVec.ofInt_mul, BitVec.shiftLeft_eq_mul_twoPow]
  rfl

theorem aligned_iff (x : Word) : (x.setWidth 6 == 0#6) = decide (x.toNat % 64 = 0) := by
  apply Bool.eq_iff_iff.2
  rw [beq_iff_eq, decide_eq_true_eq, ← BitVec.toNat_inj, BitVec.toNat_setWidth]
  rfl

/-! ### Counting bits -/

theorem takeWhile_range_length (p : Nat → Bool) (n k : Nat) (hk : k ≤ n) (h : ∀ i < k, p i = true)
    (hn : k < n → p k = false) : ((List.range n).takeWhile p).length = k := by
  have hr : List.range n = List.range k ++ (List.range (n - k)).map (k + ·) := by
    rw [← List.range_add]; congr 1; omega
  rw [hr, List.takeWhile_append_of_pos (by simpa using h)]
  rw [List.length_append, List.length_range]
  have : ((List.range (n - k)).map (k + ·)).takeWhile p = [] := by
    rcases Nat.lt_or_ge k n with hlt | hge
    · obtain ⟨m, hm⟩ : ∃ m, n - k = m + 1 := ⟨n - k - 1, by omega⟩
      rw [hm, List.range_succ_eq_map, List.map_cons, List.takeWhile_cons, if_neg]
      simpa using hn hlt
    · rw [show n - k = 0 by omega]; rfl
  rw [this]
  simp

theorem clzW_eq (b : Word) :
    clzW b = BitVec.ofNat 64 ((List.range 64).takeWhile fun i => !b.getLsbD (63 - i)).length := by
  unfold clzW
  congr 1
  unfold bitLen
  split
  · next h =>
    rw [takeWhile_range_length _ 64 64 (Nat.le_refl _) _ (by omega)]
    intro i hi
    have : b = 0 := BitVec.eq_of_toNat_eq h
    rw [this]
    simp
  · next h =>
    have h63 : b.toNat.log2 < 64 := (Nat.log2_lt h).2 b.isLt
    rw [takeWhile_range_length _ 64 (64 - (b.toNat.log2 + 1)) (by omega)]
    · intro i hi
      simp only [BitVec.getLsbD, Bool.not_eq_true']
      apply Nat.testBit_lt_two_pow
      exact Nat.lt_of_lt_of_le Nat.lt_log2_self (Nat.pow_le_pow_right (by omega) (by omega))
    · intro _
      rw [show 63 - (64 - (b.toNat.log2 + 1)) = b.toNat.log2 by omega]
      simp [BitVec.getLsbD, Nat.testBit_log2 h]

/-- The lowest set bit alone. -/
theorem and_neg_toNat (b : Word) (k : Nat) (hk : b.getLsbD k = true) (h : ∀ i < k, b.getLsbD i = false) :
    (b &&& -b).toNat = 2 ^ k := by
  have hk64 : k < 64 := BitVec.lt_of_getLsbD hk
  have he : b &&& -b = BitVec.twoPow 64 k := by
    apply BitVec.eq_of_getLsbD_eq
    intro i hi
    rw [BitVec.getLsbD_and, BitVec.getLsbD_neg, BitVec.getLsbD_twoPow]
    rcases Nat.lt_trichotomy i k with hl | rfl | hg
    · simp [h i hl, Nat.ne_of_gt hl]
    · have : ¬ ∃ j, j < i ∧ b.getLsbD j = true := by
        rintro ⟨j, hj, hb⟩
        rw [h j hj] at hb
        exact absurd hb (by simp)
      simp [hk, this, hi]
    · have : ∃ j < i, b.getLsbD j = true := ⟨k, hg, hk⟩
      simp only [this, decide_true, hi, Bool.true_and]
      cases b.getLsbD i <;> simp [Nat.ne_of_lt hg]
  rw [he, BitVec.toNat_twoPow]
  exact Nat.mod_eq_of_lt (Nat.pow_lt_pow_right (by omega) hk64)

theorem ctzW_eq (b : Word) : ctzW b = BitVec.ofNat 64 ((List.range 64).takeWhile fun i => !b.getLsbD i).length := by
  unfold ctzW
  split
  · next h =>
    subst h
    rfl
  · next h =>
    have hex : ∃ k, b.getLsbD k = true := by
      apply Classical.byContradiction
      intro hn
      apply h
      apply BitVec.eq_of_getLsbD_eq
      intro i _
      have := fun hb => hn ⟨i, hb⟩
      simpa using this
    obtain ⟨k, hk, hmin⟩ : ∃ k, b.getLsbD k = true ∧ ∀ i < k, b.getLsbD i = false := by
      obtain ⟨n, hn⟩ := hex
      induction n using Nat.strongRecOn with
      | ind n ih =>
        by_cases hb : ∃ i < n, b.getLsbD i = true
        · obtain ⟨i, hi, hb⟩ := hb
          exact ih i hi hb
        · refine ⟨n, hn, fun i hi => ?_⟩
          cases hc : b.getLsbD i
          · rfl
          · exact absurd ⟨i, hi, hc⟩ hb
    have hk64 : k < 64 := BitVec.lt_of_getLsbD hk
    rw [and_neg_toNat b k hk hmin, Nat.log2_two_pow]
    rw [takeWhile_range_length _ 64 k (by omega)]
    · intro i hi
      simp [hmin i hi]
    · intro _
      simp [hk]

theorem popCount_eq (x n : Nat) : popCount x n = ((List.range n).filter x.testBit).length := by
  induction n with
  | zero => rfl
  | succ n ih =>
    rw [List.range_succ, List.filter_append, List.length_append, popCount, ih]
    by_cases h : x.testBit n <;> simp [h]

theorem popcW_eq (b : Word) : popcW b = BitVec.ofNat 64 ((List.range 64).filter b.getLsbD).length := by
  unfold popcW
  rw [popCount_eq]
  rfl

end Sys2Proof.Machine
end

