-- ==== Sys2Proof/Laws/Access.lean ====
section
/-! SUPPORT. Accesses of a strand when no partial waits at the press: reads leave the state as it is, and a store changes
its own bytes and another strand's tag of its line. -/

set_option Elab.async false

namespace Sys2Proof.Machine

/-- With nothing due the press does nothing. -/
theorem State.pressTouch_quiet {s : State} {line : Nat} (h : s.pressDue line = false) : s.pressTouch line = s := by
  unfold State.pressTouch
  rw [if_neg (by simp [h])]

/-- A clean read at a place. -/
theorem State.readLoc_quiet {s : State} (hq : s.Quiet) {l : Loc} (hc : s.Clean l) (n : Nat) :
    s.readLoc l n = .ok s (s.peek l n) := by
  cases l with
  | host a => rfl
  | dev pa =>
    unfold State.readLoc
    simp only [State.pressTouch_quiet (hq.due _)]
    rw [if_neg (by simp [hc pa rfl])]
    rfl

/-- A load whose address translates and whose sector is clean. -/
theorem State.load_quiet {s : State} (hq : s.Quiet) {l : Loc} (hc : s.Clean l) {va : Word} {n : Nat}
    (hp : s.place va n .read = .ok l) : s.load va n = .ok s (s.peek l n) := by
  unfold State.load
  rw [hp]
  exact State.readLoc_quiet hq hc n

/-- Nothing is due after a change of the strand in focus. -/
theorem State.Quiet.upd {s : State} (h : s.Quiet) (f : Strand → Strand) : (s.upd f).Quiet := ⟨h.due, h.logs⟩

theorem State.Quiet.of_gangs {s t : State} (h : s.Quiet) (hg : t.gangs = s.gangs) : t.Quiet := by
  refine ⟨fun line => ?_, by rw [hg]; exact h.logs⟩
  have := h.due line
  unfold State.pressDue at this ⊢
  rw [hg]
  exact this

theorem Region.spoil_id {r : Region} (h : ∀ e ∈ r.entries, e.unit = none) (pa n : Nat) : r.spoil pa n = r := by
  unfold Region.spoil
  split
  · rw [List.map_congr_left (g := id) (fun e he => by
      have := h e he; cases e; simp_all [PressEntry.liesIn]), List.map_id]
  · rfl

/-- With no partial in a log, a write changes no region. -/
theorem State.spoilLogs_quiet {s : State} (h : s.Quiet) (pa n : Nat) : s.spoilLogs pa n = s := by
  unfold State.spoilLogs
  split
  · rw [List.map_congr_left (g := id), List.map_id]
    intro g hg
    have : (g.regions.map fun o => o.map (Region.spoil pa n)) = g.regions := by
      apply Vector.toList_inj.1
      rw [Vector.toList_map, List.map_congr_left (g := id), List.map_id]
      intro o ho
      cases o with
      | none => rfl
      | some r => simp [Region.spoil_id (h.logs g hg r ho)]
    rw [this]
    rfl
  · rfl

/-! ### Link tags -/

theorem State.tag_setTag {s : State} (h : Sparse.wf none s.links = true) (line : Nat) (x : Option LinkTag) (a : Nat) :
    (s.setTag line x).tag a = if a = line then x else s.tag a := by
  unfold State.tag State.setTag
  by_cases ha : a = line
  · subst ha; rw [if_pos rfl]; exact Sparse.get_put_same h a x
  · rw [if_neg ha]; exact Sparse.get_put_other _ ha x

theorem State.clearTag_rest (s : State) (ag : Agent) (line : Nat) :
    s.clearTag ag line = { s with links := (s.clearTag ag line).links } := by
  unfold State.clearTag State.setTag
  split
  · rfl
  · split
    · split <;> rfl
    · rfl

/-- A strand's write clears the tag of another strand, and leaves its own (R97). -/
theorem State.tag_clearTag {s : State} (h : Sparse.wf none s.links = true) (g i : BitVec 32) (line a : Nat) :
    (s.clearTag (.strand g i) line).tag a =
      if a = line ∧ ¬ (∃ k, s.tag a = some ⟨g, i, k⟩) then none else s.tag a := by
  unfold State.clearTag
  cases ht : s.tag line with
  | none =>
    simp only
    by_cases ha : a = line
    · subst ha; rw [ht]; simp
    · rw [if_neg (by simp [ha])]
  | some t =>
    simp only
    by_cases ho : (t.gang == g && t.strand == i) = true
    · rw [if_pos ho]
      by_cases ha : a = line
      · subst ha
        rw [if_neg]
        simp only [Bool.and_eq_true, beq_iff_eq] at ho
        rintro ⟨-, hn⟩
        exact hn ⟨t.gen, by rw [ht, ← ho.1, ← ho.2]⟩
      · rw [if_neg (by simp [ha])]
    · rw [if_neg ho, State.tag_setTag h]
      by_cases ha : a = line
      · subst ha
        rw [if_pos rfl, if_pos]
        refine ⟨rfl, ?_⟩
        rintro ⟨k, hk⟩
        rw [ht] at hk
        apply ho
        simp only [Option.some.injEq] at hk
        subst hk
        simp
      · rw [if_neg ha, if_neg (by simp [ha])]

/-! ### Stores -/

theorem State.hostByte_hostRawWrite_out (s : State) (a n x : Nat) {b : Nat} (h : b < a ∨ a + n ≤ b) :
    (s.hostRawWrite a n x).hostByte b = s.hostByte b := by
  induction n generalizing s a x with
  | zero => rfl
  | succ n ih =>
    unfold State.hostRawWrite
    rw [ih _ _ _ (by omega), State.hostByte_setHostByte_other _ (by omega)]

theorem State.hostByte_hostRawWrite_in {s : State} (h : Memory.wf s = true) (a n x : Nat) {i : Nat} (hi : i < n) :
    (s.hostRawWrite a n x).hostByte (a + i) = BitVec.ofNat 8 (x / 256 ^ i) := by
  induction n generalizing s a x i with
  | zero => omega
  | succ n ih =>
    unfold State.hostRawWrite
    cases i with
    | zero =>
      rw [State.hostByte_hostRawWrite_out _ _ _ _ (by omega)]
      simp [State.hostByte_setHostByte_same h]
    | succ i =>
      have := ih (State.wf_setHostByte h a (BitVec.ofNat 8 x)) (a + 1) (x / 256) (i := i) (by omega)
      rw [show a + (i + 1) = a + 1 + i by omega, this, Nat.div_div_eq_div_mul, Nat.pow_succ, Nat.mul_comm]

/-- A write of fewer than 64 bytes. -/
theorem State.stored_writeLoc {s : State} (hi : s.Inv) (hq : s.Quiet) (l : Loc) {n : Nat} (hn : n < 64) (x : Nat) :
    s.Stored (s.writeLoc s.cur.agent l n x) l n x := by
  cases l with
  | host a =>
    show s.Stored (s.hostRawWrite a n x) (.host a) n x
    refine ⟨?_, ?_, ?_, ?_⟩
    · rw [State.hostRawWrite_rest]
    · intro pa; simp only [State.byte]; rw [State.hostRawWrite_rest]
    · intro b
      simp only
      split
      · next h =>
        obtain ⟨k, rfl⟩ : ∃ k, b = a + k := ⟨b - a, by omega⟩
        rw [State.hostByte_hostRawWrite_in hi.memory _ _ _ (by omega)]
        simp [byteOf]
      · exact State.hostByte_hostRawWrite_out _ _ _ _ (by omega)
    · intro line; simp only [State.tag]; rw [State.hostRawWrite_rest]
  | dev pa =>
    show s.Stored (((((s.pressTouch (pa / 64)).spoilLogs pa n).rawWrite pa n x).unpoison pa n).clearTag s.cur.agent (pa / 64))
      (.dev pa) n x
    rw [State.pressTouch_quiet (hq.due _), State.spoilLogs_quiet hq]
    have hu : (s.rawWrite pa n x).unpoison pa n = s.rawWrite pa n x := by
      unfold State.unpoison
      rw [if_neg (by omega)]
    rw [hu]
    have hl : (s.rawWrite pa n x).links = s.links := by rw [State.rawWrite_rest]
    refine ⟨?_, ?_, ?_, ?_⟩
    · rw [State.clearTag_rest, State.rawWrite_rest]
    · intro a
      have hb : ((s.rawWrite pa n x).clearTag s.cur.agent (pa / 64)).byte a = (s.rawWrite pa n x).byte a := by
        simp only [State.byte]; rw [State.clearTag_rest]
      rw [hb]
      simp only
      split
      · next h =>
        obtain ⟨k, rfl⟩ : ∃ k, a = pa + k := ⟨a - pa, by omega⟩
        rw [State.byte_rawWrite_in hi.memory _ _ _ (by omega)]
        simp [byteOf]
      · exact State.byte_rawWrite_out _ _ _ _ (by omega)
    · intro a
      simp only [State.hostByte]; rw [State.clearTag_rest, State.rawWrite_rest]
    · intro line
      have ht : ∀ a, (s.rawWrite pa n x).tag a = s.tag a := by
        intro a; simp only [State.tag, hl]
      unfold Strand.agent
      rw [State.tag_clearTag (by rw [hl]; exact hi.tags)]
      simp only [ht]

end Sys2Proof.Machine
end

