-- ==== Sys2Proof/Laws/Effects.lean ====
section
/-! SUPPORT. What a register effect leaves: which fields of the strand it may change, which registers it leaves alone, and
the elements of a single destination. -/

set_option Elab.async false

namespace Sys2Proof.Machine

/-! ### Fields -/

theorem Strand.setRbits_rest (st : Strand) (d : VReg) (x : Nat) :
    st.setRbits d x = { st with v := (st.setRbits d x).v, m := (st.setRbits d x).m } := by
  cases d <;> rfl

theorem Strand.write_rest (st : Strand) (sel : Nat → Bool) (x : VWrite) :
    st.write sel x = { st with v := (st.write sel x).v, m := (st.write sel x).m } := Strand.setRbits_rest _ _ _

theorem Strand.writeTail_rest (st : Strand) (en : Entry) (x : VWrite) :
    st.writeTail en x = { st with v := (st.writeTail en x).v, m := (st.writeTail en x).m } := by
  unfold Strand.writeTail
  split
  · split
    · exact Strand.setRbits_rest _ _ _
    · rfl
  · rfl

theorem writes_rest (sel : Nat → Bool) (l : List VWrite) (st : Strand) :
    l.foldl (fun st d => st.write sel d) st =
      { st with v := (l.foldl (fun st d => st.write sel d) st).v, m := (l.foldl (fun st d => st.write sel d) st).m } := by
  induction l generalizing st with
  | nil => rfl
  | cons d t ih => rw [List.foldl_cons, ih, Strand.write_rest]

theorem Eff.fire_rest (x : Eff) (sel : Nat → Bool) (st : Strand) :
    x.fire sel st = { st with
      v := (x.fire sel st).v, m := (x.fire sel st).m, fflags := (x.fire sel st).fflags } := by
  unfold Eff.fire Strand.raise
  rw [writes_rest]

theorem Eff.tails_rest (x : Eff) (en : Entry) (st : Strand) :
    x.tails en st = { st with v := (x.tails en st).v, m := (x.tails en st).m } := by
  unfold Eff.tails
  generalize x.writes = l
  induction l generalizing st with
  | nil => rfl
  | cons d t ih => rw [List.foldl_cons, ih, Strand.writeTail_rest]

theorem Strand.returnG_rest (st : Strand) (en : Entry) (x : Option Word) :
    st.returnG en x = { st with g := (st.returnG en x).g } := by
  unfold Strand.returnG Strand.wg
  split
  · split <;> rfl
  · rfl

/-- A register effect changes the vector, mask and g registers and FFLAGS, and nothing else. -/
theorem Eff.whole_rest (x : Eff) (en : Entry) (st : Strand) :
    x.whole en st = { st with
      v := (x.whole en st).v, m := (x.whole en st).m, fflags := (x.whole en st).fflags, g := (x.whole en st).g } := by
  unfold Eff.whole
  rw [Strand.returnG_rest]
  split
  · rfl
  · rw [Eff.tails_rest, Eff.fire_rest]

/-- An entry without a pending register writes no g register. -/
theorem Strand.returnG_none (st : Strand) {en : Entry} (h : en.gpend = none) (x : Option Word) : st.returnG en x = st := by
  unfold Strand.returnG
  rw [h]

/-- An entry with a pending register writes it. -/
theorem Strand.returnG_some (st : Strand) {en : Entry} {r : BitVec 5} (h : en.gpend = some r) (w : Word) :
    st.returnG en (some w) = st.wg r w := by
  unfold Strand.returnG
  rw [h]

/-! ### Registers -/

theorem rbits_of_rest {a b : Strand} (hv : a.v = b.v) (hm : a.m = b.m) (q : VReg) : a.rbits q = b.rbits q := by
  cases q <;> simp only [Strand.rbits, Strand.vbits, Strand.mbits, hv, hm]

theorem writes_other (sel : Nat → Bool) (l : List VWrite) (st : Strand) {q : VReg} (h : ∀ d ∈ l, q ≠ d.reg) :
    (l.foldl (fun st d => st.write sel d) st).rbits q = st.rbits q := by
  induction l generalizing st with
  | nil => rfl
  | cons d t ih =>
    rw [List.foldl_cons, ih _ fun x hx => h x (by simp [hx]), Strand.write_other _ _ _ (h d (by simp))]

theorem tails_other (en : Entry) (l : List VWrite) (st : Strand) {q : VReg} (h : ∀ d ∈ l, q ≠ d.reg) :
    (l.foldl (fun st d => st.writeTail en d) st).rbits q = st.rbits q := by
  induction l generalizing st with
  | nil => rfl
  | cons d t ih =>
    rw [List.foldl_cons, ih _ fun x hx => h x (by simp [hx]), Strand.writeTail_other _ _ _ (h d (by simp))]

theorem Strand.returnG_rbits (st : Strand) (en : Entry) (x : Option Word) (q : VReg) :
    (st.returnG en x).rbits q = st.rbits q := by
  apply rbits_of_rest <;> rw [Strand.returnG_rest]

theorem Strand.raise_rbits (st : Strand) (fl : Flags) (q : VReg) : (st.raise fl).rbits q = st.rbits q :=
  rbits_of_rest rfl rfl q

/-- A register that is no destination keeps its bits. -/
theorem Eff.whole_other (x : Eff) (en : Entry) (st : Strand) {q : VReg} (h : ∀ d ∈ x.writes, q ≠ d.reg) :
    (x.whole en st).rbits q = st.rbits q := by
  unfold Eff.whole
  rw [Strand.returnG_rbits]
  split
  · rfl
  · unfold Eff.tails Eff.fire
    rw [tails_other en _ _ h, Strand.raise_rbits, writes_other _ _ _ h]

/-- With VL = 0 no register of the vector side changes. -/
theorem Eff.whole_vl0 (x : Eff) {en : Entry} (st : Strand) (h : en.vl = 0#32) (q : VReg) :
    (x.whole en st).rbits q = st.rbits q := by
  unfold Eff.whole
  rw [Strand.returnG_rbits, if_pos (by simp [h])]

/-- The units of the only destination of an effect: written below the bound, the tail after it. -/
theorem Eff.whole_unit (x : Eff) {en : Entry} (st : Strand) (d : VWrite) (hx : x.writes = [d]) (hv : en.vl ≠ 0#32)
    (ht : d.tail = some d.upto) (j : Nat) (hf : d.w * (j + 1) ≤ d.reg.bits) :
    bitsAt ((x.whole en st).rbits d.reg) d.w j =
      if j < d.upto then (match d.val j with | some v => v % 2 ^ d.w | none => bitsAt (st.rbits d.reg) d.w j)
      else if en.tpol = true then 0 else bitsAt (st.rbits d.reg) d.w j := by
  unfold Eff.whole
  rw [Strand.returnG_rbits, if_neg (by simpa using hv)]
  unfold Eff.tails Eff.fire
  simp only [hx, List.foldl_cons, List.foldl_nil]
  rw [Strand.writeTail_unit _ _ _ _ ht, Strand.raise_rbits, Strand.write_unit _ _ _ _ hf]
  by_cases hj : j < d.upto
  · simp only [hj, Nat.not_le.2 hj, false_and, if_false, if_true, and_self]
    all_goals (cases d.val j <;> rfl)
  · simp only [hj, Nat.not_lt.1 hj, true_and, false_and, if_false]

/-- Flags of an effect: FFLAGS with the flags of every unit. -/
theorem Eff.whole_fflags (x : Eff) (en : Entry) (st : Strand) :
    (x.whole en st).fflags =
      if en.vl = 0#32 then st.fflags else st.fflags ||| flagsFrom x.fl (fun _ => true) 0 0 x.nfl := by
  unfold Eff.whole
  rw [Strand.returnG_rest]
  by_cases h : en.vl = 0#32
  · rw [if_pos (by simp [h]), if_pos h]
  · rw [if_neg (by simpa using h), if_neg h, Eff.tails_rest]
    unfold Eff.fire Strand.raise
    simp only
    rw [writes_rest]

end Sys2Proof.Machine
end

