-- ==== Sys2Proof/Laws/Invariant.lean ====
section
/-! SUPPORT. What keeps the invariant of a step: memory accesses, the press, links, barriers, images, killing, taking a trap
and returning from one. -/

namespace Sys2Proof.Machine

/-! ### Parts of the invariant -/

/-- The named barriers of a gang in their canonical form. -/
def Gang.Fine (g : Gang) : Prop := Sparse.wf (Vector.replicate 32 (Barrier.fresh 0)) g.named = true

/-- A gang with the same named barriers. -/
theorem Gang.Fine.of {a b : Gang} (h : a.Fine) (hn : b.named = a.named) : b.Fine := by
  unfold Gang.Fine
  rw [hn]
  exact h

theorem State.Inv.cur {s : State} (h : s.Inv) : s.cur.Ok := h.strands _ (by simp [State.strands])

theorem State.Inv.others {s : State} (h : s.Inv) : ∀ st ∈ s.others, st.Ok := fun st hs =>
  h.strands st (by simp [State.strands, hs])

/-- A strand of the same FRM with a window of at most 16 entries. -/
theorem Strand.Ok.of {a b : Strand} (h : a.Ok) (hf : b.frm = a.frm) (hw : b.window.length ≤ 16) : b.Ok :=
  ⟨hf ▸ h.frm, hw⟩

/-- A strand of the same FRM and as long a window. -/
theorem Strand.Ok.same {a b : Strand} (h : a.Ok) (hf : b.frm = a.frm) (hw : b.window.length = a.window.length) : b.Ok :=
  h.of hf (hw ▸ h.window)

/-- A strand of the same FRM and no window. -/
theorem Strand.Ok.clear {a b : Strand} (h : a.Ok) (hf : b.frm = a.frm) (hw : b.window = []) : b.Ok :=
  h.of hf (by simp [hw])

theorem State.Inv.upd {s : State} (h : s.Inv) {f : Strand → Strand} (hf : (f s.cur).Ok) : (s.upd f).Inv :=
  ⟨h.memory, h.tags, h.poison, h.wsPoison, h.queues, h.islands, h.units, h.busy, h.barriers, fun st hs => by
    simp only [State.strands, State.upd, List.mem_cons] at hs
    rcases hs with rfl | hs
    · exact hf
    · exact h.others st hs⟩

/-- A change of the strand in focus that keeps FRM and the length of the window. -/
theorem State.Inv.updSame {s : State} (h : s.Inv) {f : Strand → Strand} (hf : (f s.cur).frm = s.cur.frm)
    (hw : (f s.cur).window.length = s.cur.window.length) : (s.upd f).Inv := h.upd (h.cur.same hf hw)

theorem State.Inv.mapStrands {s : State} (h : s.Inv) (p : Strand → Bool) {f : Strand → Strand} (hf : ∀ st, st.Ok → (f st).Ok) :
    (s.mapStrands p f).Inv :=
  ⟨h.memory, h.tags, h.poison, h.wsPoison, h.queues, h.islands, h.units, h.busy, h.barriers, fun st hs => by
    simp only [State.strands, State.mapStrands, List.mem_cons, List.mem_map] at hs
    rcases hs with rfl | ⟨x, hx, rfl⟩
    · split
      · exact hf _ h.cur
      · exact h.cur
    · split
      · exact hf _ (h.others x hx)
      · exact h.others x hx⟩

theorem State.Inv.withGangs {s : State} (h : s.Inv) {l : List Gang} (hl : ∀ g ∈ l, g.Fine) : ({ s with gangs := l } : State).Inv :=
  ⟨h.memory, h.tags, h.poison, h.wsPoison, h.queues, h.islands, h.units, h.busy, hl, h.strands⟩

theorem State.Inv.updGang {s : State} (h : s.Inv) (id : BitVec 32) {f : Gang → Gang} (hf : ∀ g, g.Fine → (f g).Fine) :
    (s.updGang id f).Inv := h.withGangs fun g hg => by
  simp only [List.mem_map] at hg
  obtain ⟨x, hx, rfl⟩ := hg
  split
  · exact hf _ (h.barriers x hx)
  · exact h.barriers x hx

theorem State.Inv.setRegion {s : State} (h : s.Inv) (gang : BitVec 32) (n : Nat) (r : Option Region) : (s.setRegion gang n r).Inv :=
  h.updGang gang fun _ hg => hg.of rfl

theorem State.Inv.updQueue {s : State} (h : s.Inv) (q : Nat) (f : Queue → Queue) : (s.updQueue q f).Inv :=
  ⟨h.memory, h.tags, h.poison, h.wsPoison, Sparse.wf_put h.queues _ _, h.islands, h.units, h.busy, h.barriers, h.strands⟩

theorem State.Inv.updIsland {s : State} (h : s.Inv) (i : Nat) (f : Island → Island) : (s.updIsland i f).Inv :=
  ⟨h.memory, h.tags, h.poison, h.wsPoison, h.queues, Sparse.wf_put h.islands _ _, h.units, h.busy, h.barriers, h.strands⟩

/-! ### Memory -/

/-- Device memory, host memory and the weight stores in another canonical form. -/
theorem State.Inv.withMemory {s t : State} (h : s.Inv) (hm : Memory.wf t = true)
    (ht : t = { s with mem := t.mem, hostMem := t.hostMem, ws := t.ws }) : t.Inv := by
  rw [ht]
  exact ⟨by simpa [Memory.wf] using hm, h.tags, h.poison, h.wsPoison, h.queues, h.islands, h.units, h.busy, h.barriers, h.strands⟩

theorem State.Inv.rawWrite {s : State} (h : s.Inv) (pa n x : Nat) : (s.rawWrite pa n x).Inv := by
  have := State.rawWrite_rest s pa n x
  refine h.withMemory (State.wf_rawWrite h.memory pa n x) ?_
  rw [this]

theorem State.Inv.hostRawWrite {s : State} (h : s.Inv) (a n x : Nat) : (s.hostRawWrite a n x).Inv := by
  have := State.hostRawWrite_rest s a n x
  refine h.withMemory (State.wf_hostRawWrite h.memory a n x) ?_
  rw [this]

theorem State.Inv.wsWrite {s : State} (h : s.Inv) (a n x : Nat) : (s.wsWrite a n x).Inv := by
  induction n generalizing s a x with
  | zero => exact h
  | succ n ih =>
    exact ih (h.withMemory (State.wf_setWsByte h.memory a _) rfl) _ _

theorem State.Inv.setTag {s : State} (h : s.Inv) (line : Nat) (t : Option LinkTag) : (s.setTag line t).Inv :=
  ⟨h.memory, Sparse.wf_put h.tags _ _, h.poison, h.wsPoison, h.queues, h.islands, h.units, h.busy, h.barriers, h.strands⟩

theorem State.Inv.clearTag {s : State} (h : s.Inv) (ag : Agent) (line : Nat) : (s.clearTag ag line).Inv := by
  unfold State.clearTag
  split
  · exact h
  · split
    · split
      · exact h
      · exact h.setTag _ _
    · exact h.setTag _ _

theorem State.Inv.unpoison {s : State} (h : s.Inv) (pa n : Nat) : (s.unpoison pa n).Inv := by
  unfold State.unpoison
  split
  · exact ⟨h.memory, h.tags, Sparse.wf_put h.poison _ _, h.wsPoison, h.queues, h.islands, h.units, h.busy, h.barriers, h.strands⟩
  · exact h

theorem State.Inv.drawn {s : State} (h : s.Inv) (n : Nat) : ({ s with fresh := n } : State).Inv :=
  ⟨h.memory, h.tags, h.poison, h.wsPoison, h.queues, h.islands, h.units, h.busy, h.barriers, h.strands⟩

/-! ### The press -/

theorem applyAddr_inv {s : State} (h : s.Inv) (r : Region) (line a : Nat) : (applyAddr s r line a).1.Inv := by
  simp only [applyAddr]
  exact ((h.drawn _).rawWrite _ _ _).clearTag _ _

theorem applyAddrs_inv {s : State} (h : s.Inv) (r : Region) (line : Nat) (l : List Nat) : (applyAddrs r line s l).1.Inv := by
  induction l generalizing s r with
  | nil => exact h
  | cons a t ih => exact ih (applyAddr_inv h r line a) _

theorem applyLine_inv {s : State} (h : s.Inv) (r : Region) (line : Nat) : (applyLine s r line).1.Inv := by
  simp only [applyLine]
  split
  · exact h
  · split
    · exact h
    · exact applyAddrs_inv h r line _

theorem applyRegions_inv {s : State} (h : s.Inv) (line : Nat) (l : List (Option Region)) : (applyRegions line s l).1.Inv := by
  induction l generalizing s with
  | nil => exact h
  | cons o t ih =>
    cases o with
    | none => exact ih h
    | some r => exact ih (applyLine_inv h r line)

theorem applyGangs_inv {s : State} (h : s.Inv) (line : Nat) (l : List Gang) : (applyGangs line s l).1.Inv := by
  induction l generalizing s with
  | nil => exact h
  | cons g t ih => exact ih (applyRegions_inv h line _)

theorem applyGangs_fine (s : State) (line : Nat) (l : List Gang) (hl : ∀ g ∈ l, g.Fine) :
    ∀ g ∈ (applyGangs line s l).2, g.Fine := by
  induction l generalizing s with
  | nil => simp [applyGangs]
  | cons x t ih =>
    intro g hg
    simp only [applyGangs, List.mem_cons] at hg
    rcases hg with rfl | hg
    · exact (hl x (by simp)).of rfl
    · exact ih _ (fun y hy => hl y (by simp [hy])) g hg

theorem State.Inv.pressTouch {s : State} (h : s.Inv) (line : Nat) : (s.pressTouch line).Inv := by
  unfold State.pressTouch
  split
  · exact (applyGangs_inv h line s.gangs).withGangs (applyGangs_fine s line s.gangs h.barriers)
  · exact h

theorem applyAll_inv {s : State} (h : s.Inv) (r : Region) (l : List Nat) : (applyAll s r l).1.Inv := by
  induction l generalizing s r with
  | nil => exact h
  | cons a t ih => exact ih (applyLine_inv h r a) _

theorem State.Inv.applyRegion {s : State} (h : s.Inv) (gang : BitVec 32) (n : Nat) (b : Bool) : (s.applyRegion gang n b).Inv := by
  unfold State.applyRegion
  split
  · exact h
  · exact (applyAll_inv h _ _).setRegion _ _ _

theorem State.Inv.closeRegion {s : State} (h : s.Inv) (gang : BitVec 32) (b : Bool) (n : Nat) : (s.closeRegion gang b n).Inv :=
  (h.applyRegion gang n b).setRegion _ _ _

/-- A fold of acts that keep the invariant. -/
theorem foldl_inv {α : Type} {f : State → α → State} (hf : ∀ s a, s.Inv → (f s a).Inv) (l : List α) {s : State} (h : s.Inv) :
    (l.foldl f s).Inv := by
  induction l generalizing s with
  | nil => exact h
  | cons a t ih => exact ih (hf s a h)

theorem State.Inv.closeRegions {s : State} (h : s.Inv) (gang : BitVec 32) (b : Bool) : (s.closeRegions gang b).Inv :=
  foldl_inv (fun _ n hs => hs.closeRegion gang b n) _ h

theorem State.Inv.receivePair {s t : State} (h : s.Inv) {gang : BitVec 32} {p : Pair} (hr : s.receivePair gang p = .ok t) : t.Inv := by
  unfold State.receivePair at hr
  split at hr
  · cases hr
  · split at hr
    · cases hr
    · split at hr
      · cases hr; exact h.setRegion _ _ _
      · cases hr

theorem State.Inv.receiveAll {s : State} (h : s.Inv) (gang : BitVec 32) (l : List Pair) : (s.receiveAll gang l).Inv := by
  induction l generalizing s with
  | nil => exact h
  | cons p t ih =>
    unfold State.receiveAll
    split
    · exact ih (h.receivePair ‹_›)
    · exact ih h

theorem State.Inv.takePair {s : State} (h : s.Inv) (p : Pair) : (s.takePair p).Inv := by
  unfold State.takePair
  split
  · exact (h.receivePair ‹_›).updSame rfl (by simp [Strand.onSender])
  · exact h.updSame rfl (by simp [Strand.onSender])

theorem State.Inv.drainQueue {s : State} (h : s.Inv) : s.drainQueue.Inv :=
  (foldl_inv (fun _ p hs => hs.takePair p) _ h).updSame rfl rfl

/-! ### Accesses -/

/-- The state that an access leads to has the invariant. -/
def Acc.Fine {α : Type} (a : Acc α) : Prop :=
  match a with
  | .ok s _ => s.Inv
  | .trap _ _ => True
  | .kill s _ => s.Inv

theorem Acc.Fine.ok {α : Type} {a : Acc α} (h : a.Fine) {t : State} {x : α} (he : a = .ok t x) : t.Inv := by rw [he] at h; exact h
theorem Acc.Fine.kill {α : Type} {a : Acc α} (h : a.Fine) {t : State} {r : Word} (he : a = .kill t r) : t.Inv := by
  rw [he] at h; exact h

theorem State.Inv.readLoc {s : State} (h : s.Inv) (l : Loc) (n : Nat) : (s.readLoc l n).Fine := by
  unfold State.readLoc
  split
  · exact h
  · simp only
    split
    · exact h.pressTouch _
    · exact h.pressTouch _

theorem State.Inv.spoilLogs {s : State} (h : s.Inv) (pa n : Nat) : (s.spoilLogs pa n).Inv := by
  unfold State.spoilLogs
  split
  · refine h.withGangs fun g hg => ?_
    simp only [List.mem_map] at hg
    obtain ⟨x, hx, rfl⟩ := hg
    exact Gang.Fine.of (h.barriers x hx) rfl
  · exact h

theorem State.Inv.writeLoc {s : State} (h : s.Inv) (ag : Agent) (l : Loc) (n x : Nat) : (s.writeLoc ag l n x).Inv := by
  unfold State.writeLoc
  split
  · exact h.hostRawWrite _ _ _
  · exact ((((h.pressTouch _).spoilLogs _ _).rawWrite _ _ _).unpoison _ _).clearTag _ _

theorem State.Inv.load {s : State} (h : s.Inv) (va : Word) (n : Nat) : (s.load va n).Fine := by
  unfold State.load
  split
  · trivial
  · exact h.readLoc _ _

theorem State.Inv.store {s : State} (h : s.Inv) (va : Word) (n x : Nat) : (s.store va n x).Fine := by
  unfold State.store
  split
  · trivial
  · exact h.writeLoc _ _ _ _

theorem State.Inv.loadLinked {s : State} (h : s.Inv) (va : Word) (n : Nat) : (s.loadLinked va n).Fine := by
  unfold State.loadLinked
  split
  · trivial
  · split
    · rename_i hl
      have h1 := (h.readLoc _ _).ok hl
      split
      · exact h1.setTag _ _
      · exact h1
    · trivial
    · rename_i hl
      exact (h.readLoc _ _).kill hl

theorem State.Inv.clearCovered {s : State} (h : s.Inv) (l : List Span) : (s.clearCovered l).Inv :=
  ⟨h.memory, h.tags, Sparse.wf_filter _ h.poison, h.wsPoison, h.queues, h.islands, h.units, h.busy, h.barriers, h.strands⟩

theorem writeSpans_inv {s : State} (h : s.Inv) (l : List Span) : (writeSpans s l).Inv :=
  (foldl_inv (fun _ _ hs => hs.writeLoc _ _ _ _) l h).clearCovered l

/-! ### Killing -/

theorem Strand.Ok.killed {st : Strand} (h : st.Ok) (reason : Word) : (st.killed reason).Ok := by
  have hg : ∀ (l : List Entry) (a : Strand), (l.foldl (fun (st : Strand) e => match e.gpend with | some r => st.wg r 0 | none => st) a).frm = a.frm := by
    intro l
    induction l with
    | nil => intro a; rfl
    | cons e t ih =>
      intro a
      simp only [List.foldl_cons]
      rw [ih]
      split
      · unfold Strand.wg; split <;> rfl
      · rfl
  unfold Strand.killed Strand.bared
  split
  · exact h.clear (hg st.window st) rfl
  · exact h.clear (hg st.window st) rfl
  · exact h.clear rfl rfl
  · exact h

theorem Strand.Ok.condemn {st : Strand} (h : st.Ok) (reason : Word) : (st.condemn reason).Ok := by
  unfold Strand.condemn
  split
  · exact h.same rfl rfl
  · exact h.killed reason

theorem State.Inv.sendEnd {s : State} (h : s.Inv) (st : Strand) (dir : Nat) : (s.sendEnd st dir).Inv :=
  h.mapStrands _ fun _ ho => ho.same rfl rfl

theorem State.Inv.sendEnds {s : State} (h : s.Inv) (st : Strand) : (s.sendEnds st).Inv :=
  foldl_inv (fun s dir hs => by split; exact hs.sendEnd st dir; exact hs) _ h

theorem State.Inv.releaseObject {s : State} (h : s.Inv) (o : Nat) : (s.releaseObject o).Inv := by
  unfold State.releaseObject
  split
  · exact h
  · exact ⟨h.memory, h.tags, h.poison, h.wsPoison, h.queues, h.islands, h.units, h.busy, h.barriers, h.strands⟩

theorem State.Inv.killOver {s : State} (h : s.Inv) (id : BitVec 32) (o : Nat) : (s.killOver id o).Inv := by
  unfold State.killOver
  split
  · exact h
  · exact (h.closeRegions id false).releaseObject _

theorem State.Inv.settle {s : State} (h : s.Inv) : s.settle.Inv :=
  (foldl_inv (fun s x hs => hs.writeLoc _ _ _ _) s.cur.late h).updSame rfl rfl

theorem State.Inv.settleFor {s : State} (h : s.Inv) (p : Strand → Bool) : (s.settleFor p).Inv :=
  (foldl_inv (fun s y hs => hs.writeLoc _ _ _ _) _ h).mapStrands p fun _ ho => ho.same rfl rfl

theorem State.Inv.killGang {s : State} (h : s.Inv) (id : BitVec 32) (reason : Word) : (s.killGang id reason).Inv := by
  unfold State.killGang
  split
  · exact h
  · split
    · exact h
    · have h0 := h.updGang id (f := fun g => { g with killed := some reason }) fun _ hg => hg.of rfl
      simp only
      generalize (s.updGang id fun g => { g with killed := some reason }) = s0 at h0 ⊢
      have hs := h0.settleFor fun st => st.gang == id
      generalize (s0.settleFor fun st => st.gang == id) = s0 at hs ⊢
      have h1 : (s0.drainGang id).Inv := foldl_inv (fun s st hs => by split; exact hs.receiveAll _ _; exact hs) _ hs
      generalize s0.drainGang id = s1 at h1 ⊢
      have h2 := foldl_inv (f := fun (s : State) (st : Strand) => if (st.gang == id && st.phase == .resident) = true then s.sendEnds st else s)
        (fun s st hs => by split; exact hs.sendEnds st; exact hs) s1.strands h1
      exact (h2.mapStrands (fun st => st.gang == id) fun _ ho => ho.condemn reason).killOver id _

theorem State.Inv.killSelf {s : State} (h : s.Inv) (reason : Word) (elem : Nat) : (s.killSelf reason elem).Inv := by
  unfold State.killSelf
  simp only
  split
  · exact (h.settle.upd (h.settle.cur.condemn reason)).updSame rfl rfl
  · exact (h.killGang _ _).updSame rfl rfl

/-! ### Traps and returns -/

theorem State.Inv.writeBlock {s : State} (h : s.Inv) (base len : Nat) (l : List (Nat × Nat)) : (s.writeBlock base len l).Inv := by
  have hm := (Memory.wf_iff s).1 h.memory
  unfold State.writeBlock
  split
  · exact ⟨(Memory.wf_iff _).2 ⟨hm.1, Sparse.wf_block hm.2.1 _ _ _, hm.2.2⟩, h.tags, h.poison, h.wsPoison, h.queues, h.islands,
      h.units, h.busy, h.barriers, h.strands⟩
  · exact ⟨(Memory.wf_iff _).2 ⟨Sparse.wf_block hm.1 _ _ _, hm.2⟩, Sparse.wf_filter _ h.tags, h.poison, h.wsPoison, h.queues,
      h.islands, h.units, h.busy, h.barriers, h.strands⟩

theorem Strand.Ok.enterTrap {st : Strand} (h : st.Ok) (t : TrapInfo) : (st.enterTrap t).Ok := h.clear rfl rfl

theorem State.Inv.takeTrap {s : State} (h : s.Inv) (t : TrapInfo) : (s.takeTrap t).Inv := by
  unfold State.takeTrap
  simp only
  split
  · have := h.drainQueue.writeBlock s.drainQueue.cur.twinAddr 0x4840
      (recordFields s.drainQueue.cur false (t.final s.drainQueue.cur.window).tepc)
    exact this.upd (this.cur.enterTrap _)
  · exact h.drainQueue.killSelf _ _

theorem State.Inv.trap {s : State} (h : s.Inv) (t : TrapInfo) : (s.trap t).Inv := by
  unfold State.trap
  split
  · exact h.updSame rfl rfl
  · exact h.takeTrap t

theorem frmStored_ok (x : BitVec 3) : 1 ≤ (frmStored x).toNat ∧ (frmStored x).toNat ≤ 4 := by
  revert x; decide

theorem readEntries_length (s : State) (base : Nat) (l : List Aside) : (readEntries s base l).length ≤ 16 := by
  unfold readEntries
  exact Nat.le_trans (List.length_filterMap_le ..) (by simp)

theorem restoreWords_frm (s : State) (base : Nat) (st : Strand) :
    1 ≤ (restoreWords s base st).frm.toNat ∧ (restoreWords s base st).frm.toNat ≤ 4 := by
  simp only [restoreWords]
  exact frmStored_ok _

theorem State.Inv.eret {s : State} (h : s.Inv) : s.eret.Inv := by
  unfold State.eret
  simp only
  split
  · refine h.upd ⟨?_, ?_⟩
    · dsimp only
      exact restoreWords_frm s _ _
    · dsimp only
      exact readEntries_length _ _ _
  · exact h.killSelf _ _

theorem Strand.Ok.wg {st : Strand} (h : st.Ok) (x : BitVec 5) (w : Word) : (st.wg x w).Ok :=
  h.same (st.wg_frm x w) (by rw [st.wg_window])

theorem Strand.Ok.advance {st : Strand} (h : st.Ok) : st.advance.Ok := h.same rfl rfl

theorem State.Inv.wg {s : State} (h : s.Inv) (x : BitVec 5) (w : Word) : (s.wg x w).Inv := h.upd (h.cur.wg x w)
theorem State.Inv.advance {s : State} (h : s.Inv) : s.advance.Inv := h.upd h.cur.advance
theorem State.Inv.stall {s : State} (h : s.Inv) (q : Bool) : (s.stall q).Inv := h.updSame rfl rfl
theorem State.Inv.goto {s : State} (h : s.Inv) (t : Word) : (s.goto t).Inv := h.updSame rfl rfl

theorem Strand.Ok.enterUser {st : Strand} (h : st.Ok) (code : BitVec 8) (d : Word) (t : BitVec 58) : (st.enterUser code d t).Ok := by
  unfold Strand.enterUser
  exact (h.same (b := { st with
    shadow := Vector.ofFn fun i => st.g.toList.getD (24 + i.val) 0,
    uicause := code, uiepc := st.pc, uiIn := true, quiet := false, pc := t.setWidth 64 <<< 6 }) rfl rfl).wg _ _

theorem Strand.Ok.uiret {st : Strand} (h : st.Ok) : st.uiret.Ok := by
  unfold Strand.uiret
  generalize List.range 6 = l
  have h1 : ({ st with uiIn := false, pc := st.uiepc, wcount := 0, quiet := false } : Strand).Ok := h.same rfl rfl
  revert h1
  generalize ({ st with uiIn := false, pc := st.uiepc, wcount := 0, quiet := false } : Strand) = a
  simp only
  induction l generalizing a with
  | nil => exact fun ha => ha
  | cons i t ih => intro ha; exact ih _ (ha.wg _ _)

/-! ### Barriers -/

theorem Gang.Fine.setNb {g : Gang} (h : g.Fine) (group n : Nat) (b : Barrier) : (g.setNb group n b).Fine := Sparse.wf_put h _ _

theorem State.Inv.setBarrier {s : State} (h : s.Inv) (gang : BitVec 32) (group : Nat) (nb : Option Nat) (b : Barrier) :
    (s.setBarrier gang group nb b).Inv :=
  h.updGang gang fun g hg => by
    cases nb with
    | none => exact hg.of rfl
    | some n => exact hg.setNb group n b

theorem State.Inv.arrive {s : State} (h : s.Inv) (st : Strand) (nb : Option Nat) (b : Bool) : (s.arrive st nb b).Inv := by
  unfold State.arrive
  simp only
  split
  · split
    · exact (h.setBarrier _ _ _ _).mapStrands _ fun _ ho => ho.same rfl rfl
    · exact (h.setBarrier _ _ _ _).mapStrands _ fun _ ho => ho.same rfl rfl
  · exact h.setBarrier _ _ _ _

theorem State.Inv.wakeGroup {s : State} (h : s.Inv) (gang : BitVec 32) (group : Nat) : (s.wakeGroup gang group).Inv :=
  h.mapStrands _ fun _ ho => ho.same rfl rfl

theorem State.Inv.pass {s : State} (h : s.Inv) (st : Strand) (nb : Option Nat) : (s.pass st nb).Inv := by
  unfold State.pass
  dsimp only
  split
  · exact (h.setBarrier _ _ _ _).wakeGroup _ _
  · exact h.setBarrier _ _ _ _

theorem State.Inv.copyArrive {s : State} (h : s.Inv) (st : Strand) (nb : Nat) : (s.copyArrive st nb).Inv := by
  unfold State.copyArrive
  dsimp only
  split
  · exact h.setBarrier _ _ _ _
  · exact h.arrive _ _ _

/-! ### Outcomes -/

/-- A next state of this outcome has the invariant. -/
def Keeps (o : Out) : Prop := ∀ t, o = .next t → t.Inv

theorem Keeps.next {s : State} (h : s.Inv) : Keeps (.next s) := fun _ e => by cases e; exact h
theorem Keeps.refused (r : Refusal) : Keeps (.refused r) := fun _ e => nomatch e

theorem awaitG_keeps {rs : List (BitVec 5)} {s : State} {k : Out} (h : s.Inv) (hk : Keeps k) : Keeps (awaitG rs s k) := by
  unfold awaitG
  split
  · exact .next (h.stall _)
  · exact hk

theorem trapAt_keeps {s : State} (h : s.Inv) (c : BitVec 8) (v : Word) : Keeps (trapAt s c v) := .next (h.trap _)

theorem needSup_keeps {i : Instr} {s : State} {k : Out} (h : s.Inv) (hk : Keeps k) : Keeps (needSup i s k) := by
  unfold needSup
  split
  · exact hk
  · exact trapAt_keeps h _ _

theorem userTrap_keeps {s : State} (h : s.Inv) (code : BitVec 8) (d v : Word) (t : BitVec 58) (b : Bool) :
    Keeps (userTrap s code d v t b) := by
  unfold userTrap
  split
  · exact trapAt_keeps h _ _
  · exact awaitG_keeps h (.next (h.upd (h.cur.enterUser _ _ _)))

theorem enabled_keeps {row : String} {o : Option State} (h : ∀ t, o = some t → t.Inv) : Keeps (enabled row o) := by
  unfold enabled
  split
  · exact .next (h _ rfl)
  · exact .refused _

theorem onlyIf_some {c : Bool} {s t : State} (h : onlyIf c s = some t) : c = true ∧ t = s := by
  unfold onlyIf at h
  split at h
  · cases h; exact ⟨‹_›, rfl⟩
  · cases h

end Sys2Proof.Machine
end

