-- ==== Sys2Proof/Laws/Lanes.lean ====
section
/-! SUPPORT. The windowed instructions with one vector or mask destination, or a g register as their result, in the terms of
the claims: what is left in the destination, what the flags gather, and that nothing else changes. -/

set_option Elab.async false

namespace Sys2Proof.Machine

/-- The flags of a range of units, bit by bit. -/
theorem flagsFrom_bit (fl : Nat → Flags) (acc : Flags) (e k i : Nat) :
    (flagsFrom fl (fun _ => true) acc e k).getLsbD i = true ↔
      acc.getLsbD i = true ∨ ∃ j, e ≤ j ∧ j < e + k ∧ (fl j).getLsbD i = true := by
  induction k generalizing acc e with
  | zero => simp only [flagsFrom]; constructor
            · exact Or.inl
            · rintro (h | ⟨j, h1, h2, -⟩)
              · exact h
              · omega
  | succ k ih =>
    simp only [flagsFrom, if_true]
    rw [ih, BitVec.getLsbD_or, Bool.or_eq_true]
    constructor
    · rintro ((h | h) | ⟨j, h1, h2, h3⟩)
      · exact .inl h
      · exact .inr ⟨e, Nat.le_refl _, by omega, h⟩
      · exact .inr ⟨j, by omega, by omega, h3⟩
    · rintro (h | ⟨j, h1, h2, h3⟩)
      · exact .inl (.inl h)
      · by_cases hj : j = e
        · subst hj; exact .inl (.inr h3)
        · exact .inr ⟨j, by omega, by omega, h3⟩

/-- The strand that a plain entry leaves, before its effect. -/
theorem entered_cur {op : WOp} {s : State} (ho : op.onEnter = id) :
    (entered op s).cur = { s.cur with window := [entryFor op s.cur], pc := s.cur.pc + 4 } := by
  unfold entered State.upd
  rw [ho]
  rfl

theorem entered_eq {op : WOp} {s : State} (ho : op.onEnter = id) :
    entered op s = { s with cur := { s.cur with window := [entryFor op s.cur], pc := s.cur.pc + 4 } } := by
  unfold entered State.upd
  rw [ho]
  rfl

/-- The effect of a register operation at its entry. -/
def WOp.effAt (op : WOp) (eff : Strand → Entry → Eff) (s : State) : Eff := eff (entered op s).cur (entryFor op s.cur)

theorem retired_eq {op : WOp} {s : State} {eff : Strand → Entry → Eff} (ho : op.onEnter = id) :
    retired op eff s = { s with cur := { s.cur with
      pc := s.cur.pc + 4, wcount := 0, window := [],
      v := ((op.effAt eff s).whole (entryFor op s.cur) (entered op s).cur).v,
      m := ((op.effAt eff s).whole (entryFor op s.cur) (entered op s).cur).m,
      g := ((op.effAt eff s).whole (entryFor op s.cur) (entered op s).cur).g,
      fflags := ((op.effAt eff s).whole (entryFor op s.cur) (entered op s).cur).fflags } } := by
  have h1 : retired op eff s = { s with cur :=
      { (op.effAt eff s).whole (entryFor op s.cur) (entered op s).cur with window := [], wcount := 0 } } := by
    unfold retired State.upd WOp.effAt
    rw [entered_eq ho]
  rw [h1, Eff.whole_rest, entered_cur ho]

theorem drop_window {st : Strand} (h : st.window = []) {p : Word} {v m g f} :
    ({ st with pc := p, wcount := 0, window := [], v := v, m := m, g := g, fflags := f } : Strand) =
      { st with pc := p, wcount := 0, v := v, m := m, g := g, fflags := f } := by
  rw [← h]

/-- A register operation that enters an empty window retires: what it leaves, field by field. -/
theorem issue_retired {op : WOp} {s : State} {eff : Strand → Entry → Eff} (hb : op.body = .regs eff) (h : Enters op s)
    (ho : op.onEnter = id) {ds : List VReg} {gs : List (BitVec 5)}
    (hd : ∀ d ∈ (op.effAt eff s).writes, d.reg ∈ ds)
    (hg : ∀ x, x ∉ gs → (((op.effAt eff s).whole (entryFor op s.cur) (entered op s).cur).rg x) = s.rg x) :
    issue op s = .next (retired op eff s) ∧ s.Retired (retired op eff s) ds gs := by
  refine ⟨issue_regs hb h (by rw [ho]; exact Plain.id), ?_, ?_, ?_⟩
  · rw [retired_eq ho]
    exact congrArg (fun c => { s with cur := c }) (drop_window h.empty)
  · intro q hq
    have := Eff.whole_other (op.effAt eff s) (entryFor op s.cur) (entered op s).cur (q := q)
      (fun d hm e => hq (e ▸ hd d hm))
    rw [retired_eq ho, show s.cur.rbits q = (entered op s).cur.rbits q from
      rbits_of_rest (by rw [entered_cur ho]) (by rw [entered_cur ho]) q, ← this]
    exact rbits_of_rest rfl rfl q
  · intro x hx
    rw [retired_eq ho, ← hg x hx]
    rfl

theorem whole_g_none (x : Eff) {en : Entry} (st : Strand) (h : en.gpend = none) (r : BitVec 5) :
    (x.whole en st).rg r = st.rg r := by
  unfold Eff.whole
  rw [Strand.returnG_none _ h]
  split
  · rfl
  · rw [Eff.tails_rest, Eff.fire_rest]
    rfl

/-- An operation with one destination. -/
theorem issue_one {op : WOp} {s : State} {eff : Strand → Entry → Eff} (hb : op.body = .regs eff) (h : Enters op s)
    (ho : op.onEnter = id) (hg : gDest op.ins = none) {x : VWrite} (hx : (op.effAt eff s).writes = [x])
    (ht : x.tail = some x.upto) :
    ∃ t, issue op s = .next t ∧ s.Retired t [x.reg] [] ∧
      (t.cur.fflags = if s.cur.vl = 0 then s.cur.fflags else s.cur.fflags |||
        flagsFrom (op.effAt eff s).fl (fun _ => true) 0 0 (op.effAt eff s).nfl) ∧
      ∀ e, x.w * (e + 1) ≤ x.reg.bits → bitsAt (t.cur.rbits x.reg) x.w e =
        if s.cur.vl = 0 then bitsAt (s.cur.rbits x.reg) x.w e
        else if e < x.upto then (match x.val e with | some v => v % 2 ^ x.w | none => bitsAt (s.cur.rbits x.reg) x.w e)
        else if s.cur.vtype.getLsbD 5 = true then 0 else bitsAt (s.cur.rbits x.reg) x.w e := by
  have hgp : (entryFor op s.cur).gpend = none := hg
  have hvl : (entryFor op s.cur).vl = s.cur.vl := rfl
  have hr := issue_retired hb h ho (ds := [x.reg]) (gs := []) (by rw [hx]; simp) (by
    intro r _
    rw [whole_g_none _ _ hgp, entered_cur ho]
    rfl)
  refine ⟨_, hr.1, hr.2, ?_, ?_⟩
  · rw [retired_eq ho]
    show ((op.effAt eff s).whole (entryFor op s.cur) (entered op s).cur).fflags = _
    rw [Eff.whole_fflags, entered_cur ho]
    rfl
  · intro e he
    rw [retired_eq ho]
    show bitsAt (((op.effAt eff s).whole (entryFor op s.cur) (entered op s).cur).rbits x.reg) x.w e = _
    have hc : ∀ q, (entered op s).cur.rbits q = s.cur.rbits q := by
      intro q; rw [entered_cur ho]; exact rbits_of_rest rfl rfl q
    by_cases hv : s.cur.vl = 0
    · rw [if_pos hv, Eff.whole_vl0 _ _ (hvl.trans hv), hc]
    · rw [if_neg hv, Eff.whole_unit _ _ x hx (by rw [hvl]; exact hv) ht e he, hc]
      have htp : (entryFor op s.cur).tpol = s.cur.vtype.getLsbD 5 := by
        show (s.cur.vtype.setWidth 16).getLsbD 5 = _
        rw [BitVec.getLsbD_setWidth]; simp
      rw [htp]
      all_goals (cases x.val e <;> rfl)

/-- The values of a guarded destination, in the terms of the claims. -/
theorem units_guarded {s t : State} {d : VReg} {w n : Nat} {en : Entry} {act act' : Nat → Bool} {f f' : Nat → Nat}
    (hm : en.mpol = s.cur.vtype.getLsbD 4) (ha : ∀ e < n, act e = act' e) (hf : ∀ e < n, act e = true → f e % 2 ^ w = f' e % 2 ^ w)
    (h : ∀ e, w * (e + 1) ≤ d.bits → bitsAt (t.cur.rbits d) w e =
        if s.cur.vl = 0 then bitsAt (s.cur.rbits d) w e
        else if e < n then (match policed en (act e) (f e) with | some v => v % 2 ^ w | none => bitsAt (s.cur.rbits d) w e)
        else if s.cur.vtype.getLsbD 5 = true then 0 else bitsAt (s.cur.rbits d) w e) :
    s.Units t d w n act' f' := by
  intro e he
  rw [h e he]
  by_cases hv : s.cur.vl = 0
  · simp [hv]
  · by_cases hn : e < n
    · have hn' : ¬ n ≤ e := by omega
      simp only [hv, hn, hn', if_false, if_true, false_and, and_false, true_and, ne_eq, not_false_eq_true, ← ha e hn]
      unfold policed
      cases hac : act e
      · simp only [Bool.false_eq_true, if_false, hm]
        cases s.cur.vtype.getLsbD 4 <;> simp
      · simp only [if_true]
        exact hf e hn hac
    · have hn' : n ≤ e := by omega
      simp only [hv, hn, hn', if_false, false_and, and_false, true_and, ne_eq, not_false_eq_true]

theorem gathers_from {s t : State} {n : Nat} {act act' : Nat → Bool} {fl fl' : Nat → Flags}
    (ha : ∀ e < n, act e = act' e) (hf : ∀ e < n, act e = true → fl e = fl' e)
    (h : t.cur.fflags = if s.cur.vl = 0 then s.cur.fflags else s.cur.fflags |||
        flagsFrom (fun e => if act e = true then fl e else 0) (fun _ => true) 0 0 n) : s.Gathers t n act' fl' := by
  intro k
  rw [h]
  by_cases hv : s.cur.vl = 0
  · simp [hv]
  · simp only [hv, if_false, BitVec.getLsbD_or, Bool.or_eq_true, ne_eq, not_false_eq_true, true_and]
    rw [flagsFrom_bit]
    constructor
    · rintro (h | h | ⟨j, -, h2, h3⟩)
      · exact .inl h
      · simp at h
      · cases hac : act j
        · simp [hac] at h3
        · exact .inr ⟨j, by omega, by rw [← ha j (by omega)]; exact hac, by
            rw [← hf j (by omega) hac]; simpa [hac] using h3⟩
    · rintro (h | ⟨j, h2, h3, h4⟩)
      · exact .inl h
      · refine .inr (.inr ⟨j, by omega, by omega, ?_⟩)
        have h5 := h3
        rw [← ha j h2] at h3
        rw [if_pos h3, hf j h2 h3]; exact h4

/-- A flagless operation with one guarded destination. -/
theorem issue_writes {op : WOp} {s : State} {eff : Strand → Entry → Eff} (hb : op.body = .regs eff) (h : Enters op s)
    (ho : op.onEnter = id) (hg : gDest op.ins = none) {d : VReg} {w n : Nat} {act act' : Nat → Bool} {f f' : Nat → Nat}
    (hx : (op.effAt eff s).writes = [guarded d w n (entryFor op s.cur) act f]) (hn : (op.effAt eff s).nfl = 0)
    (ha : ∀ e < n, act e = act' e) (hf : ∀ e < n, act e = true → f e % 2 ^ w = f' e % 2 ^ w) :
    ∃ t, issue op s = .next t ∧ s.Retired t [d] [] ∧ s.Units t d w n act' f' ∧ t.cur.fflags = s.cur.fflags := by
  obtain ⟨t, h1, h2, h3, h4⟩ := issue_one hb h ho hg hx rfl
  refine ⟨t, h1, h2, units_guarded ?_ ha hf h4, ?_⟩
  · show (s.cur.vtype.setWidth 16).getLsbD 4 = _
    rw [BitVec.getLsbD_setWidth]; simp
  · rw [h3, hn]; simp [flagsFrom]

/-- A flagless operation with one destination, all of it written. -/
theorem issue_plain {op : WOp} {s : State} {eff : Strand → Entry → Eff} (hb : op.body = .regs eff) (h : Enters op s)
    (ho : op.onEnter = id) (hg : gDest op.ins = none) {d : VReg} {w n : Nat} {f f' : Nat → Nat}
    (hx : (op.effAt eff s).writes = [plain d w n f]) (hn : (op.effAt eff s).nfl = 0)
    (hf : ∀ e < n, f e % 2 ^ w = f' e % 2 ^ w) :
    ∃ t, issue op s = .next t ∧ s.Retired t [d] [] ∧ s.Units t d w n (fun _ => true) f' ∧
      t.cur.fflags = s.cur.fflags :=
  issue_writes hb h ho hg (act := fun _ => true) (f := f) hx hn (fun _ _ => rfl) fun e he _ => hf e he

/-- An operation with flags and one guarded destination. -/
theorem issue_writesFp {op : WOp} {s : State} {eff : Strand → Entry → Eff} (hb : op.body = .regs eff) (h : Enters op s)
    (ho : op.onEnter = id) (hg : gDest op.ins = none) {d : VReg} {w n : Nat} {act act' : Nat → Bool} {f : Nat → Nat}
    {fl : Nat → Flags} {r : Nat → Res}
    (hx : (op.effAt eff s).writes = [guarded d w n (entryFor op s.cur) act f]) (hn : (op.effAt eff s).nfl = n)
    (hfl : (op.effAt eff s).fl = fun e => if act e = true then fl e else 0)
    (ha : ∀ e < n, act e = act' e) (hf : ∀ e < n, act e = true → f e % 2 ^ w = (r e).bits % 2 ^ w)
    (hr : ∀ e < n, act e = true → fl e = (r e).fl) :
    ∃ t, issue op s = .next t ∧ s.Retired t [d] [] ∧ s.Units t d w n act' (fun e => (r e).bits) ∧
      s.Gathers t n act' fun e => (r e).fl := by
  obtain ⟨t, h1, h2, h3, h4⟩ := issue_one hb h ho hg hx rfl
  refine ⟨t, h1, h2, units_guarded ?_ ha hf h4, gathers_from ha hr ?_⟩
  · show (s.cur.vtype.setWidth 16).getLsbD 4 = _
    rw [BitVec.getLsbD_setWidth]; simp
  · rw [h3, hn, hfl]

/-- An operation whose only effect is the value of its g register. -/
theorem issue_returns {op : WOp} {s : State} {eff : Strand → Entry → Eff} (hb : op.body = .regs eff) (h : Enters op s)
    (ho : op.onEnter = id) {a : BitVec 5} {w : Word} (hg : gDest op.ins = some a ∨ a = 0#5 ∧ gDest op.ins = none)
    (hx : (op.effAt eff s).writes = []) (hn : (op.effAt eff s).nfl = 0) (hw : (op.effAt eff s).g = some w) :
    issue op s = .next ((s.upd fun st => { st with pc := st.pc + 4, wcount := 0 }).wg a w) := by
  rw [issue_regs hb h (by rw [ho]; exact Plain.id)]
  have h1 : retired op eff s = { s with cur :=
      { (op.effAt eff s).whole (entryFor op s.cur) (entered op s).cur with window := [], wcount := 0 } } := by
    unfold retired State.upd WOp.effAt
    rw [entered_eq ho]
  rw [h1]
  congr 1
  have h2 : (op.effAt eff s).whole (entryFor op s.cur) (entered op s).cur =
      (entered op s).cur.returnG (entryFor op s.cur) (some w) := by
    unfold Eff.whole Eff.tails Eff.fire Strand.raise
    rw [hx, hn, hw]
    simp only [List.foldl_nil, flagsFrom]
    split
    · rfl
    · simp
  rw [h2, entered_cur ho]
  have hgp : (entryFor op s.cur).gpend = gDest op.ins := rfl
  unfold Strand.returnG
  rw [hgp]
  unfold State.wg State.upd Strand.wg
  rcases hg with hg | ⟨rfl, hg⟩ <;> rw [hg]
  · by_cases ha : (a == 0#5) = true
    · simp only [ha, if_true]; rw [← h.empty]
    · simp only [ha]; rw [← h.empty]; rfl
  · simp only [beq_self_eq_true, if_true]; rw [← h.empty]

/-- A windowed operation of a strand at rest passes its checks. -/
theorem State.Open.enters {op : WOp} {s : State} (h : s.Open op.ins) (hh : op.holds s = false)
    (hw : op.waits s.cur = false) (hp : op.pre s = none) (ha : op.access = false) (he : op.etypes s.etype = true)
    (hs : ((s.cur.vl != 0#32) || op.anyVl) = true → op.shape s.cur = false)
    (hc : op.cause s = .ok s ()) : Enters op s :=
  ⟨h.rest.window, h.rest.inOrder, h.rest.free, hh, hw, hp, fun _ => ⟨he, by simp [ha]⟩, hs, fun _ => hc, h.unstreamed⟩

/-- The guard of a claim is that of an entry, below N. -/
theorem guard_eq {s : State} {st : Strand} (hm : st.m = s.cur.m) (m : BitVec 3) {e n : Nat} (he : e < n) :
    st.active m n e = s.guard m e := by
  unfold Strand.active State.guard Strand.mbit Strand.mbits
  rw [hm, decide_eq_true he, Bool.true_and]

/-- The same over a whole entry. -/
theorem act_eq (op : WOp) {s : State} (ho : op.onEnter = id) (m : BitVec 3) {e : Nat} (he : e < s.count) :
    (entryFor op s.cur).act (entered op s).cur m e = s.guard m e := by
  rw [entered_cur ho]
  exact guard_eq rfl m he

/-- An element-wise instruction without flags. -/
theorem laneOp_writes {i : Instr} {ets : Nat → Bool} {gs : List (BitVec 5)} {latch : Strand → Latch} {a : BitVec 5}
    {m : BitVec 3} {f : Strand → Entry → Nat → Res} {s : State} {g : Nat → Bool} {r : Nat → Nat} (h : s.Open i)
    (hd : gDest i = none) (he : ets s.etype = true) (hg : ∀ e < s.count, s.guard m e = g e)
    (hr : ∀ e < s.count, let op := laneOp i ets gs latch false a m f
      (f (entered op s).cur (entryFor op s.cur) e).bits % 2 ^ s.sew = r e % 2 ^ s.sew) :
    ∃ t, issue (laneOp i ets gs latch false a m f) s = .next t ∧ s.Retired t [.v a] [] ∧
      s.Units t (.v a) s.sew s.count g r ∧ t.cur.fflags = s.cur.fflags :=
  issue_writes (op := laneOp i ets gs latch false a m f) rfl
    (State.Open.enters h rfl rfl rfl rfl he (fun _ => rfl) rfl) rfl hd rfl rfl
    (fun e hn => (act_eq _ rfl m hn).trans (hg e hn)) fun e hn _ => hr e hn

/-- An element-wise instruction with flags. -/
theorem laneOp_writesFp {i : Instr} {ets : Nat → Bool} {gs : List (BitVec 5)} {latch : Strand → Latch} {a : BitVec 5}
    {m : BitVec 3} {f : Strand → Entry → Nat → Res} {s : State} {r : Nat → Res} (h : s.Open i)
    (hd : gDest i = none) (he : ets s.etype = true)
    (hr : ∀ e < s.count, let op := laneOp i ets gs latch true a m f
      f (entered op s).cur (entryFor op s.cur) e = r e) :
    ∃ t, issue (laneOp i ets gs latch true a m f) s = .next t ∧ s.Retired t [.v a] [] ∧
      s.Units t (.v a) s.sew s.count (s.guard m) (fun e => (r e).bits) ∧
      s.Gathers t s.count (s.guard m) fun e => (r e).fl :=
  issue_writesFp (op := laneOp i ets gs latch true a m f) rfl
    (State.Open.enters h rfl rfl rfl rfl he (fun _ => rfl) rfl) rfl hd rfl rfl rfl
    (fun e hn => act_eq _ rfl m hn) (fun e hn _ => by rw [← hr e hn]) fun e hn _ => by rw [← hr e hn]

/-- A second operand at its entry is that of the claims. -/
theorem op2_val {op : WOp} {s : State} (ho : op.onEnter = id) {f : BitVec 2} {c : BitVec 5}
    (hl : op.latch = (op2Of f c).latch) (w e : Nat) :
    (op2Of f c).val (entered op s).cur (entryFor op s.cur) w e = s.second f c w e := by
  rw [entered_cur ho]
  have ho : (entryFor op s.cur).opc = ((op2Of f c).latch s.cur).opc := by
    show (op.latch s.cur).opc = _
    rw [hl]
  unfold State.second Op2.val
  by_cases h0 : f = 0
  · subst h0; rfl
  · by_cases h1 : f = 1
    · subst h1
      simp only [op2Of] at ho ⊢
      rw [ho]; rfl
    · have : op2Of f c = .imm c := by
        unfold op2Of
        rw [if_neg (by simpa using h0), if_neg (by simpa using h1)]
      rw [this, if_neg h0, if_neg h1]
      rfl

theorem second_lt (s : State) (f : BitVec 2) (c : BitVec 5) (w e : Nat) : s.second f c w e < 2 ^ w := by
  unfold State.second
  split
  · exact Strand.elem_lt _ _ _ _
  · split
    · exact Nat.mod_lt _ (Nat.two_pow_pos _)
    · exact BitVec.isLt _

/-- A member of VINT whose result depends on the width. -/
theorem vint_writes {i : Instr} {a b c : BitVec 5} {m : BitVec 3} {fm : BitVec 2} {f : Nat → Nat → Nat → Nat} {s : State}
    {r : Nat → Nat} (h : s.Open i) (hd : gDest i = none) (he : s.etype < 8)
    (hr : ∀ e, f s.sew (s.cur.elem b s.sew e) (s.second fm c s.sew e) % 2 ^ s.sew = r e % 2 ^ s.sew) :
    ∃ t, issue (vint i a b c m fm f) s = .next t ∧ s.Retired t [.v a] [] ∧
      s.Units t (.v a) s.sew s.count (s.guard m) r ∧ t.cur.fflags = s.cur.fflags := by
  refine laneOp_writes h hd (by simpa [isInt] using he) (fun _ _ => rfl) fun e _ => ?_
  rw [← hr e]
  dsimp only
  rw [op2_val rfl rfl]
  rfl

/-- A member of VINT whose result depends on the etype. -/
theorem vintT_writes {i : Instr} {a b c : BitVec 5} {m : BitVec 3} {fm : BitVec 2} {f : Nat → Nat → Nat → Nat} {s : State}
    {r : Nat → Nat} (h : s.Open i) (hd : gDest i = none) (he : s.etype < 8)
    (hr : ∀ e, f s.etype (s.cur.elem b s.sew e) (s.second fm c s.sew e) % 2 ^ s.sew = r e % 2 ^ s.sew) :
    ∃ t, issue (vintT i a b c m fm f) s = .next t ∧ s.Retired t [.v a] [] ∧
      s.Units t (.v a) s.sew s.count (s.guard m) r ∧ t.cur.fflags = s.cur.fflags := by
  refine laneOp_writes h hd (by simpa [isInt] using he) (fun _ _ => rfl) fun e _ => ?_
  rw [← hr e]
  dsimp only
  rw [op2_val rfl rfl]
  rfl

/-- A member of VINT with a carry mask. -/
theorem vintCarry_writes {i : Instr} {a b c : BitVec 5} {m : BitVec 3} {fm : BitVec 2} {f : Nat → Nat → Nat → Nat → Nat}
    {s : State} {r : Nat → Nat} (h : s.Open i) (hd : gDest i = none) (he : s.etype < 8)
    (hr : ∀ e, f s.sew (s.cur.elem b s.sew e) (s.second fm c s.sew e) (s.cur.mbit m e).toNat % 2 ^ s.sew =
      r e % 2 ^ s.sew) :
    ∃ t, issue (vintCarry i a b c m fm f) s = .next t ∧ s.Retired t [.v a] [] ∧
      s.Units t (.v a) s.sew s.count (fun _ => true) r ∧ t.cur.fflags = s.cur.fflags := by
  refine laneOp_writes h hd (by simpa [isInt] using he) (fun _ _ => rfl) fun e _ => ?_
  rw [← hr e]
  dsimp only
  rw [op2_val rfl rfl]
  rfl

end Sys2Proof.Machine
end

