-- ==== Sys2Proof/Laws/PerInstr.lean ====
section
/-! SUPPORT. Per instruction: decoding the word that encodes a well-formed instruction gives it back. -/

namespace Sys2Proof.Laws.RoundTrip

/-- Decoding undoes encoding, for a well-formed instruction. -/
def Statement (i : Instr) : Prop := ∀ w, encode i = some w → illFormed i = none → decode w = .ok i

/-- A word whose major opcode is neither 0 nor 63 is neither of the two reserved words. -/
theorem decode_eq_checked (w : BitVec 32) (k : BitVec 6) (h : w.extractLsb' 26 6 = k)
    (h0 : (k == 0#6 || k == 63#6) = false) : decode w = checked (decodeMap w) := by
  have : (w == 0#32 || w == 0xFFFFFFFF#32) = false := by
    rcases Decidable.em (w = 0#32) with e | e
    · subst e; subst h; simp at h0
    · rcases Decidable.em (w = 0xFFFFFFFF#32) with e' | e'
      · subst e'; subst h; simp at h0
      · simp [e, e']
  simp only [decode, this, Bool.false_eq_true, if_false]

set_option linter.unusedSimpArgs false
set_option Elab.async false

theorem vstrip (a b c : BitVec 5) (x y : BitVec 1) (e : BitVec 4) : Statement (.vstrip a b c x y e) := by
  intro w hw hi
  simp only [encode, Option.some.injEq] at hw
  subst hw
  rw [decode_eq_checked _ 32#6 (by simp (disch := decide) only [BitVec.extractLsb'_append_eq_of_le, BitVec.extractLsb'_append_eq_of_add_le,
    BitVec.extractLsb'_eq_self, BitVec.reduceExtractLsb', Nat.reduceSub]) rfl]
  simp (disch := decide) only [decodeMap, decodeEngines, BitVec.extractLsb'_append_eq_of_le, BitVec.extractLsb'_append_eq_of_add_le,
    BitVec.extractLsb'_eq_self, BitVec.reduceExtractLsb', Nat.reduceSub, zeroed]
  simp only [checked, hi, ite_true, beq_self_eq_true, Bool.and_self, BitVec.reduceBEq,
    Bool.false_eq_true, if_false]

theorem vadd (a b c : BitVec 5) (m : BitVec 3) (f : BitVec 2) : Statement (.vadd a b c m f) := by
  intro w hw hi
  simp only [encode, Option.some.injEq] at hw
  subst hw
  rw [decode_eq_checked _ 33#6 (by simp (disch := decide) only [BitVec.extractLsb'_append_eq_of_le, BitVec.extractLsb'_append_eq_of_add_le,
    BitVec.extractLsb'_eq_self, BitVec.reduceExtractLsb', Nat.reduceSub]) rfl]
  simp (disch := decide) only [decodeMap, decodeEngines, decVint, BitVec.extractLsb'_append_eq_of_le, BitVec.extractLsb'_append_eq_of_add_le,
    BitVec.extractLsb'_eq_self, BitVec.reduceExtractLsb', Nat.reduceSub, zeroed]
  simp only [checked, hi, ite_true, beq_self_eq_true, Bool.and_self, BitVec.reduceBEq,
    Bool.false_eq_true, if_false]

theorem vsub (a b c : BitVec 5) (m : BitVec 3) (f : BitVec 2) : Statement (.vsub a b c m f) := by
  intro w hw hi
  simp only [encode, Option.some.injEq] at hw
  subst hw
  rw [decode_eq_checked _ 33#6 (by simp (disch := decide) only [BitVec.extractLsb'_append_eq_of_le, BitVec.extractLsb'_append_eq_of_add_le,
    BitVec.extractLsb'_eq_self, BitVec.reduceExtractLsb', Nat.reduceSub]) rfl]
  simp (disch := decide) only [decodeMap, decodeEngines, decVint, BitVec.extractLsb'_append_eq_of_le, BitVec.extractLsb'_append_eq_of_add_le,
    BitVec.extractLsb'_eq_self, BitVec.reduceExtractLsb', Nat.reduceSub, zeroed]
  simp only [checked, hi, ite_true, beq_self_eq_true, Bool.and_self, BitVec.reduceBEq,
    Bool.false_eq_true, if_false]

theorem vmul (a b c : BitVec 5) (m : BitVec 3) (f : BitVec 2) : Statement (.vmul a b c m f) := by
  intro w hw hi
  simp only [encode, Option.some.injEq] at hw
  subst hw
  rw [decode_eq_checked _ 33#6 (by simp (disch := decide) only [BitVec.extractLsb'_append_eq_of_le, BitVec.extractLsb'_append_eq_of_add_le,
    BitVec.extractLsb'_eq_self, BitVec.reduceExtractLsb', Nat.reduceSub]) rfl]
  simp (disch := decide) only [decodeMap, decodeEngines, decVint, BitVec.extractLsb'_append_eq_of_le, BitVec.extractLsb'_append_eq_of_add_le,
    BitVec.extractLsb'_eq_self, BitVec.reduceExtractLsb', Nat.reduceSub, zeroed]
  simp only [checked, hi, ite_true, beq_self_eq_true, Bool.and_self, BitVec.reduceBEq,
    Bool.false_eq_true, if_false]

theorem vmulh (a b c : BitVec 5) (m : BitVec 3) (f : BitVec 2) : Statement (.vmulh a b c m f) := by
  intro w hw hi
  simp only [encode, Option.some.injEq] at hw
  subst hw
  rw [decode_eq_checked _ 33#6 (by simp (disch := decide) only [BitVec.extractLsb'_append_eq_of_le, BitVec.extractLsb'_append_eq_of_add_le,
    BitVec.extractLsb'_eq_self, BitVec.reduceExtractLsb', Nat.reduceSub]) rfl]
  simp (disch := decide) only [decodeMap, decodeEngines, decVint, BitVec.extractLsb'_append_eq_of_le, BitVec.extractLsb'_append_eq_of_add_le,
    BitVec.extractLsb'_eq_self, BitVec.reduceExtractLsb', Nat.reduceSub, zeroed]
  simp only [checked, hi, ite_true, beq_self_eq_true, Bool.and_self, BitVec.reduceBEq,
    Bool.false_eq_true, if_false]

theorem vmulhn (a b c : BitVec 5) (m : BitVec 3) (f : BitVec 2) : Statement (.vmulhn a b c m f) := by
  intro w hw hi
  simp only [encode, Option.some.injEq] at hw
  subst hw
  rw [decode_eq_checked _ 33#6 (by simp (disch := decide) only [BitVec.extractLsb'_append_eq_of_le, BitVec.extractLsb'_append_eq_of_add_le,
    BitVec.extractLsb'_eq_self, BitVec.reduceExtractLsb', Nat.reduceSub]) rfl]
  simp (disch := decide) only [decodeMap, decodeEngines, decVint, BitVec.extractLsb'_append_eq_of_le, BitVec.extractLsb'_append_eq_of_add_le,
    BitVec.extractLsb'_eq_self, BitVec.reduceExtractLsb', Nat.reduceSub, zeroed]
  simp only [checked, hi, ite_true, beq_self_eq_true, Bool.and_self, BitVec.reduceBEq,
    Bool.false_eq_true, if_false]

theorem vdiv (a b c : BitVec 5) (m : BitVec 3) (f : BitVec 2) : Statement (.vdiv a b c m f) := by
  intro w hw hi
  simp only [encode, Option.some.injEq] at hw
  subst hw
  rw [decode_eq_checked _ 33#6 (by simp (disch := decide) only [BitVec.extractLsb'_append_eq_of_le, BitVec.extractLsb'_append_eq_of_add_le,
    BitVec.extractLsb'_eq_self, BitVec.reduceExtractLsb', Nat.reduceSub]) rfl]
  simp (disch := decide) only [decodeMap, decodeEngines, decVint, BitVec.extractLsb'_append_eq_of_le, BitVec.extractLsb'_append_eq_of_add_le,
    BitVec.extractLsb'_eq_self, BitVec.reduceExtractLsb', Nat.reduceSub, zeroed]
  simp only [checked, hi, ite_true, beq_self_eq_true, Bool.and_self, BitVec.reduceBEq,
    Bool.false_eq_true, if_false]

theorem vdivn (a b c : BitVec 5) (m : BitVec 3) (f : BitVec 2) : Statement (.vdivn a b c m f) := by
  intro w hw hi
  simp only [encode, Option.some.injEq] at hw
  subst hw
  rw [decode_eq_checked _ 33#6 (by simp (disch := decide) only [BitVec.extractLsb'_append_eq_of_le, BitVec.extractLsb'_append_eq_of_add_le,
    BitVec.extractLsb'_eq_self, BitVec.reduceExtractLsb', Nat.reduceSub]) rfl]
  simp (disch := decide) only [decodeMap, decodeEngines, decVint, BitVec.extractLsb'_append_eq_of_le, BitVec.extractLsb'_append_eq_of_add_le,
    BitVec.extractLsb'_eq_self, BitVec.reduceExtractLsb', Nat.reduceSub, zeroed]
  simp only [checked, hi, ite_true, beq_self_eq_true, Bool.and_self, BitVec.reduceBEq,
    Bool.false_eq_true, if_false]

theorem vrem (a b c : BitVec 5) (m : BitVec 3) (f : BitVec 2) : Statement (.vrem a b c m f) := by
  intro w hw hi
  simp only [encode, Option.some.injEq] at hw
  subst hw
  rw [decode_eq_checked _ 33#6 (by simp (disch := decide) only [BitVec.extractLsb'_append_eq_of_le, BitVec.extractLsb'_append_eq_of_add_le,
    BitVec.extractLsb'_eq_self, BitVec.reduceExtractLsb', Nat.reduceSub]) rfl]
  simp (disch := decide) only [decodeMap, decodeEngines, decVint, BitVec.extractLsb'_append_eq_of_le, BitVec.extractLsb'_append_eq_of_add_le,
    BitVec.extractLsb'_eq_self, BitVec.reduceExtractLsb', Nat.reduceSub, zeroed]
  simp only [checked, hi, ite_true, beq_self_eq_true, Bool.and_self, BitVec.reduceBEq,
    Bool.false_eq_true, if_false]

theorem vremn (a b c : BitVec 5) (m : BitVec 3) (f : BitVec 2) : Statement (.vremn a b c m f) := by
  intro w hw hi
  simp only [encode, Option.some.injEq] at hw
  subst hw
  rw [decode_eq_checked _ 33#6 (by simp (disch := decide) only [BitVec.extractLsb'_append_eq_of_le, BitVec.extractLsb'_append_eq_of_add_le,
    BitVec.extractLsb'_eq_self, BitVec.reduceExtractLsb', Nat.reduceSub]) rfl]
  simp (disch := decide) only [decodeMap, decodeEngines, decVint, BitVec.extractLsb'_append_eq_of_le, BitVec.extractLsb'_append_eq_of_add_le,
    BitVec.extractLsb'_eq_self, BitVec.reduceExtractLsb', Nat.reduceSub, zeroed]
  simp only [checked, hi, ite_true, beq_self_eq_true, Bool.and_self, BitVec.reduceBEq,
    Bool.false_eq_true, if_false]

theorem vmin (a b c : BitVec 5) (m : BitVec 3) (f : BitVec 2) : Statement (.vmin a b c m f) := by
  intro w hw hi
  simp only [encode, Option.some.injEq] at hw
  subst hw
  rw [decode_eq_checked _ 33#6 (by simp (disch := decide) only [BitVec.extractLsb'_append_eq_of_le, BitVec.extractLsb'_append_eq_of_add_le,
    BitVec.extractLsb'_eq_self, BitVec.reduceExtractLsb', Nat.reduceSub]) rfl]
  simp (disch := decide) only [decodeMap, decodeEngines, decVint, BitVec.extractLsb'_append_eq_of_le, BitVec.extractLsb'_append_eq_of_add_le,
    BitVec.extractLsb'_eq_self, BitVec.reduceExtractLsb', Nat.reduceSub, zeroed]
  simp only [checked, hi, ite_true, beq_self_eq_true, Bool.and_self, BitVec.reduceBEq,
    Bool.false_eq_true, if_false]

theorem vmax (a b c : BitVec 5) (m : BitVec 3) (f : BitVec 2) : Statement (.vmax a b c m f) := by
  intro w hw hi
  simp only [encode, Option.some.injEq] at hw
  subst hw
  rw [decode_eq_checked _ 33#6 (by simp (disch := decide) only [BitVec.extractLsb'_append_eq_of_le, BitVec.extractLsb'_append_eq_of_add_le,
    BitVec.extractLsb'_eq_self, BitVec.reduceExtractLsb', Nat.reduceSub]) rfl]
  simp (disch := decide) only [decodeMap, decodeEngines, decVint, BitVec.extractLsb'_append_eq_of_le, BitVec.extractLsb'_append_eq_of_add_le,
    BitVec.extractLsb'_eq_self, BitVec.reduceExtractLsb', Nat.reduceSub, zeroed]
  simp only [checked, hi, ite_true, beq_self_eq_true, Bool.and_self, BitVec.reduceBEq,
    Bool.false_eq_true, if_false]

theorem vminn (a b c : BitVec 5) (m : BitVec 3) (f : BitVec 2) : Statement (.vminn a b c m f) := by
  intro w hw hi
  simp only [encode, Option.some.injEq] at hw
  subst hw
  rw [decode_eq_checked _ 33#6 (by simp (disch := decide) only [BitVec.extractLsb'_append_eq_of_le, BitVec.extractLsb'_append_eq_of_add_le,
    BitVec.extractLsb'_eq_self, BitVec.reduceExtractLsb', Nat.reduceSub]) rfl]
  simp (disch := decide) only [decodeMap, decodeEngines, decVint, BitVec.extractLsb'_append_eq_of_le, BitVec.extractLsb'_append_eq_of_add_le,
    BitVec.extractLsb'_eq_self, BitVec.reduceExtractLsb', Nat.reduceSub, zeroed]
  simp only [checked, hi, ite_true, beq_self_eq_true, Bool.and_self, BitVec.reduceBEq,
    Bool.false_eq_true, if_false]

theorem vmaxn (a b c : BitVec 5) (m : BitVec 3) (f : BitVec 2) : Statement (.vmaxn a b c m f) := by
  intro w hw hi
  simp only [encode, Option.some.injEq] at hw
  subst hw
  rw [decode_eq_checked _ 33#6 (by simp (disch := decide) only [BitVec.extractLsb'_append_eq_of_le, BitVec.extractLsb'_append_eq_of_add_le,
    BitVec.extractLsb'_eq_self, BitVec.reduceExtractLsb', Nat.reduceSub]) rfl]
  simp (disch := decide) only [decodeMap, decodeEngines, decVint, BitVec.extractLsb'_append_eq_of_le, BitVec.extractLsb'_append_eq_of_add_le,
    BitVec.extractLsb'_eq_self, BitVec.reduceExtractLsb', Nat.reduceSub, zeroed]
  simp only [checked, hi, ite_true, beq_self_eq_true, Bool.and_self, BitVec.reduceBEq,
    Bool.false_eq_true, if_false]

theorem vand (a b c : BitVec 5) (m : BitVec 3) (f : BitVec 2) : Statement (.vand a b c m f) := by
  intro w hw hi
  simp only [encode, Option.some.injEq] at hw
  subst hw
  rw [decode_eq_checked _ 33#6 (by simp (disch := decide) only [BitVec.extractLsb'_append_eq_of_le, BitVec.extractLsb'_append_eq_of_add_le,
    BitVec.extractLsb'_eq_self, BitVec.reduceExtractLsb', Nat.reduceSub]) rfl]
  simp (disch := decide) only [decodeMap, decodeEngines, decVint, BitVec.extractLsb'_append_eq_of_le, BitVec.extractLsb'_append_eq_of_add_le,
    BitVec.extractLsb'_eq_self, BitVec.reduceExtractLsb', Nat.reduceSub, zeroed]
  simp only [checked, hi, ite_true, beq_self_eq_true, Bool.and_self, BitVec.reduceBEq,
    Bool.false_eq_true, if_false]

theorem vor (a b c : BitVec 5) (m : BitVec 3) (f : BitVec 2) : Statement (.vor a b c m f) := by
  intro w hw hi
  simp only [encode, Option.some.injEq] at hw
  subst hw
  rw [decode_eq_checked _ 33#6 (by simp (disch := decide) only [BitVec.extractLsb'_append_eq_of_le, BitVec.extractLsb'_append_eq_of_add_le,
    BitVec.extractLsb'_eq_self, BitVec.reduceExtractLsb', Nat.reduceSub]) rfl]
  simp (disch := decide) only [decodeMap, decodeEngines, decVint, BitVec.extractLsb'_append_eq_of_le, BitVec.extractLsb'_append_eq_of_add_le,
    BitVec.extractLsb'_eq_self, BitVec.reduceExtractLsb', Nat.reduceSub, zeroed]
  simp only [checked, hi, ite_true, beq_self_eq_true, Bool.and_self, BitVec.reduceBEq,
    Bool.false_eq_true, if_false]

theorem vxor (a b c : BitVec 5) (m : BitVec 3) (f : BitVec 2) : Statement (.vxor a b c m f) := by
  intro w hw hi
  simp only [encode, Option.some.injEq] at hw
  subst hw
  rw [decode_eq_checked _ 33#6 (by simp (disch := decide) only [BitVec.extractLsb'_append_eq_of_le, BitVec.extractLsb'_append_eq_of_add_le,
    BitVec.extractLsb'_eq_self, BitVec.reduceExtractLsb', Nat.reduceSub]) rfl]
  simp (disch := decide) only [decodeMap, decodeEngines, decVint, BitVec.extractLsb'_append_eq_of_le, BitVec.extractLsb'_append_eq_of_add_le,
    BitVec.extractLsb'_eq_self, BitVec.reduceExtractLsb', Nat.reduceSub, zeroed]
  simp only [checked, hi, ite_true, beq_self_eq_true, Bool.and_self, BitVec.reduceBEq,
    Bool.false_eq_true, if_false]

theorem vshl (a b c : BitVec 5) (m : BitVec 3) (f : BitVec 2) : Statement (.vshl a b c m f) := by
  intro w hw hi
  simp only [encode, Option.some.injEq] at hw
  subst hw
  rw [decode_eq_checked _ 33#6 (by simp (disch := decide) only [BitVec.extractLsb'_append_eq_of_le, BitVec.extractLsb'_append_eq_of_add_le,
    BitVec.extractLsb'_eq_self, BitVec.reduceExtractLsb', Nat.reduceSub]) rfl]
  simp (disch := decide) only [decodeMap, decodeEngines, decVint, BitVec.extractLsb'_append_eq_of_le, BitVec.extractLsb'_append_eq_of_add_le,
    BitVec.extractLsb'_eq_self, BitVec.reduceExtractLsb', Nat.reduceSub, zeroed]
  simp only [checked, hi, ite_true, beq_self_eq_true, Bool.and_self, BitVec.reduceBEq,
    Bool.false_eq_true, if_false]

theorem vshr (a b c : BitVec 5) (m : BitVec 3) (f : BitVec 2) : Statement (.vshr a b c m f) := by
  intro w hw hi
  simp only [encode, Option.some.injEq] at hw
  subst hw
  rw [decode_eq_checked _ 33#6 (by simp (disch := decide) only [BitVec.extractLsb'_append_eq_of_le, BitVec.extractLsb'_append_eq_of_add_le,
    BitVec.extractLsb'_eq_self, BitVec.reduceExtractLsb', Nat.reduceSub]) rfl]
  simp (disch := decide) only [decodeMap, decodeEngines, decVint, BitVec.extractLsb'_append_eq_of_le, BitVec.extractLsb'_append_eq_of_add_le,
    BitVec.extractLsb'_eq_self, BitVec.reduceExtractLsb', Nat.reduceSub, zeroed]
  simp only [checked, hi, ite_true, beq_self_eq_true, Bool.and_self, BitVec.reduceBEq,
    Bool.false_eq_true, if_false]

theorem vshra (a b c : BitVec 5) (m : BitVec 3) (f : BitVec 2) : Statement (.vshra a b c m f) := by
  intro w hw hi
  simp only [encode, Option.some.injEq] at hw
  subst hw
  rw [decode_eq_checked _ 33#6 (by simp (disch := decide) only [BitVec.extractLsb'_append_eq_of_le, BitVec.extractLsb'_append_eq_of_add_le,
    BitVec.extractLsb'_eq_self, BitVec.reduceExtractLsb', Nat.reduceSub]) rfl]
  simp (disch := decide) only [decodeMap, decodeEngines, decVint, BitVec.extractLsb'_append_eq_of_le, BitVec.extractLsb'_append_eq_of_add_le,
    BitVec.extractLsb'_eq_self, BitVec.reduceExtractLsb', Nat.reduceSub, zeroed]
  simp only [checked, hi, ite_true, beq_self_eq_true, Bool.and_self, BitVec.reduceBEq,
    Bool.false_eq_true, if_false]

theorem vsadd (a b c : BitVec 5) (m : BitVec 3) (f : BitVec 2) : Statement (.vsadd a b c m f) := by
  intro w hw hi
  simp only [encode, Option.some.injEq] at hw
  subst hw
  rw [decode_eq_checked _ 33#6 (by simp (disch := decide) only [BitVec.extractLsb'_append_eq_of_le, BitVec.extractLsb'_append_eq_of_add_le,
    BitVec.extractLsb'_eq_self, BitVec.reduceExtractLsb', Nat.reduceSub]) rfl]
  simp (disch := decide) only [decodeMap, decodeEngines, decVint, BitVec.extractLsb'_append_eq_of_le, BitVec.extractLsb'_append_eq_of_add_le,
    BitVec.extractLsb'_eq_self, BitVec.reduceExtractLsb', Nat.reduceSub, zeroed]
  simp only [checked, hi, ite_true, beq_self_eq_true, Bool.and_self, BitVec.reduceBEq,
    Bool.false_eq_true, if_false]

theorem vssub (a b c : BitVec 5) (m : BitVec 3) (f : BitVec 2) : Statement (.vssub a b c m f) := by
  intro w hw hi
  simp only [encode, Option.some.injEq] at hw
  subst hw
  rw [decode_eq_checked _ 33#6 (by simp (disch := decide) only [BitVec.extractLsb'_append_eq_of_le, BitVec.extractLsb'_append_eq_of_add_le,
    BitVec.extractLsb'_eq_self, BitVec.reduceExtractLsb', Nat.reduceSub]) rfl]
  simp (disch := decide) only [decodeMap, decodeEngines, decVint, BitVec.extractLsb'_append_eq_of_le, BitVec.extractLsb'_append_eq_of_add_le,
    BitVec.extractLsb'_eq_self, BitVec.reduceExtractLsb', Nat.reduceSub, zeroed]
  simp only [checked, hi, ite_true, beq_self_eq_true, Bool.and_self, BitVec.reduceBEq,
    Bool.false_eq_true, if_false]

theorem vadc (a b c : BitVec 5) (m : BitVec 3) (f : BitVec 2) : Statement (.vadc a b c m f) := by
  intro w hw hi
  simp only [encode, Option.some.injEq] at hw
  subst hw
  rw [decode_eq_checked _ 33#6 (by simp (disch := decide) only [BitVec.extractLsb'_append_eq_of_le, BitVec.extractLsb'_append_eq_of_add_le,
    BitVec.extractLsb'_eq_self, BitVec.reduceExtractLsb', Nat.reduceSub]) rfl]
  simp (disch := decide) only [decodeMap, decodeEngines, decVint, BitVec.extractLsb'_append_eq_of_le, BitVec.extractLsb'_append_eq_of_add_le,
    BitVec.extractLsb'_eq_self, BitVec.reduceExtractLsb', Nat.reduceSub, zeroed]
  simp only [checked, hi, ite_true, beq_self_eq_true, Bool.and_self, BitVec.reduceBEq,
    Bool.false_eq_true, if_false]

theorem vsbc (a b c : BitVec 5) (m : BitVec 3) (f : BitVec 2) : Statement (.vsbc a b c m f) := by
  intro w hw hi
  simp only [encode, Option.some.injEq] at hw
  subst hw
  rw [decode_eq_checked _ 33#6 (by simp (disch := decide) only [BitVec.extractLsb'_append_eq_of_le, BitVec.extractLsb'_append_eq_of_add_le,
    BitVec.extractLsb'_eq_self, BitVec.reduceExtractLsb', Nat.reduceSub]) rfl]
  simp (disch := decide) only [decodeMap, decodeEngines, decVint, BitVec.extractLsb'_append_eq_of_le, BitVec.extractLsb'_append_eq_of_add_le,
    BitVec.extractLsb'_eq_self, BitVec.reduceExtractLsb', Nat.reduceSub, zeroed]
  simp only [checked, hi, ite_true, beq_self_eq_true, Bool.and_self, BitVec.reduceBEq,
    Bool.false_eq_true, if_false]

theorem vmacc (a b c : BitVec 5) (m : BitVec 3) (f : BitVec 2) : Statement (.vmacc a b c m f) := by
  intro w hw hi
  simp only [encode, Option.some.injEq] at hw
  subst hw
  rw [decode_eq_checked _ 33#6 (by simp (disch := decide) only [BitVec.extractLsb'_append_eq_of_le, BitVec.extractLsb'_append_eq_of_add_le,
    BitVec.extractLsb'_eq_self, BitVec.reduceExtractLsb', Nat.reduceSub]) rfl]
  simp (disch := decide) only [decodeMap, decodeEngines, decVint, BitVec.extractLsb'_append_eq_of_le, BitVec.extractLsb'_append_eq_of_add_le,
    BitVec.extractLsb'_eq_self, BitVec.reduceExtractLsb', Nat.reduceSub, zeroed]
  simp only [checked, hi, ite_true, beq_self_eq_true, Bool.and_self, BitVec.reduceBEq,
    Bool.false_eq_true, if_false]

theorem vfadd (a b c : BitVec 5) (m : BitVec 3) (f : BitVec 2) : Statement (.vfadd a b c m f) := by
  intro w hw hi
  simp only [encode, Option.some.injEq] at hw
  subst hw
  rw [decode_eq_checked _ 34#6 (by simp (disch := decide) only [BitVec.extractLsb'_append_eq_of_le, BitVec.extractLsb'_append_eq_of_add_le,
    BitVec.extractLsb'_eq_self, BitVec.reduceExtractLsb', Nat.reduceSub]) rfl]
  simp (disch := decide) only [decodeMap, decodeEngines, decVfp, BitVec.extractLsb'_append_eq_of_le, BitVec.extractLsb'_append_eq_of_add_le,
    BitVec.extractLsb'_eq_self, BitVec.reduceExtractLsb', Nat.reduceSub, zeroed]
  simp only [checked, hi, ite_true, beq_self_eq_true, Bool.and_self, BitVec.reduceBEq,
    Bool.false_eq_true, if_false]

theorem vfsub (a b c : BitVec 5) (m : BitVec 3) (f : BitVec 2) : Statement (.vfsub a b c m f) := by
  intro w hw hi
  simp only [encode, Option.some.injEq] at hw
  subst hw
  rw [decode_eq_checked _ 34#6 (by simp (disch := decide) only [BitVec.extractLsb'_append_eq_of_le, BitVec.extractLsb'_append_eq_of_add_le,
    BitVec.extractLsb'_eq_self, BitVec.reduceExtractLsb', Nat.reduceSub]) rfl]
  simp (disch := decide) only [decodeMap, decodeEngines, decVfp, BitVec.extractLsb'_append_eq_of_le, BitVec.extractLsb'_append_eq_of_add_le,
    BitVec.extractLsb'_eq_self, BitVec.reduceExtractLsb', Nat.reduceSub, zeroed]
  simp only [checked, hi, ite_true, beq_self_eq_true, Bool.and_self, BitVec.reduceBEq,
    Bool.false_eq_true, if_false]

theorem vfmul (a b c : BitVec 5) (m : BitVec 3) (f : BitVec 2) : Statement (.vfmul a b c m f) := by
  intro w hw hi
  simp only [encode, Option.some.injEq] at hw
  subst hw
  rw [decode_eq_checked _ 34#6 (by simp (disch := decide) only [BitVec.extractLsb'_append_eq_of_le, BitVec.extractLsb'_append_eq_of_add_le,
    BitVec.extractLsb'_eq_self, BitVec.reduceExtractLsb', Nat.reduceSub]) rfl]
  simp (disch := decide) only [decodeMap, decodeEngines, decVfp, BitVec.extractLsb'_append_eq_of_le, BitVec.extractLsb'_append_eq_of_add_le,
    BitVec.extractLsb'_eq_self, BitVec.reduceExtractLsb', Nat.reduceSub, zeroed]
  simp only [checked, hi, ite_true, beq_self_eq_true, Bool.and_self, BitVec.reduceBEq,
    Bool.false_eq_true, if_false]

theorem vfdiv (a b c : BitVec 5) (m : BitVec 3) (f : BitVec 2) : Statement (.vfdiv a b c m f) := by
  intro w hw hi
  simp only [encode, Option.some.injEq] at hw
  subst hw
  rw [decode_eq_checked _ 34#6 (by simp (disch := decide) only [BitVec.extractLsb'_append_eq_of_le, BitVec.extractLsb'_append_eq_of_add_le,
    BitVec.extractLsb'_eq_self, BitVec.reduceExtractLsb', Nat.reduceSub]) rfl]
  simp (disch := decide) only [decodeMap, decodeEngines, decVfp, BitVec.extractLsb'_append_eq_of_le, BitVec.extractLsb'_append_eq_of_add_le,
    BitVec.extractLsb'_eq_self, BitVec.reduceExtractLsb', Nat.reduceSub, zeroed]
  simp only [checked, hi, ite_true, beq_self_eq_true, Bool.and_self, BitVec.reduceBEq,
    Bool.false_eq_true, if_false]

theorem vfmin (a b c : BitVec 5) (m : BitVec 3) (f : BitVec 2) : Statement (.vfmin a b c m f) := by
  intro w hw hi
  simp only [encode, Option.some.injEq] at hw
  subst hw
  rw [decode_eq_checked _ 34#6 (by simp (disch := decide) only [BitVec.extractLsb'_append_eq_of_le, BitVec.extractLsb'_append_eq_of_add_le,
    BitVec.extractLsb'_eq_self, BitVec.reduceExtractLsb', Nat.reduceSub]) rfl]
  simp (disch := decide) only [decodeMap, decodeEngines, decVfp, BitVec.extractLsb'_append_eq_of_le, BitVec.extractLsb'_append_eq_of_add_le,
    BitVec.extractLsb'_eq_self, BitVec.reduceExtractLsb', Nat.reduceSub, zeroed]
  simp only [checked, hi, ite_true, beq_self_eq_true, Bool.and_self, BitVec.reduceBEq,
    Bool.false_eq_true, if_false]

theorem vfmax (a b c : BitVec 5) (m : BitVec 3) (f : BitVec 2) : Statement (.vfmax a b c m f) := by
  intro w hw hi
  simp only [encode, Option.some.injEq] at hw
  subst hw
  rw [decode_eq_checked _ 34#6 (by simp (disch := decide) only [BitVec.extractLsb'_append_eq_of_le, BitVec.extractLsb'_append_eq_of_add_le,
    BitVec.extractLsb'_eq_self, BitVec.reduceExtractLsb', Nat.reduceSub]) rfl]
  simp (disch := decide) only [decodeMap, decodeEngines, decVfp, BitVec.extractLsb'_append_eq_of_le, BitVec.extractLsb'_append_eq_of_add_le,
    BitVec.extractLsb'_eq_self, BitVec.reduceExtractLsb', Nat.reduceSub, zeroed]
  simp only [checked, hi, ite_true, beq_self_eq_true, Bool.and_self, BitVec.reduceBEq,
    Bool.false_eq_true, if_false]

theorem vfsqrt (a b : BitVec 5) (m : BitVec 3) : Statement (.vfsqrt a b m) := by
  intro w hw hi
  simp only [encode, Option.some.injEq] at hw
  subst hw
  rw [decode_eq_checked _ 34#6 (by simp (disch := decide) only [BitVec.extractLsb'_append_eq_of_le, BitVec.extractLsb'_append_eq_of_add_le,
    BitVec.extractLsb'_eq_self, BitVec.reduceExtractLsb', Nat.reduceSub]) rfl]
  simp (disch := decide) only [decodeMap, decodeEngines, decVfp, BitVec.extractLsb'_append_eq_of_le, BitVec.extractLsb'_append_eq_of_add_le,
    BitVec.extractLsb'_eq_self, BitVec.reduceExtractLsb', Nat.reduceSub, zeroed]
  simp only [checked, hi, ite_true, beq_self_eq_true, Bool.and_self, BitVec.reduceBEq,
    Bool.false_eq_true, if_false]

theorem vfabs (a b : BitVec 5) (m : BitVec 3) : Statement (.vfabs a b m) := by
  intro w hw hi
  simp only [encode, Option.some.injEq] at hw
  subst hw
  rw [decode_eq_checked _ 34#6 (by simp (disch := decide) only [BitVec.extractLsb'_append_eq_of_le, BitVec.extractLsb'_append_eq_of_add_le,
    BitVec.extractLsb'_eq_self, BitVec.reduceExtractLsb', Nat.reduceSub]) rfl]
  simp (disch := decide) only [decodeMap, decodeEngines, decVfp, BitVec.extractLsb'_append_eq_of_le, BitVec.extractLsb'_append_eq_of_add_le,
    BitVec.extractLsb'_eq_self, BitVec.reduceExtractLsb', Nat.reduceSub, zeroed]
  simp only [checked, hi, ite_true, beq_self_eq_true, Bool.and_self, BitVec.reduceBEq,
    Bool.false_eq_true, if_false]

theorem vfneg (a b : BitVec 5) (m : BitVec 3) : Statement (.vfneg a b m) := by
  intro w hw hi
  simp only [encode, Option.some.injEq] at hw
  subst hw
  rw [decode_eq_checked _ 34#6 (by simp (disch := decide) only [BitVec.extractLsb'_append_eq_of_le, BitVec.extractLsb'_append_eq_of_add_le,
    BitVec.extractLsb'_eq_self, BitVec.reduceExtractLsb', Nat.reduceSub]) rfl]
  simp (disch := decide) only [decodeMap, decodeEngines, decVfp, BitVec.extractLsb'_append_eq_of_le, BitVec.extractLsb'_append_eq_of_add_le,
    BitVec.extractLsb'_eq_self, BitVec.reduceExtractLsb', Nat.reduceSub, zeroed]
  simp only [checked, hi, ite_true, beq_self_eq_true, Bool.and_self, BitVec.reduceBEq,
    Bool.false_eq_true, if_false]

theorem vfsgn (a b c : BitVec 5) (m : BitVec 3) (f : BitVec 2) : Statement (.vfsgn a b c m f) := by
  intro w hw hi
  simp only [encode, Option.some.injEq] at hw
  subst hw
  rw [decode_eq_checked _ 34#6 (by simp (disch := decide) only [BitVec.extractLsb'_append_eq_of_le, BitVec.extractLsb'_append_eq_of_add_le,
    BitVec.extractLsb'_eq_self, BitVec.reduceExtractLsb', Nat.reduceSub]) rfl]
  simp (disch := decide) only [decodeMap, decodeEngines, decVfp, BitVec.extractLsb'_append_eq_of_le, BitVec.extractLsb'_append_eq_of_add_le,
    BitVec.extractLsb'_eq_self, BitVec.reduceExtractLsb', Nat.reduceSub, zeroed]
  simp only [checked, hi, ite_true, beq_self_eq_true, Bool.and_self, BitVec.reduceBEq,
    Bool.false_eq_true, if_false]

theorem vfma (a b c d : BitVec 5) (m : BitVec 3) : Statement (.vfma a b c d m) := by
  intro w hw hi
  simp only [encode, Option.some.injEq] at hw
  subst hw
  rw [decode_eq_checked _ 35#6 (by simp (disch := decide) only [BitVec.extractLsb'_append_eq_of_le, BitVec.extractLsb'_append_eq_of_add_le,
    BitVec.extractLsb'_eq_self, BitVec.reduceExtractLsb', Nat.reduceSub]) rfl]
  simp (disch := decide) only [decodeMap, decodeEngines, decVfma, BitVec.extractLsb'_append_eq_of_le, BitVec.extractLsb'_append_eq_of_add_le,
    BitVec.extractLsb'_eq_self, BitVec.reduceExtractLsb', Nat.reduceSub, zeroed]
  simp only [checked, hi, ite_true, beq_self_eq_true, Bool.and_self, BitVec.reduceBEq,
    Bool.false_eq_true, if_false]

theorem vfms (a b c d : BitVec 5) (m : BitVec 3) : Statement (.vfms a b c d m) := by
  intro w hw hi
  simp only [encode, Option.some.injEq] at hw
  subst hw
  rw [decode_eq_checked _ 35#6 (by simp (disch := decide) only [BitVec.extractLsb'_append_eq_of_le, BitVec.extractLsb'_append_eq_of_add_le,
    BitVec.extractLsb'_eq_self, BitVec.reduceExtractLsb', Nat.reduceSub]) rfl]
  simp (disch := decide) only [decodeMap, decodeEngines, decVfma, BitVec.extractLsb'_append_eq_of_le, BitVec.extractLsb'_append_eq_of_add_le,
    BitVec.extractLsb'_eq_self, BitVec.reduceExtractLsb', Nat.reduceSub, zeroed]
  simp only [checked, hi, ite_true, beq_self_eq_true, Bool.and_self, BitVec.reduceBEq,
    Bool.false_eq_true, if_false]

theorem vfnma (a b c d : BitVec 5) (m : BitVec 3) : Statement (.vfnma a b c d m) := by
  intro w hw hi
  simp only [encode, Option.some.injEq] at hw
  subst hw
  rw [decode_eq_checked _ 35#6 (by simp (disch := decide) only [BitVec.extractLsb'_append_eq_of_le, BitVec.extractLsb'_append_eq_of_add_le,
    BitVec.extractLsb'_eq_self, BitVec.reduceExtractLsb', Nat.reduceSub]) rfl]
  simp (disch := decide) only [decodeMap, decodeEngines, decVfma, BitVec.extractLsb'_append_eq_of_le, BitVec.extractLsb'_append_eq_of_add_le,
    BitVec.extractLsb'_eq_self, BitVec.reduceExtractLsb', Nat.reduceSub, zeroed]
  simp only [checked, hi, ite_true, beq_self_eq_true, Bool.and_self, BitVec.reduceBEq,
    Bool.false_eq_true, if_false]

theorem vfnms (a b c d : BitVec 5) (m : BitVec 3) : Statement (.vfnms a b c d m) := by
  intro w hw hi
  simp only [encode, Option.some.injEq] at hw
  subst hw
  rw [decode_eq_checked _ 35#6 (by simp (disch := decide) only [BitVec.extractLsb'_append_eq_of_le, BitVec.extractLsb'_append_eq_of_add_le,
    BitVec.extractLsb'_eq_self, BitVec.reduceExtractLsb', Nat.reduceSub]) rfl]
  simp (disch := decide) only [decodeMap, decodeEngines, decVfma, BitVec.extractLsb'_append_eq_of_le, BitVec.extractLsb'_append_eq_of_add_le,
    BitVec.extractLsb'_eq_self, BitVec.reduceExtractLsb', Nat.reduceSub, zeroed]
  simp only [checked, hi, ite_true, beq_self_eq_true, Bool.and_self, BitVec.reduceBEq,
    Bool.false_eq_true, if_false]

theorem vima (a b c d : BitVec 5) (m : BitVec 3) : Statement (.vima a b c d m) := by
  intro w hw hi
  simp only [encode, Option.some.injEq] at hw
  subst hw
  rw [decode_eq_checked _ 35#6 (by simp (disch := decide) only [BitVec.extractLsb'_append_eq_of_le, BitVec.extractLsb'_append_eq_of_add_le,
    BitVec.extractLsb'_eq_self, BitVec.reduceExtractLsb', Nat.reduceSub]) rfl]
  simp (disch := decide) only [decodeMap, decodeEngines, decVfma, BitVec.extractLsb'_append_eq_of_le, BitVec.extractLsb'_append_eq_of_add_le,
    BitVec.extractLsb'_eq_self, BitVec.reduceExtractLsb', Nat.reduceSub, zeroed]
  simp only [checked, hi, ite_true, beq_self_eq_true, Bool.and_self, BitVec.reduceBEq,
    Bool.false_eq_true, if_false]

theorem vwfma (a b c d : BitVec 5) (m : BitVec 3) : Statement (.vwfma a b c d m) := by
  intro w hw hi
  simp only [encode, Option.some.injEq] at hw
  subst hw
  rw [decode_eq_checked _ 35#6 (by simp (disch := decide) only [BitVec.extractLsb'_append_eq_of_le, BitVec.extractLsb'_append_eq_of_add_le,
    BitVec.extractLsb'_eq_self, BitVec.reduceExtractLsb', Nat.reduceSub]) rfl]
  simp (disch := decide) only [decodeMap, decodeEngines, decVfma, BitVec.extractLsb'_append_eq_of_le, BitVec.extractLsb'_append_eq_of_add_le,
    BitVec.extractLsb'_eq_self, BitVec.reduceExtractLsb', Nat.reduceSub, zeroed]
  simp only [checked, hi, ite_true, beq_self_eq_true, Bool.and_self, BitVec.reduceBEq,
    Bool.false_eq_true, if_false]

theorem vcvt (a b r : BitVec 5) (m : BitVec 3) (s : BitVec 1) (d : BitVec 4) : Statement (.vcvt a b r m s d) := by
  intro w hw hi
  simp only [encode, Option.some.injEq] at hw
  subst hw
  rw [decode_eq_checked _ 36#6 (by simp (disch := decide) only [BitVec.extractLsb'_append_eq_of_le, BitVec.extractLsb'_append_eq_of_add_le,
    BitVec.extractLsb'_eq_self, BitVec.reduceExtractLsb', Nat.reduceSub]) rfl]
  simp (disch := decide) only [decodeMap, decodeEngines, BitVec.extractLsb'_append_eq_of_le, BitVec.extractLsb'_append_eq_of_add_le,
    BitVec.extractLsb'_eq_self, BitVec.reduceExtractLsb', Nat.reduceSub, zeroed]
  simp only [checked, hi, ite_true, beq_self_eq_true, Bool.and_self, BitVec.reduceBEq,
    Bool.false_eq_true, if_false]

theorem vceq (a : BitVec 3) (b c : BitVec 5) (m : BitVec 3) (f : BitVec 2) : Statement (.vceq a b c m f) := by
  intro w hw hi
  simp only [encode, Option.some.injEq] at hw
  subst hw
  rw [decode_eq_checked _ 37#6 (by simp (disch := decide) only [BitVec.extractLsb'_append_eq_of_le, BitVec.extractLsb'_append_eq_of_add_le,
    BitVec.extractLsb'_eq_self, BitVec.reduceExtractLsb', Nat.reduceSub]) rfl]
  simp (disch := decide) only [decodeMap, decodeEngines, decVcmp, BitVec.extractLsb'_append_eq_of_le, BitVec.extractLsb'_append_eq_of_add_le,
    BitVec.extractLsb'_eq_self, BitVec.reduceExtractLsb', Nat.reduceSub, zeroed]
  simp only [checked, hi, ite_true, beq_self_eq_true, Bool.and_self, BitVec.reduceBEq,
    Bool.false_eq_true, if_false]

theorem vcne (a : BitVec 3) (b c : BitVec 5) (m : BitVec 3) (f : BitVec 2) : Statement (.vcne a b c m f) := by
  intro w hw hi
  simp only [encode, Option.some.injEq] at hw
  subst hw
  rw [decode_eq_checked _ 37#6 (by simp (disch := decide) only [BitVec.extractLsb'_append_eq_of_le, BitVec.extractLsb'_append_eq_of_add_le,
    BitVec.extractLsb'_eq_self, BitVec.reduceExtractLsb', Nat.reduceSub]) rfl]
  simp (disch := decide) only [decodeMap, decodeEngines, decVcmp, BitVec.extractLsb'_append_eq_of_le, BitVec.extractLsb'_append_eq_of_add_le,
    BitVec.extractLsb'_eq_self, BitVec.reduceExtractLsb', Nat.reduceSub, zeroed]
  simp only [checked, hi, ite_true, beq_self_eq_true, Bool.and_self, BitVec.reduceBEq,
    Bool.false_eq_true, if_false]

theorem vclt (a : BitVec 3) (b c : BitVec 5) (m : BitVec 3) (f : BitVec 2) : Statement (.vclt a b c m f) := by
  intro w hw hi
  simp only [encode, Option.some.injEq] at hw
  subst hw
  rw [decode_eq_checked _ 37#6 (by simp (disch := decide) only [BitVec.extractLsb'_append_eq_of_le, BitVec.extractLsb'_append_eq_of_add_le,
    BitVec.extractLsb'_eq_self, BitVec.reduceExtractLsb', Nat.reduceSub]) rfl]
  simp (disch := decide) only [decodeMap, decodeEngines, decVcmp, BitVec.extractLsb'_append_eq_of_le, BitVec.extractLsb'_append_eq_of_add_le,
    BitVec.extractLsb'_eq_self, BitVec.reduceExtractLsb', Nat.reduceSub, zeroed]
  simp only [checked, hi, ite_true, beq_self_eq_true, Bool.and_self, BitVec.reduceBEq,
    Bool.false_eq_true, if_false]

theorem vcle (a : BitVec 3) (b c : BitVec 5) (m : BitVec 3) (f : BitVec 2) : Statement (.vcle a b c m f) := by
  intro w hw hi
  simp only [encode, Option.some.injEq] at hw
  subst hw
  rw [decode_eq_checked _ 37#6 (by simp (disch := decide) only [BitVec.extractLsb'_append_eq_of_le, BitVec.extractLsb'_append_eq_of_add_le,
    BitVec.extractLsb'_eq_self, BitVec.reduceExtractLsb', Nat.reduceSub]) rfl]
  simp (disch := decide) only [decodeMap, decodeEngines, decVcmp, BitVec.extractLsb'_append_eq_of_le, BitVec.extractLsb'_append_eq_of_add_le,
    BitVec.extractLsb'_eq_self, BitVec.reduceExtractLsb', Nat.reduceSub, zeroed]
  simp only [checked, hi, ite_true, beq_self_eq_true, Bool.and_self, BitVec.reduceBEq,
    Bool.false_eq_true, if_false]

theorem vcgt (a : BitVec 3) (b c : BitVec 5) (m : BitVec 3) (f : BitVec 2) : Statement (.vcgt a b c m f) := by
  intro w hw hi
  simp only [encode, Option.some.injEq] at hw
  subst hw
  rw [decode_eq_checked _ 37#6 (by simp (disch := decide) only [BitVec.extractLsb'_append_eq_of_le, BitVec.extractLsb'_append_eq_of_add_le,
    BitVec.extractLsb'_eq_self, BitVec.reduceExtractLsb', Nat.reduceSub]) rfl]
  simp (disch := decide) only [decodeMap, decodeEngines, decVcmp, BitVec.extractLsb'_append_eq_of_le, BitVec.extractLsb'_append_eq_of_add_le,
    BitVec.extractLsb'_eq_self, BitVec.reduceExtractLsb', Nat.reduceSub, zeroed]
  simp only [checked, hi, ite_true, beq_self_eq_true, Bool.and_self, BitVec.reduceBEq,
    Bool.false_eq_true, if_false]

theorem vcge (a : BitVec 3) (b c : BitVec 5) (m : BitVec 3) (f : BitVec 2) : Statement (.vcge a b c m f) := by
  intro w hw hi
  simp only [encode, Option.some.injEq] at hw
  subst hw
  rw [decode_eq_checked _ 37#6 (by simp (disch := decide) only [BitVec.extractLsb'_append_eq_of_le, BitVec.extractLsb'_append_eq_of_add_le,
    BitVec.extractLsb'_eq_self, BitVec.reduceExtractLsb', Nat.reduceSub]) rfl]
  simp (disch := decide) only [decodeMap, decodeEngines, decVcmp, BitVec.extractLsb'_append_eq_of_le, BitVec.extractLsb'_append_eq_of_add_le,
    BitVec.extractLsb'_eq_self, BitVec.reduceExtractLsb', Nat.reduceSub, zeroed]
  simp only [checked, hi, ite_true, beq_self_eq_true, Bool.and_self, BitVec.reduceBEq,
    Bool.false_eq_true, if_false]

theorem vcltn (a : BitVec 3) (b c : BitVec 5) (m : BitVec 3) (f : BitVec 2) : Statement (.vcltn a b c m f) := by
  intro w hw hi
  simp only [encode, Option.some.injEq] at hw
  subst hw
  rw [decode_eq_checked _ 37#6 (by simp (disch := decide) only [BitVec.extractLsb'_append_eq_of_le, BitVec.extractLsb'_append_eq_of_add_le,
    BitVec.extractLsb'_eq_self, BitVec.reduceExtractLsb', Nat.reduceSub]) rfl]
  simp (disch := decide) only [decodeMap, decodeEngines, decVcmp, BitVec.extractLsb'_append_eq_of_le, BitVec.extractLsb'_append_eq_of_add_le,
    BitVec.extractLsb'_eq_self, BitVec.reduceExtractLsb', Nat.reduceSub, zeroed]
  simp only [checked, hi, ite_true, beq_self_eq_true, Bool.and_self, BitVec.reduceBEq,
    Bool.false_eq_true, if_false]

theorem vclen (a : BitVec 3) (b c : BitVec 5) (m : BitVec 3) (f : BitVec 2) : Statement (.vclen a b c m f) := by
  intro w hw hi
  simp only [encode, Option.some.injEq] at hw
  subst hw
  rw [decode_eq_checked _ 37#6 (by simp (disch := decide) only [BitVec.extractLsb'_append_eq_of_le, BitVec.extractLsb'_append_eq_of_add_le,
    BitVec.extractLsb'_eq_self, BitVec.reduceExtractLsb', Nat.reduceSub]) rfl]
  simp (disch := decide) only [decodeMap, decodeEngines, decVcmp, BitVec.extractLsb'_append_eq_of_le, BitVec.extractLsb'_append_eq_of_add_le,
    BitVec.extractLsb'_eq_self, BitVec.reduceExtractLsb', Nat.reduceSub, zeroed]
  simp only [checked, hi, ite_true, beq_self_eq_true, Bool.and_self, BitVec.reduceBEq,
    Bool.false_eq_true, if_false]

theorem vcgtn (a : BitVec 3) (b c : BitVec 5) (m : BitVec 3) (f : BitVec 2) : Statement (.vcgtn a b c m f) := by
  intro w hw hi
  simp only [encode, Option.some.injEq] at hw
  subst hw
  rw [decode_eq_checked _ 37#6 (by simp (disch := decide) only [BitVec.extractLsb'_append_eq_of_le, BitVec.extractLsb'_append_eq_of_add_le,
    BitVec.extractLsb'_eq_self, BitVec.reduceExtractLsb', Nat.reduceSub]) rfl]
  simp (disch := decide) only [decodeMap, decodeEngines, decVcmp, BitVec.extractLsb'_append_eq_of_le, BitVec.extractLsb'_append_eq_of_add_le,
    BitVec.extractLsb'_eq_self, BitVec.reduceExtractLsb', Nat.reduceSub, zeroed]
  simp only [checked, hi, ite_true, beq_self_eq_true, Bool.and_self, BitVec.reduceBEq,
    Bool.false_eq_true, if_false]

theorem vcgen (a : BitVec 3) (b c : BitVec 5) (m : BitVec 3) (f : BitVec 2) : Statement (.vcgen a b c m f) := by
  intro w hw hi
  simp only [encode, Option.some.injEq] at hw
  subst hw
  rw [decode_eq_checked _ 37#6 (by simp (disch := decide) only [BitVec.extractLsb'_append_eq_of_le, BitVec.extractLsb'_append_eq_of_add_le,
    BitVec.extractLsb'_eq_self, BitVec.reduceExtractLsb', Nat.reduceSub]) rfl]
  simp (disch := decide) only [decodeMap, decodeEngines, decVcmp, BitVec.extractLsb'_append_eq_of_le, BitVec.extractLsb'_append_eq_of_add_le,
    BitVec.extractLsb'_eq_self, BitVec.reduceExtractLsb', Nat.reduceSub, zeroed]
  simp only [checked, hi, ite_true, beq_self_eq_true, Bool.and_self, BitVec.reduceBEq,
    Bool.false_eq_true, if_false]

theorem vfceq (a : BitVec 3) (b c : BitVec 5) (m : BitVec 3) (f : BitVec 2) : Statement (.vfceq a b c m f) := by
  intro w hw hi
  simp only [encode, Option.some.injEq] at hw
  subst hw
  rw [decode_eq_checked _ 37#6 (by simp (disch := decide) only [BitVec.extractLsb'_append_eq_of_le, BitVec.extractLsb'_append_eq_of_add_le,
    BitVec.extractLsb'_eq_self, BitVec.reduceExtractLsb', Nat.reduceSub]) rfl]
  simp (disch := decide) only [decodeMap, decodeEngines, decVcmp, BitVec.extractLsb'_append_eq_of_le, BitVec.extractLsb'_append_eq_of_add_le,
    BitVec.extractLsb'_eq_self, BitVec.reduceExtractLsb', Nat.reduceSub, zeroed]
  simp only [checked, hi, ite_true, beq_self_eq_true, Bool.and_self, BitVec.reduceBEq,
    Bool.false_eq_true, if_false]

theorem vfclt (a : BitVec 3) (b c : BitVec 5) (m : BitVec 3) (f : BitVec 2) : Statement (.vfclt a b c m f) := by
  intro w hw hi
  simp only [encode, Option.some.injEq] at hw
  subst hw
  rw [decode_eq_checked _ 37#6 (by simp (disch := decide) only [BitVec.extractLsb'_append_eq_of_le, BitVec.extractLsb'_append_eq_of_add_le,
    BitVec.extractLsb'_eq_self, BitVec.reduceExtractLsb', Nat.reduceSub]) rfl]
  simp (disch := decide) only [decodeMap, decodeEngines, decVcmp, BitVec.extractLsb'_append_eq_of_le, BitVec.extractLsb'_append_eq_of_add_le,
    BitVec.extractLsb'_eq_self, BitVec.reduceExtractLsb', Nat.reduceSub, zeroed]
  simp only [checked, hi, ite_true, beq_self_eq_true, Bool.and_self, BitVec.reduceBEq,
    Bool.false_eq_true, if_false]

theorem vfcle (a : BitVec 3) (b c : BitVec 5) (m : BitVec 3) (f : BitVec 2) : Statement (.vfcle a b c m f) := by
  intro w hw hi
  simp only [encode, Option.some.injEq] at hw
  subst hw
  rw [decode_eq_checked _ 37#6 (by simp (disch := decide) only [BitVec.extractLsb'_append_eq_of_le, BitVec.extractLsb'_append_eq_of_add_le,
    BitVec.extractLsb'_eq_self, BitVec.reduceExtractLsb', Nat.reduceSub]) rfl]
  simp (disch := decide) only [decodeMap, decodeEngines, decVcmp, BitVec.extractLsb'_append_eq_of_le, BitVec.extractLsb'_append_eq_of_add_le,
    BitVec.extractLsb'_eq_self, BitVec.reduceExtractLsb', Nat.reduceSub, zeroed]
  simp only [checked, hi, ite_true, beq_self_eq_true, Bool.and_self, BitVec.reduceBEq,
    Bool.false_eq_true, if_false]

theorem vfcun (a : BitVec 3) (b c : BitVec 5) (m : BitVec 3) (f : BitVec 2) : Statement (.vfcun a b c m f) := by
  intro w hw hi
  simp only [encode, Option.some.injEq] at hw
  subst hw
  rw [decode_eq_checked _ 37#6 (by simp (disch := decide) only [BitVec.extractLsb'_append_eq_of_le, BitVec.extractLsb'_append_eq_of_add_le,
    BitVec.extractLsb'_eq_self, BitVec.reduceExtractLsb', Nat.reduceSub]) rfl]
  simp (disch := decide) only [decodeMap, decodeEngines, decVcmp, BitVec.extractLsb'_append_eq_of_le, BitVec.extractLsb'_append_eq_of_add_le,
    BitVec.extractLsb'_eq_self, BitVec.reduceExtractLsb', Nat.reduceSub, zeroed]
  simp only [checked, hi, ite_true, beq_self_eq_true, Bool.and_self, BitVec.reduceBEq,
    Bool.false_eq_true, if_false]

theorem vcarry (a : BitVec 3) (b c : BitVec 5) (m : BitVec 3) (f : BitVec 2) : Statement (.vcarry a b c m f) := by
  intro w hw hi
  simp only [encode, Option.some.injEq] at hw
  subst hw
  rw [decode_eq_checked _ 37#6 (by simp (disch := decide) only [BitVec.extractLsb'_append_eq_of_le, BitVec.extractLsb'_append_eq_of_add_le,
    BitVec.extractLsb'_eq_self, BitVec.reduceExtractLsb', Nat.reduceSub]) rfl]
  simp (disch := decide) only [decodeMap, decodeEngines, decVcmp, BitVec.extractLsb'_append_eq_of_le, BitVec.extractLsb'_append_eq_of_add_le,
    BitVec.extractLsb'_eq_self, BitVec.reduceExtractLsb', Nat.reduceSub, zeroed]
  simp only [checked, hi, ite_true, beq_self_eq_true, Bool.and_self, BitVec.reduceBEq,
    Bool.false_eq_true, if_false]

theorem vborrow (a : BitVec 3) (b c : BitVec 5) (m : BitVec 3) (f : BitVec 2) : Statement (.vborrow a b c m f) := by
  intro w hw hi
  simp only [encode, Option.some.injEq] at hw
  subst hw
  rw [decode_eq_checked _ 37#6 (by simp (disch := decide) only [BitVec.extractLsb'_append_eq_of_le, BitVec.extractLsb'_append_eq_of_add_le,
    BitVec.extractLsb'_eq_self, BitVec.reduceExtractLsb', Nat.reduceSub]) rfl]
  simp (disch := decide) only [decodeMap, decodeEngines, decVcmp, BitVec.extractLsb'_append_eq_of_le, BitVec.extractLsb'_append_eq_of_add_le,
    BitVec.extractLsb'_eq_self, BitVec.reduceExtractLsb', Nat.reduceSub, zeroed]
  simp only [checked, hi, ite_true, beq_self_eq_true, Bool.and_self, BitVec.reduceBEq,
    Bool.false_eq_true, if_false]

theorem mand (a b c : BitVec 3) : Statement (.mand a b c) := by
  intro w hw hi
  simp only [encode, Option.some.injEq] at hw
  subst hw
  rw [decode_eq_checked _ 38#6 (by simp (disch := decide) only [BitVec.extractLsb'_append_eq_of_le, BitVec.extractLsb'_append_eq_of_add_le,
    BitVec.extractLsb'_eq_self, BitVec.reduceExtractLsb', Nat.reduceSub]) rfl]
  simp (disch := decide) only [decodeMap, decodeEngines, decMask, BitVec.extractLsb'_append_eq_of_le, BitVec.extractLsb'_append_eq_of_add_le,
    BitVec.extractLsb'_eq_self, BitVec.reduceExtractLsb', Nat.reduceSub, zeroed]
  simp only [checked, hi, ite_true, beq_self_eq_true, Bool.and_self, BitVec.reduceBEq,
    Bool.false_eq_true, if_false]

theorem mor (a b c : BitVec 3) : Statement (.mor a b c) := by
  intro w hw hi
  simp only [encode, Option.some.injEq] at hw
  subst hw
  rw [decode_eq_checked _ 38#6 (by simp (disch := decide) only [BitVec.extractLsb'_append_eq_of_le, BitVec.extractLsb'_append_eq_of_add_le,
    BitVec.extractLsb'_eq_self, BitVec.reduceExtractLsb', Nat.reduceSub]) rfl]
  simp (disch := decide) only [decodeMap, decodeEngines, decMask, BitVec.extractLsb'_append_eq_of_le, BitVec.extractLsb'_append_eq_of_add_le,
    BitVec.extractLsb'_eq_self, BitVec.reduceExtractLsb', Nat.reduceSub, zeroed]
  simp only [checked, hi, ite_true, beq_self_eq_true, Bool.and_self, BitVec.reduceBEq,
    Bool.false_eq_true, if_false]

theorem mxor (a b c : BitVec 3) : Statement (.mxor a b c) := by
  intro w hw hi
  simp only [encode, Option.some.injEq] at hw
  subst hw
  rw [decode_eq_checked _ 38#6 (by simp (disch := decide) only [BitVec.extractLsb'_append_eq_of_le, BitVec.extractLsb'_append_eq_of_add_le,
    BitVec.extractLsb'_eq_self, BitVec.reduceExtractLsb', Nat.reduceSub]) rfl]
  simp (disch := decide) only [decodeMap, decodeEngines, decMask, BitVec.extractLsb'_append_eq_of_le, BitVec.extractLsb'_append_eq_of_add_le,
    BitVec.extractLsb'_eq_self, BitVec.reduceExtractLsb', Nat.reduceSub, zeroed]
  simp only [checked, hi, ite_true, beq_self_eq_true, Bool.and_self, BitVec.reduceBEq,
    Bool.false_eq_true, if_false]

theorem mandn (a b c : BitVec 3) : Statement (.mandn a b c) := by
  intro w hw hi
  simp only [encode, Option.some.injEq] at hw
  subst hw
  rw [decode_eq_checked _ 38#6 (by simp (disch := decide) only [BitVec.extractLsb'_append_eq_of_le, BitVec.extractLsb'_append_eq_of_add_le,
    BitVec.extractLsb'_eq_self, BitVec.reduceExtractLsb', Nat.reduceSub]) rfl]
  simp (disch := decide) only [decodeMap, decodeEngines, decMask, BitVec.extractLsb'_append_eq_of_le, BitVec.extractLsb'_append_eq_of_add_le,
    BitVec.extractLsb'_eq_self, BitVec.reduceExtractLsb', Nat.reduceSub, zeroed]
  simp only [checked, hi, ite_true, beq_self_eq_true, Bool.and_self, BitVec.reduceBEq,
    Bool.false_eq_true, if_false]

theorem mnot (a b : BitVec 3) : Statement (.mnot a b) := by
  intro w hw hi
  simp only [encode, Option.some.injEq] at hw
  subst hw
  rw [decode_eq_checked _ 38#6 (by simp (disch := decide) only [BitVec.extractLsb'_append_eq_of_le, BitVec.extractLsb'_append_eq_of_add_le,
    BitVec.extractLsb'_eq_self, BitVec.reduceExtractLsb', Nat.reduceSub]) rfl]
  simp (disch := decide) only [decodeMap, decodeEngines, decMask, BitVec.extractLsb'_append_eq_of_le, BitVec.extractLsb'_append_eq_of_add_le,
    BitVec.extractLsb'_eq_self, BitVec.reduceExtractLsb', Nat.reduceSub, zeroed]
  simp only [checked, hi, ite_true, beq_self_eq_true, Bool.and_self, BitVec.reduceBEq,
    Bool.false_eq_true, if_false]

theorem mmov (a b : BitVec 3) : Statement (.mmov a b) := by
  intro w hw hi
  simp only [encode, Option.some.injEq] at hw
  subst hw
  rw [decode_eq_checked _ 38#6 (by simp (disch := decide) only [BitVec.extractLsb'_append_eq_of_le, BitVec.extractLsb'_append_eq_of_add_le,
    BitVec.extractLsb'_eq_self, BitVec.reduceExtractLsb', Nat.reduceSub]) rfl]
  simp (disch := decide) only [decodeMap, decodeEngines, decMask, BitVec.extractLsb'_append_eq_of_le, BitVec.extractLsb'_append_eq_of_add_le,
    BitVec.extractLsb'_eq_self, BitVec.reduceExtractLsb', Nat.reduceSub, zeroed]
  simp only [checked, hi, ite_true, beq_self_eq_true, Bool.and_self, BitVec.reduceBEq,
    Bool.false_eq_true, if_false]

theorem mshup (a b : BitVec 3) (s : BitVec 5) : Statement (.mshup a b s) := by
  intro w hw hi
  simp only [encode, Option.some.injEq] at hw
  subst hw
  rw [decode_eq_checked _ 38#6 (by simp (disch := decide) only [BitVec.extractLsb'_append_eq_of_le, BitVec.extractLsb'_append_eq_of_add_le,
    BitVec.extractLsb'_eq_self, BitVec.reduceExtractLsb', Nat.reduceSub]) rfl]
  simp (disch := decide) only [decodeMap, decodeEngines, decMask, BitVec.extractLsb'_append_eq_of_le, BitVec.extractLsb'_append_eq_of_add_le,
    BitVec.extractLsb'_eq_self, BitVec.reduceExtractLsb', Nat.reduceSub, zeroed]
  simp only [checked, hi, ite_true, beq_self_eq_true, Bool.and_self, BitVec.reduceBEq,
    Bool.false_eq_true, if_false]

theorem mshdn (a b : BitVec 3) (s : BitVec 5) : Statement (.mshdn a b s) := by
  intro w hw hi
  simp only [encode, Option.some.injEq] at hw
  subst hw
  rw [decode_eq_checked _ 38#6 (by simp (disch := decide) only [BitVec.extractLsb'_append_eq_of_le, BitVec.extractLsb'_append_eq_of_add_le,
    BitVec.extractLsb'_eq_self, BitVec.reduceExtractLsb', Nat.reduceSub]) rfl]
  simp (disch := decide) only [decodeMap, decodeEngines, decMask, BitVec.extractLsb'_append_eq_of_le, BitVec.extractLsb'_append_eq_of_add_le,
    BitVec.extractLsb'_eq_self, BitVec.reduceExtractLsb', Nat.reduceSub, zeroed]
  simp only [checked, hi, ite_true, beq_self_eq_true, Bool.and_self, BitVec.reduceBEq,
    Bool.false_eq_true, if_false]

theorem mpopc (a : BitVec 5) (b : BitVec 3) : Statement (.mpopc a b) := by
  intro w hw hi
  simp only [encode, Option.some.injEq] at hw
  subst hw
  rw [decode_eq_checked _ 38#6 (by simp (disch := decide) only [BitVec.extractLsb'_append_eq_of_le, BitVec.extractLsb'_append_eq_of_add_le,
    BitVec.extractLsb'_eq_self, BitVec.reduceExtractLsb', Nat.reduceSub]) rfl]
  simp (disch := decide) only [decodeMap, decodeEngines, decMask, BitVec.extractLsb'_append_eq_of_le, BitVec.extractLsb'_append_eq_of_add_le,
    BitVec.extractLsb'_eq_self, BitVec.reduceExtractLsb', Nat.reduceSub, zeroed]
  simp only [checked, hi, ite_true, beq_self_eq_true, Bool.and_self, BitVec.reduceBEq,
    Bool.false_eq_true, if_false]

theorem mfirst (a : BitVec 5) (b : BitVec 3) : Statement (.mfirst a b) := by
  intro w hw hi
  simp only [encode, Option.some.injEq] at hw
  subst hw
  rw [decode_eq_checked _ 38#6 (by simp (disch := decide) only [BitVec.extractLsb'_append_eq_of_le, BitVec.extractLsb'_append_eq_of_add_le,
    BitVec.extractLsb'_eq_self, BitVec.reduceExtractLsb', Nat.reduceSub]) rfl]
  simp (disch := decide) only [decodeMap, decodeEngines, decMask, BitVec.extractLsb'_append_eq_of_le, BitVec.extractLsb'_append_eq_of_add_le,
    BitVec.extractLsb'_eq_self, BitVec.reduceExtractLsb', Nat.reduceSub, zeroed]
  simp only [checked, hi, ite_true, beq_self_eq_true, Bool.and_self, BitVec.reduceBEq,
    Bool.false_eq_true, if_false]

theorem mset (a : BitVec 3) : Statement (.mset a) := by
  intro w hw hi
  simp only [encode, Option.some.injEq] at hw
  subst hw
  rw [decode_eq_checked _ 38#6 (by simp (disch := decide) only [BitVec.extractLsb'_append_eq_of_le, BitVec.extractLsb'_append_eq_of_add_le,
    BitVec.extractLsb'_eq_self, BitVec.reduceExtractLsb', Nat.reduceSub]) rfl]
  simp (disch := decide) only [decodeMap, decodeEngines, decMask, BitVec.extractLsb'_append_eq_of_le, BitVec.extractLsb'_append_eq_of_add_le,
    BitVec.extractLsb'_eq_self, BitVec.reduceExtractLsb', Nat.reduceSub, zeroed]
  simp only [checked, hi, ite_true, beq_self_eq_true, Bool.and_self, BitVec.reduceBEq,
    Bool.false_eq_true, if_false]

theorem mclr (a : BitVec 3) : Statement (.mclr a) := by
  intro w hw hi
  simp only [encode, Option.some.injEq] at hw
  subst hw
  rw [decode_eq_checked _ 38#6 (by simp (disch := decide) only [BitVec.extractLsb'_append_eq_of_le, BitVec.extractLsb'_append_eq_of_add_le,
    BitVec.extractLsb'_eq_self, BitVec.reduceExtractLsb', Nat.reduceSub]) rfl]
  simp (disch := decide) only [decodeMap, decodeEngines, decMask, BitVec.extractLsb'_append_eq_of_le, BitVec.extractLsb'_append_eq_of_add_le,
    BitVec.extractLsb'_eq_self, BitVec.reduceExtractLsb', Nat.reduceSub, zeroed]
  simp only [checked, hi, ite_true, beq_self_eq_true, Bool.and_self, BitVec.reduceBEq,
    Bool.false_eq_true, if_false]

theorem mtov (a : BitVec 5) (b : BitVec 3) : Statement (.mtov a b) := by
  intro w hw hi
  simp only [encode, Option.some.injEq] at hw
  subst hw
  rw [decode_eq_checked _ 38#6 (by simp (disch := decide) only [BitVec.extractLsb'_append_eq_of_le, BitVec.extractLsb'_append_eq_of_add_le,
    BitVec.extractLsb'_eq_self, BitVec.reduceExtractLsb', Nat.reduceSub]) rfl]
  simp (disch := decide) only [decodeMap, decodeEngines, decMask, BitVec.extractLsb'_append_eq_of_le, BitVec.extractLsb'_append_eq_of_add_le,
    BitVec.extractLsb'_eq_self, BitVec.reduceExtractLsb', Nat.reduceSub, zeroed]
  simp only [checked, hi, ite_true, beq_self_eq_true, Bool.and_self, BitVec.reduceBEq,
    Bool.false_eq_true, if_false]

theorem vtom (a : BitVec 3) (b : BitVec 5) : Statement (.vtom a b) := by
  intro w hw hi
  simp only [encode, Option.some.injEq] at hw
  subst hw
  rw [decode_eq_checked _ 38#6 (by simp (disch := decide) only [BitVec.extractLsb'_append_eq_of_le, BitVec.extractLsb'_append_eq_of_add_le,
    BitVec.extractLsb'_eq_self, BitVec.reduceExtractLsb', Nat.reduceSub]) rfl]
  simp (disch := decide) only [decodeMap, decodeEngines, decMask, BitVec.extractLsb'_append_eq_of_le, BitVec.extractLsb'_append_eq_of_add_le,
    BitVec.extractLsb'_eq_self, BitVec.reduceExtractLsb', Nat.reduceSub, zeroed]
  simp only [checked, hi, ite_true, beq_self_eq_true, Bool.and_self, BitVec.reduceBEq,
    Bool.false_eq_true, if_false]

theorem vmov (a c : BitVec 5) (m : BitVec 3) (f : BitVec 2) : Statement (.vmov a c m f) := by
  intro w hw hi
  simp only [encode, Option.some.injEq] at hw
  subst hw
  rw [decode_eq_checked _ 39#6 (by simp (disch := decide) only [BitVec.extractLsb'_append_eq_of_le, BitVec.extractLsb'_append_eq_of_add_le,
    BitVec.extractLsb'_eq_self, BitVec.reduceExtractLsb', Nat.reduceSub]) rfl]
  simp (disch := decide) only [decodeMap, decodeEngines, decVperm, BitVec.extractLsb'_append_eq_of_le, BitVec.extractLsb'_append_eq_of_add_le,
    BitVec.extractLsb'_eq_self, BitVec.reduceExtractLsb', Nat.reduceSub, zeroed]
  simp only [checked, hi, ite_true, beq_self_eq_true, Bool.and_self, BitVec.reduceBEq,
    Bool.false_eq_true, if_false]

theorem vsplat (a b c : BitVec 5) (m : BitVec 3) (f : BitVec 2) : Statement (.vsplat a b c m f) := by
  intro w hw hi
  simp only [encode, Option.some.injEq] at hw
  subst hw
  rw [decode_eq_checked _ 39#6 (by simp (disch := decide) only [BitVec.extractLsb'_append_eq_of_le, BitVec.extractLsb'_append_eq_of_add_le,
    BitVec.extractLsb'_eq_self, BitVec.reduceExtractLsb', Nat.reduceSub]) rfl]
  simp (disch := decide) only [decodeMap, decodeEngines, decVperm, BitVec.extractLsb'_append_eq_of_le, BitVec.extractLsb'_append_eq_of_add_le,
    BitVec.extractLsb'_eq_self, BitVec.reduceExtractLsb', Nat.reduceSub, zeroed]
  simp only [checked, hi, ite_true, beq_self_eq_true, Bool.and_self, BitVec.reduceBEq,
    Bool.false_eq_true, if_false]

theorem vslup (a b c : BitVec 5) (m : BitVec 3) (f : BitVec 2) : Statement (.vslup a b c m f) := by
  intro w hw hi
  simp only [encode, Option.some.injEq] at hw
  subst hw
  rw [decode_eq_checked _ 39#6 (by simp (disch := decide) only [BitVec.extractLsb'_append_eq_of_le, BitVec.extractLsb'_append_eq_of_add_le,
    BitVec.extractLsb'_eq_self, BitVec.reduceExtractLsb', Nat.reduceSub]) rfl]
  simp (disch := decide) only [decodeMap, decodeEngines, decVperm, BitVec.extractLsb'_append_eq_of_le, BitVec.extractLsb'_append_eq_of_add_le,
    BitVec.extractLsb'_eq_self, BitVec.reduceExtractLsb', Nat.reduceSub, zeroed]
  simp only [checked, hi, ite_true, beq_self_eq_true, Bool.and_self, BitVec.reduceBEq,
    Bool.false_eq_true, if_false]

theorem vsldn (a b c : BitVec 5) (m : BitVec 3) (f : BitVec 2) : Statement (.vsldn a b c m f) := by
  intro w hw hi
  simp only [encode, Option.some.injEq] at hw
  subst hw
  rw [decode_eq_checked _ 39#6 (by simp (disch := decide) only [BitVec.extractLsb'_append_eq_of_le, BitVec.extractLsb'_append_eq_of_add_le,
    BitVec.extractLsb'_eq_self, BitVec.reduceExtractLsb', Nat.reduceSub]) rfl]
  simp (disch := decide) only [decodeMap, decodeEngines, decVperm, BitVec.extractLsb'_append_eq_of_le, BitVec.extractLsb'_append_eq_of_add_le,
    BitVec.extractLsb'_eq_self, BitVec.reduceExtractLsb', Nat.reduceSub, zeroed]
  simp only [checked, hi, ite_true, beq_self_eq_true, Bool.and_self, BitVec.reduceBEq,
    Bool.false_eq_true, if_false]

theorem vrgath (a b c : BitVec 5) (m : BitVec 3) : Statement (.vrgath a b c m) := by
  intro w hw hi
  simp only [encode, Option.some.injEq] at hw
  subst hw
  rw [decode_eq_checked _ 39#6 (by simp (disch := decide) only [BitVec.extractLsb'_append_eq_of_le, BitVec.extractLsb'_append_eq_of_add_le,
    BitVec.extractLsb'_eq_self, BitVec.reduceExtractLsb', Nat.reduceSub]) rfl]
  simp (disch := decide) only [decodeMap, decodeEngines, decVperm, BitVec.extractLsb'_append_eq_of_le, BitVec.extractLsb'_append_eq_of_add_le,
    BitVec.extractLsb'_eq_self, BitVec.reduceExtractLsb', Nat.reduceSub, zeroed]
  simp only [checked, hi, ite_true, beq_self_eq_true, Bool.and_self, BitVec.reduceBEq,
    Bool.false_eq_true, if_false]

theorem vrows (a b c : BitVec 5) (m : BitVec 3) (f : BitVec 2) : Statement (.vrows a b c m f) := by
  intro w hw hi
  simp only [encode, Option.some.injEq] at hw
  subst hw
  rw [decode_eq_checked _ 39#6 (by simp (disch := decide) only [BitVec.extractLsb'_append_eq_of_le, BitVec.extractLsb'_append_eq_of_add_le,
    BitVec.extractLsb'_eq_self, BitVec.reduceExtractLsb', Nat.reduceSub]) rfl]
  simp (disch := decide) only [decodeMap, decodeEngines, decVperm, BitVec.extractLsb'_append_eq_of_le, BitVec.extractLsb'_append_eq_of_add_le,
    BitVec.extractLsb'_eq_self, BitVec.reduceExtractLsb', Nat.reduceSub, zeroed]
  simp only [checked, hi, ite_true, beq_self_eq_true, Bool.and_self, BitVec.reduceBEq,
    Bool.false_eq_true, if_false]

theorem vcols (a b c : BitVec 5) (m : BitVec 3) (f : BitVec 2) : Statement (.vcols a b c m f) := by
  intro w hw hi
  simp only [encode, Option.some.injEq] at hw
  subst hw
  rw [decode_eq_checked _ 39#6 (by simp (disch := decide) only [BitVec.extractLsb'_append_eq_of_le, BitVec.extractLsb'_append_eq_of_add_le,
    BitVec.extractLsb'_eq_self, BitVec.reduceExtractLsb', Nat.reduceSub]) rfl]
  simp (disch := decide) only [decodeMap, decodeEngines, decVperm, BitVec.extractLsb'_append_eq_of_le, BitVec.extractLsb'_append_eq_of_add_le,
    BitVec.extractLsb'_eq_self, BitVec.reduceExtractLsb', Nat.reduceSub, zeroed]
  simp only [checked, hi, ite_true, beq_self_eq_true, Bool.and_self, BitVec.reduceBEq,
    Bool.false_eq_true, if_false]

theorem vroww (a b c : BitVec 5) (m : BitVec 3) (f : BitVec 2) : Statement (.vroww a b c m f) := by
  intro w hw hi
  simp only [encode, Option.some.injEq] at hw
  subst hw
  rw [decode_eq_checked _ 39#6 (by simp (disch := decide) only [BitVec.extractLsb'_append_eq_of_le, BitVec.extractLsb'_append_eq_of_add_le,
    BitVec.extractLsb'_eq_self, BitVec.reduceExtractLsb', Nat.reduceSub]) rfl]
  simp (disch := decide) only [decodeMap, decodeEngines, decVperm, BitVec.extractLsb'_append_eq_of_le, BitVec.extractLsb'_append_eq_of_add_le,
    BitVec.extractLsb'_eq_self, BitVec.reduceExtractLsb', Nat.reduceSub, zeroed]
  simp only [checked, hi, ite_true, beq_self_eq_true, Bool.and_self, BitVec.reduceBEq,
    Bool.false_eq_true, if_false]

theorem vcolw (a b c : BitVec 5) (m : BitVec 3) (f : BitVec 2) : Statement (.vcolw a b c m f) := by
  intro w hw hi
  simp only [encode, Option.some.injEq] at hw
  subst hw
  rw [decode_eq_checked _ 39#6 (by simp (disch := decide) only [BitVec.extractLsb'_append_eq_of_le, BitVec.extractLsb'_append_eq_of_add_le,
    BitVec.extractLsb'_eq_self, BitVec.reduceExtractLsb', Nat.reduceSub]) rfl]
  simp (disch := decide) only [decodeMap, decodeEngines, decVperm, BitVec.extractLsb'_append_eq_of_le, BitVec.extractLsb'_append_eq_of_add_le,
    BitVec.extractLsb'_eq_self, BitVec.reduceExtractLsb', Nat.reduceSub, zeroed]
  simp only [checked, hi, ite_true, beq_self_eq_true, Bool.and_self, BitVec.reduceBEq,
    Bool.false_eq_true, if_false]

theorem vextr (a b c : BitVec 5) (f : BitVec 2) : Statement (.vextr a b c f) := by
  intro w hw hi
  simp only [encode, Option.some.injEq] at hw
  subst hw
  rw [decode_eq_checked _ 39#6 (by simp (disch := decide) only [BitVec.extractLsb'_append_eq_of_le, BitVec.extractLsb'_append_eq_of_add_le,
    BitVec.extractLsb'_eq_self, BitVec.reduceExtractLsb', Nat.reduceSub]) rfl]
  simp (disch := decide) only [decodeMap, decodeEngines, decVperm, BitVec.extractLsb'_append_eq_of_le, BitVec.extractLsb'_append_eq_of_add_le,
    BitVec.extractLsb'_eq_self, BitVec.reduceExtractLsb', Nat.reduceSub, zeroed]
  simp only [checked, hi, ite_true, beq_self_eq_true, Bool.and_self, BitVec.reduceBEq,
    Bool.false_eq_true, if_false]

theorem vins (a b c : BitVec 5) (f : BitVec 2) : Statement (.vins a b c f) := by
  intro w hw hi
  simp only [encode, Option.some.injEq] at hw
  subst hw
  rw [decode_eq_checked _ 39#6 (by simp (disch := decide) only [BitVec.extractLsb'_append_eq_of_le, BitVec.extractLsb'_append_eq_of_add_le,
    BitVec.extractLsb'_eq_self, BitVec.reduceExtractLsb', Nat.reduceSub]) rfl]
  simp (disch := decide) only [decodeMap, decodeEngines, decVperm, BitVec.extractLsb'_append_eq_of_le, BitVec.extractLsb'_append_eq_of_add_le,
    BitVec.extractLsb'_eq_self, BitVec.reduceExtractLsb', Nat.reduceSub, zeroed]
  simp only [checked, hi, ite_true, beq_self_eq_true, Bool.and_self, BitVec.reduceBEq,
    Bool.false_eq_true, if_false]

theorem vmerge (a b c : BitVec 5) (m : BitVec 3) (f : BitVec 2) : Statement (.vmerge a b c m f) := by
  intro w hw hi
  simp only [encode, Option.some.injEq] at hw
  subst hw
  rw [decode_eq_checked _ 39#6 (by simp (disch := decide) only [BitVec.extractLsb'_append_eq_of_le, BitVec.extractLsb'_append_eq_of_add_le,
    BitVec.extractLsb'_eq_self, BitVec.reduceExtractLsb', Nat.reduceSub]) rfl]
  simp (disch := decide) only [decodeMap, decodeEngines, decVperm, BitVec.extractLsb'_append_eq_of_le, BitVec.extractLsb'_append_eq_of_add_le,
    BitVec.extractLsb'_eq_self, BitVec.reduceExtractLsb', Nat.reduceSub, zeroed]
  simp only [checked, hi, ite_true, beq_self_eq_true, Bool.and_self, BitVec.reduceBEq,
    Bool.false_eq_true, if_false]

theorem vid (a : BitVec 5) (m : BitVec 3) : Statement (.vid a m) := by
  intro w hw hi
  simp only [encode, Option.some.injEq] at hw
  subst hw
  rw [decode_eq_checked _ 39#6 (by simp (disch := decide) only [BitVec.extractLsb'_append_eq_of_le, BitVec.extractLsb'_append_eq_of_add_le,
    BitVec.extractLsb'_eq_self, BitVec.reduceExtractLsb', Nat.reduceSub]) rfl]
  simp (disch := decide) only [decodeMap, decodeEngines, decVperm, BitVec.extractLsb'_append_eq_of_le, BitVec.extractLsb'_append_eq_of_add_le,
    BitVec.extractLsb'_eq_self, BitVec.reduceExtractLsb', Nat.reduceSub, zeroed]
  simp only [checked, hi, ite_true, beq_self_eq_true, Bool.and_self, BitVec.reduceBEq,
    Bool.false_eq_true, if_false]

theorem vcompress (a b : BitVec 5) (m : BitVec 3) : Statement (.vcompress a b m) := by
  intro w hw hi
  simp only [encode, Option.some.injEq] at hw
  subst hw
  rw [decode_eq_checked _ 40#6 (by simp (disch := decide) only [BitVec.extractLsb'_append_eq_of_le, BitVec.extractLsb'_append_eq_of_add_le,
    BitVec.extractLsb'_eq_self, BitVec.reduceExtractLsb', Nat.reduceSub]) rfl]
  simp (disch := decide) only [decodeMap, decodeEngines, decVsparse, BitVec.extractLsb'_append_eq_of_le, BitVec.extractLsb'_append_eq_of_add_le,
    BitVec.extractLsb'_eq_self, BitVec.reduceExtractLsb', Nat.reduceSub, zeroed]
  simp only [checked, hi, ite_true, beq_self_eq_true, Bool.and_self, BitVec.reduceBEq,
    Bool.false_eq_true, if_false]

theorem vexpand (a b : BitVec 5) (m : BitVec 3) : Statement (.vexpand a b m) := by
  intro w hw hi
  simp only [encode, Option.some.injEq] at hw
  subst hw
  rw [decode_eq_checked _ 40#6 (by simp (disch := decide) only [BitVec.extractLsb'_append_eq_of_le, BitVec.extractLsb'_append_eq_of_add_le,
    BitVec.extractLsb'_eq_self, BitVec.reduceExtractLsb', Nat.reduceSub]) rfl]
  simp (disch := decide) only [decodeMap, decodeEngines, decVsparse, BitVec.extractLsb'_append_eq_of_le, BitVec.extractLsb'_append_eq_of_add_le,
    BitVec.extractLsb'_eq_self, BitVec.reduceExtractLsb', Nat.reduceSub, zeroed]
  simp only [checked, hi, ite_true, beq_self_eq_true, Bool.and_self, BitVec.reduceBEq,
    Bool.false_eq_true, if_false]

theorem viota (a : BitVec 5) (b m : BitVec 3) : Statement (.viota a b m) := by
  intro w hw hi
  simp only [encode, Option.some.injEq] at hw
  subst hw
  rw [decode_eq_checked _ 40#6 (by simp (disch := decide) only [BitVec.extractLsb'_append_eq_of_le, BitVec.extractLsb'_append_eq_of_add_le,
    BitVec.extractLsb'_eq_self, BitVec.reduceExtractLsb', Nat.reduceSub]) rfl]
  simp (disch := decide) only [decodeMap, decodeEngines, decVsparse, BitVec.extractLsb'_append_eq_of_le, BitVec.extractLsb'_append_eq_of_add_le,
    BitVec.extractLsb'_eq_self, BitVec.reduceExtractLsb', Nat.reduceSub, zeroed]
  simp only [checked, hi, ite_true, beq_self_eq_true, Bool.and_self, BitVec.reduceBEq,
    Bool.false_eq_true, if_false]

theorem vconflict (a b : BitVec 5) (m : BitVec 3) : Statement (.vconflict a b m) := by
  intro w hw hi
  simp only [encode, Option.some.injEq] at hw
  subst hw
  rw [decode_eq_checked _ 40#6 (by simp (disch := decide) only [BitVec.extractLsb'_append_eq_of_le, BitVec.extractLsb'_append_eq_of_add_le,
    BitVec.extractLsb'_eq_self, BitVec.reduceExtractLsb', Nat.reduceSub]) rfl]
  simp (disch := decide) only [decodeMap, decodeEngines, decVsparse, BitVec.extractLsb'_append_eq_of_le, BitVec.extractLsb'_append_eq_of_add_le,
    BitVec.extractLsb'_eq_self, BitVec.reduceExtractLsb', Nat.reduceSub, zeroed]
  simp only [checked, hi, ite_true, beq_self_eq_true, Bool.and_self, BitVec.reduceBEq,
    Bool.false_eq_true, if_false]

theorem vsegscan (a b o : BitVec 5) (m : BitVec 3) : Statement (.vsegscan a b o m) := by
  intro w hw hi
  simp only [encode, Option.some.injEq] at hw
  subst hw
  rw [decode_eq_checked _ 40#6 (by simp (disch := decide) only [BitVec.extractLsb'_append_eq_of_le, BitVec.extractLsb'_append_eq_of_add_le,
    BitVec.extractLsb'_eq_self, BitVec.reduceExtractLsb', Nat.reduceSub]) rfl]
  simp (disch := decide) only [decodeMap, decodeEngines, decVsparse, BitVec.extractLsb'_append_eq_of_le, BitVec.extractLsb'_append_eq_of_add_le,
    BitVec.extractLsb'_eq_self, BitVec.reduceExtractLsb', Nat.reduceSub, zeroed]
  simp only [checked, hi, ite_true, beq_self_eq_true, Bool.and_self, BitVec.reduceBEq,
    Bool.false_eq_true, if_false]

theorem vinter (a b c : BitVec 5) (m : BitVec 3) : Statement (.vinter a b c m) := by
  intro w hw hi
  simp only [encode, Option.some.injEq] at hw
  subst hw
  rw [decode_eq_checked _ 40#6 (by simp (disch := decide) only [BitVec.extractLsb'_append_eq_of_le, BitVec.extractLsb'_append_eq_of_add_le,
    BitVec.extractLsb'_eq_self, BitVec.reduceExtractLsb', Nat.reduceSub]) rfl]
  simp (disch := decide) only [decodeMap, decodeEngines, decVsparse, BitVec.extractLsb'_append_eq_of_le, BitVec.extractLsb'_append_eq_of_add_le,
    BitVec.extractLsb'_eq_self, BitVec.reduceExtractLsb', Nat.reduceSub, zeroed]
  simp only [checked, hi, ite_true, beq_self_eq_true, Bool.and_self, BitVec.reduceBEq,
    Bool.false_eq_true, if_false]

theorem vdelta (a b c : BitVec 5) (m : BitVec 3) : Statement (.vdelta a b c m) := by
  intro w hw hi
  simp only [encode, Option.some.injEq] at hw
  subst hw
  rw [decode_eq_checked _ 40#6 (by simp (disch := decide) only [BitVec.extractLsb'_append_eq_of_le, BitVec.extractLsb'_append_eq_of_add_le,
    BitVec.extractLsb'_eq_self, BitVec.reduceExtractLsb', Nat.reduceSub]) rfl]
  simp (disch := decide) only [decodeMap, decodeEngines, decVsparse, BitVec.extractLsb'_append_eq_of_le, BitVec.extractLsb'_append_eq_of_add_le,
    BitVec.extractLsb'_eq_self, BitVec.reduceExtractLsb', Nat.reduceSub, zeroed]
  simp only [checked, hi, ite_true, beq_self_eq_true, Bool.and_self, BitVec.reduceBEq,
    Bool.false_eq_true, if_false]

theorem vprune48 (a b c : BitVec 5) : Statement (.vprune48 a b c) := by
  intro w hw hi
  simp only [encode, Option.some.injEq] at hw
  subst hw
  rw [decode_eq_checked _ 40#6 (by simp (disch := decide) only [BitVec.extractLsb'_append_eq_of_le, BitVec.extractLsb'_append_eq_of_add_le,
    BitVec.extractLsb'_eq_self, BitVec.reduceExtractLsb', Nat.reduceSub]) rfl]
  simp (disch := decide) only [decodeMap, decodeEngines, decVsparse, BitVec.extractLsb'_append_eq_of_le, BitVec.extractLsb'_append_eq_of_add_le,
    BitVec.extractLsb'_eq_self, BitVec.reduceExtractLsb', Nat.reduceSub, zeroed]
  simp only [checked, hi, ite_true, beq_self_eq_true, Bool.and_self, BitVec.reduceBEq,
    Bool.false_eq_true, if_false]

theorem vsortseg (a b c : BitVec 5) (m : BitVec 3) : Statement (.vsortseg a b c m) := by
  intro w hw hi
  simp only [encode, Option.some.injEq] at hw
  subst hw
  rw [decode_eq_checked _ 40#6 (by simp (disch := decide) only [BitVec.extractLsb'_append_eq_of_le, BitVec.extractLsb'_append_eq_of_add_le,
    BitVec.extractLsb'_eq_self, BitVec.reduceExtractLsb', Nat.reduceSub]) rfl]
  simp (disch := decide) only [decodeMap, decodeEngines, decVsparse, BitVec.extractLsb'_append_eq_of_le, BitVec.extractLsb'_append_eq_of_add_le,
    BitVec.extractLsb'_eq_self, BitVec.reduceExtractLsb', Nat.reduceSub, zeroed]
  simp only [checked, hi, ite_true, beq_self_eq_true, Bool.and_self, BitVec.reduceBEq,
    Bool.false_eq_true, if_false]

theorem vnz (a b c : BitVec 5) (m : BitVec 3) : Statement (.vnz a b c m) := by
  intro w hw hi
  simp only [encode, Option.some.injEq] at hw
  subst hw
  rw [decode_eq_checked _ 40#6 (by simp (disch := decide) only [BitVec.extractLsb'_append_eq_of_le, BitVec.extractLsb'_append_eq_of_add_le,
    BitVec.extractLsb'_eq_self, BitVec.reduceExtractLsb', Nat.reduceSub]) rfl]
  simp (disch := decide) only [decodeMap, decodeEngines, decVsparse, BitVec.extractLsb'_append_eq_of_le, BitVec.extractLsb'_append_eq_of_add_le,
    BitVec.extractLsb'_eq_self, BitVec.reduceExtractLsb', Nat.reduceSub, zeroed]
  simp only [checked, hi, ite_true, beq_self_eq_true, Bool.and_self, BitVec.reduceBEq,
    Bool.false_eq_true, if_false]

theorem vrsum (a b : BitVec 5) (m : BitVec 3) : Statement (.vrsum a b m) := by
  intro w hw hi
  simp only [encode, Option.some.injEq] at hw
  subst hw
  rw [decode_eq_checked _ 41#6 (by simp (disch := decide) only [BitVec.extractLsb'_append_eq_of_le, BitVec.extractLsb'_append_eq_of_add_le,
    BitVec.extractLsb'_eq_self, BitVec.reduceExtractLsb', Nat.reduceSub]) rfl]
  simp (disch := decide) only [decodeMap, decodeEngines, decVred, BitVec.extractLsb'_append_eq_of_le, BitVec.extractLsb'_append_eq_of_add_le,
    BitVec.extractLsb'_eq_self, BitVec.reduceExtractLsb', Nat.reduceSub, zeroed]
  simp only [checked, hi, ite_true, beq_self_eq_true, Bool.and_self, BitVec.reduceBEq,
    Bool.false_eq_true, if_false]

theorem vrmin (a b : BitVec 5) (m : BitVec 3) : Statement (.vrmin a b m) := by
  intro w hw hi
  simp only [encode, Option.some.injEq] at hw
  subst hw
  rw [decode_eq_checked _ 41#6 (by simp (disch := decide) only [BitVec.extractLsb'_append_eq_of_le, BitVec.extractLsb'_append_eq_of_add_le,
    BitVec.extractLsb'_eq_self, BitVec.reduceExtractLsb', Nat.reduceSub]) rfl]
  simp (disch := decide) only [decodeMap, decodeEngines, decVred, BitVec.extractLsb'_append_eq_of_le, BitVec.extractLsb'_append_eq_of_add_le,
    BitVec.extractLsb'_eq_self, BitVec.reduceExtractLsb', Nat.reduceSub, zeroed]
  simp only [checked, hi, ite_true, beq_self_eq_true, Bool.and_self, BitVec.reduceBEq,
    Bool.false_eq_true, if_false]

theorem vrmax (a b : BitVec 5) (m : BitVec 3) : Statement (.vrmax a b m) := by
  intro w hw hi
  simp only [encode, Option.some.injEq] at hw
  subst hw
  rw [decode_eq_checked _ 41#6 (by simp (disch := decide) only [BitVec.extractLsb'_append_eq_of_le, BitVec.extractLsb'_append_eq_of_add_le,
    BitVec.extractLsb'_eq_self, BitVec.reduceExtractLsb', Nat.reduceSub]) rfl]
  simp (disch := decide) only [decodeMap, decodeEngines, decVred, BitVec.extractLsb'_append_eq_of_le, BitVec.extractLsb'_append_eq_of_add_le,
    BitVec.extractLsb'_eq_self, BitVec.reduceExtractLsb', Nat.reduceSub, zeroed]
  simp only [checked, hi, ite_true, beq_self_eq_true, Bool.and_self, BitVec.reduceBEq,
    Bool.false_eq_true, if_false]

theorem vrand (a b : BitVec 5) (m : BitVec 3) : Statement (.vrand a b m) := by
  intro w hw hi
  simp only [encode, Option.some.injEq] at hw
  subst hw
  rw [decode_eq_checked _ 41#6 (by simp (disch := decide) only [BitVec.extractLsb'_append_eq_of_le, BitVec.extractLsb'_append_eq_of_add_le,
    BitVec.extractLsb'_eq_self, BitVec.reduceExtractLsb', Nat.reduceSub]) rfl]
  simp (disch := decide) only [decodeMap, decodeEngines, decVred, BitVec.extractLsb'_append_eq_of_le, BitVec.extractLsb'_append_eq_of_add_le,
    BitVec.extractLsb'_eq_self, BitVec.reduceExtractLsb', Nat.reduceSub, zeroed]
  simp only [checked, hi, ite_true, beq_self_eq_true, Bool.and_self, BitVec.reduceBEq,
    Bool.false_eq_true, if_false]

theorem vror (a b : BitVec 5) (m : BitVec 3) : Statement (.vror a b m) := by
  intro w hw hi
  simp only [encode, Option.some.injEq] at hw
  subst hw
  rw [decode_eq_checked _ 41#6 (by simp (disch := decide) only [BitVec.extractLsb'_append_eq_of_le, BitVec.extractLsb'_append_eq_of_add_le,
    BitVec.extractLsb'_eq_self, BitVec.reduceExtractLsb', Nat.reduceSub]) rfl]
  simp (disch := decide) only [decodeMap, decodeEngines, decVred, BitVec.extractLsb'_append_eq_of_le, BitVec.extractLsb'_append_eq_of_add_le,
    BitVec.extractLsb'_eq_self, BitVec.reduceExtractLsb', Nat.reduceSub, zeroed]
  simp only [checked, hi, ite_true, beq_self_eq_true, Bool.and_self, BitVec.reduceBEq,
    Bool.false_eq_true, if_false]

theorem vrxor (a b : BitVec 5) (m : BitVec 3) : Statement (.vrxor a b m) := by
  intro w hw hi
  simp only [encode, Option.some.injEq] at hw
  subst hw
  rw [decode_eq_checked _ 41#6 (by simp (disch := decide) only [BitVec.extractLsb'_append_eq_of_le, BitVec.extractLsb'_append_eq_of_add_le,
    BitVec.extractLsb'_eq_self, BitVec.reduceExtractLsb', Nat.reduceSub]) rfl]
  simp (disch := decide) only [decodeMap, decodeEngines, decVred, BitVec.extractLsb'_append_eq_of_le, BitVec.extractLsb'_append_eq_of_add_le,
    BitVec.extractLsb'_eq_self, BitVec.reduceExtractLsb', Nat.reduceSub, zeroed]
  simp only [checked, hi, ite_true, beq_self_eq_true, Bool.and_self, BitVec.reduceBEq,
    Bool.false_eq_true, if_false]

theorem vfrsum (a b : BitVec 5) (m : BitVec 3) : Statement (.vfrsum a b m) := by
  intro w hw hi
  simp only [encode, Option.some.injEq] at hw
  subst hw
  rw [decode_eq_checked _ 41#6 (by simp (disch := decide) only [BitVec.extractLsb'_append_eq_of_le, BitVec.extractLsb'_append_eq_of_add_le,
    BitVec.extractLsb'_eq_self, BitVec.reduceExtractLsb', Nat.reduceSub]) rfl]
  simp (disch := decide) only [decodeMap, decodeEngines, decVred, BitVec.extractLsb'_append_eq_of_le, BitVec.extractLsb'_append_eq_of_add_le,
    BitVec.extractLsb'_eq_self, BitVec.reduceExtractLsb', Nat.reduceSub, zeroed]
  simp only [checked, hi, ite_true, beq_self_eq_true, Bool.and_self, BitVec.reduceBEq,
    Bool.false_eq_true, if_false]

theorem vfrmin (a b : BitVec 5) (m : BitVec 3) : Statement (.vfrmin a b m) := by
  intro w hw hi
  simp only [encode, Option.some.injEq] at hw
  subst hw
  rw [decode_eq_checked _ 41#6 (by simp (disch := decide) only [BitVec.extractLsb'_append_eq_of_le, BitVec.extractLsb'_append_eq_of_add_le,
    BitVec.extractLsb'_eq_self, BitVec.reduceExtractLsb', Nat.reduceSub]) rfl]
  simp (disch := decide) only [decodeMap, decodeEngines, decVred, BitVec.extractLsb'_append_eq_of_le, BitVec.extractLsb'_append_eq_of_add_le,
    BitVec.extractLsb'_eq_self, BitVec.reduceExtractLsb', Nat.reduceSub, zeroed]
  simp only [checked, hi, ite_true, beq_self_eq_true, Bool.and_self, BitVec.reduceBEq,
    Bool.false_eq_true, if_false]

theorem vfrmax (a b : BitVec 5) (m : BitVec 3) : Statement (.vfrmax a b m) := by
  intro w hw hi
  simp only [encode, Option.some.injEq] at hw
  subst hw
  rw [decode_eq_checked _ 41#6 (by simp (disch := decide) only [BitVec.extractLsb'_append_eq_of_le, BitVec.extractLsb'_append_eq_of_add_le,
    BitVec.extractLsb'_eq_self, BitVec.reduceExtractLsb', Nat.reduceSub]) rfl]
  simp (disch := decide) only [decodeMap, decodeEngines, decVred, BitVec.extractLsb'_append_eq_of_le, BitVec.extractLsb'_append_eq_of_add_le,
    BitVec.extractLsb'_eq_self, BitVec.reduceExtractLsb', Nat.reduceSub, zeroed]
  simp only [checked, hi, ite_true, beq_self_eq_true, Bool.and_self, BitVec.reduceBEq,
    Bool.false_eq_true, if_false]

theorem vfdot (a b c : BitVec 5) (m : BitVec 3) : Statement (.vfdot a b c m) := by
  intro w hw hi
  simp only [encode, Option.some.injEq] at hw
  subst hw
  rw [decode_eq_checked _ 41#6 (by simp (disch := decide) only [BitVec.extractLsb'_append_eq_of_le, BitVec.extractLsb'_append_eq_of_add_le,
    BitVec.extractLsb'_eq_self, BitVec.reduceExtractLsb', Nat.reduceSub]) rfl]
  simp (disch := decide) only [decodeMap, decodeEngines, decVred, BitVec.extractLsb'_append_eq_of_le, BitVec.extractLsb'_append_eq_of_add_le,
    BitVec.extractLsb'_eq_self, BitVec.reduceExtractLsb', Nat.reduceSub, zeroed]
  simp only [checked, hi, ite_true, beq_self_eq_true, Bool.and_self, BitVec.reduceBEq,
    Bool.false_eq_true, if_false]

theorem vtagq (a b : BitVec 5) : Statement (.vtagq a b) := by
  intro w hw hi
  simp only [encode, Option.some.injEq] at hw
  subst hw
  rw [decode_eq_checked _ 42#6 (by simp (disch := decide) only [BitVec.extractLsb'_append_eq_of_le, BitVec.extractLsb'_append_eq_of_add_le,
    BitVec.extractLsb'_eq_self, BitVec.reduceExtractLsb', Nat.reduceSub]) rfl]
  simp (disch := decide) only [decodeMap, decodeEngines, decVtag, BitVec.extractLsb'_append_eq_of_le, BitVec.extractLsb'_append_eq_of_add_le,
    BitVec.extractLsb'_eq_self, BitVec.reduceExtractLsb', Nat.reduceSub, zeroed]
  simp only [checked, hi, ite_true, beq_self_eq_true, Bool.and_self, BitVec.reduceBEq,
    Bool.false_eq_true, if_false]

theorem vwaitr (a b : BitVec 5) (m : BitVec 3) : Statement (.vwaitr a b m) := by
  intro w hw hi
  simp only [encode, Option.some.injEq] at hw
  subst hw
  rw [decode_eq_checked _ 42#6 (by simp (disch := decide) only [BitVec.extractLsb'_append_eq_of_le, BitVec.extractLsb'_append_eq_of_add_le,
    BitVec.extractLsb'_eq_self, BitVec.reduceExtractLsb', Nat.reduceSub]) rfl]
  simp (disch := decide) only [decodeMap, decodeEngines, decVtag, BitVec.extractLsb'_append_eq_of_le, BitVec.extractLsb'_append_eq_of_add_le,
    BitVec.extractLsb'_eq_self, BitVec.reduceExtractLsb', Nat.reduceSub, zeroed]
  simp only [checked, hi, ite_true, beq_self_eq_true, Bool.and_self, BitVec.reduceBEq,
    Bool.false_eq_true, if_false]

theorem vdrop (a : BitVec 5) (m : BitVec 3) : Statement (.vdrop a m) := by
  intro w hw hi
  simp only [encode, Option.some.injEq] at hw
  subst hw
  rw [decode_eq_checked _ 42#6 (by simp (disch := decide) only [BitVec.extractLsb'_append_eq_of_le, BitVec.extractLsb'_append_eq_of_add_le,
    BitVec.extractLsb'_eq_self, BitVec.reduceExtractLsb', Nat.reduceSub]) rfl]
  simp (disch := decide) only [decodeMap, decodeEngines, decVtag, BitVec.extractLsb'_append_eq_of_le, BitVec.extractLsb'_append_eq_of_add_le,
    BitVec.extractLsb'_eq_self, BitVec.reduceExtractLsb', Nat.reduceSub, zeroed]
  simp only [checked, hi, ite_true, beq_self_eq_true, Bool.and_self, BitVec.reduceBEq,
    Bool.false_eq_true, if_false]

theorem vprog (a n : BitVec 5) : Statement (.vprog a n) := by
  intro w hw hi
  simp only [encode, Option.some.injEq] at hw
  subst hw
  rw [decode_eq_checked _ 42#6 (by simp (disch := decide) only [BitVec.extractLsb'_append_eq_of_le, BitVec.extractLsb'_append_eq_of_add_le,
    BitVec.extractLsb'_eq_self, BitVec.reduceExtractLsb', Nat.reduceSub]) rfl]
  simp (disch := decide) only [decodeMap, decodeEngines, decVtag, BitVec.extractLsb'_append_eq_of_le, BitVec.extractLsb'_append_eq_of_add_le,
    BitVec.extractLsb'_eq_self, BitVec.reduceExtractLsb', Nat.reduceSub, zeroed]
  simp only [checked, hi, ite_true, beq_self_eq_true, Bool.and_self, BitVec.reduceBEq,
    Bool.false_eq_true, if_false]

theorem vld (a b : BitVec 5) (m : BitVec 3) : Statement (.vld a b m) := by
  intro w hw hi
  simp only [encode, Option.some.injEq] at hw
  subst hw
  rw [decode_eq_checked _ 48#6 (by simp (disch := decide) only [BitVec.extractLsb'_append_eq_of_le, BitVec.extractLsb'_append_eq_of_add_le,
    BitVec.extractLsb'_eq_self, BitVec.reduceExtractLsb', Nat.reduceSub]) rfl]
  simp (disch := decide) only [decodeMap, decodeEngines, decVld, BitVec.extractLsb'_append_eq_of_le, BitVec.extractLsb'_append_eq_of_add_le,
    BitVec.extractLsb'_eq_self, BitVec.reduceExtractLsb', Nat.reduceSub, zeroed]
  simp only [checked, hi, ite_true, beq_self_eq_true, Bool.and_self, BitVec.reduceBEq,
    Bool.false_eq_true, if_false]

theorem vlds (a b c : BitVec 5) (m : BitVec 3) : Statement (.vlds a b c m) := by
  intro w hw hi
  simp only [encode, Option.some.injEq] at hw
  subst hw
  rw [decode_eq_checked _ 48#6 (by simp (disch := decide) only [BitVec.extractLsb'_append_eq_of_le, BitVec.extractLsb'_append_eq_of_add_le,
    BitVec.extractLsb'_eq_self, BitVec.reduceExtractLsb', Nat.reduceSub]) rfl]
  simp (disch := decide) only [decodeMap, decodeEngines, decVld, BitVec.extractLsb'_append_eq_of_le, BitVec.extractLsb'_append_eq_of_add_le,
    BitVec.extractLsb'_eq_self, BitVec.reduceExtractLsb', Nat.reduceSub, zeroed]
  simp only [checked, hi, ite_true, beq_self_eq_true, Bool.and_self, BitVec.reduceBEq,
    Bool.false_eq_true, if_false]

theorem vldx (a b c : BitVec 5) (m : BitVec 3) : Statement (.vldx a b c m) := by
  intro w hw hi
  simp only [encode, Option.some.injEq] at hw
  subst hw
  rw [decode_eq_checked _ 48#6 (by simp (disch := decide) only [BitVec.extractLsb'_append_eq_of_le, BitVec.extractLsb'_append_eq_of_add_le,
    BitVec.extractLsb'_eq_self, BitVec.reduceExtractLsb', Nat.reduceSub]) rfl]
  simp (disch := decide) only [decodeMap, decodeEngines, decVld, BitVec.extractLsb'_append_eq_of_le, BitVec.extractLsb'_append_eq_of_add_le,
    BitVec.extractLsb'_eq_self, BitVec.reduceExtractLsb', Nat.reduceSub, zeroed]
  simp only [checked, hi, ite_true, beq_self_eq_true, Bool.and_self, BitVec.reduceBEq,
    Bool.false_eq_true, if_false]

theorem vldseg (a b : BitVec 5) (t : BitVec 4) (m f : BitVec 3) : Statement (.vldseg a b t m f) := by
  intro w hw hi
  simp only [encode, Option.some.injEq] at hw
  subst hw
  rw [decode_eq_checked _ 48#6 (by simp (disch := decide) only [BitVec.extractLsb'_append_eq_of_le, BitVec.extractLsb'_append_eq_of_add_le,
    BitVec.extractLsb'_eq_self, BitVec.reduceExtractLsb', Nat.reduceSub]) rfl]
  simp (disch := decide) only [decodeMap, decodeEngines, decVld, BitVec.extractLsb'_append_eq_of_le, BitVec.extractLsb'_append_eq_of_add_le,
    BitVec.extractLsb'_eq_self, BitVec.reduceExtractLsb', Nat.reduceSub, zeroed]
  simp only [checked, hi, ite_true, beq_self_eq_true, Bool.and_self, BitVec.reduceBEq,
    Bool.false_eq_true, if_false]

theorem vldw (a b : BitVec 5) (m : BitVec 3) : Statement (.vldw a b m) := by
  intro w hw hi
  simp only [encode, Option.some.injEq] at hw
  subst hw
  rw [decode_eq_checked _ 48#6 (by simp (disch := decide) only [BitVec.extractLsb'_append_eq_of_le, BitVec.extractLsb'_append_eq_of_add_le,
    BitVec.extractLsb'_eq_self, BitVec.reduceExtractLsb', Nat.reduceSub]) rfl]
  simp (disch := decide) only [decodeMap, decodeEngines, decVld, BitVec.extractLsb'_append_eq_of_le, BitVec.extractLsb'_append_eq_of_add_le,
    BitVec.extractLsb'_eq_self, BitVec.reduceExtractLsb', Nat.reduceSub, zeroed]
  simp only [checked, hi, ite_true, beq_self_eq_true, Bool.and_self, BitVec.reduceBEq,
    Bool.false_eq_true, if_false]

theorem vldl (a b c : BitVec 5) (m : BitVec 3) : Statement (.vldl a b c m) := by
  intro w hw hi
  simp only [encode, Option.some.injEq] at hw
  subst hw
  rw [decode_eq_checked _ 48#6 (by simp (disch := decide) only [BitVec.extractLsb'_append_eq_of_le, BitVec.extractLsb'_append_eq_of_add_le,
    BitVec.extractLsb'_eq_self, BitVec.reduceExtractLsb', Nat.reduceSub]) rfl]
  simp (disch := decide) only [decodeMap, decodeEngines, decVld, BitVec.extractLsb'_append_eq_of_le, BitVec.extractLsb'_append_eq_of_add_le,
    BitVec.extractLsb'_eq_self, BitVec.reduceExtractLsb', Nat.reduceSub, zeroed]
  simp only [checked, hi, ite_true, beq_self_eq_true, Bool.and_self, BitVec.reduceBEq,
    Bool.false_eq_true, if_false]

theorem vldsc (a b c : BitVec 5) (m : BitVec 3) : Statement (.vldsc a b c m) := by
  intro w hw hi
  simp only [encode, Option.some.injEq] at hw
  subst hw
  rw [decode_eq_checked _ 48#6 (by simp (disch := decide) only [BitVec.extractLsb'_append_eq_of_le, BitVec.extractLsb'_append_eq_of_add_le,
    BitVec.extractLsb'_eq_self, BitVec.reduceExtractLsb', Nat.reduceSub]) rfl]
  simp (disch := decide) only [decodeMap, decodeEngines, decVld, BitVec.extractLsb'_append_eq_of_le, BitVec.extractLsb'_append_eq_of_add_le,
    BitVec.extractLsb'_eq_self, BitVec.reduceExtractLsb', Nat.reduceSub, zeroed]
  simp only [checked, hi, ite_true, beq_self_eq_true, Bool.and_self, BitVec.reduceBEq,
    Bool.false_eq_true, if_false]

theorem vrload (a b : BitVec 5) : Statement (.vrload a b) := by
  intro w hw hi
  simp only [encode, Option.some.injEq] at hw
  subst hw
  rw [decode_eq_checked _ 48#6 (by simp (disch := decide) only [BitVec.extractLsb'_append_eq_of_le, BitVec.extractLsb'_append_eq_of_add_le,
    BitVec.extractLsb'_eq_self, BitVec.reduceExtractLsb', Nat.reduceSub]) rfl]
  simp (disch := decide) only [decodeMap, decodeEngines, decVld, BitVec.extractLsb'_append_eq_of_le, BitVec.extractLsb'_append_eq_of_add_le,
    BitVec.extractLsb'_eq_self, BitVec.reduceExtractLsb', Nat.reduceSub, zeroed]
  simp only [checked, hi, ite_true, beq_self_eq_true, Bool.and_self, BitVec.reduceBEq,
    Bool.false_eq_true, if_false]

theorem vst (a b : BitVec 5) (m : BitVec 3) : Statement (.vst a b m) := by
  intro w hw hi
  simp only [encode, Option.some.injEq] at hw
  subst hw
  rw [decode_eq_checked _ 49#6 (by simp (disch := decide) only [BitVec.extractLsb'_append_eq_of_le, BitVec.extractLsb'_append_eq_of_add_le,
    BitVec.extractLsb'_eq_self, BitVec.reduceExtractLsb', Nat.reduceSub]) rfl]
  simp (disch := decide) only [decodeMap, decodeEngines, decVst, BitVec.extractLsb'_append_eq_of_le, BitVec.extractLsb'_append_eq_of_add_le,
    BitVec.extractLsb'_eq_self, BitVec.reduceExtractLsb', Nat.reduceSub, zeroed]
  simp only [checked, hi, ite_true, beq_self_eq_true, Bool.and_self, BitVec.reduceBEq,
    Bool.false_eq_true, if_false]

theorem vsts (a b c : BitVec 5) (m : BitVec 3) : Statement (.vsts a b c m) := by
  intro w hw hi
  simp only [encode, Option.some.injEq] at hw
  subst hw
  rw [decode_eq_checked _ 49#6 (by simp (disch := decide) only [BitVec.extractLsb'_append_eq_of_le, BitVec.extractLsb'_append_eq_of_add_le,
    BitVec.extractLsb'_eq_self, BitVec.reduceExtractLsb', Nat.reduceSub]) rfl]
  simp (disch := decide) only [decodeMap, decodeEngines, decVst, BitVec.extractLsb'_append_eq_of_le, BitVec.extractLsb'_append_eq_of_add_le,
    BitVec.extractLsb'_eq_self, BitVec.reduceExtractLsb', Nat.reduceSub, zeroed]
  simp only [checked, hi, ite_true, beq_self_eq_true, Bool.and_self, BitVec.reduceBEq,
    Bool.false_eq_true, if_false]

theorem vstx (a b c : BitVec 5) (m : BitVec 3) : Statement (.vstx a b c m) := by
  intro w hw hi
  simp only [encode, Option.some.injEq] at hw
  subst hw
  rw [decode_eq_checked _ 49#6 (by simp (disch := decide) only [BitVec.extractLsb'_append_eq_of_le, BitVec.extractLsb'_append_eq_of_add_le,
    BitVec.extractLsb'_eq_self, BitVec.reduceExtractLsb', Nat.reduceSub]) rfl]
  simp (disch := decide) only [decodeMap, decodeEngines, decVst, BitVec.extractLsb'_append_eq_of_le, BitVec.extractLsb'_append_eq_of_add_le,
    BitVec.extractLsb'_eq_self, BitVec.reduceExtractLsb', Nat.reduceSub, zeroed]
  simp only [checked, hi, ite_true, beq_self_eq_true, Bool.and_self, BitVec.reduceBEq,
    Bool.false_eq_true, if_false]

theorem vstseg (a b : BitVec 5) (t : BitVec 4) (m f : BitVec 3) : Statement (.vstseg a b t m f) := by
  intro w hw hi
  simp only [encode, Option.some.injEq] at hw
  subst hw
  rw [decode_eq_checked _ 49#6 (by simp (disch := decide) only [BitVec.extractLsb'_append_eq_of_le, BitVec.extractLsb'_append_eq_of_add_le,
    BitVec.extractLsb'_eq_self, BitVec.reduceExtractLsb', Nat.reduceSub]) rfl]
  simp (disch := decide) only [decodeMap, decodeEngines, decVst, BitVec.extractLsb'_append_eq_of_le, BitVec.extractLsb'_append_eq_of_add_le,
    BitVec.extractLsb'_eq_self, BitVec.reduceExtractLsb', Nat.reduceSub, zeroed]
  simp only [checked, hi, ite_true, beq_self_eq_true, Bool.and_self, BitVec.reduceBEq,
    Bool.false_eq_true, if_false]

theorem vstc (a b c : BitVec 5) (m : BitVec 3) : Statement (.vstc a b c m) := by
  intro w hw hi
  simp only [encode, Option.some.injEq] at hw
  subst hw
  rw [decode_eq_checked _ 49#6 (by simp (disch := decide) only [BitVec.extractLsb'_append_eq_of_le, BitVec.extractLsb'_append_eq_of_add_le,
    BitVec.extractLsb'_eq_self, BitVec.reduceExtractLsb', Nat.reduceSub]) rfl]
  simp (disch := decide) only [decodeMap, decodeEngines, decVst, BitVec.extractLsb'_append_eq_of_le, BitVec.extractLsb'_append_eq_of_add_le,
    BitVec.extractLsb'_eq_self, BitVec.reduceExtractLsb', Nat.reduceSub, zeroed]
  simp only [checked, hi, ite_true, beq_self_eq_true, Bool.and_self, BitVec.reduceBEq,
    Bool.false_eq_true, if_false]

theorem vstsc (a b c : BitVec 5) (m : BitVec 3) : Statement (.vstsc a b c m) := by
  intro w hw hi
  simp only [encode, Option.some.injEq] at hw
  subst hw
  rw [decode_eq_checked _ 49#6 (by simp (disch := decide) only [BitVec.extractLsb'_append_eq_of_le, BitVec.extractLsb'_append_eq_of_add_le,
    BitVec.extractLsb'_eq_self, BitVec.reduceExtractLsb', Nat.reduceSub]) rfl]
  simp (disch := decide) only [decodeMap, decodeEngines, decVst, BitVec.extractLsb'_append_eq_of_le, BitVec.extractLsb'_append_eq_of_add_le,
    BitVec.extractLsb'_eq_self, BitVec.reduceExtractLsb', Nat.reduceSub, zeroed]
  simp only [checked, hi, ite_true, beq_self_eq_true, Bool.and_self, BitVec.reduceBEq,
    Bool.false_eq_true, if_false]

theorem vrsave (a b : BitVec 5) : Statement (.vrsave a b) := by
  intro w hw hi
  simp only [encode, Option.some.injEq] at hw
  subst hw
  rw [decode_eq_checked _ 49#6 (by simp (disch := decide) only [BitVec.extractLsb'_append_eq_of_le, BitVec.extractLsb'_append_eq_of_add_le,
    BitVec.extractLsb'_eq_self, BitVec.reduceExtractLsb', Nat.reduceSub]) rfl]
  simp (disch := decide) only [decodeMap, decodeEngines, decVst, BitVec.extractLsb'_append_eq_of_le, BitVec.extractLsb'_append_eq_of_add_le,
    BitVec.extractLsb'_eq_self, BitVec.reduceExtractLsb', Nat.reduceSub, zeroed]
  simp only [checked, hi, ite_true, beq_self_eq_true, Bool.and_self, BitVec.reduceBEq,
    Bool.false_eq_true, if_false]

theorem vldrow (a b : BitVec 5) (m : BitVec 3) : Statement (.vldrow a b m) := by
  intro w hw hi
  simp only [encode, Option.some.injEq] at hw
  subst hw
  rw [decode_eq_checked _ 50#6 (by simp (disch := decide) only [BitVec.extractLsb'_append_eq_of_le, BitVec.extractLsb'_append_eq_of_add_le,
    BitVec.extractLsb'_eq_self, BitVec.reduceExtractLsb', Nat.reduceSub]) rfl]
  simp (disch := decide) only [decodeMap, decodeEngines, decVrow, BitVec.extractLsb'_append_eq_of_le, BitVec.extractLsb'_append_eq_of_add_le,
    BitVec.extractLsb'_eq_self, BitVec.reduceExtractLsb', Nat.reduceSub, zeroed]
  simp only [checked, hi, ite_true, beq_self_eq_true, Bool.and_self, BitVec.reduceBEq,
    Bool.false_eq_true, if_false]

theorem vstrow (a b : BitVec 5) (m : BitVec 3) : Statement (.vstrow a b m) := by
  intro w hw hi
  simp only [encode, Option.some.injEq] at hw
  subst hw
  rw [decode_eq_checked _ 50#6 (by simp (disch := decide) only [BitVec.extractLsb'_append_eq_of_le, BitVec.extractLsb'_append_eq_of_add_le,
    BitVec.extractLsb'_eq_self, BitVec.reduceExtractLsb', Nat.reduceSub]) rfl]
  simp (disch := decide) only [decodeMap, decodeEngines, decVrow, BitVec.extractLsb'_append_eq_of_le, BitVec.extractLsb'_append_eq_of_add_le,
    BitVec.extractLsb'_eq_self, BitVec.reduceExtractLsb', Nat.reduceSub, zeroed]
  simp only [checked, hi, ite_true, beq_self_eq_true, Bool.and_self, BitVec.reduceBEq,
    Bool.false_eq_true, if_false]

theorem vemb (a b c d : BitVec 5) (m : BitVec 3) : Statement (.vemb a b c d m) := by
  intro w hw hi
  simp only [encode, Option.some.injEq] at hw
  subst hw
  rw [decode_eq_checked _ 51#6 (by simp (disch := decide) only [BitVec.extractLsb'_append_eq_of_le, BitVec.extractLsb'_append_eq_of_add_le,
    BitVec.extractLsb'_eq_self, BitVec.reduceExtractLsb', Nat.reduceSub]) rfl]
  simp (disch := decide) only [decodeMap, decodeEngines, decVemb, BitVec.extractLsb'_append_eq_of_le, BitVec.extractLsb'_append_eq_of_add_le,
    BitVec.extractLsb'_eq_self, BitVec.reduceExtractLsb', Nat.reduceSub, zeroed]
  simp only [checked, hi, ite_true, beq_self_eq_true, Bool.and_self, BitVec.reduceBEq,
    Bool.false_eq_true, if_false]

theorem vbind (a : BitVec 3) (b c : BitVec 5) : Statement (.vbind a b c) := by
  intro w hw hi
  simp only [encode, Option.some.injEq] at hw
  subst hw
  rw [decode_eq_checked _ 52#6 (by simp (disch := decide) only [BitVec.extractLsb'_append_eq_of_le, BitVec.extractLsb'_append_eq_of_add_le,
    BitVec.extractLsb'_eq_self, BitVec.reduceExtractLsb', Nat.reduceSub]) rfl]
  simp (disch := decide) only [decodeMap, decodeEngines, decVbind, BitVec.extractLsb'_append_eq_of_le, BitVec.extractLsb'_append_eq_of_add_le,
    BitVec.extractLsb'_eq_self, BitVec.reduceExtractLsb', Nat.reduceSub, zeroed]
  simp only [checked, hi, ite_true, beq_self_eq_true, Bool.and_self, BitVec.reduceBEq,
    Bool.false_eq_true, if_false]

theorem vunbind (a : BitVec 3) : Statement (.vunbind a) := by
  intro w hw hi
  simp only [encode, Option.some.injEq] at hw
  subst hw
  rw [decode_eq_checked _ 52#6 (by simp (disch := decide) only [BitVec.extractLsb'_append_eq_of_le, BitVec.extractLsb'_append_eq_of_add_le,
    BitVec.extractLsb'_eq_self, BitVec.reduceExtractLsb', Nat.reduceSub]) rfl]
  simp (disch := decide) only [decodeMap, decodeEngines, decVbind, BitVec.extractLsb'_append_eq_of_le, BitVec.extractLsb'_append_eq_of_add_le,
    BitVec.extractLsb'_eq_self, BitVec.reduceExtractLsb', Nat.reduceSub, zeroed]
  simp only [checked, hi, ite_true, beq_self_eq_true, Bool.and_self, BitVec.reduceBEq,
    Bool.false_eq_true, if_false]

theorem vbpos (a : BitVec 5) (b : BitVec 3) : Statement (.vbpos a b) := by
  intro w hw hi
  simp only [encode, Option.some.injEq] at hw
  subst hw
  rw [decode_eq_checked _ 52#6 (by simp (disch := decide) only [BitVec.extractLsb'_append_eq_of_le, BitVec.extractLsb'_append_eq_of_add_le,
    BitVec.extractLsb'_eq_self, BitVec.reduceExtractLsb', Nat.reduceSub]) rfl]
  simp (disch := decide) only [decodeMap, decodeEngines, decVbind, BitVec.extractLsb'_append_eq_of_le, BitVec.extractLsb'_append_eq_of_add_le,
    BitVec.extractLsb'_eq_self, BitVec.reduceExtractLsb', Nat.reduceSub, zeroed]
  simp only [checked, hi, ite_true, beq_self_eq_true, Bool.and_self, BitVec.reduceBEq,
    Bool.false_eq_true, if_false]

theorem vbset (a : BitVec 3) (b : BitVec 5) : Statement (.vbset a b) := by
  intro w hw hi
  simp only [encode, Option.some.injEq] at hw
  subst hw
  rw [decode_eq_checked _ 52#6 (by simp (disch := decide) only [BitVec.extractLsb'_append_eq_of_le, BitVec.extractLsb'_append_eq_of_add_le,
    BitVec.extractLsb'_eq_self, BitVec.reduceExtractLsb', Nat.reduceSub]) rfl]
  simp (disch := decide) only [decodeMap, decodeEngines, decVbind, BitVec.extractLsb'_append_eq_of_le, BitVec.extractLsb'_append_eq_of_add_le,
    BitVec.extractLsb'_eq_self, BitVec.reduceExtractLsb', Nat.reduceSub, zeroed]
  simp only [checked, hi, ite_true, beq_self_eq_true, Bool.and_self, BitVec.reduceBEq,
    Bool.false_eq_true, if_false]

theorem relay (a : BitVec 3) (b : BitVec 5) (s : BitVec 1) (d : BitVec 2) : Statement (.relay a b s d) := by
  intro w hw hi
  simp only [encode, Option.some.injEq] at hw
  subst hw
  rw [decode_eq_checked _ 52#6 (by simp (disch := decide) only [BitVec.extractLsb'_append_eq_of_le, BitVec.extractLsb'_append_eq_of_add_le,
    BitVec.extractLsb'_eq_self, BitVec.reduceExtractLsb', Nat.reduceSub]) rfl]
  simp (disch := decide) only [decodeMap, decodeEngines, decVbind, BitVec.extractLsb'_append_eq_of_le, BitVec.extractLsb'_append_eq_of_add_le,
    BitVec.extractLsb'_eq_self, BitVec.reduceExtractLsb', Nat.reduceSub, zeroed]
  simp only [checked, hi, ite_true, beq_self_eq_true, Bool.and_self, BitVec.reduceBEq,
    Bool.false_eq_true, if_false]

theorem urgn (a b : BitVec 5) : Statement (.urgn a b) := by
  intro w hw hi
  simp only [encode, Option.some.injEq] at hw
  subst hw
  rw [decode_eq_checked _ 53#6 (by simp (disch := decide) only [BitVec.extractLsb'_append_eq_of_le, BitVec.extractLsb'_append_eq_of_add_le,
    BitVec.extractLsb'_eq_self, BitVec.reduceExtractLsb', Nat.reduceSub]) rfl]
  simp (disch := decide) only [decodeMap, decodeEngines, decUpd, BitVec.extractLsb'_append_eq_of_le, BitVec.extractLsb'_append_eq_of_add_le,
    BitVec.extractLsb'_eq_self, BitVec.reduceExtractLsb', Nat.reduceSub, zeroed]
  simp only [checked, hi, ite_true, beq_self_eq_true, Bool.and_self, BitVec.reduceBEq,
    Bool.false_eq_true, if_false]

theorem upd (a b c : BitVec 5) (m : BitVec 3) : Statement (.upd a b c m) := by
  intro w hw hi
  simp only [encode, Option.some.injEq] at hw
  subst hw
  rw [decode_eq_checked _ 53#6 (by simp (disch := decide) only [BitVec.extractLsb'_append_eq_of_le, BitVec.extractLsb'_append_eq_of_add_le,
    BitVec.extractLsb'_eq_self, BitVec.reduceExtractLsb', Nat.reduceSub]) rfl]
  simp (disch := decide) only [decodeMap, decodeEngines, decUpd, BitVec.extractLsb'_append_eq_of_le, BitVec.extractLsb'_append_eq_of_add_le,
    BitVec.extractLsb'_eq_self, BitVec.reduceExtractLsb', Nat.reduceSub, zeroed]
  simp only [checked, hi, ite_true, beq_self_eq_true, Bool.and_self, BitVec.reduceBEq,
    Bool.false_eq_true, if_false]

theorem useal (a : BitVec 5) : Statement (.useal a) := by
  intro w hw hi
  simp only [encode, Option.some.injEq] at hw
  subst hw
  rw [decode_eq_checked _ 53#6 (by simp (disch := decide) only [BitVec.extractLsb'_append_eq_of_le, BitVec.extractLsb'_append_eq_of_add_le,
    BitVec.extractLsb'_eq_self, BitVec.reduceExtractLsb', Nat.reduceSub]) rfl]
  simp (disch := decide) only [decodeMap, decodeEngines, decUpd, BitVec.extractLsb'_append_eq_of_le, BitVec.extractLsb'_append_eq_of_add_le,
    BitVec.extractLsb'_eq_self, BitVec.reduceExtractLsb', Nat.reduceSub, zeroed]
  simp only [checked, hi, ite_true, beq_self_eq_true, Bool.and_self, BitVec.reduceBEq,
    Bool.false_eq_true, if_false]

theorem uflush (a : BitVec 5) : Statement (.uflush a) := by
  intro w hw hi
  simp only [encode, Option.some.injEq] at hw
  subst hw
  rw [decode_eq_checked _ 53#6 (by simp (disch := decide) only [BitVec.extractLsb'_append_eq_of_le, BitVec.extractLsb'_append_eq_of_add_le,
    BitVec.extractLsb'_eq_self, BitVec.reduceExtractLsb', Nat.reduceSub]) rfl]
  simp (disch := decide) only [decodeMap, decodeEngines, decUpd, BitVec.extractLsb'_append_eq_of_le, BitVec.extractLsb'_append_eq_of_add_le,
    BitVec.extractLsb'_eq_self, BitVec.reduceExtractLsb', Nat.reduceSub, zeroed]
  simp only [checked, hi, ite_true, beq_self_eq_true, Bool.and_self, BitVec.reduceBEq,
    Bool.false_eq_true, if_false]

theorem uclose (a : BitVec 5) : Statement (.uclose a) := by
  intro w hw hi
  simp only [encode, Option.some.injEq] at hw
  subst hw
  rw [decode_eq_checked _ 53#6 (by simp (disch := decide) only [BitVec.extractLsb'_append_eq_of_le, BitVec.extractLsb'_append_eq_of_add_le,
    BitVec.extractLsb'_eq_self, BitVec.reduceExtractLsb', Nat.reduceSub]) rfl]
  simp (disch := decide) only [decodeMap, decodeEngines, decUpd, BitVec.extractLsb'_append_eq_of_le, BitVec.extractLsb'_append_eq_of_add_le,
    BitVec.extractLsb'_eq_self, BitVec.reduceExtractLsb', Nat.reduceSub, zeroed]
  simp only [checked, hi, ite_true, beq_self_eq_true, Bool.and_self, BitVec.reduceBEq,
    Bool.false_eq_true, if_false]

theorem mmode (a b : BitVec 5) (t : BitVec 4) : Statement (.mmode a b t) := by
  intro w hw hi
  simp only [encode, Option.some.injEq] at hw
  subst hw
  rw [decode_eq_checked _ 54#6 (by simp (disch := decide) only [BitVec.extractLsb'_append_eq_of_le, BitVec.extractLsb'_append_eq_of_add_le,
    BitVec.extractLsb'_eq_self, BitVec.reduceExtractLsb', Nat.reduceSub]) rfl]
  simp (disch := decide) only [decodeMap, decodeEngines, decMat, BitVec.extractLsb'_append_eq_of_le, BitVec.extractLsb'_append_eq_of_add_le,
    BitVec.extractLsb'_eq_self, BitVec.reduceExtractLsb', Nat.reduceSub, zeroed]
  simp only [checked, hi, ite_true, beq_self_eq_true, Bool.and_self, BitVec.reduceBEq,
    Bool.false_eq_true, if_false]

theorem tzero (t : BitVec 2) : Statement (.tzero t) := by
  intro w hw hi
  simp only [encode, Option.some.injEq] at hw
  subst hw
  rw [decode_eq_checked _ 54#6 (by simp (disch := decide) only [BitVec.extractLsb'_append_eq_of_le, BitVec.extractLsb'_append_eq_of_add_le,
    BitVec.extractLsb'_eq_self, BitVec.reduceExtractLsb', Nat.reduceSub]) rfl]
  simp (disch := decide) only [decodeMap, decodeEngines, decMat, BitVec.extractLsb'_append_eq_of_le, BitVec.extractLsb'_append_eq_of_add_le,
    BitVec.extractLsb'_eq_self, BitVec.reduceExtractLsb', Nat.reduceSub, zeroed]
  simp only [checked, hi, ite_true, beq_self_eq_true, Bool.and_self, BitVec.reduceBEq,
    Bool.false_eq_true, if_false]

theorem tgetr (a : BitVec 5) (t : BitVec 2) (c : BitVec 5) (m : BitVec 3) : Statement (.tgetr a t c m) := by
  intro w hw hi
  simp only [encode, Option.some.injEq] at hw
  subst hw
  rw [decode_eq_checked _ 54#6 (by simp (disch := decide) only [BitVec.extractLsb'_append_eq_of_le, BitVec.extractLsb'_append_eq_of_add_le,
    BitVec.extractLsb'_eq_self, BitVec.reduceExtractLsb', Nat.reduceSub]) rfl]
  simp (disch := decide) only [decodeMap, decodeEngines, decMat, BitVec.extractLsb'_append_eq_of_le, BitVec.extractLsb'_append_eq_of_add_le,
    BitVec.extractLsb'_eq_self, BitVec.reduceExtractLsb', Nat.reduceSub, zeroed]
  simp only [checked, hi, ite_true, beq_self_eq_true, Bool.and_self, BitVec.reduceBEq,
    Bool.false_eq_true, if_false]

theorem tgetc (a : BitVec 5) (t : BitVec 2) (c : BitVec 5) (m : BitVec 3) : Statement (.tgetc a t c m) := by
  intro w hw hi
  simp only [encode, Option.some.injEq] at hw
  subst hw
  rw [decode_eq_checked _ 54#6 (by simp (disch := decide) only [BitVec.extractLsb'_append_eq_of_le, BitVec.extractLsb'_append_eq_of_add_le,
    BitVec.extractLsb'_eq_self, BitVec.reduceExtractLsb', Nat.reduceSub]) rfl]
  simp (disch := decide) only [decodeMap, decodeEngines, decMat, BitVec.extractLsb'_append_eq_of_le, BitVec.extractLsb'_append_eq_of_add_le,
    BitVec.extractLsb'_eq_self, BitVec.reduceExtractLsb', Nat.reduceSub, zeroed]
  simp only [checked, hi, ite_true, beq_self_eq_true, Bool.and_self, BitVec.reduceBEq,
    Bool.false_eq_true, if_false]

theorem tsetr (t : BitVec 2) (b c : BitVec 5) (m : BitVec 3) : Statement (.tsetr t b c m) := by
  intro w hw hi
  simp only [encode, Option.some.injEq] at hw
  subst hw
  rw [decode_eq_checked _ 54#6 (by simp (disch := decide) only [BitVec.extractLsb'_append_eq_of_le, BitVec.extractLsb'_append_eq_of_add_le,
    BitVec.extractLsb'_eq_self, BitVec.reduceExtractLsb', Nat.reduceSub]) rfl]
  simp (disch := decide) only [decodeMap, decodeEngines, decMat, BitVec.extractLsb'_append_eq_of_le, BitVec.extractLsb'_append_eq_of_add_le,
    BitVec.extractLsb'_eq_self, BitVec.reduceExtractLsb', Nat.reduceSub, zeroed]
  simp only [checked, hi, ite_true, beq_self_eq_true, Bool.and_self, BitVec.reduceBEq,
    Bool.false_eq_true, if_false]

theorem tsetc (t : BitVec 2) (b c : BitVec 5) (m : BitVec 3) : Statement (.tsetc t b c m) := by
  intro w hw hi
  simp only [encode, Option.some.injEq] at hw
  subst hw
  rw [decode_eq_checked _ 54#6 (by simp (disch := decide) only [BitVec.extractLsb'_append_eq_of_le, BitVec.extractLsb'_append_eq_of_add_le,
    BitVec.extractLsb'_eq_self, BitVec.reduceExtractLsb', Nat.reduceSub]) rfl]
  simp (disch := decide) only [decodeMap, decodeEngines, decMat, BitVec.extractLsb'_append_eq_of_le, BitVec.extractLsb'_append_eq_of_add_le,
    BitVec.extractLsb'_eq_self, BitVec.reduceExtractLsb', Nat.reduceSub, zeroed]
  simp only [checked, hi, ite_true, beq_self_eq_true, Bool.and_self, BitVec.reduceBEq,
    Bool.false_eq_true, if_false]

theorem tstr (r : BitVec 3) (t : BitVec 2) (b c : BitVec 5) (m : BitVec 3) : Statement (.tstr r t b c m) := by
  intro w hw hi
  simp only [encode, Option.some.injEq] at hw
  subst hw
  rw [decode_eq_checked _ 54#6 (by simp (disch := decide) only [BitVec.extractLsb'_append_eq_of_le, BitVec.extractLsb'_append_eq_of_add_le,
    BitVec.extractLsb'_eq_self, BitVec.reduceExtractLsb', Nat.reduceSub]) rfl]
  simp (disch := decide) only [decodeMap, decodeEngines, decMat, BitVec.extractLsb'_append_eq_of_le, BitVec.extractLsb'_append_eq_of_add_le,
    BitVec.extractLsb'_eq_self, BitVec.reduceExtractLsb', Nat.reduceSub, zeroed]
  simp only [checked, hi, ite_true, beq_self_eq_true, Bool.and_self, BitVec.reduceBEq,
    Bool.false_eq_true, if_false]

theorem tstx (r : BitVec 3) (t : BitVec 2) (b c : BitVec 5) (m : BitVec 3) : Statement (.tstx r t b c m) := by
  intro w hw hi
  simp only [encode, Option.some.injEq] at hw
  subst hw
  rw [decode_eq_checked _ 54#6 (by simp (disch := decide) only [BitVec.extractLsb'_append_eq_of_le, BitVec.extractLsb'_append_eq_of_add_le,
    BitVec.extractLsb'_eq_self, BitVec.reduceExtractLsb', Nat.reduceSub]) rfl]
  simp (disch := decide) only [decodeMap, decodeEngines, decMat, BitVec.extractLsb'_append_eq_of_le, BitVec.extractLsb'_append_eq_of_add_le,
    BitVec.extractLsb'_eq_self, BitVec.reduceExtractLsb', Nat.reduceSub, zeroed]
  simp only [checked, hi, ite_true, beq_self_eq_true, Bool.and_self, BitVec.reduceBEq,
    Bool.false_eq_true, if_false]

theorem mcbld (k : BitVec 3) (b : BitVec 5) : Statement (.mcbld k b) := by
  intro w hw hi
  simp only [encode, Option.some.injEq] at hw
  subst hw
  rw [decode_eq_checked _ 54#6 (by simp (disch := decide) only [BitVec.extractLsb'_append_eq_of_le, BitVec.extractLsb'_append_eq_of_add_le,
    BitVec.extractLsb'_eq_self, BitVec.reduceExtractLsb', Nat.reduceSub]) rfl]
  simp (disch := decide) only [decodeMap, decodeEngines, decMat, BitVec.extractLsb'_append_eq_of_le, BitVec.extractLsb'_append_eq_of_add_le,
    BitVec.extractLsb'_eq_self, BitVec.reduceExtractLsb', Nat.reduceSub, zeroed]
  simp only [checked, hi, ite_true, beq_self_eq_true, Bool.and_self, BitVec.reduceBEq,
    Bool.false_eq_true, if_false]

theorem tfold (r : BitVec 3) (t : BitVec 2) (b c : BitVec 5) (m : BitVec 3) : Statement (.tfold r t b c m) := by
  intro w hw hi
  simp only [encode, Option.some.injEq] at hw
  subst hw
  rw [decode_eq_checked _ 55#6 (by simp (disch := decide) only [BitVec.extractLsb'_append_eq_of_le, BitVec.extractLsb'_append_eq_of_add_le,
    BitVec.extractLsb'_eq_self, BitVec.reduceExtractLsb', Nat.reduceSub]) rfl]
  simp (disch := decide) only [decodeMap, decodeEngines, decMop, BitVec.extractLsb'_append_eq_of_le, BitVec.extractLsb'_append_eq_of_add_le,
    BitVec.extractLsb'_eq_self, BitVec.reduceExtractLsb', Nat.reduceSub, zeroed]
  simp only [checked, hi, ite_true, beq_self_eq_true, Bool.and_self, BitVec.reduceBEq,
    Bool.false_eq_true, if_false]

theorem tfoldn (r : BitVec 3) (t : BitVec 2) (b c : BitVec 5) (m : BitVec 3) : Statement (.tfoldn r t b c m) := by
  intro w hw hi
  simp only [encode, Option.some.injEq] at hw
  subst hw
  rw [decode_eq_checked _ 55#6 (by simp (disch := decide) only [BitVec.extractLsb'_append_eq_of_le, BitVec.extractLsb'_append_eq_of_add_le,
    BitVec.extractLsb'_eq_self, BitVec.reduceExtractLsb', Nat.reduceSub]) rfl]
  simp (disch := decide) only [decodeMap, decodeEngines, decMop, BitVec.extractLsb'_append_eq_of_le, BitVec.extractLsb'_append_eq_of_add_le,
    BitVec.extractLsb'_eq_self, BitVec.reduceExtractLsb', Nat.reduceSub, zeroed]
  simp only [checked, hi, ite_true, beq_self_eq_true, Bool.and_self, BitVec.reduceBEq,
    Bool.false_eq_true, if_false]

theorem tfoldi8 (r : BitVec 3) (t : BitVec 2) (b c : BitVec 5) (m : BitVec 3) : Statement (.tfoldi8 r t b c m) := by
  intro w hw hi
  simp only [encode, Option.some.injEq] at hw
  subst hw
  rw [decode_eq_checked _ 55#6 (by simp (disch := decide) only [BitVec.extractLsb'_append_eq_of_le, BitVec.extractLsb'_append_eq_of_add_le,
    BitVec.extractLsb'_eq_self, BitVec.reduceExtractLsb', Nat.reduceSub]) rfl]
  simp (disch := decide) only [decodeMap, decodeEngines, decMop, BitVec.extractLsb'_append_eq_of_le, BitVec.extractLsb'_append_eq_of_add_le,
    BitVec.extractLsb'_eq_self, BitVec.reduceExtractLsb', Nat.reduceSub, zeroed]
  simp only [checked, hi, ite_true, beq_self_eq_true, Bool.and_self, BitVec.reduceBEq,
    Bool.false_eq_true, if_false]

theorem tfoldf8 (r : BitVec 3) (t : BitVec 2) (b c : BitVec 5) (m : BitVec 3) : Statement (.tfoldf8 r t b c m) := by
  intro w hw hi
  simp only [encode, Option.some.injEq] at hw
  subst hw
  rw [decode_eq_checked _ 55#6 (by simp (disch := decide) only [BitVec.extractLsb'_append_eq_of_le, BitVec.extractLsb'_append_eq_of_add_le,
    BitVec.extractLsb'_eq_self, BitVec.reduceExtractLsb', Nat.reduceSub]) rfl]
  simp (disch := decide) only [decodeMap, decodeEngines, decMop, BitVec.extractLsb'_append_eq_of_le, BitVec.extractLsb'_append_eq_of_add_le,
    BitVec.extractLsb'_eq_self, BitVec.reduceExtractLsb', Nat.reduceSub, zeroed]
  simp only [checked, hi, ite_true, beq_self_eq_true, Bool.and_self, BitVec.reduceBEq,
    Bool.false_eq_true, if_false]

theorem tfoldc4 (r : BitVec 3) (t : BitVec 2) (b c : BitVec 5) (m : BitVec 3) : Statement (.tfoldc4 r t b c m) := by
  intro w hw hi
  simp only [encode, Option.some.injEq] at hw
  subst hw
  rw [decode_eq_checked _ 55#6 (by simp (disch := decide) only [BitVec.extractLsb'_append_eq_of_le, BitVec.extractLsb'_append_eq_of_add_le,
    BitVec.extractLsb'_eq_self, BitVec.reduceExtractLsb', Nat.reduceSub]) rfl]
  simp (disch := decide) only [decodeMap, decodeEngines, decMop, BitVec.extractLsb'_append_eq_of_le, BitVec.extractLsb'_append_eq_of_add_le,
    BitVec.extractLsb'_eq_self, BitVec.reduceExtractLsb', Nat.reduceSub, zeroed]
  simp only [checked, hi, ite_true, beq_self_eq_true, Bool.and_self, BitVec.reduceBEq,
    Bool.false_eq_true, if_false]

theorem tfoldsp (r : BitVec 3) (t : BitVec 2) (b c d : BitVec 5) (m : BitVec 3) : Statement (.tfoldsp r t b c d m) := by
  intro w hw hi
  simp only [encode, Option.some.injEq] at hw
  subst hw
  rw [decode_eq_checked _ 55#6 (by simp (disch := decide) only [BitVec.extractLsb'_append_eq_of_le, BitVec.extractLsb'_append_eq_of_add_le,
    BitVec.extractLsb'_eq_self, BitVec.reduceExtractLsb', Nat.reduceSub]) rfl]
  simp (disch := decide) only [decodeMap, decodeEngines, decMop, BitVec.extractLsb'_append_eq_of_le, BitVec.extractLsb'_append_eq_of_add_le,
    BitVec.extractLsb'_eq_self, BitVec.reduceExtractLsb', Nat.reduceSub, zeroed]
  simp only [checked, hi, ite_true, beq_self_eq_true, Bool.and_self, BitVec.reduceBEq,
    Bool.false_eq_true, if_false]

theorem sclaimw (b c : BitVec 5) (m : BitVec 3) : Statement (.sclaimw b c m) := by
  intro w hw hi
  simp only [encode, Option.some.injEq] at hw
  subst hw
  rw [decode_eq_checked _ 56#6 (by simp (disch := decide) only [BitVec.extractLsb'_append_eq_of_le, BitVec.extractLsb'_append_eq_of_add_le,
    BitVec.extractLsb'_eq_self, BitVec.reduceExtractLsb', Nat.reduceSub]) rfl]
  simp (disch := decide) only [decodeMap, decodeEngines, decSlalom, BitVec.extractLsb'_append_eq_of_le, BitVec.extractLsb'_append_eq_of_add_le,
    BitVec.extractLsb'_eq_self, BitVec.reduceExtractLsb', Nat.reduceSub, zeroed]
  simp only [checked, hi, ite_true, beq_self_eq_true, Bool.and_self, BitVec.reduceBEq,
    Bool.false_eq_true, if_false]

theorem sclaimr (b c : BitVec 5) (m : BitVec 3) : Statement (.sclaimr b c m) := by
  intro w hw hi
  simp only [encode, Option.some.injEq] at hw
  subst hw
  rw [decode_eq_checked _ 56#6 (by simp (disch := decide) only [BitVec.extractLsb'_append_eq_of_le, BitVec.extractLsb'_append_eq_of_add_le,
    BitVec.extractLsb'_eq_self, BitVec.reduceExtractLsb', Nat.reduceSub]) rfl]
  simp (disch := decide) only [decodeMap, decodeEngines, decSlalom, BitVec.extractLsb'_append_eq_of_le, BitVec.extractLsb'_append_eq_of_add_le,
    BitVec.extractLsb'_eq_self, BitVec.reduceExtractLsb', Nat.reduceSub, zeroed]
  simp only [checked, hi, ite_true, beq_self_eq_true, Bool.and_self, BitVec.reduceBEq,
    Bool.false_eq_true, if_false]

theorem swave (a b : BitVec 3) : Statement (.swave a b) := by
  intro w hw hi
  simp only [encode, Option.some.injEq] at hw
  subst hw
  rw [decode_eq_checked _ 56#6 (by simp (disch := decide) only [BitVec.extractLsb'_append_eq_of_le, BitVec.extractLsb'_append_eq_of_add_le,
    BitVec.extractLsb'_eq_self, BitVec.reduceExtractLsb', Nat.reduceSub]) rfl]
  simp (disch := decide) only [decodeMap, decodeEngines, decSlalom, BitVec.extractLsb'_append_eq_of_le, BitVec.extractLsb'_append_eq_of_add_le,
    BitVec.extractLsb'_eq_self, BitVec.reduceExtractLsb', Nat.reduceSub, zeroed]
  simp only [checked, hi, ite_true, beq_self_eq_true, Bool.and_self, BitVec.reduceBEq,
    Bool.false_eq_true, if_false]

theorem sretire (b : BitVec 3) : Statement (.sretire b) := by
  intro w hw hi
  simp only [encode, Option.some.injEq] at hw
  subst hw
  rw [decode_eq_checked _ 56#6 (by simp (disch := decide) only [BitVec.extractLsb'_append_eq_of_le, BitVec.extractLsb'_append_eq_of_add_le,
    BitVec.extractLsb'_eq_self, BitVec.reduceExtractLsb', Nat.reduceSub]) rfl]
  simp (disch := decide) only [decodeMap, decodeEngines, decSlalom, BitVec.extractLsb'_append_eq_of_le, BitVec.extractLsb'_append_eq_of_add_le,
    BitVec.extractLsb'_eq_self, BitVec.reduceExtractLsb', Nat.reduceSub, zeroed]
  simp only [checked, hi, ite_true, beq_self_eq_true, Bool.and_self, BitVec.reduceBEq,
    Bool.false_eq_true, if_false]

theorem spend (a : BitVec 5) : Statement (.spend a) := by
  intro w hw hi
  simp only [encode, Option.some.injEq] at hw
  subst hw
  rw [decode_eq_checked _ 56#6 (by simp (disch := decide) only [BitVec.extractLsb'_append_eq_of_le, BitVec.extractLsb'_append_eq_of_add_le,
    BitVec.extractLsb'_eq_self, BitVec.reduceExtractLsb', Nat.reduceSub]) rfl]
  simp (disch := decide) only [decodeMap, decodeEngines, decSlalom, BitVec.extractLsb'_append_eq_of_le, BitVec.extractLsb'_append_eq_of_add_le,
    BitVec.extractLsb'_eq_self, BitVec.reduceExtractLsb', Nat.reduceSub, zeroed]
  simp only [checked, hi, ite_true, beq_self_eq_true, Bool.and_self, BitVec.reduceBEq,
    Bool.false_eq_true, if_false]

theorem cxload (a b : BitVec 5) : Statement (.cxload a b) := by
  intro w hw hi
  simp only [encode, Option.some.injEq] at hw
  subst hw
  rw [decode_eq_checked _ 57#6 (by simp (disch := decide) only [BitVec.extractLsb'_append_eq_of_le, BitVec.extractLsb'_append_eq_of_add_le,
    BitVec.extractLsb'_eq_self, BitVec.reduceExtractLsb', Nat.reduceSub]) rfl]
  simp (disch := decide) only [decodeMap, decodeEngines, decDvorine, BitVec.extractLsb'_append_eq_of_le, BitVec.extractLsb'_append_eq_of_add_le,
    BitVec.extractLsb'_eq_self, BitVec.reduceExtractLsb', Nat.reduceSub, zeroed]
  simp only [checked, hi, ite_true, beq_self_eq_true, Bool.and_self, BitVec.reduceBEq,
    Bool.false_eq_true, if_false]

theorem cxdrop (a : BitVec 5) : Statement (.cxdrop a) := by
  intro w hw hi
  simp only [encode, Option.some.injEq] at hw
  subst hw
  rw [decode_eq_checked _ 57#6 (by simp (disch := decide) only [BitVec.extractLsb'_append_eq_of_le, BitVec.extractLsb'_append_eq_of_add_le,
    BitVec.extractLsb'_eq_self, BitVec.reduceExtractLsb', Nat.reduceSub]) rfl]
  simp (disch := decide) only [decodeMap, decodeEngines, decDvorine, BitVec.extractLsb'_append_eq_of_le, BitVec.extractLsb'_append_eq_of_add_le,
    BitVec.extractLsb'_eq_self, BitVec.reduceExtractLsb', Nat.reduceSub, zeroed]
  simp only [checked, hi, ite_true, beq_self_eq_true, Bool.and_self, BitVec.reduceBEq,
    Bool.false_eq_true, if_false]

theorem cxq (a b : BitVec 5) : Statement (.cxq a b) := by
  intro w hw hi
  simp only [encode, Option.some.injEq] at hw
  subst hw
  rw [decode_eq_checked _ 57#6 (by simp (disch := decide) only [BitVec.extractLsb'_append_eq_of_le, BitVec.extractLsb'_append_eq_of_add_le,
    BitVec.extractLsb'_eq_self, BitVec.reduceExtractLsb', Nat.reduceSub]) rfl]
  simp (disch := decide) only [decodeMap, decodeEngines, decDvorine, BitVec.extractLsb'_append_eq_of_le, BitVec.extractLsb'_append_eq_of_add_le,
    BitVec.extractLsb'_eq_self, BitVec.reduceExtractLsb', Nat.reduceSub, zeroed]
  simp only [checked, hi, ite_true, beq_self_eq_true, Bool.and_self, BitVec.reduceBEq,
    Bool.false_eq_true, if_false]

theorem cx (a b c d : BitVec 5) (m s : BitVec 3) : Statement (.cx a b c d m s) := by
  intro w hw hi
  simp only [encode, Option.some.injEq] at hw
  subst hw
  rw [decode_eq_checked _ 58#6 (by simp (disch := decide) only [BitVec.extractLsb'_append_eq_of_le, BitVec.extractLsb'_append_eq_of_add_le,
    BitVec.extractLsb'_eq_self, BitVec.reduceExtractLsb', Nat.reduceSub]) rfl]
  simp (disch := decide) only [decodeMap, decodeEngines, BitVec.extractLsb'_append_eq_of_le, BitVec.extractLsb'_append_eq_of_add_le,
    BitVec.extractLsb'_eq_self, BitVec.reduceExtractLsb', Nat.reduceSub, zeroed]
  simp only [checked, hi, ite_true, beq_self_eq_true, Bool.and_self, BitVec.reduceBEq,
    Bool.false_eq_true, if_false]

theorem acopy (a b c : BitVec 5) : Statement (.acopy a b c) := by
  intro w hw hi
  simp only [encode, Option.some.injEq] at hw
  subst hw
  rw [decode_eq_checked _ 59#6 (by simp (disch := decide) only [BitVec.extractLsb'_append_eq_of_le, BitVec.extractLsb'_append_eq_of_add_le,
    BitVec.extractLsb'_eq_self, BitVec.reduceExtractLsb', Nat.reduceSub]) rfl]
  simp (disch := decide) only [decodeMap, decodeEngines, decAcopy, BitVec.extractLsb'_append_eq_of_le, BitVec.extractLsb'_append_eq_of_add_le,
    BitVec.extractLsb'_eq_self, BitVec.reduceExtractLsb', Nat.reduceSub, zeroed]
  simp only [checked, hi, ite_true, beq_self_eq_true, Bool.and_self, BitVec.reduceBEq,
    Bool.false_eq_true, if_false]

theorem acwait (a b : BitVec 5) : Statement (.acwait a b) := by
  intro w hw hi
  simp only [encode, Option.some.injEq] at hw
  subst hw
  rw [decode_eq_checked _ 59#6 (by simp (disch := decide) only [BitVec.extractLsb'_append_eq_of_le, BitVec.extractLsb'_append_eq_of_add_le,
    BitVec.extractLsb'_eq_self, BitVec.reduceExtractLsb', Nat.reduceSub]) rfl]
  simp (disch := decide) only [decodeMap, decodeEngines, decAcopy, BitVec.extractLsb'_append_eq_of_le, BitVec.extractLsb'_append_eq_of_add_le,
    BitVec.extractLsb'_eq_self, BitVec.reduceExtractLsb', Nat.reduceSub, zeroed]
  simp only [checked, hi, ite_true, beq_self_eq_true, Bool.and_self, BitVec.reduceBEq,
    Bool.false_eq_true, if_false]

theorem acq (a b w : BitVec 5) : Statement (.acq a b w) := by
  intro w hw hi
  simp only [encode, Option.some.injEq] at hw
  subst hw
  rw [decode_eq_checked _ 59#6 (by simp (disch := decide) only [BitVec.extractLsb'_append_eq_of_le, BitVec.extractLsb'_append_eq_of_add_le,
    BitVec.extractLsb'_eq_self, BitVec.reduceExtractLsb', Nat.reduceSub]) rfl]
  simp (disch := decide) only [decodeMap, decodeEngines, decAcopy, BitVec.extractLsb'_append_eq_of_le, BitVec.extractLsb'_append_eq_of_add_le,
    BitVec.extractLsb'_eq_self, BitVec.reduceExtractLsb', Nat.reduceSub, zeroed]
  simp only [checked, hi, ite_true, beq_self_eq_true, Bool.and_self, BitVec.reduceBEq,
    Bool.false_eq_true, if_false]

theorem acresume (b : BitVec 5) : Statement (.acresume b) := by
  intro w hw hi
  simp only [encode, Option.some.injEq] at hw
  subst hw
  rw [decode_eq_checked _ 59#6 (by simp (disch := decide) only [BitVec.extractLsb'_append_eq_of_le, BitVec.extractLsb'_append_eq_of_add_le,
    BitVec.extractLsb'_eq_self, BitVec.reduceExtractLsb', Nat.reduceSub]) rfl]
  simp (disch := decide) only [decodeMap, decodeEngines, decAcopy, BitVec.extractLsb'_append_eq_of_le, BitVec.extractLsb'_append_eq_of_add_le,
    BitVec.extractLsb'_eq_self, BitVec.reduceExtractLsb', Nat.reduceSub, zeroed]
  simp only [checked, hi, ite_true, beq_self_eq_true, Bool.and_self, BitVec.reduceBEq,
    Bool.false_eq_true, if_false]

theorem accancel (b : BitVec 5) : Statement (.accancel b) := by
  intro w hw hi
  simp only [encode, Option.some.injEq] at hw
  subst hw
  rw [decode_eq_checked _ 59#6 (by simp (disch := decide) only [BitVec.extractLsb'_append_eq_of_le, BitVec.extractLsb'_append_eq_of_add_le,
    BitVec.extractLsb'_eq_self, BitVec.reduceExtractLsb', Nat.reduceSub]) rfl]
  simp (disch := decide) only [decodeMap, decodeEngines, decAcopy, BitVec.extractLsb'_append_eq_of_le, BitVec.extractLsb'_append_eq_of_add_le,
    BitVec.extractLsb'_eq_self, BitVec.reduceExtractLsb', Nat.reduceSub, zeroed]
  simp only [checked, hi, ite_true, beq_self_eq_true, Bool.and_self, BitVec.reduceBEq,
    Bool.false_eq_true, if_false]

theorem add (a b c : BitVec 5) : Statement (.add a b c) := by
  intro w hw hi
  simp only [encode, Option.some.injEq] at hw
  subst hw
  rw [decode_eq_checked _ 1#6 (by simp (disch := decide) only [BitVec.extractLsb'_append_eq_of_le, BitVec.extractLsb'_append_eq_of_add_le,
    BitVec.extractLsb'_eq_self, BitVec.reduceExtractLsb', Nat.reduceSub]) rfl]
  simp (disch := decide) only [decodeMap, decSop, BitVec.extractLsb'_append_eq_of_le, BitVec.extractLsb'_append_eq_of_add_le,
    BitVec.extractLsb'_eq_self, BitVec.reduceExtractLsb', Nat.reduceSub, zeroed]
  simp only [checked, hi, ite_true, beq_self_eq_true, Bool.and_self, BitVec.reduceBEq,
    Bool.false_eq_true, if_false]

theorem sub (a b c : BitVec 5) : Statement (.sub a b c) := by
  intro w hw hi
  simp only [encode, Option.some.injEq] at hw
  subst hw
  rw [decode_eq_checked _ 1#6 (by simp (disch := decide) only [BitVec.extractLsb'_append_eq_of_le, BitVec.extractLsb'_append_eq_of_add_le,
    BitVec.extractLsb'_eq_self, BitVec.reduceExtractLsb', Nat.reduceSub]) rfl]
  simp (disch := decide) only [decodeMap, decSop, BitVec.extractLsb'_append_eq_of_le, BitVec.extractLsb'_append_eq_of_add_le,
    BitVec.extractLsb'_eq_self, BitVec.reduceExtractLsb', Nat.reduceSub, zeroed]
  simp only [checked, hi, ite_true, beq_self_eq_true, Bool.and_self, BitVec.reduceBEq,
    Bool.false_eq_true, if_false]

theorem and (a b c : BitVec 5) : Statement (.and a b c) := by
  intro w hw hi
  simp only [encode, Option.some.injEq] at hw
  subst hw
  rw [decode_eq_checked _ 1#6 (by simp (disch := decide) only [BitVec.extractLsb'_append_eq_of_le, BitVec.extractLsb'_append_eq_of_add_le,
    BitVec.extractLsb'_eq_self, BitVec.reduceExtractLsb', Nat.reduceSub]) rfl]
  simp (disch := decide) only [decodeMap, decSop, BitVec.extractLsb'_append_eq_of_le, BitVec.extractLsb'_append_eq_of_add_le,
    BitVec.extractLsb'_eq_self, BitVec.reduceExtractLsb', Nat.reduceSub, zeroed]
  simp only [checked, hi, ite_true, beq_self_eq_true, Bool.and_self, BitVec.reduceBEq,
    Bool.false_eq_true, if_false]

theorem or (a b c : BitVec 5) : Statement (.or a b c) := by
  intro w hw hi
  simp only [encode, Option.some.injEq] at hw
  subst hw
  rw [decode_eq_checked _ 1#6 (by simp (disch := decide) only [BitVec.extractLsb'_append_eq_of_le, BitVec.extractLsb'_append_eq_of_add_le,
    BitVec.extractLsb'_eq_self, BitVec.reduceExtractLsb', Nat.reduceSub]) rfl]
  simp (disch := decide) only [decodeMap, decSop, BitVec.extractLsb'_append_eq_of_le, BitVec.extractLsb'_append_eq_of_add_le,
    BitVec.extractLsb'_eq_self, BitVec.reduceExtractLsb', Nat.reduceSub, zeroed]
  simp only [checked, hi, ite_true, beq_self_eq_true, Bool.and_self, BitVec.reduceBEq,
    Bool.false_eq_true, if_false]

theorem xor (a b c : BitVec 5) : Statement (.xor a b c) := by
  intro w hw hi
  simp only [encode, Option.some.injEq] at hw
  subst hw
  rw [decode_eq_checked _ 1#6 (by simp (disch := decide) only [BitVec.extractLsb'_append_eq_of_le, BitVec.extractLsb'_append_eq_of_add_le,
    BitVec.extractLsb'_eq_self, BitVec.reduceExtractLsb', Nat.reduceSub]) rfl]
  simp (disch := decide) only [decodeMap, decSop, BitVec.extractLsb'_append_eq_of_le, BitVec.extractLsb'_append_eq_of_add_le,
    BitVec.extractLsb'_eq_self, BitVec.reduceExtractLsb', Nat.reduceSub, zeroed]
  simp only [checked, hi, ite_true, beq_self_eq_true, Bool.and_self, BitVec.reduceBEq,
    Bool.false_eq_true, if_false]

theorem shl (a b c : BitVec 5) : Statement (.shl a b c) := by
  intro w hw hi
  simp only [encode, Option.some.injEq] at hw
  subst hw
  rw [decode_eq_checked _ 1#6 (by simp (disch := decide) only [BitVec.extractLsb'_append_eq_of_le, BitVec.extractLsb'_append_eq_of_add_le,
    BitVec.extractLsb'_eq_self, BitVec.reduceExtractLsb', Nat.reduceSub]) rfl]
  simp (disch := decide) only [decodeMap, decSop, BitVec.extractLsb'_append_eq_of_le, BitVec.extractLsb'_append_eq_of_add_le,
    BitVec.extractLsb'_eq_self, BitVec.reduceExtractLsb', Nat.reduceSub, zeroed]
  simp only [checked, hi, ite_true, beq_self_eq_true, Bool.and_self, BitVec.reduceBEq,
    Bool.false_eq_true, if_false]

theorem shr (a b c : BitVec 5) : Statement (.shr a b c) := by
  intro w hw hi
  simp only [encode, Option.some.injEq] at hw
  subst hw
  rw [decode_eq_checked _ 1#6 (by simp (disch := decide) only [BitVec.extractLsb'_append_eq_of_le, BitVec.extractLsb'_append_eq_of_add_le,
    BitVec.extractLsb'_eq_self, BitVec.reduceExtractLsb', Nat.reduceSub]) rfl]
  simp (disch := decide) only [decodeMap, decSop, BitVec.extractLsb'_append_eq_of_le, BitVec.extractLsb'_append_eq_of_add_le,
    BitVec.extractLsb'_eq_self, BitVec.reduceExtractLsb', Nat.reduceSub, zeroed]
  simp only [checked, hi, ite_true, beq_self_eq_true, Bool.and_self, BitVec.reduceBEq,
    Bool.false_eq_true, if_false]

theorem shra (a b c : BitVec 5) : Statement (.shra a b c) := by
  intro w hw hi
  simp only [encode, Option.some.injEq] at hw
  subst hw
  rw [decode_eq_checked _ 1#6 (by simp (disch := decide) only [BitVec.extractLsb'_append_eq_of_le, BitVec.extractLsb'_append_eq_of_add_le,
    BitVec.extractLsb'_eq_self, BitVec.reduceExtractLsb', Nat.reduceSub]) rfl]
  simp (disch := decide) only [decodeMap, decSop, BitVec.extractLsb'_append_eq_of_le, BitVec.extractLsb'_append_eq_of_add_le,
    BitVec.extractLsb'_eq_self, BitVec.reduceExtractLsb', Nat.reduceSub, zeroed]
  simp only [checked, hi, ite_true, beq_self_eq_true, Bool.and_self, BitVec.reduceBEq,
    Bool.false_eq_true, if_false]

theorem slt (a b c : BitVec 5) : Statement (.slt a b c) := by
  intro w hw hi
  simp only [encode, Option.some.injEq] at hw
  subst hw
  rw [decode_eq_checked _ 1#6 (by simp (disch := decide) only [BitVec.extractLsb'_append_eq_of_le, BitVec.extractLsb'_append_eq_of_add_le,
    BitVec.extractLsb'_eq_self, BitVec.reduceExtractLsb', Nat.reduceSub]) rfl]
  simp (disch := decide) only [decodeMap, decSop, BitVec.extractLsb'_append_eq_of_le, BitVec.extractLsb'_append_eq_of_add_le,
    BitVec.extractLsb'_eq_self, BitVec.reduceExtractLsb', Nat.reduceSub, zeroed]
  simp only [checked, hi, ite_true, beq_self_eq_true, Bool.and_self, BitVec.reduceBEq,
    Bool.false_eq_true, if_false]

theorem sltn (a b c : BitVec 5) : Statement (.sltn a b c) := by
  intro w hw hi
  simp only [encode, Option.some.injEq] at hw
  subst hw
  rw [decode_eq_checked _ 1#6 (by simp (disch := decide) only [BitVec.extractLsb'_append_eq_of_le, BitVec.extractLsb'_append_eq_of_add_le,
    BitVec.extractLsb'_eq_self, BitVec.reduceExtractLsb', Nat.reduceSub]) rfl]
  simp (disch := decide) only [decodeMap, decSop, BitVec.extractLsb'_append_eq_of_le, BitVec.extractLsb'_append_eq_of_add_le,
    BitVec.extractLsb'_eq_self, BitVec.reduceExtractLsb', Nat.reduceSub, zeroed]
  simp only [checked, hi, ite_true, beq_self_eq_true, Bool.and_self, BitVec.reduceBEq,
    Bool.false_eq_true, if_false]

theorem mul (a b c : BitVec 5) : Statement (.mul a b c) := by
  intro w hw hi
  simp only [encode, Option.some.injEq] at hw
  subst hw
  rw [decode_eq_checked _ 1#6 (by simp (disch := decide) only [BitVec.extractLsb'_append_eq_of_le, BitVec.extractLsb'_append_eq_of_add_le,
    BitVec.extractLsb'_eq_self, BitVec.reduceExtractLsb', Nat.reduceSub]) rfl]
  simp (disch := decide) only [decodeMap, decSop, BitVec.extractLsb'_append_eq_of_le, BitVec.extractLsb'_append_eq_of_add_le,
    BitVec.extractLsb'_eq_self, BitVec.reduceExtractLsb', Nat.reduceSub, zeroed]
  simp only [checked, hi, ite_true, beq_self_eq_true, Bool.and_self, BitVec.reduceBEq,
    Bool.false_eq_true, if_false]

theorem mulh (a b c : BitVec 5) : Statement (.mulh a b c) := by
  intro w hw hi
  simp only [encode, Option.some.injEq] at hw
  subst hw
  rw [decode_eq_checked _ 1#6 (by simp (disch := decide) only [BitVec.extractLsb'_append_eq_of_le, BitVec.extractLsb'_append_eq_of_add_le,
    BitVec.extractLsb'_eq_self, BitVec.reduceExtractLsb', Nat.reduceSub]) rfl]
  simp (disch := decide) only [decodeMap, decSop, BitVec.extractLsb'_append_eq_of_le, BitVec.extractLsb'_append_eq_of_add_le,
    BitVec.extractLsb'_eq_self, BitVec.reduceExtractLsb', Nat.reduceSub, zeroed]
  simp only [checked, hi, ite_true, beq_self_eq_true, Bool.and_self, BitVec.reduceBEq,
    Bool.false_eq_true, if_false]

theorem mulhn (a b c : BitVec 5) : Statement (.mulhn a b c) := by
  intro w hw hi
  simp only [encode, Option.some.injEq] at hw
  subst hw
  rw [decode_eq_checked _ 1#6 (by simp (disch := decide) only [BitVec.extractLsb'_append_eq_of_le, BitVec.extractLsb'_append_eq_of_add_le,
    BitVec.extractLsb'_eq_self, BitVec.reduceExtractLsb', Nat.reduceSub]) rfl]
  simp (disch := decide) only [decodeMap, decSop, BitVec.extractLsb'_append_eq_of_le, BitVec.extractLsb'_append_eq_of_add_le,
    BitVec.extractLsb'_eq_self, BitVec.reduceExtractLsb', Nat.reduceSub, zeroed]
  simp only [checked, hi, ite_true, beq_self_eq_true, Bool.and_self, BitVec.reduceBEq,
    Bool.false_eq_true, if_false]

theorem div (a b c : BitVec 5) : Statement (.div a b c) := by
  intro w hw hi
  simp only [encode, Option.some.injEq] at hw
  subst hw
  rw [decode_eq_checked _ 1#6 (by simp (disch := decide) only [BitVec.extractLsb'_append_eq_of_le, BitVec.extractLsb'_append_eq_of_add_le,
    BitVec.extractLsb'_eq_self, BitVec.reduceExtractLsb', Nat.reduceSub]) rfl]
  simp (disch := decide) only [decodeMap, decSop, BitVec.extractLsb'_append_eq_of_le, BitVec.extractLsb'_append_eq_of_add_le,
    BitVec.extractLsb'_eq_self, BitVec.reduceExtractLsb', Nat.reduceSub, zeroed]
  simp only [checked, hi, ite_true, beq_self_eq_true, Bool.and_self, BitVec.reduceBEq,
    Bool.false_eq_true, if_false]

theorem divn (a b c : BitVec 5) : Statement (.divn a b c) := by
  intro w hw hi
  simp only [encode, Option.some.injEq] at hw
  subst hw
  rw [decode_eq_checked _ 1#6 (by simp (disch := decide) only [BitVec.extractLsb'_append_eq_of_le, BitVec.extractLsb'_append_eq_of_add_le,
    BitVec.extractLsb'_eq_self, BitVec.reduceExtractLsb', Nat.reduceSub]) rfl]
  simp (disch := decide) only [decodeMap, decSop, BitVec.extractLsb'_append_eq_of_le, BitVec.extractLsb'_append_eq_of_add_le,
    BitVec.extractLsb'_eq_self, BitVec.reduceExtractLsb', Nat.reduceSub, zeroed]
  simp only [checked, hi, ite_true, beq_self_eq_true, Bool.and_self, BitVec.reduceBEq,
    Bool.false_eq_true, if_false]

theorem rem (a b c : BitVec 5) : Statement (.rem a b c) := by
  intro w hw hi
  simp only [encode, Option.some.injEq] at hw
  subst hw
  rw [decode_eq_checked _ 1#6 (by simp (disch := decide) only [BitVec.extractLsb'_append_eq_of_le, BitVec.extractLsb'_append_eq_of_add_le,
    BitVec.extractLsb'_eq_self, BitVec.reduceExtractLsb', Nat.reduceSub]) rfl]
  simp (disch := decide) only [decodeMap, decSop, BitVec.extractLsb'_append_eq_of_le, BitVec.extractLsb'_append_eq_of_add_le,
    BitVec.extractLsb'_eq_self, BitVec.reduceExtractLsb', Nat.reduceSub, zeroed]
  simp only [checked, hi, ite_true, beq_self_eq_true, Bool.and_self, BitVec.reduceBEq,
    Bool.false_eq_true, if_false]

theorem remn (a b c : BitVec 5) : Statement (.remn a b c) := by
  intro w hw hi
  simp only [encode, Option.some.injEq] at hw
  subst hw
  rw [decode_eq_checked _ 1#6 (by simp (disch := decide) only [BitVec.extractLsb'_append_eq_of_le, BitVec.extractLsb'_append_eq_of_add_le,
    BitVec.extractLsb'_eq_self, BitVec.reduceExtractLsb', Nat.reduceSub]) rfl]
  simp (disch := decide) only [decodeMap, decSop, BitVec.extractLsb'_append_eq_of_le, BitVec.extractLsb'_append_eq_of_add_le,
    BitVec.extractLsb'_eq_self, BitVec.reduceExtractLsb', Nat.reduceSub, zeroed]
  simp only [checked, hi, ite_true, beq_self_eq_true, Bool.and_self, BitVec.reduceBEq,
    Bool.false_eq_true, if_false]

theorem min (a b c : BitVec 5) : Statement (.min a b c) := by
  intro w hw hi
  simp only [encode, Option.some.injEq] at hw
  subst hw
  rw [decode_eq_checked _ 1#6 (by simp (disch := decide) only [BitVec.extractLsb'_append_eq_of_le, BitVec.extractLsb'_append_eq_of_add_le,
    BitVec.extractLsb'_eq_self, BitVec.reduceExtractLsb', Nat.reduceSub]) rfl]
  simp (disch := decide) only [decodeMap, decSop, BitVec.extractLsb'_append_eq_of_le, BitVec.extractLsb'_append_eq_of_add_le,
    BitVec.extractLsb'_eq_self, BitVec.reduceExtractLsb', Nat.reduceSub, zeroed]
  simp only [checked, hi, ite_true, beq_self_eq_true, Bool.and_self, BitVec.reduceBEq,
    Bool.false_eq_true, if_false]

theorem max (a b c : BitVec 5) : Statement (.max a b c) := by
  intro w hw hi
  simp only [encode, Option.some.injEq] at hw
  subst hw
  rw [decode_eq_checked _ 1#6 (by simp (disch := decide) only [BitVec.extractLsb'_append_eq_of_le, BitVec.extractLsb'_append_eq_of_add_le,
    BitVec.extractLsb'_eq_self, BitVec.reduceExtractLsb', Nat.reduceSub]) rfl]
  simp (disch := decide) only [decodeMap, decSop, BitVec.extractLsb'_append_eq_of_le, BitVec.extractLsb'_append_eq_of_add_le,
    BitVec.extractLsb'_eq_self, BitVec.reduceExtractLsb', Nat.reduceSub, zeroed]
  simp only [checked, hi, ite_true, beq_self_eq_true, Bool.and_self, BitVec.reduceBEq,
    Bool.false_eq_true, if_false]

theorem minn (a b c : BitVec 5) : Statement (.minn a b c) := by
  intro w hw hi
  simp only [encode, Option.some.injEq] at hw
  subst hw
  rw [decode_eq_checked _ 1#6 (by simp (disch := decide) only [BitVec.extractLsb'_append_eq_of_le, BitVec.extractLsb'_append_eq_of_add_le,
    BitVec.extractLsb'_eq_self, BitVec.reduceExtractLsb', Nat.reduceSub]) rfl]
  simp (disch := decide) only [decodeMap, decSop, BitVec.extractLsb'_append_eq_of_le, BitVec.extractLsb'_append_eq_of_add_le,
    BitVec.extractLsb'_eq_self, BitVec.reduceExtractLsb', Nat.reduceSub, zeroed]
  simp only [checked, hi, ite_true, beq_self_eq_true, Bool.and_self, BitVec.reduceBEq,
    Bool.false_eq_true, if_false]

theorem maxn (a b c : BitVec 5) : Statement (.maxn a b c) := by
  intro w hw hi
  simp only [encode, Option.some.injEq] at hw
  subst hw
  rw [decode_eq_checked _ 1#6 (by simp (disch := decide) only [BitVec.extractLsb'_append_eq_of_le, BitVec.extractLsb'_append_eq_of_add_le,
    BitVec.extractLsb'_eq_self, BitVec.reduceExtractLsb', Nat.reduceSub]) rfl]
  simp (disch := decide) only [decodeMap, decSop, BitVec.extractLsb'_append_eq_of_le, BitVec.extractLsb'_append_eq_of_add_le,
    BitVec.extractLsb'_eq_self, BitVec.reduceExtractLsb', Nat.reduceSub, zeroed]
  simp only [checked, hi, ite_true, beq_self_eq_true, Bool.and_self, BitVec.reduceBEq,
    Bool.false_eq_true, if_false]

theorem clz (a b : BitVec 5) : Statement (.clz a b) := by
  intro w hw hi
  simp only [encode, Option.some.injEq] at hw
  subst hw
  rw [decode_eq_checked _ 1#6 (by simp (disch := decide) only [BitVec.extractLsb'_append_eq_of_le, BitVec.extractLsb'_append_eq_of_add_le,
    BitVec.extractLsb'_eq_self, BitVec.reduceExtractLsb', Nat.reduceSub]) rfl]
  simp (disch := decide) only [decodeMap, decSop, BitVec.extractLsb'_append_eq_of_le, BitVec.extractLsb'_append_eq_of_add_le,
    BitVec.extractLsb'_eq_self, BitVec.reduceExtractLsb', Nat.reduceSub, zeroed]
  simp only [checked, hi, ite_true, beq_self_eq_true, Bool.and_self, BitVec.reduceBEq,
    Bool.false_eq_true, if_false]

theorem ctz (a b : BitVec 5) : Statement (.ctz a b) := by
  intro w hw hi
  simp only [encode, Option.some.injEq] at hw
  subst hw
  rw [decode_eq_checked _ 1#6 (by simp (disch := decide) only [BitVec.extractLsb'_append_eq_of_le, BitVec.extractLsb'_append_eq_of_add_le,
    BitVec.extractLsb'_eq_self, BitVec.reduceExtractLsb', Nat.reduceSub]) rfl]
  simp (disch := decide) only [decodeMap, decSop, BitVec.extractLsb'_append_eq_of_le, BitVec.extractLsb'_append_eq_of_add_le,
    BitVec.extractLsb'_eq_self, BitVec.reduceExtractLsb', Nat.reduceSub, zeroed]
  simp only [checked, hi, ite_true, beq_self_eq_true, Bool.and_self, BitVec.reduceBEq,
    Bool.false_eq_true, if_false]

theorem popc (a b : BitVec 5) : Statement (.popc a b) := by
  intro w hw hi
  simp only [encode, Option.some.injEq] at hw
  subst hw
  rw [decode_eq_checked _ 1#6 (by simp (disch := decide) only [BitVec.extractLsb'_append_eq_of_le, BitVec.extractLsb'_append_eq_of_add_le,
    BitVec.extractLsb'_eq_self, BitVec.reduceExtractLsb', Nat.reduceSub]) rfl]
  simp (disch := decide) only [decodeMap, decSop, BitVec.extractLsb'_append_eq_of_le, BitVec.extractLsb'_append_eq_of_add_le,
    BitVec.extractLsb'_eq_self, BitVec.reduceExtractLsb', Nat.reduceSub, zeroed]
  simp only [checked, hi, ite_true, beq_self_eq_true, Bool.and_self, BitVec.reduceBEq,
    Bool.false_eq_true, if_false]

theorem addi (a b : BitVec 5) (i : BitVec 16) : Statement (.addi a b i) := by
  intro w hw hi
  simp only [encode, Option.some.injEq] at hw
  subst hw
  rw [decode_eq_checked _ 2#6 (by simp (disch := decide) only [BitVec.extractLsb'_append_eq_of_le, BitVec.extractLsb'_append_eq_of_add_le,
    BitVec.extractLsb'_eq_self, BitVec.reduceExtractLsb', Nat.reduceSub]) rfl]
  simp (disch := decide) only [decodeMap, BitVec.extractLsb'_append_eq_of_le, BitVec.extractLsb'_append_eq_of_add_le,
    BitVec.extractLsb'_eq_self, BitVec.reduceExtractLsb', Nat.reduceSub, zeroed]
  simp only [checked, hi, ite_true, beq_self_eq_true, Bool.and_self, BitVec.reduceBEq,
    Bool.false_eq_true, if_false]

theorem andi (a b : BitVec 5) (i : BitVec 16) : Statement (.andi a b i) := by
  intro w hw hi
  simp only [encode, Option.some.injEq] at hw
  subst hw
  rw [decode_eq_checked _ 3#6 (by simp (disch := decide) only [BitVec.extractLsb'_append_eq_of_le, BitVec.extractLsb'_append_eq_of_add_le,
    BitVec.extractLsb'_eq_self, BitVec.reduceExtractLsb', Nat.reduceSub]) rfl]
  simp (disch := decide) only [decodeMap, BitVec.extractLsb'_append_eq_of_le, BitVec.extractLsb'_append_eq_of_add_le,
    BitVec.extractLsb'_eq_self, BitVec.reduceExtractLsb', Nat.reduceSub, zeroed]
  simp only [checked, hi, ite_true, beq_self_eq_true, Bool.and_self, BitVec.reduceBEq,
    Bool.false_eq_true, if_false]

theorem ori (a b : BitVec 5) (i : BitVec 16) : Statement (.ori a b i) := by
  intro w hw hi
  simp only [encode, Option.some.injEq] at hw
  subst hw
  rw [decode_eq_checked _ 4#6 (by simp (disch := decide) only [BitVec.extractLsb'_append_eq_of_le, BitVec.extractLsb'_append_eq_of_add_le,
    BitVec.extractLsb'_eq_self, BitVec.reduceExtractLsb', Nat.reduceSub]) rfl]
  simp (disch := decide) only [decodeMap, BitVec.extractLsb'_append_eq_of_le, BitVec.extractLsb'_append_eq_of_add_le,
    BitVec.extractLsb'_eq_self, BitVec.reduceExtractLsb', Nat.reduceSub, zeroed]
  simp only [checked, hi, ite_true, beq_self_eq_true, Bool.and_self, BitVec.reduceBEq,
    Bool.false_eq_true, if_false]

theorem xori (a b : BitVec 5) (i : BitVec 16) : Statement (.xori a b i) := by
  intro w hw hi
  simp only [encode, Option.some.injEq] at hw
  subst hw
  rw [decode_eq_checked _ 5#6 (by simp (disch := decide) only [BitVec.extractLsb'_append_eq_of_le, BitVec.extractLsb'_append_eq_of_add_le,
    BitVec.extractLsb'_eq_self, BitVec.reduceExtractLsb', Nat.reduceSub]) rfl]
  simp (disch := decide) only [decodeMap, BitVec.extractLsb'_append_eq_of_le, BitVec.extractLsb'_append_eq_of_add_le,
    BitVec.extractLsb'_eq_self, BitVec.reduceExtractLsb', Nat.reduceSub, zeroed]
  simp only [checked, hi, ite_true, beq_self_eq_true, Bool.and_self, BitVec.reduceBEq,
    Bool.false_eq_true, if_false]

theorem slti (a b : BitVec 5) (i : BitVec 16) : Statement (.slti a b i) := by
  intro w hw hi
  simp only [encode, Option.some.injEq] at hw
  subst hw
  rw [decode_eq_checked _ 6#6 (by simp (disch := decide) only [BitVec.extractLsb'_append_eq_of_le, BitVec.extractLsb'_append_eq_of_add_le,
    BitVec.extractLsb'_eq_self, BitVec.reduceExtractLsb', Nat.reduceSub]) rfl]
  simp (disch := decide) only [decodeMap, BitVec.extractLsb'_append_eq_of_le, BitVec.extractLsb'_append_eq_of_add_le,
    BitVec.extractLsb'_eq_self, BitVec.reduceExtractLsb', Nat.reduceSub, zeroed]
  simp only [checked, hi, ite_true, beq_self_eq_true, Bool.and_self, BitVec.reduceBEq,
    Bool.false_eq_true, if_false]

theorem shli (a b : BitVec 5) (s : BitVec 6) : Statement (.shli a b s) := by
  intro w hw hi
  simp only [encode, Option.some.injEq] at hw
  subst hw
  rw [decode_eq_checked _ 7#6 (by simp (disch := decide) only [BitVec.extractLsb'_append_eq_of_le, BitVec.extractLsb'_append_eq_of_add_le,
    BitVec.extractLsb'_eq_self, BitVec.reduceExtractLsb', Nat.reduceSub]) rfl]
  simp (disch := decide) only [decodeMap, decShi, BitVec.extractLsb'_append_eq_of_le, BitVec.extractLsb'_append_eq_of_add_le,
    BitVec.extractLsb'_eq_self, BitVec.reduceExtractLsb', Nat.reduceSub, zeroed]
  simp only [checked, hi, ite_true, beq_self_eq_true, Bool.and_self, BitVec.reduceBEq,
    Bool.false_eq_true, if_false]

theorem shri (a b : BitVec 5) (s : BitVec 6) : Statement (.shri a b s) := by
  intro w hw hi
  simp only [encode, Option.some.injEq] at hw
  subst hw
  rw [decode_eq_checked _ 7#6 (by simp (disch := decide) only [BitVec.extractLsb'_append_eq_of_le, BitVec.extractLsb'_append_eq_of_add_le,
    BitVec.extractLsb'_eq_self, BitVec.reduceExtractLsb', Nat.reduceSub]) rfl]
  simp (disch := decide) only [decodeMap, decShi, BitVec.extractLsb'_append_eq_of_le, BitVec.extractLsb'_append_eq_of_add_le,
    BitVec.extractLsb'_eq_self, BitVec.reduceExtractLsb', Nat.reduceSub, zeroed]
  simp only [checked, hi, ite_true, beq_self_eq_true, Bool.and_self, BitVec.reduceBEq,
    Bool.false_eq_true, if_false]

theorem shrai (a b : BitVec 5) (s : BitVec 6) : Statement (.shrai a b s) := by
  intro w hw hi
  simp only [encode, Option.some.injEq] at hw
  subst hw
  rw [decode_eq_checked _ 7#6 (by simp (disch := decide) only [BitVec.extractLsb'_append_eq_of_le, BitVec.extractLsb'_append_eq_of_add_le,
    BitVec.extractLsb'_eq_self, BitVec.reduceExtractLsb', Nat.reduceSub]) rfl]
  simp (disch := decide) only [decodeMap, decShi, BitVec.extractLsb'_append_eq_of_le, BitVec.extractLsb'_append_eq_of_add_le,
    BitVec.extractLsb'_eq_self, BitVec.reduceExtractLsb', Nat.reduceSub, zeroed]
  simp only [checked, hi, ite_true, beq_self_eq_true, Bool.and_self, BitVec.reduceBEq,
    Bool.false_eq_true, if_false]

theorem lih (a : BitVec 5) (i : BitVec 16) : Statement (.lih a i) := by
  intro w hw hi
  simp only [encode, Option.some.injEq] at hw
  subst hw
  rw [decode_eq_checked _ 8#6 (by simp (disch := decide) only [BitVec.extractLsb'_append_eq_of_le, BitVec.extractLsb'_append_eq_of_add_le,
    BitVec.extractLsb'_eq_self, BitVec.reduceExtractLsb', Nat.reduceSub]) rfl]
  simp (disch := decide) only [decodeMap, BitVec.extractLsb'_append_eq_of_le, BitVec.extractLsb'_append_eq_of_add_le,
    BitVec.extractLsb'_eq_self, BitVec.reduceExtractLsb', Nat.reduceSub, zeroed]
  simp only [checked, hi, ite_true, beq_self_eq_true, Bool.and_self, BitVec.reduceBEq,
    Bool.false_eq_true, if_false]

theorem shori (a b : BitVec 5) (i : BitVec 16) : Statement (.shori a b i) := by
  intro w hw hi
  simp only [encode, Option.some.injEq] at hw
  subst hw
  rw [decode_eq_checked _ 9#6 (by simp (disch := decide) only [BitVec.extractLsb'_append_eq_of_le, BitVec.extractLsb'_append_eq_of_add_le,
    BitVec.extractLsb'_eq_self, BitVec.reduceExtractLsb', Nat.reduceSub]) rfl]
  simp (disch := decide) only [decodeMap, BitVec.extractLsb'_append_eq_of_le, BitVec.extractLsb'_append_eq_of_add_le,
    BitVec.extractLsb'_eq_self, BitVec.reduceExtractLsb', Nat.reduceSub, zeroed]
  simp only [checked, hi, ite_true, beq_self_eq_true, Bool.and_self, BitVec.reduceBEq,
    Bool.false_eq_true, if_false]

theorem ldb (a b : BitVec 5) (i : BitVec 16) : Statement (.ldb a b i) := by
  intro w hw hi
  simp only [encode, Option.some.injEq] at hw
  subst hw
  rw [decode_eq_checked _ 10#6 (by simp (disch := decide) only [BitVec.extractLsb'_append_eq_of_le, BitVec.extractLsb'_append_eq_of_add_le,
    BitVec.extractLsb'_eq_self, BitVec.reduceExtractLsb', Nat.reduceSub]) rfl]
  simp (disch := decide) only [decodeMap, BitVec.extractLsb'_append_eq_of_le, BitVec.extractLsb'_append_eq_of_add_le,
    BitVec.extractLsb'_eq_self, BitVec.reduceExtractLsb', Nat.reduceSub, zeroed]
  simp only [checked, hi, ite_true, beq_self_eq_true, Bool.and_self, BitVec.reduceBEq,
    Bool.false_eq_true, if_false]

theorem ldbn (a b : BitVec 5) (i : BitVec 16) : Statement (.ldbn a b i) := by
  intro w hw hi
  simp only [encode, Option.some.injEq] at hw
  subst hw
  rw [decode_eq_checked _ 11#6 (by simp (disch := decide) only [BitVec.extractLsb'_append_eq_of_le, BitVec.extractLsb'_append_eq_of_add_le,
    BitVec.extractLsb'_eq_self, BitVec.reduceExtractLsb', Nat.reduceSub]) rfl]
  simp (disch := decide) only [decodeMap, BitVec.extractLsb'_append_eq_of_le, BitVec.extractLsb'_append_eq_of_add_le,
    BitVec.extractLsb'_eq_self, BitVec.reduceExtractLsb', Nat.reduceSub, zeroed]
  simp only [checked, hi, ite_true, beq_self_eq_true, Bool.and_self, BitVec.reduceBEq,
    Bool.false_eq_true, if_false]

theorem ldh (a b : BitVec 5) (i : BitVec 16) : Statement (.ldh a b i) := by
  intro w hw hi
  simp only [encode, Option.some.injEq] at hw
  subst hw
  rw [decode_eq_checked _ 12#6 (by simp (disch := decide) only [BitVec.extractLsb'_append_eq_of_le, BitVec.extractLsb'_append_eq_of_add_le,
    BitVec.extractLsb'_eq_self, BitVec.reduceExtractLsb', Nat.reduceSub]) rfl]
  simp (disch := decide) only [decodeMap, BitVec.extractLsb'_append_eq_of_le, BitVec.extractLsb'_append_eq_of_add_le,
    BitVec.extractLsb'_eq_self, BitVec.reduceExtractLsb', Nat.reduceSub, zeroed]
  simp only [checked, hi, ite_true, beq_self_eq_true, Bool.and_self, BitVec.reduceBEq,
    Bool.false_eq_true, if_false]

theorem ldhn (a b : BitVec 5) (i : BitVec 16) : Statement (.ldhn a b i) := by
  intro w hw hi
  simp only [encode, Option.some.injEq] at hw
  subst hw
  rw [decode_eq_checked _ 13#6 (by simp (disch := decide) only [BitVec.extractLsb'_append_eq_of_le, BitVec.extractLsb'_append_eq_of_add_le,
    BitVec.extractLsb'_eq_self, BitVec.reduceExtractLsb', Nat.reduceSub]) rfl]
  simp (disch := decide) only [decodeMap, BitVec.extractLsb'_append_eq_of_le, BitVec.extractLsb'_append_eq_of_add_le,
    BitVec.extractLsb'_eq_self, BitVec.reduceExtractLsb', Nat.reduceSub, zeroed]
  simp only [checked, hi, ite_true, beq_self_eq_true, Bool.and_self, BitVec.reduceBEq,
    Bool.false_eq_true, if_false]

theorem ldw (a b : BitVec 5) (i : BitVec 16) : Statement (.ldw a b i) := by
  intro w hw hi
  simp only [encode, Option.some.injEq] at hw
  subst hw
  rw [decode_eq_checked _ 14#6 (by simp (disch := decide) only [BitVec.extractLsb'_append_eq_of_le, BitVec.extractLsb'_append_eq_of_add_le,
    BitVec.extractLsb'_eq_self, BitVec.reduceExtractLsb', Nat.reduceSub]) rfl]
  simp (disch := decide) only [decodeMap, BitVec.extractLsb'_append_eq_of_le, BitVec.extractLsb'_append_eq_of_add_le,
    BitVec.extractLsb'_eq_self, BitVec.reduceExtractLsb', Nat.reduceSub, zeroed]
  simp only [checked, hi, ite_true, beq_self_eq_true, Bool.and_self, BitVec.reduceBEq,
    Bool.false_eq_true, if_false]

theorem ldwn (a b : BitVec 5) (i : BitVec 16) : Statement (.ldwn a b i) := by
  intro w hw hi
  simp only [encode, Option.some.injEq] at hw
  subst hw
  rw [decode_eq_checked _ 15#6 (by simp (disch := decide) only [BitVec.extractLsb'_append_eq_of_le, BitVec.extractLsb'_append_eq_of_add_le,
    BitVec.extractLsb'_eq_self, BitVec.reduceExtractLsb', Nat.reduceSub]) rfl]
  simp (disch := decide) only [decodeMap, BitVec.extractLsb'_append_eq_of_le, BitVec.extractLsb'_append_eq_of_add_le,
    BitVec.extractLsb'_eq_self, BitVec.reduceExtractLsb', Nat.reduceSub, zeroed]
  simp only [checked, hi, ite_true, beq_self_eq_true, Bool.and_self, BitVec.reduceBEq,
    Bool.false_eq_true, if_false]

theorem ldd (a b : BitVec 5) (i : BitVec 16) : Statement (.ldd a b i) := by
  intro w hw hi
  simp only [encode, Option.some.injEq] at hw
  subst hw
  rw [decode_eq_checked _ 16#6 (by simp (disch := decide) only [BitVec.extractLsb'_append_eq_of_le, BitVec.extractLsb'_append_eq_of_add_le,
    BitVec.extractLsb'_eq_self, BitVec.reduceExtractLsb', Nat.reduceSub]) rfl]
  simp (disch := decide) only [decodeMap, BitVec.extractLsb'_append_eq_of_le, BitVec.extractLsb'_append_eq_of_add_le,
    BitVec.extractLsb'_eq_self, BitVec.reduceExtractLsb', Nat.reduceSub, zeroed]
  simp only [checked, hi, ite_true, beq_self_eq_true, Bool.and_self, BitVec.reduceBEq,
    Bool.false_eq_true, if_false]

theorem stb (a b : BitVec 5) (i : BitVec 16) : Statement (.stb a b i) := by
  intro w hw hi
  simp only [encode, Option.some.injEq] at hw
  subst hw
  rw [decode_eq_checked _ 17#6 (by simp (disch := decide) only [BitVec.extractLsb'_append_eq_of_le, BitVec.extractLsb'_append_eq_of_add_le,
    BitVec.extractLsb'_eq_self, BitVec.reduceExtractLsb', Nat.reduceSub]) rfl]
  simp (disch := decide) only [decodeMap, BitVec.extractLsb'_append_eq_of_le, BitVec.extractLsb'_append_eq_of_add_le,
    BitVec.extractLsb'_eq_self, BitVec.reduceExtractLsb', Nat.reduceSub, zeroed]
  simp only [checked, hi, ite_true, beq_self_eq_true, Bool.and_self, BitVec.reduceBEq,
    Bool.false_eq_true, if_false]

theorem sth (a b : BitVec 5) (i : BitVec 16) : Statement (.sth a b i) := by
  intro w hw hi
  simp only [encode, Option.some.injEq] at hw
  subst hw
  rw [decode_eq_checked _ 18#6 (by simp (disch := decide) only [BitVec.extractLsb'_append_eq_of_le, BitVec.extractLsb'_append_eq_of_add_le,
    BitVec.extractLsb'_eq_self, BitVec.reduceExtractLsb', Nat.reduceSub]) rfl]
  simp (disch := decide) only [decodeMap, BitVec.extractLsb'_append_eq_of_le, BitVec.extractLsb'_append_eq_of_add_le,
    BitVec.extractLsb'_eq_self, BitVec.reduceExtractLsb', Nat.reduceSub, zeroed]
  simp only [checked, hi, ite_true, beq_self_eq_true, Bool.and_self, BitVec.reduceBEq,
    Bool.false_eq_true, if_false]

theorem stw (a b : BitVec 5) (i : BitVec 16) : Statement (.stw a b i) := by
  intro w hw hi
  simp only [encode, Option.some.injEq] at hw
  subst hw
  rw [decode_eq_checked _ 19#6 (by simp (disch := decide) only [BitVec.extractLsb'_append_eq_of_le, BitVec.extractLsb'_append_eq_of_add_le,
    BitVec.extractLsb'_eq_self, BitVec.reduceExtractLsb', Nat.reduceSub]) rfl]
  simp (disch := decide) only [decodeMap, BitVec.extractLsb'_append_eq_of_le, BitVec.extractLsb'_append_eq_of_add_le,
    BitVec.extractLsb'_eq_self, BitVec.reduceExtractLsb', Nat.reduceSub, zeroed]
  simp only [checked, hi, ite_true, beq_self_eq_true, Bool.and_self, BitVec.reduceBEq,
    Bool.false_eq_true, if_false]

theorem std (a b : BitVec 5) (i : BitVec 16) : Statement (.std a b i) := by
  intro w hw hi
  simp only [encode, Option.some.injEq] at hw
  subst hw
  rw [decode_eq_checked _ 20#6 (by simp (disch := decide) only [BitVec.extractLsb'_append_eq_of_le, BitVec.extractLsb'_append_eq_of_add_le,
    BitVec.extractLsb'_eq_self, BitVec.reduceExtractLsb', Nat.reduceSub]) rfl]
  simp (disch := decide) only [decodeMap, BitVec.extractLsb'_append_eq_of_le, BitVec.extractLsb'_append_eq_of_add_le,
    BitVec.extractLsb'_eq_self, BitVec.reduceExtractLsb', Nat.reduceSub, zeroed]
  simp only [checked, hi, ite_true, beq_self_eq_true, Bool.and_self, BitVec.reduceBEq,
    Bool.false_eq_true, if_false]

theorem beq (b c : BitVec 5) (o : BitVec 13) : Statement (.beq b c o) := by
  intro w hw hi
  simp only [encode, Option.some.injEq] at hw
  subst hw
  rw [decode_eq_checked _ 21#6 (by simp (disch := decide) only [BitVec.extractLsb'_append_eq_of_le, BitVec.extractLsb'_append_eq_of_add_le,
    BitVec.extractLsb'_eq_self, BitVec.reduceExtractLsb', Nat.reduceSub]) rfl]
  simp (disch := decide) only [decodeMap, decBr, BitVec.extractLsb'_append_eq_of_le, BitVec.extractLsb'_append_eq_of_add_le,
    BitVec.extractLsb'_eq_self, BitVec.reduceExtractLsb', Nat.reduceSub, zeroed]
  simp only [checked, hi, ite_true, beq_self_eq_true, Bool.and_self, BitVec.reduceBEq,
    Bool.false_eq_true, if_false]

theorem bne (b c : BitVec 5) (o : BitVec 13) : Statement (.bne b c o) := by
  intro w hw hi
  simp only [encode, Option.some.injEq] at hw
  subst hw
  rw [decode_eq_checked _ 21#6 (by simp (disch := decide) only [BitVec.extractLsb'_append_eq_of_le, BitVec.extractLsb'_append_eq_of_add_le,
    BitVec.extractLsb'_eq_self, BitVec.reduceExtractLsb', Nat.reduceSub]) rfl]
  simp (disch := decide) only [decodeMap, decBr, BitVec.extractLsb'_append_eq_of_le, BitVec.extractLsb'_append_eq_of_add_le,
    BitVec.extractLsb'_eq_self, BitVec.reduceExtractLsb', Nat.reduceSub, zeroed]
  simp only [checked, hi, ite_true, beq_self_eq_true, Bool.and_self, BitVec.reduceBEq,
    Bool.false_eq_true, if_false]

theorem blt (b c : BitVec 5) (o : BitVec 13) : Statement (.blt b c o) := by
  intro w hw hi
  simp only [encode, Option.some.injEq] at hw
  subst hw
  rw [decode_eq_checked _ 21#6 (by simp (disch := decide) only [BitVec.extractLsb'_append_eq_of_le, BitVec.extractLsb'_append_eq_of_add_le,
    BitVec.extractLsb'_eq_self, BitVec.reduceExtractLsb', Nat.reduceSub]) rfl]
  simp (disch := decide) only [decodeMap, decBr, BitVec.extractLsb'_append_eq_of_le, BitVec.extractLsb'_append_eq_of_add_le,
    BitVec.extractLsb'_eq_self, BitVec.reduceExtractLsb', Nat.reduceSub, zeroed]
  simp only [checked, hi, ite_true, beq_self_eq_true, Bool.and_self, BitVec.reduceBEq,
    Bool.false_eq_true, if_false]

theorem bge (b c : BitVec 5) (o : BitVec 13) : Statement (.bge b c o) := by
  intro w hw hi
  simp only [encode, Option.some.injEq] at hw
  subst hw
  rw [decode_eq_checked _ 21#6 (by simp (disch := decide) only [BitVec.extractLsb'_append_eq_of_le, BitVec.extractLsb'_append_eq_of_add_le,
    BitVec.extractLsb'_eq_self, BitVec.reduceExtractLsb', Nat.reduceSub]) rfl]
  simp (disch := decide) only [decodeMap, decBr, BitVec.extractLsb'_append_eq_of_le, BitVec.extractLsb'_append_eq_of_add_le,
    BitVec.extractLsb'_eq_self, BitVec.reduceExtractLsb', Nat.reduceSub, zeroed]
  simp only [checked, hi, ite_true, beq_self_eq_true, Bool.and_self, BitVec.reduceBEq,
    Bool.false_eq_true, if_false]

theorem bltn (b c : BitVec 5) (o : BitVec 13) : Statement (.bltn b c o) := by
  intro w hw hi
  simp only [encode, Option.some.injEq] at hw
  subst hw
  rw [decode_eq_checked _ 21#6 (by simp (disch := decide) only [BitVec.extractLsb'_append_eq_of_le, BitVec.extractLsb'_append_eq_of_add_le,
    BitVec.extractLsb'_eq_self, BitVec.reduceExtractLsb', Nat.reduceSub]) rfl]
  simp (disch := decide) only [decodeMap, decBr, BitVec.extractLsb'_append_eq_of_le, BitVec.extractLsb'_append_eq_of_add_le,
    BitVec.extractLsb'_eq_self, BitVec.reduceExtractLsb', Nat.reduceSub, zeroed]
  simp only [checked, hi, ite_true, beq_self_eq_true, Bool.and_self, BitVec.reduceBEq,
    Bool.false_eq_true, if_false]

theorem bgen (b c : BitVec 5) (o : BitVec 13) : Statement (.bgen b c o) := by
  intro w hw hi
  simp only [encode, Option.some.injEq] at hw
  subst hw
  rw [decode_eq_checked _ 21#6 (by simp (disch := decide) only [BitVec.extractLsb'_append_eq_of_le, BitVec.extractLsb'_append_eq_of_add_le,
    BitVec.extractLsb'_eq_self, BitVec.reduceExtractLsb', Nat.reduceSub]) rfl]
  simp (disch := decide) only [decodeMap, decBr, BitVec.extractLsb'_append_eq_of_le, BitVec.extractLsb'_append_eq_of_add_le,
    BitVec.extractLsb'_eq_self, BitVec.reduceExtractLsb', Nat.reduceSub, zeroed]
  simp only [checked, hi, ite_true, beq_self_eq_true, Bool.and_self, BitVec.reduceBEq,
    Bool.false_eq_true, if_false]

theorem jmp (o : BitVec 26) : Statement (.jmp o) := by
  intro w hw hi
  simp only [encode, Option.some.injEq] at hw
  subst hw
  rw [decode_eq_checked _ 22#6 (by simp (disch := decide) only [BitVec.extractLsb'_append_eq_of_le, BitVec.extractLsb'_append_eq_of_add_le,
    BitVec.extractLsb'_eq_self, BitVec.reduceExtractLsb', Nat.reduceSub]) rfl]
  simp (disch := decide) only [decodeMap, BitVec.extractLsb'_append_eq_of_le, BitVec.extractLsb'_append_eq_of_add_le,
    BitVec.extractLsb'_eq_self, BitVec.reduceExtractLsb', Nat.reduceSub, zeroed]
  simp only [checked, hi, ite_true, beq_self_eq_true, Bool.and_self, BitVec.reduceBEq,
    Bool.false_eq_true, if_false]

theorem call (o : BitVec 26) : Statement (.call o) := by
  intro w hw hi
  simp only [encode, Option.some.injEq] at hw
  subst hw
  rw [decode_eq_checked _ 23#6 (by simp (disch := decide) only [BitVec.extractLsb'_append_eq_of_le, BitVec.extractLsb'_append_eq_of_add_le,
    BitVec.extractLsb'_eq_self, BitVec.reduceExtractLsb', Nat.reduceSub]) rfl]
  simp (disch := decide) only [decodeMap, BitVec.extractLsb'_append_eq_of_le, BitVec.extractLsb'_append_eq_of_add_le,
    BitVec.extractLsb'_eq_self, BitVec.reduceExtractLsb', Nat.reduceSub, zeroed]
  simp only [checked, hi, ite_true, beq_self_eq_true, Bool.and_self, BitVec.reduceBEq,
    Bool.false_eq_true, if_false]

theorem jr (b : BitVec 5) : Statement (.jr b) := by
  intro w hw hi
  simp only [encode, Option.some.injEq] at hw
  subst hw
  rw [decode_eq_checked _ 24#6 (by simp (disch := decide) only [BitVec.extractLsb'_append_eq_of_le, BitVec.extractLsb'_append_eq_of_add_le,
    BitVec.extractLsb'_eq_self, BitVec.reduceExtractLsb', Nat.reduceSub]) rfl]
  simp (disch := decide) only [decodeMap, decJr, BitVec.extractLsb'_append_eq_of_le, BitVec.extractLsb'_append_eq_of_add_le,
    BitVec.extractLsb'_eq_self, BitVec.reduceExtractLsb', Nat.reduceSub, zeroed]
  simp only [checked, hi, ite_true, beq_self_eq_true, Bool.and_self, BitVec.reduceBEq,
    Bool.false_eq_true, if_false]

theorem jalr (b : BitVec 5) : Statement (.jalr b) := by
  intro w hw hi
  simp only [encode, Option.some.injEq] at hw
  subst hw
  rw [decode_eq_checked _ 24#6 (by simp (disch := decide) only [BitVec.extractLsb'_append_eq_of_le, BitVec.extractLsb'_append_eq_of_add_le,
    BitVec.extractLsb'_eq_self, BitVec.reduceExtractLsb', Nat.reduceSub]) rfl]
  simp (disch := decide) only [decodeMap, decJr, BitVec.extractLsb'_append_eq_of_le, BitVec.extractLsb'_append_eq_of_add_le,
    BitVec.extractLsb'_eq_self, BitVec.reduceExtractLsb', Nat.reduceSub, zeroed]
  simp only [checked, hi, ite_true, beq_self_eq_true, Bool.and_self, BitVec.reduceBEq,
    Bool.false_eq_true, if_false]

theorem fadd (a b c : BitVec 5) (p : BitVec 1) : Statement (.fadd a b c p) := by
  intro w hw hi
  simp only [encode, Option.some.injEq] at hw
  subst hw
  rw [decode_eq_checked _ 25#6 (by simp (disch := decide) only [BitVec.extractLsb'_append_eq_of_le, BitVec.extractLsb'_append_eq_of_add_le,
    BitVec.extractLsb'_eq_self, BitVec.reduceExtractLsb', Nat.reduceSub]) rfl]
  simp (disch := decide) only [decodeMap, decSfp, BitVec.extractLsb'_append_eq_of_le, BitVec.extractLsb'_append_eq_of_add_le,
    BitVec.extractLsb'_eq_self, BitVec.reduceExtractLsb', Nat.reduceSub, zeroed]
  simp only [checked, hi, ite_true, beq_self_eq_true, Bool.and_self, BitVec.reduceBEq,
    Bool.false_eq_true, if_false]

theorem fsub (a b c : BitVec 5) (p : BitVec 1) : Statement (.fsub a b c p) := by
  intro w hw hi
  simp only [encode, Option.some.injEq] at hw
  subst hw
  rw [decode_eq_checked _ 25#6 (by simp (disch := decide) only [BitVec.extractLsb'_append_eq_of_le, BitVec.extractLsb'_append_eq_of_add_le,
    BitVec.extractLsb'_eq_self, BitVec.reduceExtractLsb', Nat.reduceSub]) rfl]
  simp (disch := decide) only [decodeMap, decSfp, BitVec.extractLsb'_append_eq_of_le, BitVec.extractLsb'_append_eq_of_add_le,
    BitVec.extractLsb'_eq_self, BitVec.reduceExtractLsb', Nat.reduceSub, zeroed]
  simp only [checked, hi, ite_true, beq_self_eq_true, Bool.and_self, BitVec.reduceBEq,
    Bool.false_eq_true, if_false]

theorem fmul (a b c : BitVec 5) (p : BitVec 1) : Statement (.fmul a b c p) := by
  intro w hw hi
  simp only [encode, Option.some.injEq] at hw
  subst hw
  rw [decode_eq_checked _ 25#6 (by simp (disch := decide) only [BitVec.extractLsb'_append_eq_of_le, BitVec.extractLsb'_append_eq_of_add_le,
    BitVec.extractLsb'_eq_self, BitVec.reduceExtractLsb', Nat.reduceSub]) rfl]
  simp (disch := decide) only [decodeMap, decSfp, BitVec.extractLsb'_append_eq_of_le, BitVec.extractLsb'_append_eq_of_add_le,
    BitVec.extractLsb'_eq_self, BitVec.reduceExtractLsb', Nat.reduceSub, zeroed]
  simp only [checked, hi, ite_true, beq_self_eq_true, Bool.and_self, BitVec.reduceBEq,
    Bool.false_eq_true, if_false]

theorem fdiv (a b c : BitVec 5) (p : BitVec 1) : Statement (.fdiv a b c p) := by
  intro w hw hi
  simp only [encode, Option.some.injEq] at hw
  subst hw
  rw [decode_eq_checked _ 25#6 (by simp (disch := decide) only [BitVec.extractLsb'_append_eq_of_le, BitVec.extractLsb'_append_eq_of_add_le,
    BitVec.extractLsb'_eq_self, BitVec.reduceExtractLsb', Nat.reduceSub]) rfl]
  simp (disch := decide) only [decodeMap, decSfp, BitVec.extractLsb'_append_eq_of_le, BitVec.extractLsb'_append_eq_of_add_le,
    BitVec.extractLsb'_eq_self, BitVec.reduceExtractLsb', Nat.reduceSub, zeroed]
  simp only [checked, hi, ite_true, beq_self_eq_true, Bool.and_self, BitVec.reduceBEq,
    Bool.false_eq_true, if_false]

theorem fsqrt (a b : BitVec 5) (p : BitVec 1) : Statement (.fsqrt a b p) := by
  intro w hw hi
  simp only [encode, Option.some.injEq] at hw
  subst hw
  rw [decode_eq_checked _ 25#6 (by simp (disch := decide) only [BitVec.extractLsb'_append_eq_of_le, BitVec.extractLsb'_append_eq_of_add_le,
    BitVec.extractLsb'_eq_self, BitVec.reduceExtractLsb', Nat.reduceSub]) rfl]
  simp (disch := decide) only [decodeMap, decSfp, BitVec.extractLsb'_append_eq_of_le, BitVec.extractLsb'_append_eq_of_add_le,
    BitVec.extractLsb'_eq_self, BitVec.reduceExtractLsb', Nat.reduceSub, zeroed]
  simp only [checked, hi, ite_true, beq_self_eq_true, Bool.and_self, BitVec.reduceBEq,
    Bool.false_eq_true, if_false]

theorem fmin (a b c : BitVec 5) (p : BitVec 1) : Statement (.fmin a b c p) := by
  intro w hw hi
  simp only [encode, Option.some.injEq] at hw
  subst hw
  rw [decode_eq_checked _ 25#6 (by simp (disch := decide) only [BitVec.extractLsb'_append_eq_of_le, BitVec.extractLsb'_append_eq_of_add_le,
    BitVec.extractLsb'_eq_self, BitVec.reduceExtractLsb', Nat.reduceSub]) rfl]
  simp (disch := decide) only [decodeMap, decSfp, BitVec.extractLsb'_append_eq_of_le, BitVec.extractLsb'_append_eq_of_add_le,
    BitVec.extractLsb'_eq_self, BitVec.reduceExtractLsb', Nat.reduceSub, zeroed]
  simp only [checked, hi, ite_true, beq_self_eq_true, Bool.and_self, BitVec.reduceBEq,
    Bool.false_eq_true, if_false]

theorem fmax (a b c : BitVec 5) (p : BitVec 1) : Statement (.fmax a b c p) := by
  intro w hw hi
  simp only [encode, Option.some.injEq] at hw
  subst hw
  rw [decode_eq_checked _ 25#6 (by simp (disch := decide) only [BitVec.extractLsb'_append_eq_of_le, BitVec.extractLsb'_append_eq_of_add_le,
    BitVec.extractLsb'_eq_self, BitVec.reduceExtractLsb', Nat.reduceSub]) rfl]
  simp (disch := decide) only [decodeMap, decSfp, BitVec.extractLsb'_append_eq_of_le, BitVec.extractLsb'_append_eq_of_add_le,
    BitVec.extractLsb'_eq_self, BitVec.reduceExtractLsb', Nat.reduceSub, zeroed]
  simp only [checked, hi, ite_true, beq_self_eq_true, Bool.and_self, BitVec.reduceBEq,
    Bool.false_eq_true, if_false]

theorem feq (a b c : BitVec 5) (p : BitVec 1) : Statement (.feq a b c p) := by
  intro w hw hi
  simp only [encode, Option.some.injEq] at hw
  subst hw
  rw [decode_eq_checked _ 25#6 (by simp (disch := decide) only [BitVec.extractLsb'_append_eq_of_le, BitVec.extractLsb'_append_eq_of_add_le,
    BitVec.extractLsb'_eq_self, BitVec.reduceExtractLsb', Nat.reduceSub]) rfl]
  simp (disch := decide) only [decodeMap, decSfp, BitVec.extractLsb'_append_eq_of_le, BitVec.extractLsb'_append_eq_of_add_le,
    BitVec.extractLsb'_eq_self, BitVec.reduceExtractLsb', Nat.reduceSub, zeroed]
  simp only [checked, hi, ite_true, beq_self_eq_true, Bool.and_self, BitVec.reduceBEq,
    Bool.false_eq_true, if_false]

theorem flt (a b c : BitVec 5) (p : BitVec 1) : Statement (.flt a b c p) := by
  intro w hw hi
  simp only [encode, Option.some.injEq] at hw
  subst hw
  rw [decode_eq_checked _ 25#6 (by simp (disch := decide) only [BitVec.extractLsb'_append_eq_of_le, BitVec.extractLsb'_append_eq_of_add_le,
    BitVec.extractLsb'_eq_self, BitVec.reduceExtractLsb', Nat.reduceSub]) rfl]
  simp (disch := decide) only [decodeMap, decSfp, BitVec.extractLsb'_append_eq_of_le, BitVec.extractLsb'_append_eq_of_add_le,
    BitVec.extractLsb'_eq_self, BitVec.reduceExtractLsb', Nat.reduceSub, zeroed]
  simp only [checked, hi, ite_true, beq_self_eq_true, Bool.and_self, BitVec.reduceBEq,
    Bool.false_eq_true, if_false]

theorem fle (a b c : BitVec 5) (p : BitVec 1) : Statement (.fle a b c p) := by
  intro w hw hi
  simp only [encode, Option.some.injEq] at hw
  subst hw
  rw [decode_eq_checked _ 25#6 (by simp (disch := decide) only [BitVec.extractLsb'_append_eq_of_le, BitVec.extractLsb'_append_eq_of_add_le,
    BitVec.extractLsb'_eq_self, BitVec.reduceExtractLsb', Nat.reduceSub]) rfl]
  simp (disch := decide) only [decodeMap, decSfp, BitVec.extractLsb'_append_eq_of_le, BitVec.extractLsb'_append_eq_of_add_le,
    BitVec.extractLsb'_eq_self, BitVec.reduceExtractLsb', Nat.reduceSub, zeroed]
  simp only [checked, hi, ite_true, beq_self_eq_true, Bool.and_self, BitVec.reduceBEq,
    Bool.false_eq_true, if_false]

theorem fcvti (a b r : BitVec 5) (p : BitVec 1) : Statement (.fcvti a b r p) := by
  intro w hw hi
  simp only [encode, Option.some.injEq] at hw
  subst hw
  rw [decode_eq_checked _ 25#6 (by simp (disch := decide) only [BitVec.extractLsb'_append_eq_of_le, BitVec.extractLsb'_append_eq_of_add_le,
    BitVec.extractLsb'_eq_self, BitVec.reduceExtractLsb', Nat.reduceSub]) rfl]
  simp (disch := decide) only [decodeMap, decSfp, BitVec.extractLsb'_append_eq_of_le, BitVec.extractLsb'_append_eq_of_add_le,
    BitVec.extractLsb'_eq_self, BitVec.reduceExtractLsb', Nat.reduceSub, zeroed]
  simp only [checked, hi, ite_true, beq_self_eq_true, Bool.and_self, BitVec.reduceBEq,
    Bool.false_eq_true, if_false]

theorem fcvtf (a b r : BitVec 5) (p : BitVec 1) : Statement (.fcvtf a b r p) := by
  intro w hw hi
  simp only [encode, Option.some.injEq] at hw
  subst hw
  rw [decode_eq_checked _ 25#6 (by simp (disch := decide) only [BitVec.extractLsb'_append_eq_of_le, BitVec.extractLsb'_append_eq_of_add_le,
    BitVec.extractLsb'_eq_self, BitVec.reduceExtractLsb', Nat.reduceSub]) rfl]
  simp (disch := decide) only [decodeMap, decSfp, BitVec.extractLsb'_append_eq_of_le, BitVec.extractLsb'_append_eq_of_add_le,
    BitVec.extractLsb'_eq_self, BitVec.reduceExtractLsb', Nat.reduceSub, zeroed]
  simp only [checked, hi, ite_true, beq_self_eq_true, Bool.and_self, BitVec.reduceBEq,
    Bool.false_eq_true, if_false]

theorem fcvtwF32 (a b r : BitVec 5) : Statement (.fcvtwF32 a b r) := by
  intro w hw hi
  simp only [encode, Option.some.injEq] at hw
  subst hw
  rw [decode_eq_checked _ 25#6 (by simp (disch := decide) only [BitVec.extractLsb'_append_eq_of_le, BitVec.extractLsb'_append_eq_of_add_le,
    BitVec.extractLsb'_eq_self, BitVec.reduceExtractLsb', Nat.reduceSub]) rfl]
  simp (disch := decide) only [decodeMap, decSfp, BitVec.extractLsb'_append_eq_of_le, BitVec.extractLsb'_append_eq_of_add_le,
    BitVec.extractLsb'_eq_self, BitVec.reduceExtractLsb', Nat.reduceSub, zeroed]
  simp only [checked, hi, ite_true, beq_self_eq_true, Bool.and_self, BitVec.reduceBEq,
    Bool.false_eq_true, if_false]

theorem fcvtwF64 (a b : BitVec 5) : Statement (.fcvtwF64 a b) := by
  intro w hw hi
  simp only [encode, Option.some.injEq] at hw
  subst hw
  rw [decode_eq_checked _ 25#6 (by simp (disch := decide) only [BitVec.extractLsb'_append_eq_of_le, BitVec.extractLsb'_append_eq_of_add_le,
    BitVec.extractLsb'_eq_self, BitVec.reduceExtractLsb', Nat.reduceSub]) rfl]
  simp (disch := decide) only [decodeMap, decSfp, BitVec.extractLsb'_append_eq_of_le, BitVec.extractLsb'_append_eq_of_add_le,
    BitVec.extractLsb'_eq_self, BitVec.reduceExtractLsb', Nat.reduceSub, zeroed]
  simp only [checked, hi, ite_true, beq_self_eq_true, Bool.and_self, BitVec.reduceBEq,
    Bool.false_eq_true, if_false]

theorem fmadd (a b c d : BitVec 5) (p : BitVec 1) : Statement (.fmadd a b c d p) := by
  intro w hw hi
  simp only [encode, Option.some.injEq] at hw
  subst hw
  rw [decode_eq_checked _ 26#6 (by simp (disch := decide) only [BitVec.extractLsb'_append_eq_of_le, BitVec.extractLsb'_append_eq_of_add_le,
    BitVec.extractLsb'_eq_self, BitVec.reduceExtractLsb', Nat.reduceSub]) rfl]
  simp (disch := decide) only [decodeMap, decFmas, BitVec.extractLsb'_append_eq_of_le, BitVec.extractLsb'_append_eq_of_add_le,
    BitVec.extractLsb'_eq_self, BitVec.reduceExtractLsb', Nat.reduceSub, zeroed]
  simp only [checked, hi, ite_true, beq_self_eq_true, Bool.and_self, BitVec.reduceBEq,
    Bool.false_eq_true, if_false]

theorem fmsub (a b c d : BitVec 5) (p : BitVec 1) : Statement (.fmsub a b c d p) := by
  intro w hw hi
  simp only [encode, Option.some.injEq] at hw
  subst hw
  rw [decode_eq_checked _ 26#6 (by simp (disch := decide) only [BitVec.extractLsb'_append_eq_of_le, BitVec.extractLsb'_append_eq_of_add_le,
    BitVec.extractLsb'_eq_self, BitVec.reduceExtractLsb', Nat.reduceSub]) rfl]
  simp (disch := decide) only [decodeMap, decFmas, BitVec.extractLsb'_append_eq_of_le, BitVec.extractLsb'_append_eq_of_add_le,
    BitVec.extractLsb'_eq_self, BitVec.reduceExtractLsb', Nat.reduceSub, zeroed]
  simp only [checked, hi, ite_true, beq_self_eq_true, Bool.and_self, BitVec.reduceBEq,
    Bool.false_eq_true, if_false]

theorem ldlw (a b : BitVec 5) : Statement (.ldlw a b) := by
  intro w hw hi
  simp only [encode, Option.some.injEq] at hw
  subst hw
  rw [decode_eq_checked _ 27#6 (by simp (disch := decide) only [BitVec.extractLsb'_append_eq_of_le, BitVec.extractLsb'_append_eq_of_add_le,
    BitVec.extractLsb'_eq_self, BitVec.reduceExtractLsb', Nat.reduceSub]) rfl]
  simp (disch := decide) only [decodeMap, decLink, BitVec.extractLsb'_append_eq_of_le, BitVec.extractLsb'_append_eq_of_add_le,
    BitVec.extractLsb'_eq_self, BitVec.reduceExtractLsb', Nat.reduceSub, zeroed]
  simp only [checked, hi, ite_true, beq_self_eq_true, Bool.and_self, BitVec.reduceBEq,
    Bool.false_eq_true, if_false]

theorem ldld (a b : BitVec 5) : Statement (.ldld a b) := by
  intro w hw hi
  simp only [encode, Option.some.injEq] at hw
  subst hw
  rw [decode_eq_checked _ 27#6 (by simp (disch := decide) only [BitVec.extractLsb'_append_eq_of_le, BitVec.extractLsb'_append_eq_of_add_le,
    BitVec.extractLsb'_eq_self, BitVec.reduceExtractLsb', Nat.reduceSub]) rfl]
  simp (disch := decide) only [decodeMap, decLink, BitVec.extractLsb'_append_eq_of_le, BitVec.extractLsb'_append_eq_of_add_le,
    BitVec.extractLsb'_eq_self, BitVec.reduceExtractLsb', Nat.reduceSub, zeroed]
  simp only [checked, hi, ite_true, beq_self_eq_true, Bool.and_self, BitVec.reduceBEq,
    Bool.false_eq_true, if_false]

theorem stcw (a b c : BitVec 5) : Statement (.stcw a b c) := by
  intro w hw hi
  simp only [encode, Option.some.injEq] at hw
  subst hw
  rw [decode_eq_checked _ 27#6 (by simp (disch := decide) only [BitVec.extractLsb'_append_eq_of_le, BitVec.extractLsb'_append_eq_of_add_le,
    BitVec.extractLsb'_eq_self, BitVec.reduceExtractLsb', Nat.reduceSub]) rfl]
  simp (disch := decide) only [decodeMap, decLink, BitVec.extractLsb'_append_eq_of_le, BitVec.extractLsb'_append_eq_of_add_le,
    BitVec.extractLsb'_eq_self, BitVec.reduceExtractLsb', Nat.reduceSub, zeroed]
  simp only [checked, hi, ite_true, beq_self_eq_true, Bool.and_self, BitVec.reduceBEq,
    Bool.false_eq_true, if_false]

theorem stcd (a b c : BitVec 5) : Statement (.stcd a b c) := by
  intro w hw hi
  simp only [encode, Option.some.injEq] at hw
  subst hw
  rw [decode_eq_checked _ 27#6 (by simp (disch := decide) only [BitVec.extractLsb'_append_eq_of_le, BitVec.extractLsb'_append_eq_of_add_le,
    BitVec.extractLsb'_eq_self, BitVec.reduceExtractLsb', Nat.reduceSub]) rfl]
  simp (disch := decide) only [decodeMap, decLink, BitVec.extractLsb'_append_eq_of_le, BitVec.extractLsb'_append_eq_of_add_le,
    BitVec.extractLsb'_eq_self, BitVec.reduceExtractLsb', Nat.reduceSub, zeroed]
  simp only [checked, hi, ite_true, beq_self_eq_true, Bool.and_self, BitVec.reduceBEq,
    Bool.false_eq_true, if_false]

theorem ldscw (a b : BitVec 5) : Statement (.ldscw a b) := by
  intro w hw hi
  simp only [encode, Option.some.injEq] at hw
  subst hw
  rw [decode_eq_checked _ 27#6 (by simp (disch := decide) only [BitVec.extractLsb'_append_eq_of_le, BitVec.extractLsb'_append_eq_of_add_le,
    BitVec.extractLsb'_eq_self, BitVec.reduceExtractLsb', Nat.reduceSub]) rfl]
  simp (disch := decide) only [decodeMap, decLink, BitVec.extractLsb'_append_eq_of_le, BitVec.extractLsb'_append_eq_of_add_le,
    BitVec.extractLsb'_eq_self, BitVec.reduceExtractLsb', Nat.reduceSub, zeroed]
  simp only [checked, hi, ite_true, beq_self_eq_true, Bool.and_self, BitVec.reduceBEq,
    Bool.false_eq_true, if_false]

theorem ldscd (a b : BitVec 5) : Statement (.ldscd a b) := by
  intro w hw hi
  simp only [encode, Option.some.injEq] at hw
  subst hw
  rw [decode_eq_checked _ 27#6 (by simp (disch := decide) only [BitVec.extractLsb'_append_eq_of_le, BitVec.extractLsb'_append_eq_of_add_le,
    BitVec.extractLsb'_eq_self, BitVec.reduceExtractLsb', Nat.reduceSub]) rfl]
  simp (disch := decide) only [decodeMap, decLink, BitVec.extractLsb'_append_eq_of_le, BitVec.extractLsb'_append_eq_of_add_le,
    BitVec.extractLsb'_eq_self, BitVec.reduceExtractLsb', Nat.reduceSub, zeroed]
  simp only [checked, hi, ite_true, beq_self_eq_true, Bool.and_self, BitVec.reduceBEq,
    Bool.false_eq_true, if_false]

theorem stscw (a b : BitVec 5) : Statement (.stscw a b) := by
  intro w hw hi
  simp only [encode, Option.some.injEq] at hw
  subst hw
  rw [decode_eq_checked _ 27#6 (by simp (disch := decide) only [BitVec.extractLsb'_append_eq_of_le, BitVec.extractLsb'_append_eq_of_add_le,
    BitVec.extractLsb'_eq_self, BitVec.reduceExtractLsb', Nat.reduceSub]) rfl]
  simp (disch := decide) only [decodeMap, decLink, BitVec.extractLsb'_append_eq_of_le, BitVec.extractLsb'_append_eq_of_add_le,
    BitVec.extractLsb'_eq_self, BitVec.reduceExtractLsb', Nat.reduceSub, zeroed]
  simp only [checked, hi, ite_true, beq_self_eq_true, Bool.and_self, BitVec.reduceBEq,
    Bool.false_eq_true, if_false]

theorem stscd (a b : BitVec 5) : Statement (.stscd a b) := by
  intro w hw hi
  simp only [encode, Option.some.injEq] at hw
  subst hw
  rw [decode_eq_checked _ 27#6 (by simp (disch := decide) only [BitVec.extractLsb'_append_eq_of_le, BitVec.extractLsb'_append_eq_of_add_le,
    BitVec.extractLsb'_eq_self, BitVec.reduceExtractLsb', Nat.reduceSub]) rfl]
  simp (disch := decide) only [decodeMap, decLink, BitVec.extractLsb'_append_eq_of_le, BitVec.extractLsb'_append_eq_of_add_le,
    BitVec.extractLsb'_eq_self, BitVec.reduceExtractLsb', Nat.reduceSub, zeroed]
  simp only [checked, hi, ite_true, beq_self_eq_true, Bool.and_self, BitVec.reduceBEq,
    Bool.false_eq_true, if_false]

theorem bara (b : BitVec 5) : Statement (.bara b) := by
  intro w hw hi
  simp only [encode, Option.some.injEq] at hw
  subst hw
  rw [decode_eq_checked _ 28#6 (by simp (disch := decide) only [BitVec.extractLsb'_append_eq_of_le, BitVec.extractLsb'_append_eq_of_add_le,
    BitVec.extractLsb'_eq_self, BitVec.reduceExtractLsb', Nat.reduceSub]) rfl]
  simp (disch := decide) only [decodeMap, decSync, BitVec.extractLsb'_append_eq_of_le, BitVec.extractLsb'_append_eq_of_add_le,
    BitVec.extractLsb'_eq_self, BitVec.reduceExtractLsb', Nat.reduceSub, zeroed]
  simp only [checked, hi, ite_true, beq_self_eq_true, Bool.and_self, BitVec.reduceBEq,
    Bool.false_eq_true, if_false]

theorem barw (b : BitVec 5) : Statement (.barw b) := by
  intro w hw hi
  simp only [encode, Option.some.injEq] at hw
  subst hw
  rw [decode_eq_checked _ 28#6 (by simp (disch := decide) only [BitVec.extractLsb'_append_eq_of_le, BitVec.extractLsb'_append_eq_of_add_le,
    BitVec.extractLsb'_eq_self, BitVec.reduceExtractLsb', Nat.reduceSub]) rfl]
  simp (disch := decide) only [decodeMap, decSync, BitVec.extractLsb'_append_eq_of_le, BitVec.extractLsb'_append_eq_of_add_le,
    BitVec.extractLsb'_eq_self, BitVec.reduceExtractLsb', Nat.reduceSub, zeroed]
  simp only [checked, hi, ite_true, beq_self_eq_true, Bool.and_self, BitVec.reduceBEq,
    Bool.false_eq_true, if_false]

theorem baraw (b : BitVec 5) : Statement (.baraw b) := by
  intro w hw hi
  simp only [encode, Option.some.injEq] at hw
  subst hw
  rw [decode_eq_checked _ 28#6 (by simp (disch := decide) only [BitVec.extractLsb'_append_eq_of_le, BitVec.extractLsb'_append_eq_of_add_le,
    BitVec.extractLsb'_eq_self, BitVec.reduceExtractLsb', Nat.reduceSub]) rfl]
  simp (disch := decide) only [decodeMap, decSync, BitVec.extractLsb'_append_eq_of_le, BitVec.extractLsb'_append_eq_of_add_le,
    BitVec.extractLsb'_eq_self, BitVec.reduceExtractLsb', Nat.reduceSub, zeroed]
  simp only [checked, hi, ite_true, beq_self_eq_true, Bool.and_self, BitVec.reduceBEq,
    Bool.false_eq_true, if_false]

theorem barset (a b : BitVec 5) : Statement (.barset a b) := by
  intro w hw hi
  simp only [encode, Option.some.injEq] at hw
  subst hw
  rw [decode_eq_checked _ 28#6 (by simp (disch := decide) only [BitVec.extractLsb'_append_eq_of_le, BitVec.extractLsb'_append_eq_of_add_le,
    BitVec.extractLsb'_eq_self, BitVec.reduceExtractLsb', Nat.reduceSub]) rfl]
  simp (disch := decide) only [decodeMap, decSync, BitVec.extractLsb'_append_eq_of_le, BitVec.extractLsb'_append_eq_of_add_le,
    BitVec.extractLsb'_eq_self, BitVec.reduceExtractLsb', Nat.reduceSub, zeroed]
  simp only [checked, hi, ite_true, beq_self_eq_true, Bool.and_self, BitVec.reduceBEq,
    Bool.false_eq_true, if_false]

theorem qdrain (q : BitVec 4) : Statement (.qdrain q) := by
  intro w hw hi
  simp only [encode, Option.some.injEq] at hw
  subst hw
  rw [decode_eq_checked _ 28#6 (by simp (disch := decide) only [BitVec.extractLsb'_append_eq_of_le, BitVec.extractLsb'_append_eq_of_add_le,
    BitVec.extractLsb'_eq_self, BitVec.reduceExtractLsb', Nat.reduceSub]) rfl]
  simp (disch := decide) only [decodeMap, decSync, BitVec.extractLsb'_append_eq_of_le, BitVec.extractLsb'_append_eq_of_add_le,
    BitVec.extractLsb'_eq_self, BitVec.reduceExtractLsb', Nat.reduceSub, zeroed]
  simp only [checked, hi, ite_true, beq_self_eq_true, Bool.and_self, BitVec.reduceBEq,
    Bool.false_eq_true, if_false]

theorem fence (s : BitVec 2) (b a : BitVec 6) : Statement (.fence s b a) := by
  intro w hw hi
  simp only [encode, Option.some.injEq] at hw
  subst hw
  rw [decode_eq_checked _ 29#6 (by simp (disch := decide) only [BitVec.extractLsb'_append_eq_of_le, BitVec.extractLsb'_append_eq_of_add_le,
    BitVec.extractLsb'_eq_self, BitVec.reduceExtractLsb', Nat.reduceSub]) rfl]
  simp (disch := decide) only [decodeMap, BitVec.extractLsb'_append_eq_of_le, BitVec.extractLsb'_append_eq_of_add_le,
    BitVec.extractLsb'_eq_self, BitVec.reduceExtractLsb', Nat.reduceSub, zeroed]
  simp only [checked, hi, ite_true, beq_self_eq_true, Bool.and_self, BitVec.reduceBEq,
    Bool.false_eq_true, if_false]

theorem mfs (a : BitVec 5) (n : BitVec 12) : Statement (.mfs a n) := by
  intro w hw hi
  simp only [encode, Option.some.injEq] at hw
  subst hw
  rw [decode_eq_checked _ 31#6 (by simp (disch := decide) only [BitVec.extractLsb'_append_eq_of_le, BitVec.extractLsb'_append_eq_of_add_le,
    BitVec.extractLsb'_eq_self, BitVec.reduceExtractLsb', Nat.reduceSub]) rfl]
  simp (disch := decide) only [decodeMap, decState, BitVec.extractLsb'_append_eq_of_le, BitVec.extractLsb'_append_eq_of_add_le,
    BitVec.extractLsb'_eq_self, BitVec.reduceExtractLsb', Nat.reduceSub, zeroed]
  simp only [checked, hi, ite_true, beq_self_eq_true, Bool.and_self, BitVec.reduceBEq,
    Bool.false_eq_true, if_false]

theorem mts (b : BitVec 5) (n : BitVec 12) : Statement (.mts b n) := by
  intro w hw hi
  simp only [encode, Option.some.injEq] at hw
  subst hw
  rw [decode_eq_checked _ 31#6 (by simp (disch := decide) only [BitVec.extractLsb'_append_eq_of_le, BitVec.extractLsb'_append_eq_of_add_le,
    BitVec.extractLsb'_eq_self, BitVec.reduceExtractLsb', Nat.reduceSub]) rfl]
  simp (disch := decide) only [decodeMap, decState, BitVec.extractLsb'_append_eq_of_le, BitVec.extractLsb'_append_eq_of_add_le,
    BitVec.extractLsb'_eq_self, BitVec.reduceExtractLsb', Nat.reduceSub, zeroed]
  simp only [checked, hi, ite_true, beq_self_eq_true, Bool.and_self, BitVec.reduceBEq,
    Bool.false_eq_true, if_false]

theorem sets (b : BitVec 5) (n : BitVec 12) : Statement (.sets b n) := by
  intro w hw hi
  simp only [encode, Option.some.injEq] at hw
  subst hw
  rw [decode_eq_checked _ 31#6 (by simp (disch := decide) only [BitVec.extractLsb'_append_eq_of_le, BitVec.extractLsb'_append_eq_of_add_le,
    BitVec.extractLsb'_eq_self, BitVec.reduceExtractLsb', Nat.reduceSub]) rfl]
  simp (disch := decide) only [decodeMap, decState, BitVec.extractLsb'_append_eq_of_le, BitVec.extractLsb'_append_eq_of_add_le,
    BitVec.extractLsb'_eq_self, BitVec.reduceExtractLsb', Nat.reduceSub, zeroed]
  simp only [checked, hi, ite_true, beq_self_eq_true, Bool.and_self, BitVec.reduceBEq,
    Bool.false_eq_true, if_false]

theorem clrs (b : BitVec 5) (n : BitVec 12) : Statement (.clrs b n) := by
  intro w hw hi
  simp only [encode, Option.some.injEq] at hw
  subst hw
  rw [decode_eq_checked _ 31#6 (by simp (disch := decide) only [BitVec.extractLsb'_append_eq_of_le, BitVec.extractLsb'_append_eq_of_add_le,
    BitVec.extractLsb'_eq_self, BitVec.reduceExtractLsb', Nat.reduceSub]) rfl]
  simp (disch := decide) only [decodeMap, decState, BitVec.extractLsb'_append_eq_of_le, BitVec.extractLsb'_append_eq_of_add_le,
    BitVec.extractLsb'_eq_self, BitVec.reduceExtractLsb', Nat.reduceSub, zeroed]
  simp only [checked, hi, ite_true, beq_self_eq_true, Bool.and_self, BitVec.reduceBEq,
    Bool.false_eq_true, if_false]

theorem gbara : Statement .gbara := by
  intro w hw hi
  simp only [encode, Option.some.injEq] at hw
  subst hw
  rw [decode_eq_checked _ 28#6 (by simp (disch := decide) only [BitVec.extractLsb'_append_eq_of_le, BitVec.extractLsb'_append_eq_of_add_le,
    BitVec.extractLsb'_eq_self, BitVec.reduceExtractLsb', Nat.reduceSub]) rfl]
  simp (disch := decide) only [decodeMap, decSync, BitVec.extractLsb'_append_eq_of_le, BitVec.extractLsb'_append_eq_of_add_le,
    BitVec.extractLsb'_eq_self, BitVec.reduceExtractLsb', Nat.reduceSub, zeroed]
  simp only [checked, hi, ite_true, beq_self_eq_true, Bool.and_self, BitVec.reduceBEq,
    Bool.false_eq_true, if_false]

theorem gbarw : Statement .gbarw := by
  intro w hw hi
  simp only [encode, Option.some.injEq] at hw
  subst hw
  rw [decode_eq_checked _ 28#6 (by simp (disch := decide) only [BitVec.extractLsb'_append_eq_of_le, BitVec.extractLsb'_append_eq_of_add_le,
    BitVec.extractLsb'_eq_self, BitVec.reduceExtractLsb', Nat.reduceSub]) rfl]
  simp (disch := decide) only [decodeMap, decSync, BitVec.extractLsb'_append_eq_of_le, BitVec.extractLsb'_append_eq_of_add_le,
    BitVec.extractLsb'_eq_self, BitVec.reduceExtractLsb', Nat.reduceSub, zeroed]
  simp only [checked, hi, ite_true, beq_self_eq_true, Bool.and_self, BitVec.reduceBEq,
    Bool.false_eq_true, if_false]

theorem wfe : Statement .wfe := by
  intro w hw hi
  simp only [encode, Option.some.injEq] at hw
  subst hw
  rw [decode_eq_checked _ 28#6 (by simp (disch := decide) only [BitVec.extractLsb'_append_eq_of_le, BitVec.extractLsb'_append_eq_of_add_le,
    BitVec.extractLsb'_eq_self, BitVec.reduceExtractLsb', Nat.reduceSub]) rfl]
  simp (disch := decide) only [decodeMap, decSync, BitVec.extractLsb'_append_eq_of_le, BitVec.extractLsb'_append_eq_of_add_le,
    BitVec.extractLsb'_eq_self, BitVec.reduceExtractLsb', Nat.reduceSub, zeroed]
  simp only [checked, hi, ite_true, beq_self_eq_true, Bool.and_self, BitVec.reduceBEq,
    Bool.false_eq_true, if_false]

theorem nop : Statement .nop := by
  intro w hw hi
  simp only [encode, Option.some.injEq] at hw
  subst hw
  rw [decode_eq_checked _ 30#6 (by simp (disch := decide) only [BitVec.extractLsb'_append_eq_of_le, BitVec.extractLsb'_append_eq_of_add_le,
    BitVec.extractLsb'_eq_self, BitVec.reduceExtractLsb', Nat.reduceSub]) rfl]
  simp (disch := decide) only [decodeMap, decSys, BitVec.extractLsb'_append_eq_of_le, BitVec.extractLsb'_append_eq_of_add_le,
    BitVec.extractLsb'_eq_self, BitVec.reduceExtractLsb', Nat.reduceSub, zeroed]
  simp only [checked, hi, ite_true, beq_self_eq_true, Bool.and_self, BitVec.reduceBEq,
    Bool.false_eq_true, if_false]

theorem trapu : Statement .trapu := by
  intro w hw hi
  simp only [encode, Option.some.injEq] at hw
  subst hw
  rw [decode_eq_checked _ 30#6 (by simp (disch := decide) only [BitVec.extractLsb'_append_eq_of_le, BitVec.extractLsb'_append_eq_of_add_le,
    BitVec.extractLsb'_eq_self, BitVec.reduceExtractLsb', Nat.reduceSub]) rfl]
  simp (disch := decide) only [decodeMap, decSys, BitVec.extractLsb'_append_eq_of_le, BitVec.extractLsb'_append_eq_of_add_le,
    BitVec.extractLsb'_eq_self, BitVec.reduceExtractLsb', Nat.reduceSub, zeroed]
  simp only [checked, hi, ite_true, beq_self_eq_true, Bool.and_self, BitVec.reduceBEq,
    Bool.false_eq_true, if_false]

theorem eret : Statement .eret := by
  intro w hw hi
  simp only [encode, Option.some.injEq] at hw
  subst hw
  rw [decode_eq_checked _ 30#6 (by simp (disch := decide) only [BitVec.extractLsb'_append_eq_of_le, BitVec.extractLsb'_append_eq_of_add_le,
    BitVec.extractLsb'_eq_self, BitVec.reduceExtractLsb', Nat.reduceSub]) rfl]
  simp (disch := decide) only [decodeMap, decSys, BitVec.extractLsb'_append_eq_of_le, BitVec.extractLsb'_append_eq_of_add_le,
    BitVec.extractLsb'_eq_self, BitVec.reduceExtractLsb', Nat.reduceSub, zeroed]
  simp only [checked, hi, ite_true, beq_self_eq_true, Bool.and_self, BitVec.reduceBEq,
    Bool.false_eq_true, if_false]

theorem uiret : Statement .uiret := by
  intro w hw hi
  simp only [encode, Option.some.injEq] at hw
  subst hw
  rw [decode_eq_checked _ 30#6 (by simp (disch := decide) only [BitVec.extractLsb'_append_eq_of_le, BitVec.extractLsb'_append_eq_of_add_le,
    BitVec.extractLsb'_eq_self, BitVec.reduceExtractLsb', Nat.reduceSub]) rfl]
  simp (disch := decide) only [decodeMap, decSys, BitVec.extractLsb'_append_eq_of_le, BitVec.extractLsb'_append_eq_of_add_le,
    BitVec.extractLsb'_eq_self, BitVec.reduceExtractLsb', Nat.reduceSub, zeroed]
  simp only [checked, hi, ite_true, beq_self_eq_true, Bool.and_self, BitVec.reduceBEq,
    Bool.false_eq_true, if_false]

theorem brk : Statement .brk := by
  intro w hw hi
  simp only [encode, Option.some.injEq] at hw
  subst hw
  rw [decode_eq_checked _ 30#6 (by simp (disch := decide) only [BitVec.extractLsb'_append_eq_of_le, BitVec.extractLsb'_append_eq_of_add_le,
    BitVec.extractLsb'_eq_self, BitVec.reduceExtractLsb', Nat.reduceSub]) rfl]
  simp (disch := decide) only [decodeMap, decSys, BitVec.extractLsb'_append_eq_of_le, BitVec.extractLsb'_append_eq_of_add_le,
    BitVec.extractLsb'_eq_self, BitVec.reduceExtractLsb', Nat.reduceSub, zeroed]
  simp only [checked, hi, ite_true, beq_self_eq_true, Bool.and_self, BitVec.reduceBEq,
    Bool.false_eq_true, if_false]

theorem halt : Statement .halt := by
  intro w hw hi
  simp only [encode, Option.some.injEq] at hw
  subst hw
  rw [decode_eq_checked _ 30#6 (by simp (disch := decide) only [BitVec.extractLsb'_append_eq_of_le, BitVec.extractLsb'_append_eq_of_add_le,
    BitVec.extractLsb'_eq_self, BitVec.reduceExtractLsb', Nat.reduceSub]) rfl]
  simp (disch := decide) only [decodeMap, decSys, BitVec.extractLsb'_append_eq_of_le, BitVec.extractLsb'_append_eq_of_add_le,
    BitVec.extractLsb'_eq_self, BitVec.reduceExtractLsb', Nat.reduceSub, zeroed]
  simp only [checked, hi, ite_true, beq_self_eq_true, Bool.and_self, BitVec.reduceBEq,
    Bool.false_eq_true, if_false]

theorem exit : Statement .exit := by
  intro w hw hi
  simp only [encode, Option.some.injEq] at hw
  subst hw
  rw [decode_eq_checked _ 30#6 (by simp (disch := decide) only [BitVec.extractLsb'_append_eq_of_le, BitVec.extractLsb'_append_eq_of_add_le,
    BitVec.extractLsb'_eq_self, BitVec.reduceExtractLsb', Nat.reduceSub]) rfl]
  simp (disch := decide) only [decodeMap, decSys, BitVec.extractLsb'_append_eq_of_le, BitVec.extractLsb'_append_eq_of_add_le,
    BitVec.extractLsb'_eq_self, BitVec.reduceExtractLsb', Nat.reduceSub, zeroed]
  simp only [checked, hi, ite_true, beq_self_eq_true, Bool.and_self, BitVec.reduceBEq,
    Bool.false_eq_true, if_false]

theorem tlbinv : Statement .tlbinv := by
  intro w hw hi
  simp only [encode, Option.some.injEq] at hw
  subst hw
  rw [decode_eq_checked _ 30#6 (by simp (disch := decide) only [BitVec.extractLsb'_append_eq_of_le, BitVec.extractLsb'_append_eq_of_add_le,
    BitVec.extractLsb'_eq_self, BitVec.reduceExtractLsb', Nat.reduceSub]) rfl]
  simp (disch := decide) only [decodeMap, decSys, BitVec.extractLsb'_append_eq_of_le, BitVec.extractLsb'_append_eq_of_add_le,
    BitVec.extractLsb'_eq_self, BitVec.reduceExtractLsb', Nat.reduceSub, zeroed]
  simp only [checked, hi, ite_true, beq_self_eq_true, Bool.and_self, BitVec.reduceBEq,
    Bool.false_eq_true, if_false]

theorem moff : Statement .moff := by
  intro w hw hi
  simp only [encode, Option.some.injEq] at hw
  subst hw
  rw [decode_eq_checked _ 54#6 (by simp (disch := decide) only [BitVec.extractLsb'_append_eq_of_le, BitVec.extractLsb'_append_eq_of_add_le,
    BitVec.extractLsb'_eq_self, BitVec.reduceExtractLsb', Nat.reduceSub]) rfl]
  simp (disch := decide) only [decodeMap, decodeEngines, decMat, BitVec.extractLsb'_append_eq_of_le, BitVec.extractLsb'_append_eq_of_add_le,
    BitVec.extractLsb'_eq_self, BitVec.reduceExtractLsb', Nat.reduceSub, zeroed]
  simp only [checked, hi, ite_true, beq_self_eq_true, Bool.and_self, BitVec.reduceBEq,
    Bool.false_eq_true, if_false]

theorem sclear : Statement .sclear := by
  intro w hw hi
  simp only [encode, Option.some.injEq] at hw
  subst hw
  rw [decode_eq_checked _ 56#6 (by simp (disch := decide) only [BitVec.extractLsb'_append_eq_of_le, BitVec.extractLsb'_append_eq_of_add_le,
    BitVec.extractLsb'_eq_self, BitVec.reduceExtractLsb', Nat.reduceSub]) rfl]
  simp (disch := decide) only [decodeMap, decodeEngines, decSlalom, BitVec.extractLsb'_append_eq_of_le, BitVec.extractLsb'_append_eq_of_add_le,
    BitVec.extractLsb'_eq_self, BitVec.reduceExtractLsb', Nat.reduceSub, zeroed]
  simp only [checked, hi, ite_true, beq_self_eq_true, Bool.and_self, BitVec.reduceBEq,
    Bool.false_eq_true, if_false]

theorem noInstruction (w : BitVec 32) : Statement (.noInstruction w) := fun _ hw _ => by
  simp only [encode, reduceCtorEq] at hw

theorem sliceAdmit (core : Nat) : Statement (.sliceAdmit core) := fun _ hw _ => by
  simp only [encode, reduceCtorEq] at hw

theorem elementFire (slot elem : Nat) : Statement (.elementFire slot elem) := fun _ hw _ => by
  simp only [encode, reduceCtorEq] at hw

theorem loadReturn (slot elem : Nat) : Statement (.loadReturn slot elem) := fun _ hw _ => by
  simp only [encode, reduceCtorEq] at hw

theorem gatherCommand (slot : Nat) : Statement (.gatherCommand slot) := fun _ hw _ => by
  simp only [encode, reduceCtorEq] at hw

theorem storeGroupWrite (slot grp : Nat) : Statement (.storeGroupWrite slot grp) := fun _ hw _ => by
  simp only [encode, reduceCtorEq] at hw

theorem pageWalk (va : BitVec 64) (kind : BitVec 2) : Statement (.pageWalk va kind) := fun _ hw _ => by
  simp only [encode, reduceCtorEq] at hw

theorem channelAccess (agent : BitVec 64) (pa : BitVec 46) (size : Nat) (isWrite : Bool) (data : BitVec 64) : Statement (.channelAccess agent pa size isWrite data) := fun _ hw _ => by
  simp only [encode, reduceCtorEq] at hw

theorem copyLine (pos line : Nat) : Statement (.copyLine pos line) := fun _ hw _ => by
  simp only [encode, reduceCtorEq] at hw

theorem copyComplete (pos : Nat) : Statement (.copyComplete pos) := fun _ hw _ => by
  simp only [encode, reduceCtorEq] at hw

theorem copyFaultStop (pos line : Nat) : Statement (.copyFaultStop pos line) := fun _ hw _ => by
  simp only [encode, reduceCtorEq] at hw

theorem relayDataArrive (slot : Nat) : Statement (.relayDataArrive slot) := fun _ hw _ => by
  simp only [encode, reduceCtorEq] at hw

theorem relayEndMarker (slot : Nat) : Statement (.relayEndMarker slot) := fun _ hw _ => by
  simp only [encode, reduceCtorEq] at hw

theorem preemption (gang : BitVec 32) : Statement (.preemption gang) := fun _ hw _ => by
  simp only [encode, reduceCtorEq] at hw

theorem gangPlace (queue : Nat) : Statement (.gangPlace queue) := fun _ hw _ => by
  simp only [encode, reduceCtorEq] at hw

theorem gangResume (gang : BitVec 32) (gvlen : Nat) : Statement (.gangResume gang gvlen) := fun _ hw _ => by
  simp only [encode, reduceCtorEq] at hw

theorem ageingExpiry (queue : Nat) : Statement (.ageingExpiry queue) := fun _ hw _ => by
  simp only [encode, reduceCtorEq] at hw

theorem timeShareExpiry (gang : BitVec 32) : Statement (.timeShareExpiry gang) := fun _ hw _ => by
  simp only [encode, reduceCtorEq] at hw

theorem kill (gang : BitVec 32) (reason : BitVec 64) : Statement (.kill gang reason) := fun _ hw _ => by
  simp only [encode, reduceCtorEq] at hw

theorem gangCompletion (gang : BitVec 32) : Statement (.gangCompletion gang) := fun _ hw _ => by
  simp only [encode, reduceCtorEq] at hw

theorem wsServingEntry (die : Nat) : Statement (.wsServingEntry die) := fun _ hw _ => by
  simp only [encode, reduceCtorEq] at hw

theorem scrub (sector : Nat) (corrected : Bool) : Statement (.scrub sector corrected) := fun _ hw _ => by
  simp only [encode, reduceCtorEq] at hw

theorem eccError (struct : BitVec 8) (die core : Nat) (uncorr : Bool) (line : Nat) : Statement (.eccError struct die core uncorr line) := fun _ hw _ => by
  simp only [encode, reduceCtorEq] at hw

theorem linkCrcError (link : Nat) (retrainOk : Bool) : Statement (.linkCrcError link retrainOk) := fun _ hw _ => by
  simp only [encode, reduceCtorEq] at hw

theorem packageUnreachable (pkg : BitVec 6) : Statement (.packageUnreachable pkg) := fun _ hw _ => by
  simp only [encode, reduceCtorEq] at hw

theorem droopEvent (island : Nat) : Statement (.droopEvent island) := fun _ hw _ => by
  simp only [encode, reduceCtorEq] at hw

theorem calibration (cluster : Nat) (failed : Option Nat) : Statement (.calibration cluster failed) := fun _ hw _ => by
  simp only [encode, reduceCtorEq] at hw

theorem coldStart (trained : Bool) : Statement (.coldStart trained) := fun _ hw _ => by
  simp only [encode, reduceCtorEq] at hw

theorem warmStart (fingerprintOk trained : Bool) : Statement (.warmStart fingerprintOk trained) := fun _ hw _ => by
  simp only [encode, reduceCtorEq] at hw

theorem codeObjectCheck (queue : Nat) : Statement (.codeObjectCheck queue) := fun _ hw _ => by
  simp only [encode, reduceCtorEq] at hw

theorem hostAccess (offset : Nat) (size : Nat) (isWrite : Bool) (data : BitVec 64) : Statement (.hostAccess offset size isWrite data) := fun _ hw _ => by
  simp only [encode, reduceCtorEq] at hw

theorem qtailWrite (queue : Nat) (value : BitVec 64) : Statement (.qtailWrite queue value) := fun _ hw _ => by
  simp only [encode, reduceCtorEq] at hw

theorem qctlResume (queue : Nat) : Statement (.qctlResume queue) := fun _ hw _ => by
  simp only [encode, reduceCtorEq] at hw

theorem qctlMref (queue : Nat) : Statement (.qctlMref queue) := fun _ hw _ => by
  simp only [encode, reduceCtorEq] at hw

theorem qctlQreset (queue : Nat) : Statement (.qctlQreset queue) := fun _ hw _ => by
  simp only [encode, reduceCtorEq] at hw

theorem qctlSwout (queue : Nat) : Statement (.qctlSwout queue) := fun _ hw _ => by
  simp only [encode, reduceCtorEq] at hw

theorem qctlSwin (queue : Nat) : Statement (.qctlSwin queue) := fun _ hw _ => by
  simp only [encode, reduceCtorEq] at hw

theorem qkillWrite (queue : Nat) (gang : BitVec 32) : Statement (.qkillWrite queue gang) := fun _ hw _ => by
  simp only [encode, reduceCtorEq] at hw

theorem qerrRead (queue : Nat) : Statement (.qerrRead queue) := fun _ hw _ => by
  simp only [encode, reduceCtorEq] at hw

theorem ctempTmaxRead (cluster : Nat) : Statement (.ctempTmaxRead cluster) := fun _ hw _ => by
  simp only [encode, reduceCtorEq] at hw

theorem islandDroopRead (island : Nat) : Statement (.islandDroopRead island) := fun _ hw _ => by
  simp only [encode, reduceCtorEq] at hw

theorem fencesetWrite (k : Nat) (value : BitVec 64) : Statement (.fencesetWrite k value) := fun _ hw _ => by
  simp only [encode, reduceCtorEq] at hw

theorem fenceclrWrite (k : Nat) (value : BitVec 64) : Statement (.fenceclrWrite k value) := fun _ hw _ => by
  simp only [encode, reduceCtorEq] at hw

theorem hostRegWrite (offset : Nat) (value : BitVec 64) : Statement (.hostRegWrite offset value) := fun _ hw _ => by
  simp only [encode, reduceCtorEq] at hw

theorem kernelPacket (queue : Nat) : Statement (.kernelPacket queue) := fun _ hw _ => by
  simp only [encode, reduceCtorEq] at hw

theorem padPacket (queue : Nat) : Statement (.padPacket queue) := fun _ hw _ => by
  simp only [encode, reduceCtorEq] at hw

theorem waitPacket (queue : Nat) : Statement (.waitPacket queue) := fun _ hw _ => by
  simp only [encode, reduceCtorEq] at hw

theorem waitPoll (queue : Nat) : Statement (.waitPoll queue) := fun _ hw _ => by
  simp only [encode, reduceCtorEq] at hw

theorem signalPacket (queue : Nat) : Statement (.signalPacket queue) := fun _ hw _ => by
  simp only [encode, reduceCtorEq] at hw

theorem signalWrite (queue : Nat) : Statement (.signalWrite queue) := fun _ hw _ => by
  simp only [encode, reduceCtorEq] at hw

theorem wsloadPacket (queue : Nat) : Statement (.wsloadPacket queue) := fun _ hw _ => by
  simp only [encode, reduceCtorEq] at hw

theorem gangsyncPacket (queue : Nat) : Statement (.gangsyncPacket queue) := fun _ hw _ => by
  simp only [encode, reduceCtorEq] at hw

theorem gangsyncReserved (queue : Nat) (pkg : BitVec 6) (ok : Bool) : Statement (.gangsyncReserved queue pkg ok) := fun _ hw _ => by
  simp only [encode, reduceCtorEq] at hw

theorem gangsyncCommit (queue : Nat) (gang : BitVec 32) (before total : Nat) : Statement (.gangsyncCommit queue gang before total) := fun _ hw _ => by
  simp only [encode, reduceCtorEq] at hw

theorem gangsyncAbort (queue : Nat) : Statement (.gangsyncAbort queue) := fun _ hw _ => by
  simp only [encode, reduceCtorEq] at hw

theorem mirrorWrite (queue : Nat) : Statement (.mirrorWrite queue) := fun _ hw _ => by
  simp only [encode, reduceCtorEq] at hw

theorem flaralLinkUp (link : Nat) (pkg : BitVec 6) : Statement (.flaralLinkUp link pkg) := fun _ hw _ => by
  simp only [encode, reduceCtorEq] at hw

theorem commitTick (gang : BitVec 32) : Statement (.commitTick gang) := fun _ hw _ => by
  simp only [encode, reduceCtorEq] at hw

theorem windowRetire : Statement .windowRetire := fun _ hw _ => by
  simp only [encode, reduceCtorEq] at hw

theorem pressPairReceive : Statement .pressPairReceive := fun _ hw _ => by
  simp only [encode, reduceCtorEq] at hw

theorem userTrapAsync : Statement .userTrapAsync := fun _ hw _ => by
  simp only [encode, reduceCtorEq] at hw

theorem supervisorTrap : Statement .supervisorTrap := fun _ hw _ => by
  simp only [encode, reduceCtorEq] at hw

theorem elementStep : Statement .elementStep := fun _ hw _ => by
  simp only [encode, reduceCtorEq] at hw

theorem watchdog : Statement .watchdog := fun _ hw _ => by
  simp only [encode, reduceCtorEq] at hw

theorem islandEvaluate : Statement .islandEvaluate := fun _ hw _ => by
  simp only [encode, reduceCtorEq] at hw

theorem tickSync : Statement .tickSync := fun _ hw _ => by
  simp only [encode, reduceCtorEq] at hw

theorem errstatRead : Statement .errstatRead := fun _ hw _ => by
  simp only [encode, reduceCtorEq] at hw

theorem errrecRead : Statement .errrecRead := fun _ hw _ => by
  simp only [encode, reduceCtorEq] at hw

end Sys2Proof.Laws.RoundTrip
end

