-- ==== Sys2Proof/Laws/Running.lean ====
section
/-! SUPPORT. What keeps the invariant while an entry runs: its fills and appends, its loads and stores, its effect, and the
entry of an instruction as a whole. -/

namespace Sys2Proof.Machine

/-! ### Strands -/

theorem Strand.Ok.put {st : Strand} (h : st.Ok) (d : VReg) (w e v : Nat) : (st.put d w e v).Ok := by
  unfold Strand.put
  rw [Strand.setRbits_rest]
  exact h.same rfl rfl

theorem Strand.Ok.raise {st : Strand} (h : st.Ok) (f : Flags) : (st.raise f).Ok := h.same rfl rfl

theorem Strand.Ok.write {st : Strand} (h : st.Ok) (sel : Nat → Bool) (x : VWrite) : (st.write sel x).Ok := by
  rw [Strand.write_rest]
  exact h.same rfl rfl

theorem Strand.Ok.writeTail {st : Strand} (h : st.Ok) (en : Entry) (x : VWrite) : (st.writeTail en x).Ok := by
  rw [Strand.writeTail_rest]
  exact h.same rfl rfl

theorem Strand.Ok.fire {st : Strand} (h : st.Ok) (x : Eff) (sel : Nat → Bool) : (x.fire sel st).Ok := by
  rw [Eff.fire_rest]
  exact h.same rfl rfl

theorem Strand.Ok.tails {st : Strand} (h : st.Ok) (x : Eff) (en : Entry) : (x.tails en st).Ok := by
  rw [Eff.tails_rest]
  exact h.same rfl rfl

theorem Strand.Ok.returnG {st : Strand} (h : st.Ok) (en : Entry) (x : Option Word) : (st.returnG en x).Ok := by
  rw [Strand.returnG_rest]
  exact h.same rfl rfl

theorem Strand.Ok.setSlot {st : Strand} (h : st.Ok) (i : Nat) (f : Slot → Slot) : (st.setSlot i f).Ok := h.same rfl rfl

/-- A fold of acts that keep a strand legal. -/
theorem foldl_ok {α : Type} {f : Strand → α → Strand} (hf : ∀ st a, st.Ok → (f st a).Ok) (l : List α) {st : Strand} (h : st.Ok) :
    (l.foldl f st).Ok := by
  induction l generalizing st with
  | nil => exact h
  | cons a t ih => exact ih (hf st a h)

theorem Strand.Ok.loadTails {st : Strand} (h : st.Ok) (p : LoadPlan) (en : Entry) : (p.tails en st).Ok :=
  foldl_ok (fun _ _ h => h.writeTail _ _) _ h

theorem Strand.Ok.fireBy {st : Strand} (h : st.Ok) (x : Eff) (sel : Nat → Nat → Bool) : (x.fireBy sel st).Ok :=
  (foldl_ok (fun _ _ h => h.write _ _) _ h).raise _

theorem Strand.Ok.fireLeft {st : Strand} (h : st.Ok) (s : State) (en : Entry) (x : Eff) : (fireLeft s en x st).Ok := by
  unfold Sys2Proof.Machine.fireLeft
  split
  · exact h.fire _ _
  · exact h.fireBy _ _

theorem Strand.Ok.land {st : Strand} (h : st.Ok) (p : LoadPlan) (e : Nat) (x : List Nat × Flags) : (p.land e x st).Ok :=
  (foldl_ok (fun _ _ h => h.put _ _ _ _) _ h).raise _

theorem Strand.Ok.zero {st : Strand} (h : st.Ok) (p : LoadPlan) (en : Entry) (e : Nat) : (p.zero en e st).Ok := by
  unfold LoadPlan.zero
  split
  · exact foldl_ok (fun _ _ h => h.put _ _ _ _) _ h
  · exact h

theorem Strand.Ok.keep {st : Strand} (h : st.Ok) (old : Strand) (d : Stretch) : (old.keep st d).Ok := by
  unfold Strand.keep
  split
  · exact h.same rfl rfl
  · exact h

theorem State.Inv.under {s : State} (h : s.Inv) (old : State) (k : Nat) : (s.under old k).Inv :=
  h.upd (foldl_ok (fun _ _ h => h.keep _ _) _ h.cur)

theorem Strand.Ok.seeded {st : Strand} (h : st.Ok) (x : BitVec 32) : ({ st with srseed := x } : Strand).Ok := h.same rfl rfl

/-! ### Runs -/

/-- The state that a run leads to has the invariant. -/
def Ran.Fine (r : Ran) : Prop :=
  match r with
  | .done s => s.Inv
  | .stop s _ _ _ _ => s.Inv
  | .kill s _ _ => s.Inv
  | .wait s _ => s.Inv

theorem Ran.Fine.of {r q : Ran} (h : r.Fine) (he : r = q) : q.Fine := he ▸ h

theorem readStream_inv {s : State} (h : s.Inv) (k : Slot) (i : Nat) : (readStream s k i).Fine := by
  unfold readStream
  split
  · split
    · rename_i hl; exact (h.load _ _).ok hl
    · trivial
    · rename_i hl; exact (h.load _ _).kill hl
  · split
    · rename_i hl; exact (h.load _ _).ok hl
    · trivial
    · rename_i hl; exact (h.load _ _).kill hl

theorem fillValue_inv {s : State} (h : s.Inv) (k : Slot) (e i : Nat) : (fillValue s k e i).Fine := by
  unfold fillValue
  split
  · exact h
  · split
    · trivial
    · rename_i hs; exact (readStream_inv h _ _).kill hs
    · rename_i hs
      have h1 := (readStream_inv h _ _).ok hs
      split
      · split
        · trivial
        · rename_i hl; exact (h1.load _ _).kill hl
        · rename_i hl; exact (h1.load _ _).ok hl
      · exact h1

theorem fillFrom_fine {s : State} (h : s.Inv) (en : Entry) (k : Slot) (r : BitVec 5) (i e n : Nat) :
    (fillFrom en k r s i e n).Fine := by
  induction n generalizing s i e with
  | zero => exact h
  | succ n ih =>
    unfold fillFrom
    split
    · exact h
    · rename_i hv; exact (fillValue_inv h _ _ _).kill hv
    · rename_i hv
      have h1 := (fillValue_inv h _ _ _).ok hv
      exact ih (h1.upd ((h1.cur.put _ _ _ _).raise _)) _ _

theorem fills_fine {s : State} (h : s.Inv) (en : Entry) (later : List Entry) (e n : Nat) (l : List (BitVec 5)) :
    (fills en later e n s l).Fine := by
  induction l generalizing s with
  | nil => exact h
  | cons r t ih =>
    unfold fills
    split
    · exact ih h
    · rename_i i _
      have hf := fillFrom_fine h en (s.cur.slotAt i) r ((streamStart s.cur i later fun x => x.foot.vs.contains r) + e) e n
      split
      · rename_i hd
        rw [hd] at hf
        exact ih hf
      · exact hf

theorem acceptSpans_inv {s : State} (h : s.Inv) (strip : Nat) (l : List Span) : (acceptSpans strip s l).Inv := by
  unfold acceptSpans
  split
  · exact h.updSame rfl rfl
  · exact writeSpans_inv h l

theorem appends_inv {s : State} (h : s.Inv) (en : Entry) (e n : Nat) (l : List (BitVec 5 × Nat × Nat)) :
    (appends s en e n l).Inv :=
  foldl_inv (fun s x hs => by
    unfold appendGroup
    have h1 := acceptSpans_inv hs en.strip (appendSpans en (s.cur.slotAt x.2.1) x.1 s (x.2.2 + e) e n)
    exact h1.upd (h1.cur.raise _)) l h

/-- A load whose accesses keep the invariant. -/
structure LoadPlan.Fine (p : LoadPlan) : Prop where
  get : ∀ s e, s.Inv → (p.get s e).Fine
  first : ∀ s, s.Inv → (p.first s).Inv

/-- An effect that keeps it. -/
def Body.Fine : Body → Prop
  | .load plan => ∀ st en, (plan st en).Fine
  | .run f => ∀ s en, s.Inv → (f s en).Fine
  | .parts f tails => (∀ st s en u, s.Inv → (f st s en u).Fine) ∧ ∀ s en st, st.Ok → (tails s en st).Ok
  | .cond _ x y => x.Fine ∧ y.Fine
  | .regs _ | .drawn _ _ | .store _ | .sample _ => True

theorem LoadPlan.Fine.start {p : LoadPlan} (hp : p.Fine) {s : State} (h : s.Inv) (b : Bool) : (if b then p.first s else s).Inv := by
  split
  · exact hp.first s h
  · exact h

theorem loadFrom_fine {p : LoadPlan} (hp : p.Fine) (en : Entry) (b : Bool) {s : State} (h : s.Inv)
    (e k : Nat) : (loadFrom p en b s e k).Fine := by
  induction k generalizing s b e with
  | zero => exact hp.start h b
  | succ k ih =>
    unfold loadFrom
    split
    · exact ih b h _
    · split
      · split
        · rename_i hg
          have h1 := (hp.get _ _ (hp.start h b)).ok hg
          exact ih false (h1.upd (h1.cur.land _ _ _)) _
        · exact h
        · rename_i hg; exact (hp.get _ _ (hp.start h b)).kill hg
      · exact ih b (h.upd (h.cur.zero _ _ _)) _

theorem StorePlan.write_inv {s : State} (h : s.Inv) (p : StorePlan) (en : Entry) (g : Nat) (l : List Span) :
    (p.write en g l s).Inv := by
  unfold StorePlan.write
  have h1 := acceptSpans_inv h en.strip l
  exact h1.upd (h1.cur.raise _)

theorem storeFrom_fine (p : StorePlan) (en : Entry) {s : State} (h : s.Inv) (g k : Nat) : (storeFrom p en s g k).Fine := by
  induction k generalizing s g with
  | zero => exact h
  | succ k ih =>
    unfold storeFrom
    split
    · exact ih h _
    · split
      · exact h
      · exact ih (StorePlan.write_inv h _ _ _ _) _

theorem partsFrom_fine {f : State → Entry → Nat → Ran} (hf : ∀ s en u, s.Inv → (f s en u).Fine) (U : Units) {s : State}
    (h : s.Inv) (en : Entry) (l : List Nat) : (partsFrom f U s en l).Fine := by
  induction l generalizing s en with
  | nil => exact h
  | cons u t ih =>
    unfold partsFrom
    have h1 := hf s en u h
    split <;> rename_i hd <;> rw [hd] at h1
    · exact ih h1 _
    · exact h1
    · exact h1
    · exact h1

theorem Ran.Fine.holding {r : Ran} (h : r.Fine) (x : Seat) (st : Strand) : (r.holding x st).Fine := by
  cases r <;> exact h

theorem runParts_fine {f : Strand → State → Entry → Nat → Ran} (hf : ∀ st s en u, s.Inv → (f st s en u).Fine) (x : Seat)
    {s : State} (h : s.Inv) (us : List Nat) : (runParts f x s us).Fine := by
  exact (partsFrom_fine (hf _) x.units h x.en us).holding x s.cur

theorem runBody_fine {b : Body} (hb : b.Fine) {s : State} (h : s.Inv) (en : Entry) (older : List Entry) :
    (runBody b s en older).Fine := by
  induction b with
  | regs eff =>
    simp only [runBody]
    split
    · exact h.upd (h.cur.returnG _ _)
    · exact h.upd (((h.cur.fireLeft s en _).tails _ _).returnG _ _)
  | drawn eff seed =>
    simp only [runBody]
    split
    · exact h
    · exact h.upd (f := fun st => _) (((h.cur.fireLeft s en _).tails _ _).seeded _)
  | load plan =>
    simp only [runBody]
    split
    · exact h
    · have hl := loadFrom_fine (hb (en.reading s.cur) en) en ((plan (en.reading s.cur) en).fresh en) h 0
        (plan (en.reading s.cur) en).n
      split
      · rename_i hd
        rw [hd] at hl
        exact State.Inv.upd hl (hl.cur.loadTails _ _)
      · exact hl.holding _ _
  | store plan =>
    simp only [runBody]
    split
    · exact h
    · exact storeFrom_fine _ en h 0 en.ngrp
  | sample f => exact h.upd (h.cur.returnG _ _)
  | run f => exact hb s en h
  | parts f tails =>
    simp only [runBody]
    split
    · exact h
    · have hr := runParts_fine hb.1 (s.headSeat en) h ((s.headSeat en).units.left en)
      split
      · rename_i hd
        rw [hd] at hr
        exact State.Inv.upd hr (hb.2 _ _ _ (State.Inv.cur hr))
      · exact hr
  | cond c x y hx hy =>
    simp only [runBody]
    split
    · exact hx hb.1
    · exact hy hb.2

/-! ### Acts -/

theorem loadEach_fine {p : LoadPlan} (hp : p.Fine) (en : Entry) (b : Bool) {s : State} (h : s.Inv) (l : List Nat) :
    (loadEach p en b s l).Fine := by
  induction l generalizing s b with
  | nil => exact h
  | cons e t ih =>
    unfold loadEach
    split
    · split
      · rename_i hg
        have h1 := (hp.get _ _ (hp.start h b)).ok hg
        exact ih false (h1.upd (h1.cur.land _ _ _))
      · exact h
      · rename_i hg; exact (hp.get _ _ (hp.start h b)).kill hg
    · exact ih b (h.upd (h.cur.zero _ _ _))

theorem storeEach_fine (p : StorePlan) (en : Entry) {s : State} (h : s.Inv) (l : List Nat) : (storeEach p en s l).Fine := by
  induction l generalizing s with
  | nil => exact h
  | cons g t ih =>
    unfold storeEach
    split
    · exact h
    · exact ih (StorePlan.write_inv h _ _ _ _)

theorem unitsBody_fine {b : Body} (hb : b.Fine) {s : State} (h : s.Inv) (x : Seat) (older : List Entry) (us : List Nat) :
    (unitsBody b s x older us).Fine := by
  induction b with
  | regs eff =>
    simp only [unitsBody]
    split
    · exact h.upd (h.cur.returnG _ _)
    · exact h.upd ((h.cur.fireBy _ _).returnG _ _)
  | drawn eff seed =>
    simp only [unitsBody]
    split
    · exact h
    · exact h.upd (f := fun st => _) ((h.cur.fireBy _ _).seeded _)
  | load plan =>
    have hp := hb (x.en.reading s.cur) x.en
    simp only [unitsBody]
    split
    · exact h
    · have hl := loadEach_fine hp x.en ((plan (x.en.reading s.cur) x.en).fresh x.en) h us
      split
      · rename_i hd
        rw [hd] at hl
        exact hp.start hl _
      · rename_i hd
        rw [hd] at hl
        split
        · exact h
        · exact hl
      · exact hl
  | store plan =>
    simp only [unitsBody]
    split
    · exact h
    · exact storeEach_fine _ _ h us
  | sample f => exact h.upd (h.cur.returnG _ _)
  | run f => exact hb s x.en h
  | parts f tails =>
    simp only [unitsBody]
    split
    · exact h
    · exact runParts_fine hb.1 x h us
  | cond c y z hy hz =>
    simp only [unitsBody]
    split
    · exact hy hb.1
    · exact hz hb.2

theorem Body.tails_ok {b : Body} (hb : b.Fine) (s : State) (en : Entry) {st : Strand} (h : st.Ok) : (b.tails s en st).Ok := by
  induction b with
  | regs eff => unfold Body.tails; split; exact h; exact h.tails _ _
  | drawn eff seed => unfold Body.tails; split; exact h; exact h.tails _ _
  | load plan => unfold Body.tails; split; exact h; exact h.loadTails _ _
  | store plan => unfold Body.tails; split <;> exact h
  | sample f => unfold Body.tails; split <;> exact h
  | run f => unfold Body.tails; split <;> exact h
  | parts f tails => unfold Body.tails; split; exact h; exact hb.2 s en st h
  | cond c x y hx hy =>
    unfold Body.tails
    split
    · exact h
    · dsimp only
      split
      · exact hx hb.1
      · exact hy hb.2

theorem fillAct_fine (x : Seat) (later : List Entry) {s : State} (h : s.Inv) (us : List Nat) : (fillAct x later s us).Fine := by
  unfold fillAct
  simp only
  split
  · have hf : ∀ (l : List Nat) (r : Ran), r.Fine →
        (l.foldl (fun r u => match r with
          | .done s1 => fills x.en later u 1 s1 (x.en.fillRegs s.cur)
          | y => y) r).Fine := by
      intro l
      induction l with
      | nil => exact fun _ hr => hr
      | cons u t ih =>
        intro r hr
        rw [List.foldl_cons]
        refine ih _ ?_
        split
        · exact fills_fine hr _ _ _ _ _
        · exact hr
    exact hf us (.done s) h
  · split
    · exact h
    · have hf := fills_fine h x.en later 0 x.en.n (x.en.fillRegs s.cur)
      split
      · rename_i hd
        rw [hd] at hf
        refine Ran.Fine.of (r := .done _) ?_ rfl
        split
        · exact State.Inv.upd (s := _) hf (foldl_ok (fun _ _ h => h.keep _ _) _ (State.Inv.cur hf))
        · exact hf
      · exact hf

theorem runAct_fine {op : WOp} (hb : op.body.Fine) {s : State} (h : s.Inv) (x : Seat) (older later : List Entry) (us : List Nat)
    (tail : Bool) : (runAct op s x older later us tail).Fine := by
  unfold runAct
  have hf := fillAct_fine x later h us
  split
  · rename_i s1 hd
    rw [hd] at hf
    simp only
    split
    · exact h
    · have hr := unitsBody_fine hb (s := s1) hf x older us
      split
      · rename_i hd2
        rw [hd2] at hr
        refine foldl_inv (f := fun (s : State) (r : Nat × Nat) => appends s x.en r.1 r.2 (appendsOf s1.cur later (x.en.appendRegs s1.cur)))
          (fun _ _ hs => appends_inv hs _ _ _ _) (x.appended us) ?_
        split
        · exact State.Inv.upd hr (Body.tails_ok hb _ _ (State.Inv.cur hr))
        · exact hr
      · exact hr
  · exact h
  · exact hf

theorem runActs_fine {op : WOp} (hb : op.body.Fine) (later : List Entry) {s : State} (h : s.Inv) (en : Entry) (k : Nat) :
    (runActs op later s en k).Fine := by
  induction k generalizing s en with
  | zero => exact h.upd (Body.tails_ok hb _ _ h.cur)
  | succ k ih =>
    unfold runActs
    simp only
    split
    · exact h.upd (Body.tails_ok hb _ _ h.cur)
    · rename_i u _ _
      have ha := runAct_fine hb h (s.headSeat en) [] later (s.actOf (s.headSeat en) later u)
        ((s.headSeat en).completes (s.actOf (s.headSeat en) later u))
      generalize runAct op s _ _ _ _ _ = r at ha
      cases r with
      | done s1 =>
        simp only
        split
        · exact ha
        · exact ih ha _
      | stop s1 _ c t e => exact ha
      | wait s1 _ => exact ha
      | kill s1 r e => exact ha

theorem runFilled_fine {op : WOp} (hb : op.body.Fine) (later : List Entry) {s : State} (h : s.Inv) (en : Entry) :
    (runFilled op later s en).Fine := by
  unfold runFilled
  have hf := fillAct_fine (s.headSeat en) later h []
  split
  · rename_i hd
    rw [hd] at hf
    exact runBody_fine hb hf _ _
  · exact hf

theorem runEntry_fine {op : WOp} (hb : op.body.Fine) {s : State} (h : s.Inv) (en : Entry) (older later : List Entry) :
    (runEntry op s en older later).Fine := by
  unfold runEntry
  split
  · exact h
  · split
    · exact runFilled_fine hb later h en
    · split
      · exact runActs_fine hb later h en _
      · exact runBody_fine hb h en older

theorem Ran.Fine.under {r : Ran} (h : r.Fine) (old : State) : (r.under old).Fine := by
  cases r with
  | done s => exact State.Inv.under h old 0
  | stop s en c t e => exact State.Inv.under (s := s) h old 0
  | kill s r e => exact h
  | wait s en => exact State.Inv.under (s := s) h old 0

/-- A window that holds the entries of a list, at most 16. -/
theorem State.Inv.setWindow {s : State} (h : s.Inv) {l : List Entry} (hl : l.length ≤ 16) :
    (s.upd fun st => { st with window := l }).Inv := h.upd (h.cur.of rfl hl)

theorem settle_keeps {rest : List Entry} (hl : rest.length < 16) {r : Ran} (hr : r.Fine) : Keeps (settle rest r) := by
  have hc : ∀ en : Entry, (en :: rest).length ≤ 16 := fun en => by simp only [List.length_cons]; omega
  cases r with
  | done s =>
    have hs : s.Inv := hr
    exact .next (hs.upd (f := fun st => { st with window := rest, wcount := 0 }) (hs.cur.of rfl (Nat.le_of_lt hl)))
  | stop s en c t e =>
    exact .next ((State.Inv.setWindow (s := s) hr (hc { en with detected := some ⟨c, t, BitVec.ofNat 32 e⟩ })).trap _)
  | kill s r e => exact .next (State.Inv.killSelf hr _ _)
  | wait s en => exact .next (State.Inv.setWindow (s := s) hr (hc en))

theorem runHead_keeps {op : WOp} (hb : op.body.Fine) {s : State} (h : s.Inv) : Keeps (runHead op s) := by
  unfold runHead
  have hl := h.cur.window
  split
  · exact .next h
  · rename_i en hw
    exact settle_keeps (by simp) (runEntry_fine hb h en [] _)
  · rename_i en rest _ hw
    rw [hw, List.length_cons] at hl
    exact settle_keeps (by omega) ((runEntry_fine hb h en [] _).under s)

/-! ### Entering -/

/-- A windowed instruction whose checks, entry and effect keep the invariant. -/
structure WOp.Fine (op : WOp) : Prop where
  cause : ∀ s, s.Inv → (op.cause s).Fine
  same : ∀ s t, op.cause s = .ok t () → t.cur.window = s.cur.window
  onEnter : ∀ st, (op.onEnter st).frm = st.frm ∧ (op.onEnter st).window = st.window
  body : op.body.Fine

theorem bumpStreams_same (st : Strand) (n : Nat) (w : Bool) (l : List (BitVec 5)) :
    (bumpStreams st n w l).frm = st.frm ∧ (bumpStreams st n w l).window = st.window := by
  unfold bumpStreams
  induction l generalizing st with
  | nil => exact ⟨rfl, rfl⟩
  | cons r t ih =>
    simp only [List.foldl_cons]
    split
    · exact ih st
    · exact ih _

theorem enter_ok {op : WOp} (ho : op.Fine) {st : Strand} (h : st.Ok) (hw : st.window.length < 16) : (enter op st).Ok := by
  unfold enter
  simp only
  have h1 := bumpStreams_same st (entryFor op st).n false ((entryFor op st).vsrc)
  have h2 := bumpStreams_same (bumpStreams st (entryFor op st).n false ((entryFor op st).vsrc)) (entryFor op st).n true
    ((entryFor op st).vdst)
  have h3 := ho.onEnter (bumpStreams (bumpStreams st (entryFor op st).n false ((entryFor op st).vsrc)) (entryFor op st).n true
    ((entryFor op st).vdst))
  refine h.of ?_ ?_
  · exact h3.1.trans (h2.1.trans h1.1)
  · simp only [List.length_append, List.length_cons, List.length_nil, h3.2, h2.2, h1.2]
    omega

theorem enterChecked_keeps {op : WOp} (ho : op.Fine) {s : State} (h : s.Inv) (hw : s.cur.window.length < 16) (live : Bool) :
    Keeps (enterChecked op live s) := by
  unfold enterChecked
  simp only
  split
  · exact trapAt_keeps h _ _
  · have h1 : (s.upd (enter op)).Inv := h.upd (enter_ok ho h.cur hw)
    unfold afterEntry
    split
    · exact .next h1
    · exact runHead_keeps ho.body h1

/-- The issue of a windowed instruction keeps the invariant. -/
theorem issue_keeps {op : WOp} (ho : op.Fine) {s : State} (h : s.Inv) : Keeps (issue op s) := by
  unfold issue
  refine awaitG_keeps h ?_
  split
  · exact .next (h.stall _)
  · rename_i hp
    have hw : s.cur.window.length < 16 := by
      simp only [noPlace, Bool.or_eq_true, decide_eq_true_eq, not_or] at hp
      omega
    simp only
    split
    · exact trapAt_keeps h _ _
    · split
      · exact trapAt_keeps h _ _
      · split
        · exact trapAt_keeps h _ _
        · split
          · exact trapAt_keeps h _ _
          · split
            · exact trapAt_keeps h _ _
            · rename_i hc
              refine .next (State.Inv.killSelf ?_ _ _)
              split at hc
              · exact (ho.cause s h).kill hc
              · cases hc
            · rename_i hc
              have hk : ∀ t : State, (if (s.cur.vl != 0#32 || op.anyVl) = true then op.cause s else Acc.ok s ()) = .ok t () →
                  t.Inv ∧ t.cur.window = s.cur.window := by
                intro t ht
                split at ht
                · exact ⟨(ho.cause s h).ok ht, ho.same s t ht⟩
                · cases ht
                  exact ⟨h, rfl⟩
              have h1 := hk _ hc
              split
              · exact .next (h.stall _)
              · exact enterChecked_keeps ho h1.1 (by rw [h1.2]; exact hw) _

end Sys2Proof.Machine
end

