-- ==== Sys2Proof/Laws/Trap.lean ====
section
/-! SUPPORT. Blocks that the machine writes to memory: a block of fields reads back field by field, and its other bytes are
zero. -/

set_option Elab.async false

namespace Sys2Proof.Machine

/-! ### Writing a field into zeroed bytes -/

/-- A byte that the value does not reach is as before. -/
theorem Sparse.get_poke_out (m : Sparse Byte) (pa n x : Nat) {a : Nat} (h : a < pa ∨ x < 256 ^ (a - pa)) :
    Sparse.get 0 (Sparse.poke m pa n x) a = Sparse.get 0 m a := by
  induction n generalizing m pa x with
  | zero => rfl
  | succ n ih =>
    unfold Sparse.poke
    split
    · rfl
    · next hx =>
      have ha : a ≠ pa := by
        rintro rfl
        rcases h with h | h
        · omega
        · simp at h; exact hx h
      rw [ih, Sparse.get_put_other _ ha]
      rcases h with h | h
      · exact .inl (by omega)
      · by_cases hp : a < pa + 1
        · exact .inl hp
        · refine .inr ?_
          rw [show a - pa = (a - (pa + 1)) + 1 by omega, Nat.pow_succ] at h
          exact (Nat.div_lt_iff_lt_mul (by omega)).2 h

/-- A byte that was zero holds the value's byte. -/
theorem Sparse.get_poke_in {m : Sparse Byte} (hw : Sparse.wf 0 m = true) (pa n x : Nat) {i : Nat} (hi : i < n)
    (h0 : Sparse.get 0 m (pa + i) = 0) : Sparse.get 0 (Sparse.poke m pa n x) (pa + i) = BitVec.ofNat 8 (x / 256 ^ i) := by
  induction n generalizing m pa x i with
  | zero => omega
  | succ n ih =>
    unfold Sparse.poke
    split
    · next hx => rw [h0, hx, Nat.zero_div]; rfl
    · cases i with
      | zero =>
        rw [Sparse.get_poke_out _ _ _ _ (.inl (by omega)), Nat.add_zero, Sparse.get_put_same hw]
        simp
      | succ i =>
        have := ih (m := Sparse.put 0 m pa (BitVec.ofNat 8 x)) (Sparse.wf_put hw _ _) (pa + 1) (x / 256) (i := i) (by omega)
          (by rw [Sparse.get_put_other _ (by omega), ← h0]; congr 1; omega)
        rw [show pa + (i + 1) = pa + 1 + i by omega, this, Nat.div_div_eq_div_mul, Nat.pow_succ, Nat.mul_comm]

/-! ### Blocks -/

/-- A field does not reach a byte of the block. -/
def Misses (f : Nat × Nat) (a : Nat) : Prop := a < f.1 ∨ f.2 < 256 ^ (a - f.1)

theorem Sparse.get_pokes_out (m : Sparse Byte) (base len a : Nat) (l : List (Nat × Nat)) (h : ∀ f ∈ l, Misses f a) :
    Sparse.get 0 (l.foldl (fun m f => Sparse.poke m (base + f.1) len f.2) m) (base + a) = Sparse.get 0 m (base + a) := by
  induction l generalizing m with
  | nil => rfl
  | cons f t ih =>
    rw [List.foldl_cons, ih _ fun g hg => h g (by simp [hg]), Sparse.get_poke_out]
    rcases h f (by simp) with hf | hf
    · exact .inl (by omega)
    · exact .inr (by rw [show base + a - (base + f.1) = a - f.1 by omega]; exact hf)

theorem Sparse.get_filter [DecidableEq α] {d : α} {m : Sparse α} {lo : Nat} (hw : Sparse.wfFrom d lo m = true) (p : Nat → Bool)
    (k : Nat) : Sparse.get d (m.filter fun x => p x.1) k = if p k then Sparse.get d m k else d := by
  induction m generalizing lo with
  | nil => simp [Sparse.get]
  | cons x r ih =>
    simp only [Sparse.wfFrom, Bool.and_eq_true, decide_eq_true_eq] at hw
    by_cases hx : x.1 = k
    · subst hx
      by_cases hp : p x.1 = true
      · simp [hp, Sparse.get]
      · rw [List.filter_cons, if_neg (by simpa using hp), ih hw.2, if_neg hp, if_neg hp]
    · have hg : Sparse.get d (x :: r) k = Sparse.get d r k := by rw [Sparse.get, if_neg hx]
      rw [hg, ← ih hw.2, List.filter_cons]
      by_cases hp : p x.1 = true
      · rw [if_pos hp, Sparse.get, if_neg hx]
      · rw [if_neg hp]

/-- The bytes in which the fields are written: the block is zero. -/
def Sparse.cleared (m : Sparse Byte) (base len : Nat) : Sparse Byte :=
  m.filter fun p => decide (p.1 < base) || decide (base + len ≤ p.1)

theorem Sparse.wf_cleared {m : Sparse Byte} (h : Sparse.wf 0 m = true) (base len : Nat) :
    Sparse.wf 0 (Sparse.cleared m base len) = true := Sparse.wf_filter _ h

theorem Sparse.get_cleared {m : Sparse Byte} (h : Sparse.wf 0 m = true) (base len a : Nat) :
    Sparse.get 0 (Sparse.cleared m base len) a = if a < base ∨ base + len ≤ a then Sparse.get 0 m a else 0 := by
  unfold Sparse.cleared
  rw [Sparse.get_filter h (fun a => decide (a < base) || decide (base + len ≤ a))]
  simp

theorem Sparse.block_eq (m : Sparse Byte) (base len : Nat) (l : List (Nat × Nat)) :
    Sparse.block m base len l = l.foldl (fun m f => Sparse.poke m (base + f.1) len f.2) (Sparse.cleared m base len) := rfl

/-- A byte outside the block is as before, when no field reaches beyond it. -/
theorem Sparse.get_block_out {m : Sparse Byte} (h : Sparse.wf 0 m = true) {base len a : Nat} {l : List (Nat × Nat)}
    (ha : a < base ∨ base + len ≤ a) (hl : ∀ f ∈ l, f.2 < 256 ^ (len - f.1) ∧ f.1 ≤ len) :
    Sparse.get 0 (Sparse.block m base len l) a = Sparse.get 0 m a := by
  rw [Sparse.block_eq]
  rcases ha with ha | ha
  · have : ∀ (l : List (Nat × Nat)) (t : Sparse Byte),
        Sparse.get 0 (l.foldl (fun m f => Sparse.poke m (base + f.1) len f.2) t) a = Sparse.get 0 t a := by
      intro l
      induction l with
      | nil => intro t; rfl
      | cons f r ih => intro t; rw [List.foldl_cons, ih, Sparse.get_poke_out _ _ _ _ (.inl (by omega))]
    rw [this, Sparse.get_cleared h, if_pos (.inl ha)]
  · obtain ⟨k, rfl⟩ : ∃ k, a = base + k := ⟨a - base, by omega⟩
    rw [Sparse.get_pokes_out, Sparse.get_cleared h, if_pos (.inr ha)]
    intro f hf
    refine .inr (Nat.lt_of_lt_of_le (hl f hf).1 (Nat.pow_le_pow_right (by omega) (by omega)))

/-- A byte of the block that no field reaches is zero. -/
theorem Sparse.get_block_zero {m : Sparse Byte} (h : Sparse.wf 0 m = true) {base len a : Nat} {l : List (Nat × Nat)}
    (ha : a < len) (hl : ∀ f ∈ l, Misses f a) : Sparse.get 0 (Sparse.block m base len l) (base + a) = 0 := by
  rw [Sparse.block_eq, Sparse.get_pokes_out _ _ _ _ _ hl, Sparse.get_cleared h, if_neg (by omega)]

/-- A byte of a field that no other field reaches. -/
theorem Sparse.get_block_field {m : Sparse Byte} (h : Sparse.wf 0 m = true) {base len : Nat} {l1 l2 : List (Nat × Nat)}
    {o x i : Nat} (hi : i < len) (ho : o + i < len) (hl : ∀ f ∈ l1 ++ l2, Misses f (o + i)) :
    Sparse.get 0 (Sparse.block m base len (l1 ++ (o, x) :: l2)) (base + (o + i)) = BitVec.ofNat 8 (x / 256 ^ i) := by
  rw [Sparse.block_eq, List.foldl_append, List.foldl_cons,
    Sparse.get_pokes_out _ _ _ _ _ fun f hf => hl f (by simp [hf])]
  rw [← Nat.add_assoc, Sparse.get_poke_in (Sparse.wf_pokes (Sparse.wf_cleared h _ _) _ _ _) _ _ _ hi]
  rw [Nat.add_assoc, Sparse.get_pokes_out _ _ _ _ _ fun f hf => hl f (by simp [hf]), Sparse.get_cleared h,
    if_neg (by omega)]

/-- A field that no other field reaches reads back. -/
theorem Sparse.read_block {m : Sparse Byte} (h : Sparse.wf 0 m = true) {base len w : Nat} {l : List (Nat × Nat)} {o x : Nat}
    (hm : (o, x) ∈ l) (hx : x < 256 ^ w) (ho : o + w ≤ len) (hu : ∀ f ∈ l, f ≠ (o, x) → ∀ i < w, Misses f (o + i))
    (hd : l.Nodup) : leBytes (Sparse.get 0 (Sparse.block m base len l)) (base + o) w = x := by
  obtain ⟨l1, l2, rfl⟩ := List.append_of_mem hm
  have hn : ∀ f ∈ l1 ++ l2, f ≠ (o, x) := by
    intro f hf he
    subst he
    rw [List.nodup_append] at hd
    rcases List.mem_append.1 hf with hf | hf
    · exact hd.2.2 _ hf _ (by simp) rfl
    · have := (List.nodup_cons.1 hd.2.1).1
      exact this hf
  rw [leBytes_bytes (x := x), Nat.mod_eq_of_lt hx]
  intro i hi
  rw [Nat.add_assoc]
  exact Sparse.get_block_field h (by omega) (by omega) fun f hf =>
    hu f (by simp only [List.mem_append, List.mem_cons] at hf ⊢; rcases hf with h | h <;> simp [h]) (hn f hf) i hi

/-- A part of a number of `m` bytes. -/
theorem leBytes_part (f : Nat → Byte) (a : Nat) {o n m : Nat} (h : o + n ≤ m) :
    leBytes f (a + o) n = leBytes f a m / 256 ^ o % 256 ^ n := by
  have hb : ∀ (k a : Nat), leBytes f a k < 256 ^ k := by
    intro k
    induction k with
    | zero => intro a; simp [leBytes]
    | succ k ih =>
      intro a
      have := ih (a + 1)
      have := (f a).isLt
      rw [leBytes, Nat.pow_succ]
      omega
  have hs : ∀ (j k a : Nat), leBytes f a (j + k) = leBytes f a j + 256 ^ j * leBytes f (a + j) k := by
    intro j
    induction j with
    | zero => intro k a; simp [leBytes]
    | succ j ih =>
      intro k a
      rw [show j + 1 + k = j + k + 1 by omega, leBytes, leBytes, ih, show a + 1 + j = a + (j + 1) by omega, Nat.pow_succ,
        Nat.mul_add, ← Nat.mul_assoc, Nat.mul_comm 256 (256 ^ j), Nat.add_assoc]
  obtain ⟨k, rfl⟩ : ∃ k, m = o + (n + k) := ⟨m - o - n, by omega⟩
  rw [hs o, hs n, Nat.add_mul_div_left _ _ (Nat.two_pow_pos 8 |> fun _ => Nat.pow_pos (by omega)), Nat.div_eq_of_lt (hb o a),
    Nat.zero_add, Nat.add_mul_mod_self_left, Nat.mod_eq_of_lt (hb n _)]

/-! ### Blocks where they are served -/

/-- A block changes the memory that serves it, and the tags of its lines. -/
theorem State.writeBlock_rest (s : State) (base len : Nat) (l : List (Nat × Nat)) :
    s.writeBlock base len l =
      { s with mem := (s.writeBlock base len l).mem, hostMem := (s.writeBlock base len l).hostMem,
               links := (s.writeBlock base len l).links } := by
  unfold State.writeBlock
  split <;> rfl

theorem State.wf_writeBlock {s : State} (h : Memory.wf s = true) (base len : Nat) (l : List (Nat × Nat)) :
    Memory.wf (s.writeBlock base len l) = true := by
  rw [Memory.wf_iff] at h ⊢
  unfold State.writeBlock
  split
  · exact ⟨h.1, Sparse.wf_block h.2.1 _ _ _, h.2.2⟩
  · exact ⟨Sparse.wf_block h.1 _ _ _, h.2⟩

/-- The place that serves the start of a block that can be written; each of its doublewords is served after it. -/
theorem State.blockOk_place {s : State} {base len : Nat} (h : s.blockOk base len = true) (ha : base % 4096 = 0) :
    ∃ l, s.locate base = some l ∧ ∀ o < len, s.locate (base + o - (base + o) % 8) = some (l.plus (o - o % 8)) := by
  unfold State.blockOk at h
  simp only [Bool.and_eq_true, beq_iff_eq] at h
  obtain ⟨⟨⟨h1, h2⟩, h3⟩, h4⟩ := h
  have hp : ∀ o < len, populated (base + o - (base + o) % 8) = true ∧ paPkg (base + o - (base + o) % 8) = paPkg base ∧
      paDie (base + o - (base + o) % 8) = paDie base ∧
      paOffset (base + o - (base + o) % 8) = paOffset base + (o - o % 8) := by
    intro o ho
    simp only [populated, Bool.and_eq_true, beq_iff_eq, decide_eq_true_eq] at h1 h2
    unfold paOffset at h1 h2
    have hx : base + o - (base + o) % 8 = base + (o - o % 8) := by omega
    have he : o - o % 8 < len := by omega
    rw [hx]
    generalize o - o % 8 = e at he ⊢
    have hl : (base + len - 1) % 2 ^ 36 = base % 2 ^ 36 + (len - 1) := by omega
    have hq : (base + e) / 2 ^ 36 = base / 2 ^ 36 := by omega
    have hr : (base + e) % 2 ^ 36 = base % 2 ^ 36 + e := by omega
    have d38 : ∀ x : Nat, x / 2 ^ 38 = x / 2 ^ 36 / 4 := fun x => by omega
    have d40 : ∀ x : Nat, x / 2 ^ 40 = x / 2 ^ 36 / 16 := fun x => by omega
    have h38 : base / 2 ^ 36 / 4 % 4 = 0 := by rw [← d38]; exact h1.1.1
    have h46 : base + e < 2 ^ 46 := by omega
    have hlt : base % 2 ^ 36 + e < 0xC00000000 := by omega
    simp only [populated, Bool.and_eq_true, beq_iff_eq, decide_eq_true_eq, paPkg, paDie, paOffset, d38, d40, hq, hr]
    exact ⟨⟨⟨h38, hlt⟩, h46⟩, trivial, trivial, trivial⟩
  cases hl : s.locate base with
  | none => rw [hl] at h4; exact absurd h4 (by simp)
  | some l =>
    rw [hl] at h4
    refine ⟨l, rfl, fun o ho => ?_⟩
    obtain ⟨p1, p2, p3, p4⟩ := hp o ho
    unfold State.locate at hl ⊢
    rw [if_neg (by simp [h1])] at hl
    rw [if_neg (by simp [p1]), p2]
    by_cases ho1 : paPkg base = s.mgmt.pkg.toNat
    · rw [if_pos ho1] at hl ⊢
      simp only [Option.some.injEq] at hl
      subst hl
      rw [show base + o - (base + o) % 8 = base + (o - o % 8) by omega]
      rfl
    · rw [if_neg ho1] at hl ⊢
      by_cases ho2 : paPkg base = s.mgmt.hostpkg.toNat
      · rw [if_pos ho2] at hl ⊢
        rw [p3, p4]
        split at hl
        · simp only [Option.some.injEq] at hl
          subst hl
          simp only [Loc.carried, List.all_eq_true, List.mem_range] at h4
          have := h4 (o / 8) (by omega)
          rw [show paOffset base + (o - o % 8) + 2 ^ 36 * paDie base = paOffset base + 2 ^ 36 * paDie base + 8 * (o / 8) by omega,
            if_pos this, show o - o % 8 = 8 * (o / 8) by omega]
          rfl
        · exact absurd hl (by simp)
      · rw [if_neg ho2] at hl ⊢
        split at hl
        · next hr =>
          rw [if_pos hr]
          simp only [Option.some.injEq] at hl
          subst hl
          rw [show base + o - (base + o) % 8 = base + (o - o % 8) by omega]
          rfl
        · exact absurd hl (by simp)

theorem State.locate_writeBlock (s : State) (base len : Nat) (l : List (Nat × Nat)) (pa : Nat) :
    (s.writeBlock base len l).locate pa = s.locate pa := by
  rw [State.writeBlock_rest]
  rfl

/-- What a block that has been written reads as, from an offset on: the bytes of the memory that serves it. -/
theorem State.physRead_writeBlock {s : State} {base len : Nat} (h : s.blockOk base len = true) (ha : base % 4096 = 0)
    (l : List (Nat × Nat)) {o : Nat} (ho : o < len) (w : Nat) :
    ∃ m b, (Memory.wf s = true → Sparse.wf 0 m = true) ∧
      (s.writeBlock base len l).physRead (base + o) w = leBytes (Sparse.get 0 (Sparse.block m b len l)) (b + o) w := by
  obtain ⟨p, hp, hq⟩ := State.blockOk_place h ha
  unfold State.physRead
  rw [State.locate_writeBlock, hq o ho]
  unfold State.writeBlock
  rw [hp]
  cases p with
  | dev pa =>
    exact ⟨s.mem, base, fun hm => ((Memory.wf_iff s).1 hm).1, rfl⟩
  | host a =>
    refine ⟨s.hostMem, a, fun hm => ((Memory.wf_iff s).1 hm).2.1, ?_⟩
    simp only [Loc.plus]
    rw [show a + (o - o % 8) + (base + o) % 8 = a + o by omega]
    rfl

/-- A field of a block that no other field reaches reads back. -/
theorem State.physRead_field {s : State} (h : Memory.wf s = true) {base len w : Nat} (hb : s.blockOk base len = true)
    (ha : base % 4096 = 0) {l : List (Nat × Nat)} {o x : Nat} (hm : (o, x) ∈ l) (hx : x < 256 ^ w) (h0 : 0 < w)
    (ho : o + w ≤ len) (hu : ∀ f ∈ l, f ≠ (o, x) → ∀ i < w, Misses f (o + i)) (hd : l.Nodup) :
    (s.writeBlock base len l).physRead (base + o) w = x := by
  obtain ⟨m, b, hw, he⟩ := State.physRead_writeBlock hb ha l (o := o) (by omega) w
  rw [he]
  exact Sparse.read_block (hw h) hm hx ho hu hd

/-- A part of a block that no field reaches reads as zero. -/
theorem State.physRead_zero {s : State} (h : Memory.wf s = true) {base len w : Nat} (hb : s.blockOk base len = true)
    (ha : base % 4096 = 0) {l : List (Nat × Nat)} {o : Nat} (ho : o + w ≤ len) (h0 : 0 < w)
    (hu : ∀ f ∈ l, ∀ i < w, Misses f (o + i)) : (s.writeBlock base len l).physRead (base + o) w = 0 := by
  obtain ⟨m, b, hw, he⟩ := State.physRead_writeBlock hb ha l (o := o) (by omega) w
  rw [he, leBytes_bytes (x := 0), Nat.zero_mod]
  intro i hi
  rw [Nat.add_assoc, Sparse.get_block_zero (hw h) (by omega) fun f hf => hu f hf i hi]
  simp

/-! ### The trap record of a strand with an empty window -/

/-- Width in bytes of the field at an offset of the record, its window part apart. -/
def recordWidth (o : Nat) : Nat :=
  if o = 4 ∨ o = 6 then 2 else if o = 0 ∨ (0x10 ≤ o ∧ o < 0x20) then 4 else 8

/-- Offsets of the fields of the record, its window part apart. -/
def recordOffsets : List Nat :=
  [0x00, 0x04, 0x06, 0x08, 0x10, 0x14, 0x18, 0x1C, 0x20, 0x28, 0x30, 0x38] ++ ((List.range 32).map fun i => 0x40 + 8 * i) ++
  ((List.range 6).map fun i => 0x140 + 8 * i) ++ (List.range 16).map fun i => 0x180 + 8 * i

theorem zipIdx_map_fst (l : List α) (f : α × Nat → Nat × Nat) (b : Nat) (h : ∀ p, (f p).1 = b + 8 * p.2) :
    (l.zipIdx.map f).map (·.1) = (List.range l.length).map fun i => b + 8 * i := by
  apply List.ext_getElem
  · simp
  · intro i h1 h2
    simp [h]

theorem recordFields_offsets (st : Strand) (full : Bool) (tepc : Word) (h : st.window = []) :
    (recordFields st full tepc).map (·.1) = recordOffsets := by
  unfold recordFields recordOffsets
  simp only [List.map_append, h, List.zipIdx_nil, List.map_nil, List.append_nil]
  rw [zipIdx_map_fst _ _ 0x40 (fun _ => rfl), zipIdx_map_fst _ _ 0x140 (fun _ => rfl),
    zipIdx_map_fst _ _ 0x180 (fun _ => rfl)]
  simp [Strand.stateWords]

theorem sum_le_mul (l : List Nat) (b : Nat) (h : ∀ x ∈ l, x ≤ b) : l.sum ≤ l.length * b := by
  induction l with
  | nil => simp
  | cons x t ih =>
    have := h x (by simp)
    have := ih fun y hy => h y (by simp [hy])
    rw [List.sum_cons, List.length_cons, Nat.add_mul]
    omega

theorem slotBits_lt (st : Strand) : st.slotBits < 2 ^ 32 := by
  have key : ∀ {α : Type} (l : List α) (p : α → Bool), l.length = 8 →
      (l.zipIdx.map fun x => if p x.1 then 2 ^ x.2 else 0).sum ≤ 1024 := by
    intro α l p hl
    have := sum_le_mul (l.zipIdx.map fun x => if p x.1 then 2 ^ x.2 else 0) 128 (by
      intro x hx
      rw [List.mem_map] at hx
      obtain ⟨y, hy, rfl⟩ := hx
      have := List.snd_lt_of_mem_zipIdx hy
      split
      · calc 2 ^ y.2 ≤ 2 ^ 7 := Nat.pow_le_pow_right (by omega) (by omega)
          _ ≤ 128 := by decide
      · omega)
    simpa [hl] using this
  unfold Strand.slotBits
  have h1 := key st.cx.toList (fun x => x.isSome) (by simp)
  have h2 := key st.k.toList (fun x => x.status.getLsbD 0) (by simp)
  omega

theorem recordFields_bound (st : Strand) (full : Bool) (tepc : Word) (h : st.window = []) :
    ∀ f ∈ recordFields st full tepc, f.2 < 256 ^ recordWidth f.1 := by
  have w8 : ∀ x : Word, x.toNat < 256 ^ 8 := fun x => Nat.lt_of_lt_of_eq x.isLt (by decide)
  have wz : ∀ {α : Type} (l : List α) (f : α × Nat → Nat × Nat) (b : Nat), 0x40 ≤ b →
      (∀ p, (f p).1 = b + 8 * p.2 ∧ (f p).2 < 256 ^ 8) → ∀ x ∈ l.zipIdx.map f, x.2 < 256 ^ recordWidth x.1 := by
    intro α l f b hb hf x hx
    rw [List.mem_map] at hx
    obtain ⟨p, -, rfl⟩ := hx
    rw [show recordWidth (f p).1 = 8 by rw [(hf p).1]; unfold recordWidth; rw [if_neg (by omega), if_neg (by omega)]]
    exact (hf p).2
  intro f hf
  unfold recordFields at hf
  simp only [h, List.zipIdx_nil, List.map_nil, List.append_nil, List.mem_append] at hf
  rcases hf with ((hf | hf) | hf) | hf
  · have := st.grsz.isLt
    have := st.gvlen.isLt
    have := st.pDone.isLt
    have := st.pFault.isLt
    have := st.id.isLt
    have := st.gang.isLt
    have := slotBits_lt st
    have := w8 tepc
    have := w8 st.wcount
    simp only [List.mem_cons, List.not_mem_nil, or_false] at hf
    rcases hf with rfl | rfl | rfl | rfl | rfl | rfl | rfl | rfl | rfl | rfl | rfl | rfl <;>
      simp only [recordWidth] <;> simp <;> first | omega | (repeat' split) <;> omega
  · exact wz _ _ 0x40 (by omega) (fun p => ⟨rfl, by dsimp only; split; · decide
                                                    · exact w8 _⟩) f hf
  · exact wz _ _ 0x140 (by omega) (fun p => ⟨rfl, w8 _⟩) f hf
  · exact wz _ _ 0x180 (by omega) (fun p => ⟨rfl, w8 _⟩) f hf

set_option maxRecDepth 20000 in
theorem recordOffsets_apart : ∀ a ∈ recordOffsets, ∀ b ∈ recordOffsets, a ≠ b →
    a + recordWidth a ≤ b ∨ b + recordWidth b ≤ a := by decide +kernel

theorem recordOffsets_nodup : recordOffsets.Nodup := by decide +kernel

theorem recordOffsets_inside : ∀ a ∈ recordOffsets, a + recordWidth a ≤ 0x200 := by decide +kernel

theorem eq_of_nodup_map {l : List α} {f : α → β} (h : (l.map f).Nodup) {a b : α} (ha : a ∈ l) (hb : b ∈ l) (he : f a = f b) :
    a = b := by
  induction l with
  | nil => cases ha
  | cons x t ih =>
    rw [List.map_cons, List.nodup_cons] at h
    rcases List.mem_cons.1 ha with hax | ha
    · rcases List.mem_cons.1 hb with hbx | hb
      · rw [hax, hbx]
      · exact absurd (by rw [← hax, he]; exact List.mem_map_of_mem hb) h.1
    · rcases List.mem_cons.1 hb with hbx | hb
      · exact absurd (by rw [← hbx, ← he]; exact List.mem_map_of_mem ha) h.1
      · exact ih h.2 ha hb

theorem nodup_of_map {l : List α} {f : α → β} (h : (l.map f).Nodup) : l.Nodup := by
  unfold List.Nodup at h ⊢
  rw [List.pairwise_map] at h
  exact h.imp fun hn he => hn (congrArg f he)

theorem recordFields_off {st : Strand} {full : Bool} {tepc : Word} (hw : st.window = []) {f : Nat × Nat}
    (hf : f ∈ recordFields st full tepc) : f.1 ∈ recordOffsets := by
  rw [← recordFields_offsets st full tepc hw]
  exact List.mem_map_of_mem hf

/-- Every field of the record reads back. -/
theorem State.physRead_record {s : State} (h : Memory.wf s = true) {base : Nat} (st : Strand) (full : Bool) (tepc : Word)
    (hb : s.blockOk base 0x4840 = true) (ha : base % 4096 = 0) (hw : st.window = []) {o x : Nat}
    (hm : (o, x) ∈ recordFields st full tepc) :
    (s.writeBlock base 0x4840 (recordFields st full tepc)).physRead (base + o) (recordWidth o) = x := by
  have hoff := fun f (hf : f ∈ recordFields st full tepc) => recordFields_off hw hf
  have hnd : ((recordFields st full tepc).map (·.1)).Nodup := by
    rw [recordFields_offsets st full tepc hw]; exact recordOffsets_nodup
  refine State.physRead_field h hb ha hm (recordFields_bound st full tepc hw _ hm) ?_ ?_ ?_ ?_
  · unfold recordWidth; repeat' split
    all_goals omega
  · have := recordOffsets_inside o (hoff _ hm)
    omega
  · intro f hf hne i hi
    have hfo : f.1 ≠ o := by
      intro he
      apply hne
      exact eq_of_nodup_map hnd hf hm he
    rcases recordOffsets_apart f.1 (hoff f hf) o (hoff _ hm) hfo with ha | ha
    · refine .inr (Nat.lt_of_lt_of_le (recordFields_bound st full tepc hw f hf) ?_)
      exact Nat.pow_le_pow_right (by omega) (by omega)
    · exact .inl (by omega)
  · exact nodup_of_map hnd

/-- Its window part is zero. -/
theorem State.physRead_record_window {s : State} (h : Memory.wf s = true) {base : Nat} (st : Strand) (full : Bool) (tepc : Word)
    (hb : s.blockOk base 0x4840 = true) (ha : base % 4096 = 0) (hw : st.window = []) {o w : Nat} (hl : 0x200 ≤ o)
    (ho : o + w ≤ 0x4840) (h0 : 0 < w) :
    (s.writeBlock base 0x4840 (recordFields st full tepc)).physRead (base + o) w = 0 := by
  refine State.physRead_zero h hb ha ho h0 fun f hf i _ => .inr ?_
  have := recordOffsets_inside f.1 (recordFields_off hw hf)
  exact Nat.lt_of_lt_of_le (recordFields_bound _ _ _ hw f hf) (Nat.pow_le_pow_right (by omega) (by omega))

/-! ### Members of the record -/

theorem mem_zipIdx_of {l : List α} {i : Nat} {x : α} (h : l[i]? = some x) : (x, i) ∈ l.zipIdx :=
  List.mem_zipIdx_iff_getElem?.2 h

theorem mem_record_state (st : Strand) (full : Bool) (tepc : Word) {i : Nat} {w : Word} (h : st.stateWords[i]? = some w) :
    (0x180 + 8 * i, w.toNat) ∈ recordFields st full tepc := by
  have : (0x180 + 8 * i, w.toNat) ∈ st.stateWords.zipIdx.map fun p => (0x180 + 8 * p.2, p.1.toNat) :=
    List.mem_map.2 ⟨(w, i), mem_zipIdx_of h, rfl⟩
  unfold recordFields
  simp only [List.mem_append]
  exact .inl (.inl (.inr this))

theorem mem_record_shadow (st : Strand) (full : Bool) (tepc : Word) {i : Nat} (h : i < 6) :
    (0x140 + 8 * i, (st.shadow[i]).toNat) ∈ recordFields st full tepc := by
  have : (0x140 + 8 * i, (st.shadow[i]).toNat) ∈ st.shadow.toList.zipIdx.map fun p => (0x140 + 8 * p.2, p.1.toNat) :=
    List.mem_map.2 ⟨(st.shadow[i], i), mem_zipIdx_of (by simp [h]), rfl⟩
  unfold recordFields
  simp only [List.mem_append]
  exact .inl (.inl (.inl (.inr this)))

theorem mem_record_g (st : Strand) (full : Bool) (tepc : Word) {i : Nat} (h : i < 32) :
    (0x40 + 8 * i, if i = 0 then 0 else (st.g[i]).toNat) ∈ recordFields st full tepc := by
  have : (0x40 + 8 * i, if i = 0 then 0 else (st.g[i]).toNat) ∈
      st.g.toList.zipIdx.map fun p => (0x40 + 8 * p.2, if p.2 = 0 then 0 else p.1.toNat) :=
    List.mem_map.2 ⟨(st.g[i], i), mem_zipIdx_of (by simp [h]), rfl⟩
  unfold recordFields
  simp only [List.mem_append]
  exact .inl (.inl (.inl (.inl (.inr this))))

theorem recordWidth_words {o : Nat} (h : 0x38 ≤ o) : recordWidth o = 8 := by
  unfold recordWidth
  rw [if_neg (by omega), if_neg (by omega)]

/-! ### Taking a trap -/

theorem State.byte_upd (s : State) (f : Strand → Strand) (a : Nat) : (s.upd f).byte a = s.byte a := rfl

theorem State.physRead_upd (s : State) (f : Strand → Strand) (a n : Nat) : (s.upd f).physRead a n = s.physRead a n := rfl

theorem State.drainQueue_nil {s : State} (h : s.cur.updq = []) : s.drainQueue = s := by
  unfold State.drainQueue
  rw [h]
  show { s with cur := { s.cur with updq := [] } } = s
  rw [← h]

/-- A trap is taken at once when the window is empty. -/
theorem State.trap_take {s : State} (hw : s.cur.window = []) (i : TrapInfo) : s.trap i = s.takeTrap i := by
  unfold State.trap
  rw [if_neg (by simp [Strand.midSlice, hw])]

/-- With an empty window a trap reports what it was raised with. -/
theorem TrapInfo.final_nil (i : TrapInfo) : i.final [] = i := by
  unfold TrapInfo.final
  cases i.win <;> rfl

/-- The trap of a strand with an empty window and an empty update queue. -/
theorem State.trap_eq {s : State} (h : s.cur.updq = []) (hw : s.cur.window = []) (i : TrapInfo) (hb : s.blockOk s.cur.twinAddr 0x4840 = true) :
    s.trap i =
      (s.writeBlock s.cur.twinAddr 0x4840 (recordFields s.cur false i.tepc)).upd fun st => st.enterTrap i := by
  rw [State.trap_take hw, State.takeTrap]
  simp only [State.drainQueue_nil h, hw, TrapInfo.final_nil]
  rw [if_pos hb]

theorem State.trap_cur {s : State} (h : s.cur.updq = []) (hw : s.cur.window = []) (i : TrapInfo) (hb : s.blockOk s.cur.twinAddr 0x4840 = true) :
    (s.trap i).cur = s.cur.enterTrap i := by
  rw [State.trap_eq h hw i hb]
  show Strand.enterTrap (State.cur _) i = _
  rw [State.writeBlock_rest]

theorem Strand.twinAddr_page (st : Strand) : st.twinAddr % 4096 = 0 := by unfold Strand.twinAddr; omega

/-- A field of the record after a trap with an empty window. -/
theorem State.physRead_trap {s : State} (hm : Memory.wf s = true) (h : s.cur.updq = []) (hw : s.cur.window = [])
    (i : TrapInfo) (hb : s.blockOk s.cur.twinAddr 0x4840 = true) {o x : Nat}
    (hx : (o, x) ∈ recordFields s.cur false i.tepc) : (s.trap i).physRead (s.cur.twinAddr + o) (recordWidth o) = x := by
  rw [State.trap_eq h hw i hb, State.physRead_upd]
  exact State.physRead_record hm _ _ _ hb (Strand.twinAddr_page _) hw hx

/-- Its window part is zero. -/
theorem State.physRead_trap_window {s : State} (hm : Memory.wf s = true) (h : s.cur.updq = []) (hw : s.cur.window = [])
    (i : TrapInfo) (hb : s.blockOk s.cur.twinAddr 0x4840 = true) {o w : Nat} (hl : 0x200 ≤ o) (ho : o + w ≤ 0x4840)
    (h0 : 0 < w) : (s.trap i).physRead (s.cur.twinAddr + o) w = 0 := by
  rw [State.trap_eq h hw i hb, State.physRead_upd]
  exact State.physRead_record_window hm _ _ _ hb (Strand.twinAddr_page _) hw hl ho h0

/-- The record of an empty window holds no entry. -/
theorem readEntries_trap {s : State} {l : List Aside} (hm : Memory.wf s = true) (h : s.cur.updq = []) (hw : s.cur.window = [])
    (i : TrapInfo) (hb : s.blockOk s.cur.twinAddr 0x4840 = true) : readEntries (s.trap i) s.cur.twinAddr l = [] := by
  unfold readEntries
  rw [List.filterMap_eq_nil_iff]
  intro k hk
  rw [List.mem_range] at hk
  have : (s.trap i).physRead (s.cur.twinAddr + 0x200 + 96 * k) 96 = 0 := by
    rw [Nat.add_assoc]
    exact State.physRead_trap_window hm h hw i hb (by omega) (by omega) (by omega)
  rw [this]
  rfl

/-! ### TCAUSE -/

/-- The parts of TCAUSE as a number. -/
theorem TrapInfo.tcause_toNat (i : TrapInfo) (prev : Bool) :
    (i.tcause prev).toNat = i.cause.toNat + i.win.getD 0 % 16 * 256 + i.win.isSome.toNat * 4096 + i.step.toNat * 8192 +
      prev.toNat * 16384 + i.async.toNat * 32768 := by
  have hc := i.cause.isLt
  unfold TrapInfo.tcause
  rw [BitVec.toNat_ofNat]
  have hb : ∀ b : Bool, b.toNat ≤ 1 := by decide
  have h2 : ∀ (b : Bool) (k : Nat), (if b = true then k else 0) = b.toNat * k := by intro b k; cases b <;> simp
  rw [h2, h2, h2]
  have := hb i.step
  have := hb prev
  have := hb i.async
  cases i.win with
  | none => simp only [Option.getD_none, Option.isSome_none, Bool.toNat_false]; omega
  | some n => simp only [Option.getD_some, Option.isSome_some, Bool.toNat_true]; omega

theorem testBit_of_div {x k : Nat} {b : Bool} (h : x / 2 ^ k % 2 = b.toNat) : x.testBit k = b := by
  rw [Nat.testBit_eq_decide_div_mod_eq, h]
  cases b <;> rfl

theorem TrapInfo.tcause_code (i : TrapInfo) (prev : Bool) : (i.tcause prev).extractLsb' 0 8 = i.cause := by
  apply BitVec.eq_of_toNat_eq
  have := i.cause.isLt
  simp only [BitVec.extractLsb'_toNat, i.tcause_toNat, Nat.shiftRight_zero]
  omega

theorem TrapInfo.tcause_slot (i : TrapInfo) (prev : Bool) :
    (i.tcause prev).extractLsb' 8 4 = BitVec.ofNat 4 (i.win.getD 0) := by
  apply BitVec.eq_of_toNat_eq
  have := i.cause.isLt
  simp only [BitVec.extractLsb'_toNat, i.tcause_toNat, Nat.shiftRight_eq_div_pow, BitVec.toNat_ofNat]
  omega

theorem TrapInfo.tcause_flags (i : TrapInfo) (prev : Bool) :
    (i.tcause prev).getLsbD 12 = i.win.isSome ∧ (i.tcause prev).getLsbD 13 = i.step ∧
    (i.tcause prev).getLsbD 14 = prev ∧ (i.tcause prev).getLsbD 15 = i.async := by
  have hc := i.cause.isLt
  have hb : ∀ b : Bool, b.toNat ≤ 1 := by decide
  have := hb i.win.isSome
  have := hb i.step
  have := hb prev
  have := hb i.async
  unfold BitVec.getLsbD
  rw [i.tcause_toNat]
  exact ⟨testBit_of_div (by omega), testBit_of_div (by omega), testBit_of_div (by omega), testBit_of_div (by omega)⟩

/-! ### Restoring -/

theorem Strand.uimask_toNat (st : Strand) :
    st.uimask.toNat = st.uiIn.toNat + st.enDone.toNat * 2 + st.enFault.toNat * 4 + st.enTrapu.toNat * 8 + st.pDone.toNat * 256 + st.pFault.toNat * 65536 := by
  have := st.pDone.isLt
  have := st.pFault.isLt
  unfold Strand.uimask
  rw [BitVec.toNat_ofNat]
  cases st.uiIn <;> cases st.enDone <;> cases st.enFault <;> cases st.enTrapu <;> simp only [if_true, if_false, Bool.toNat_true, Bool.toNat_false, Bool.false_eq_true] <;> omega

theorem Strand.grantWord_toNat (st : Strand) :
    st.grantWord.toNat = st.grantNext.toNat + st.grantPend.toNat * 2 ^ 31 := by
  have := st.grantNext.isLt
  unfold Strand.grantWord
  rw [BitVec.toNat_ofNat]
  cases st.grantPend <;> simp only [if_true, if_false, Bool.toNat_true, Bool.toNat_false, Bool.false_eq_true] <;> omega

/-- Restoring from a record that holds a strand's words brings its words back. -/
theorem restoreWords_eq {s : State} {base : Nat} {st : Strand} (hw : ∀ k w, st.stateWords[k]? = some w → imgWord s base (0x180 + 8 * k) = w)
    (hs : ∀ k (h : k < 6), imgWord s base (0x140 + 8 * k) = st.shadow[k]) (hok : st.Ok) (hseed : st.srseed ≠ 0) (x : Strand) :
    restoreWords s base x = { x with
      g := (restoreWords s base x).g, shadow := st.shadow, vl := st.vl, rl := st.rl, vtype := st.vtype, frm := st.frm, fflags := st.fflags, repro := st.repro, srseed := st.srseed,
      uivec := st.uivec, uicause := st.uicause, uiepc := st.uiepc, uiIn := st.uiIn, enDone := st.enDone, enFault := st.enFault, enTrapu := st.enTrapu, cxldr := st.cxldr, grantNext := st.grantNext, grantPend := st.grantPend } := by
  have hb : ∀ b : Bool, b.toNat ≤ 1 := by decide
  have u0 := hb st.uiIn
  have u1 := hb st.enDone
  have u2 := hb st.enFault
  have u3 := hb st.enTrapu
  have p1 := st.pDone.isLt
  have p2 := st.pFault.isLt
  have um := st.uimask_toNat
  have gm := st.grantWord_toNat
  have g1 := st.grantNext.isLt
  have g2 := hb st.grantPend
  have h0 := hw 0 _ rfl
  have h1 := hw 1 _ rfl
  have h2 := hw 2 _ rfl
  have h3 := hw 3 _ rfl
  have h4 := hw 4 _ rfl
  have h5 := hw 5 _ rfl
  have h8 := hw 8 _ rfl
  have h9 := hw 9 _ rfl
  have h10 := hw 10 _ rfl
  have h11 := hw 11 _ rfl
  have h12 := hw 12 _ rfl
  have h13 := hw 13 _ rfl
  have h14 := hw 14 _ rfl
  have hfrm : frmStored st.frm = st.frm := by
    unfold frmStored
    have := hok.frm
    rw [if_neg]
    simp only [Bool.or_eq_true, beq_iff_eq, decide_eq_true_eq, not_or]
    refine ⟨fun h => ?_, by omega⟩
    rw [h] at this; simp at this
  have hsd : seedStored st.srseed = st.srseed := by
    unfold seedStored; rw [if_neg (by simpa using hseed)]
  have e1 : ∀ {n : Nat} (y : BitVec n), n ≤ 64 → (y.setWidth 64).setWidth n = y := by
    intro n y h
    rw [BitVec.setWidth_setWidth_of_le _ h, BitVec.setWidth_eq]
  have e2 : ∀ (y : BitVec 58), (y.setWidth 64 <<< 6).extractLsb' 6 58 = y := by
    intro y
    apply BitVec.eq_of_toNat_eq
    have := y.isLt
    simp [Nat.shiftLeft_eq, Nat.shiftRight_eq_div_pow]
    omega
  have hsh : Vector.ofFn (fun i : Fin 6 => imgWord s base (0x140 + 8 * i)) = st.shadow := by
    apply Vector.ext
    intro i hi
    rw [Vector.getElem_ofFn]
    exact hs i hi
  unfold restoreWords
  simp only [h0, h1, h2, h3, h4, h5, h8, h9, h10, h11, h12, h13, h14, hsh]
  simp only [e1 _ (show 32 ≤ 64 by omega), e1 _ (show 7 ≤ 64 by omega), e1 _ (show 6 ≤ 64 by omega), e1 _ (show 3 ≤ 64 by omega), e1 _ (show 5 ≤ 64 by omega), e1 _ (show 1 ≤ 64 by omega), e1 _ (show 8 ≤ 64 by omega), e2, hfrm, hsd]
  have b0 : st.uimask.getLsbD 0 = st.uiIn := testBit_of_div (by omega)
  have b1 : st.uimask.getLsbD 1 = st.enDone := testBit_of_div (by omega)
  have b2 : st.uimask.getLsbD 2 = st.enFault := testBit_of_div (by omega)
  have b3 : st.uimask.getLsbD 3 = st.enTrapu := testBit_of_div (by omega)
  have b4 : st.grantWord.getLsbD 31 = st.grantPend := testBit_of_div (by omega)
  have b5 : st.grantWord.setWidth 17 = st.grantNext := by
    apply BitVec.eq_of_toNat_eq
    rw [BitVec.toNat_setWidth]
    omega
  simp only [b0, b1, b2, b3, b4, b5]


end Sys2Proof.Machine
end

