-- ==== Sys2Proof/Laws/Turns.lean ====
section
/-! SUPPORT. Turns (R38): what `nextTurn` can do. -/

namespace Sys2Proof.Machine

theorem orElse_some {α : Type} {a : Option α} {b : Unit → Option α} {x : α} (h : a.orElse b = some x) :
    a = some x ∨ a = none ∧ b () = some x := by cases a <;> simp_all [Option.orElse]

theorem orElse_none {α : Type} {a : Option α} {b : Unit → Option α} (h : a.orElse b = none) : a = none ∧ b () = none := by
  cases a <;> simp_all [Option.orElse]

/-- The first strand of a list stands in it, and none stands before it. -/
theorem firstPlace_spec {l : List Strand} {st : Strand} (h : firstPlace l = some st) : st ∈ l ∧ ∀ x ∈ l, st.place ≤ x.place := by
  induction l generalizing st with
  | nil => cases h
  | cons a t ih =>
    simp only [firstPlace] at h
    split at h
    · rename_i hn
      obtain rfl : a = st := by injection h
      cases t with
      | nil => exact ⟨List.mem_cons_self, fun x hx => by simp at hx; simp [hx]⟩
      | cons b u =>
        simp only [firstPlace] at hn
        split at hn <;> (try split at hn) <;> cases hn
    · rename_i y hy
      obtain ⟨h1, h2⟩ := ih hy
      split at h
      · injection h with h; subst h
        exact ⟨List.mem_cons_self, fun x hx => by
          rcases List.mem_cons.1 hx with rfl | hx
          · exact Nat.le_refl _
          · exact Nat.le_trans ‹_› (h2 x hx)⟩
      · injection h with h; subst h
        exact ⟨List.mem_cons_of_mem _ h1, fun x hx => by
          rcases List.mem_cons.1 hx with rfl | hx
          · omega
          · exact h2 x hx⟩

theorem firstPlace_none {l : List Strand} (h : firstPlace l = none) : l = [] := by
  cases l with
  | nil => rfl
  | cons b u => simp only [firstPlace] at h; split at h <;> (try split at h) <;> cases h

/-- The strand of a core whose turn it is: the first from the place on that the core has reached, else the first of all. -/
theorem State.turnOn_spec {s : State} {c : Nat} {st : Strand} (h : s.turnOn c = some st) :
    st ∈ s.strands ∧ st.phase ≠ .absent ∧ st.core.toNat = c ∧
    ∀ x ∈ s.strands, x.phase ≠ .absent → x.core.toNat = c →
      let n := (Sparse.get CoreUnits.reset s.units c).turn
      if n ≤ st.place then n ≤ x.place → st.place ≤ x.place else x.place < n ∧ st.place ≤ x.place := by
  unfold State.turnOn at h
  rcases orElse_some h with h | ⟨hn, h⟩
  · obtain ⟨h1, h2⟩ := firstPlace_spec h
    simp only [List.mem_filter, Bool.and_eq_true, bne_iff_ne, ne_eq, beq_iff_eq, decide_eq_true_eq] at h1 h2
    refine ⟨h1.1.1, h1.1.2.1, h1.1.2.2, fun x hx hp hc => ?_⟩
    simp only [if_pos h1.2]
    exact fun hl => h2 x ⟨⟨hx, hp, hc⟩, hl⟩
  · obtain ⟨h1, h2⟩ := firstPlace_spec h
    have hno := firstPlace_none hn
    simp only [List.filter_eq_nil_iff, List.mem_filter, Bool.and_eq_true, bne_iff_ne, ne_eq, beq_iff_eq, decide_eq_true_eq,
      Nat.not_le] at h1 h2 hno
    refine ⟨h1.1, h1.2.1, h1.2.2, fun x hx hp hc => ?_⟩
    have := hno st h1
    simp only [if_neg (Nat.not_le.2 this)]
    exact ⟨hno x ⟨hx, hp, hc⟩, h2 x ⟨hx, hp, hc⟩⟩

/-- A core of a strand that is there has a turn. -/
theorem State.turnOn_some {s : State} {st : Strand} (h : st ∈ s.strands) (hp : st.phase ≠ .absent) :
    ∃ x, s.turnOn st.core.toNat = some x := by
  rw [← Option.isSome_iff_exists, Option.isSome_iff_ne_none]
  intro hn
  unfold State.turnOn at hn
  have := firstPlace_none (orElse_none hn).2
  simp only [List.filter_eq_nil_iff, Bool.and_eq_true, bne_iff_ne, ne_eq, beq_iff_eq] at this
  exact this st h ⟨hp, rfl⟩

/-- With a strand there, some core has a turn, and a strand of it stands there. -/
theorem State.turnCore_spec {s : State} (h : ∃ st ∈ s.strands, st.phase ≠ .absent) :
    ∃ c st, s.turnCore = some c ∧ st ∈ s.strands ∧ st.phase ≠ .absent ∧ st.core.toNat = c := by
  obtain ⟨st, h1, h2⟩ := h
  have hc : s.turnCore ≠ none := by
    intro hn
    have := (orElse_none hn).2
    simp only [List.min?_eq_none_iff, List.map_eq_nil_iff, List.filter_eq_nil_iff] at this
    exact this st h1 (by simpa using h2)
  obtain ⟨c, hc⟩ := Option.ne_none_iff_exists'.1 hc
  refine ⟨c, ?_⟩
  have hm : c ∈ (s.strands.filter fun st => st.phase != .absent).map fun st => st.core.toNat := by
    rcases orElse_some hc with hc | ⟨_, hc⟩
    · exact (List.mem_filter.1 (List.min?_mem hc)).1
    · exact List.min?_mem hc
  obtain ⟨x, hx, rfl⟩ := List.mem_map.1 hm
  simp only [List.mem_filter, bne_iff_ne, ne_eq] at hx
  exact ⟨x, hc, hx.1, hx.2, rfl⟩

/-- A member of a list is the one that a search finds, or one that is left. -/
theorem mem_find_or_eraseP {α : Type} {p : α → Bool} {l : List α} {x y : α} (h : l.find? p = some y) (hx : x ∈ l) :
    x = y ∨ x ∈ l.eraseP p := by
  induction l with
  | nil => cases hx
  | cons a t ih =>
    by_cases ha : p a = true
    · rw [List.find?_cons_of_pos ha] at h
      rw [List.eraseP_cons_of_pos ha]
      rcases List.mem_cons.1 hx with rfl | hx
      · exact .inl (by injection h)
      · exact .inr hx
    · rw [List.find?_cons_of_neg ha] at h
      rw [List.eraseP_cons_of_neg ha]
      rcases List.mem_cons.1 hx with rfl | hx
      · exact .inr List.mem_cons_self
      · exact (ih h hx).imp_right (List.mem_cons_of_mem _)

/-- The strand of that gang and number takes the focus, and none is lost. -/
theorem State.focus_spec {s : State} {st : Strand} (h : st ∈ s.strands) (hp : st.phase ≠ .absent) :
    let t := s.focus st.gang st.id
    t.cur ∈ s.strands ∧ t.cur.gang = st.gang ∧ t.cur.id = st.id ∧ t.cur.phase ≠ .absent ∧ ∀ x ∈ s.strands, x ∈ t.strands := by
  have hq : ∀ x : Strand, (x.gang == st.gang && x.id == st.id && x.phase != .absent) = true ↔
      x.gang = st.gang ∧ x.id = st.id ∧ x.phase ≠ .absent := by simp [and_assoc]
  simp only [State.focus]
  split
  · rename_i hc
    obtain ⟨h1, h2, h3⟩ := (hq s.cur).1 hc
    exact ⟨List.mem_cons_self, h1, h2, h3, fun x hx => hx⟩
  · rename_i hc
    have hm : st ∈ s.others := by
      rcases List.mem_cons.1 h with he | h
      · exact absurd ((hq s.cur).2 (by rw [← he]; exact ⟨rfl, rfl, hp⟩)) hc
      · exact h
    split
    · rename_i y hy
      have hb : (y.gang == st.gang && y.id == st.id && y.phase != .absent) = true := by
        have := List.find?_some hy
        simpa using this
      obtain ⟨h1, h2, h3⟩ := (hq y).1 hb
      refine ⟨List.mem_cons_of_mem _ (List.mem_of_find?_eq_some hy), h1, h2, h3, fun x hx => ?_⟩
      simp only [State.strands, List.mem_cons]
      rcases List.mem_cons.1 hx with rfl | hx
      · exact .inr (.inl rfl)
      · rcases mem_find_or_eraseP hy hx with rfl | hx
        · exact .inl rfl
        · exact .inr (.inr hx)
    · rename_i hn
      exact absurd ((hq st).2 ⟨rfl, rfl, hp⟩) (by simpa using List.find?_eq_none.1 hn st hm)

/-- The next turn is that of the next strand of its core, in slot order after the one that had the core's last turn (R38). -/
theorem State.nextTurn_spec {s : State} (hi : s.Inv) (h : ∃ st ∈ s.strands, st.phase ≠ .absent) :
    ∃ st ∈ s.strands,
      let t := s.nextTurn
      let n := (Sparse.get CoreUnits.reset s.units st.core.toNat).turn
      st.phase ≠ .absent ∧
      (∀ x ∈ s.strands, x.phase ≠ .absent → x.core = st.core →
        if n ≤ st.place then n ≤ x.place → st.place ≤ x.place else x.place < n ∧ st.place ≤ x.place) ∧
      t.cur ∈ s.strands ∧ t.cur.gang = st.gang ∧ t.cur.id = st.id ∧ t.cur.phase ≠ .absent ∧
      (∀ x ∈ s.strands, x ∈ t.strands) ∧
      t.turn = st.core.toNat + 1 ∧ (Sparse.get CoreUnits.reset t.units st.core.toNat).turn = st.place + 1 := by
  obtain ⟨c, x, hc, hx, hxp, rfl⟩ := State.turnCore_spec h
  obtain ⟨st, hs⟩ := State.turnOn_some hx hxp
  obtain ⟨h1, h2, h3, h4⟩ := State.turnOn_spec hs
  obtain ⟨f1, f2, f3, f4, f5⟩ := State.focus_spec h1 h2
  have e : s.nextTurn = { s.focus st.gang st.id with
      turn := st.core.toNat + 1,
      units := Sparse.put CoreUnits.reset s.units st.core.toNat
        { Sparse.get CoreUnits.reset s.units st.core.toNat with turn := st.place + 1 } } := by
    simp only [State.nextTurn, hc, Option.bind_some, hs]
  rw [e]
  refine ⟨st, h1, h2, fun y hy hp hcore => ?_, f1, f2, f3, f4, f5, rfl, ?_⟩
  · have := h4 y hy hp (by rw [hcore, h3])
    rwa [← h3] at this
  · rw [Sparse.get_put_same hi.units]

end Sys2Proof.Machine
end

