-- ==== Sys2Proof/Tests/Slice0.lean ====
section
/-! SUPPORT. Tests of this row's own work: decoding, the ill-formed terms, a witness of the hypotheses of every statement, and
single steps with results worked out from the spec. -/

set_option Elab.async false

namespace Sys2Proof.Tests

open Sys2Proof.Machine

/-! ### Decoding: every member's word, written out from the tables of the spec (R67 to R77) -/

/-- Every word of a list decodes to the instruction beside it. -/
noncomputable def decodes (l : List (BitVec 32 × Instr)) : Bool := l.all fun x => decide (decode x.1 = .ok x.2)

theorem test_decode_sop : decodes [
  (0b000001_00011_10001_01010_00000000000, .add 3 17 10),
  (0b000001_00011_10001_01010_00000000001, .sub 3 17 10),
  (0b000001_00011_10001_01010_00000000010, .and 3 17 10),
  (0b000001_00011_10001_01010_00000000011, .or 3 17 10),
  (0b000001_00011_10001_01010_00000000100, .xor 3 17 10),
  (0b000001_00011_10001_01010_00000000101, .shl 3 17 10),
  (0b000001_00011_10001_01010_00000000110, .shr 3 17 10),
  (0b000001_00011_10001_01010_00000000111, .shra 3 17 10),
  (0b000001_00011_10001_01010_00000001000, .slt 3 17 10),
  (0b000001_00011_10001_01010_00000001001, .sltn 3 17 10),
  (0b000001_00011_10001_01010_00000001010, .mul 3 17 10),
  (0b000001_00011_10001_01010_00000001011, .mulh 3 17 10),
  (0b000001_00011_10001_01010_00000001100, .mulhn 3 17 10),
  (0b000001_00011_10001_01010_00000001101, .div 3 17 10),
  (0b000001_00011_10001_01010_00000001110, .divn 3 17 10),
  (0b000001_00011_10001_01010_00000001111, .rem 3 17 10),
  (0b000001_00011_10001_01010_00000010000, .remn 3 17 10),
  (0b000001_00011_10001_01010_00000010001, .min 3 17 10),
  (0b000001_00011_10001_01010_00000010010, .max 3 17 10),
  (0b000001_00011_10001_01010_00000010011, .minn 3 17 10),
  (0b000001_00011_10001_01010_00000010100, .maxn 3 17 10),
  (0b000001_00011_10001_0000000000010101, .clz 3 17),
  (0b000001_00011_10001_0000000000010110, .ctz 3 17),
  (0b000001_00011_10001_0000000000010111, .popc 3 17)] = true := by decide +kernel

theorem test_decode_immediates_bytes : decodes [
  (0b000010_00011_10001_1000101001010001, .addi 3 17 35409),
  (0b000011_00011_10001_1000101001010001, .andi 3 17 35409),
  (0b000100_00011_10001_1000101001010001, .ori 3 17 35409),
  (0b000101_00011_10001_1000101001010001, .xori 3 17 35409),
  (0b000110_00011_10001_1000101001010001, .slti 3 17 35409),
  (0b000111_00011_10001_0000000000_101101, .shli 3 17 45),
  (0b000111_00011_10001_0000000001_101101, .shri 3 17 45),
  (0b000111_00011_10001_0000000010_101101, .shrai 3 17 45),
  (0b001000_00011_00000_1000101001010001, .lih 3 35409),
  (0b001001_00011_10001_1000101001010001, .shori 3 17 35409),
  (0b001010_00011_10001_1000101001010001, .ldb 3 17 35409),
  (0b001011_00011_10001_1000101001010001, .ldbn 3 17 35409)] = true := by decide +kernel

theorem test_decode_branches : decodes [
  (0b010101_10001_01010_000_1101001011011, .beq 17 10 6747),
  (0b010101_10001_01010_001_1101001011011, .bne 17 10 6747),
  (0b010101_10001_01010_010_1101001011011, .blt 17 10 6747),
  (0b010101_10001_01010_011_1101001011011, .bge 17 10 6747),
  (0b010101_10001_01010_100_1101001011011, .bltn 17 10 6747),
  (0b010101_10001_01010_101_1101001011011, .bgen 17 10 6747)] = true := by decide +kernel

theorem test_decode_accesses_jumps : decodes [
  (0b001100_00011_10001_1000101001010001, .ldh 3 17 35409),
  (0b001101_00011_10001_1000101001010001, .ldhn 3 17 35409),
  (0b001110_00011_10001_1000101001010001, .ldw 3 17 35409),
  (0b001111_00011_10001_1000101001010001, .ldwn 3 17 35409),
  (0b010000_00011_10001_1000101001010001, .ldd 3 17 35409),
  (0b010001_00011_10001_1000101001010001, .stb 3 17 35409),
  (0b010010_00011_10001_1000101001010001, .sth 3 17 35409),
  (0b010011_00011_10001_1000101001010001, .stw 3 17 35409),
  (0b010100_00011_10001_1000101001010001, .std 3 17 35409),
  (0b010110_10101010111100110111100001, .jmp 44813793),
  (0b010111_10101010111100110111100001, .call 44813793),
  (0b011000_00000_10001_0000000000000000, .jr 17),
  (0b011000_00000_10001_0000000000000001, .jalr 17)] = true := by decide +kernel

theorem test_decode_sfp : decodes [
  (0b011001_00011_10001_01010_000_1_0000000, .fadd 3 17 10 1),
  (0b011001_00011_10001_01010_000_1_0000001, .fsub 3 17 10 1),
  (0b011001_00011_10001_01010_000_1_0000010, .fmul 3 17 10 1),
  (0b011001_00011_10001_01010_000_1_0000011, .fdiv 3 17 10 1),
  (0b011001_00011_10001_00000000_1_0000100, .fsqrt 3 17 1),
  (0b011001_00011_10001_01010_000_1_0000101, .fmin 3 17 10 1),
  (0b011001_00011_10001_01010_000_1_0000110, .fmax 3 17 10 1),
  (0b011001_00011_10001_01010_000_1_0000111, .feq 3 17 10 1),
  (0b011001_00011_10001_01010_000_1_0001000, .flt 3 17 10 1),
  (0b011001_00011_10001_01010_000_1_0001001, .fle 3 17 10 1),
  (0b011001_00011_10001_00100_000_1_0001010, .fcvti 3 17 4 1),
  (0b011001_00011_10001_00100_000_1_0001011, .fcvtf 3 17 4 1),
  (0b011001_00011_10001_00100_00000001100, .fcvtwF32 3 17 4),
  (0b011001_00011_10001_0000000010001100, .fcvtwF64 3 17)] = true := by decide +kernel

theorem test_decode_link : decodes [
  (0b011011_00011_10001_0000000000000000, .ldlw 3 17),
  (0b011011_00011_10001_0000000000000001, .ldld 3 17),
  (0b011011_00011_10001_01010_00000000010, .stcw 3 17 10),
  (0b011011_00011_10001_01010_00000000011, .stcd 3 17 10),
  (0b011011_00011_10001_0000000000000100, .ldscw 3 17),
  (0b011011_00011_10001_0000000000000101, .ldscd 3 17),
  (0b011011_00011_10001_0000000000000110, .stscw 3 17),
  (0b011011_00011_10001_0000000000000111, .stscd 3 17)] = true := by decide +kernel

theorem test_decode_sync : decodes [
  (0b011100_00000_10001_0000000000000000, .bara 17),
  (0b011100_00000_10001_0000000000000001, .barw 17),
  (0b011100_00000_10001_0000000000000010, .baraw 17),
  (0b011100_00011_10001_0000000000000011, .barset 3 17),
  (0b011100_00000000000_1011_00000000110, .qdrain 11),
  (0b011100_00000000000000000000000100, .gbara),
  (0b011100_00000000000000000000000101, .gbarw),
  (0b011100_00000000000000000000000111, .wfe)] = true := by decide +kernel

theorem test_decode_sys : decodes [
  (0b011110_00000000000000000000000000, .nop),
  (0b011110_00000000000000000000000001, .trapu),
  (0b011110_00000000000000000000000010, .eret),
  (0b011110_00000000000000000000000011, .uiret),
  (0b011110_00000000000000000000000100, .brk),
  (0b011110_00000000000000000000000101, .halt),
  (0b011110_00000000000000000000000110, .exit),
  (0b011110_00000000000000000000000111, .tlbinv)] = true := by decide +kernel

theorem test_decode_vint : decodes [
  (0b100001_00011_10001_01010_101_01_000000, .vadd 3 17 10 5 1),
  (0b100001_00011_10001_01010_101_01_000001, .vsub 3 17 10 5 1),
  (0b100001_00011_10001_01010_101_01_000010, .vmul 3 17 10 5 1),
  (0b100001_00011_10001_01010_101_01_000011, .vmulh 3 17 10 5 1),
  (0b100001_00011_10001_01010_101_01_000100, .vmulhn 3 17 10 5 1),
  (0b100001_00011_10001_01010_101_01_000101, .vdiv 3 17 10 5 1),
  (0b100001_00011_10001_01010_101_01_000110, .vdivn 3 17 10 5 1),
  (0b100001_00011_10001_01010_101_01_000111, .vrem 3 17 10 5 1),
  (0b100001_00011_10001_01010_101_01_001000, .vremn 3 17 10 5 1),
  (0b100001_00011_10001_01010_101_01_001001, .vmin 3 17 10 5 1),
  (0b100001_00011_10001_01010_101_01_001010, .vmax 3 17 10 5 1),
  (0b100001_00011_10001_01010_101_01_001011, .vminn 3 17 10 5 1),
  (0b100001_00011_10001_01010_101_01_001100, .vmaxn 3 17 10 5 1),
  (0b100001_00011_10001_01010_101_01_001101, .vand 3 17 10 5 1),
  (0b100001_00011_10001_01010_101_01_001110, .vor 3 17 10 5 1),
  (0b100001_00011_10001_01010_101_01_001111, .vxor 3 17 10 5 1),
  (0b100001_00011_10001_01010_101_01_010000, .vshl 3 17 10 5 1),
  (0b100001_00011_10001_01010_101_01_010001, .vshr 3 17 10 5 1),
  (0b100001_00011_10001_01010_101_01_010010, .vshra 3 17 10 5 1),
  (0b100001_00011_10001_01010_101_01_010011, .vsadd 3 17 10 5 1),
  (0b100001_00011_10001_01010_101_01_010100, .vssub 3 17 10 5 1),
  (0b100001_00011_10001_01010_101_01_010101, .vadc 3 17 10 5 1),
  (0b100001_00011_10001_01010_101_01_010110, .vsbc 3 17 10 5 1),
  (0b100001_00011_10001_01010_101_01_010111, .vmacc 3 17 10 5 1)] = true := by decide +kernel

theorem test_decode_vfp : decodes [
  (0b100010_00011_10001_01010_101_01_000000, .vfadd 3 17 10 5 1),
  (0b100010_00011_10001_01010_101_01_000001, .vfsub 3 17 10 5 1),
  (0b100010_00011_10001_01010_101_01_000010, .vfmul 3 17 10 5 1),
  (0b100010_00011_10001_01010_101_01_000011, .vfdiv 3 17 10 5 1),
  (0b100010_00011_10001_01010_101_01_000100, .vfmin 3 17 10 5 1),
  (0b100010_00011_10001_01010_101_01_000101, .vfmax 3 17 10 5 1),
  (0b100010_00011_10001_00000_101_00000110, .vfsqrt 3 17 5),
  (0b100010_00011_10001_00000_101_00000111, .vfabs 3 17 5),
  (0b100010_00011_10001_00000_101_00001000, .vfneg 3 17 5),
  (0b100010_00011_10001_01010_101_01_001001, .vfsgn 3 17 10 5 1)] = true := by decide +kernel

theorem test_decode_vfma : decodes [
  (0b100011_00011_10001_01010_11101_101_000, .vfma 3 17 10 29 5),
  (0b100011_00011_10001_01010_11101_101_001, .vfms 3 17 10 29 5),
  (0b100011_00011_10001_01010_11101_101_010, .vfnma 3 17 10 29 5),
  (0b100011_00011_10001_01010_11101_101_011, .vfnms 3 17 10 29 5),
  (0b100011_00011_10001_01010_11101_101_100, .vima 3 17 10 29 5),
  (0b100011_00011_10001_01010_11101_101_101, .vwfma 3 17 10 29 5)] = true := by decide +kernel

theorem test_decode_vcmp : decodes [
  (0b100101_00_101_10001_01010_101_01_000000, .vceq 5 17 10 5 1),
  (0b100101_00_101_10001_01010_101_01_000001, .vcne 5 17 10 5 1),
  (0b100101_00_101_10001_01010_101_01_000010, .vclt 5 17 10 5 1),
  (0b100101_00_101_10001_01010_101_01_000011, .vcle 5 17 10 5 1),
  (0b100101_00_101_10001_01010_101_01_000100, .vcgt 5 17 10 5 1),
  (0b100101_00_101_10001_01010_101_01_000101, .vcge 5 17 10 5 1),
  (0b100101_00_101_10001_01010_101_01_000110, .vcltn 5 17 10 5 1),
  (0b100101_00_101_10001_01010_101_01_000111, .vclen 5 17 10 5 1),
  (0b100101_00_101_10001_01010_101_01_001000, .vcgtn 5 17 10 5 1),
  (0b100101_00_101_10001_01010_101_01_001001, .vcgen 5 17 10 5 1),
  (0b100101_00_101_10001_01010_101_01_001010, .vfceq 5 17 10 5 1),
  (0b100101_00_101_10001_01010_101_01_001011, .vfclt 5 17 10 5 1),
  (0b100101_00_101_10001_01010_101_01_001100, .vfcle 5 17 10 5 1),
  (0b100101_00_101_10001_01010_101_01_001101, .vfcun 5 17 10 5 1),
  (0b100101_00_101_10001_01010_101_01_001110, .vcarry 5 17 10 5 1),
  (0b100101_00_101_10001_01010_101_01_001111, .vborrow 5 17 10 5 1)] = true := by decide +kernel

theorem test_decode_mask : decodes [
  (0b100110_00_101_00_010_00_110_00000000000, .mand 5 2 6),
  (0b100110_00_101_00_010_00_110_00000000001, .mor 5 2 6),
  (0b100110_00_101_00_010_00_110_00000000010, .mxor 5 2 6),
  (0b100110_00_101_00_010_00_110_00000000011, .mandn 5 2 6),
  (0b100110_00_101_00_010_0000000000000100, .mnot 5 2),
  (0b100110_00_101_00_010_0000000000000101, .mmov 5 2),
  (0b100110_00_101_00_010_10101_00000000110, .mshup 5 2 21),
  (0b100110_00_101_00_010_10101_00000000111, .mshdn 5 2 21),
  (0b100110_00011_00_010_0000000000001000, .mpopc 3 2),
  (0b100110_00011_00_010_0000000000001001, .mfirst 3 2),
  (0b100110_00_101_000000000000000001010, .mset 5),
  (0b100110_00_101_000000000000000001011, .mclr 5),
  (0b100110_00011_00_010_0000000000001100, .mtov 3 2),
  (0b100110_00_101_10001_0000000000001101, .vtom 5 17)] = true := by decide +kernel

theorem test_decode_vperm : decodes [
  (0b100111_00011_00000_01010_101_01_000000, .vmov 3 10 5 1),
  (0b100111_00011_10001_01010_101_01_000001, .vsplat 3 17 10 5 1),
  (0b100111_00011_10001_01010_101_01_000010, .vslup 3 17 10 5 1),
  (0b100111_00011_10001_01010_101_01_000011, .vsldn 3 17 10 5 1),
  (0b100111_00011_10001_01010_101_00000100, .vrgath 3 17 10 5),
  (0b100111_00011_10001_01010_101_01_000101, .vrows 3 17 10 5 1),
  (0b100111_00011_10001_01010_101_01_000110, .vcols 3 17 10 5 1),
  (0b100111_00011_10001_01010_101_01_000111, .vroww 3 17 10 5 1),
  (0b100111_00011_10001_01010_101_01_001000, .vcolw 3 17 10 5 1),
  (0b100111_00011_10001_01010_000_01_001001, .vextr 3 17 10 1),
  (0b100111_00011_10001_01010_000_01_001010, .vins 3 17 10 1),
  (0b100111_00011_10001_01010_101_01_001011, .vmerge 3 17 10 5 1),
  (0b100111_00011_0000000000_101_00001100, .vid 3 5)] = true := by decide +kernel

theorem test_decode_vsparse : decodes [
  (0b101000_00011_10001_00000_101_00000000, .vcompress 3 17 5),
  (0b101000_00011_10001_00000_101_00000001, .vexpand 3 17 5),
  (0b101000_00011_00_010_00000_101_00000010, .viota 3 2 5),
  (0b101000_00011_10001_00000_101_00000011, .vconflict 3 17 5),
  (0b101000_00011_10001_00111_101_00000100, .vsegscan 3 17 7 5),
  (0b101000_00011_10001_01010_101_00000101, .vinter 3 17 10 5),
  (0b101000_00011_10001_01010_101_00000110, .vdelta 3 17 10 5),
  (0b101000_00011_10001_01010_00000000111, .vprune48 3 17 10),
  (0b101000_00011_10001_01010_101_00001000, .vsortseg 3 17 10 5),
  (0b101000_00011_10001_01010_101_00001001, .vnz 3 17 10 5)] = true := by decide +kernel

theorem test_decode_vred : decodes [
  (0b101001_00011_10001_00000_101_00000000, .vrsum 3 17 5),
  (0b101001_00011_10001_00000_101_00000001, .vrmin 3 17 5),
  (0b101001_00011_10001_00000_101_00000010, .vrmax 3 17 5),
  (0b101001_00011_10001_00000_101_00000011, .vrand 3 17 5),
  (0b101001_00011_10001_00000_101_00000100, .vror 3 17 5),
  (0b101001_00011_10001_00000_101_00000101, .vrxor 3 17 5),
  (0b101001_00011_10001_00000_101_00000110, .vfrsum 3 17 5),
  (0b101001_00011_10001_00000_101_00000111, .vfrmin 3 17 5),
  (0b101001_00011_10001_00000_101_00001000, .vfrmax 3 17 5),
  (0b101001_00011_10001_01010_101_00001001, .vfdot 3 17 10 5)] = true := by decide +kernel

theorem test_decode_fmas_fence_state_vstrip_vcvt_vtag : decodes [
  (0b011010_00011_10001_01010_11101_00000_1, .fmadd 3 17 10 29 1),
  (0b011010_00011_10001_01010_11101_00001_1, .fmsub 3 17 10 29 1),
  (0b011101_0000000000_10_101101_010011_00, .fence 2 45 19),
  (0b011111_00011_000000000_000100000101, .mfs 3 261),
  (0b011111_00000_10001_0100_000100000101, .mts 17 261),
  (0b011111_00000_10001_1000_000100000101, .sets 17 261),
  (0b011111_00000_10001_1100_000100000101, .clrs 17 261),
  (0b100000_00011_10001_01010_00000_1_0_1011, .vstrip 3 17 10 1 0 11),
  (0b100100_00011_10001_00100_101_000_1_1001, .vcvt 3 17 4 5 1 9),
  (0b101010_00011_10001_0000000000000000, .vtagq 3 17),
  (0b101010_00011_10001_00000_101_00000001, .vwaitr 3 17 5),
  (0b101010_00011_0000000000_101_00000010, .vdrop 3 5),
  (0b101010_00011_00000_01110_00000000011, .vprog 3 14)] = true := by decide +kernel

theorem test_decode_vld : decodes [
  (0b110000_00011_10001_00000_101_00000000, .vld 3 17 5),
  (0b110000_00011_10001_01010_101_00000001, .vlds 3 17 10 5),
  (0b110000_00011_10001_01010_101_00000010, .vldx 3 17 10 5),
  (0b110000_00011_10001_0_1010_101_100_00011, .vldseg 3 17 10 5 4),
  (0b110000_00011_10001_00000_101_00000100, .vldw 3 17 5),
  (0b110000_00011_10001_01010_101_00000101, .vldl 3 17 10 5),
  (0b110000_00011_10001_01010_101_00000110, .vldsc 3 17 10 5),
  (0b110000_00011_10001_0000000000000111, .vrload 3 17)] = true := by decide +kernel

theorem test_decode_vst : decodes [
  (0b110001_00011_10001_00000_101_00000000, .vst 3 17 5),
  (0b110001_00011_10001_01010_101_00000001, .vsts 3 17 10 5),
  (0b110001_00011_10001_01010_101_00000010, .vstx 3 17 10 5),
  (0b110001_00011_10001_0_1010_101_100_00011, .vstseg 3 17 10 5 4),
  (0b110001_00011_10001_01010_101_00000101, .vstc 3 17 10 5),
  (0b110001_00011_10001_01010_101_00000110, .vstsc 3 17 10 5),
  (0b110001_00011_10001_0000000000000111, .vrsave 3 17)] = true := by decide +kernel

theorem test_decode_vbind : decodes [
  (0b110100_00_101_10001_01010_00000000000, .vbind 5 17 10),
  (0b110100_00_101_000000000000000000001, .vunbind 5),
  (0b110100_00011_00_010_0000000000000010, .vbpos 3 2),
  (0b110100_00_101_10001_0000000000000011, .vbset 5 17),
  (0b110100_00_101_10001_00_1_10_00000000100, .relay 5 17 1 2)] = true := by decide +kernel

theorem test_decode_upd : decodes [
  (0b110101_00011_10001_0000000000000000, .urgn 3 17),
  (0b110101_00011_10001_01010_101_00000001, .upd 3 17 10 5),
  (0b110101_00011_000000000000000000010, .useal 3),
  (0b110101_00011_000000000000000000011, .uflush 3),
  (0b110101_00011_000000000000000000100, .uclose 3)] = true := by decide +kernel

theorem test_decode_mat : decodes [
  (0b110110_00011_10001_0_1010_00000000000, .mmode 3 17 10),
  (0b110110_000_10_000000000000000000010, .tzero 2),
  (0b110110_00011_000_10_01010_101_00000011, .tgetr 3 2 10 5),
  (0b110110_00011_000_10_01010_101_00000100, .tgetc 3 2 10 5),
  (0b110110_000_10_10001_01010_101_00000101, .tsetr 2 17 10 5),
  (0b110110_000_10_10001_01010_101_00000110, .tsetc 2 17 10 5),
  (0b110110_110_10_10001_01010_101_00000111, .tstr 6 2 17 10 5),
  (0b110110_110_10_10001_01010_101_00001000, .tstx 6 2 17 10 5),
  (0b110110_00_111_10001_0000000000001001, .mcbld 7 17),
  (0b110110_00000000000000000000000001, .moff)] = true := by decide +kernel

theorem test_decode_mop : decodes [
  (0b110111_110_10_10001_01010_00000_101_000, .tfold 6 2 17 10 5),
  (0b110111_110_10_10001_01010_00000_101_001, .tfoldn 6 2 17 10 5),
  (0b110111_110_10_10001_01010_00000_101_010, .tfoldi8 6 2 17 10 5),
  (0b110111_110_10_10001_01010_00000_101_011, .tfoldf8 6 2 17 10 5),
  (0b110111_110_10_10001_01010_00000_101_100, .tfoldc4 6 2 17 10 5),
  (0b110111_110_10_10001_01010_11101_101_101, .tfoldsp 6 2 17 10 29 5)] = true := by decide +kernel

theorem test_decode_slalom : decodes [
  (0b111000_00000_10001_01010_101_00000000, .sclaimw 17 10 5),
  (0b111000_00000_10001_01010_101_00000001, .sclaimr 17 10 5),
  (0b111000_00_101_00_010_0000000000000010, .swave 5 2),
  (0b111000_0000000_010_0000000000000011, .sretire 2),
  (0b111000_00011_000000000000000000101, .spend 3),
  (0b111000_00000000000000000000000100, .sclear)] = true := by decide +kernel

theorem test_decode_acopy : decodes [
  (0b111011_00011_10001_01010_00000000000, .acopy 3 17 10),
  (0b111011_00011_10001_0000000000000001, .acwait 3 17),
  (0b111011_00011_10001_01001_00000000010, .acq 3 17 9),
  (0b111011_00000_10001_0000000000000011, .acresume 17),
  (0b111011_00000_10001_0000000000000100, .accancel 17)] = true := by decide +kernel

theorem test_decode_rows_vemb_dvorine_cx : decodes [
  (0b110010_00011_10001_00000_101_00000000, .vldrow 3 17 5),
  (0b110010_00011_10001_00000_101_00000001, .vstrow 3 17 5),
  (0b110011_00011_10001_01010_11101_101_000, .vemb 3 17 10 29 5),
  (0b111001_00011_10001_0000000000000000, .cxload 3 17),
  (0b111001_00011_000000000000000000001, .cxdrop 3),
  (0b111001_00011_10001_0000000000000010, .cxq 3 17),
  (0b111010_00011_10001_01010_11101_101_011, .cx 3 17 10 29 5 3)] = true := by decide +kernel


/-- A word of each reason that makes it no instruction (R78), and the reason the decoder gives. -/
noncomputable def rejects (l : List (BitVec 32 × Reject)) : Bool := l.all fun x => decide (decode x.1 = .bad x.2)

theorem test_decode_rejects : rejects [
  (0x00000000, .reservedWord), (0xFFFFFFFF, .reservedWord),
  (0b111100_00001_00001_00001_00000000000, .reservedMajor),
  (0b000001_00011_00001_00010_000_00011000, .reservedFunction),
  (0b000001_00011_00001_00010_001_00000000, .reservedField),
  (0b100001_00011_00001_00010_000_11_000000, .form),
  (0b100010_00011_00001_00010_000_10_000000, .form),
  (0b100001_00011_00001_00010_000_00_010110, .carryMask),
  (0b100100_00011_00001_01000_000_000_0_0000, .roundingCode),
  (0b100000_00011_00001_00010_00000_0_0_1111, .etypeCode),
  (0b011111_00011_00000_0000_000000001101, .stateNumber)] = true := by decide +kernel

/-! ### Ill-formed terms: each rule of single members refuses a term, and accepts its neighbour -/

/-- What `illFormed` answers on each term of a list. -/
def judged (l : List (Instr × Option Reject)) : Bool := l.all fun x => decide (illFormed x.1 = x.2)

theorem test_illFormed_forms : judged [
  (.vadd 3 1 2 0 3, some .form), (.vadd 3 1 2 0 2, none), (.vfadd 3 1 2 0 2, some .form), (.vfadd 3 1 2 0 1, none),
  (.vsplat 3 1 2 0 0, some .form), (.vsplat 3 1 2 0 2, none), (.vadc 3 1 2 0 0, some .carryMask), (.vadc 3 1 2 1 0, none),
  (.vborrow 3 1 2 1 3, some .form), (.vcarry 3 1 2 0 0, some .carryMask), (.vcarry 3 1 2 7 2, none)] = true := by decide +kernel

theorem test_illFormed_codes : judged [
  (.vcvt 3 1 8 0 0 4, some .roundingCode), (.vcvt 3 1 7 0 0 4, none), (.vcvt 3 1 7 0 0 15, some .etypeCode),
  (.fcvti 3 1 6 0, some .roundingCode), (.fcvti 3 1 5 0, none), (.vstrip 3 1 2 0 0 15, some .etypeCode),
  (.vstrip 3 1 2 0 0 14, none), (.vsegscan 3 1 9 0, some .operator), (.vsegscan 3 1 8 0, none),
  (.vprog 3 0, some .distance), (.vprog 3 16, some .distance), (.vprog 3 15, none),
  (.vldseg 25 1 4 0 7, some .fieldCount), (.vldseg 24 1 4 0 7, none), (.vstseg 24 1 15 0 7, some .etypeCode),
  (.acq 3 1 10, some .wordSelector), (.acq 3 1 9, none), (.windowRetire, some .event)] = true := by decide +kernel

theorem test_illFormed_states : judged [
  (.mfs 3 0x00C, none), (.mfs 3 0x00D, some .stateNumber), (.mts 3 0x010, none), (.mts 3 0x016, some .stateNumber),
  (.sets 3 0x019, none), (.sets 3 0x01A, some .stateNumber), (.clrs 3 0x024, none), (.clrs 3 0x025, some .stateNumber),
  (.mfs 3 0x031, none), (.mfs 3 0x032, some .stateNumber), (.mts 3 0x105, none), (.mts 3 0x106, some .stateNumber),
  (.mts 3 0x111, none), (.mts 3 0x112, some .stateNumber), (.mts 3 0x121, none), (.mts 3 0x122, some .stateNumber),
  (.mts 3 0x130, none), (.mts 3 0x131, some .stateNumber)] = true := by decide +kernel

/-! ### A strand on a core, with five pages of memory within reach -/

/-- A page of 64 KiB that the translation buffer of core 0 maps to itself, with these low bits in its leaf: 0x3F gives every
permission, 0x37 none to write, and 0x7F every permission on a ROWHOME page. -/
def pageEntry (n low : Nat) : TlbEntry := { core := 0, asid := 0, va := n * 65536, bits := 16, pte := BitVec.ofNat 64 (n * 65536 + low) }

/-- The registers g0 to g16 of the strand: g1 and g2 are small, g3 is negative, g4 to g7 are addresses, g8 is 1.5 and g9 0.5 in
FP32, g10 is 1, g11 is all ones, g12 is 64, g13 is 8 bytes below the end of page 3, g14 starts page 5, g15 starts page 6, and
g16 is 2. -/
def bedRegs : List Word :=
  [0, 5, 3, -7, 0x20000, 0x20100, 0x20001, 0x30000, 0x3FC00000, 0x3F000000, 1, -1, 64, 0x3FFF8, 0x50000, 0x60000, 2]

/-- The vector registers v1 and v2 as two rows of four 32-bit elements: 7, 1, 7, 9, 0, 2, 7, 4 and 0, 4, 8, 12, 16, 20, 24, 28. -/
def bedV1 : BitVec 262144 := 0x00000004_00000007_00000002_00000000_00000009_00000007_00000001_00000007
def bedV2 : BitVec 262144 := 0x0000001C_00000018_00000014_00000010_0000000C_00000008_00000004_00000000

/-- A strand at rest on core 0, at user level, with VL 4, RL 2 and etype i32; m1 holds the bits 1, 0, 1, 1, 0, 0, 1, 0. -/
def bedStrand : Strand :=
  { placedStrand with
    g := Vector.ofFn fun k : Fin 32 => bedRegs.getD k.val 0, vl := 4, rl := 2, vtype := 4, gvlen := 512,
    v := ((Vector.replicate 32 0).set 1 bedV1).set 2 bedV2, m := (Vector.replicate 8 0).set 1 0x4D, twin := 0x30, tvec := 0x400 }

/-- The package in regular service with that strand, the only one of gang 1. -/
def bed : State :=
  { State.reset with
    cur := bedStrand, gangs := [placedGang State.reset], nextGang := 2, mgmt := { Mgmt.reset with phase := 3 },
    tlb := [pageEntry 1 0x3F, pageEntry 2 0x3F, pageEntry 3 0x3F, pageEntry 4 0x37, pageEntry 5 0x7F] }

/-- The same with changes to its strand. -/
def bedWith (f : Strand → Strand) : State := bed.upd f

/-- Its supervisor. -/
def bedSup : State := bedWith fun st => { st with sup := true }

/-- With another VTYPE. -/
def bedType (t : BitVec 6) : State := bedWith fun st => { st with vtype := t }

/-! ### Checks of the hypotheses of the statements -/

def invOf (s : State) : Bool :=
  Memory.wf s && Sparse.wf none s.links && Sparse.wf false s.poison && Sparse.wf false s.wsPoison &&
  Sparse.wf Queue.reset s.queues && Sparse.wf Island.reset s.islands && Sparse.wf CoreUnits.reset s.units && Sparse.wf none s.lastBusy &&
  s.gangs.all (fun g => Sparse.wf (Vector.replicate 32 (Barrier.fresh 0)) g.named) &&
  s.strands.all fun st => decide (1 ≤ st.frm.toNat ∧ st.frm.toNat ≤ 4 ∧ st.window.length ≤ 16)

theorem inv_of {s : State} (h : invOf s = true) : s.Inv := by
  simp only [invOf, Bool.and_eq_true, List.all_eq_true, decide_eq_true_eq] at h
  obtain ⟨⟨⟨⟨⟨⟨⟨⟨⟨h1, h2⟩, h3⟩, h4⟩, h5⟩, h6⟩, h7⟩, h8⟩, h9⟩, h10⟩ := h
  exact ⟨h1, h2, h3, h4, h5, h6, h7, h8, h9, fun st hs => ⟨⟨(h10 st hs).1, (h10 st hs).2.1⟩, (h10 st hs).2.2⟩⟩

def quietOf (s : State) : Bool := s.gangs.all fun g => g.regions.toList.all fun o => o.all fun r => r.entries.isEmpty

theorem quiet_of {s : State} (h : quietOf s = true) : s.Quiet := by
  have none_in : ∀ g ∈ s.gangs, ∀ r, some r ∈ g.regions.toList → r.entries = [] := fun g hg r hr => by
    simpa using List.all_eq_true.1 (List.all_eq_true.1 h g hg) (some r) hr
  refine ⟨fun line => ?_, fun g hg r hr e he => by rw [none_in g hg r hr] at he; cases he⟩
  rw [State.pressDue, Bool.eq_false_iff]
  intro hd
  obtain ⟨g, hg, hr⟩ := List.any_eq_true.1 hd
  obtain ⟨o, ho, he⟩ := List.any_eq_true.1 hr
  cases o with
  | none => cases he
  | some r => simp [none_in g hg r ho] at he

def restOf (s : State) : Bool := s.cur.window.isEmpty && !s.cur.ahead && !s.cur.stepping

theorem rest_of {s : State} (h : restOf s = true) : s.AtRest := by
  simp only [restOf, Bool.and_eq_true, List.isEmpty_iff, Bool.not_eq_true'] at h
  exact ⟨h.1.1, h.1.2, h.2⟩

def openOf (s : State) (i : Instr) : Bool :=
  restOf s && illFormed i == none && (s.cur.foot i).vs.all (fun r => s.cur.streamSlot false r == none) &&
  (s.cur.foot i).vd.all fun r => s.cur.streamSlot true r == none

theorem open_of {s : State} {i : Instr} (h : openOf s i = true) : s.Open i := by
  simp only [openOf, Bool.and_eq_true, List.all_eq_true, beq_iff_eq] at h
  exact ⟨rest_of h.1.1.1, h.1.1.2, h.1.2, h.2⟩

theorem opens_of {s : State} {l : List Instr} (h : l.all (openOf s) = true) : ∀ i ∈ l, s.Open i := fun i hi =>
  open_of (List.all_eq_true.1 h i hi)

theorem ready_of {s : State} {l : List (BitVec 5)} (h : l.all (fun r => !s.cur.pending r) = true) : s.Ready l := fun r hr => by
  simpa using List.all_eq_true.1 h r hr

theorem unrelayed_of {s : State} {l : List (BitVec 5)}
    (h : l.all (fun r => s.cur.relaySlot false r == none && s.cur.relaySlot true r == none) = true) : s.Unrelayed l := by
  intro r hr send
  have := List.all_eq_true.1 h r hr
  simp only [Bool.and_eq_true, beq_iff_eq] at this
  cases send <;> simp [this]

theorem clean_of {s : State} {pa : Nat} (h : s.poisoned pa = false) : s.Clean (.dev pa) := fun _ hp => by
  injection hp with hp
  exact hp ▸ h

theorem clean_all {s : State} (h : s.poison = []) (l : Loc) : s.Clean l := fun pa _ => by
  rw [State.poisoned, h]
  rfl

/-- The place of an access that the translation buffer maps to a page without code, whatever the memories hold. -/
def mappedPlace (s : State) (va : Word) (n : Nat) (k : Kind) : Option Loc :=
  if va.toNat % n ≠ 0 ∨ canonical va = false ∨ s.permits.isEmpty = false then none
  else
    match s.tlbHit s.cur va with
    | none => none
    | some t =>
      match s.locate (leafAddr t.pte t.bits va) with
      | some (.dev pa) => if mayAccess k s.cur.sup t.pte then some (.dev pa) else none
      | _ => none

theorem place_of {s : State} {va : Word} {n : Nat} {k : Kind} {l : Loc} (hk : k = .read ∨ k = .write)
    (hc : mappedPlace s va n k = some l) : s.place va n k = .ok l := by
  unfold mappedPlace at hc
  split at hc
  · cases hc
  · rename_i hv
    simp only [not_or, Decidable.not_not, Bool.not_eq_false, List.isEmpty_iff] at hv
    split at hc
    · cases hc
    · rename_i t ht
      split at hc
      · rename_i hd
        split at hc
        · rename_i hm
          cases hc
          have hp : ∀ pa, s.permitted pa = false := fun pa => by rw [State.permitted, hv.2.2]; rfl
          simp only [State.place, State.translate, State.leafFor, hv.1, hv.2.1, ht, hm, hd]
          rcases hk with rfl | rfl <;> simp [hp, Loc.carried]
        · cases hc
      · cases hc

theorem read_of {s : State} {va : Word} {n : Nat} {l : Loc} (h : mappedPlace s va n .read = some l) : s.place va n .read = .ok l :=
  place_of (.inl rfl) h

theorem fixed_of {s : State} {va : Word} {n : Nat} {l : Loc} (h : mappedPlace s va n .write = some l) : s.Fixed va n l :=
  fun _ _ _ _ => place_of (.inr rfl) h

theorem bed_inv : bed.Inv := inv_of (by decide +kernel)
theorem bed_quiet : bed.Quiet := quiet_of (by decide +kernel)
theorem bed_rest : bed.AtRest := rest_of (by decide +kernel)
theorem bedSup_rest : bedSup.AtRest := rest_of (by decide +kernel)

/-! ### Witnesses: states and operands that meet the hypotheses of the statements -/

theorem witness_IntegerResult : bed.Ready [3, 1, 2] ∧ bed.Ready [0, 1] := ⟨ready_of (by decide +kernel), ready_of (by decide +kernel)⟩

theorem witness_ScalarFpResult : bed.Ready [3, 8, 9, 10] ∧ bed.Ready [3, 8] := ⟨ready_of (by decide +kernel), ready_of (by decide +kernel)⟩

/-- An access of each size, loading and storing, the last of its page. -/
theorem witness_AccessResult : bed.Inv ∧ bed.AtRest ∧ bed.Quiet ∧ bed.Clean (.dev 0x2FFFF) ∧ bed.Clean (.dev 0x2FFF8) ∧
    bed.place 0x2FFFF 1 .read = .ok (.dev 0x2FFFF) ∧ bed.place 0x2FFFE 2 .read = .ok (.dev 0x2FFFE) ∧
    bed.place 0x2FFFC 4 .read = .ok (.dev 0x2FFFC) ∧ bed.place 0x2FFF8 8 .read = .ok (.dev 0x2FFF8) ∧
    bed.place 0x2FFFF 1 .write = .ok (.dev 0x2FFFF) ∧ bed.place 0x2FFFE 2 .write = .ok (.dev 0x2FFFE) ∧
    bed.place 0x2FFFC 4 .write = .ok (.dev 0x2FFFC) ∧ bed.place 0x2FFF8 8 .write = .ok (.dev 0x2FFF8) :=
  ⟨bed_inv, bed_rest, bed_quiet, clean_of (by decide +kernel), clean_of (by decide +kernel), rfl, rfl, rfl, rfl, rfl, rfl, rfl, rfl⟩

/-- A strand whose line at 0x20000 holds its tag at its generation. -/
def bedLinked : State := { bed with links := [(0x800, some ⟨1, 0, 0⟩)] }

theorem witness_OrderedAccess : bedLinked.Inv ∧ bedLinked.AtRest ∧ bedLinked.Quiet ∧ bedLinked.poisoned 0x20000 = false ∧
    bedLinked.place (bedLinked.rg 4) 4 .read = .ok (.dev 0x20000) ∧ bedLinked.place (bedLinked.rg 4) 8 .read = .ok (.dev 0x20000) ∧
    bedLinked.place (bedLinked.rg 4) 4 .write = .ok (.dev 0x20000) ∧ bedLinked.place (bedLinked.rg 4) 8 .write = .ok (.dev 0x20000) ∧
    bedLinked.tag (0x20000 / 64) = some ⟨bedLinked.cur.gang, bedLinked.cur.id, bedLinked.cur.linkGen⟩ ∧
    bed.tag (0x20000 / 64) = none ∧ bedLinked.cur.late = [] :=
  ⟨inv_of (by decide +kernel), rest_of (by decide +kernel), quiet_of (by decide +kernel), rfl, rfl, rfl, rfl, rfl, rfl, rfl, rfl⟩

/-- A branch taken and one not taken, and a target on and off a block boundary. -/
theorem witness_TransferResult : bed.Ready [1, 2] ∧ bed.Ready [4, 30] ∧ bed.rg 1 ≠ bed.rg 2 ∧ bed.rg 1 = bed.rg 1 ∧
    (bed.rg 2).toInt < (bed.rg 1).toInt ∧ ¬ (bed.rg 1).toInt < (bed.rg 2).toInt ∧ (bed.rg 4).toNat % 64 = 0 ∧
    (bed.rg 6).toNat % 64 ≠ 0 := ⟨ready_of (by decide +kernel), ready_of (by decide +kernel), by decide +kernel⟩

/-- The gang of `bed` with named barrier 3 of its group as given. -/
def bedBarrier (x : Barrier) : State := bed.setBarrier 1 0 (some 3) x

/-- A barrier that gathers, one that releases, and one with EXPECT 0. -/
theorem witness_SyncMembers :
    (let x := (bedBarrier ⟨2, 1, 1, 0, false, 0⟩).barrier bedStrand (some 3); x.expect ≠ 0 ∧ x.rel = false ∧ x.arrived ≠ 0) ∧
    (let x := (bedBarrier ⟨2, 2, 2, 0, true, 0⟩).barrier bedStrand (some 3); x.expect ≠ 0 ∧ x.rel = true) ∧
    (let x := (bedBarrier ⟨0, 0, 0, 0, false, 0⟩).barrier bedStrand (some 3); x.expect = 0 ∧ x.rel = false ∧ x.arrived = 0) ∧
    bed.cur.pc ∉ bed.cur.arrived ∧ bed.Ready [1] ∧ bed.performed 0b111111 = true ∧
    (∀ i < 4, (0b1111#4).getLsbD i = true → bed.drained i = true) ∧ bed.cur.event = false ∧
    (bedWith fun st => { st with event := true }).cur.event = true :=
  ⟨by decide +kernel, by decide +kernel, by decide +kernel, by decide +kernel, ready_of (by decide +kernel), by decide +kernel,
   by decide +kernel, rfl, rfl⟩

theorem witness_BarrierPhase : bed.Inv ∧ (∃ g, bed.gangOf bedStrand.gang = some g) ∧ (∀ n, some 31 = some n → n < 32) ∧
    (let x := (bedBarrier ⟨2, 1, 1, 0, false, 0⟩).barrier bedStrand (some 3); x.expect ≠ 0 ∧ x.expect ≤ x.arrived + 1) ∧
    (let x := bed.barrier bedStrand none; x.expect ≠ 0 ∧ x.expect ≤ x.arrived + 1) ∧
    (∃ x ∈ (bed.arrive bedStrand none true).strands, x.gang = bedStrand.gang ∧ x.group = bedStrand.group) :=
  ⟨bed_inv, ⟨_, rfl⟩, fun n h => by injection h; omega, by decide +kernel, by decide +kernel, ⟨(bed.arrive bedStrand none true).cur,
    List.mem_cons_self, by decide +kernel, by decide +kernel⟩⟩

theorem witness_StateRead : bed.AtRest ∧ bed.cur.sup = false ∧ bedSup.AtRest ∧ bedSup.cur.sup = true :=
  ⟨bed_rest, rfl, bedSup_rest, rfl⟩

/-- The last number of user level, and a supervisor with any. -/
theorem witness_StateWrite : bed.AtRest ∧ (0x100 ≤ (0x031 : BitVec 12).toNat → bed.cur.sup = true) ∧ bedSup.AtRest ∧
    (0x100 ≤ (0x130 : BitVec 12).toNat → bedSup.cur.sup = true) := ⟨bed_rest, by decide, bedSup_rest, fun _ => rfl⟩

theorem witness_VstripResult : bed.Ready [3, 1, 2] ∧ bed.cur.gvlen.toNat ≤ 8 * bed.cur.grsz.toNat ∧
    min (bed.rg 1).toNat (bed.cur.gvlen.toNat / sewOf 4) ≠ 0 := ⟨ready_of (by decide +kernel), by decide +kernel, by decide +kernel⟩

theorem witness_TrapEntry : bed.Inv ∧ bed.cur.window = [] ∧ bed.cur.updq = [] ∧ bed.cur.midSlice = false ∧
    bed.blockOk bed.cur.twinAddr 0x4840 = true := ⟨bed_inv, rfl, rfl, by decide +kernel, by decide +kernel⟩

theorem witness_TrapThenEret : bed.Inv ∧ bed.cur.window = [] ∧ bed.cur.updq = [] ∧ bed.cur.srseed ≠ 0 ∧
    bed.blockOk bed.cur.twinAddr 0x4840 = true := ⟨bed_inv, rfl, rfl, by decide +kernel, by decide +kernel⟩

theorem witness_EretResult : let s := bedSup.rawWrite 0x30000 4 0x06405348
    s.cur.sup = true ∧ s.cur.window = [] ∧ s.physRead s.cur.twinAddr 4 = 0x06405348 := by decide +kernel

/-- A number that no table lists, one from 0x100 on, a misaligned address and one that no page maps. -/
theorem witness_ScalarTraps : bed.cur.sup = false ∧ bed.cur.uiIn = false ∧ stateAssigned 0x00D = false ∧
    (stateAssigned 0x100 = true ∧ 0x100 ≤ (0x100 : BitVec 12).toNat) ∧ bed.AtRest ∧ (0x20001 : Word).toNat % 2 ≠ 0 ∧
    bed.translate bed.cur 0x60000 .read = .error 0x04 ∧ bed.translate bed.cur 0x60000 .write = .error 0x05 :=
  ⟨rfl, rfl, rfl, by decide, bed_rest, by decide, rfl, rfl⟩

/-- A strand with a user-level vector. -/
def bedUser (inHandler : Bool) : State := bedWith fun st => { st with uivec := 0x440, enTrapu := true, uiIn := inHandler }

theorem witness_UserTraps : (bedUser false).AtRest ∧
    ((bedUser false).cur.sup = false ∧ (bedUser false).cur.uiIn = false ∧ (bedUser false).cur.enTrapu = true ∧
      (bedUser false).cur.uivec ≠ 0) ∧ bed.AtRest ∧ bed.cur.enTrapu = false ∧
    (bedUser true).AtRest ∧ (bedUser true).cur.sup = false ∧ (bedUser true).cur.uiIn = true :=
  ⟨rest_of (by decide +kernel), by decide +kernel, bed_rest, rfl, rest_of (by decide +kernel), rfl, rfl⟩

theorem witness_SystemMembers : bedSup.cur.window = [] ∧ bedSup.cur.sup = true ∧
    (∃ g, bedSup.gangOf bedSup.cur.gang = some g ∧ g.killed = none) ∧ bedSup.cur.updq = [] ∧
    (∀ c ∈ bedSup.cur.copies.toList, c.st ≠ 1) ∧ bedSup.relayBusy = false :=
  ⟨rfl, rfl, ⟨_, rfl, rfl⟩, rfl, by decide +kernel, by decide +kernel⟩

/-- The three forms, and the ends of the range of integer etypes. -/
theorem witness_VintResult : (∀ t ∈ [0#6, 4, 7], (bedType t).etype < 8 ∧ ∀ i ∈ [Instr.vadd 3 1 2 1 0, .vsub 3 1 2 0 1,
    .vmul 3 1 2 0 2, .vmulh 3 1 2 0 0, .vmulhn 3 1 2 0 0, .vdiv 3 1 2 0 0, .vdivn 3 1 2 0 0, .vrem 3 1 2 0 0, .vremn 3 1 2 0 0,
    .vmin 3 1 2 0 0, .vmax 3 1 2 0 0, .vminn 3 1 2 0 0, .vmaxn 3 1 2 0 0, .vand 3 1 2 0 0, .vor 3 1 2 0 0, .vxor 3 1 2 0 0,
    .vshl 3 1 2 0 0, .vshr 3 1 2 0 0, .vshra 3 1 2 0 0, .vsadd 3 1 2 0 0, .vssub 3 1 2 0 0, .vmacc 3 1 2 0 0, .vadc 3 1 2 1 0,
    .vsbc 3 1 2 1 0], (bedType t).Open i) := by
  intro t ht
  refine ⟨?_, opens_of ?_⟩ <;> revert t <;> decide +kernel

theorem witness_VfpResult : (∀ t ∈ [8#6, 11], (8 ≤ (bedType t).etype ∧ (bedType t).etype ≤ 11) ∧ ∀ i ∈ [Instr.vfadd 3 1 2 0 0,
    .vfsub 3 1 2 0 1, .vfmul 3 1 2 1 0, .vfdiv 3 1 2 0 0, .vfmin 3 1 2 0 0, .vfmax 3 1 2 0 0, .vfsqrt 3 1 0, .vfabs 3 1 0,
    .vfneg 3 1 0, .vfsgn 3 1 2 0 0, .vfma 3 1 2 4 0, .vfms 3 1 2 4 0, .vfnma 3 1 2 4 0, .vfnms 3 1 2 4 0], (bedType t).Open i) ∧
    (bedType 7).etype < 8 ∧ (bedType 7).Open (.vima 3 1 2 4 0) ∧
    (bedType 10).etype = 10 ∧ (bedType 10).count * (2 * (bedType 10).sew) ≤ (bedType 10).cur.grsz.toNat * 8 ∧
    (bedType 10).Open (.vwfma 3 1 2 4 0) :=
  ⟨fun t ht => ⟨by revert t; decide +kernel, opens_of (by revert t; decide +kernel)⟩, by decide +kernel, open_of (by decide +kernel),
   by decide +kernel, by decide +kernel, open_of (by decide +kernel)⟩

theorem witness_VcvtResult : (bedType 13).etype ≤ 13 ∧ (13#4).toNat ≤ 13 ∧
    (bedType 13).count * sewOf 13 ≤ (bedType 13).cur.grsz.toNat * 8 ∧ (bedType 13).Open (.vcvt 3 1 7 0 1 13) ∧
    bed.etype ≤ 13 ∧ bed.count * sewOf 11 ≤ bed.cur.grsz.toNat * 8 ∧ bed.Open (.vcvt 3 1 0 1 0 11) :=
  ⟨by decide +kernel, by decide, by decide +kernel, open_of (by decide +kernel), by decide +kernel, by decide +kernel,
   open_of (by decide +kernel)⟩

theorem witness_VcmpResult : (bed.etype < 8 ∧ ∀ i ∈ [Instr.vceq 3 1 2 0 0, .vcne 3 1 2 0 0, .vclt 3 1 2 0 0, .vcle 3 1 2 0 0,
    .vcgt 3 1 2 0 1, .vcge 3 1 2 0 2, .vcltn 3 1 2 1 0, .vclen 3 1 2 0 0, .vcgtn 3 1 2 0 0, .vcgen 3 1 2 0 0, .vcarry 3 1 2 1 0,
    .vborrow 3 1 2 1 0], bed.Open i) ∧ 8 ≤ (bedType 10).etype ∧ (bedType 10).etype ≤ 11 ∧
    ∀ i ∈ [Instr.vfceq 3 1 2 0 0, .vfclt 3 1 2 0 1, .vfcle 3 1 2 0 0, .vfcun 3 1 2 0 0], (bedType 10).Open i :=
  ⟨⟨by decide +kernel, opens_of (by decide +kernel)⟩, by decide +kernel, by decide +kernel, opens_of (by decide +kernel)⟩

theorem witness_MaskResult : bed.etype ≠ 15 ∧ ∀ i ∈ [Instr.mand 3 1 2, .mor 3 1 2, .mxor 3 1 2, .mandn 3 1 2, .mnot 3 1, .mmov 3 1,
    .mshup 3 1 31, .mshdn 3 1 31, .mset 3, .mclr 3, .vtom 3 1, .mtov 3 1, .mpopc 3 1, .mfirst 3 1], bed.Open i :=
  ⟨by decide +kernel, opens_of (by decide +kernel)⟩

/-- g1 = 5 is below N = 8, g10 = 1 below RL = 2 and VL = 4. -/
theorem witness_VpermResult : bed.etype ≠ 15 ∧ bed.amount 1 1 < bed.count ∧ bed.amount 1 10 < bed.cur.rl.toNat ∧
    bed.amount 1 2 < bed.cur.vl.toNat ∧ bed.etype < 8 ∧ ∀ i ∈ [Instr.vmov 3 1 0 0, .vsplat 3 1 1 0 1, .vslup 3 1 2 0 1, .vsldn 3 1 2 0 2,
    .vrgath 3 1 2 0, .vrows 3 1 10 0 1, .vcols 3 1 2 0 1, .vroww 3 1 10 0 1, .vcolw 3 1 2 0 1, .vextr 3 1 1 1, .vins 3 1 1 1,
    .vmerge 3 1 2 1 0, .vid 3 0], bed.Open i :=
  ⟨by decide +kernel, by decide +kernel, by decide +kernel, by decide +kernel, by decide +kernel, opens_of (by decide +kernel)⟩

theorem witness_SelectionResult : bed.etype ≠ 15 ∧ bed.etype < 8 ∧ ∀ i ∈ [Instr.vcompress 3 1 1, .vexpand 3 1 1, .viota 3 1 0,
    .vconflict 3 1 1, .vinter 3 1 2 0], bed.Open i := ⟨by decide +kernel, by decide +kernel, opens_of (by decide +kernel)⟩

theorem witness_SegmentedScan : (∀ o ∈ [0#5, 1, 2, 3, 4, 5], bed.etype < 8 ∧ bed.Open (.vsegscan 3 1 o 1)) ∧
    ∀ o ∈ [6#5, 7, 8], 8 ≤ (bedType 10).etype ∧ (bedType 10).etype ≤ 11 ∧ (bedType 10).Open (.vsegscan 3 1 o 1) :=
  ⟨fun o h => ⟨by decide +kernel, open_of (by revert o; decide +kernel)⟩,
   fun o h => ⟨by decide +kernel, by decide +kernel, open_of (by revert o; decide +kernel)⟩⟩

/-- VL 8 for the prune; the sorted sources of the first row of v1, whose keys are 7, 1, 7, 9. -/
theorem witness_PairedResults : bed.etype ≤ 11 ∧ bed.Open (.vdelta 3 1 4 1) ∧
    (let s := bedWith fun st => { st with vl := 8, rl := 1, vtype := 0 }
     s.etype = 0 ∧ s.cur.vl.toNat % 8 = 0 ∧ s.Open (.vprune48 3 1 4)) ∧
    (let s := bedWith fun st => { st with rl := 1 }
     s.etype < 8 ∧ s.count * 32 ≤ s.cur.grsz.toNat * 8 ∧ s.Open (.vsortseg 3 1 4 0) ∧
     [1, 0, 2, 3].Perm ((List.range s.count).filter (s.guard 0)) ∧
     [1, 0, 2, 3].Pairwise fun p q => s.cur.elem 1 32 p < s.cur.elem 1 32 q ∨ s.cur.elem 1 32 p = s.cur.elem 1 32 q ∧ p < q) ∧
    bed.etype ≤ 13 ∧ bed.count * 32 ≤ bed.cur.grsz.toNat * 8 ∧ bed.Open (.vnz 3 1 4 1) :=
  ⟨by decide +kernel, open_of (by decide +kernel), ⟨by decide +kernel, by decide +kernel, open_of (by decide +kernel)⟩,
   ⟨by decide +kernel, by decide +kernel, open_of (by decide +kernel), by decide +kernel, by decide +kernel⟩, by decide +kernel,
   by decide +kernel, open_of (by decide +kernel)⟩

theorem witness_VredResult : bed.etype < 8 ∧ (∀ i ∈ [Instr.vrsum 3 1 1, .vrmin 3 1 1, .vrmax 3 1 0, .vrand 3 1 0, .vror 3 1 0,
    .vrxor 3 1 0], bed.Open i) ∧ 8 ≤ (bedType 10).etype ∧ (bedType 10).etype ≤ 11 ∧
    ∀ i ∈ [Instr.vfrsum 3 1 1, .vfrmin 3 1 0, .vfrmax 3 1 0, .vfdot 3 1 2 1], (bedType 10).Open i :=
  ⟨by decide +kernel, opens_of (by decide +kernel), by decide +kernel, by decide +kernel, opens_of (by decide +kernel)⟩

theorem witness_VtagResult : bed.etype ≠ 15 ∧ ∀ i ∈ [Instr.vtagq 3 1, .vwaitr 3 1 1, .vprog 3 15, .vdrop 3 1], bed.Open i :=
  ⟨by decide +kernel, opens_of (by decide +kernel)⟩

/-- An etype outside each set, and an operand beyond each limit: 5 ≥ 2 rows, 5 ≥ 4 columns, all ones ≥ 8 elements. -/
theorem witness_EntryTraps :
    (¬ (bedType 10).etype < 8 ∧ ∀ i ∈ [Instr.vadd 3 1 2 0 0, .vima 3 1 2 4 0, .vceq 3 1 2 0 0, .viota 3 1 0, .vsortseg 3 1 4 0, .vrsum 3 1 0],
      (bedType 10).Open i) ∧
    (¬ (8 ≤ bed.etype ∧ bed.etype ≤ 11) ∧ ∀ i ∈ [Instr.vfadd 3 1 2 0 0, .vfma 3 1 2 4 0, .vfceq 3 1 2 0 0, .vfdot 3 1 2 0], bed.Open i) ∧
    (¬ (bedType 15).etype ≠ 15 ∧ ∀ i ∈ [Instr.mand 3 1 2, .vmov 3 1 0 0, .vcompress 3 1 0, .vtagq 3 1], (bedType 15).Open i) ∧
    (¬ (bed.etype = 8 ∨ bed.etype = 9 ∨ bed.etype = 10) ∧ bed.Open (.vwfma 3 1 2 4 0)) ∧
    (¬ (bedType 12).etype ≤ 11 ∧ (bedType 12).Open (.vdelta 3 1 4 0)) ∧ (¬ (bedType 14).etype ≤ 13 ∧ (bedType 14).Open (.vnz 3 1 4 0)) ∧
    bed.cur.vl ≠ 0 ∧ bed.etype ≠ 15 ∧ bed.count ≤ bed.amount 1 11 ∧ bed.cur.rl.toNat ≤ bed.amount 1 1 ∧
    bed.cur.vl.toNat ≤ bed.amount 1 1 ∧ (∀ i ∈ [Instr.vsplat 3 1 11 0 1, .vextr 3 1 11 1, .vins 3 1 11 1, .vrows 3 1 1 0 1,
      .vcols 3 1 1 0 1, .vroww 3 1 1 0 1, .vcolw 3 1 1 0 1, .vdelta 3 1 3 0, .vsortseg 3 1 3 0], bed.Open i) ∧
    (bedType 0).etype = 0 ∧ (bedType 0).cur.vl.toNat % 8 ≠ 0 ∧ (bedType 0).Open (.vprune48 3 1 4) :=
  ⟨⟨by decide +kernel, opens_of (by decide +kernel)⟩, ⟨by decide +kernel, opens_of (by decide +kernel)⟩,
   ⟨by decide +kernel, opens_of (by decide +kernel)⟩, ⟨by decide +kernel, open_of (by decide +kernel)⟩,
   ⟨by decide +kernel, open_of (by decide +kernel)⟩, ⟨by decide +kernel, open_of (by decide +kernel)⟩, by decide +kernel,
   by decide +kernel, by decide +kernel, by decide +kernel, by decide +kernel, opens_of (by decide +kernel), by decide +kernel,
   by decide +kernel, open_of (by decide +kernel)⟩

/-- Each set of etypes left by one step. -/
theorem witness_EntryTraps_types :
    (¬ (bedType 8).etype < 8 ∧ (bedType 8).Open (.vsegscan 3 1 5 0)) ∧
    (¬ (8 ≤ (bedType 12).etype ∧ (bedType 12).etype ≤ 11) ∧ (bedType 12).Open (.vsegscan 3 1 6 0)) ∧
    (∀ t ∈ [2#6, 7, 10, 11, 14], ¬ ((bedType t).etype = 0 ∨ (bedType t).etype = 1 ∨ (bedType t).etype = 8 ∨ (bedType t).etype = 9 ∨
      (bedType t).etype = 12 ∨ (bedType t).etype = 13) ∧ (bedType t).Open (.vprune48 3 1 4)) ∧
    (¬ (bedType 14).etype ≤ 13 ∧ (bedType 14).Open (.vcvt 3 1 7 0 0 4)) ∧ bed.Open (.vcvt 3 1 7 0 0 14) ∧
    (¬ (bedType 15).etype ≠ 15 ∧ (bedType 15).cur.vl ≠ 0 ∧ ∀ i ∈ [Instr.vld 3 4 0, .vstx 3 4 2 0, .vldrow 3 4 0, .vrsave 3 4, .vldw 3 4 0,
      .sclaimw 4 2 1, .spend 3], (bedType 15).Open i) ∧
    (¬ ((8#4).toNat ≤ 13 ∧ bed.etype ≤ 13 ∧ ((8#4).toNat < 8 ↔ bed.etype < 8)) ∧
      ∀ i ∈ [Instr.vldseg 3 4 8 0 1, .vstseg 3 4 8 0 1], bed.Open i) ∧
    (¬ (bedType 11).etype = 10 ∧ (bedType 11).Open (.vemb 3 4 2 5 0)) := by
  refine ⟨⟨by decide +kernel, open_of (by decide +kernel)⟩, ⟨by decide +kernel, open_of (by decide +kernel)⟩,
    fun t ht => ⟨by revert t; decide +kernel, open_of (by revert t; decide +kernel)⟩, ⟨by decide +kernel, open_of (by decide +kernel)⟩,
    open_of (by decide +kernel), ⟨by decide +kernel, by decide +kernel, opens_of (by decide +kernel)⟩,
    ⟨by decide +kernel, opens_of (by decide +kernel)⟩, by decide +kernel, open_of (by decide +kernel)⟩

/-- A strand with rows of `vl` elements, `rl` of them, of a type, and registers of `bytes` bytes. -/
def bedShape (vl rl : BitVec 32) (t : BitVec 6) (bytes : BitVec 16) : State := bedWith fun st =>
  { st with vl := vl, rl := rl.setWidth _, vtype := t, grsz := bytes }

/-- One element more than a register of 2,048 bytes, or a row of 4,096 bytes, holds of the wider type. -/
theorem witness_EntryTraps_shapes :
    (let s := bedShape 257 1 4 2048
     s.cur.grsz.toNat * 8 < s.count * sewOf (11#4).toNat ∧ s.Open (.vcvt 3 1 7 0 0 11)) ∧
    (let s := bedShape 257 1 10 2048
     s.cur.grsz.toNat * 8 < s.count * (2 * s.sew) ∧ s.cur.grsz.toNat * 8 < s.count * 64 ∧
     s.Open (.vwfma 3 1 2 4 0) ∧ s.Open (.vemb 3 4 2 5 0)) ∧
    (let s := bedShape 513 1 0 2048
     s.cur.grsz.toNat * 8 < s.count * 32 ∧ ∀ i ∈ [Instr.vnz 3 1 4 0, .vsortseg 3 1 4 0, .vldx 3 4 2 0, .vldsc 3 4 2 0, .vstx 3 4 2 0,
       .vstc 3 4 2 0], s.Open i) ∧
    (let s := bedShape 1025 1 4 8192
     4096 < s.count * (s.sew / 8) ∧ s.Open (.vldrow 3 4 0) ∧ s.Open (.vstrow 3 4 0)) ∧
    (let s := bedShape 257 1 4 2048
     256 < s.count ∧ s.etype ≠ 15 ∧ ∀ i ∈ [Instr.sclaimw 4 2 1, .sclaimr 4 2 1, .sretire 1, .sclear, .swave 3 1, .spend 3], s.Open i) := by
  refine ⟨⟨by decide +kernel, open_of (by decide +kernel)⟩,
    ⟨by decide +kernel, by decide +kernel, open_of (by decide +kernel), open_of (by decide +kernel)⟩,
    ⟨by decide +kernel, opens_of (by decide +kernel)⟩, ⟨by decide +kernel, open_of (by decide +kernel), open_of (by decide +kernel)⟩,
    by decide +kernel, by decide +kernel, opens_of (by decide +kernel)⟩

theorem witness_VectorLoadResult : bed.Inv ∧ bed.Quiet ∧ bed.etype ≠ 15 ∧ bed.Unrelayed [3] ∧ bed.Unrelayed [3, 2] ∧
    bed.count * 32 ≤ bed.cur.grsz.toNat * 8 ∧ (∀ i ∈ [Instr.vld 3 4 1, .vlds 3 4 12 1, .vldx 3 4 2 1, .vldl 3 4 2 1, .vldsc 3 4 2 1],
      bed.Open i) ∧
    (∀ e < bed.count, bed.guard 1 e = true → bed.place (bed.rg 4 + BitVec.ofNat 64 (e * 4)) 4 .read = .ok (.dev (0x20000 + 4 * e)) ∧
      bed.Clean (.dev (0x20000 + 4 * e))) ∧
    (∀ e < bed.count, bed.guard 1 e = true → bed.place (bed.rg 4 + BitVec.ofNat 64 e * bed.rg 12) 4 .read = .ok (.dev (0x20000 + 64 * e)) ∧
      bed.Clean (.dev (0x20000 + 64 * e))) ∧
    ∀ e < bed.count, bed.guard 1 e = true → bed.place (bed.rg 4 + BitVec.ofNat 64 (bed.cur.elem 2 32 e * 4)) 4 .read =
      .ok (.dev (0x20000 + 16 * e)) ∧ bed.Clean (.dev (0x20000 + 16 * e)) :=
  ⟨bed_inv, bed_quiet, by decide +kernel, unrelayed_of (by decide +kernel), unrelayed_of (by decide +kernel), by decide +kernel,
   opens_of (by decide +kernel), fun e he _ => ⟨read_of (by revert e; decide +kernel), clean_all rfl _⟩,
   fun e he _ => ⟨read_of (by revert e; decide +kernel), clean_all rfl _⟩,
   fun e he _ => ⟨read_of (by revert e; decide +kernel), clean_all rfl _⟩⟩

/-- The weight store of die 0 serves, and page 2 holds the header of a saved register. -/
def bedBlock : State := { bed with dies := bed.dies.set 0 ⟨2, 1, false⟩ }.rawWrite 0x20000 64 (0x06405652 + 2048 * 2 ^ 128)

theorem witness_BlockLoadResult : bedBlock.Quiet ∧ bedBlock.etype ≤ 13 ∧ (4#4).toNat < 8 ∧ bedBlock.etype < 8 ∧
    bedBlock.Unrelayed [31, 30, 3] ∧ (∀ i ∈ [Instr.vldseg 30 4 4 1 1, .vldw 3 12 1, .vrload 3 4, .vldrow 3 14 1], bedBlock.Open i) ∧
    (∀ e < bedBlock.count, bedBlock.guard 1 e = true → ∀ j < 2, bedBlock.place (bedBlock.rg 4 + BitVec.ofNat 64 (e * 2 * 4 + j * 4)) 4 .read =
      .ok (.dev (0x20000 + 8 * e + 4 * j)) ∧ bedBlock.Clean (.dev (0x20000 + 8 * e + 4 * j))) ∧
    (bedBlock.wsStateWord (bedBlock.cur.core.toNat / 160)).extractLsb' 0 2 = 2 ∧
    (∀ e < bedBlock.count, bedBlock.guard 1 e = true → let o := (bedBlock.rg 12 + BitVec.ofNat 64 (e * 4)).toNat
      o % 4 = 0 ∧ o < 2 ^ 30 ∧ Sparse.get false bedBlock.wsPoison (o / 64) = false) ∧
    bedBlock.place (bedBlock.rg 4) 64 .read = .ok (.dev 0x20000) ∧ bedBlock.peek (.dev 0x20000) 64 % 2 ^ 32 = 0x06405652 ∧
    bedBlock.peek (.dev 0x20000) 64 / 2 ^ 128 % 2 ^ 32 = bedBlock.cur.grsz.toNat ∧
    (∀ e < 512, bedBlock.place (bedBlock.rg 4 + 64 + BitVec.ofNat 64 (e * 4)) 4 .read = .ok (.dev (0x20040 + 4 * e)) ∧
      bedBlock.Clean (.dev (0x20040 + 4 * e))) ∧
    bedBlock.count * 4 ≤ 4096 ∧ rowPlace bedBlock (bedBlock.rg 14) bedBlock.count 4 .read = .ok (.dev 0x50000) ∧
    ∀ e < bedBlock.count, bedBlock.Clean ((Loc.dev 0x50000).plus (e * 4)) :=
  ⟨quiet_of (by decide +kernel), by decide +kernel, by decide, by decide +kernel, unrelayed_of (by decide +kernel),
   opens_of (by decide +kernel),
   fun e he _ j hj => ⟨read_of (by revert e j; decide +kernel), clean_all rfl _⟩, by decide +kernel, by decide +kernel, rfl,
   by decide +kernel, by decide +kernel, fun e he => ⟨read_of (by revert e; decide +kernel), clean_all rfl _⟩, by decide +kernel, rfl,
   fun e _ => clean_all rfl _⟩

theorem witness_VectorStoreResult : bedLinked.Inv ∧ bedLinked.Quiet ∧ bedLinked.etype ≠ 15 ∧ bedLinked.Unrelayed [1] ∧
    bedLinked.Unrelayed [1, 2] ∧ bedLinked.count * 32 ≤ bedLinked.cur.grsz.toNat * 8 ∧
    (∀ i ∈ [Instr.vst 1 4 1, .vsts 1 4 12 1, .vstx 1 4 2 1, .vstsc 1 4 2 1, .vstc 1 4 2 1], bedLinked.Open i) ∧
    (∀ e ∈ bedLinked.actives 1, bedLinked.Fixed (bedLinked.rg 4 + BitVec.ofNat 64 (e * 4)) 4 (.dev (0x20000 + 4 * e))) ∧
    (∀ e ∈ bedLinked.actives 1, bedLinked.Fixed (bedLinked.rg 4 + BitVec.ofNat 64 e * bedLinked.rg 12) 4 (.dev (0x20000 + 64 * e))) ∧
    ∀ e ∈ bedLinked.actives 1, bedLinked.Fixed (bedLinked.rg 4 + BitVec.ofNat 64 (bedLinked.cur.elem 2 32 e * 4)) 4
      (.dev (0x20000 + 16 * e)) :=
  ⟨inv_of (by decide +kernel), quiet_of (by decide +kernel), by decide +kernel, unrelayed_of (by decide +kernel),
   unrelayed_of (by decide +kernel), by decide +kernel, opens_of (by decide +kernel),
   fun e he => fixed_of (by revert e; decide +kernel), fun e he => fixed_of (by revert e; decide +kernel),
   fun e he => fixed_of (by revert e; decide +kernel)⟩

theorem witness_BlockStoreResult : bed.Inv ∧ bed.Quiet ∧ bed.etype ≤ 13 ∧ bed.etype < 8 ∧ bed.Unrelayed [1, 2] ∧
    (∀ i ∈ [Instr.vstseg 1 4 4 1 1, .vrsave 1 4, .vstrow 1 14 1], bed.Open i) ∧
    (∀ e ∈ bed.actives 1, ∀ j < 2, bed.Fixed (bed.rg 4 + BitVec.ofNat 64 (e * 2 * 4 + j * 4)) 4 (.dev (0x20000 + 8 * e + 4 * j))) ∧
    bed.Fixed (bed.rg 4) 64 (.dev 0x20000) ∧
    (∀ e < 512, bed.Fixed (bed.rg 4 + 64 + BitVec.ofNat 64 (e * 4)) 4 (.dev (0x20040 + 4 * e))) ∧ bed.count * 4 ≤ 4096 ∧
    rowPlace bed (bed.rg 14) bed.count 4 .write = .ok (.dev 0x50000) :=
  ⟨bed_inv, bed_quiet, by decide +kernel, by decide +kernel, unrelayed_of (by decide +kernel), opens_of (by decide +kernel),
   fun e he j hj => fixed_of (by revert e j; decide +kernel), fixed_of (by decide +kernel),
   fun e he => fixed_of (by revert e; decide +kernel), by decide +kernel, rfl⟩

/-- Elements 0 and 1 end page 3, and element 2 starts page 4, which may not be written, or page 6 from page 5's end, which no
entry maps; and a base off its boundary. -/
theorem witness_VectorAccessFaults : bed.Inv ∧ bed.Quiet ∧ bed.etype ≠ 15 ∧ bed.Unrelayed [3] ∧ 2 ∈ bed.actives 1 ∧ 0 ∈ bed.actives 1 ∧
    bed.Open (.vld 3 15 1) ∧ bed.Open (.vst 1 13 1) ∧ bed.place (bed.rg 15) 4 .read = .error 0x04 ∧
    bed.place (bed.rg 6) 4 .read = .error 0x07 ∧
    (∀ mem hostMem links poison, ({ bed with mem := mem, hostMem := hostMem, links := links, poison := poison } : State).place
      (bed.rg 13 + BitVec.ofNat 64 (2 * 4)) 4 .write = .error 0x06) ∧
    ∀ j < 2, bed.guard 1 j = true → bed.Fixed (bed.rg 13 + BitVec.ofNat 64 (j * 4)) 4 (.dev (0x3FFF8 + 4 * j)) :=
  ⟨bed_inv, bed_quiet, by decide +kernel, unrelayed_of (by decide +kernel), by decide +kernel, by decide +kernel,
   open_of (by decide +kernel), open_of (by decide +kernel), rfl, rfl, fun _ _ _ _ => rfl,
   fun j hj _ => fixed_of (by revert j; decide +kernel)⟩

/-- A table of one f32 row of two columns at 0x30000, K 1 and a hash of 4 bits, whose descriptor stands at 0x20000. -/
def bedTable : State := (bedType 10).rawWrite 0x20000 64
  (0x30000 + 1 * 2 ^ 64 + (4 + 2 * 2 ^ 16 + 10 * 2 ^ 32 + 1 * 2 ^ 40) * 2 ^ 256 + 8 * 2 ^ 320)

theorem witness_EmbeddingResult : bedTable.Quiet ∧ bedTable.etype = 10 ∧ bedTable.cur.vl ≠ 0 ∧ bedTable.Unrelayed [3, 2, 5] ∧
    bedTable.Open (.vemb 3 4 2 5 1) ∧ bedTable.count * 64 ≤ bedTable.cur.grsz.toNat * 8 ∧
    bedTable.place (bedTable.rg 4) 64 .read = .ok (.dev 0x20000) ∧ bedTable.Clean (.dev 0x20000) ∧
    (tableOf (bedTable.peek (.dev 0x20000) 64)).ok = true ∧
    ((List.range bedTable.count).filter fun e => e == 0 || bedTable.cur.mbit 1 e).length *
      (tableOf (bedTable.peek (.dev 0x20000) 64)).width * 32 ≤ bedTable.cur.grsz.toNat * 8 ∧
    (let t := tableOf (bedTable.peek (.dev 0x20000) 64)
     ∀ e < bedTable.count, ∀ j < t.ntab, ∀ q < t.width,
       bedTable.place (t.addr j (bedTable.cur.elem 2 64 e) q) t.fs .read = .ok (.dev (0x30000 + 4 * q)) ∧
       bedTable.Clean (.dev (0x30000 + 4 * q))) :=
  ⟨quiet_of (by decide +kernel), by decide +kernel, by decide +kernel, unrelayed_of (by decide +kernel), open_of (by decide +kernel),
   by decide +kernel, read_of (by decide +kernel), clean_all rfl _, by decide +kernel, by decide +kernel,
   fun e he j hj q hq => ⟨read_of (by revert e j q; decide +kernel), clean_all rfl _⟩⟩

/-- Slot 2 holds a stream of i32 for reading v1 whose record stands at 0x20000, slot 3 a receiving and slot 4 a sending port of
v5 and v6. -/
def bedBound (mode reg : BitVec 8) : State := bed.upd fun st =>
  st.setSlot 2 fun k => { k with base := 0x20000, stride := 4, format := 4, mode := mode, reg := reg, status := 1, length := 8 }

/-- A neighbour of the strand in focus on core 1. -/
def bedPair : State :=
  { bed with others := [{ bedStrand with core := 1, id := 4, slot := 0 }] }

/-- A record at 0x20000 that VBIND accepts: a stream of i32 at 0x30000. -/
def bedRecord : State := bed.rawWrite 0x20000 32 (0x30000 + 4 * 2 ^ 64 + 4 * 2 ^ 96)

theorem witness_BindingResult_bind : bedRecord.AtRest ∧ bedRecord.Quiet ∧ bedRecord.place (bedRecord.rg 4) 32 .read = .ok (.dev 0x20000) ∧
    bedRecord.Clean (.dev 0x20000) ∧ (slotOf (bedRecord.peek (.dev 0x20000) 32)).acceptable = true ∧ (slotOf (2 ^ 112)).acceptable = false ∧
    (bedRecord.cur.k.toList.getD 2 Slot.unbound).status.getLsbD 0 = false ∧
    ∀ k ∈ bedRecord.cur.k.toList, k.status.getLsbD 0 = true → k.reg.toNat ≠ (1#5).toNat :=
  ⟨rest_of (by decide +kernel), quiet_of (by decide +kernel), read_of (by decide +kernel), clean_all rfl _, by decide +kernel,
   by decide +kernel, by decide +kernel, by decide +kernel⟩

/-- A slot of a stream, with a position that VBSET takes (g4) and one that it refuses (g3), and a sending port. -/
theorem witness_BindingResult_bound : (bedBound 0 1).AtRest ∧ (bedBound 0 1).Quiet ∧
    ((bedBound 0 1).cur.k.toList.getD 2 Slot.unbound).status.getLsbD 0 = true ∧
    ((bedBound 0 1).cur.k.toList.getD 2 Slot.unbound).mode.getLsbD 5 = false ∧ ((bedBound 0 1).rg 4).toNat < 2 ^ 32 ∧
    2 ^ 32 ≤ ((bedBound 0 1).rg 3).toNat ∧ (bedBound 0x21 6).AtRest ∧ (bedBound 0x21 6).Quiet ∧
    ((bedBound 0x21 6).cur.k.toList.getD 2 Slot.unbound).status.getLsbD 0 = true ∧
    ((bedBound 0x21 6).cur.k.toList.getD 2 Slot.unbound).mode.getLsbD 5 = true ∧
    ((bedBound 0x21 6).cur.k.toList.getD 2 Slot.unbound).mode.getLsbD 0 = true :=
  ⟨rest_of (by decide +kernel), quiet_of (by decide +kernel), by decide +kernel, by decide +kernel, by decide +kernel, by decide +kernel,
   rest_of (by decide +kernel), quiet_of (by decide +kernel), by decide +kernel, by decide +kernel, by decide +kernel⟩

/-- A strand on core 0 has a partner to the east (direction 1) and none to the north (0). -/
theorem witness_BindingResult_relay : bedPair.AtRest ∧ bedPair.Quiet ∧ (∃ q, bedPair.partner bedPair.cur (1#2).toNat = some q) ∧
    bedPair.partner bedPair.cur (0#2).toNat = none :=
  ⟨rest_of (by decide +kernel), quiet_of (by decide +kernel), Option.isSome_iff_exists.1 (by decide +kernel),
   Option.isNone_iff_eq_none.1 (by decide +kernel)⟩

/-- The stream's eight elements lie within its length, the last of them at its end. -/
theorem witness_StreamFill : (bedBound 0 1).AtRest ∧ (bedBound 0 1).Quiet ∧ (bedBound 0 1).etype ≤ 13 ∧ (bedBound 0 1).cur.vl ≠ 0 ∧
    (bedBound 0 1).cur.streamSlot false 1 = some 2 ∧
    ((bedBound 0 1).cur.k.toList.getD 2 Slot.unbound).mode.getLsbD 1 = false ∧
    ((bedBound 0 1).cur.k.toList.getD 2 Slot.unbound).format.toNat = 4 ∧ (bedBound 0 1).etype < 8 ∧
    ((bedBound 0 1).cur.k.toList.getD 2 Slot.unbound).progress.toNat + (bedBound 0 1).count < 2 ^ 32 ∧
    ∀ e < (bedBound 0 1).count, (bedBound 0 1).place (0x20000 + BitVec.ofNat 64 (0 + e) * (4#32).signExtend 64) 4 .read =
      .ok (.dev (0x20000 + 4 * e)) ∧ (bedBound 0 1).Clean (.dev (0x20000 + 4 * e)) :=
  ⟨rest_of (by decide +kernel), quiet_of (by decide +kernel), by decide +kernel, by decide +kernel, by decide +kernel, by decide +kernel,
   by decide +kernel, by decide +kernel, by decide +kernel, fun e he => ⟨read_of (by revert e; decide +kernel), clean_all rfl _⟩⟩

/-- A region of 32 sums of i32 at 0x30000, open at handle 5, as R245 records it. -/
def bedRegionRec : Region :=
  { base := 0x30000, length := 32, etype := 4, oper := 0, ordered := false, sysScope := false, pkg := 0, pages := [(0x3003F, 16)],
    extents := [(0x30000, 4096)], logs := [(0x30000, 4096)], serial := 0, flags := 0, broken := false, batch := 0, entries := [] }

/-- The strand with that region, a descriptor at 0x20000, and g1 = 5 as its handle. -/
def bedRegion (desc : Nat) : State := (bed.setRegion 1 5 (some bedRegionRec)).rawWrite 0x20000 64 desc

/-- A descriptor that opens a region of 8 i32 at 0x30400, and one that adds an extent to handle 5. -/
def descOpen : Nat := 0x30400 + 8 * 2 ^ 64 + 4 * 2 ^ 96 + 2 * 2 ^ 120 + 0x30000 * 2 ^ 128 + 4096 * 2 ^ 192
def descExtend : Nat := 0x30400 + 2 * 2 ^ 120 + 0x30000 * 2 ^ 128 + 4096 * 2 ^ 192 + 2 ^ 256 + 5 * 2 ^ 264

/-- Two lists of pages that are there, as a decision. -/
def mapped (s : State) (va : Word) (n : Nat) : Option (List PageMap) :=
  match allMapped (mapPages s va (pageCount va n)) with
  | .ok l => some l
  | .error _ => none

theorem mapped_ok {s : State} {va : Word} {n : Nat} {l : List PageMap} (h : mapped s va n = some l) :
    allMapped (mapPages s va (pageCount va n)) = .ok l := by
  unfold mapped at h
  split at h
  · rename_i he; injection h with h; rw [he, h]
  · cases h

theorem witness_RegionResult_open : (bedRegion descOpen).AtRest ∧ (bedRegion descOpen).Quiet ∧ (bedRegion descOpen).cur.updq = [] ∧
    (bedRegion descOpen).place ((bedRegion descOpen).rg 4) 64 .read = .ok (.dev 0x20000) ∧ (bedRegion descOpen).Clean (.dev 0x20000) ∧
    (bedRegion descOpen).peek (.dev 0x20000) 64 = descOpen ∧ (descOf descOpen).act = 0 ∧ (descOf descOpen).openOk = true ∧
    (bedRegion descOpen).freeHandle = some 0 ∧ (bedRegion descOpen).overlapping 0x30400 32 = none ∧ (descOf descOpen).bytes = 32 ∧
    allMapped (mapPages (bedRegion descOpen) 0x30400 (pageCount 0x30400 32)) = .ok [⟨0x3003F, 16, 0⟩] ∧
    allMapped (mapPages (bedRegion descOpen) 0x30000 (pageCount 0x30000 4096)) = .ok [⟨0x3003F, 16, 0⟩] ∧
    (bedRegion descOpen).cur.pkg.toNat = 0 :=
  ⟨rest_of (by decide +kernel), quiet_of (by decide +kernel), rfl, read_of (by decide +kernel), clean_all rfl _, by decide +kernel,
   by decide +kernel, by decide +kernel, by decide +kernel, by decide +kernel, by decide +kernel, mapped_ok (by decide +kernel),
   mapped_ok (by decide +kernel), by decide +kernel⟩

theorem witness_RegionResult_extend : (descOf descExtend).act = 1 ∧ (descOf descExtend).logOk = true ∧ (descOf descExtend).handle = 5 ∧
    (bedRegion descExtend).region 1 5 = some bedRegionRec ∧ bedRegionRec.extents.length < 8 ∧
    allMapped (mapPages (bedRegion descExtend) 0x30000 (pageCount 0x30000 4096)) = .ok [⟨0x3003F, 16, 0⟩] :=
  ⟨by decide +kernel, by decide +kernel, by decide +kernel, by decide +kernel, by decide +kernel, mapped_ok (by decide +kernel)⟩

/-- Handle 5 names a region within scope, handle 3 none, and 64 is beyond the handles. -/
theorem witness_RegionResult_handles : ((bedRegion 0).rg 1).toNat = 5 ∧ (bedRegion 0).region 1 5 = some bedRegionRec ∧
    bedRegionRec.pkg = (bedRegion 0).cur.pkg ∧ bedRegionRec.broken = false ∧
    (∃ q, ((bedRegion 0).applyRegion 1 5 true).region 1 5 = some q) ∧ 64 ≤ ((bedRegion 0).rg 12).toNat ∧
    (bedRegion 0).region 1 ((bedRegion 0).rg 2).toNat = none :=
  ⟨by decide +kernel, by decide +kernel, by decide +kernel, by decide +kernel, Option.isSome_iff_exists.1 (by decide +kernel),
   by decide +kernel, by decide +kernel⟩

/-- The region open, and nothing in the way. -/
def bedUpd : State := bed.setRegion 1 5 (some bedRegionRec)

theorem sum_zero (l : List Nat) (h : ∀ x ∈ l, x = 0) : l.sum = 0 := by
  induction l with
  | nil => rfl
  | cons x l ih => rw [List.sum_cons, h x List.mem_cons_self, ih fun y hy => h y (List.mem_cons_of_mem x hy)]

theorem segCount_of {s : State} (h : quietOf s = true) (seg : Nat) : s.segCount seg = 0 := by
  unfold State.segCount
  refine sum_zero _ fun x hx => ?_
  obtain ⟨g, hg, rfl⟩ := List.mem_map.1 hx
  refine sum_zero _ fun y hy => ?_
  obtain ⟨o, ho, rfl⟩ := List.mem_map.1 hy
  have := List.all_eq_true.1 (List.all_eq_true.1 h g hg) o ho
  cases o with
  | none => rfl
  | some r =>
    simp only [Option.all_some, List.isEmpty_iff] at this
    simp [this]

theorem witness_UpdResult : bedUpd.Open (.upd 1 2 1 1) ∧ bedUpd.cur.vl ≠ 0 ∧ bedUpd.cur.usn ≠ BitVec.allOnes 40 ∧
    bedUpd.cur.updq = [] ∧ bedUpd.count * 32 ≤ bedUpd.cur.grsz.toNat * 8 ∧ (bedUpd.rg 1).toNat < 64 ∧
    bedUpd.region bedUpd.cur.gang (bedUpd.rg 1).toNat = some bedRegionRec ∧ bedRegionRec.pkg = bedUpd.cur.pkg ∧
    bedRegionRec.broken = false ∧ bedRegionRec.entries = [] ∧ bedUpd.etype = bedRegionRec.etype.toNat ∧
    (∀ e ∈ bedUpd.actives 1, bedUpd.cur.elem 2 32 e < bedRegionRec.length ∧
      bedUpd.reachable (bedRegionRec.addr (bedUpd.cur.elem 2 32 e)).1 = true ∧
      bedUpd.permitted (bedRegionRec.addr (bedUpd.cur.elem 2 32 e)).1 = false) ∧
    (∀ i < bedRegionRec.length, ∀ j < bedRegionRec.length, (bedRegionRec.addr i).1 = (bedRegionRec.addr j).1 → i = j) ∧
    ∀ seg, bedUpd.segCount seg + bedUpd.count < 65536 :=
  ⟨open_of (by decide +kernel), by decide +kernel, by decide +kernel, rfl, by decide +kernel, by decide +kernel, by decide +kernel,
   by decide +kernel, rfl, rfl, by decide +kernel, by decide +kernel, by decide +kernel, fun seg => by rw [segCount_of (by decide +kernel)]; decide +kernel⟩

/-- The strand with tiles of MVL 8 in the tile etype t. -/
def bedTiles (t : BitVec 4) (e : BitVec 6) : State :=
  bedWith fun st => { st with vtype := e, tilesOn := true, tilesAllow := true, mvl := 8, tetype := t }

theorem witness_TileMembers : (bedTiles 4 4).AtRest ∧ (bedTiles 4 4).inReduced = false ∧ (bedTiles 4 4).cur.tilesAllow = true ∧
    bed.AtRest ∧ bed.cur.tilesAllow = false ∧ (bedTiles 4 4).cur.tilesOn = true ∧ (bedTiles 4 4).cur.tetype = 4 ∧
    sewOf (bedTiles 4 4).cur.tetype.toNat = (bedTiles 4 4).sew ∧ (bedTiles 4 4).cur.vl.toNat ≤ (bedTiles 4 4).cur.mvl.toNat ∧
    ((bedTiles 4 4).rg 1).toNat < (bedTiles 4 4).cur.mvl.toNat ∧ (bedTiles 4 4).cur.mvl.toNat ≤ 2048 / (bedTiles 4 4).sew ∧
    (∀ i ∈ [Instr.tgetr 3 2 1 1, .tgetc 3 2 1 1, .tsetr 2 1 1 1, .tsetc 2 1 1 1, .tzero 2, .mcbld 3 4], (bedTiles 4 4).Open i) ∧
    (bedTiles 4 4).Quiet ∧ ((bedTiles 4 4).rg 4).toNat % 32 = 0 ∧
    ∀ q < 16, (bedTiles 4 4).place ((bedTiles 4 4).rg 4 + BitVec.ofNat 64 (2 * q)) 2 .read = .ok (.dev (0x20000 + 2 * q)) ∧
      (bedTiles 4 4).Clean (.dev (0x20000 + 2 * q)) :=
  ⟨rest_of (by decide +kernel), rfl, rfl, bed_rest, rfl, rfl, rfl, by decide +kernel, by decide +kernel, by decide +kernel,
   by decide +kernel, opens_of (by decide +kernel), quiet_of (by decide +kernel), by decide +kernel,
   fun q hq => ⟨read_of (by revert q; decide +kernel), clean_all rfl _⟩⟩

/-- Tiles off; another width, or the reserved etype; panels of another type; and each limit of a shape passed by one. -/
theorem witness_EntryTraps_tiles :
    (bed.cur.tilesOn = false ∧ ∀ i ∈ [Instr.tgetr 3 2 1 1, .tsetc 2 1 1 1, .tstr 0 2 4 12 1, .tstx 0 2 4 2 1, .tzero 2, .tfold 1 2 1 2 1,
      .tfoldsp 1 2 1 2 20 1], bed.Open i) ∧
    (let s := bedTiles 4 0
     s.sew ≠ sewOf s.cur.tetype.toNat ∧ ∀ i ∈ [Instr.tgetr 3 2 1 1, .tgetc 3 2 1 1, .tsetr 2 1 1 1, .tsetc 2 1 1 1], s.Open i) ∧
    (let s := bedTiles 10 14
     ¬ s.etype ≤ 13 ∧ s.Open (.tstr 0 2 4 12 1) ∧ s.Open (.tstx 0 2 4 2 1)) ∧
    (let s := bedTiles 10 11
     s.cur.tilesOn = true ∧ s.etype = 11 ∧ s.cur.tetype.toNat ≠ 11 ∧
     ∀ i ∈ [Instr.tfold 1 2 1 2 1, .tfoldn 1 2 1 2 1, .tfoldi8 1 2 1 2 1, .tfoldf8 1 2 1 2 1, .tfoldc4 1 2 1 2 1, .tfoldsp 1 2 1 2 20 1],
       s.Open i) ∧
    (let s : State := { bedTiles 10 8 with gangs := [{ placedGang State.reset with reduced := true }] }
     s.inReduced = true ∧ s.etype ≠ 10 ∧ s.Open (.tfold 1 2 1 2 1)) ∧
    (let s := (bedTiles 4 4).upd fun st => { st with vl := 9, rl := 1 }
     s.cur.mvl.toNat < s.cur.vl.toNat ∧ s.Open (.tgetr 3 2 1 1) ∧ s.Open (.tstr 0 2 4 12 1)) ∧
    (let s := (bedTiles 4 4).upd fun st => { st with g := st.g.set 20 8 }
     s.cur.mvl.toNat ≤ (s.rg 20).toNat ∧ s.Open (.tgetc 3 2 20 1) ∧ s.cur.mvl.toNat < 8 * (1#3).toNat + s.cur.rl.toNat ∧
     s.Open (.tstx 1 2 4 2 1)) ∧
    (let s := (bedTiles 4 0).upd fun st => { st with mvl := 9 }
     s.cur.mvl.toNat % 8 ≠ 0 ∧ s.etype = 0 ∧ s.cur.tetype.toNat = 4 ∧ s.cur.vl ≠ 0 ∧ s.Open (.tfoldsp 1 2 1 2 20 1)) := by
  refine ⟨⟨rfl, opens_of (by decide +kernel)⟩, ⟨by decide +kernel, opens_of (by decide +kernel)⟩,
    ⟨by decide +kernel, open_of (by decide +kernel), open_of (by decide +kernel)⟩,
    ⟨rfl, by decide +kernel, by decide +kernel, opens_of (by decide +kernel)⟩,
    ⟨by decide +kernel, by decide +kernel, open_of (by decide +kernel)⟩,
    ⟨by decide +kernel, open_of (by decide +kernel), open_of (by decide +kernel)⟩,
    ⟨by decide +kernel, open_of (by decide +kernel), by decide +kernel, open_of (by decide +kernel)⟩,
    by decide +kernel, by decide +kernel, by decide +kernel, by decide +kernel, open_of (by decide +kernel)⟩

/-- A pair of etypes for each outer product; v20 holds the metadata of four kept elements of each eight. -/
theorem witness_TileFolds : (∀ t ∈ [(10#4, 8#6), (10, 10), (11, 11), (4, 0), (10, 12), (10, 14)],
      (bedTiles t.1 t.2).cur.tilesOn = true ∧ (bedTiles t.1 t.2).cur.vl ≠ 0 ∧ (bedTiles t.1 t.2).inReduced = false ∧
      (bedTiles t.1 t.2).cur.mvl.toNat ≤ 2048 / sewOf (bedTiles t.1 t.2).cur.tetype.toNat) ∧
    (∀ t ∈ [(10#4, 8#6), (10, 10), (11, 11)], (bedTiles t.1 t.2).Open (.tfold 1 2 1 2 1) ∧ (bedTiles t.1 t.2).Open (.tfoldn 1 2 1 2 1)) ∧
    (bedTiles 4 0).Open (.tfoldi8 1 2 1 2 1) ∧ (bedTiles 10 12).Open (.tfoldf8 1 2 1 2 1) ∧ (bedTiles 10 14).Open (.tfoldc4 1 2 1 2 1) ∧
    ∀ t ∈ [(4#4, 0#6), (10, 8), (10, 12)], let s := (bedTiles t.1 t.2).upd fun st => { st with v := st.v.set 20 0x0F0F0F0F }
      s.Open (.tfoldsp 1 2 1 2 20 1) ∧ s.cur.mvl.toNat % 8 = 0 ∧
      ∀ z < 4 * s.cur.mvl.toNat / 8, ((List.range 8).filter (s.cur.elem 20 8 z).testBit).length = 4 :=
  ⟨by decide +kernel, fun t ht => ⟨open_of (by revert t; decide +kernel), open_of (by revert t; decide +kernel)⟩,
   open_of (by decide +kernel), open_of (by decide +kernel), open_of (by decide +kernel),
   fun t ht => ⟨open_of (by revert t; decide +kernel), by revert t; decide +kernel, by revert t; decide +kernel⟩⟩

/-- A drain of the tile's own type, and one that converts. -/
theorem witness_TileStores : (bedTiles 10 10).cur.tetype.toNat = (bedTiles 10 10).etype ∧
    (bedTiles 10 8).cur.tetype.toNat ≠ (bedTiles 10 8).etype ∧ (bedTiles 10 8).Open (.tstr 0 2 4 12 1) ∧
    (bedTiles 10 8).Open (.tstx 0 2 4 2 1) ∧ let s := bedTiles 10 10
    s.Inv ∧ s.Quiet ∧ s.cur.tilesOn = true ∧ s.etype ≤ 13 ∧ s.cur.tetype = 10 ∧ s.cur.vl ≠ 0 ∧ s.cur.vl.toNat ≤ s.cur.mvl.toNat ∧
    8 * (0#3).toNat + s.cur.rl.toNat ≤ s.cur.mvl.toNat ∧ s.Open (.tstr 0 2 4 12 1) ∧ s.Open (.tstx 0 2 4 2 1) ∧
    (∀ e ∈ s.actives 1, s.Fixed (s.rg 4 + BitVec.ofNat 64 (e / 4) * s.rg 12 + BitVec.ofNat 64 (e % 4 * 4)) 4
      (.dev (0x20000 + e / 4 * 64 + e % 4 * 4))) :=
  ⟨by decide +kernel, by decide +kernel, open_of (by decide +kernel), open_of (by decide +kernel),
   inv_of (by decide +kernel), quiet_of (by decide +kernel), rfl, by decide +kernel, rfl, by decide +kernel, by decide +kernel,
   by decide +kernel, open_of (by decide +kernel), open_of (by decide +kernel), fun e he => fixed_of (by revert e; decide +kernel)⟩

theorem witness_SlalomResult : bed.etype ≠ 15 ∧ bed.cur.vl ≠ 0 ∧ bed.count ≤ 256 ∧ ∀ i ∈ [Instr.sclaimw 4 2 1, .sclaimr 4 2 1, .sretire 1,
    .sclear, .swave 3 1, .spend 3], bed.Open i := ⟨by decide +kernel, by decide +kernel, by decide +kernel, opens_of (by decide +kernel)⟩

/-- The image of the sum of two vector inputs in cell 0, with LAT 3. -/
def imageSum : Nat := 0x06404358 + 3 * 2 ^ 32 + 2 * 2 ^ 48 + (1 + 1 * 2 ^ 11 + 2 ^ 21) * 2 ^ 128

/-- Slot 5 holds that image, which stands at 0x20000 too. -/
def bedCustom : State :=
  (bedWith fun st => { st with cx := st.cx.set 5 (some (BitVec.ofNat 2048 imageSum)) }).rawWrite 0x20000 256 imageSum

theorem witness_CustomResult : bedCustom.AtRest ∧ bedCustom.Quiet ∧ (bedCustom.rg 4).toNat % 64 = 0 ∧
    (∀ q < 64, bedCustom.place (bedCustom.rg 4 + BitVec.ofNat 64 (4 * q)) 4 .read = .ok (.dev (0x20000 + 4 * q)) ∧
      bedCustom.Clean (.dev (0x20000 + 4 * q))) ∧
    imageFault (((List.range 64).map fun q => bedCustom.peek (.dev (0x20000 + 4 * q)) 4 * 2 ^ (32 * q)).sum) = none ∧
    bedCustom.cur.cx.toList.getD (5#3).toNat none = some (BitVec.ofNat 2048 imageSum) ∧
    (∀ f ∈ [1#5, 2, 0].drop (imageNvec (BitVec.ofNat 2048 imageSum)), f = 0) ∧ bedCustom.etype = 4 ∧
    bedCustom.Open (.cx 3 1 2 0 1 5) ∧ bedCustom.cur.cx.toList.getD (6#3).toNat none = none ∧ bedCustom.cur.cxldr = 0 :=
  ⟨rest_of (by decide +kernel), quiet_of (by decide +kernel), by decide +kernel,
   fun q hq => ⟨read_of (by revert q; decide +kernel), clean_all (by decide +kernel) _⟩, by decide +kernel, by decide +kernel, by decide +kernel,
   by decide +kernel, open_of (by decide +kernel), by decide +kernel, by decide +kernel⟩

/-- A graph or a region of another type, and pairs whose indices do not fit. -/
theorem witness_EntryTraps_others :
    (let s := bedCustom.upd fun st => { st with vtype := 0 }
     s.cur.cx.toList.getD (5#3).toNat none = some (BitVec.ofNat 2048 imageSum) ∧ s.cur.vl ≠ 0 ∧
     ¬ (s.etype = 4 ∨ s.etype = 5 ∨ s.etype = 10) ∧ s.Open (.cx 3 1 2 0 1 5)) ∧
    (let s := bedUpd.upd fun st => { st with vtype := 5 }
     s.cur.vl ≠ 0 ∧ (s.rg 1).toNat < 64 ∧ s.region s.cur.gang (s.rg 1).toNat = some bedRegionRec ∧ bedRegionRec.pkg = s.cur.pkg ∧
     bedRegionRec.broken = false ∧ s.cur.usn ≠ BitVec.allOnes 40 ∧ ¬ s.etype = bedRegionRec.etype.toNat ∧ s.Open (.upd 1 2 3 0)) ∧
    (let r := { bedRegionRec with etype := 8 }
     let s := (bed.setRegion 1 5 (some r)).upd fun st => { st with vl := 513, rl := 1, vtype := 8 }
     s.region s.cur.gang (s.rg 1).toNat = some r ∧ s.etype = r.etype.toNat ∧ s.cur.grsz.toNat * 8 < s.count * 32 ∧ s.Open (.upd 1 2 3 0)) := by
  refine ⟨⟨by decide +kernel, by decide +kernel, by decide +kernel, open_of (by decide +kernel)⟩,
    ⟨by decide +kernel, by decide +kernel, rfl, rfl, rfl, by decide +kernel, by decide +kernel, open_of (by decide +kernel)⟩,
    rfl, by decide +kernel, by decide +kernel, open_of (by decide +kernel)⟩

/-- Position 0 holds a copy in the state `x`, ticket 8. -/
def bedCopy (x : BitVec 3) : State := bedWith fun st => { st with
  copies := st.copies.set 0 { CopyPos.none with ticket := 8, st := x, src := 0x20000, dst := 0x30000, ctl := 128 },
  g := (st.g.set 17 8).set 18 128, copySeq := 2, enFault := x == 3, pFault := if x == 3 then 1 else 0 }

/-- The lowest free position is 0 with no copy, and 1 beside a running one; each status of a named position; and no name. -/
theorem witness_CopyResult : bed.AtRest ∧ (bedCopy 1).AtRest ∧ (bedCopy 1).rg 17 = 8 ∧ ((bedCopy 1).rg 17).toNat % 8 = 0 ∧
    ((bedCopy 0).cur.copies.toList.getD 0 CopyPos.none).st = 0 ∧ ((bedCopy 1).cur.copies.toList.getD 0 CopyPos.none).st = 1 ∧
    ((bedCopy 1).cur.copies.toList.getD 1 CopyPos.none).st = 0 ∧ ((bedCopy 1).cur.copies.toList.getD 0 CopyPos.none).ticket = (bedCopy 1).rg 17 ∧
    ((bedCopy 3).cur.copies.toList.getD 0 CopyPos.none).st = 3 ∧ ((bedCopy 2).cur.copies.toList.getD 0 CopyPos.none).st = 2 ∧
    ((bedCopy 1).cur.copies.toList.getD 0 CopyPos.none).ctl.getLsbD 45 = false ∧
    ((bedCopy 1).rg 18).toNat < 2 ^ 46 ∧ ((bedCopy 1).rg 18).toNat % 2 ^ 40 ≠ 0 ∧ ((bedCopy 1).rg 18).toNat % 64 = 0 ∧
    ((bedCopy 1).rg 7).toNat % 64 = 0 ∧ ((bedCopy 1).rg 4).toNat % 64 = 0 ∧
    ∀ n < 8, ((bed.rg 1).toNat % 8 = n → ((bed.cur.copies.toList.getD n CopyPos.none).ticket = bed.rg 1 →
      (bed.cur.copies.toList.getD n CopyPos.none).st = 0)) :=
  ⟨bed_rest, rest_of (by decide +kernel), by decide +kernel⟩

/-- Launch queue 0 with these doublewords in its ring at 0x40000, which the host's map of device memory at 0 reaches, and `n`
slots filled. -/
def bedRing (words : List Word) (n : Nat) : State :=
  let x : Queue := { Queue.reset with base := 0x40, liveBase := 0x40, tail := BitVec.ofNat 32 n, en := true }
  words.zipIdx.foldl (fun s w => s.rawWrite (0x40000 + 8 * w.2) 8 w.1.toNat)
    { bed with mgmt := { bed.mgmt with hdm := some 0, tsync := true, plim := 2000 }, queues := [(0, x)] }

/-- The doublewords of a KERNEL of one strand with this fourth and fifth one. -/
def kernelWords (d4 d5 : Word) : List Word := [0x201, 0, 0, 0x10000, d4, d5, 0, 0, 0, 0x30000, 0, 0, 0, 0, 0, 0]

/-- A KERNEL that may be placed, one with an entry off its boundary, and one whose strands exceed a core. -/
def goodKernel : List Word := kernelWords (0x100 + 2 ^ 32) (14 * 2 ^ 16 + 2 ^ 24)
def badKernel : List Word := kernelWords (0x101 + 2 ^ 32) (14 * 2 ^ 16 + 2 ^ 24)
def bigKernel : List Word := kernelWords (0x100 + 2 ^ 32) (4 + 4 * 2 ^ 8 + 14 * 2 ^ 16 + 2 ^ 24)

theorem witness_QueueRegisters : bed.Inv ∧ 63 < 64 ∧ (bed.queue 63).head = .none ∧ (bed.queue 63).mirEn = false ∧
    (0x87#64).getLsbD 3 = false ∧ (0x87#64).getLsbD 4 = false ∧ (0x87#64).getLsbD 5 = false :=
  ⟨bed_inv, by decide, by decide +kernel, by decide +kernel, by decide, by decide, by decide⟩

/-- The package with one error recorded. -/
def bedErr : State := { bed with mgmt := { bed.mgmt with errs := [⟨7, 0, 0xFF, true, 5⟩], linken := 2, pkg := 0 }, linksUp := 0 }

theorem witness_ManagementRegisters : bed.Inv ∧ bed.mgmt.errs = [] ∧ bedErr.Inv ∧ bedErr.mgmt.errs = [⟨7, 0, 0xFF, true, 5⟩] ∧ 2047 < 2048 ∧
    (∀ st ∈ bed.strands, st.placedOn = true → (decide (st.core.toNat / 64 = 1) && (1#64).getLsbD (st.core.toNat % 64)) = false) ∧
    (∃ st ∈ bed.strands, st.placedOn = true ∧ (decide (st.core.toNat / 64 = 0) && (1#64).getLsbD (st.core.toNat % 64)) = true) ∧
    bed.Quiet ∧ 8 ∈ [1, 2, 4, 8] ∧ (192 * 2 ^ 30 - 8) % 8 = 0 ∧ 192 * 2 ^ 30 - 8 + 8 ≤ 192 * 2 ^ 30 ∧ bed.Clean (.dev 0x3BFFFFFFF8) :=
  ⟨bed_inv, rfl, inv_of (by decide +kernel), by decide +kernel, by decide, by decide +kernel,
   ⟨bed.cur, List.mem_cons_self, by decide +kernel, by decide +kernel⟩, bed_quiet, by decide, by decide, by decide, clean_all rfl _⟩

/-- The doublewords of a ring that the host's map of device memory at 0 reaches. -/
def wordsOf (s : State) (a n : Nat) (w : List Word) : Bool :=
  s.mgmt.hdm == some 0 && s.poison.isEmpty && w.length == n && (List.range n).all fun i =>
    decide (a + 8 * i < 192 * 2 ^ 30) && w.getD i 0 == BitVec.ofNat 64 (s.rawRead (rangeAddr s.mgmt.pkg (a + 8 * i)) 8)

theorem hostLoc_of {s : State} (h : s.mgmt.hdm = some 0) {a : Nat} (ha : a < 192 * 2 ^ 30) :
    s.hostLoc a = some (.dev (rangeAddr s.mgmt.pkg a)) := by
  simp only [State.hostLoc, h]
  rw [if_pos ⟨by omega, by omega⟩]
  simp

theorem hostLoc_low {s : State} {a : Nat} (h : s.mgmt.hdm = some 0 ∧ s.mgmt.pkg = 0 ∧ a < 48 * 2 ^ 30) :
    s.hostLoc a = some (.dev a) := by
  rw [hostLoc_of h.1 (by omega), h.2.1]
  have ha : rangeAddr 0 a = a := by unfold rangeAddr; rw [Nat.div_eq_of_lt (by omega), Nat.mod_eq_of_lt (by omega)]; simp
  rw [ha]

theorem doublewords_of {s : State} {a n : Nat} {w : List Word} (h : wordsOf s a n w = true) : s.Doublewords a n w := by
  simp only [wordsOf, Bool.and_eq_true, beq_iff_eq, List.all_eq_true, List.mem_range, decide_eq_true_eq, List.isEmpty_iff] at h
  refine ⟨h.1.2, fun i hi => ⟨_, hostLoc_of h.1.1.1 (h.2 i hi).1, clean_all h.1.1.2 _, (h.2 i hi).2⟩⟩

/-- The checks of a packet as a decision. -/
def packetOf (s : State) (q k type size : Nat) (w : List Word) : Bool :=
  ((List.range size).all fun j => wordsOf s ((s.queue q).slotAddr (k + j)) 8 ((w.drop (8 * j)).take 8)) &&
  decide (w.length = 8 * size ∧ (w.headD 0).toNat = type + 256 * size ∧
    k + size ≤ ((s.queue q).tail - (s.queue q).prog).toNat ∧ ((s.queue q).tail - (s.queue q).prog).toNat ≤ 2 ^ (s.queue q).liveLog ∧
    ((s.queue q).prog.toNat + k) % 2 ^ (s.queue q).liveLog + size ≤ 2 ^ (s.queue q).liveLog)

theorem packet_of {s : State} {q k type size : Nat} {w : List Word} (h : packetOf s q k type size w = true) :
    s.PacketIs q k type size w := by
  simp only [packetOf, Bool.and_eq_true, decide_eq_true_eq, List.all_eq_true, List.mem_range] at h
  obtain ⟨h1, h3, h4, h5, h6, h7⟩ := h
  exact ⟨fun j hj => doublewords_of (h1 j hj), h3, h4, h5, h6, h7⟩

theorem witness_PacketEvents_kernel : (bedRing goodKernel 2).Inv ∧ (bedRing goodKernel 2).Quiet ∧
    (bedRing goodKernel 2).mayRead 0 = true ∧ (bedRing goodKernel 2).PacketIs 0 0 1 2 goodKernel ∧
    (bedRing badKernel 2).PacketIs 0 0 1 2 badKernel ∧ (bedRing bigKernel 2).PacketIs 0 0 1 2 bigKernel ∧
    (kernelParams goodKernel).fieldsOk = true ∧ (bedRing goodKernel 2).refuses none (kernelParams goodKernel) = false ∧
    (kernelParams badKernel).fieldsOk = false ∧ (kernelParams bigKernel).fieldsOk = true ∧
    (bedRing bigKernel 2).refuses none (kernelParams bigKernel) = true ∧
    (bedRing bigKernel 2).hostLoc (kernelParams bigKernel).compl.toNat = some (.dev (kernelParams bigKernel).compl.toNat) :=
  ⟨inv_of (by decide +kernel), quiet_of (by decide +kernel), by decide +kernel, packet_of (by decide +kernel),
   packet_of (by decide +kernel), packet_of (by decide +kernel), by decide +kernel, by decide +kernel, by decide +kernel,
   by decide +kernel, by decide +kernel, hostLoc_low (by decide +kernel)⟩

theorem kernelZeros_good : kernelZeros goodKernel := by
  refine ⟨by decide, by decide, by decide, by decide, fun i hi => ?_⟩
  rcases Nat.lt_or_ge i 16 with h | h
  · have : ∀ i < 16, 10 ≤ i → goodKernel.getD i 0 = 0 := by decide
    exact this i h hi
  · simp [goodKernel, kernelWords, List.getD, h]

/-- The doublewords of a packet of one slot. -/
def slotWords (d0 d1 d2 d3 : Word) : List Word := [d0, d1, d2, d3, 0, 0, 0, 0]

/-- A ring with `n` slots filled from slot `prog` on, of which the first is this one and the others are zero. -/
def oddRing (prog n : Nat) (d0 : Word) : State :=
  let s := bedRing [] n
  let x := { s.queue 0 with prog := BitVec.ofNat 32 prog, tail := BitVec.ofNat 32 (prog + n) }
  ({ s with queues := [(0, x)] } : State).rawWrite (0x40000 + 64 * prog) 8 d0.toNat

/-- The doublewords of a PAD of eight slots. -/
def longPad : List Word := slotWords 0x802 0 0 0 ++ List.replicate 56 0

/-- A PAD of one slot and one that ends with the ring, and a SIGNAL. -/
theorem witness_PacketEvents_pad : (bedRing (slotWords 0x102 0 0 0) 1).PacketIs 0 0 2 1 (slotWords 0x102 0 0 0) ∧
    (oddRing 56 8 0x802).PacketIs 0 0 2 8 longPad ∧
    (bedRing (slotWords 0x104 0x20000 7 0) 1).PacketIs 0 0 4 1 (slotWords 0x104 0x20000 7 0) ∧
    (bedRing (slotWords 0x104 0x20000 7 0) 1).mayRead 0 = true ∧ (0x20000#64).toNat % 8 = 0 :=
  ⟨packet_of (by decide +kernel), packet_of (by decide +kernel), packet_of (by decide +kernel), by decide +kernel, by decide⟩

/-- A WAIT with each condition. -/
theorem witness_PacketEvents_wait : (bedRing (slotWords 0x103 0x20000 7 0) 1).PacketIs 0 0 3 1 (slotWords 0x103 0x20000 7 0) ∧
    (bedRing (slotWords 0x103 0x20000 7 1) 1).PacketIs 0 0 3 1 (slotWords 0x103 0x20000 7 1) ∧
    (bedRing (slotWords 0x103 0x20000 7 2) 1).PacketIs 0 0 3 1 (slotWords 0x103 0x20000 7 2) ∧
    (bedRing (slotWords 0x103 0x20000 7 2) 1).mayRead 0 = true ∧
    (bedRing (slotWords 0x103 0x20000 7 0) 1).hostLoc 0x20000 = some (.dev 0x20000) :=
  ⟨packet_of (by decide +kernel), packet_of (by decide +kernel), packet_of (by decide +kernel), by decide +kernel,
   hostLoc_low (by decide +kernel)⟩

/-- The packet at its front has all its slots filled, and these can be read. -/
def readsSlots (prog n : Nat) (d0 : Word) : Bool :=
  let s := oddRing prog n d0
  let size := d0.toNat / 256 % 256
  let w := slotWords d0 0 0 0 ++ List.replicate (8 * (size - 1)) 0
  s.mayRead 0 && decide (w.length = 8 * max 1 size ∧ size ≤ n ∧ n ≤ 2 ^ (s.queue 0).liveLog ∧
    ((s.queue 0).tail - (s.queue 0).prog).toNat = n) &&
  (List.range (max 1 size)).all fun j => wordsOf s ((s.queue 0).slotAddr j) 8 ((w.drop (8 * j)).take 8)

/-- A ring with more than its size filled, a TYPE of 0 and one of 7, a wrong SIZE, a PAD of no slot, a KERNEL in the last slot of
the ring, and a nonzero reserved field; and an address that the host does not answer, if there is one. -/
theorem witness_PacketEvents_malformed : 2 ^ ((bedRing [] 65).queue 0).liveLog < ((bedRing [] 65).queue 0).tail.toNat ∧
    readsSlots 0 1 0x100 = true ∧ readsSlots 0 1 0x107 = true ∧ readsSlots 0 2 0x203 = true ∧ readsSlots 0 1 0x002 = true ∧
    readsSlots 63 2 0x201 = true ∧ readsSlots 0 1 0x1_0000_0102 = true ∧
    (0x100#64).toNat % 256 = 0 ∧ 6 < (0x107#64).toNat % 256 ∧ (0x203#64).toNat / 256 % 256 ≠ 1 ∧ (0x1_0000_0102#64).toNat / 2 ^ 16 ≠ 0 ∧
    2 ^ ((oddRing 63 2 0x201).queue 0).liveLog <
      ((oddRing 63 2 0x201).queue 0).prog.toNat % 2 ^ ((oddRing 63 2 0x201).queue 0).liveLog + (0x201#64).toNat / 256 % 256 ∧
    (∀ a, bed.mgmt.hdm = none → Config.hostOk a = false → bed.hostLoc a = none) := by
  refine ⟨by decide +kernel, by decide +kernel, by decide +kernel, by decide +kernel, by decide +kernel, by decide +kernel,
    by decide +kernel, by decide, by decide, by decide, by decide, by decide +kernel, fun a h0 h => ?_⟩
  simp only [State.hostLoc, h0, h]
  rfl

/-- A held head of queue 0. -/
def bedHead (h : Head) : State :=
  { bed with mgmt := { bed.mgmt with hdm := some 0, tsync := true }, tick := 20000, queues := [(0, { Queue.reset with en := true, head := h, log := 6 })] }

theorem witness_PacketEvents_held : (bedHead (.wait 0x20000 7 0)).Inv ∧ (bedHead (.wait 0x20000 7 0)).Quiet ∧
    ((bedHead (.wait 0x20000 7 2)).queue 0).head = .wait 0x20000 7 2 ∧ ((bedHead (.wait 0x20000 7 1)).queue 0).head = .wait 0x20000 7 1 ∧
    (bedHead (.wait 0x20000 7 1)).hostLoc 0x20000 = some (.dev 0x20000) ∧ (bedHead (.wait 0x20000 7 1)).Clean (.dev 0x20000) ∧
    ((bedHead (.signal 0x20000 7)).queue 0).head = .signal 0x20000 7 ∧ (∀ g ∈ ({ bedHead (.signal 0x20000 7) with gangs := [] } : State).gangs, g.queue ≠ 0) ∧
    (let s : State := { bedHead .none with queues := [(0, { Queue.reset with mirDirty := true, liveMirEn := true, liveMirAddr := 0x4000 })] }
     (s.queue 0).mirDirty = true ∧ (s.queue 0).swout = false ∧ (s.queue 0).liveMirEn = true ∧
     s.hostLoc ((s.queue 0).liveMirAddr.toNat * 8) = some (.dev 0x20000)) :=
  ⟨inv_of (by decide +kernel), quiet_of (by decide +kernel), by decide +kernel, by decide +kernel, hostLoc_low (by decide +kernel),
   clean_all rfl _, by decide +kernel, (by simp), by decide +kernel, by decide +kernel, by decide +kernel, hostLoc_low (by decide +kernel)⟩

/-- A pair in the ring: a WSLOAD or a GANGSYNC of this slot, with a KERNEL or a PAD behind it. -/
def pairRing (d0 d1 d2 : Word) (next : List Word) (n : Nat) : State := bedRing (slotWords d0 d1 d2 0 ++ next) n

theorem witness_PairEvents_wsload : (pairRing 0x105 3 0 goodKernel 3).Inv ∧ (pairRing 0x105 3 0 goodKernel 3).Quiet ∧
    (pairRing 0x105 3 0 goodKernel 3).mayRead 0 = true ∧ (pairRing 0x105 3 0 goodKernel 3).PacketIs 0 0 5 1 (slotWords 0x105 3 0 0) ∧
    (pairRing 0x105 3 0 goodKernel 3).PacketIs 0 1 1 2 goodKernel ∧
    (pairRing 0x105 3 0 (slotWords 0x102 0 0 0) 2).PacketIs 0 0 5 1 (slotWords 0x105 3 0 0) ∧
    (pairRing 0x105 3 0 (slotWords 0x102 0 0 0) 2).PacketIs 0 1 2 1 (slotWords 0x102 0 0 0) :=
  ⟨inv_of (by decide +kernel), quiet_of (by decide +kernel), by decide +kernel, packet_of (by decide +kernel),
   packet_of (by decide +kernel), packet_of (by decide +kernel), packet_of (by decide +kernel)⟩

/-- The queue state in which a GANGSYNC of this package waits for places, COMMIT at 10,000. -/
def pairWaits (s : State) (w2 : List Word) : State :=
  let x := s.holding ((s.queue 0).after 3) (.gangsync 1 10000 0 (kernelParams w2) false 0 none [] false)
  { s with queues := Sparse.put Queue.reset s.queues 0 x }

/-- A gang that needs more slots than the free ones of the package. -/
def hugeKernel : List Word := kernelWords (0x100 + 2560 * 2 ^ 32) (14 * 2 ^ 16 + 2 ^ 24)

/-- COMMIT exactly 10,000 tk ahead, and one less; without synchronisation; a field out of range; a gang that fits nowhere; one
whose places are free, and one that waits for them. -/
theorem witness_PairEvents_gangsync : (pairRing 0x106 1 10000 goodKernel 3).mayRead 0 = true ∧
    (pairRing 0x106 1 10000 goodKernel 3).Inv ∧ (pairRing 0x106 1 10000 goodKernel 3).Quiet ∧
    (pairRing 0x106 1 10000 goodKernel 3).PacketIs 0 0 6 1 (slotWords 0x106 1 10000 0) ∧
    (pairRing 0x106 1 10000 goodKernel 3).PacketIs 0 1 1 2 goodKernel ∧
    (pairRing 0x106 1 10000 (slotWords 0x102 0 0 0) 2).PacketIs 0 1 2 1 (slotWords 0x102 0 0 0) ∧
    (slotWords 0x106 1 10000 0).getD 1 0 = 1 ∧ (1#64).getLsbD (pairRing 0x106 1 10000 goodKernel 3).mgmt.pkg.toNat = true ∧
    (let s := pairRing 0x106 1 10000 goodKernel 3
     let t : State := { s with mgmt := { s.mgmt with tsync := false } }
     t.mgmt.tsync = false ∧ t.mayRead 0 = true) ∧
    (kernelParams goodKernel).fieldsOk = true ∧ (pairRing 0x106 1 10000 goodKernel 3).refuses none (kernelParams goodKernel) = false ∧
    (pairRing 0x106 1 10000 goodKernel 3).mgmt.tsync = true ∧
    (pairRing 0x106 1 10000 goodKernel 3).tick.toNat + 10000 ≤ (10000#64).toNat ∧
    (9999#64).toNat < (pairRing 0x106 1 9999 goodKernel 3).tick.toNat + 10000 ∧
    (kernelParams badKernel).fieldsOk = false ∧ (pairRing 0x106 1 10000 badKernel 3).PacketIs 0 1 1 2 badKernel ∧
    (kernelParams bigKernel).fieldsOk = true ∧ (pairRing 0x106 1 10000 bigKernel 3).refuses none (kernelParams bigKernel) = true ∧
    (pairRing 0x106 1 10000 bigKernel 3).PacketIs 0 1 1 2 bigKernel ∧
    (pairWaits (pairRing 0x106 1 10000 goodKernel 3) goodKernel).headPlaces 0 = some [0] ∧
    (pairWaits (pairRing 0x106 1 10000 goodKernel 3) goodKernel).headFirst 0 = true ∧
    (pairRing 0x106 1 10000 hugeKernel 3).refuses none (kernelParams hugeKernel) = false ∧
    (pairRing 0x106 1 10000 hugeKernel 3).PacketIs 0 1 1 2 hugeKernel ∧
    (pairWaits (pairRing 0x106 1 10000 hugeKernel 3) hugeKernel).headPlaces 0 = none :=
  ⟨by decide +kernel, inv_of (by decide +kernel), quiet_of (by decide +kernel), packet_of (by decide +kernel),
   packet_of (by decide +kernel), packet_of (by decide +kernel), by decide +kernel, by decide +kernel, by decide +kernel,
   by decide +kernel, by decide +kernel, by decide +kernel, by decide +kernel, by decide +kernel, by decide +kernel,
   packet_of (by decide +kernel), by decide +kernel, by decide +kernel, packet_of (by decide +kernel), by decide +kernel,
   by decide +kernel, by decide +kernel, packet_of (by decide +kernel), Option.isNone_iff_eq_none.1 (by decide +kernel)⟩

/-- A GANGSYNC of packages 0 and 1, and one of packages 1 and 2, that stand at the head of queue 0. -/
def bedSync (mask : Word) (got : List (BitVec 6)) (failed : Bool) : State :=
  bedHead (.gangsync mask 30000 0 (kernelParams goodKernel) true 1 (some [1]) got failed)

theorem witness_PairEvents_held : (bedSync 3 [] false).Inv ∧ (bedSync 3 [] false).Quiet ∧
    ((bedSync 3 [] false).queue 0).head = .gangsync 3 30000 0 (kernelParams goodKernel) true 1 (some [1]) [] false ∧
    ((3#64).getLsbD (bedSync 3 [] false).mgmt.pkg.toNat = true ∧ ∀ j < (bedSync 3 [] false).mgmt.pkg.toNat, (3#64).getLsbD j = false) ∧
    (3#64).getLsbD (1#6).toNat = true ∧ (1#6) ≠ (bedSync 3 [] false).mgmt.pkg ∧ (6#64).getLsbD 0 = false ∧
    (bedSync 3 [] false).gangOf 2 = none ∧ 0 + (kernelParams goodKernel).nstrand ≤ 5 ∧ 5 ≤ 163840 ∧
    (bedSync 6 [] false).mgmt.pkg = 0 ∧ 4 + (kernelParams goodKernel).nstrand ≤ 5 ∧
    (bedSync 3 [0, 1] false).tick.toNat + 10000 ≤ (30000#64).toNat ∧ (∀ i < 64, (3#64).getLsbD i = true → ∃ x ∈ [0#6, 1], x.toNat = i) ∧
    readArgs (bedSync 3 [0, 1] false) 0 0 0 32 = (bedSync 3 [0, 1] false, some []) :=
  ⟨inv_of (by decide +kernel), quiet_of (by decide +kernel), by decide +kernel, by decide +kernel, by decide, by decide +kernel, by decide,
   Option.isNone_iff_eq_none.1 (by decide +kernel), by decide +kernel, by decide, by decide +kernel, by decide +kernel, by decide +kernel,
   by decide, rfl⟩

theorem witness_PairEvents_commitTick : let s : State := { bed with gangs := [{ placedGang State.reset with commit := some 5 }], tick := 5 }
    (∃ g, s.gangOf 1 = some g ∧ g.commit = some 5) ∧ (5#64).toNat ≤ s.tick.toNat := ⟨⟨_, rfl, rfl⟩, by decide⟩

/-- The parameters of a gang that needs every slot of every core. -/
def fullParams : Params := { placedParams with nstrand := 2560, compl := 0x30000 }

theorem witness_PlacementEvents_check : (bedHead (.kernel { placedParams with compl := 0x30000 } false 0)).Inv ∧
    (bedHead (.kernel { placedParams with compl := 0x30000 } false 0)).Quiet ∧
    ((bedHead (.kernel { placedParams with compl := 0x30000 } false 0)).queue 0).head = .kernel { placedParams with compl := 0x30000 } false 0 ∧
    checkObject (bedHead (.kernel { placedParams with compl := 0x30000 } false 0)) { placedParams with compl := 0x30000 } = none :=
  ⟨inv_of (by decide +kernel), quiet_of (by decide +kernel), by decide +kernel, Option.isNone_iff_eq_none.1 (by decide +kernel)⟩

/-- A head that the trust core has accepted. -/
def bedReady : State := bedHead (.kernel { placedParams with compl := 0x30000 } true 1)

theorem witness_PlacementEvents_place : bedReady.Inv ∧ bedReady.serving = true ∧
    ({ placedParams with compl := 0x30000 } : Params).fieldsOk = true ∧ bedReady.refuses none { placedParams with compl := 0x30000 } = false ∧
    bedReady.headPlaces 0 = some [0] ∧ bedReady.headFirst 0 = true ∧ bedReady.nextGang ≠ 0 ∧ bedReady.gangOf bedReady.nextGang = none ∧
    (∀ k, readArgs { bedReady with nextGang := k } 0 0 0 32 = ({ bedReady with nextGang := k }, some [])) ∧
    bedReady.placesFor { die := none, reduced := false, avoid := fun _ => false } { placedParams with place := 1 } = some [20] :=
  ⟨inv_of (by decide +kernel), by decide +kernel, by decide +kernel, by decide +kernel, by decide +kernel, by decide +kernel,
   by decide +kernel, Option.isNone_iff_eq_none.1 (by decide +kernel), fun _ => rfl, by decide +kernel⟩

theorem witness_PlacementEvents_ageing : (bedReady.queue 0).aged = false ∧
    1000000 ≤ (({ bedReady with tick := 1000000 } : State).tick - (bedReady.queue 0).headSince).toNat ∧
    (let s : State := { bed with dies := bed.dies.set 3 ⟨1, 0, false⟩ }
     s.dies[3].wsState = 1 ∧ s.dies[3].wsFault = false ∧ ∀ g ∈ s.gangs, g.loading ≠ some 3) := ⟨by decide +kernel, by decide +kernel, by decide +kernel⟩

/-- Queue 1 holds a gang that needs every place, at this priority. -/
def bedFull (prio : BitVec 2) : State :=
  { bed with tick := 10000000, queues := [(1, { Queue.reset with en := true, head := .kernel fullParams true 1, prio := prio })] }

theorem witness_GangEvents_preempt : (bedFull 3).Inv ∧ (∃ g, (bedFull 3).gangOf 1 = some g ∧ (bedFull 3).isPlaced g = true ∧
      (bedFull 3).preemptFor g = some (some 1)) ∧
    (bedFull 3).cur.window = [] ∧
    (bedFull 3).cur.k.all (fun k => k.inflight.isEmpty && !k.endSent) = true ∧ (bedFull 3).cur.updq = [] ∧
    (bedFull 3).blockOk (bedFull 3).cur.twinAddr (bedFull 3).cur.imageLen = true ∧
    10000000 ≤ ((bedFull 0).tick - (placedGang State.reset).placedAt).toNat ∧ (bedFull 0).headWaits 1 = true ∧
    ((bedFull 0).queue 1).prio.toNat = ((bedFull 0).queue 0).prio.toNat :=
  ⟨inv_of (by decide +kernel), ⟨placedGang State.reset, by decide +kernel, by decide +kernel, by decide +kernel⟩, rfl, by decide +kernel, rfl,
   by decide +kernel, by decide +kernel, by decide +kernel, by decide +kernel⟩

/-- The gang switched out for no head, with an image of its strand of which only the header is written. -/
def bedOutGang : Gang := { placedGang State.reset with placed := false }
def bedOut : State :=
  { bedWith (fun st => { st with phase := .switchedOut }) with gangs := [bedOutGang] }.rawWrite 0x30000 0x38
    (0x06405348 + 2 ^ 32 + 2048 * 2 ^ 128 + 2 ^ 208 * 2 ^ 208)

theorem witness_GangEvents_resume : bedOut.gangOf 1 = some bedOutGang ∧ bedOutGang.isOut = true ∧ gvlenOk bedOutGang.gvlen0 512 = true ∧
    gvlenOk bedOutGang.gvlen0 bedOutGang.gvlen0 = true ∧ bedOut.resumePlaces bedOutGang = some [0] ∧ bedOut.gangFirst bedOutGang = true ∧
    imageOk bedOut bedOut.cur = true ∧ ∀ st ∈ bedOut.strands, st = bedOut.cur :=
  ⟨by decide +kernel, by decide +kernel, by decide +kernel, by decide +kernel, by decide +kernel, by decide +kernel, by decide +kernel,
   by simp [State.strands, bedOut, bedWith, bed, State.upd, State.reset, State.rawWrite]⟩

/-- The gang's only strand has ended. -/
def bedEnded : State :=
  { bedWith (fun st => { st with phase := .exited }) with
    mgmt := { bed.mgmt with hdm := some 0 }, gangs := [{ placedGang State.reset with params := { placedParams with compl := 0x30000 } }] }

/-- A strand of the gang at rest, and one whose copy runs. -/
theorem witness_GangEvents_kill : (∃ g, bed.gangOf 1 = some g ∧ g.killed = none) ∧
    (bed.cur.gang = 1 ∧ bed.cur.phase = .resident ∧ bed.cur.atRest = true ∧ bed.cur.dying = none) ∧
    (let st := bedStrand.setCopy 0 { CopyPos.none with st := 1 }
     st.gang = 1 ∧ st.phase = .resident ∧ st.atRest = false) ∧ 1 ≤ (1#64).toNat ∧ (4#64).toNat ≤ 4 :=
  ⟨⟨_, rfl, rfl⟩, by decide +kernel, by decide +kernel, by decide, by decide⟩

theorem witness_GangEvents_end : bedEnded.Inv ∧ bedEnded.Quiet ∧
    (∃ g, bedEnded.gangOf 1 = some g ∧ g.params.compl.toNat = 0x30000) ∧ bedEnded.hostLoc 0x30000 = some (.dev 0x30000) ∧
    (∀ st ∈ bedEnded.strands, st.gang = 1 → st.phase ≠ .absent → st.phase = .exited ∧ ∀ i : Fin 8, st.copies[i.val].st ≠ 1) ∧
    ∀ h, bedEnded.region 1 h = none :=
  ⟨inv_of (by decide +kernel), quiet_of (by decide +kernel), ⟨_, rfl, rfl⟩, hostLoc_low (by decide +kernel),
   by decide +kernel, fun h => by
     rcases Nat.lt_or_ge h 64 with hl | hl
     · have : ∀ h < 64, bedEnded.region 1 h = none := by decide +kernel
       exact this h hl
     · unfold State.region
       cases bedEnded.gangOf 1 with
       | none => rfl
       | some g => exact if_neg (Nat.not_lt.2 hl)⟩

theorem witness_ErrorEvents : bedErr.Inv ∧ (∀ k ∈ [1#8, 6], 1 ≤ k.toNat ∧ k.toNat ≤ 6) ∧ (159#8).toNat < 160 ∧
    (populated (64 * 0x800) = true ∧ paPkg (64 * 0x800) = bedErr.mgmt.pkg.toNat ∧ (0 : Nat) = paDie (64 * 0x800)) ∧
    (3 = (4 * 2 ^ 24 - 1) / 2 ^ 24 ∧ 4 * 2 ^ 24 - 1 < 4 * 2 ^ 24) ∧ ({ bedErr with linksUp := 0x408000 } : State).linksUp.getLsbD 15 = true ∧
    ({ bedErr with linksUp := 0x408000 } : State).linksUp.getLsbD 22 = true ∧
    bedErr.mgmt.linken.getLsbD 1 = true ∧ bedErr.linksUp.getLsbD 1 = false ∧ (5#6) ≠ bedErr.mgmt.pkg ∧
    (5#6).toNat ≠ bedErr.mgmt.hostpkg.toNat ∧ (5#6) ∈ ({ bedErr with routes := [5] } : State).routes ∧
    (1919 < 1952 ∧ 1952 < 2048 ∧ 1952 % 32 ≠ 31) ∧ bed.mgmt.tsync = false ∧
    bed.mgmt.origin = false ∧ ({ bed with mgmt := { bed.mgmt with origin := true } } : State).mgmt.origin = true ∧
    (∀ g ∈ bed.gangs, g.pkgMask.getLsbD 5 = false) ∧ ∃ g ∈ [{ placedGang State.reset with pkgMask := 0x21 }], g.pkgMask.getLsbD 5 = true :=
  ⟨inv_of (by decide +kernel), by decide, by decide, by decide +kernel, by decide, by decide, by decide, by decide, by decide, by decide,
   by decide, by decide, by decide, rfl, rfl, rfl, by decide +kernel, _, List.mem_cons_self, by decide⟩

theorem witness_PowerEvents : bed.Inv ∧ (let s : State := { bed with islands := [(1, { Island.reset with fresh := true })] }
      (s.island 1).fresh = true ∧ 4 < (s.island 1).alc ∧ s.Inv) ∧
    ((bed.island 1).fresh = false ∧ (bed.island 2).fresh = false ∧ bed.hot 0 = false ∧ bed.mgmt.power ≤ bed.mgmt.plim.toNat) ∧
    31 < 32 ∧ bed.serving = true ∧ (∀ st ∈ bed.strands, st.placedOn = true → st.core.toNat / 20 ≠ 31) ∧
    bed.tick.toNat % 1000 = 0 ∧ ({ bed with tick := 999 } : State).tick.toNat % 1000 ≠ 0 ∧
    (∀ last, Sparse.get none bed.lastBusy 31 = some last → 100000 ≤ (bed.tick - last).toNat) ∧
    (let s : State := { bed with tick := 100000, lastBusy := [(31, some 0)] }
     s.Inv ∧ ∀ last, Sparse.get none s.lastBusy 31 = some last → 100000 ≤ (s.tick - last).toNat) ∧
    bed.mgmt.phase ≠ 1 ∧ ({ bed with mgmt := { bed.mgmt with phase := 1 } } : State).mgmt.phase = 1 :=
  ⟨bed_inv, ⟨by decide +kernel, by decide +kernel, inv_of (by decide +kernel)⟩, by decide +kernel, by decide, by decide +kernel,
   by decide +kernel, by decide +kernel, by decide, (fun _ h => by cases h),
   ⟨inv_of (by decide +kernel), fun last h => by injection h with h; subst h; decide⟩, by decide +kernel, rfl⟩

/-- A strand that runs ahead, with the entry of an instruction in its window, every group admitted. -/
def aheadEntry (op : WOp) : Entry := { entryFor op bedStrand with adm := BitVec.allOnes 1024 }
def bedAhead (op : WOp) : State := bedWith fun st => { st with ahead := true, window := [aheadEntry op] }

theorem witness_WindowEvents_enter : (bedAhead (opVadd 3 1 2 0 0)).cur.ahead = true ∧ (bedAhead (opVadd 3 1 2 0 0)).cur.window.length < 16 ∧
    (bedAhead (opVadd 3 1 2 0 0)).Ready [2] ∧ illFormed (.vadd 5 3 2 0 0) = none ∧
    (bedAhead (opVadd 3 1 2 0 0)).cur.unstreamed (.vadd 5 3 2 0 0) ∧ (bedAhead (opVadd 3 1 2 0 0)).etype ≤ 7 :=
  ⟨rfl, by decide +kernel, ready_of (by decide +kernel), by decide, ⟨by decide +kernel, by decide +kernel⟩, by decide +kernel⟩

/-- An entry that has fired all, a core, and two strands of which the second holds the larger balance. -/
theorem witness_WindowEvents_retire : (let en := { aheadEntry (opVadd 3 1 2 0 0) with pidx := 1, tailDone := true }; en.ngrp ≤ en.pidx ∧
      en.tailDone = true) ∧ bed.Inv ∧ 639 < 640 ∧
    chooseFrom 3 [bedStrand, { bedStrand with balance := 131072, slot := 1 }] = some { bedStrand with balance := 131072, slot := 1 } :=
  ⟨by decide +kernel, bed_inv, by decide, by decide +kernel⟩

/-- What the clauses about one unit of the youngest entry ask of its seat. -/
def seatOk (s : State) (x : Seat) : Bool :=
  s.free && !s.cur.stepping && x.en.vl != 0 && !x.en.over && x.en.pairing.isNone && !x.clash && !streamBound s.cur x.en

/-- Unit `e` is admitted and ready, and others are left. -/
def unitOk (s : State) (x : Seat) (e : Nat) : Bool :=
  x.units.byElem && x.units.at_ e == e && x.en.ngrp == (x.units.count + 31) / 32 && x.admits s.cur (s.firing 0 x e) &&
  s.actReady 0 x e && !x.completes [e]

theorem witness_WindowEvents_element : ∃ op eff d v, let s := bedAhead (opVadd 3 1 2 0 0)
    let x := s.headSeat (aheadEntry (opVadd 3 1 2 0 0))
    s.seats[0]? = some x ∧ 0 + 1 = s.cur.window.length ∧ opOf x.en.ins = some op ∧ seatOk s x = true ∧ unitOk s x 3 = true ∧
    (∀ i, x.units.unitOf 0 i = i) ∧ op.body.resolve s x.en = .regs eff ∧ isStore x.en.ins = false ∧
    (eff s.cur x.en).writes = [d] ∧ 3 < d.upto ∧ d.val 3 = some v :=
  ⟨_, _, _, 21, rfl, rfl, rfl, by decide +kernel, by decide +kernel, fun _ => rfl, rfl, by decide +kernel, rfl, by decide +kernel,
   by decide +kernel⟩

/-- The access gives these values, without a flag, and leaves the state. -/
def gotIs (s : State) (l : List Nat) (r : Acc (List Nat × Flags)) : Bool :=
  match r with
  | .ok t x => decide (t = s) && decide (x = (l, 0))
  | _ => false

theorem got_of {s : State} {l : List Nat} {r : Acc (List Nat × Flags)} (h : gotIs s l r = true) : r = .ok s (l, 0) := by
  unfold gotIs at h
  split at h
  · simp only [Bool.and_eq_true, decide_eq_true_eq] at h
    rw [h.1, h.2]
  · cases h

theorem witness_WindowEvents_load : ∃ op plan, let s := bedAhead (opVld 3 4 0)
    let x := s.headSeat (aheadEntry (opVld 3 4 0))
    let p := plan s.cur x.en
    s.seats[0]? = some x ∧ 0 + 1 = s.cur.window.length ∧ opOf x.en.ins = some op ∧ seatOk s x = true ∧ unitOk s x 7 = true ∧
    (∀ i, x.units.unitOf 0 i = i) ∧ op.body.resolve s x.en = .load plan ∧ p.act 7 = true ∧ p.dests = [(3, 32)] ∧
    p.get (if p.fresh x.en then p.first s else s) 7 = .ok s ([0], 0) ∧ s.cur = { s.cur with linkGen := s.cur.linkGen } :=
  ⟨_, _, rfl, rfl, rfl, by decide +kernel, by decide +kernel, fun _ => rfl, rfl, by decide +kernel, rfl, got_of (by decide +kernel), rfl⟩

theorem witness_WindowEvents_gather : let s := bedAhead (opVldx 3 4 2 0)
    let x := s.headSeat (aheadEntry (opVldx 3 4 2 0))
    s.seats[0]? = some x ∧ 0 + 1 = s.cur.window.length ∧ (opOf x.en.ins).isSome = true ∧ seatOk s x = true ∧
    isGather x.en.ins = true ∧ s.gatherable 0 x = 0 :: [1, 2, 3, 4, 5, 6, 7] :=
  ⟨rfl, rfl, rfl, by decide +kernel, by decide +kernel, by decide +kernel⟩

/-- A store of 64 elements, of which group 0 leaves group 1. -/
def wideStrand : Strand := { bedStrand with vl := 16, rl := 4 }
def wideEntry : Entry := { entryFor (opVst 1 4 0) wideStrand with adm := BitVec.allOnes 1024 }
def bedWide : State := bedWith fun _ => { wideStrand with ahead := true, window := [wideEntry] }

theorem witness_WindowEvents_store : ∃ op plan l, let s := bedWide
    let x := s.headSeat wideEntry
    s.Inv ∧ s.Quiet ∧ s.seats[0]? = some x ∧ 0 + 1 = s.cur.window.length ∧ opOf x.en.ins = some op ∧ seatOk s x = true ∧
    op.body.resolve s x.en = .store plan ∧ isStore x.en.ins = true ∧ x.units.byElem = false ∧
    (∀ u < x.units.count, x.units.first u = u ∧ x.units.last u = u) ∧ x.en.ngrp = x.units.count ∧
    x.admits s.cur (s.firing 0 x 0) = true ∧ s.actReady 0 x 0 = true ∧ x.completes [0] = false ∧
    groupSpans (plan s.cur x.en) s x.en 0 = .ok l ∧ (∀ y ∈ l, y.n < 64 ∧ ∀ b, y.loc = .dev b → b % 64 + y.n ≤ 64) :=
  ⟨_, _, (List.range 32).map fun e => ⟨.dev (0x20000 + 4 * e), 4, wideStrand.elem 1 32 e⟩, inv_of (by decide +kernel),
   quiet_of (by decide +kernel), rfl, rfl, rfl, by decide +kernel, rfl, rfl, rfl, fun _ _ => ⟨rfl, rfl⟩, by decide +kernel,
   by decide +kernel, by decide +kernel, by decide +kernel, rfl, by
     intro x hx
     obtain ⟨e, he, rfl⟩ := List.mem_map.1 hx
     have := List.mem_range.1 he
     exact ⟨(by decide : 4 < 64), fun b hb => by injection hb with hb; subst hb; show (0x20000 + 4 * e) % 64 + 4 ≤ 64; omega⟩⟩

/-- A pair to the region of handle 5. -/
def pair5 : Pair := { handle := 5, addr := 0x30010, seg := 0, val := 3, key := 1, elems := [0], serial := 0 }

/-- A pair at the head of the update queue, with no entry to absorb it, with one at its address, and to no region. -/
def bedPairUpd (es : List PressEntry) (h : Nat) : State :=
  (bed.setRegion 1 5 (some { bedRegionRec with entries := es })).upd fun st =>
    { st with updq := [{ pair5 with handle := h }] }

theorem witness_EngineEvents_pair : (bedPairUpd [] 5).cur.updq = [pair5] ∧
    (bedPairUpd [] 4).region (bedPairUpd [] 4).cur.gang 4 = none ∧
    (bedPairUpd [] 5).region (bedPairUpd [] 5).cur.gang 5 = some bedRegionRec ∧ bedRegionRec.serial = pair5.serial ∧
    bedRegionRec.serial ≠ ({ pair5 with serial := 1 } : Pair).serial ∧ (bedPairUpd [] 5).reachable 0x30010 = true ∧
    (bedPairUpd [] 5).segCount 0 < 65536 ∧ 0 < bedRegionRec.logSpace ∧ ({ bedRegionRec with extents := [] } : Region).logSpace = 0 ∧
    bedRegionRec.absorbs pair5
      { addr := 0x30010, val := 4, key := 0, batch := 0, seg := 0, unit := none, spoiled := false } = true ∧ bedRegionRec.oper ≠ 6 :=
  ⟨rfl, Option.isNone_iff_eq_none.1 (by decide +kernel), by decide +kernel, by decide, by decide, by decide +kernel, by decide +kernel,
   by decide +kernel, by decide +kernel, by decide +kernel, by decide⟩

/-- A receiving port with bytes under way, and one whose end marker is. -/
def bedPort (l : List Byte) (e : Bool) : State := bed.upd fun st =>
  st.setSlot 2 fun k => { k with mode := 0x20, reg := 6, status := 1, inflight := l, endSent := e }

theorem witness_EngineEvents_relay : ((bedPort [7] false).cur.slotAt 2).status.getLsbD 0 = true ∧
    ((bedPort [7] false).cur.slotAt 2).mode.getLsbD 5 = true ∧ ((bedPort [7] false).cur.slotAt 2).mode.getLsbD 0 = false ∧
    ((bedPort [7] false).cur.slotAt 2).inflight ≠ [] ∧ (bedPort [7] false).cur.window = [] ∧
    ((bedPort [] true).cur.slotAt 2).endSent = true ∧ ((bedPort [] true).cur.slotAt 2).inflight = [] := by decide +kernel

/-- Tables at 0x30000 to 0x33000 of `bed` that map the page at 0x60000, which no entry of the buffer maps, to page 2; nothing maps
0x70000. -/
def bedTables : State :=
  (((({ bed with cur := { bed.cur with ptroot := 0x30 } } : State).rawWrite 0x30000 8 0x31001).rawWrite 0x31000 8 0x32001).rawWrite
    0x32000 8 0x33001).rawWrite (0x33000 + 8 * 6) 8 0x2003F

theorem witness_EngineEvents_walk : bedTables.cur.phase = .resident ∧ canonical 0x60000 = true ∧
    bedTables.tlbHit bedTables.cur 0x60000 = none ∧ (0#2) ≠ 3 ∧ walk bedTables bedTables.cur.ptroot 0x60000 = .leaf 0x2003F 16 ∧
    (bedTables.tlb.filter fun y => y.core == bedTables.cur.core.toNat).length < 1024 ∧
    walk bedTables bedTables.cur.ptroot 0x70000 = .invalid :=
  ⟨rfl, by decide, by decide +kernel, by decide, by decide +kernel, by decide +kernel, by decide +kernel⟩

theorem witness_EngineEvents_channel : bed.Inv ∧ bed.Quiet ∧ 8 ∈ [1, 2, 4, 8] ∧ (0x20000#46).toNat % 8 = 0 ∧
    populated (0x20000#46).toNat = true ∧ paPkg (0x20000#46).toNat = bed.mgmt.pkg.toNat ∧ bed.Clean (.dev (0x20000#46).toNat) ∧
    BitVec.allOnes 64 = BitVec.allOnes 64 ∧ (2 ^ 32 + 1 : BitVec 64) ≠ BitVec.allOnes 64 ∧
    (let s : State := { bed with poison := [(0x800, true)] }
     s.Inv ∧ s.Quiet ∧ s.poisoned (0x20000#46).toNat = true) :=
  ⟨bed_inv, bed_quiet, by decide, by decide, by decide +kernel, by decide +kernel, clean_all rfl _, rfl, by decide,
   inv_of (by decide +kernel), quiet_of (by decide +kernel), by decide +kernel⟩

/-- Page 0x70000 maps host memory. -/
def hostMapped (s : State) : State :=
  { s with mgmt := { s.mgmt with hostpkg := 3 },
           tlb := s.tlb ++ [{ core := 0, asid := s.cur.asid, va := 0x70000, bits := 16, pte := 0x3000000003F }] }

theorem placed_of {s : State} {a pte : Word} {pa : Nat} {l : Loc} {k : Kind} (hk : k = .read ∨ k = .write) (h1 : canonical a = true)
    (h2 : s.leafFor s.cur a = .leaf pte 16) (h3 : mayAccess k s.cur.sup pte = true) (h4 : leafAddr pte 16 a = pa)
    (h5 : s.locate pa = some l) (h6 : s.permitted pa = false) (h7 : pteBit pte 6 = false) : s.translate s.cur a k = .ok (l, false) := by
  rcases hk with rfl | rfl <;> simp [State.translate, h1, h2, h3, h4, h5, h6, h7]

theorem host_of {s : State} (ho : Config.hostOk 0x40 = true) {a : Word} {k : Kind} (hk : k = .read ∨ k = .write)
    (hc : canonical a = true ∧ s.leafFor s.cur a = .leaf 0x3000000003F 16 ∧ mayAccess k s.cur.sup 0x3000000003F = true ∧
      leafAddr 0x3000000003F 16 a = 0x30000000040 ∧ s.mgmt.pkg = 0 ∧ s.mgmt.hostpkg = 3 ∧ s.permitted 0x30000000040 = false) :
    s.translate s.cur a k = .ok (.host 0x40, false) := by
  obtain ⟨h1, h2, h3, h4, h5, h6, h7⟩ := hc
  refine placed_of hk h1 h2 h3 h4 ?_ h7 (by decide)
  simp [State.locate, h5, h6, populated, paPkg, paDie, paOffset, ho]

/-- A copy of two lines that runs from 0x20000 to a target with this control word and progress. -/
def bedCopying (src dst ctl : Word) (p : Nat) : State := bedWith fun st => { st with
  copies := st.copies.set 0 { CopyPos.none with ticket := 8, st := 1, src := src, dst := dst, ctl := ctl, p := p } }

theorem witness_EngineEvents_copy : (bedCopying 0x20000 0x30000 128 0).Inv ∧ (bedCopying 0x20000 0x30000 128 0).Quiet ∧
    ((bedCopying 0x20000 0x30000 128 0).cur.copyAt 0).st = 1 ∧ 1 < (128#64).toNat % 2 ^ 40 / 64 ∧
    ((bedCopying 0x20000 0x30000 128 0).cur.copyAt 0).written 1 = false ∧ 1 ≤ 0 / 64 + 256 ∧
    (bedCopying 0x20000 0x30000 128 0).isKilled (bedCopying 0x20000 0x30000 128 0).cur.gang = false ∧
    (bedCopying 0x20000 0x30000 128 0).translate (bedCopying 0x20000 0x30000 128 0).cur 0x20040 .read = .ok (.dev 0x20040, false) ∧
    (bedCopying 0x20000 0x30000 128 0).translate (bedCopying 0x20000 0x30000 128 0).cur 0x30040 .write = .ok (.dev 0x30040, false) ∧
    (128#64).getLsbD 46 = false ∧ (128 + 2 ^ 46 : BitVec 64).getLsbD 46 = true ∧
    (bedCopying 0x20000 0x40000 128 0).translate (bedCopying 0x20000 0x40000 128 0).cur 0x40040 .write = .error 0x06 ∧
    (bedCopying 0x60000 0x30000 128 0).translate (bedCopying 0x60000 0x30000 128 0).cur 0x60040 .read = .error 0x04 ∧
    ({ bedCopying 0x20000 0x30000 128 0 with poison := [(0x801, true)] } : State).poisoned 0x20040 = true ∧
    (Config.hostOk 0x40 = true →
      (hostMapped (bedCopying 0x70000 0x30000 128 0)).translate (hostMapped (bedCopying 0x70000 0x30000 128 0)).cur 0x70040 .read =
        .ok (.host 0x40, false) ∧
      (hostMapped (bedCopying 0x20000 0x70000 128 0)).translate (hostMapped (bedCopying 0x20000 0x70000 128 0)).cur 0x70040 .write =
        .ok (.host 0x40, false)) ∧
    ∀ a pa, Loc.host a ≠ .dev pa :=
  ⟨inv_of (by decide +kernel), quiet_of (by decide +kernel), by decide +kernel, by decide, by decide +kernel, by decide, by decide +kernel,
   rfl, rfl, by decide, by decide, rfl, rfl, by decide +kernel,
   fun h => ⟨host_of h (.inl rfl) (by decide +kernel), host_of h (.inr rfl) (by decide +kernel)⟩, fun _ _ h => by cases h⟩

/-- A copy that is all written, without and with a barrier to reach. -/
theorem witness_EngineEvents_complete : ((bedCopying 0x20000 0x30000 128 128).cur.copyAt 0).st = 1 ∧ (128#64).toNat % 2 ^ 40 ≤ 128 ∧
    (128#64).getLsbD 45 = false ∧ (128 + 2 ^ 45 : BitVec 64).getLsbD 45 = true ∧
    ((bedCopying 0x20000 0x30000 (128 + 2 ^ 45) 128).barrier (bedCopying 0x20000 0x30000 (128 + 2 ^ 45) 128).cur (some 0)).holds = false ∧
    0 % 64 = 0 ∧ 0 / 64 ≤ 256 ∧ 256 ≤ 0 / 64 + 256 ∧
    ({ bedCopying 0x20000 0x30000 128 128 with gangs := [{ placedGang State.reset with killed := some 1 }] } : State).isKilled 1 = true :=
  ⟨by decide +kernel, by decide, by decide, by decide, by decide +kernel, by decide, by decide, by decide, by decide +kernel⟩

/-- A fault of a copy and a completion that wait for the user-level handler, or for the supervisor without a vector. -/
def bedPend (fault : Bool) (vec : BitVec 58) : State := bedWith fun st => { st with
  uivec := vec, enFault := true, enDone := true, pFault := if fault then 4 else 0, pDone := 8 }

theorem witness_AsynchronousTraps_user : (bedPend true 0).cur.phase = .resident ∧ (bedPend true 0).cur.enFault = true ∧
    (bedPend true 0).cur.pFault.getLsbD 2 = true ∧ (∀ j < 2, (bedPend true 0).cur.pFault.getLsbD j = false) ∧
    (bedPend true 0).cur.uivec = 0 ∧ (bedPend false 0x440).cur.pFault = 0 ∧ (bedPend false 0x440).cur.enDone = true ∧
    (bedPend false 0x440).cur.pDone.getLsbD 3 = true ∧ (∀ j < 3, (bedPend false 0x440).cur.pDone.getLsbD j = false) ∧
    (bedPend false 0x440).cur.uivec ≠ 0 ∧ (bedPend true 0).Ready [24, 25, 26, 27, 28, 29] ∧ (bedPend true 0).cur.sup = false ∧
    (bedPend true 0).cur.stop = none ∧ (bedPend true 0).cur.dying = none ∧ (bedPend true 0).cur.uiIn = false ∧
    (bedPend true 0).cur.stepping = false ∧ (bedPend true 0).cur.leaving = false :=
  ⟨rfl, rfl, by decide +kernel, by decide +kernel, rfl, rfl, rfl, by decide +kernel, by decide +kernel, by decide +kernel,
   ready_of (by decide +kernel), rfl, rfl, rfl, rfl, rfl, rfl⟩

theorem witness_AsynchronousTraps_entry :
    (let en := { aheadEntry (opVld 3 4 0) with detected := some ⟨0x04, 0x60000, 2⟩ }
     let s := bedWith fun st => { st with window := [aheadEntry (opVadd 3 1 2 0 0), en] }
     s.cur.window[1]? = some en ∧ en.detected = some ⟨0x04, 0x60000, 2⟩ ∧ ∀ j < 1, ∀ x, s.cur.window[j]? = some x → x.detected = none) ∧
    (let s := bedWith fun st => { st with wdog := 100, wcount := 100 }
     s.cur.wdog ≠ 0 ∧ s.cur.wdog.toNat ≤ s.cur.wcount.toNat) ∧
    (let s := bedWith fun st => { st with stepping := true, stepDone := true }
     s.cur.stepping = true ∧ s.cur.stepDone = true) := by
  refine ⟨⟨rfl, rfl, fun j hj x hx => ?_⟩, by decide +kernel, by decide +kernel⟩
  obtain rfl : j = 0 := by omega
  injection hx with hx
  subst hx
  rfl

/-- An element step at an entry of 64 elements. -/
theorem witness_AsynchronousTraps_step : ∃ op eff, let en := entryFor (opVadd 3 1 2 0 0) wideStrand
    let s := bedWith fun _ => { wideStrand with stepping := true, window := [en] }
    let x := s.headSeat en
    let us := x.stepUnits
    s.cur.phase = .resident ∧ s.cur.stop = none ∧ s.cur.dying = none ∧
    s.cur.stepping = true ∧ s.cur.stepDone = false ∧ s.cur.window = en :: [] ∧ opOf en.ins = some op ∧ en.vl ≠ 0 ∧ en.over = false ∧
    op.body.resolve s en = .regs eff ∧ en.pairing = none ∧ streamBound s.cur en = false ∧
    x.clash = false ∧ x.completes us = false ∧ (x.after s.cur us).groupDone en.pidx = true :=
  ⟨_, _, rfl, rfl, rfl, rfl, rfl, rfl, rfl, by decide +kernel, by decide +kernel, rfl, rfl, by decide +kernel, by decide +kernel,
   by decide +kernel, by decide +kernel⟩

theorem witness_DecodeEncode : encode (.add 3 1 2) = some 0b000001_00011_00001_00010_00000000000 ∧ illFormed (.add 3 1 2) = none := by
  decide

/-- The strand at the word of ADD g3, g1, g2, and one in an element step. -/
def bedFetch (f : Strand → Strand) : State := (bed.withFetchWord 32 0b000001_00011_00001_00010_00000000000).upd f

/-- Two strands of one core, in slots 0 and 2, the latter having had the last turn. -/
def bedTwo : State :=
  { bed with
    cur := { bed.cur with slot := 2, id := 1 }
    others := [{ bed.cur with slot := 0, id := 0 }] }

theorem witness_StepRunsDecoded_turn : bedTwo.Inv ∧ ∃ st ∈ bedTwo.strands, st.phase ≠ .absent :=
  ⟨inv_of (by decide +kernel), _, List.mem_cons_self, by decide⟩

/-- R38: the strands of a core take turns in slot order. -/
theorem test_turns : bedTwo.nextTurn.cur.slot = 0 ∧ bedTwo.nextTurn.nextTurn.cur.slot = 2 ∧
    bedTwo.nextTurn.nextTurn.nextTurn.cur.slot = 0 := by decide +kernel

theorem witness_StepRunsDecoded : (bedFetch id).agenda = [] ∧ (let u := (bedFetch id).clock.nextTurn.attended.settled
      u.cur.phase = .resident ∧ u.cur.window = [] ∧ u.cur.stop = none ∧ u.cur.dying = none ∧ u.cur.stalled = false ∧
      u.cur.expired = false ∧ u.cur.asyncDue = false ∧ u.cur.stepDone = false ∧ u.cur.stepping = false ∧
      ∃ s1, u.fetch = .word s1 0b000001_00011_00001_00010_00000000000) ∧
    decode 0b000001_00011_00001_00010_00000000000 = .ok (.add 3 1 2) ∧
    (bedFetch fun st => { st with stepping := true }).clock.nextTurn.attended.settled.cur.stepping = true :=
  ⟨rfl, ⟨rfl, rfl, rfl, rfl, rfl, rfl, rfl, rfl, rfl, _, rfl⟩, by decide +kernel, rfl⟩

/-- R88, R99: the write of STW g1, [g4] may perform after the strand has gone on. -/
theorem test_late : (match step { bed.withFetchWord 32 0b010011_00001_00100_0000000000000000 with agenda := [.late] } with
    | .next t => t.cur.pc == 0x10004 && t.rawRead 0x20000 4 == 0 && t.settle.rawRead 0x20000 4 == 5 && t.settle.cur.late.isEmpty
    | _ => false) = true := by decide +kernel

theorem witness_StepRunsDecoded_none : ∀ i, decode 0b000001_00011_00001_00010_000_00011000 ≠ .ok i := by
  have h : decode 0b000001_00011_00001_00010_000_00011000 = .bad .reservedFunction := by decide +kernel
  intro i hi
  rw [h] at hi
  cases hi

/-- A page without code at PC. -/
theorem witness_StepRunsDecoded_fault : (bedWith fun st => { st with pc := 0x60010 }).clock.nextTurn.attended.settled.fetch = .fault 0x60000 := rfl

/-- A strand that waits. -/
theorem witness_StepRunsDecoded_waits : let s := bedWith fun st => { st with stalled := true }
    let u := s.clock.nextTurn.attended.settled
    s.agenda = [] ∧ u.cur.phase = .resident ∧ u.cur.stop = none ∧ u.cur.dying = none ∧ u.cur.window = [] ∧ u.cur.expired = false ∧
    u.cur.asyncDue = false ∧ u.cur.stalled = true := ⟨rfl, rfl, rfl, rfl, rfl, rfl, rfl, rfl⟩

theorem witness_StepRunsDecoded_event : ({ bed with agenda := [.event (.qtailWrite 0 5)] } : State).agenda = .event (.qtailWrite 0 5) :: [] ∧
    encode (.qtailWrite 0 5) = none ∧ ∃ t, exec (.qtailWrite 0 5) (({ ({ bed with agenda := [.event (.qtailWrite 0 5)] } : State).clock with
      agenda := [] } : State).settledFor (.qtailWrite 0 5)) = .next t := ⟨rfl, rfl, _, rfl⟩

theorem witness_ResetValues : launchStrand bed (placedGang State.reset) [] 0 0 0 = launchStrand bed (placedGang State.reset) [] 0 0 0 ∧
    0x2545F491 ^^^ ((0 : BitVec 32) + 1) ≠ 0 := ⟨rfl, by decide⟩

theorem witness_StepKeepsInvariant : (bedFetch id).Inv ∧ ∃ t, step (bedFetch id) = .next t := ⟨inv_of (by decide +kernel), _, rfl⟩

/-! ### Witnesses of single clauses -/

/-- A strand whose copy runs, one that owes a scalar store, a barrier whose second part waits, and one that releases. -/
theorem witness_SyncMembers_waits : (bedCopy 1).drained 3 = false ∧ (0b1000#4).getLsbD 3 = true ∧
    (bedWith fun st => { st with late := [⟨0x20000, 4, 5, false, 0⟩] }).performed 1 = false ∧
    (let s := bedBarrier ⟨3, 1, 1, 0, false, 0⟩
     let t := (s.arrive s.cur (some 3) true).upd fun st => { st with arrived := st.pc :: st.arrived }
     (t.barrier t.cur (some 3)).expect ≠ 0 ∧ (t.barrier t.cur (some 3)).rel = false) ∧
    ((bedBarrier ⟨2, 2, 2, 0, true, 0⟩).barrier bedStrand (some 3)).rel = true := by decide +kernel

/-- The last wait of a release that holds the arrivals of two copies, which end the next gathering too. -/
theorem witness_BarrierPhase_held : (let s := bedBarrier ⟨2, 2, 2, 1, true, 2⟩
      let x := s.barrier bedStrand (some 3)
      x.expect ≠ 0 ∧ x.sarr ≤ x.passed + 1 ∧ x.expect ≤ x.held) ∧
    ∃ x ∈ ((bedBarrier ⟨2, 2, 2, 1, true, 2⟩).pass bedStrand (some 3)).strands, x.gang = bedStrand.gang ∧ x.group = bedStrand.group :=
  ⟨by decide +kernel, ((bedBarrier ⟨2, 2, 2, 1, true, 2⟩).pass bedStrand (some 3)).cur, List.mem_cons_self, by decide +kernel, by decide +kernel⟩

/-- A window whose second entry has detected a fault. -/
theorem witness_TrapEntry_window : let en := { entryFor (opVld 3 4 0) bedStrand with detected := some ⟨0x04, 0x60000, 2⟩ }
    let s := bedWith fun st => { st with window := [entryFor (opVadd 3 1 2 0 0) bedStrand, en] }
    s.Inv ∧ s.cur.updq = [] ∧ s.cur.midSlice = false ∧ s.blockOk s.cur.twinAddr 0x4840 = true ∧
    s.cur.window[1]? = some en ∧ en.detected = some ⟨0x04, 0x60000, 2⟩ ∧
    (∀ j < 1, ∀ x, s.cur.window[j]? = some x → x.detected = none) ∧ ∀ e ∈ s.cur.window, e.pidx < 2 ^ 32 ∧ e.ngrp < 2 ^ 32 := by
  refine ⟨inv_of (by decide +kernel), rfl, by decide +kernel, by decide +kernel, rfl, rfl, fun j hj x hx => ?_, by decide +kernel⟩
  obtain rfl : j = 0 := by omega
  injection hx with hx
  subst hx
  rfl

/-- A record with two entries: VADD v3, v1, v2, and a word that is no instruction. -/
def bedRecorded : State :=
  (bedSup.rawWrite 0x30000 4 0x06405348).rawWrite 0x30200 192 (((encode (.vadd 3 1 2 0 0)).getD 0).toNat + 2 ^ 32 + 2 ^ 800)

theorem witness_EretResult_window : bedRecorded.cur.sup = true ∧ bedRecorded.cur.window = [] ∧
    bedRecorded.physRead bedRecorded.cur.twinAddr 4 = 0x06405348 ∧ (bedRecorded.physRead 0x30204 8).testBit 0 = true ∧
    decodeWindow (BitVec.ofNat 32 (bedRecorded.physRead 0x30200 4)) = .ok (.vadd 3 1 2 0 0) ∧
    (bedRecorded.physRead 0x30264 8).testBit 0 = true ∧ ∀ i, decodeWindow (BitVec.ofNat 32 (bedRecorded.physRead 0x30260 4)) ≠ .ok i := by
  have h : (match decodeWindow (BitVec.ofNat 32 (bedRecorded.physRead 0x30260 4)) with
    | .bad _ => true
    | .ok _ => false) = true := by decide +kernel
  refine ⟨rfl, rfl, by decide +kernel, by decide +kernel, by decide +kernel, by decide +kernel, fun i hi => ?_⟩
  rw [hi] at h
  cases h

/-- The same for the linked, conditional and SC accesses, whose address is a register. -/
theorem witness_ScalarTraps_linked : (bed.rg 6).toNat % 4 ≠ 0 ∧ (bed.rg 15).toNat % 8 = 0 ∧ bed.cur.late = [] ∧
    bed.translate bed.cur (bed.rg 15) .read = .error 0x04 ∧ bed.translate bed.cur (bed.rg 15) .write = .error 0x05 :=
  ⟨by decide +kernel, by decide +kernel, rfl, rfl, rfl⟩

/-- A weight store that is not SERVING. -/
theorem witness_BlockLoadResult_busy : bed.Unrelayed [3] ∧ bed.etype ≠ 15 ∧ bed.Open (.vldw 3 12 1) ∧ bed.cur.vl ≠ 0 ∧
    (bed.wsStateWord (bed.cur.core.toNat / 160)).extractLsb' 0 2 ≠ 2 :=
  ⟨unrelayed_of (by decide +kernel), by decide +kernel, open_of (by decide +kernel), by decide +kernel, by decide +kernel⟩

/-- A slot that is bound, and a second receive port to the east. -/
theorem witness_BindingResult_refused : (bedBound 0x60 6).cur.late = [] ∧
    (let k := (bedBound 0x60 6).cur.k.toList.getD 2 Slot.unbound
     k ∈ (bedBound 0x60 6).cur.k.toList ∧ k.status.getLsbD 0 = true ∧ k.mode.getLsbD 5 = true ∧
     k.mode.getLsbD 0 = (0#1).getLsbD 0 ∧ k.mode.toNat / 64 = (1#2).toNat) ∧
    (bedPair.cur.k.toList.getD 2 Slot.unbound).status.getLsbD 0 = false ∧ ∀ k ∈ bedPair.cur.k.toList, k.status.getLsbD 0 = false := by
  decide +kernel

/-- v1 receives from slot 2 bytes that have arrived. -/
def bedReceive (n : Nat) (status : BitVec 8) : State := bed.upd fun st =>
  st.setSlot 2 fun k => { k with mode := 0x20, reg := 1, status := status, arrived := List.replicate n 7 }

/-- The bytes of all eight elements, of one and a part of another, and of these with END. -/
theorem witness_BindingResult_receive : (bedReceive 32 1).AtRest ∧ (bedReceive 32 1).Quiet ∧ (bedReceive 32 1).cur.late = [] ∧
    (bedReceive 32 1).etype ≠ 15 ∧ (bedReceive 32 1).cur.vl ≠ 0 ∧ 0 < (bedReceive 32 1).count ∧ illFormed (.vld 1 4 0) = none ∧
    (bedReceive 32 1).cur.relaySlot false 1 = some 2 ∧
    min (bedReceive 32 1).count (((bedReceive 32 1).cur.k.toList.getD 2 Slot.unbound).arrived.length / 4) = (bedReceive 32 1).count ∧
    (let k := (bedReceive 5 1).cur.k.toList.getD 2 Slot.unbound
     min (bedReceive 5 1).count (k.arrived.length / 4) < (bedReceive 5 1).count ∧ k.status.getLsbD 1 = false) ∧
    ((bedReceive 5 3).cur.k.toList.getD 2 Slot.unbound).status.getLsbD 1 = true :=
  ⟨rest_of (by decide +kernel), quiet_of (by decide +kernel), rfl, by decide +kernel, by decide +kernel, by decide +kernel, by decide,
   by decide +kernel, by decide +kernel, by decide +kernel, by decide +kernel⟩

/-- v1 sends to the east, where a strand waits at a receive of v3 from the west. -/
def bedSend : State :=
  let bind := fun (mode reg : BitVec 8) (k : Slot) => { k with mode := mode, reg := reg, status := 1 }
  { bed with
    cur := bedStrand.setSlot 2 (bind 0x61 1),
    others := [{ bedStrand.setSlot 3 (bind 0xE0 3) with core := 1, id := 4, slot := 0, window := [entryFor (opVld 3 4 0) bedStrand] }] }

theorem witness_BindingResult_send : bedSend.AtRest ∧ bedSend.Quiet ∧ bedSend.cur.late = [] ∧ bedSend.etype ≠ 15 ∧ bedSend.cur.vl ≠ 0 ∧
    illFormed (.vst 1 4 1) = none ∧ bedSend.cur.relaySlot true 1 = some 2 ∧
    ∃ p, bedSend.partner bedSend.cur ((bedSend.cur.k.toList.getD 2 Slot.unbound).mode.toNat / 64) = some p ∧
      p.receiveSlot (((bedSend.cur.k.toList.getD 2 Slot.unbound).mode.toNat / 64 + 2) % 4) = some 3 ∧
      ((bedSend.actives 1).flatMap fun e => (List.range 4).map fun n => byteOf (bedSend.cur.elem 1 32 e) n).length ≤ receiveRoom p 3 :=
  ⟨rest_of (by decide +kernel), quiet_of (by decide +kernel), rfl, by decide +kernel, by decide +kernel, by decide, by decide +kernel,
   { bedStrand.setSlot 3 (fun k => { k with mode := 0xE0, reg := 3, status := 1 }) with
     core := 1, id := 4, slot := 0, window := [entryFor (opVld 3 4 0) bedStrand] }, by decide +kernel, by decide +kernel, by decide +kernel⟩

/-- A stream of this format at 0x20000 bound to register `reg`, with its scales at 0x30000. -/
def bedStream (format mode reg : BitVec 8) (stride : BitVec 32) (t : BitVec 6) : State := (bedBound mode reg).upd fun st =>
  { st.setSlot 2 (fun k => { k with format := format, stride := stride, scaleBase := 0x30000 }) with vtype := t }

/-- A scaled stream of f16, and one of 4-bit codes. -/
theorem witness_StreamFill_scaled : (let s := bedStream 8 2 1 2 10
     s.AtRest ∧ s.Quiet ∧ s.etype = 10 ∧ s.cur.vl ≠ 0 ∧ s.cur.streamSlot false 1 = some 2 ∧
      (s.cur.k.toList.getD 2 Slot.unbound).mode.getLsbD 1 = true ∧
      ∀ e < s.count, s.place (0x20000 + BitVec.ofNat 64 (0 + e) * (2#32).signExtend 64) 2 .read = .ok (.dev (0x20000 + 2 * e)) ∧
        s.Clean (.dev (0x20000 + 2 * e)) ∧
        s.place (0x30000 + BitVec.ofNat 64 ((0 + e) / 32)) 1 .read = .ok (.dev 0x30000) ∧ s.Clean (.dev 0x30000)) ∧
    (let s := bedStream 14 4 1 1 10
     s.AtRest ∧ s.Quiet ∧ s.etype = 10 ∧ s.cur.streamSlot false 1 = some 2 ∧
      (s.cur.k.toList.getD 2 Slot.unbound).mode.getLsbD 1 = false ∧
      ∀ e < s.count, s.place (0x20000 + BitVec.ofNat 64 ((0 + e) / 2) * (1#32).signExtend 64) 1 .read = .ok (.dev (0x20000 + e / 2)) ∧
        s.Clean (.dev (0x20000 + e / 2))) :=
  ⟨⟨rest_of (by decide +kernel), quiet_of (by decide +kernel), by decide +kernel, by decide +kernel, by decide +kernel, by decide +kernel,
    fun e he => ⟨read_of (by revert e; decide +kernel), clean_all rfl _, read_of (by revert e; decide +kernel), clean_all rfl _⟩⟩,
   ⟨rest_of (by decide +kernel), quiet_of (by decide +kernel), by decide +kernel, by decide +kernel, by decide +kernel,
    fun e he => ⟨read_of (by revert e; decide +kernel), clean_all rfl _⟩⟩⟩

/-- v3 appends to a stream of i32. -/
theorem witness_StreamFill_append : let s := bedStream 4 1 3 4 4
    s.Inv ∧ s.AtRest ∧ s.Quiet ∧ s.etype = 4 ∧ s.cur.vl ≠ 0 ∧ illFormed (.vmov 3 1 1 0) = none ∧ s.cur.streamSlot true 3 = some 2 ∧
    s.cur.streamSlot false 1 = none ∧ (s.cur.k.toList.getD 2 Slot.unbound).progress.toNat + s.count < 2 ^ 32 ∧
    ∀ e < s.count, 0 + e < (s.cur.k.toList.getD 2 Slot.unbound).length.toNat ∧
      s.Fixed (0x20000 + BitVec.ofNat 64 (0 + e) * (4#32).signExtend 64) 4 (.dev (0x20000 + 4 * e)) :=
  ⟨inv_of (by decide +kernel), rest_of (by decide +kernel), quiet_of (by decide +kernel), by decide +kernel, by decide +kernel, by decide,
   by decide +kernel, by decide +kernel, by decide +kernel,
   fun e he => ⟨by revert e; decide +kernel, fixed_of (by revert e; decide +kernel)⟩⟩

/-- Byte 1 of the metadata has five bits set, and byte 0 four. -/
theorem witness_TileFolds_metadata : let s := (bedTiles 10 8).upd fun st => { st with v := st.v.set 20 0x1F0F }
    s.cur.tilesOn = true ∧ s.cur.vl ≠ 0 ∧ s.cur.mvl.toNat % 8 = 0 ∧ s.inReduced = false ∧ s.Open (.tfoldsp 1 2 1 2 20 1) ∧
    1 < 2 * s.cur.mvl.toNat / 8 ∧ ((List.range 8).filter (s.cur.elem 20 8 1).testBit).length ≠ 4 ∧
    ∀ y < 1, ((List.range 8).filter (s.cur.elem 20 8 y).testBit).length = 4 :=
  ⟨rfl, by decide +kernel, by decide +kernel, rfl, open_of (by decide +kernel), by decide +kernel, by decide +kernel, by decide +kernel⟩

/-- A partial of 3 for the element at 0x30010, with this origin key. -/
def partial3 (key : BitVec 58) : PressEntry := { addr := 0x30010, val := 3, key := key, batch := 0, seg := 0, unit := none, spoiled := false }

/-- A region with two partials of its batch 0 at one address; its log stands apart. -/
def regionDue (ordered : Bool) (oper : BitVec 8) : Region :=
  { bedRegionRec with ordered := ordered, oper := oper, batch := 1, logs := [(0x31000, 4096)], entries := [partial3 2, partial3 1] }

/-- The only region of the only gang. -/
def bedDue : State := bed.setRegion 1 5 (some (regionDue true 0))

theorem witness_RegionResult_flush : bedDue.region 1 5 = some (regionDue true 0) ∧ (regionDue true 0).entries ≠ [] ∧
    (∀ e ∈ (regionDue true 0).entries, e.addr / 64 = 0xC00) ∧ bedUpd.region 1 5 = some bedRegionRec ∧ bedRegionRec.entries = [] := by
  decide +kernel

theorem logs_of {s : State} {pa n : Nat}
    (h : (s.gangs.all fun g => g.regions.toList.all fun o => o.all fun r => !r.logHolds pa n) = true) :
    ∀ g ∈ s.gangs, ∀ r, some r ∈ g.regions.toList → r.logHolds pa n = false := fun g hg r hr => by
  simpa using List.all_eq_true.1 (List.all_eq_true.1 h g hg) (some r) hr

/-- A load and a store at the line of the partials. -/
theorem witness_RegionResult_touch : (∃ g, bedDue.gangs = [g] ∧ g.regions[5] = some (regionDue true 0) ∧
      ∀ k : Fin 64, k ≠ 5 → g.regions[k.val] = none) ∧ bedDue.pressDue 0xC00 = true ∧ bedDue.Inv ∧ bedDue.AtRest ∧
    bedDue.poisoned 0x30010 = false ∧ bedDue.place (bedDue.rg 7 + BitVec.ofInt 64 (16#16).toInt) 4 .read = .ok (.dev 0x30010) ∧
    bedDue.place (bedDue.rg 7 + BitVec.ofInt 64 (16#16).toInt) 4 .write = .ok (.dev 0x30010) ∧ 0x30010 / 64 = 0xC00 ∧
    ∀ g ∈ (bedDue.pressTouch 0xC00).gangs, ∀ r, some r ∈ g.regions.toList → r.logHolds 0x30010 4 = false :=
  ⟨⟨_, rfl, by decide +kernel, by decide +kernel⟩, by decide +kernel, inv_of (by decide +kernel), rest_of (by decide +kernel),
   by decide +kernel, read_of (by decide +kernel), place_of (.inr rfl) (by decide +kernel), by decide, logs_of (by decide +kernel)⟩

/-- A line without partials, a poisoned one, and the orders of an ORDERED region; sums and LAST of ARRIVAL regions. -/
theorem witness_RegionResult_apply : (regionDue true 0).entries.filter ((regionDue true 0).due 0xC01) = [] ∧
    (regionDue true 0).entries.filter ((regionDue true 0).due 0xC00) = [partial3 2, partial3 1] ∧
    ({ bedDue with poison := [(0xC00, true)] } : State).poisoned (64 * 0xC00) = true ∧ bedDue.poisoned (64 * 0xC00) = false ∧
    (∀ e ∈ [partial3 2, partial3 1], e.addr = 0x30010 ∧ e.spoiled = false ∧ e.val.toNat < 256 ^ (regionDue true 0).size) ∧
    [partial3 1, partial3 2].Perm [partial3 2, partial3 1] ∧
    ([partial3 1, partial3 2].Pairwise fun x y => x.batch < y.batch ∨ x.batch = y.batch ∧ x.key.toNat < y.key.toNat) ∧
    ((regionDue false 6).ordered = false ∧ (regionDue false 6).oper = 6) ∧
    ((regionDue false 5).oper.toNat ≤ 5 ∧ (regionDue false 5).etype.toNat ≤ 7) ∧ bedDue.Inv :=
  ⟨by decide +kernel, by decide +kernel, by decide +kernel, by decide +kernel, by decide +kernel, List.Perm.swap _ _ _, by decide +kernel,
   by decide, by decide, inv_of (by decide +kernel)⟩

/-- An image whose MAGIC is wrong, an address off its line, and an empty slot with a loader, at user level. -/
theorem witness_CustomResult_faults : (let s := bed
     s.cur.late = [] ∧ (s.rg 4).toNat % 64 = 0 ∧
     (∀ q < 64, s.place (s.rg 4 + BitVec.ofNat 64 (4 * q)) 4 .read = .ok (.dev (0x20000 + 4 * q)) ∧ s.Clean (.dev (0x20000 + 4 * q))) ∧
     imageFault ((List.range 64).map fun q => s.peek (.dev (0x20000 + 4 * q)) 4 * 2 ^ (32 * q)).sum = some 0 ∧ (s.rg 6).toNat % 64 ≠ 0) ∧
    (let s := bedWith fun st => { st with cxldr := 0x440 }
     s.cur.cx.toList.getD 6 none = none ∧ s.cur.sup = false ∧ s.cur.uiIn = false ∧ s.cur.cxldr ≠ 0) :=
  ⟨⟨rfl, by decide +kernel, fun q hq => ⟨read_of (by revert q; decide +kernel), clean_all rfl _⟩, by decide +kernel, by decide +kernel⟩,
   by decide +kernel⟩

/-- Each control word and address that a copy refuses: g17 = 2^47, g18 = 2^46 + 128, g19 = 1, g20 = 0; and eight positions that are held. -/
def bedCopyRegs (ws : BitVec 2) : State :=
  { bedWith (fun st => { st with g := (((st.g.set 17 (2 ^ 47)).set 18 (2 ^ 46 + 128)).set 19 1).set 20 0 |>.set 21 0x3FFFFFC0 }) with
    dies := bed.dies.set 0 ⟨ws, 1, false⟩ }

theorem witness_CopyResult_others : 2 ^ 47 ≤ ((bedCopyRegs 0).rg 17).toNat ∧
    (((bedCopyRegs 0).rg 19).toNat < 2 ^ 47 ∧ ((bedCopyRegs 0).rg 19).toNat % 2 ^ 40 % 64 ≠ 0) ∧
    (((bedCopyRegs 0).rg 20).toNat < 2 ^ 47 ∧ ((bedCopyRegs 0).rg 20).toNat % 2 ^ 40 = 0 ∧ ((bedCopyRegs 0).rg 20).getLsbD 45 = false) ∧
    ((bedCopyRegs 0).rg 6).toNat % 64 ≠ 0 ∧ ((bedCopyRegs 0).rg 4).toNat % 64 = 0 ∧ (bedCopyRegs 0).isKilled (bedCopyRegs 0).cur.gang = false ∧
    ((bedCopyRegs 1).rg 18).getLsbD 46 = true ∧ ((bedCopyRegs 1).rg 18).toNat < 2 ^ 47 ∧
    ((bedCopyRegs 1).wsStateWord 0).extractLsb' 0 2 = 1 ∧ ((bedCopyRegs 2).wsStateWord 0).extractLsb' 0 2 ≠ 1 ∧
    ((bedCopyRegs 1).rg 4).toNat + ((bedCopyRegs 1).rg 18).toNat % 2 ^ 40 ≤ 2 ^ 30 ∧
    2 ^ 30 < ((bedCopyRegs 1).rg 21).toNat + ((bedCopyRegs 1).rg 18).toNat % 2 ^ 40 ∧ ((bedCopyRegs 1).rg 21).toNat % 64 = 0 ∧
    (let s := bedWith fun st => { st with copies := Vector.replicate 8 { CopyPos.none with st := 1 } }
     s.AtRest ∧ ∀ n < 8, (s.cur.copies.toList.getD n CopyPos.none).st = 1) ∧
    ((2 ^ 45 + 128 : Word).getLsbD 45 = true ∧ (2 ^ 45 + 128 : Word).toNat / 2 ^ 40 % 32 = 0) := by
  refine ⟨by decide +kernel, by decide +kernel, by decide +kernel, by decide +kernel, by decide +kernel, by decide +kernel, by decide +kernel,
    by decide +kernel, by decide +kernel, by decide +kernel, by decide +kernel, by decide +kernel, by decide +kernel,
    ⟨rest_of (by decide +kernel), by decide +kernel⟩, by decide⟩

/-- A RESERVED that is late, one in time, an abort of the coordinator whose set is not complete, and the totals of a commit. -/
theorem witness_PairEvents_others :
    (let s : State := { bedSync 3 [] false with tick := 20001 }
     (30000#64).toNat < s.tick.toNat + 10000) ∧
    ¬ (30000#64).toNat < (bedSync 3 [] false).tick.toNat + 10000 ∧
    (let s : State := { bedSync 3 [0] false with tick := 20001 }
     (30000#64).toNat < s.tick.toNat + 10000 ∧ ¬ ∀ i < 64, (3#64).getLsbD i = true → ∃ x ∈ [0#6], x.toNat = i) ∧
    ((List.range (bedSync 3 [0, 1] false).mgmt.pkg.toNat).filter (3#64).getLsbD).length = 0 ∧
    ((List.range 64).filter fun i => decide ((bedSync 3 [0, 1] false).mgmt.pkg.toNat < i) && (3#64).getLsbD i).length = 1 ∧
    0 + (kernelParams goodKernel).nstrand + 1 ≤ 5 ∧ ((bedSync 3 [0, 1] false).queue 0).head =
      .gangsync 3 30000 0 (kernelParams goodKernel) true 1 (some [1]) [0, 1] false := by decide +kernel

/-- A read at a poisoned sector of device memory, where nothing is due, gives nothing. -/
theorem unread_of {s : State} {a : Nat} (h : s.mgmt.hdm = some 0 ∧ s.mgmt.pkg = 0 ∧ a < 48 * 2 ^ 30)
    (hd : s.pressDue (a / 64) = false) (hp : s.poisoned a = true) : s.hostRead8 a = (s, none) := by
  simp [State.hostRead8, hostLoc_low h, State.readLoc, State.pressTouch, hd, hp]

/-- An argument buffer in a poisoned sector. -/
theorem witness_PlacementEvents_unreadable :
    let p : Params := { placedParams with argmask := 2, argbuf := 0x20000, compl := 0x30000 }
    let s : State := { bedHead (.kernel p true 1) with poison := [(0x800, true)] }
    s.Inv ∧ s.serving = true ∧ p.fieldsOk = true ∧ s.refuses none p = false ∧ s.headPlaces 0 = some [0] ∧ s.headFirst 0 = true ∧
    ∀ k, readArgs { s with nextGang := k } p.argmask p.argbuf.toNat 0 32 = ({ s with nextGang := k }, none) := by
  refine ⟨inv_of (by decide +kernel), by decide +kernel, by decide +kernel, by decide +kernel, by decide +kernel, by decide +kernel, fun k => ?_⟩
  rw [readArgs, if_neg (by decide), readArgs, if_pos (by decide), unread_of ⟨rfl, rfl, by decide⟩ rfl rfl]

/-- The gang with two strands whose blocks lie apart, and an entry in the window of one. -/
def bedFullTwo : State :=
  { bedFull 3 with
    cur := { bedStrand with window := [entryFor (opVadd 3 1 2 0 0) bedStrand] },
    others := [{ bedStrand with id := 1, slot := 1, twin := 0x6C }] }

theorem witness_GangEvents_preempt_two : bedFullTwo.Inv ∧ (∃ g, bedFullTwo.gangOf 1 = some g ∧ bedFullTwo.isPlaced g = true ∧
      bedFullTwo.preemptFor g = some (some 1)) ∧
    (∀ st ∈ bedFullTwo.strands, st.midSlice = false ∧ st.updq = [] ∧ bedFullTwo.blockOk st.twinAddr st.imageLen = true ∧
      st.k.all (fun k => k.inflight.isEmpty && !k.endSent) = true ∧ ∀ en ∈ st.window, en.pidx < 2 ^ 32 ∧ en.ngrp < 2 ^ 32) ∧
    bedFullTwo.strands.Pairwise (fun a b => a.twinAddr + a.imageLen ≤ b.twinAddr ∨ b.twinAddr + b.imageLen ≤ a.twinAddr) ∧
    bedFullTwo.cur.window.map Entry.ins = [.vadd 3 1 2 0 0] :=
  ⟨inv_of (by decide +kernel), ⟨placedGang State.reset, by decide +kernel, by decide +kernel, by decide +kernel⟩, by decide +kernel,
   by decide +kernel, rfl⟩

/-- The gang switched out, one of its two strands having ended. -/
def bedOutTwo : State :=
  let s := bedOut
  { s with others := [{ bedStrand with phase := .exited, id := 1, slot := 1 }] }

theorem witness_GangEvents_resume_exited : bedOutTwo.gangOf 1 = some bedOutGang ∧ bedOutTwo.resumePlaces bedOutGang = some [0] ∧
    bedOutTwo.gangFirst bedOutGang = true ∧ (∃ a ∈ bedOutTwo.strands, a.gang = 1 ∧ a.phase = .exited) ∧
    ∀ st ∈ bedOutTwo.strands, st.gang = 1 → st.phase = .switchedOut → imageOk bedOutTwo st = true := by
  refine ⟨by decide +kernel, by decide +kernel, by decide +kernel,
    ⟨{ bedStrand with phase := .exited, id := 1, slot := 1 }, List.mem_cons_of_mem _ List.mem_cons_self, rfl, rfl⟩, by decide +kernel⟩

/-- Switched-out strands of a gang, at rest and with a copy that runs. -/
theorem witness_GangEvents_kill_out : (∃ g, bedOut.gangOf 1 = some g ∧ g.killed = none) ∧ bedOut.cur.gang = 1 ∧
    bedOut.cur.phase = .switchedOut ∧ bedOut.cur.atRest = true ∧
    (bedOut.cur.setCopy 0 { CopyPos.none with st := 1 }).atRest = false :=
  ⟨⟨_, rfl, rfl⟩, by decide +kernel⟩

/-- The last cluster of die 3 to be calibrated, and a core of it. -/
theorem witness_PowerEvents_last : let s : State := { bed with mgmt := { bed.mgmt with calmap := 0x7F000000 } }
    s.Inv ∧ s.serving = true ∧ s.mgmt.calmap.getLsbD 31 = false ∧
    ((List.range 8).all fun k => 8 * (31 / 8) + k == 31 || s.mgmt.calmap.getLsbD (8 * (31 / 8) + k)) = true ∧
    (∀ st ∈ s.strands, st.placedOn = true → st.core.toNat / 20 ≠ 31) ∧ 639 < 640 ∧ 639 / 20 = 31 :=
  ⟨inv_of (by decide +kernel), by decide +kernel, by decide +kernel, by decide +kernel, by decide +kernel, by decide, by decide⟩

/-- What the clause about an entry asks of a strand. -/
def enterOk (s : State) (i : Instr) (op : WOp) : Bool :=
  s.cur.ahead && decide (s.cur.window.length < 16 ∧ (s.cur.window.filter fun e => e.gpend.isSome).length < 8) &&
  ((gDest i).toList ++ op.gsrc).all (fun r => !s.cur.pending r) && !op.holds s && !op.waits s.cur && (op.pre s).isNone &&
  s.cur.vl != 0 && op.etypes s.etype && s.etype != 15 && !op.shape s.cur &&
  (s.cur.foot i).vs.all (fun r => s.cur.streamSlot false r == none) && (s.cur.foot i).vd.all fun r => s.cur.streamSlot true r == none

/-- VADD and an instruction that returns to a g register behind an older entry, and CX through a loaded slot. -/
theorem witness_WindowEvents_entry :
    (let s := bedAhead (opVadd 3 1 2 0 0)
     ∃ op, opOf (.vadd 5 3 2 0 0) = some op ∧ enterOk s (.vadd 5 3 2 0 0) op = true ∧ op.cause s = .ok s ()) ∧
    (let s := bedAhead (opVadd 3 1 2 0 0)
     ∃ op, opOf (.mpopc 5 1) = some op ∧ enterOk s (.mpopc 5 1) op = true ∧ op.cause s = .ok s ()) ∧
    (let s := bedWith fun st => { st with ahead := true, cx := st.cx.set 5 (some (BitVec.ofNat 2048 imageSum)) }
     let x := BitVec.ofNat 2048 imageSum
     s.cur.slotImage 5 = some x ∧ cxReserved x 1 2 0 = false ∧
     enterOk s (.cx 3 1 2 0 1 5) (opCx 3 1 2 0 1 5 (cxScalar (some x))) = true ∧
     (opCx 3 1 2 0 1 5 (cxScalar (some x))).cause s = .ok s ()) :=
  ⟨⟨_, rfl, by decide +kernel, rfl⟩, ⟨_, rfl, by decide +kernel, rfl⟩, by decide +kernel, by decide +kernel, by decide +kernel, rfl⟩

/-- Two strands in debt, of which the one with the smaller debt is taken, and two of one balance. -/
theorem witness_WindowEvents_choice :
    chooseFrom 3 [{ bedStrand with balance := -131072 }, { bedStrand with balance := -65536, slot := 1 }] =
      some { bedStrand with balance := -65536, slot := 1 } ∧
    chooseFrom 0 [bedStrand, { bedStrand with slot := 2 }] = some { bedStrand with slot := 2 } := by decide +kernel

/-- A VADD of two groups that wait, alone on its core. -/
def bedAdmit : State := bedWith fun _ => { wideStrand with ahead := true, window := [entryFor (opVadd 3 1 2 0 0) wideStrand] }

theorem witness_WindowEvents_admit : let s := bedAdmit
    let x := s.headSeat (entryFor (opVadd 3 1 2 0 0) wideStrand)
    s.cur.on 0 = true ∧ s.others = [] ∧ s.cur.stop = none ∧ s.cur.dying = none ∧ s.cur.stepping = false ∧ s.weightOf s.cur ≠ 0 ∧
    s.seats[0]? = some x ∧ engineOf x.en.ins = some .lanes ∧ streamBound s.cur x.en = false ∧ x.en.detected = none ∧
    (∀ w ∈ [Engine.matrix, .slalom, .vmu], readySlice s w = none) ∧
    ((Sparse.get CoreUnits.reset s.units 0).unit .lanes).freeAt ≤ (Sparse.get CoreUnits.reset s.units 0).lc ∧
    (s.readyGroups 0 x).filter (fun g => !x.en.adm.getLsbD g) = [0, 1] :=
  ⟨by decide +kernel, rfl, rfl, rfl, rfl, by decide +kernel, rfl, rfl, by decide +kernel, rfl, by decide +kernel, by decide +kernel,
   by decide +kernel⟩

/-- The write of the group may perform later when the strand's writes are slow. -/
theorem witness_WindowEvents_slow :
    let l := (List.range 32).map fun e => (⟨.dev (0x20000 + 4 * e), 4, wideStrand.elem 1 32 e⟩ : Span)
    bedWide.maySlow l = false ∧ (bedWide.upd fun st => { st with slow := true }).maySlow l = true ∧
    returns (bedAhead (opVld 3 4 0)) (aheadEntry (opVld 3 4 0)) 7 = true := by decide +kernel

/-! ### A signed code object: the values come from another implementation of SHA-384 and ECDSA over P-384 -/

/-- The example of FIPS 180-4: the digest of "abc". -/
theorem test_sha384 : sha384 [0x61, 0x62, 0x63] =
    0xcb00753f45a35e8bb5a03d699ac65007272c32ab0eded1631a8b605a43ff5bed8086072ba1e7cc2358baeca134c825a7 := by decide +kernel

/-- The parameters of a gang with these tables and this object. -/
def objectParams : Params := { placedParams with ptroot := 0x100000, code := 0x200000, compl := 0x30000 }

/-- An object of 512 bytes at 0x200000 with the one instruction HALT, key 2, and tables at 0x100000 that map it to itself. -/
def bedObject : State :=
  let s := bedHead (.kernel objectParams false 0)
  let t := (s.rawWrite 0x100000 8 0x101001).rawWrite 0x101000 8 0x33
  let u := ((t.rawWrite 0x200000 16 0x200000000010640434F).rawWrite 0x200100 4 0x78000005).rawWrite 0x200180 1 2
  { u.rawWrite 0x2001A0 96 (0xbfd3e39b6de07e6d837df665c16187e5a149fdc4d37401087701ac8628c227500f5f0fb4999e12d8eafba79cd331a8db * 2 ^ 384 +
      0x31c80005c7e5d7020d582650aebb08b4a66d56d340f2a4be06cd2d2010399dcb987ddc5f7e3c796414fa6f60d4417a07) with
    keys := s.keys.set 2 (.key 0xfbf96095915eb587390f850ec95b35f618ae121c72a70808ad8f9f4c261b602b63541743e395f7c778e52bb28c18dc83
      0x16a6ff3f72c9368326ad50a3bd148a53cd2213bb480e4730ad019db87ae100995ec65df011e19811a15dc9ddfc9ab3c) }

theorem bedObject_head : (bedObject.queue 0).head = .kernel objectParams false 0 := by decide +kernel

theorem bedObject_accepted : checkObject bedObject objectParams = some (bedObject, [0x20, 0x20, 0x20, 0x20]) := by decide +kernel

theorem witness_PlacementEvents_accepted : bedObject.Inv ∧ bedObject.Quiet ∧
    (bedObject.queue 0).head = .kernel objectParams false 0 ∧ checkObject bedObject objectParams = some (bedObject, [0x20, 0x20, 0x20, 0x20]) :=
  ⟨inv_of (by decide +kernel), quiet_of (by decide +kernel), bedObject_head, bedObject_accepted⟩

/-! ### Single steps: results worked out by hand from the rules that each comment names -/

/-- The instruction gives a next state that passes a check. -/
def gives (i : Instr) (s : State) (f : State → Bool) : Bool :=
  match exec i s with
  | .next t => f t
  | _ => false

/-- It leaves `w` in register g3. -/
def setsG (i : Instr) (w : Word) (s : State := bed) : Bool := gives i s fun t => t.rg 3 == w && t.cur.pc == 0x10004

/-- It leaves the w-bit elements `l` at the start of v3. -/
def setsV (i : Instr) (w : Nat) (l : List Nat) (s : State := bed) : Bool :=
  gives i s fun t => t.cur.pc == 0x10004 && (List.range l.length).all fun e => t.cur.elem 3 w e == l.getD e 0

/-- It takes a supervisor trap with this cause and TVAL at this TEPC. -/
def traps (i : Instr) (cause : BitVec 8) (tval tepc : Word) (s : State := bed) : Bool :=
  gives i s fun t => t.cur.tcause.setWidth 8 == cause && t.cur.tval == tval && t.cur.tepc == tepc && t.cur.sup &&
    t.cur.pc == 0x10000

/-- R127: wraps, signs, shifts by C mod 64, and division by zero. -/
theorem test_sop : setsG (.add 3 11 10) 0 = true ∧ setsG (.sub 3 2 1) (-2) = true ∧ setsG (.mulh 3 11 1) (-1) = true ∧
    setsG (.mulhn 3 11 1) 4 = true ∧ setsG (.shl 3 10 12) 1 = true ∧ setsG (.shra 3 11 1) (-1) = true ∧ setsG (.shr 3 11 12) (-1) = true ∧
    setsG (.slt 3 11 10) 1 = true ∧ setsG (.sltn 3 11 10) 0 = true ∧ setsG (.div 3 1 0) (-1) = true ∧ setsG (.rem 3 3 2) (-1) = true ∧
    setsG (.div 3 3 2) (-2) = true ∧ setsG (.remn 3 1 0) 5 = true ∧ setsG (.clz 3 10) 63 = true ∧ setsG (.ctz 3 0) 64 = true ∧
    setsG (.popc 3 11) 64 = true ∧ setsG (.minn 3 11 10) 1 = true ∧ setsG (.min 3 11 10) (-1) = true := by decide +kernel

/-- R128: sign-extended and zero-extended immediates. -/
theorem test_immediates : setsG (.addi 3 1 0xFFFF) 4 = true ∧ setsG (.andi 3 11 0xFFF0) (-16) = true ∧
    setsG (.ori 3 0 0xFFFF) 0xFFFF = true ∧ setsG (.slti 3 1 0x8000) 0 = true ∧ setsG (.lih 3 0x8000) 0xFFFFFFFF80000000 = true ∧
    setsG (.shori 3 10 0x8001) 0x18001 = true ∧ setsG (.shrai 3 11 63) (-1) = true := by decide +kernel

/-- R48: a write to g0 is discarded. -/
theorem test_g0 : gives (.add 0 1 2) bed (fun t => t.rg 0 == 0 && t.cur.pc == 0x10004) = true := by decide +kernel

/-- Page 2 starts with the bytes 0x81, 0xFF, 0x00, 0x80, 5, 0, 0, 0. -/
def bedData : State := bed.rawWrite 0x20000 8 0x000000058000FF81

/-- R129: little-endian loads, extended as their names say, and stores of the low bytes. -/
theorem test_accesses : setsG (.ldb 3 4 0) (-127) bedData = true ∧ setsG (.ldbn 3 4 0) 0x81 bedData = true ∧
    setsG (.ldh 3 4 0) (-127) bedData = true ∧ setsG (.ldw 3 4 0) 0xFFFFFFFF8000FF81 bedData = true ∧
    setsG (.ldwn 3 4 0) 0x8000FF81 bedData = true ∧ setsG (.ldd 3 4 0) 0x58000FF81 bedData = true ∧
    gives (.sth 11 4 2) bedData (fun t => t.rawRead 0x20000 8 == 0x5FFFFFF81) = true ∧
    traps (.ldh 3 6 0) 0x07 0x20001 0x10000 = true ∧ traps (.ldw 3 15 0) 0x04 0x60000 0x10000 = true ∧
    traps (.stw 3 15 4) 0x05 0x60004 0x10000 = true := by decide +kernel

/-- R71, R130 to R132: targets count blocks of 64 bytes from the block of the branch. -/
theorem test_transfers : gives (.beq 1 1 0x1FFF) bed (fun t => t.cur.pc == 0xFFC0) = true ∧
    gives (.bne 1 1 5) bed (fun t => t.cur.pc == 0x10004) = true ∧ gives (.blt 3 1 2) bed (fun t => t.cur.pc == 0x10080) = true ∧
    gives (.bltn 3 1 2) bed (fun t => t.cur.pc == 0x10004) = true ∧
    gives (.call 1) bed (fun t => t.cur.pc == 0x10040 && t.rg 30 == 0x10040) = true ∧
    gives (.jr 4) bed (fun t => t.cur.pc == 0x20000) = true ∧ traps (.jalr 6) 0x02 0x20001 0x10000 = true := by decide +kernel

/-- R133 to R135: 1.5 and 0.5 in FP32; 1.5 / 0 is infinity with DZ; 1.5 to an integer under RNE is 2, inexact. -/
theorem test_scalar_fp : setsG (.fadd 3 8 9 0) 0x40000000 = true ∧ setsG (.fsub 3 8 9 0) 0x3F800000 = true ∧
    setsG (.fmul 3 8 9 0) 0x3F400000 = true ∧ gives (.fdiv 3 8 0 0) bed (fun t => t.rg 3 == 0x7F800000 && t.cur.fflags == 0b01000) = true ∧
    setsG (.flt 3 9 8 0) 1 = true ∧ gives (.fcvti 3 8 1 0) bed (fun t => t.rg 3 == 2 && t.cur.fflags == 0b00001) = true ∧
    setsG (.fcvtf 3 1 0 1) 0x4014000000000000 = true ∧ setsG (.fmadd 3 8 9 9 0) 0x3FA00000 = true := by decide +kernel

/-- R95, R96: the tag of the line lets the conditional store write. -/
theorem test_linked : gives (.stcw 3 4 1) bedLinked (fun t => t.rg 3 == 1 && t.rawRead 0x20000 4 == 5 && t.cur.linkGen == 1) = true ∧
    gives (.stcw 3 4 1) bed (fun t => t.rg 3 == 0 && t.rawRead 0x20000 4 == 0) = true ∧
    gives (.ldld 3 4) bedData (fun t => t.rg 3 == 0x58000FF81 && t.tag 0x800 == some ⟨1, 0, 1⟩) = true := by decide +kernel

/-- R137 to R139: the second arrival of two ends the gathering; a wait for it holds before that; WFE takes the event bit. -/
theorem test_barrier : gives (.bara 3) (bedBarrier ⟨2, 1, 1, 0, false, 0⟩) (fun t => (t.barrier t.cur (some 3)).rel && t.cur.event) = true ∧
    gives (.barw 3) (bedBarrier ⟨2, 1, 1, 0, false, 0⟩) (fun t => t.cur.stalled && t.cur.pc == 0x10000) = true ∧
    gives (.barw 3) (bedBarrier ⟨2, 2, 2, 1, true, 0⟩) (fun t => t.barrier t.cur (some 3) == ⟨2, 0, 0, 0, false, 0⟩) = true ∧
    gives (.barset 11 3) (bedBarrier ⟨2, 0, 0, 0, false, 0⟩) (fun t => (t.barrier t.cur (some 3)).expect == 255) = true ∧
    gives .wfe bed (fun t => t.cur.stalled) = true := by decide +kernel

/-- R140, R106: the causes, and what the trap registers take; a state number of supervisor level raises PRIV. -/
theorem test_traps : traps .brk 0x15 0x78000004 0x10000 = true ∧ traps (.noInstruction 0) 0x01 0 0x10000 = true ∧
    traps .halt 0x18 0x78000005 0x10000 = true ∧ traps (.mfs 3 0x100) 0x18 0x7C600100 0x10000 = true ∧
    gives .brk bedSup (fun t => t.cur.tcause == 0x4015) = true ∧ gives .brk bed (fun t => t.rawRead 0x30000 4 == 0x06405348 &&
      t.rawRead 0x30008 8 == 0x10000 && t.rawRead 0x30048 8 == 5) = true := by decide +kernel

/-- R113: TRAPU enters the user-level handler, and UIRET leaves it. -/
theorem test_user_trap : gives .trapu (bedUser false) (fun t => t.cur.pc == 0x11000 && t.cur.uiepc == 0x10000 && t.cur.uicause == 0x14 &&
      t.cur.uiIn && !t.cur.sup) = true ∧ traps .trapu 0x14 0x78000001 0x10000 = true ∧
    gives .uiret (bedUser true) (fun t => t.cur.pc == 0 && !t.cur.uiIn) = true := by decide +kernel

/-- R56, R142: FRM 5 is stored as 1, SRSEED 0 as 1, and ZERO bits stay; MVL reads with the tile etype above it. -/
theorem test_states : gives (.mts 1 0x007) bed (fun t => t.cur.frm == 1) = true ∧ gives (.mts 0 0x00C) bed (fun t => t.cur.srseed == 1) = true ∧
    gives (.sets 2 0x008) bed (fun t => t.cur.fflags == 3) = true ∧ gives (.clrs 10 0x007) bed (fun t => t.cur.frm == 1) = true ∧
    setsG (.mfs 3 0x00A) 0x408 (bedTiles 4 4) = true ∧ setsG (.mfs 3 0x003) 512 = true ∧
    gives (.mts 11 0x120) bedSup (fun t => t.cur.wdog == -1) = true := by decide +kernel

/-- R35, R66: n = 5 and q = 3 under GVLEN 512 and GRSZ 2048 for i32: VL 5, RL 3; for n = 64, VL 16. -/
theorem test_vstrip : gives (.vstrip 3 1 2 0 0 4) bed (fun t => t.cur.vl == 5 && t.cur.rl == 3 && t.rg 3 == 5 && t.cur.vtype == 4) = true ∧
    gives (.vstrip 3 12 11 1 0 4) bed (fun t => t.cur.vl == 16 && t.cur.rl == 32 && t.cur.vtype == 0x24) = true ∧
    gives (.vstrip 3 0 2 0 0 4) bed (fun t => t.cur.vl == 0 && t.cur.rl == 0 && t.rg 3 == 0) = true := by decide +kernel

/-- R160, R161: under m1 (elements 0, 2, 3 and 6); the immediate -1; a sum that saturates; the carry in of m1. -/
theorem test_vint : setsV (.vadd 3 1 2 1 0) 32 [7, 0, 15, 21, 0, 0, 31, 0] = true ∧
    setsV (.vsub 3 1 1 0 1) 32 [2, 0xFFFFFFFC, 2, 4, 0xFFFFFFFB, 0xFFFFFFFD, 2, 0xFFFFFFFF] = true ∧
    setsV (.vmul 3 1 31 0 2) 32 [0xFFFFFFF9, 0xFFFFFFFF] = true ∧ setsV (.vdiv 3 1 2 0 0) 32 [0xFFFFFFFF, 0, 0, 0, 0] = true ∧
    setsV (.vrem 3 1 2 0 0) 32 [7, 1, 7, 9, 0] = true ∧ setsV (.vadc 3 1 2 1 0) 32 [8, 5, 16, 22, 16, 22, 32, 32] = true ∧
    setsV (.vsbc 3 1 2 1 0) 32 [6, 0xFFFFFFFD] = true ∧
    setsV (.vsadd 3 1 2 0 0) 8 [7, 0, 0, 0, 5] (bedType 0) = true ∧ setsV (.vsadd 3 1 11 0 1) 8 [255] (bedType 1) = true ∧
    setsV (.vssub 3 1 2 0 1) 8 [4, 0] (bedType 1) = true ∧ setsV (.vshra 3 1 1 0 2) 32 [3, 0, 3, 4] = true := by decide +kernel

/-- 1.0, 2.0, 3.0, 4.0 and 0.5, 0.25, 2.5, 1.0 in f32, in both rows. -/
def bedF1 : BitVec 262144 := 0x40800000_40400000_40000000_3F800000_40800000_40400000_40000000_3F800000
def bedF2 : BitVec 262144 := 0x3F800000_40200000_3E800000_3F000000_3F800000_40200000_3E800000_3F000000

def bedFloat : State := bedWith fun st => { st with vtype := 10, repro := 1, v := (st.v.set 1 bedF1).set 2 bedF2 }

/-- R162 to R164: 1.5, 2.25, 5.5 and 5; 1.0 × 0.5 + 1.0; 2.5 rounds to 2 and 0.25 to 0 under RNE. -/
theorem test_vfp : setsV (.vfadd 3 1 2 0 0) 32 [0x3FC00000, 0x40100000, 0x40B00000, 0x40A00000] bedFloat = true ∧
    setsV (.vfma 3 1 2 1 0) 32 [0x3FC00000, 0x40200000] bedFloat = true ∧
    setsV (.vfneg 3 1 0) 32 [0xBF800000, 0xC0000000] bedFloat = true ∧ setsV (.vfsgn 3 1 8 0 1) 32 [0x3F800000] bedFloat = true ∧
    gives (.vcvt 3 2 1 0 0 4) bedFloat (fun t => t.cur.elem 3 32 0 == 0 && t.cur.elem 3 32 2 == 2 && t.cur.elem 3 32 3 == 1 &&
      t.cur.fflags == 1) = true ∧ setsV (.vcvt 3 1 0 0 0 9) 16 [0x3F80, 0x4000, 0x4040] bedFloat = true := by decide +kernel

/-- R165 to R167: v1 holds 7 at 0, 2 and 6; m1 is 0x4D. -/
theorem test_masks : gives (.vceq 3 1 7 0 2) bed (fun t => t.cur.m[3] == 0x45) = true ∧
    gives (.vclt 3 2 1 0 0) bed (fun t => t.cur.m[3] == 0x01) = true ∧
    gives (.mnot 3 1) bed (fun t => t.cur.m[3] == 0xB2) = true ∧ gives (.mshup 3 1 2) bed (fun t => t.cur.m[3] == 0x34) = true ∧
    gives (.mshdn 3 1 2) bed (fun t => t.cur.m[3] == 0x13) = true ∧ gives (.mset 3) bed (fun t => t.cur.m[3] == 0xFF) = true ∧
    setsG (.mpopc 3 1) 4 = true ∧ setsG (.mfirst 3 0) (-1) = true ∧ setsV (.mtov 3 1) 32 [1, 0, 1, 1, 0, 0, 1, 0] = true ∧
    gives (.vtom 3 1) bed (fun t => t.cur.m[3] == 0xEF) = true ∧
    gives (.vcarry 3 1 31 1 2) bed (fun t => t.cur.m[3] == 0xEF) = true := by decide +kernel

/-- R168, R169. -/
theorem test_permutes : setsV (.vmov 3 31 0 2) 32 [0xFFFFFFFF, 0xFFFFFFFF] = true ∧ setsV (.vsplat 3 1 2 0 1) 32 [9, 9, 9, 9, 9, 9, 9, 9] = true ∧
    setsV (.vslup 3 1 2 0 1) 32 [0, 0, 0, 7, 1, 7, 9, 0] = true ∧ setsV (.vsldn 3 1 2 0 1) 32 [9, 0, 2, 7, 4, 0, 0, 0] = true ∧
    setsV (.vrgath 3 1 2 0) 32 [7, 0, 0, 0] = true ∧ setsV (.vrows 3 1 10 0 1) 32 [0, 2, 7, 4] = true ∧
    setsV (.vcols 3 1 2 0 1) 32 [9, 4] = true ∧ setsV (.vroww 3 2 10 0 1) 32 [0, 0, 0, 0, 0, 4, 8, 12] = true ∧
    setsV (.vcolw 3 2 2 0 1) 32 [0, 0, 0, 0, 0, 0, 0, 4] = true ∧ setsG (.vextr 3 1 2 1) 9 = true ∧
    setsV (.vins 3 1 2 1) 32 [0, 0, 0, 5] = true ∧ setsV (.vmerge 3 1 2 1 0) 32 [0, 1, 8, 12, 0, 2, 24, 4] = true ∧
    setsV (.vid 3 0) 32 [0, 1, 2, 3, 4, 5, 6, 7] = true ∧ traps (.vrows 3 1 1 0 1) 0x09 0x9C610845 0x10000 = true := by decide +kernel

/-- R172 to R181. -/
theorem test_sparse : setsV (.vcompress 3 1 1) 32 [7, 7, 9, 7, 0] = true ∧ setsV (.vexpand 3 1 1) 32 [7, 0, 1, 7, 0, 0, 9, 0] = true ∧
    setsV (.viota 3 1 0) 32 [0, 1, 1, 2, 3, 3, 3, 4] = true ∧
    setsV (.vconflict 3 1 1) 32 [0xFFFFFFFF, 0, 0, 0xFFFFFFFF, 0, 0, 2, 0] = true ∧
    setsV (.vinter 3 2 1 0) 32 [4, 7, 0xFFFFFFFF] = true ∧ setsV (.vsegscan 3 1 0 1) 32 [7, 8, 7, 9, 9, 11, 7, 11] = true ∧
    gives (.vdelta 3 1 4 1) bed (fun t => t.cur.elem 3 32 3 == 9 && t.cur.elem 4 32 3 == 9 && t.cur.elem 4 32 1 == 0) = true ∧
    gives (.vsortseg 3 1 4 0) bed (fun t => (List.range 8).map (t.cur.elem 3 32) == [0, 1, 2, 4, 7, 7, 7, 9] &&
      (List.range 8).map (t.cur.elem 4 32) == [4, 1, 5, 7, 0, 2, 6, 3]) = true ∧
    gives (.vnz 4 1 3 0) bed (fun t => (List.range 7).map (t.cur.elem 4 32) == [0, 1, 2, 3, 5, 6, 7] && t.rg 3 == 7) = true := by
  decide +kernel

/-- R178: the first eight bytes are 7, 0, 0, 0, 1, 0, 0, 0; the lowest of equal magnitudes stay. -/
theorem test_prune : gives (.vprune48 3 1 4) (bedWith fun st => { st with vl := 8, rl := 1, vtype := 0 }) (fun t =>
    (List.range 4).map (t.cur.elem 3 8) == [7, 0, 0, 1] && t.cur.elem 4 8 0 == 0x17) = true := by decide +kernel

/-- R182 to R184. -/
theorem test_reductions : setsV (.vrsum 3 1 0) 32 [24, 13] = true ∧ setsV (.vrsum 3 1 1) 32 [23, 7] = true ∧
    setsV (.vrmin 3 1 0) 32 [1, 0] = true ∧ setsV (.vrmax 3 1 0) 32 [9, 7] = true ∧ setsV (.vrand 3 1 0) 32 [1, 0] = true ∧
    setsV (.vrxor 3 1 0) 32 [8, 1] = true ∧ setsV (.vfrsum 3 1 0) 32 [0x41200000, 0x41200000] bedFloat = true ∧
    setsV (.vfrmax 3 1 0) 32 [0x40800000] bedFloat = true ∧ setsV (.vfdot 3 1 2 0) 32 [0x41480000, 0x41480000] bedFloat = true := by
  decide +kernel

/-- R187 to R189. -/
theorem test_tags : setsG (.vtagq 3 1) 8 = true ∧ setsG (.vwaitr 3 1 1) 4 = true ∧ setsG (.vprog 3 1) (-1) = true ∧
    gives (.vdrop 1 1) bed (fun t => (List.range 8).map (t.cur.elem 1 32) == [0, 1, 0, 0, 0, 2, 0, 4]) = true := by decide +kernel

/-- The words 10, 11, 12, … from 0x20000 on. -/
def bedWords : State := (List.range 32).foldl (fun s i => s.rawWrite (0x20000 + 4 * i) 4 (10 + i)) bed

/-- R196, R202: unit stride, a stride of 64 bytes, indices of 4, and records of two fields. -/
theorem test_vector_loads : setsV (.vld 3 4 1) 32 [10, 0, 12, 13, 0, 0, 16, 0] bedWords = true ∧
    setsV (.vlds 3 4 12 0) 32 [10, 26, 0] bedWords = true ∧ setsV (.vldx 3 4 2 0) 32 [10, 14, 18, 22, 26, 30, 34, 38] bedWords = true ∧
    gives (.vldseg 30 4 4 0 1) bedWords (fun t => (List.range 3).map (t.cur.elem 30 32) == [10, 12, 14] &&
      (List.range 3).map (t.cur.elem 31 32) == [11, 13, 15]) = true ∧
    gives (.vldseg 3 4 2 0 0) bedWords (fun t => (List.range 4).map (t.cur.elem 3 32) == [10, 0, 11, 0]) = true := by decide +kernel

/-- R193, R198: of the elements with one address the highest remains. -/
theorem test_vector_stores : gives (.vst 1 4 1) bedWords (fun t => (List.range 4).map (fun i => t.rawRead (0x20000 + 4 * i) 4) == [7, 11, 7, 9]) = true ∧
    gives (.vstx 1 4 3 0) bed (fun t => t.rawRead 0x20000 4 == 4 && t.rawRead 0x20004 4 == 0) = true ∧
    gives (.vsts 1 4 0 0) bed (fun t => t.rawRead 0x20000 4 == 4) = true ∧
    gives (.vstc 1 4 2 0) bedLinked (fun t => t.rawRead 0x20000 4 == 7 && t.rawRead 0x20040 4 == 0 && t.cur.m[0] == 1 &&
      t.cur.linkGen == 1) = true := by decide +kernel

/-- R109: element 2 is the first beyond page 5; the elements below it are loaded, and TEPC is the next word. -/
theorem test_load_fault : gives (.vld 3 14 0) ((bedWith fun st => { st with g := st.g.set 14 0x5FFF8 }).rawWrite 0x5FFFC 4 77) (fun t =>
    t.cur.tcause.setWidth 8 == 0x04#8 && t.cur.tval == 0x60000 && t.cur.telem == 2 && t.cur.tepc == 0x10004 && t.cur.elem 3 32 1 == 77 &&
    t.cur.pc == 0x10000) = true := by decide +kernel

/-- R209: two columns, both rows of the table zero but the weights sum over the segments of m1. -/
theorem test_embedding : setsV (.vemb 3 4 2 5 1) 32 [0, 0, 0, 0, 0, 0, 0, 0] bedTable = true := by decide +kernel

/-- R211, R213: a binding, its position, and a fill before a reader. -/
theorem test_bindings : gives (.vbind 2 1 4) bedRecord (fun t => (t.cur.slotAt 2).status == 1 && (t.cur.slotAt 2).reg == 1 &&
      (t.cur.slotAt 2).base == 0x30000) = true ∧ traps (.vbind 2 1 4) 0x11 2 0x10000 (bedBound 0 1) = true ∧
    setsG (.vbpos 3 2) 0 (bedBound 0 1) = true ∧
    gives (.vadd 3 1 0 0 1) ((bedBound 0 1).rawWrite 0x20000 8 0x0000000600000005) (fun t => t.cur.elem 3 32 0 == 5 && t.cur.elem 3 32 1 == 6 &&
      (t.cur.slotAt 2).progress == 8) = true := by decide +kernel

/-- R249, R251: a region opens at the lowest free handle; eight pairs reach the region, each at the address of its element. -/
theorem test_updates : setsG (.urgn 3 4) 0 (bedRegion descOpen) = true ∧
    gives (.upd 1 2 1 0) bedUpd (fun t => match t.region 1 5 with
      | some r => r.entries.length == 8 && r.entries.any (fun e => e.addr == 0x30030 && e.val == 9)
      | none => false) = true ∧ setsG (.uclose 3) 0 ((bedUpd).wg 3 5) = true ∧ traps (.useal 12) 0x10 64 0x10000 = true := by decide +kernel

/-- R225, R228, R229: rank 4 of i8: at (0, 0) the bytes 7, 7, 0, 7 of v1 times 0, 8, 16, 24 of v2. -/
theorem test_tiles : gives (.mmode 3 1 4) (bedWith fun st => { st with tilesAllow := true }) (fun t => t.rg 3 == 5 && t.cur.tilesOn &&
      t.cur.mvl == 5) = true ∧ traps (.mmode 3 1 4) 0x0A 0xD8612000 0x10000 = true ∧
    gives (.tfoldi8 0 2 1 2 0) (bedTiles 4 0) (fun t => t.tileAt 2 0 0 == 224 && t.tileAt 2 0 1 == 0 && t.tileAt 1 0 0 == 0) = true ∧
    gives (.tsetr 2 1 2 0) (bedTiles 4 4) (fun t => t.tileAt 2 3 2 == 7 && t.tileAt 2 3 3 == 9 && t.tileAt 2 2 2 == 0) = true := by
  decide +kernel

/-- R264 to R267: claims on one granule conflict, and the wave takes the lowest. -/
theorem test_slalom : gives (.sclaimw 4 3 0) bed (fun t => gives (.swave 3 1) t fun u => u.cur.m[3] == 1) = true ∧
    setsG (.spend 3) 0 = true := by decide +kernel

/-- R278, R286: the graph of slot 5 adds; slot 6 is empty. -/
theorem test_custom : setsV (.cx 3 1 2 0 0 5) 32 [7, 5, 15, 21, 16, 22, 31, 32] bedCustom = true ∧
    setsG (.cxq 3 1) 0x30009 (bedWith fun st => { st with cx := st.cx.set 5 (some (BitVec.ofNat 2048 imageSum)) }) = true ∧
    traps (.cx 3 1 2 0 0 6) 0x0B 0xE8611006 0x10000 = true := by decide +kernel

/-- R295, R297: the lowest free position and its ticket; a wait for a copy that runs. -/
theorem test_copies : gives (.acopy 3 7 4) ((bedCopy 1).wg 3 128) (fun t => t.rg 3 == 17 && (t.cur.copyAt 1).st == 1 && t.cur.copySeq == 3) = true ∧
    gives (.acwait 3 17) (bedCopy 1) (fun t => t.cur.stalled) = true ∧ setsG (.acwait 3 17) 11 (bedCopy 3) = true ∧
    setsG (.acq 3 17 5) 128 (bedCopy 1) = true := by decide +kernel

/-- R301: line 1 of a copy moves its 64 bytes. -/
theorem test_copy_line : gives (.copyLine 0 1) ((bedCopying 0x20000 0x30000 128 0).rawWrite 0x20040 8 0x1122334455667788) (fun t =>
    t.rawRead 0x30040 8 == 0x1122334455667788 && (t.cur.copyAt 0).written 1 && !(t.cur.copyAt 0).written 0) = true := by decide +kernel

/-- R310, R315, R320: QTAIL of a queue that is switched out waits for SWIN. -/
theorem test_queue_registers : gives (.hostRegWrite 0x10 7) bed (fun t => (t.queue 0).tail == 7) = true ∧
    gives (.qctlSwout 1) bed (fun t => gives (.qtailWrite 1 9) t fun u => (u.queue 1).tail == 0 &&
      gives (.qctlSwin 1) u fun v => (v.queue 1).tail == 9) = true ∧
    gives (.hostRegWrite 0x48 3) bed (fun t => (t.queue 1).log == 6) = true := by decide +kernel

/-- R312 to R317: a good KERNEL is held at the head, a bad one answers with error 0x10, and an unknown TYPE stops the queue. -/
theorem test_packets : gives (.kernelPacket 0) (bedRing goodKernel 2) (fun t => (t.queue 0).prog == 2 &&
      (t.queue 0).head == .kernel (kernelParams goodKernel) false 0) = true ∧
    gives (.kernelPacket 0) (bedRing badKernel 2) (fun t => (t.queue 0).errCode == 0x10 && (t.queue 0).errSlot == 2 &&
      t.rawRead 0x30004 1 == 1 && (t.queue 0).head == .none) = true ∧
    gives (.kernelPacket 0) (bedRing (slotWords 0x107 0 0 0) 1) (fun t => (t.queue 0).stopped && (t.queue 0).errCode == 1) = true := by
  decide +kernel

/-- R29, R30: the first group goes to the lowest core with room; a gang of a mesh takes the first empty cluster. -/
theorem test_placement : gives (.gangPlace 0) bedReady (fun t => t.others.length == 1 && (t.queue 0).head == .none &&
      t.others.any fun st => st.gang == 2 && st.core == 0 && st.slot == 1 && st.pc == 0x10100) = true := by decide +kernel

/-- R119: a kill sends the strand to its exit routine with cause 0x17, asynchronous. -/
theorem test_kill : gives (.kill 1 2) bed (fun t => t.cur.tcause == 0x8017 && t.cur.tval == 2 && t.cur.sup && t.cur.pc == 0x10000) = true := by
  decide +kernel

/-- R19 to R21: an uncorrectable error of memory poisons its sector and leaves a record. -/
theorem test_poison : gives (.eccError 7 0 0 true 0x800) bed (fun t => t.poisoned 0x20000 && t.mgmt.ue == 1 && t.mgmt.errs.length == 1) = true := by decide +kernel

def bedWindow : List Entry := [entryFor (opVadd 3 1 2 0 0) bedStrand]

/-- R42 to R44: an admitted slice takes group 0 of the only entry. -/
theorem test_admission : gives (.sliceAdmit 0) (bedWith fun st => { st with ahead := true, balance := 655360, window := bedWindow }) (fun t => t.cur.window.all fun en => en.adm.getLsbD 0) = true := by decide +kernel

/-- R40, R192: the last element of a load fires alone. -/
theorem test_load_return : gives (.loadReturn 0 7) ((bedAhead (opVld 3 4 0)).rawWrite 0x2001C 4 99) (fun t => t.cur.elem 3 32 7 == 99 &&
    t.cur.window.all fun en => en.fired 7 && !en.fired 6) = true := by decide +kernel

/-- R110: a store group of an entry that runs ahead. -/
theorem test_store_group : gives (.storeGroupWrite 0 0) bedWide (fun t => t.rawRead 0x20000 4 == 7 && t.rawRead 0x2000C 4 == 9) = true := by
  decide +kernel

/-- R325, R330: the clamps of PWRCFG, and a fence on a core where no gang stands. -/
theorem test_management : gives (.hostRegWrite 0x1010 0xFFFFFF) bed (fun t => t.mgmt.tlim == 100 && t.mgmt.plim == 2000) = true ∧
    gives (.fencesetWrite 9 1) bed (fun t => t.mgmt.fence.getLsbD 576 && !t.isKilled 1) = true := by decide +kernel

/-- R331: a cold start whose links have trained waits in phase 2. -/
theorem test_coldStart : gives (.coldStart true) bed (fun t => t.mgmt.phase == 1 && t.cur.phase == .absent && t.gangs.isEmpty &&
    gives (.coldStart true) t fun u => u.mgmt.phase == 2) = true := by
  decide +kernel

end Sys2Proof.Tests
end

section
/-! PROOFS. VSTRIP: the rows that its shape leaves (R35), the grant that it takes up (R33) and the state after it (R66). -/

namespace Sys2Proof.Machine

/-! ### The shape -/

theorem shapeOf_vl (n q gvlen grsz sew : Nat) : (shapeOf n q gvlen grsz sew).1 = if n = 0 then 0 else min n (gvlen / sew) := by
  unfold shapeOf
  split <;> rfl

theorem shapeOf_rl (n q gvlen grsz sew : Nat) : (shapeOf n q gvlen grsz sew).2 =
    if n = 0 then 0
    else min (if q = 0 then 1 else q) (min 64 (grsz * 8 / ((shapeOf n q gvlen grsz sew).1 * sew))) := by
  unfold shapeOf
  split <;> rfl

/-- A row of VL elements is no longer than GVLEN. -/
theorem shapeOf_row_le (n q gvlen grsz sew : Nat) : (shapeOf n q gvlen grsz sew).1 * sew ≤ gvlen := by
  rw [shapeOf_vl]
  split
  · omega
  · calc min n (gvlen / sew) * sew ≤ gvlen / sew * sew := Nat.mul_le_mul_right _ (Nat.min_le_right ..)
      _ ≤ gvlen := Nat.div_mul_le_self ..

/-- R35: when GVLEN fits the register, a nonzero VL leaves at least one row, for a row of VL elements then fits it too. -/
theorem shapeOf_rl_pos {n q gvlen grsz sew : Nat} (hfit : gvlen ≤ 8 * grsz) (hvl : (shapeOf n q gvlen grsz sew).1 ≠ 0) :
    1 ≤ (shapeOf n q gvlen grsz sew).2 := by
  have hn : n ≠ 0 := by
    rintro rfl
    exact hvl (by rw [shapeOf_vl, if_pos rfl])
  have hsew : sew ≠ 0 := by
    rintro rfl
    exact hvl (by rw [shapeOf_vl, Nat.div_zero, Nat.min_zero, ite_self])
  have hrow : (shapeOf n q gvlen grsz sew).1 * sew ≤ grsz * 8 := by
    have := shapeOf_row_le n q gvlen grsz sew
    omega
  have hrows : 0 < grsz * 8 / ((shapeOf n q gvlen grsz sew).1 * sew) :=
    Nat.div_pos hrow (Nat.mul_pos (Nat.pos_of_ne_zero hvl) (Nat.pos_of_ne_zero hsew))
  rw [shapeOf_rl, if_neg hn]
  split <;> omega

/-! ### The instruction -/

/-- The etype is the last field of the VSTRIP parameters (R66). -/
theorem vstripParams_etype (x y : BitVec 1) (e : BitVec 4) : (x ++ y ++ e).toNat % 16 = e.toNat := by
  calc (x ++ y ++ e).toNat % 16 = ((x ++ y ++ e).setWidth 4).toNat := (BitVec.toNat_setWidth 4 (x ++ y ++ e)).symm
    _ = e.toNat := by rw [BitVec.setWidth_append_eq_right]

/-- R33: a pending grant becomes GVLEN, and none is pending any more. -/
theorem Strand.granted_eq (st : Strand) :
    st.granted = { st with gvlen := if st.grantPend then st.grantNext else st.gvlen, grantPend := false } := by
  unfold Strand.granted
  split
  · rfl
  · next h => rw [← Bool.of_not_eq_true h]

theorem exec_vstrip {s : State} {a b c : BitVec 5} (h : s.Ready [a, b, c]) (x y : BitVec 1) (e : BitVec 4) :
    exec (.vstrip a b c x y e) s =
      .next (s.upd fun st => st.vstrip a (st.rg b).toNat (st.rg c).toNat (x ++ y ++ e)).advance :=
  awaitG_ready h _

/-- Settles O10: the shape is that of `shapeOf` under the GVLEN that VSTRIP takes up, whose rows `shapeOf_rl_pos` bounds. -/
theorem vstripResult : Obligations.VstripResult := by
  unfold Obligations.VstripResult
  intro s a b c x y e hready n q gvlen sew vl rl
  have hvl : (shapeOf n q gvlen.toNat s.cur.grsz.toNat sew).1 = vl := shapeOf_vl ..
  have hrl : (shapeOf n q gvlen.toNat s.cur.grsz.toNat sew).2 = rl := by rw [shapeOf_rl, hvl]
  constructor
  · rw [← hvl, ← hrl]
    exact shapeOf_rl_pos
  · rw [exec_vstrip hready, ← hvl, ← hrl]
    simp only [State.upd, State.wg_eq, Strand.vstrip, Strand.granted_eq, vstripParams_etype]
    rfl

end Sys2Proof.Machine
end

section
/-! PROOFS. Transfers: where branches and jumps go (R71, R73, R130, R131), the link (R73) and the alignment of a register
target (R72, R132). -/

namespace Sys2Proof.Machine

/-! ### Branches -/

/-- A branch that is not taken goes on to the next word (R73). -/
theorem State.advance_eq_goto (s : State) : s.advance = s.goto (s.cur.pc + 4) := rfl

/-- R71: the target of an offset is that many blocks from the fetch block. -/
theorem offsetTarget_eq (s : State) {n : Nat} (o : BitVec n) :
    s.blk + o.signExtend 64 <<< 6 = s.block + BitVec.ofInt 64 (o.toInt * 64) := by
  rw [block_eq, ofInt_mul64]

/-- R130: a branch whose operands are ready goes to its target when the condition holds, else to the next word. -/
theorem goesTo_of_branch {s : State} {b c : BitVec 5} (h : s.Ready [b, c]) {x : Instr} {o : BitVec 13}
    (cond : Word → Word → Bool) {taken : Prop} (hx : exec x s = branch cond b c o s)
    (hcond : cond (s.rg b) (s.rg c) = true ↔ taken) :
    (taken → s.GoesTo x (s.block + BitVec.ofInt 64 (o.toInt * 64))) ∧ (¬ taken → s.GoesTo x (s.cur.pc + 4)) := by
  unfold State.GoesTo
  rw [hx, ← hcond, branch, awaitG_ready h, offsetTarget_eq, State.advance_eq_goto]
  constructor
  · intro ht
    rw [if_pos ht]
  · intro hn
    rw [if_neg hn]

/-- The condition of BGE. -/
theorem not_slt_iff_toInt_le (x y : Word) : (!x.slt y) = true ↔ y.toInt ≤ x.toInt := by
  rw [← BitVec.sle_eq_not_slt, BitVec.sle_iff_toInt_le]

/-- The condition of BGEN. -/
theorem not_ult_iff_toNat_le (x y : Word) : (!x.ult y) = true ↔ y.toNat ≤ x.toNat := by
  rw [← BitVec.ule_eq_not_ult, BitVec.ule_iff_toNat_le]

/-! ### Jumps -/

theorem exec_jmp (s : State) (o : BitVec 26) :
    exec (.jmp o) s = .next (s.goto (s.block + BitVec.ofInt 64 (o.toInt * 64))) := by
  rw [← offsetTarget_eq]
  rfl

theorem exec_call {s : State} (h : s.Ready [30]) (o : BitVec 26) :
    exec (.call o) s = .next ((s.wg 30 (s.block + 64)).goto (s.block + BitVec.ofInt 64 (o.toInt * 64))) := by
  rw [← offsetTarget_eq, block_eq]
  exact awaitG_ready h _

theorem exec_jr {s : State} {b : BitVec 5} (h : s.Ready [b]) :
    exec (.jr b) s = alignedTarget (s.rg b) s (.next (s.goto (s.rg b))) := awaitG_ready h _

theorem exec_jalr {s : State} {b : BitVec 5} (h : s.Ready [b, 30]) :
    exec (.jalr b) s = alignedTarget (s.rg b) s (.next ((s.wg 30 (s.block + 64)).goto (s.rg b))) := by
  rw [block_eq]
  exact awaitG_ready h _

/-- R72: a target on a block boundary is jumped to. -/
theorem alignedTarget_aligned {t : Word} (h : t.toNat % 64 = 0) (s : State) (k : Out) : alignedTarget t s k = k := by
  unfold alignedTarget
  rw [aligned_iff, decide_eq_true h]
  exact if_pos rfl

/-- R72: any other target traps, and what would follow does not happen. -/
theorem alignedTarget_misaligned {t : Word} (h : t.toNat % 64 ≠ 0) (s : State) (k : Out) :
    alignedTarget t s k = trapAt s causeBranch t := by
  unfold alignedTarget
  rw [aligned_iff, decide_eq_false h]
  exact if_neg Bool.false_ne_true

/-! ### The statement -/

/-- Settles O5: the branches through `goesTo_of_branch`, each with its condition in plain arithmetic; JR and JALR by the alignment
of their target. -/
theorem transferResult : Obligations.TransferResult := by
  unfold Obligations.TransferResult
  constructor
  · intro s b c o hready branches
    exact ⟨goesTo_of_branch hready (· == ·) rfl beq_iff_eq,
      goesTo_of_branch hready (· != ·) rfl bne_iff_ne,
      goesTo_of_branch hready (fun x y => x.slt y) rfl BitVec.slt_iff_toInt_lt,
      goesTo_of_branch hready (fun x y => !x.slt y) rfl (not_slt_iff_toInt_le ..),
      goesTo_of_branch hready (fun x y => x.ult y) rfl BitVec.ult_iff_toNat_lt,
      goesTo_of_branch hready (fun x y => !x.ult y) rfl (not_ult_iff_toNat_le ..)⟩
  · intro s b o hready target linked
    have hb : s.Ready [b] := hready.sub (by simp)
    have hlink : s.Ready [30] := hready.sub (by simp)
    refine ⟨exec_jmp s o, exec_call hlink o, fun haligned => ⟨?_, ?_⟩, fun hmisaligned => ⟨?_, ?_⟩⟩
    · exact (exec_jr hb).trans (alignedTarget_aligned haligned ..)
    · exact (exec_jalr hready).trans (alignedTarget_aligned haligned ..)
    · exact (exec_jr hb).trans (alignedTarget_misaligned hmisaligned ..)
    · exact (exec_jalr hready).trans (alignedTarget_misaligned hmisaligned ..)

end Sys2Proof.Machine
end

section
/-! PROOFS. Selection: compress, expand and prefix count (R173), conflict (R174) and search (R177). -/

namespace Sys2Proof.Machine

/-! ### Counts and searches as lists -/

/-- The active elements below a bound, counted. -/
theorem activeBelow_eq_length (act : Nat → Bool) (e : Nat) : activeBelow act e = ((List.range e).filter act).length := by
  induction e with
  | zero => rfl
  | succ e ih =>
    rw [activeBelow, ih, List.range_succ, List.filter_append, List.length_append]
    cases h : act e <;> simp [h]

/-- R174: the largest index comes first in the descending list. -/
theorem lastBelow_eq_head (p : Nat → Bool) (j : Nat) : lastBelow p j = ((List.range j).reverse.filter p).head? := by
  induction j with
  | zero => rfl
  | succ j ih =>
    rw [lastBelow, ih, List.range_succ, List.reverse_append, List.reverse_singleton, List.singleton_append, List.filter_cons]
    split <;> rfl

/-- R177: the lowest index comes first in the ascending list. -/
theorem firstFrom_eq_head (p : Nat → Bool) (e k : Nat) : firstFrom p e k = ((List.range' e k).filter p).head? := by
  induction k generalizing e with
  | zero => rfl
  | succ k ih =>
    rw [firstFrom, ih, List.range'_succ, List.filter_cons]
    split <;> rfl

/-! ### The guard of an entry -/

/-- An entry's guard selects the elements of the claim's, below a bound within N. -/
theorem filter_act (op : WOp) {s : State} (ho : op.onEnter = id) (m : BitVec 3) {k : Nat} (hk : k ≤ s.count) :
    (List.range k).filter ((entryFor op s.cur).act (entered op s).cur m) = (List.range k).filter (s.guard m) :=
  List.filter_congr fun _ hj => act_eq op ho m (Nat.lt_of_lt_of_le (List.mem_range.1 hj) hk)

/-- R54: an operation whose body writes one vector register of N elements under the guard of its entry. -/
theorem issue_guarded {op : WOp} {s : State} {a : BitVec 5} {m : BitVec 3} {f : Strand → Entry → Nat → Nat} {r : Nat → Nat}
    (hb : op.body = .regs fun st en => Eff.quiet [guarded (.v a) en.w en.n en (en.act st m) (f st en)])
    (h : Enters op s) (ho : op.onEnter = id) (hg : gDest op.ins = none)
    (hr : ∀ e < s.count, f (entered op s).cur (entryFor op s.cur) e = r e) :
    ∃ t, issue op s = .next t ∧ s.Retired t [.v a] [] ∧ s.Units t (.v a) s.sew s.count (s.guard m) r ∧
      t.cur.fflags = s.cur.fflags :=
  issue_writes hb h ho hg rfl rfl (fun _ he => act_eq op ho m he) fun e he _ => congrArg (· % 2 ^ s.sew) (hr e he)

/-! ### The members -/

/-- R173: element `j` of the destination is the `j`-th active element, and the tail begins after the last of them. -/
theorem vcompress_writes {s : State} {a b : BitVec 5} {m : BitVec 3} (he : s.etype ≠ 15) (h : s.Open (.vcompress a b m)) :
    s.Writes (.vcompress a b m) (.v a) s.sew (s.actives m).length (fun _ => true) fun j =>
      s.cur.elem b s.sew ((s.actives m).getD j 0) := by
  have hl : activeList ((entryFor (opVcompress a b m) s.cur).act (entered (opVcompress a b m) s).cur m) s.count =
      s.actives m := filter_act _ rfl m (Nat.le_refl _)
  rw [← hl]
  refine issue_plain (op := opVcompress a b m) rfl
    (State.Open.enters h rfl rfl rfl rfl (bne_iff_ne.2 he) (fun _ => rfl) rfl) rfl rfl rfl rfl fun j _ => ?_
  rw [Array.getD_eq_getD_getElem?, List.getElem?_toArray, List.getD_eq_getElem?_getD]
  rfl

/-- R173: an active element takes the element at the number of active elements below it. -/
theorem vexpand_writes {s : State} {a b : BitVec 5} {m : BitVec 3} (he : s.etype ≠ 15) (h : s.Open (.vexpand a b m)) :
    s.Writes (.vexpand a b m) (.v a) s.sew s.count (s.guard m) fun e =>
      s.cur.elem b s.sew ((List.range e).filter (s.guard m)).length := by
  refine issue_guarded (op := opVexpand a b m) rfl
    (State.Open.enters h rfl rfl rfl rfl (bne_iff_ne.2 he) (fun _ => rfl) rfl) rfl rfl fun e hn => ?_
  rw [activeBelow_eq_length, filter_act _ rfl m (Nat.le_of_lt hn)]
  rfl

/-- R173: VIOTA counts the bits of its mask, guarded or not. -/
theorem viota_writes {s : State} {a : BitVec 5} {p m : BitVec 3} (he : s.etype < 8) (h : s.Open (.viota a p m)) :
    s.Writes (.viota a p m) (.v a) s.sew s.count (s.guard m) fun e =>
      ((List.range e).filter (s.cur.mbit p)).length % 2 ^ s.sew := by
  refine issue_guarded (op := opViota a p m) rfl
    (State.Open.enters h rfl rfl rfl rfl (decide_eq_true he) (fun _ => rfl) rfl) rfl rfl fun e _ => ?_
  rw [popCount_eq]
  rfl

/-- R174: the largest index below the element at which an active element holds the same pattern. -/
theorem vconflict_writes {s : State} {a b : BitVec 5} {m : BitVec 3} (he : s.etype < 8) (h : s.Open (.vconflict a b m)) :
    s.Writes (.vconflict a b m) (.v a) s.sew s.count (s.guard m) fun e =>
      indexOr s.sew ((List.range e).reverse.filter fun j =>
        s.guard m j && s.cur.elem b s.sew j == s.cur.elem b s.sew e).head? := by
  refine issue_guarded (op := opVconflict a b m) rfl
    (State.Open.enters h rfl rfl rfl rfl (decide_eq_true he) (fun _ => rfl) rfl) rfl rfl fun e hn => ?_
  rw [lastBelow_eq_head, List.filter_congr fun j hj => ?_]
  · rfl
  · have hj : j < s.count := Nat.lt_trans (List.mem_range.1 (List.mem_reverse.1 hj)) hn
    rw [act_eq _ rfl m hj]
    rfl

/-- R177: the lowest index below N at which vC holds the same pattern, active or not. -/
theorem vinter_writes {s : State} {a b c : BitVec 5} {m : BitVec 3} (he : s.etype < 8) (h : s.Open (.vinter a b c m)) :
    s.Writes (.vinter a b c m) (.v a) s.sew s.count (s.guard m) fun e =>
      indexOr s.sew ((List.range s.count).filter fun j => s.cur.elem c s.sew j == s.cur.elem b s.sew e).head? := by
  refine issue_guarded (op := opVinter a b c m) rfl
    (State.Open.enters h rfl rfl rfl rfl (decide_eq_true he) (fun _ => rfl) rfl) rfl rfl fun e _ => ?_
  rw [firstFrom_eq_head, ← List.range_eq_range']
  rfl

/-! ### The statement -/

/-- Settles O23: one lemma per member; the index of a list is that of its head. -/
theorem selectionResult : Obligations.SelectionResult := by
  unfold Obligations.SelectionResult
  intro s a b c p m he w n x actives index gives
  have hindex : ∀ l : List Nat, indexOr w l.head? = index l := by
    intro l
    cases l <;> rfl
  refine ⟨vcompress_writes he, vexpand_writes he, viota_writes, fun ht ho => ?_, fun ht ho => ?_⟩
  · simp only [← hindex]
    exact vconflict_writes ht ho
  · simp only [← hindex]
    exact vinter_writes ht ho

end Sys2Proof.Machine
end

section
/-! PROOFS. The slalom former: its table (R263), entry (R266), claims (R268), waves (R269), retiring, clearing and counting
(R270). -/

namespace Sys2Proof.Machine

/-! ### The table -/

/-- R264: a signature names bits 0 to 255, each the top byte of a 32-bit product. -/
theorem sigOf_lt (a : Word) : sigOf a < 2 ^ 256 := by
  have key : ∀ (x : Nat) (keys : List Nat) (sig : Nat), sig < 2 ^ 256 →
      keys.foldl (fun sig h => sig ||| 2 ^ (x * h % 2 ^ 32 / 2 ^ 24)) sig < 2 ^ 256 := by
    intro x keys
    induction keys with
    | nil => exact fun _ hsig => hsig
    | cons h keys ih =>
      intro sig hsig
      have hbit : x * h % 2 ^ 32 / 2 ^ 24 < 256 := by omega
      exact ih _ (Nat.or_lt_two_pow hsig (Nat.pow_lt_pow_right (by decide) hbit))
  exact key _ hashKeys 0 (by decide)

/-- The signature of kind `k` of an item: WS for 0, RS for 1. -/
def Strand.sig (st : Strand) (k i : Nat) : Nat := bitsAt st.slalom.toNat 256 (2 * i + k)

theorem Strand.ws_eq_sig (st : Strand) (i : Nat) : st.ws i = st.sig 0 i := rfl

theorem Strand.rs_eq_sig (st : Strand) (i : Nat) : st.rs i = st.sig 1 i := rfl

theorem Strand.sig_lt (st : Strand) (k i : Nat) : st.sig k i < 2 ^ 256 := bitsAt_lt ..

/-- Replacing a signature of the table leaves every other one as it was. -/
theorem Strand.sig_setSig (st : Strand) {i k q : Nat} (hi : i < 256) (hk : k < 2) (hq : q < 2) (x e : Nat) :
    (st.setSig i k x).sig q e = if e = i ∧ q = k then x % 2 ^ 256 else st.sig q e := by
  have htable : (st.setSig i k x).slalom.toNat = putBits st.slalom.toNat 256 (2 * i + k) x := by
    unfold Strand.setSig
    rw [BitVec.toNat_ofNat, Nat.mod_eq_of_lt (putBits_lt st.slalom.isLt (by omega))]
  unfold Strand.sig
  rw [htable]
  split
  · next h =>
    obtain ⟨rfl, rfl⟩ := h
    exact bitsAt_putBits_same ..
  · next h => exact bitsAt_putBits_other _ _ _ _ (by omega)

/-! ### Edits of a list of items -/

/-- `u` is `st` with another table. -/
def Strand.SameButTable (st u : Strand) : Prop := u = { st with slalom := u.slalom }

theorem Strand.SameButTable.trans {a b c : Strand} (hab : a.SameButTable b) (hbc : b.SameButTable c) : a.SameButTable c := by
  unfold Strand.SameButTable at *
  rw [hbc, hab]

theorem Strand.SameButTable.foldl {f : Strand → Nat → Strand} (h : ∀ (st : Strand) i, st.SameButTable (f st i)) (l : List Nat)
    (st : Strand) : st.SameButTable (l.foldl f st) := by
  induction l generalizing st with
  | nil => rfl
  | cons i l ih => exact (h st i).trans (ih (f st i))

/-- `f` edits the item that it is given: its signatures of kind `q` go through `g`, and those of every other item stay. -/
def EditsItem (q : Nat) (f : Strand → Nat → Strand) (g : Nat → Nat → Nat) : Prop :=
  ∀ st, ∀ i < 256, ∀ e, (f st i).sig q e = if e = i then g i (st.sig q i) else st.sig q e

/-- Over a list without repetitions each item of it is edited once. -/
theorem EditsItem.foldl {q : Nat} {f : Strand → Nat → Strand} {g : Nat → Nat → Nat} (h : EditsItem q f g) {l : List Nat}
    (hn : l.Nodup) (hl : ∀ i ∈ l, i < 256) (st : Strand) (e : Nat) :
    (l.foldl f st).sig q e = if e ∈ l then g e (st.sig q e) else st.sig q e := by
  induction l generalizing st with
  | nil => rfl
  | cons i l ih =>
    obtain ⟨hi, hn⟩ := List.nodup_cons.1 hn
    rw [List.foldl_cons, ih hn fun j hj => hl j (List.mem_cons_of_mem i hj), h st i (hl i List.mem_cons_self)]
    by_cases he : e = i
    · subst he
      rw [if_neg hi, if_pos rfl, if_pos List.mem_cons_self]
    · simp only [List.mem_cons, he, false_or, if_false]

/-- The same over those of the first items that `p` selects. -/
theorem EditsItem.foldl_filter {q : Nat} {f : Strand → Nat → Strand} {g : Nat → Nat → Nat} (h : EditsItem q f g) {n : Nat}
    (hn : n ≤ 256) (p : Nat → Bool) (st : Strand) (e : Nat) :
    (((List.range n).filter p).foldl f st).sig q e = if e < n ∧ p e = true then g e (st.sig q e) else st.sig q e := by
  rw [h.foldl (List.Pairwise.filter p List.nodup_range) fun i hi => ?_]
  · simp only [List.mem_filter, List.mem_range]
  · exact Nat.lt_of_lt_of_le (List.mem_range.1 (List.mem_filter.1 hi).1) hn

/-- R268: OR a mark into a signature of an item. -/
def addMark (k : Nat) (mark : Nat → Nat) (st : Strand) (i : Nat) : Strand :=
  st.setSig i k ((if k = 0 then st.ws i else st.rs i) ||| mark i)

theorem addMark_sameButTable (k : Nat) (mark : Nat → Nat) (st : Strand) (i : Nat) : st.SameButTable (addMark k mark st i) := rfl

theorem addMark_edits {k q : Nat} (hk : k < 2) (hq : q < 2) {mark : Nat → Nat} (hm : ∀ i, mark i < 2 ^ 256) :
    EditsItem q (addMark k mark) fun i x => if q = k then x ||| mark i else x := by
  intro st i hi e
  have hold : (if k = 0 then st.ws i else st.rs i) = st.sig k i := by
    obtain rfl | rfl : k = 0 ∨ k = 1 := by omega
    · exact st.ws_eq_sig i
    · exact st.rs_eq_sig i
  unfold addMark
  rw [hold, st.sig_setSig hi hk hq, Nat.mod_eq_of_lt (Nat.or_lt_two_pow (st.sig_lt k i) (hm i))]
  by_cases he : e = i
  · subst he
    by_cases hqk : q = k
    · subst hqk
      simp
    · simp [hqk]
  · simp [he]

/-- R270: clear both signatures of an item. -/
def retireItem (st : Strand) (i : Nat) : Strand := (st.setSig i 0 0).setSig i 1 0

theorem retireItem_sameButTable (st : Strand) (i : Nat) : st.SameButTable (retireItem st i) := rfl

theorem retireItem_edits {q : Nat} (hq : q < 2) : EditsItem q retireItem fun _ _ => 0 := by
  intro st i hi e
  unfold retireItem
  rw [Strand.sig_setSig _ hi (by decide) hq, Strand.sig_setSig _ hi (by decide) hq]
  by_cases he : e = i
  · obtain rfl | rfl : q = 0 ∨ q = 1 := by omega
    · simp [he]
    · simp [he]
  · simp [he]

/-- R270: no signature is left in an empty table. -/
theorem Strand.sig_cleared (st : Strand) (k i : Nat) : ({ st with slalom := 0 } : Strand).sig k i = 0 := by
  unfold Strand.sig bitsAt
  simp only [BitVec.ofNat_eq_ofNat, BitVec.toNat_zero, Nat.zero_shiftRight, Nat.zero_mod]

/-! ### Entry -/

/-- R266: none of the checks of a member fails. -/
theorem slalomPre_eq_none {s : State} (i : Instr) (he : s.etype ≠ 15) (hn : s.count ≤ 256) : slalomPre i s = none := by
  unfold slalomPre
  split
  · rfl
  · rw [if_neg (show ¬ s.cur.vtype.toNat % 16 = 15 from he), if_neg (show ¬ 256 < s.cur.nElems from Nat.not_lt.2 hn)]

/-- An instruction that leaves these signatures, and with them the strand at the next word and all else as it was. -/
def State.Leaves (s : State) (o : Out) (ws rs : Nat → Nat) : Prop :=
  ∃ u : State, o = .next u ∧
    u = { s with cur := { s.cur with pc := s.cur.pc + 4, wcount := 0, slalom := u.cur.slalom } } ∧
    ∀ e < 256, u.cur.ws e = ws e ∧ u.cur.rs e = rs e

theorem State.Leaves.congr {s : State} {o : Out} {ws rs ws' rs' : Nat → Nat} (h : s.Leaves o ws rs)
    (hws : ∀ e, ws e = ws' e) (hrs : ∀ e, rs e = rs' e) : s.Leaves o ws' rs' := by
  rwa [← funext hws, ← funext hrs]

/-- R267: a member that acts on the table alone acts at once. -/
theorem issue_leaves {op : WOp} {s : State} {f : Strand → Entry → Strand} {ws rs : Nat → Nat}
    (hb : op.body = (slalomOp op.ins f).body) (h : Enters op s) (ho : op.onEnter = id) (hv : s.cur.vl ≠ 0)
    (hf : (entered op s).cur.SameButTable (f (entered op s).cur (entryFor op s.cur)))
    (hr : ∀ e < 256, (f (entered op s).cur (entryFor op s.cur)).sig 0 e = ws e ∧
      (f (entered op s).cur (entryFor op s.cur)).sig 1 e = rs e) : s.Leaves (issue op s) ws rs := by
  have hlive : ¬ ((entryFor op s.cur).vl == 0#32) = true := fun h0 => hv (beq_iff_eq.1 h0)
  refine ⟨{ s with cur := { s.cur with
    pc := s.cur.pc + 4, wcount := 0, slalom := (f (entered op s).cur (entryFor op s.cur)).slalom } }, ?_, rfl, hr⟩
  rw [issue_enters h (by rw [ho]; exact Plain.id), hb]
  simp only [slalomOp, runBody, settle, State.upd, if_neg hlive]
  rw [hf, entered_eq ho, ← h.empty]

/-! ### The members -/

/-- R269: two items do not conflict. -/
theorem Strand.not_conflict_iff (st : Strand) (i j : Nat) :
    (!st.conflict i j) = true ↔ st.ws i &&& (st.ws j ||| st.rs j) = 0 ∧ st.rs i &&& st.ws j = 0 := by
  unfold Strand.conflict
  rw [Bool.not_or, Bool.and_eq_true, bne, bne, Bool.not_not, Bool.not_not, beq_iff_eq, beq_iff_eq]

/-- R269: an item is compared with the pending items below it, admitted or not. -/
theorem Strand.admitted_iff (st : Strand) (b : BitVec 3) (i : Nat) :
    st.admitted b i = true ↔ st.mbit b i = true ∧ ∀ j < i, st.mbit b j = true →
      st.ws i &&& (st.ws j ||| st.rs j) = 0 ∧ st.rs i &&& st.ws j = 0 := by
  unfold Strand.admitted
  rw [Bool.and_eq_true, List.all_eq_true]
  refine and_congr_right fun _ => forall_congr' fun j => ?_
  rw [List.mem_range, Bool.or_eq_true, st.not_conflict_iff]
  refine imp_congr_right fun _ => ?_
  cases st.mbit b j <;> simp

section
variable {s : State} (he : s.etype ≠ 15) (hn : s.count ≤ 256)
include he hn

/-- R268: a claim marks the active items in its signatures, and none in the others. -/
theorem claim_leaves {i : Instr} (b c : BitVec 5) (m : BitVec 3) {k : Nat} (hk : k < 2) (hv : s.cur.vl ≠ 0)
    (h : s.Open i) :
    let size := if s.etype = 14 then 1 else s.sew / 8
    let mark := fun e => sigOf (s.rg b + BitVec.ofNat 64 (s.cur.elem c 32 e * size))
    let hit := fun e => decide (e < s.count) && s.guard m e
    let marked := fun q e => if hit e then (if q = k then s.cur.sig q e ||| mark e else s.cur.sig q e) else s.cur.sig q e
    s.Leaves (issue (claim i b c m k) s) (marked 0) (marked 1) := by
  intro size mark hit marked
  have hrun : ∀ q < 2, ∀ e, (((List.range s.count).filter hit).foldl (addMark k mark)
      (entered (claim i b c m k) s).cur).sig q e = marked q e := by
    intro q hq e
    rw [(addMark_edits hk hq fun _ => sigOf_lt _).foldl_filter hn]
    have hin : (e < s.count ∧ hit e = true) ↔ hit e = true := by
      simp only [hit, Bool.and_eq_true, decide_eq_true_eq]
      exact and_iff_right_of_imp And.left
    simp only [hin]
    rfl
  exact issue_leaves (op := claim i b c m k) rfl
    (State.Open.enters h rfl rfl (slalomPre_eq_none i he hn) rfl rfl (fun _ => rfl) rfl) rfl hv
    (Strand.SameButTable.foldl (addMark_sameButTable k mark) ..)
    fun e _ => ⟨hrun 0 (by decide) e, hrun 1 (by decide) e⟩

/-- R269: SWAVE writes the admitted items below N. -/
theorem swave_writes (a b : BitVec 3) (h : s.Open (.swave a b)) :
    s.Writes (.swave a b) (.m a) 1 s.count (fun _ => true) fun e => (s.cur.admitted b e).toNat :=
  issue_plain (op := opSwave a b) rfl
    (State.Open.enters h rfl rfl (slalomPre_eq_none (.swave a b) he hn) rfl rfl (fun _ => rfl) rfl) rfl rfl rfl rfl
    fun _ _ => rfl

/-- R270: SRETIRE clears the items below N of its mask. -/
theorem sretire_leaves (b : BitVec 3) (hv : s.cur.vl ≠ 0) (h : s.Open (.sretire b)) :
    s.Leaves (exec (.sretire b) s) (fun e => if e < s.count ∧ s.cur.mbit b e = true then 0 else s.cur.ws e)
      (fun e => if e < s.count ∧ s.cur.mbit b e = true then 0 else s.cur.rs e) :=
  issue_leaves (op := opSretire b) rfl
    (State.Open.enters h rfl rfl (slalomPre_eq_none (.sretire b) he hn) rfl rfl (fun _ => rfl) rfl) rfl hv
    (Strand.SameButTable.foldl retireItem_sameButTable ..)
    fun e _ => ⟨(retireItem_edits (by decide)).foldl_filter hn _ _ e, (retireItem_edits (by decide)).foldl_filter hn _ _ e⟩

/-- R270: SCLEAR clears every item. -/
theorem sclear_leaves (hv : s.cur.vl ≠ 0) (h : s.Open .sclear) : s.Leaves (exec .sclear s) (fun _ => 0) (fun _ => 0) :=
  issue_leaves (op := opSclear) rfl
    (State.Open.enters h rfl rfl (slalomPre_eq_none .sclear he hn) rfl rfl (fun _ => rfl) rfl) rfl hv rfl
    fun e _ => ⟨Strand.sig_cleared _ 0 e, Strand.sig_cleared _ 1 e⟩

/-- R270: SPEND counts the items with a signature that is not zero. -/
theorem spend_returns (a : BitVec 5) (h : s.Open (.spend a)) :
    s.Returns (.spend a) a (BitVec.ofNat 64
      ((List.range s.count).filter fun e => s.cur.ws e != 0 || s.cur.rs e != 0).length) :=
  issue_returns (op := opSpend a) rfl
    (State.Open.enters h rfl rfl (slalomPre_eq_none (.spend a) he hn) rfl rfl (fun _ => rfl) rfl) rfl (.inl rfl) rfl rfl rfl

end

/-! ### The statement -/

/-- Settles O42: one lemma per member, the two claims being one operation on two signatures; an item of the wave is admitted as
`Strand.admitted_iff` says. -/
theorem slalomResult : Obligations.SlalomResult := by
  unfold Obligations.SlalomResult
  intro s a b g c m he hv hn size mark hit apart makes
  refine ⟨fun h => ?_, fun h => ?_, sretire_leaves he hn b hv, sclear_leaves he hn hv, fun h => ?_, spend_returns he hn g⟩
  · exact (claim_leaves he hn g c m (k := 0) (by decide) hv h).congr (fun _ => rfl) fun _ => ite_self _
  · exact (claim_leaves he hn g c m (k := 1) (by decide) hv h).congr (fun _ => ite_self _) fun _ => rfl
  · have hwave : ∀ e, (s.cur.admitted b e).toNat =
        if s.cur.mbit b e = true ∧ ∀ j < e, s.cur.mbit b j = true → apart e j then 1 else 0 := fun e => by
      rw [Bool.toNat, cond_eq_ite]
      exact ite_congr (propext (s.cur.admitted_iff b e)) (fun _ => rfl) fun _ => rfl
    simpa only [hwave] using swave_writes he hn a b h

end Sys2Proof.Machine
end
